-- ==== Sys2Proof/Word.lean ====
section
/-! DEFINITION. The word types of the GX8128: bytes, halves, whole registers and addresses (R11, R36, R46). -/

namespace Sys2Proof

/-- One byte. -/
abbrev Byte := BitVec 8

/-- A 32-bit register or one half of a 64-bit register (R46). -/
abbrev Half := BitVec 32

/-- A register as State keeps it: 64 bits, the high half zero where the register has 32 (R46). -/
abbrev Word := BitVec 64

/-- A physical address: 40 bits (R36). -/
abbrev Addr := BitVec 40

end Sys2Proof
end

