-- ==== Sys2Proof/Syntax.lean ====
section
/-! DEFINITION. The commands of the GX8128: one constructor for each row of the operation table, with the operands
that the row's rules name. A register access carries its requester; an event carries what the world outside the
modelled block supplies (a frame's bytes, a sample, an offset, a stamp). -/

namespace Sys2Proof

/-- The privilege mode of an application core (R521); ignored for every other master. -/
inductive Mode where
  | machine | supervisor | user
  deriving DecidableEq, Repr

/-- Who issues an access: its master identity (R40, identities 0–17) and, for a core, its mode (R41). -/
structure Req where
  master : Fin 18
  mode : Mode
  deriving DecidableEq, Repr

/-- The width of an access in bits (R36, R47). -/
inductive Width where
  | w8 | w16 | w32 | w64
  deriving DecidableEq, Repr

/-- The time sources of the timebase (R109–R117); the numbers are those of TB_STATE.SOURCE. -/
inductive TimeSource where
  | ptp | refsync | pps | chain
  deriving DecidableEq, Repr

/-- What the PCS of a port reports (R361, R391). -/
structure LinkBits where
  blockLock : Bool
  hiBer : Bool
  fecLock : Bool
  anDone : Bool
  remoteFault : Bool
  corrected : Nat := 0       -- RS-FEC codewords corrected since the last report, and those not correctable
  uncorrectable : Nat := 0
  deriving DecidableEq, Repr

/-- What an ECC-protected read meets (R510, R514). -/
inductive Ecc where
  | clean | correctable | uncorrectable
  deriving DecidableEq, Repr

/-- The kind of a chain link (R432); the numbers are those of CHAIN_LINK.KIND. -/
inductive LinkKind where
  | uplink | downlink | standby | boot
  deriving DecidableEq, Repr

/-- What a TRAIN frame says of its sender (R434, R437). -/
structure Train where
  index : Fin 16
  names : Fin 16          -- the device index that the sender's link record names as PEER
  topology : BitVec 32    -- CRC-32C of the sender's CHAIN payload bytes 0–63
  width : Fin 5           -- ports in the sender's link
  rank : Fin 4
  kind : Option LinkKind  -- the kind the sender gives the link; none where it fits no kind
  epoch : BitVec 16
  deriving DecidableEq, Repr

/-- A HEARTBEAT (R440, R447). -/
structure Heartbeat where
  epoch : BitVec 16
  n : Nat
  d : Nat
  lRef : Nat
  deriving DecidableEq, Repr

/-- A forwarded cue (R445): an arm with the slot's contents, or a disarm. -/
structure CueFrame where
  epoch : BitVec 16
  slot : Fin 8192
  contents : Option (List Byte)   -- the 32 bytes of an arm; none for a disarm
  deriving DecidableEq, Repr

/-- A window access carried over the chain (R441, R442). -/
structure Tunnel where
  id : Nat
  epoch : BitVec 16
  dst : Fin 16            -- the device index of the part it is for
  addr : Addr             -- the address on that part
  width : Width
  write : Bool
  data : Word
  deriving DecidableEq, Repr

/-- Which response a frame carries: the port on which it came, its EPOCH, the part that sent it, and the id of the request (R437,
R442, R450). -/
structure TunnelReply where
  port : Fin 128
  epoch : BitVec 16
  src : Fin 16
  id : Nat
  deriving DecidableEq, Repr

/-- How one transaction of an I²C bus ends (R554); the numbers are those of I2C_STATUS.RESULT. -/
inductive I2cResult where
  | ok | nackAddr | nackData | busStuck
  deriving DecidableEq, Repr

/-- The commands, in the operation table's families. -/
inductive Instr where
  -- register access, power and thermal
  | registerWrite (r : Req) (a : Addr) (w : Width) (d : Word)
  | lowHalfRead (r : Req) (a : Addr)
  | lowHalfWrite (r : Req) (a : Addr) (d : Half)
  | setAliasWrite (r : Req) (a : Addr) (w : Width) (d : Word)
  | clearAliasWrite (r : Req) (a : Addr) (w : Width) (d : Word)
  | toggleAliasWrite (r : Req) (a : Addr) (w : Width) (d : Word)
  | sequenceClear (r : Req) (a : Addr) (seq mask : BitVec 16)
  | mirrorWrite (r : Req) (a : Addr) (w : Width) (d : Word)
  | slowClockEdge (tj : List (BitVec 16)) (nJ : List Nat)
  | thermalHoldExit
  | tripRelease (role : Fin 4) (index : Fin 16)
  | supplyOutOfRange (rail : Fin 8)
  | supplyRecovered (rail : Fin 8)
  | governorEvaluation (deciWatt : Nat)
  | pwrSnap (r : Req) (d : Half)
  | semAcquire (r : Req) (n : Fin 64)
  | semRelease (r : Req) (n : Fin 64) (d : Half)
  | semForce (r : Req) (d : Half)
  | classLock (r : Req) (d : Half)
  | accessLogHeadRead (r : Req)
  -- the Ingot
  | slotWindowWrite (r : Req) (slot : Fin 2) (off : Fin 65536) (w : Width) (d : Word)
  | validate (r : Req) (slot : Fin 2)
  | loadNvm (r : Req) (slot : Fin 2)
  | nvmCopyDone (slot : Fin 2)
  | clear (r : Req) (slot : Fin 2)
  | activate (r : Req) (slot : Fin 2)
  | ingotCmdRefused (r : Req) (d : Half)
  | validationDone (slot : Fin 2)
  | swapIngot (cue : Fin 8192)
  | quadIdleEnd (q : Fin 32)
  | hitRasterRestart (m : Fin 16)
  -- the timebase
  | fclkTick
  | referenceLineStart
  | referenceFrameStart
  | tbIncrWrite (r : Req) (d : Word)
  | tbStep (r : Req) (d : Word)
  | tbSetNs (r : Req) (d : Half)
  | tbCapture (r : Req) (d : Half)
  | tbRefApply (r : Req) (d : Word)
  | refChangeJudge
  | sourceQualified (src : TimeSource) (ptpPort : Fin 2) (gm : Word) (offset : Int)
  | sourceLost (src : TimeSource)
  | timebaseMeasurement (offset : Int) (pathDelay : Nat)
  | sourceRevert (src : TimeSource) (ptpPort : Fin 2) (gm : Word) (offset : Int)
  | refsyncFEdge
  | refsyncLEdge
  | ppsInEdge (ref10mOk : Bool) (periodNs : Nat)
  | refsyncLost
  | ppsLost
  | syncoutCfgWrite (r : Req) (n : Fin 4) (d : Half)
  -- the rasters
  | rasterFrameStart (m : Fin 16)
  | rasterFrameEnd (m : Fin 16)
  | rasterWaitEnd (m : Fin 16)
  | stp (m : Fin 16)
  | ungovernedLanding
  | composeLine (m : Fin 16)
  | sendPosition (m : Fin 16)
  | resultPoint (u : Fin 16)
  -- cues and commits
  | cueArm (r : Req) (slot : Fin 8192)
  | cueDisarm (r : Req) (slot : Fin 8192)
  | commit (cue : Fin 8192)
  | write (cue : Fin 8192)
  | startBlit (cue : Fin 8192)
  | signal (cue : Fin 8192)
  | loadExpect (cue : Fin 8192)
  | cueCommit (r : Req) (mask : Word)
  | chainCueFrame (link : Fin 16) (f : CueFrame)
  -- layer engines, cluster fills and raster restarts
  | leTouch (r : Req) (n : Fin 32) (d : Half)
  | leTolMinRestart (r : Req) (n : Fin 32) (d : Half)
  | toleranceUpdate (n : Fin 32)
  | leBurstArrival (n : Fin 32) (m : Fin 16) (a : Addr) (e : Ecc)
  | leDecodeLoad (r : Req) (n : Fin 32) (d : Half)
  | decodeFillDone (n : Fin 32)
  | bcEncodeLoad (r : Req) (n : Fin 8) (d : Half)
  | encodeFillDone (n : Fin 8)
  | orsUnderRestart (r : Req) (m : Fin 16) (d : Half)
  -- Blueri Tile Link
  | btlCtrlSend (r : Req) (p : Fin 128) (d : Half)
  | ctrlTimeout (p : Fin 128) (ch : Fin 2)
  | cackReceived (p : Fin 128) (frame : List Byte)
  | btlEchoReq (r : Req) (p : Fin 128) (d : Half)
  | echoRoundStart (p : Fin 128)
  | echoReplyReceived (p : Fin 128) (frame : List Byte)
  | echoTimeout (p : Fin 128)
  | statReceived (p : Fin 128) (frame : List Byte)
  | btlTest (r : Req) (p : Fin 128) (d : Half)
  | testReplyReceived (p : Fin 128) (frame : List Byte)
  | testEnd (p : Fin 128)
  | btlRxDiscard (p : Fin 128) (frame : List Byte)
  -- ports
  | portTxStart (p : Fin 128) (billet : Ecc)
  | portTxComplete (p : Fin 128)
  | portRxFrame (p : Fin 128) (frame : List Byte) (fcsOk : Bool) (billet : Ecc)
  | crucibleRetry (p : Fin 128)
  | linkStateChange (p : Fin 128) (bits : LinkBits)
  | refclkChange (pair : Fin 16) (present : Bool)
  | laneCfgWrite (r : Req) (p : Fin 128) (d : Half)
  | queueShapeWrite (r : Req) (p : Fin 128) (q : Fin 8) (burst : Bool) (d : Half)
  | queueQuantumWrite (r : Req) (p : Fin 128) (q : Fin 8) (d : Half)
  | gateCycleStart (p : Fin 128)
  | gateEntryEnd (p : Fin 128)
  | gateSwitch (r : Req) (p : Fin 128) (d : Half)
  | gateCtrlWrite (r : Req) (p : Fin 128) (d : Half)
  | policerApply (r : Req) (f : Fin 512) (d : Half)
  | ringCfgWrite (r : Req) (p : Fin 128) (tx : Bool) (d : Half)
  | htxProd (r : Req) (p : Fin 128) (d : Half)
  | queueSample (p : Fin 128)
  | portSampleRestart (r : Req) (p : Fin 128) (d : Half)
  | fiEnable (r : Req) (p : Fin 128) (dir : Fin 2) (d : Half)
  | fiReorderRelease (p : Fin 128)
  | cruRestart (r : Req) (d : Half)
  -- ingest
  | ingestFrame (p : Fin 128) (frame : List Byte)
  | flowEnable (r : Req) (f : Fin 512) (d : Half)
  | flowDisable (r : Req) (f : Fin 512) (d : Half)
  | ingestFrameComplete (f : Fin 512)
  | frameAbandonTimeout (f : Fin 512)
  | pathDown (f : Fin 512)
  | replicaReceived (p : Fin 128) (f : Fin 512) (rtp : List Byte)
  | ingestPacketWritten (f : Fin 512)
  -- the Photor Chain
  | trainTx (p : Fin 128)
  | trainReceived (p : Fin 128) (t : Train)
  | trainTimeout (p : Fin 128)
  | timeExchangeStart (link : Fin 16)
  | timeRequestReceived (p : Fin 128) (epoch : BitVec 16) (t1 : Nat)
  | timeReplyReceived (link : Fin 16) (epoch : BitVec 16) (t1 t2 t3 t4 : Int)
  | chainTimeLost
  | heartbeatReceived (p : Fin 128) (h : Heartbeat)
  | statusReceived (p : Fin 128) (src : Fin 16)
  | peerLost (n : Fin 16)
  | takeover
  | chainTakeover (r : Req) (d : Half)
  | tunnelRequest (r : Req) (a : Addr) (w : Width) (wr : Bool) (d : Word)
  | tunnelRequestReceived (p : Fin 128) (t : Tunnel)
  | tunnelResponse (x : TunnelReply) (error : Bool) (d : Word)
  | tunnelTimeout (id : Nat)
  | doorbellReceived (p : Fin 128) (src : Fin 16)
  | chainHostFrame (p : Fin 128) (frame : List Byte)
  | chainFrameDiscard (p : Fin 128)
  -- blit engines
  | bltProdWrite (r : Req) (b : Fin 4) (d : Half)
  | descriptorRead (b : Fin 4)
  | fill (b : Fin 4)
  | copy (b : Fin 4)
  | convert (b : Fin 4)
  | descriptorComplete (b : Fin 4)
  | bltResume (r : Req) (b : Fin 4) (d : Half)
  | bltCtrlWrite (r : Req) (b : Fin 4) (d : Half)
  | bltRingCfgWrite (r : Req) (b : Fin 4) (base : Bool) (d : Word)
  -- check units
  | sigExpectWrite (r : Req) (u : Fin 16) (d : Word)
  | mcuExpectWrite (r : Req) (m : Fin 4) (d : Word)
  | mcuGo (r : Req) (m : Fin 4) (d : Half)
  | mcuRunEnd (m : Fin 4)
  -- DDR4 and the Slab
  | prechargePowerDownEntry (c : Fin 16)
  | selfRefreshEntry (c : Fin 16)
  | lowPowerExit (c : Fin 16)
  | refresh (c : Fin 16)
  | caParityAlert (c : Fin 16)
  | wrCrcAlert (c : Fin 16)
  | mcReadComplete (c : Fin 16) (a : Addr) (e : Ecc) (scrub : Bool)
  | mcScrubPassDone (c : Fin 16)
  | mcRefreshWrite (r : Req) (c : Fin 16) (d : Half)
  | slabScrubPassDone
  | slabRetentionEntry (bank : Nat)
  -- interrupts and cores
  | plicClaim (r : Req) (ctx : Fin 17)
  | plicComplete (r : Req) (ctx : Fin 17) (d : Half)
  | machineTimerInterrupt (k : Fin 8)
  | coreRelease (r : Req) (d : Half)
  | coreReset (r : Req) (d : Half)
  | lockstepMismatch
  -- mailboxes
  | mbMsgWrite (r : Req) (n : Fin 64) (w : Fin 16) (d : Half)
  | mbSend (r : Req) (n : Fin 64) (d : Half)
  | mbAck (r : Req) (n : Fin 64) (d : Half)
  | mbDone (r : Req) (n : Fin 64) (d : Half)
  | mbAckTimeout (n : Fin 64)
  | mbBindLock (r : Req) (d : Half)
  -- service interfaces
  | mmacCfgWrite (r : Req) (m : Fin 2) (d : Half)
  | mmacRxFrame (m : Fin 2) (frame : List Byte) (fcsOk : Bool)
  | mmacTxProd (r : Req) (m : Fin 2) (d : Half)
  | mmacTxSlotSent (m : Fin 2)
  | mdioAddress (r : Req) (c45 : Bool) (phy reg : Fin 32) (d : BitVec 16)
  | mdioWrite (r : Req) (c45 : Bool) (phy reg : Fin 32) (d : BitVec 16)
  | mdioReadIncrement (r : Req) (c45 : Bool) (phy reg : Fin 32)
  | mdioRead (r : Req) (c45 : Bool) (phy reg : Fin 32)
  | mdioFrameDone (answer : Option (BitVec 16))
  | uartTxWrite (r : Req) (d : Half)
  | uartRxRead (r : Req)
  | uartRxByte (b : Byte) (stopBit : Bool)
  | uartTxByteSent
  | gpioInputChange (levels : BitVec 32)
  | gpioIntAck (r : Req) (d : Half)
  | i2cXfer (r : Req) (b : Fin 2) (d : Half)
  | i2cDone (b : Fin 2) (res : I2cResult) (acked : Nat) (bytes : List Byte)
  | i2cSclTimeout (b : Fin 2)
  | spiCmd (r : Req) (d : Half)
  | spiDone (bytes : List Byte)
  -- debug
  | dmActivated
  | debugHaltRequest (k : Fin 8)
  | dbgLock (r : Req) (d : Half)
  -- NVM, reset and boot
  | nvmKey (r : Req) (d : Half)
  | nvmStore (r : Req) (d : Half)
  | storeDone (verified : Bool)
  | nvmReadSel (r : Req) (d : Half)
  | warmReset (r : Req)
  | keeperReset (r : Req)
  | watchdogExpiry
  | kwdtKick (r : Req) (d : Half)
  | powerOnReset (pwrGood resetN : Bool)
  | resetRelease (role : Fin 4) (index : Fin 16)
  | firmwareStart (spiFirmware spiParams : List Byte)
  | ddrTrainingDone (failed : List (Fin 16))
  | appImageLoaded (image : List Byte)
  -- rows listed after the families
  | registerRead (r : Req) (a : Addr) (w : Width)
  | mmacLinkChange (m : Fin 2) (up anDone : Bool) (rate : Fin 4)
  | debugResume (k : Fin 8)
  | dmDeactivated
  deriving DecidableEq, Repr

end Sys2Proof
end

