-- ==== Sys2Proof/Decode.lean ====
section
/-! DEFINITION. The word decoder. No row of the operation table gives bits: a command of this part is an access of a
master or an event, not a word. -/

namespace Sys2Proof

/-- The command that a word spells: none, for the operation table gives no row any bits (log entry 1). -/
def decodeTableWord (_nbits _w : Nat) : Option Instr := none

end Sys2Proof
end

