-- ==== Sys2Proof/Machine/RegKind.lean ====
section
/-! DEFINITION. What a register table of the spec says of a register (R18–R20, R39–R41): the places of its fields,
their type codes, its class, its reset value, and which operation of this model a read or a write of it starts. -/

namespace Sys2Proof.Machine

/-- A field of a register: the register's address in the normal view and the field's bits (R11). -/
structure Fld where
  addr : Nat
  hi : Nat
  lo : Nat
  deriving DecidableEq, Repr

/-- The type codes of R20; sq covers SEQ and the flags. -/
inductive FieldType where
  | rw | ro | wo | wo1 | sq | mr | rsv
  deriving DecidableEq, Repr

/-- One row of a register table. -/
structure Field where
  hi : Nat
  lo : Nat
  type : FieldType
  deriving DecidableEq, Repr

/-- The classes of R41, in rising order. -/
inductive RegClass where
  | OPEN | PRIV | SECURE
  deriving DecidableEq, Repr

/-- The number of a class, as CLASS_FLOOR and ACCESS_LOG_ENTRY.NEEDED write it (R43, R621). -/
def RegClass.num : RegClass → Nat
  | .OPEN => 0
  | .PRIV => 1
  | .SECURE => 2

/-- The reset value of a register: one number, or a table the spec computes from the element's index. -/
inductive ResetKind where
  | const (v : Nat)      -- the table's Reset column
  | blockId              -- BLOCK_ID: as const, with the instance number in [15:8] (R39)
  | diag (v : Nat)       -- a 3×3 matrix in nine elements: v on the diagonal, 0 elsewhere
  | decodeLut            -- entry i holds round(2^20 · i / 4095) (R274)
  | encodeLut            -- entry i holds its own input, at most 1.0 (R279)
  | meshCoef             -- the bilinear preset (R213)
  deriving DecidableEq, Repr

/-- What a register does beside holding its fields. -/
inductive Eff where
  | plain
  | accessLogHead
  | appcxCoreCtrl
  | bcEncodeLoad
  | bltCtrl
  | bltProd
  | bltResume
  | bltRingBase
  | bltRingCfg
  | bltState
  | btlCtrlSend
  | btlEchoReq
  | btlTest
  | chainDoorbell
  | chainTakeover
  | classFloor
  | classLock
  | coreClk
  | cruCfg
  | cruRestart
  | cueArm
  | cueCommit
  | cueCommitTicket
  | dbgCtrl
  | dbgLock
  | fiCfg
  | flowState
  | gateCtrl
  | gateEntry
  | gateLen
  | gateSwitch
  | gateTime
  | gpioIntAck
  | hrxBase
  | hrxCfg
  | htxBase
  | htxCfg
  | htxProd
  | i2cXfer
  | ingFlowCfg
  | ingFlowCtrl
  | ingotCmd
  | kwdtKick
  | leDecodeLoad
  | leDirty
  | leLiveSurf
  | leTolMinRestart
  | leTouch
  | mbAck
  | mbBind
  | mbBindLock
  | mbDone
  | mbMsg
  | mtimecmp
  | mbSend
  | mcRefresh
  | mcResidency
  | mcuExpect
  | mcuGo
  | mdioCmd
  | mmacCfg
  | mmacRing
  | mmacTxProd
  | nvmKey
  | nvmReadSel
  | nvmStore
  | orsNow
  | orsState
  | orsUnderRestart
  | plicClaim
  | plicClaimK
  | plicPending
  | polCbs
  | polCir
  | polPbs
  | polPir
  | portSampleCfg
  | portSampleRestart
  | pqLaneCfg
  | pwrSnap
  | queueCredit
  | queueQuantum
  | queueShapeBurst
  | queueShapeRate
  | resetCtrl
  | sigExpect
  | spiCmd
  | sysSemAcq
  | sysSemForce
  | sysSemPeek
  | sysSemRel
  | tbCapture
  | tbHoldoverS
  | tbIncr
  | tbNow
  | tbRefApply
  | tbSetNs
  | tbSetTime
  | tbStep
  | tbSyncoutCfg
  | tbUtc
  | uartRx
  | uartTx
  deriving DecidableEq, Repr

/-- One register of a block's table; dims lists number and stride of each index, outermost first. -/
structure RegRow where
  off : Nat
  dims : List (Nat × Nat)
  wide : Bool
  cls : RegClass
  shadowed : Bool
  reset : ResetKind
  eff : Eff
  fields : List Field
  deriving DecidableEq, Repr

/-- The blocks of one type (R38). -/
structure BlockRow where
  first : Nat
  count : Nat
  rows : List RegRow
  deriving DecidableEq, Repr

end Sys2Proof.Machine
end

