-- ==== Sys2Proof/Machine/Regs.lean ====
section
/-! DEFINITION. The register map (R18, R38–R40 and the register tables of every chapter): the address of each
register, the place of each field, the flags of each status register, and the map itself, block by block. An address
takes the instance and element numbers of the register in the order the spec writes them; a register of a port block
takes the port number p, which is lane p mod 4 of quad p div 4. -/

namespace Sys2Proof.Machine
namespace Reg

/-- SYS_BLOCK_ID (R39). -/
def SYS_BLOCK_ID : Nat := 0xF000000000
def SYS_BLOCK_ID_TYPE : Fld := ⟨SYS_BLOCK_ID, 31, 16⟩
def SYS_BLOCK_ID_INSTANCE : Fld := ⟨SYS_BLOCK_ID, 15, 8⟩
def SYS_BLOCK_ID_VERSION : Fld := ⟨SYS_BLOCK_ID, 7, 0⟩
/-- SYS_BLOCK_STATUS (R40). -/
def SYS_BLOCK_STATUS : Nat := 0xF000000004
def SYS_BLOCK_STATUS_SEQ : Fld := ⟨SYS_BLOCK_STATUS, 31, 16⟩
def SYS_BLOCK_STATUS_FLAGS : Fld := ⟨SYS_BLOCK_STATUS, 15, 0⟩
/-- MASTERS_BLOCK_ID (R39). -/
def MASTERS_BLOCK_ID : Nat := 0xF00C800000
def MASTERS_BLOCK_ID_TYPE : Fld := ⟨MASTERS_BLOCK_ID, 31, 16⟩
def MASTERS_BLOCK_ID_INSTANCE : Fld := ⟨MASTERS_BLOCK_ID, 15, 8⟩
def MASTERS_BLOCK_ID_VERSION : Fld := ⟨MASTERS_BLOCK_ID, 7, 0⟩
/-- MASTERS_BLOCK_STATUS (R40). -/
def MASTERS_BLOCK_STATUS : Nat := 0xF00C800004
def MASTERS_BLOCK_STATUS_SEQ : Fld := ⟨MASTERS_BLOCK_STATUS, 31, 16⟩
def MASTERS_BLOCK_STATUS_FLAGS : Fld := ⟨MASTERS_BLOCK_STATUS, 15, 0⟩
/-- INGOT_BLOCK_ID (R39). -/
def INGOT_BLOCK_ID : Nat := 0xF000100000
def INGOT_BLOCK_ID_TYPE : Fld := ⟨INGOT_BLOCK_ID, 31, 16⟩
def INGOT_BLOCK_ID_INSTANCE : Fld := ⟨INGOT_BLOCK_ID, 15, 8⟩
def INGOT_BLOCK_ID_VERSION : Fld := ⟨INGOT_BLOCK_ID, 7, 0⟩
/-- INGOT_BLOCK_STATUS (R40). -/
def INGOT_BLOCK_STATUS : Nat := 0xF000100004
def INGOT_BLOCK_STATUS_SEQ : Fld := ⟨INGOT_BLOCK_STATUS, 31, 16⟩
def INGOT_BLOCK_STATUS_FLAGS : Fld := ⟨INGOT_BLOCK_STATUS, 15, 0⟩
/-- TIMEBASE_BLOCK_ID (R39). -/
def TIMEBASE_BLOCK_ID : Nat := 0xF000300000
def TIMEBASE_BLOCK_ID_TYPE : Fld := ⟨TIMEBASE_BLOCK_ID, 31, 16⟩
def TIMEBASE_BLOCK_ID_INSTANCE : Fld := ⟨TIMEBASE_BLOCK_ID, 15, 8⟩
def TIMEBASE_BLOCK_ID_VERSION : Fld := ⟨TIMEBASE_BLOCK_ID, 7, 0⟩
/-- TIMEBASE_BLOCK_STATUS (R40). -/
def TIMEBASE_BLOCK_STATUS : Nat := 0xF000300004
def TIMEBASE_BLOCK_STATUS_SEQ : Fld := ⟨TIMEBASE_BLOCK_STATUS, 31, 16⟩
def TIMEBASE_BLOCK_STATUS_FLAGS : Fld := ⟨TIMEBASE_BLOCK_STATUS, 15, 0⟩
/-- CUE_BLOCK_ID (R39). -/
def CUE_BLOCK_ID : Nat := 0xF000400000
def CUE_BLOCK_ID_TYPE : Fld := ⟨CUE_BLOCK_ID, 31, 16⟩
def CUE_BLOCK_ID_INSTANCE : Fld := ⟨CUE_BLOCK_ID, 15, 8⟩
def CUE_BLOCK_ID_VERSION : Fld := ⟨CUE_BLOCK_ID, 7, 0⟩
/-- CUE_BLOCK_STATUS (R40). -/
def CUE_BLOCK_STATUS : Nat := 0xF000400004
def CUE_BLOCK_STATUS_SEQ : Fld := ⟨CUE_BLOCK_STATUS, 31, 16⟩
def CUE_BLOCK_STATUS_FLAGS : Fld := ⟨CUE_BLOCK_STATUS, 15, 0⟩
/-- LE_BLOCK_ID (R39). -/
def LE_BLOCK_ID (n : Nat) : Nat := 0xF001000000 + n * 0x100000
def LE_BLOCK_ID_TYPE (n : Nat) : Fld := ⟨LE_BLOCK_ID n, 31, 16⟩
def LE_BLOCK_ID_INSTANCE (n : Nat) : Fld := ⟨LE_BLOCK_ID n, 15, 8⟩
def LE_BLOCK_ID_VERSION (n : Nat) : Fld := ⟨LE_BLOCK_ID n, 7, 0⟩
/-- LE_BLOCK_STATUS (R40). -/
def LE_BLOCK_STATUS (n : Nat) : Nat := 0xF001000004 + n * 0x100000
def LE_BLOCK_STATUS_SEQ (n : Nat) : Fld := ⟨LE_BLOCK_STATUS n, 31, 16⟩
def LE_BLOCK_STATUS_FLAGS (n : Nat) : Fld := ⟨LE_BLOCK_STATUS n, 15, 0⟩
/-- MESH_BLOCK_ID (R39). -/
def MESH_BLOCK_ID : Nat := 0xF003800000
def MESH_BLOCK_ID_TYPE : Fld := ⟨MESH_BLOCK_ID, 31, 16⟩
def MESH_BLOCK_ID_INSTANCE : Fld := ⟨MESH_BLOCK_ID, 15, 8⟩
def MESH_BLOCK_ID_VERSION : Fld := ⟨MESH_BLOCK_ID, 7, 0⟩
/-- MESH_BLOCK_STATUS (R40). -/
def MESH_BLOCK_STATUS : Nat := 0xF003800004
def MESH_BLOCK_STATUS_SEQ : Fld := ⟨MESH_BLOCK_STATUS, 31, 16⟩
def MESH_BLOCK_STATUS_FLAGS : Fld := ⟨MESH_BLOCK_STATUS, 15, 0⟩
/-- BC_BLOCK_ID (R39). -/
def BC_BLOCK_ID (n : Nat) : Nat := 0xF003000000 + n * 0x100000
def BC_BLOCK_ID_TYPE (n : Nat) : Fld := ⟨BC_BLOCK_ID n, 31, 16⟩
def BC_BLOCK_ID_INSTANCE (n : Nat) : Fld := ⟨BC_BLOCK_ID n, 15, 8⟩
def BC_BLOCK_ID_VERSION (n : Nat) : Fld := ⟨BC_BLOCK_ID n, 7, 0⟩
/-- BC_BLOCK_STATUS (R40). -/
def BC_BLOCK_STATUS (n : Nat) : Nat := 0xF003000004 + n * 0x100000
def BC_BLOCK_STATUS_SEQ (n : Nat) : Fld := ⟨BC_BLOCK_STATUS n, 31, 16⟩
def BC_BLOCK_STATUS_FLAGS (n : Nat) : Fld := ⟨BC_BLOCK_STATUS n, 15, 0⟩
/-- ORS_BLOCK_ID (R39). -/
def ORS_BLOCK_ID (n : Nat) : Nat := 0xF004000000 + n * 0x100000
def ORS_BLOCK_ID_TYPE (n : Nat) : Fld := ⟨ORS_BLOCK_ID n, 31, 16⟩
def ORS_BLOCK_ID_INSTANCE (n : Nat) : Fld := ⟨ORS_BLOCK_ID n, 15, 8⟩
def ORS_BLOCK_ID_VERSION (n : Nat) : Fld := ⟨ORS_BLOCK_ID n, 7, 0⟩
/-- ORS_BLOCK_STATUS (R40). -/
def ORS_BLOCK_STATUS (n : Nat) : Nat := 0xF004000004 + n * 0x100000
def ORS_BLOCK_STATUS_SEQ (n : Nat) : Fld := ⟨ORS_BLOCK_STATUS n, 31, 16⟩
def ORS_BLOCK_STATUS_FLAGS (n : Nat) : Fld := ⟨ORS_BLOCK_STATUS n, 15, 0⟩
/-- PQ_BLOCK_ID (R39). -/
def PQ_BLOCK_ID (n : Nat) : Nat := 0xF006000000 + n * 0x100000
def PQ_BLOCK_ID_TYPE (n : Nat) : Fld := ⟨PQ_BLOCK_ID n, 31, 16⟩
def PQ_BLOCK_ID_INSTANCE (n : Nat) : Fld := ⟨PQ_BLOCK_ID n, 15, 8⟩
def PQ_BLOCK_ID_VERSION (n : Nat) : Fld := ⟨PQ_BLOCK_ID n, 7, 0⟩
/-- PQ_BLOCK_STATUS (R40). -/
def PQ_BLOCK_STATUS (n : Nat) : Nat := 0xF006000004 + n * 0x100000
def PQ_BLOCK_STATUS_SEQ (n : Nat) : Fld := ⟨PQ_BLOCK_STATUS n, 31, 16⟩
def PQ_BLOCK_STATUS_FLAGS (n : Nat) : Fld := ⟨PQ_BLOCK_STATUS n, 15, 0⟩
/-- CRUCIBLE_BLOCK_ID (R39). -/
def CRUCIBLE_BLOCK_ID : Nat := 0xF008000000
def CRUCIBLE_BLOCK_ID_TYPE : Fld := ⟨CRUCIBLE_BLOCK_ID, 31, 16⟩
def CRUCIBLE_BLOCK_ID_INSTANCE : Fld := ⟨CRUCIBLE_BLOCK_ID, 15, 8⟩
def CRUCIBLE_BLOCK_ID_VERSION : Fld := ⟨CRUCIBLE_BLOCK_ID, 7, 0⟩
/-- CRUCIBLE_BLOCK_STATUS (R40). -/
def CRUCIBLE_BLOCK_STATUS : Nat := 0xF008000004
def CRUCIBLE_BLOCK_STATUS_SEQ : Fld := ⟨CRUCIBLE_BLOCK_STATUS, 31, 16⟩
def CRUCIBLE_BLOCK_STATUS_FLAGS : Fld := ⟨CRUCIBLE_BLOCK_STATUS, 15, 0⟩
/-- INGEST_BLOCK_ID (R39). -/
def INGEST_BLOCK_ID : Nat := 0xF008100000
def INGEST_BLOCK_ID_TYPE : Fld := ⟨INGEST_BLOCK_ID, 31, 16⟩
def INGEST_BLOCK_ID_INSTANCE : Fld := ⟨INGEST_BLOCK_ID, 15, 8⟩
def INGEST_BLOCK_ID_VERSION : Fld := ⟨INGEST_BLOCK_ID, 7, 0⟩
/-- INGEST_BLOCK_STATUS (R40). -/
def INGEST_BLOCK_STATUS : Nat := 0xF008100004
def INGEST_BLOCK_STATUS_SEQ : Fld := ⟨INGEST_BLOCK_STATUS, 31, 16⟩
def INGEST_BLOCK_STATUS_FLAGS : Fld := ⟨INGEST_BLOCK_STATUS, 15, 0⟩
/-- CHAIN_BLOCK_ID (R39). -/
def CHAIN_BLOCK_ID : Nat := 0xF008800000
def CHAIN_BLOCK_ID_TYPE : Fld := ⟨CHAIN_BLOCK_ID, 31, 16⟩
def CHAIN_BLOCK_ID_INSTANCE : Fld := ⟨CHAIN_BLOCK_ID, 15, 8⟩
def CHAIN_BLOCK_ID_VERSION : Fld := ⟨CHAIN_BLOCK_ID, 7, 0⟩
/-- CHAIN_BLOCK_STATUS (R40). -/
def CHAIN_BLOCK_STATUS : Nat := 0xF008800004
def CHAIN_BLOCK_STATUS_SEQ : Fld := ⟨CHAIN_BLOCK_STATUS, 31, 16⟩
def CHAIN_BLOCK_STATUS_FLAGS : Fld := ⟨CHAIN_BLOCK_STATUS, 15, 0⟩
/-- BLT_BLOCK_ID (R39). -/
def BLT_BLOCK_ID (n : Nat) : Nat := 0xF009000000 + n * 0x100000
def BLT_BLOCK_ID_TYPE (n : Nat) : Fld := ⟨BLT_BLOCK_ID n, 31, 16⟩
def BLT_BLOCK_ID_INSTANCE (n : Nat) : Fld := ⟨BLT_BLOCK_ID n, 15, 8⟩
def BLT_BLOCK_ID_VERSION (n : Nat) : Fld := ⟨BLT_BLOCK_ID n, 7, 0⟩
/-- BLT_BLOCK_STATUS (R40). -/
def BLT_BLOCK_STATUS (n : Nat) : Nat := 0xF009000004 + n * 0x100000
def BLT_BLOCK_STATUS_SEQ (n : Nat) : Fld := ⟨BLT_BLOCK_STATUS n, 31, 16⟩
def BLT_BLOCK_STATUS_FLAGS (n : Nat) : Fld := ⟨BLT_BLOCK_STATUS n, 15, 0⟩
/-- CHECK_BLOCK_ID (R39). -/
def CHECK_BLOCK_ID : Nat := 0xF009800000
def CHECK_BLOCK_ID_TYPE : Fld := ⟨CHECK_BLOCK_ID, 31, 16⟩
def CHECK_BLOCK_ID_INSTANCE : Fld := ⟨CHECK_BLOCK_ID, 15, 8⟩
def CHECK_BLOCK_ID_VERSION : Fld := ⟨CHECK_BLOCK_ID, 7, 0⟩
/-- CHECK_BLOCK_STATUS (R40). -/
def CHECK_BLOCK_STATUS : Nat := 0xF009800004
def CHECK_BLOCK_STATUS_SEQ : Fld := ⟨CHECK_BLOCK_STATUS, 31, 16⟩
def CHECK_BLOCK_STATUS_FLAGS : Fld := ⟨CHECK_BLOCK_STATUS, 15, 0⟩
/-- MC_BLOCK_ID (R39). -/
def MC_BLOCK_ID (n : Nat) : Nat := 0xF00A000000 + n * 0x100000
def MC_BLOCK_ID_TYPE (n : Nat) : Fld := ⟨MC_BLOCK_ID n, 31, 16⟩
def MC_BLOCK_ID_INSTANCE (n : Nat) : Fld := ⟨MC_BLOCK_ID n, 15, 8⟩
def MC_BLOCK_ID_VERSION (n : Nat) : Fld := ⟨MC_BLOCK_ID n, 7, 0⟩
/-- MC_BLOCK_STATUS (R40). -/
def MC_BLOCK_STATUS (n : Nat) : Nat := 0xF00A000004 + n * 0x100000
def MC_BLOCK_STATUS_SEQ (n : Nat) : Fld := ⟨MC_BLOCK_STATUS n, 31, 16⟩
def MC_BLOCK_STATUS_FLAGS (n : Nat) : Fld := ⟨MC_BLOCK_STATUS n, 15, 0⟩
/-- SLAB_BLOCK_ID (R39). -/
def SLAB_BLOCK_ID : Nat := 0xF00B000000
def SLAB_BLOCK_ID_TYPE : Fld := ⟨SLAB_BLOCK_ID, 31, 16⟩
def SLAB_BLOCK_ID_INSTANCE : Fld := ⟨SLAB_BLOCK_ID, 15, 8⟩
def SLAB_BLOCK_ID_VERSION : Fld := ⟨SLAB_BLOCK_ID, 7, 0⟩
/-- SLAB_BLOCK_STATUS (R40). -/
def SLAB_BLOCK_STATUS : Nat := 0xF00B000004
def SLAB_BLOCK_STATUS_SEQ : Fld := ⟨SLAB_BLOCK_STATUS, 31, 16⟩
def SLAB_BLOCK_STATUS_FLAGS : Fld := ⟨SLAB_BLOCK_STATUS, 15, 0⟩
/-- APPCX_BLOCK_ID (R39). -/
def APPCX_BLOCK_ID : Nat := 0xF00E000000
def APPCX_BLOCK_ID_TYPE : Fld := ⟨APPCX_BLOCK_ID, 31, 16⟩
def APPCX_BLOCK_ID_INSTANCE : Fld := ⟨APPCX_BLOCK_ID, 15, 8⟩
def APPCX_BLOCK_ID_VERSION : Fld := ⟨APPCX_BLOCK_ID, 7, 0⟩
/-- APPCX_BLOCK_STATUS (R40). -/
def APPCX_BLOCK_STATUS : Nat := 0xF00E000004
def APPCX_BLOCK_STATUS_SEQ : Fld := ⟨APPCX_BLOCK_STATUS, 31, 16⟩
def APPCX_BLOCK_STATUS_FLAGS : Fld := ⟨APPCX_BLOCK_STATUS, 15, 0⟩
/-- MAILBOX_BLOCK_ID (R39). -/
def MAILBOX_BLOCK_ID : Nat := 0xF00C000000
def MAILBOX_BLOCK_ID_TYPE : Fld := ⟨MAILBOX_BLOCK_ID, 31, 16⟩
def MAILBOX_BLOCK_ID_INSTANCE : Fld := ⟨MAILBOX_BLOCK_ID, 15, 8⟩
def MAILBOX_BLOCK_ID_VERSION : Fld := ⟨MAILBOX_BLOCK_ID, 7, 0⟩
/-- MAILBOX_BLOCK_STATUS (R40). -/
def MAILBOX_BLOCK_STATUS : Nat := 0xF00C000004
def MAILBOX_BLOCK_STATUS_SEQ : Fld := ⟨MAILBOX_BLOCK_STATUS, 31, 16⟩
def MAILBOX_BLOCK_STATUS_FLAGS : Fld := ⟨MAILBOX_BLOCK_STATUS, 15, 0⟩
/-- DEBUG_BLOCK_ID (R39). -/
def DEBUG_BLOCK_ID : Nat := 0xF00F000000
def DEBUG_BLOCK_ID_TYPE : Fld := ⟨DEBUG_BLOCK_ID, 31, 16⟩
def DEBUG_BLOCK_ID_INSTANCE : Fld := ⟨DEBUG_BLOCK_ID, 15, 8⟩
def DEBUG_BLOCK_ID_VERSION : Fld := ⟨DEBUG_BLOCK_ID, 7, 0⟩
/-- DEBUG_BLOCK_STATUS (R40). -/
def DEBUG_BLOCK_STATUS : Nat := 0xF00F000004
def DEBUG_BLOCK_STATUS_SEQ : Fld := ⟨DEBUG_BLOCK_STATUS, 31, 16⟩
def DEBUG_BLOCK_STATUS_FLAGS : Fld := ⟨DEBUG_BLOCK_STATUS, 15, 0⟩
/-- NVM_BLOCK_ID (R39). -/
def NVM_BLOCK_ID : Nat := 0xF000200000
def NVM_BLOCK_ID_TYPE : Fld := ⟨NVM_BLOCK_ID, 31, 16⟩
def NVM_BLOCK_ID_INSTANCE : Fld := ⟨NVM_BLOCK_ID, 15, 8⟩
def NVM_BLOCK_ID_VERSION : Fld := ⟨NVM_BLOCK_ID, 7, 0⟩
/-- NVM_BLOCK_STATUS (R40). -/
def NVM_BLOCK_STATUS : Nat := 0xF000200004
def NVM_BLOCK_STATUS_SEQ : Fld := ⟨NVM_BLOCK_STATUS, 31, 16⟩
def NVM_BLOCK_STATUS_FLAGS : Fld := ⟨NVM_BLOCK_STATUS, 15, 0⟩
/-- NVM_MIRROR_TICK (R57). -/
def NVM_MIRROR_TICK : Nat := 0xF000200008
def NVM_MIRROR_TICK_TICK : Fld := ⟨NVM_MIRROR_TICK, 31, 0⟩
/-- POWER_BLOCK_ID (R39). -/
def POWER_BLOCK_ID : Nat := 0xF00D000000
def POWER_BLOCK_ID_TYPE : Fld := ⟨POWER_BLOCK_ID, 31, 16⟩
def POWER_BLOCK_ID_INSTANCE : Fld := ⟨POWER_BLOCK_ID, 15, 8⟩
def POWER_BLOCK_ID_VERSION : Fld := ⟨POWER_BLOCK_ID, 7, 0⟩
/-- POWER_BLOCK_STATUS (R40). -/
def POWER_BLOCK_STATUS : Nat := 0xF00D000004
def POWER_BLOCK_STATUS_SEQ : Fld := ⟨POWER_BLOCK_STATUS, 31, 16⟩
def POWER_BLOCK_STATUS_FLAGS : Fld := ⟨POWER_BLOCK_STATUS, 15, 0⟩
/-- POWER_MIRROR_TICK (R57). -/
def POWER_MIRROR_TICK : Nat := 0xF00D000008
def POWER_MIRROR_TICK_TICK : Fld := ⟨POWER_MIRROR_TICK, 31, 0⟩
/-- SYS_DEVICE_ID (R5). -/
def SYS_DEVICE_ID : Nat := 0xF000000010
def SYS_DEVICE_ID_PART : Fld := ⟨SYS_DEVICE_ID, 31, 16⟩
def SYS_DEVICE_ID_VARIANT : Fld := ⟨SYS_DEVICE_ID, 15, 12⟩
def SYS_DEVICE_ID_STEP_LETTER : Fld := ⟨SYS_DEVICE_ID, 11, 8⟩
def SYS_DEVICE_ID_STEP_DIGIT : Fld := ⟨SYS_DEVICE_ID, 7, 4⟩
/-- SYS_SEM_ACQ (R62). -/
def SYS_SEM_ACQ (i : Nat) : Nat := 0xF000000400 + i * 0x4
def SYS_SEM_ACQ_HELD (i : Nat) : Fld := ⟨SYS_SEM_ACQ i, 31, 31⟩
def SYS_SEM_ACQ_OWNER (i : Nat) : Fld := ⟨SYS_SEM_ACQ i, 4, 0⟩
/-- SYS_SEM_REL (R62). -/
def SYS_SEM_REL (i : Nat) : Nat := 0xF000000500 + i * 0x4
def SYS_SEM_REL_ID (i : Nat) : Fld := ⟨SYS_SEM_REL i, 4, 0⟩
/-- SYS_SEM_PEEK (R62). -/
def SYS_SEM_PEEK (i : Nat) : Nat := 0xF000000600 + i * 0x4
def SYS_SEM_PEEK_HELD (i : Nat) : Fld := ⟨SYS_SEM_PEEK i, 31, 31⟩
def SYS_SEM_PEEK_OWNER (i : Nat) : Fld := ⟨SYS_SEM_PEEK i, 4, 0⟩
/-- SYS_SEM_FORCE (R64). -/
def SYS_SEM_FORCE : Nat := 0xF000000700
def SYS_SEM_FORCE_SEM : Fld := ⟨SYS_SEM_FORCE, 5, 0⟩
/-- CLASS_FLOOR (R43). -/
def CLASS_FLOOR (i : Nat) : Nat := 0xF00C800100 + i * 0x4
def CLASS_FLOOR_FLOOR (i : Nat) : Fld := ⟨CLASS_FLOOR i, 31, 0⟩
/-- CLASS_LOCK (R43). -/
def CLASS_LOCK : Nat := 0xF00C800140
def CLASS_LOCK_LOCKED : Fld := ⟨CLASS_LOCK, 0, 0⟩
/-- ACCESS_LOG_HEAD (R621). -/
def ACCESS_LOG_HEAD : Nat := 0xF00C800200
def ACCESS_LOG_HEAD_TOTAL : Fld := ⟨ACCESS_LOG_HEAD, 31, 8⟩
def ACCESS_LOG_HEAD_NEXT : Fld := ⟨ACCESS_LOG_HEAD, 4, 0⟩
/-- ACCESS_LOG_ENTRY (R621). -/
def ACCESS_LOG_ENTRY (i : Nat) : Nat := 0xF00C800300 + i * 0x8
def ACCESS_LOG_ENTRY_VALID (i : Nat) : Fld := ⟨ACCESS_LOG_ENTRY i, 63, 63⟩
def ACCESS_LOG_ENTRY_WRITE (i : Nat) : Fld := ⟨ACCESS_LOG_ENTRY i, 62, 62⟩
def ACCESS_LOG_ENTRY_NEEDED (i : Nat) : Fld := ⟨ACCESS_LOG_ENTRY i, 61, 60⟩
def ACCESS_LOG_ENTRY_MASTER (i : Nat) : Fld := ⟨ACCESS_LOG_ENTRY i, 56, 52⟩
def ACCESS_LOG_ENTRY_ORDINAL (i : Nat) : Fld := ⟨ACCESS_LOG_ENTRY i, 51, 40⟩
def ACCESS_LOG_ENTRY_ADDR (i : Nat) : Fld := ⟨ACCESS_LOG_ENTRY i, 39, 0⟩
/-- LOCK_VIOLATION (R59). -/
def LOCK_VIOLATION : Nat := 0xF00C800208
def LOCK_VIOLATION_COUNT : Fld := ⟨LOCK_VIOLATION, 63, 48⟩
def LOCK_VIOLATION_MASTER : Fld := ⟨LOCK_VIOLATION, 44, 40⟩
def LOCK_VIOLATION_ADDR : Fld := ⟨LOCK_VIOLATION, 39, 0⟩
/-- BUS_ERROR_LOG (R45). -/
def BUS_ERROR_LOG : Nat := 0xF00C800210
def BUS_ERROR_LOG_COUNT : Fld := ⟨BUS_ERROR_LOG, 63, 52⟩
def BUS_ERROR_LOG_CAUSE : Fld := ⟨BUS_ERROR_LOG, 51, 48⟩
def BUS_ERROR_LOG_MASTER : Fld := ⟨BUS_ERROR_LOG, 44, 40⟩
def BUS_ERROR_LOG_ADDR : Fld := ⟨BUS_ERROR_LOG, 39, 0⟩
/-- INGOT_ACTIVE (R97). -/
def INGOT_ACTIVE : Nat := 0xF000100010
def INGOT_ACTIVE_NONE : Fld := ⟨INGOT_ACTIVE, 2, 2⟩
def INGOT_ACTIVE_SWAP_PENDING : Fld := ⟨INGOT_ACTIVE, 1, 1⟩
def INGOT_ACTIVE_SLOT : Fld := ⟨INGOT_ACTIVE, 0, 0⟩
/-- INGOT_CMD (R98). -/
def INGOT_CMD : Nat := 0xF000100014
def INGOT_CMD_SLOT : Fld := ⟨INGOT_CMD, 4, 4⟩
def INGOT_CMD_OP : Fld := ⟨INGOT_CMD, 3, 0⟩
/-- INGOT_SLOT_STATE (R99). -/
def INGOT_SLOT_STATE (i : Nat) : Nat := 0xF000100020 + i * 0x10
def INGOT_SLOT_STATE_ERR_CODE (i : Nat) : Fld := ⟨INGOT_SLOT_STATE i, 31, 24⟩
def INGOT_SLOT_STATE_ERR_SECTION (i : Nat) : Fld := ⟨INGOT_SLOT_STATE i, 23, 16⟩
def INGOT_SLOT_STATE_ERR_ENTRY (i : Nat) : Fld := ⟨INGOT_SLOT_STATE i, 15, 8⟩
def INGOT_SLOT_STATE_SIG (i : Nat) : Fld := ⟨INGOT_SLOT_STATE i, 7, 6⟩
def INGOT_SLOT_STATE_SWAPPABLE (i : Nat) : Fld := ⟨INGOT_SLOT_STATE i, 5, 5⟩
def INGOT_SLOT_STATE_STATE (i : Nat) : Fld := ⟨INGOT_SLOT_STATE i, 2, 0⟩
/-- INGOT_SLOT_ID (R100). -/
def INGOT_SLOT_ID (i : Nat) : Nat := 0xF000100024 + i * 0x10
def INGOT_SLOT_ID_ID (i : Nat) : Fld := ⟨INGOT_SLOT_ID i, 31, 0⟩
/-- INGOT_SLOT_GEN (R100). -/
def INGOT_SLOT_GEN (i : Nat) : Nat := 0xF000100028 + i * 0x10
def INGOT_SLOT_GEN_GEN (i : Nat) : Fld := ⟨INGOT_SLOT_GEN i, 31, 0⟩
/-- INGOT_SWAP_LOG (R101). -/
def INGOT_SWAP_LOG : Nat := 0xF000100040
def INGOT_SWAP_LOG_FRAME : Fld := ⟨INGOT_SWAP_LOG, 63, 16⟩
def INGOT_SWAP_LOG_CODE : Fld := ⟨INGOT_SWAP_LOG, 15, 8⟩
def INGOT_SWAP_LOG_COUNT : Fld := ⟨INGOT_SWAP_LOG, 7, 0⟩
/-- INGOT_SWAP_HIT (R102). -/
def INGOT_SWAP_HIT : Nat := 0xF000100048
def INGOT_SWAP_HIT_ORS : Fld := ⟨INGOT_SWAP_HIT, 15, 0⟩
/-- INGOT_SWAP_QUADS (R102). -/
def INGOT_SWAP_QUADS : Nat := 0xF00010004C
def INGOT_SWAP_QUADS_PQ : Fld := ⟨INGOT_SWAP_QUADS, 31, 0⟩
/-- TB_STATE (R117). -/
def TB_STATE : Nat := 0xF000300010
def TB_STATE_SOURCE : Fld := ⟨TB_STATE, 11, 8⟩
def TB_STATE_PTP_PORT : Fld := ⟨TB_STATE, 7, 4⟩
def TB_STATE_STATE : Fld := ⟨TB_STATE, 1, 0⟩
/-- TB_HOLDOVER_S (R117). -/
def TB_HOLDOVER_S : Nat := 0xF000300014
def TB_HOLDOVER_S_SECONDS : Fld := ⟨TB_HOLDOVER_S, 31, 0⟩
/-- TB_UTC (R112). -/
def TB_UTC : Nat := 0xF000300018
def TB_UTC_VALID : Fld := ⟨TB_UTC, 31, 31⟩
def TB_UTC_UTC_OFFSET : Fld := ⟨TB_UTC, 15, 0⟩
/-- TB_SERVO (R118). -/
def TB_SERVO : Nat := 0xF000300020
def TB_SERVO_PATH_DELAY : Fld := ⟨TB_SERVO, 63, 32⟩
def TB_SERVO_OFFSET : Fld := ⟨TB_SERVO, 31, 0⟩
/-- TB_GM_ID (R109). -/
def TB_GM_ID : Nat := 0xF000300028
def TB_GM_ID_CLOCK_ID : Fld := ⟨TB_GM_ID, 63, 0⟩
/-- TB_SRC_CFG (R117). -/
def TB_SRC_CFG : Nat := 0xF000300030
def TB_SRC_CFG_REVERT_S : Fld := ⟨TB_SRC_CFG, 31, 16⟩
def TB_SRC_CFG_PRIO2 : Fld := ⟨TB_SRC_CFG, 5, 4⟩
def TB_SRC_CFG_PRIO1 : Fld := ⟨TB_SRC_CFG, 3, 2⟩
def TB_SRC_CFG_PRIO0 : Fld := ⟨TB_SRC_CFG, 1, 0⟩
/-- TB_LOCK_CFG (R118). -/
def TB_LOCK_CFG : Nat := 0xF000300034
def TB_LOCK_CFG_STEP_EN : Fld := ⟨TB_LOCK_CFG, 31, 31⟩
def TB_LOCK_CFG_STEP_US : Fld := ⟨TB_LOCK_CFG, 30, 20⟩
def TB_LOCK_CFG_SLEW_PPM : Fld := ⟨TB_LOCK_CFG, 19, 12⟩
def TB_LOCK_CFG_LOCK_COUNT : Fld := ⟨TB_LOCK_CFG, 11, 6⟩
def TB_LOCK_CFG_LOCK_NS : Fld := ⟨TB_LOCK_CFG, 5, 3⟩
def TB_LOCK_CFG_UNLOCK_NS : Fld := ⟨TB_LOCK_CFG, 2, 0⟩
/-- TB_PTP_CFG (R111). -/
def TB_PTP_CFG : Nat := 0xF000300038
def TB_PTP_CFG_UNICAST_DREQ : Fld := ⟨TB_PTP_CFG, 15, 15⟩
def TB_PTP_CFG_PROFILE : Fld := ⟨TB_PTP_CFG, 14, 14⟩
def TB_PTP_CFG_DOMAIN : Fld := ⟨TB_PTP_CFG, 6, 0⟩
/-- TB_PTP_PORT (R110). -/
def TB_PTP_PORT (i : Nat) : Nat := 0xF000300040 + i * 0x4
def TB_PTP_PORT_PORT (i : Nat) : Fld := ⟨TB_PTP_PORT i, 31, 24⟩
def TB_PTP_PORT_L2 (i : Nat) : Fld := ⟨TB_PTP_PORT i, 23, 23⟩
def TB_PTP_PORT_TX_LAT (i : Nat) : Fld := ⟨TB_PTP_PORT i, 19, 10⟩
def TB_PTP_PORT_RX_LAT (i : Nat) : Fld := ⟨TB_PTP_PORT i, 9, 0⟩
/-- TB_INCR (R105). -/
def TB_INCR : Nat := 0xF000300050
def TB_INCR_INCR : Fld := ⟨TB_INCR, 47, 0⟩
/-- TB_STEP (R106). -/
def TB_STEP : Nat := 0xF000300058
def TB_STEP_STEP : Fld := ⟨TB_STEP, 63, 0⟩
/-- TB_SET_TIME (R106). -/
def TB_SET_TIME : Nat := 0xF000300060
def TB_SET_TIME_SEC : Fld := ⟨TB_SET_TIME, 63, 16⟩
def TB_SET_TIME_FRAC : Fld := ⟨TB_SET_TIME, 15, 0⟩
/-- TB_SET_NS (R106). -/
def TB_SET_NS : Nat := 0xF000300068
def TB_SET_NS_NS : Fld := ⟨TB_SET_NS, 29, 0⟩
/-- TB_CAPTURE (R108). -/
def TB_CAPTURE : Nat := 0xF000300070
/-- TB_CAP_TIME (R108). -/
def TB_CAP_TIME : Nat := 0xF000300078
def TB_CAP_TIME_SEC : Fld := ⟨TB_CAP_TIME, 63, 16⟩
def TB_CAP_TIME_FRAC : Fld := ⟨TB_CAP_TIME, 15, 0⟩
/-- TB_CAP_NS (R108). -/
def TB_CAP_NS : Nat := 0xF000300080
def TB_CAP_NS_NS : Fld := ⟨TB_CAP_NS, 31, 0⟩
/-- TB_CAP_RPF (R108). -/
def TB_CAP_RPF : Nat := 0xF000300088
def TB_CAP_RPF_F : Fld := ⟨TB_CAP_RPF, 47, 0⟩
/-- TB_CAP_RPLT (R108). -/
def TB_CAP_RPLT : Nat := 0xF000300090
def TB_CAP_RPLT_L : Fld := ⟨TB_CAP_RPLT, 31, 16⟩
def TB_CAP_RPLT_T : Fld := ⟨TB_CAP_RPLT, 15, 0⟩
/-- TB_REF_RATE (R123). -/
def TB_REF_RATE : Nat := 0xF0003000A0
def TB_REF_RATE_D : Fld := ⟨TB_REF_RATE, 52, 32⟩
def TB_REF_RATE_N : Fld := ⟨TB_REF_RATE, 20, 0⟩
/-- TB_REF_LINES (R123). -/
def TB_REF_LINES : Nat := 0xF0003000A8
def TB_REF_LINES_L_REF : Fld := ⟨TB_REF_LINES, 15, 0⟩
/-- TB_REF_APPLY (R123). -/
def TB_REF_APPLY : Nat := 0xF0003000B0
def TB_REF_APPLY_REJECT_CAUSE : Fld := ⟨TB_REF_APPLY, 63, 60⟩
def TB_REF_APPLY_AT_FRAME : Fld := ⟨TB_REF_APPLY, 47, 0⟩
/-- TB_REFSYNC_CFG (R113). -/
def TB_REFSYNC_CFG : Nat := 0xF0003000B8
def TB_REFSYNC_CFG_DELAY : Fld := ⟨TB_REFSYNC_CFG, 31, 8⟩
def TB_REFSYNC_CFG_LINE_CHECK : Fld := ⟨TB_REFSYNC_CFG, 2, 2⟩
def TB_REFSYNC_CFG_POL_L : Fld := ⟨TB_REFSYNC_CFG, 1, 1⟩
def TB_REFSYNC_CFG_POL_F : Fld := ⟨TB_REFSYNC_CFG, 0, 0⟩
/-- TB_PPS_CFG (R133). -/
def TB_PPS_CFG : Nat := 0xF0003000BC
def TB_PPS_CFG_WIDTH_MS : Fld := ⟨TB_PPS_CFG, 31, 22⟩
def TB_PPS_CFG_OUT_OFFSET : Fld := ⟨TB_PPS_CFG, 21, 12⟩
def TB_PPS_CFG_IN_DELAY : Fld := ⟨TB_PPS_CFG, 11, 2⟩
def TB_PPS_CFG_OUT_EN : Fld := ⟨TB_PPS_CFG, 1, 1⟩
def TB_PPS_CFG_POL_IN : Fld := ⟨TB_PPS_CFG, 0, 0⟩
/-- TB_REFSYNC_STAT (R114). -/
def TB_REFSYNC_STAT : Nat := 0xF0003000C0
def TB_REFSYNC_STAT_LINES : Fld := ⟨TB_REFSYNC_STAT, 31, 16⟩
def TB_REFSYNC_STAT_PERIOD_PPM : Fld := ⟨TB_REFSYNC_STAT, 15, 0⟩
/-- TB_SYNCOUT_CFG (R131). -/
def TB_SYNCOUT_CFG (i : Nat) : Nat := 0xF0003000D0 + i * 0x4
def TB_SYNCOUT_CFG_EN (i : Nat) : Fld := ⟨TB_SYNCOUT_CFG i, 31, 31⟩
def TB_SYNCOUT_CFG_POL (i : Nat) : Fld := ⟨TB_SYNCOUT_CFG i, 30, 30⟩
def TB_SYNCOUT_CFG_VMODE (i : Nat) : Fld := ⟨TB_SYNCOUT_CFG i, 29, 29⟩
def TB_SYNCOUT_CFG_SRC (i : Nat) : Fld := ⟨TB_SYNCOUT_CFG i, 28, 24⟩
def TB_SYNCOUT_CFG_REF_V_LINES (i : Nat) : Fld := ⟨TB_SYNCOUT_CFG i, 23, 16⟩
def TB_SYNCOUT_CFG_REF_H_WIDTH (i : Nat) : Fld := ⟨TB_SYNCOUT_CFG i, 15, 0⟩
/-- TB_ORS_PHASE (R127). -/
def TB_ORS_PHASE (i : Nat) : Nat := 0xF000300100 + i * 0x4
def TB_ORS_PHASE_STATE (i : Nat) : Fld := ⟨TB_ORS_PHASE i, 31, 30⟩
def TB_ORS_PHASE_ERROR (i : Nat) : Fld := ⟨TB_ORS_PHASE i, 29, 0⟩
/-- CUE_ARM (R161). -/
def CUE_ARM : Nat := 0xF000400010
def CUE_ARM_DISARM : Fld := ⟨CUE_ARM, 31, 31⟩
def CUE_ARM_SLOT : Fld := ⟨CUE_ARM, 12, 0⟩
/-- CUE_ARM_LOG (R161). -/
def CUE_ARM_LOG : Nat := 0xF000400014
def CUE_ARM_LOG_SLOT : Fld := ⟨CUE_ARM_LOG, 28, 16⟩
def CUE_ARM_LOG_CODE : Fld := ⟨CUE_ARM_LOG, 7, 0⟩
/-- CUE_ARMED (R161). -/
def CUE_ARMED : Nat := 0xF000400018
def CUE_ARMED_COUNT : Fld := ⟨CUE_ARMED, 13, 0⟩
/-- CUE_STATS (R162). -/
def CUE_STATS : Nat := 0xF000400020
def CUE_STATS_LATE_RUNS : Fld := ⟨CUE_STATS, 63, 48⟩
def CUE_STATS_LATE_DISCARDS : Fld := ⟨CUE_STATS, 47, 32⟩
def CUE_STATS_CROWDED : Fld := ⟨CUE_STATS, 31, 16⟩
def CUE_STATS_FAILED : Fld := ⟨CUE_STATS, 15, 0⟩
/-- CUE_COMMIT (R163). -/
def CUE_COMMIT : Nat := 0xF000400040
def CUE_COMMIT_MASK : Fld := ⟨CUE_COMMIT, 55, 0⟩
/-- CUE_COMMIT_PENDING (R163). -/
def CUE_COMMIT_PENDING : Nat := 0xF000400050
def CUE_COMMIT_PENDING_MASK : Fld := ⟨CUE_COMMIT_PENDING, 55, 0⟩
/-- CUE_GRAIN (R163). -/
def CUE_GRAIN : Nat := 0xF000400058
def CUE_GRAIN_GRAIN : Fld := ⟨CUE_GRAIN, 39, 0⟩
/-- CUE_COMMIT_TICKET (R164). -/
def CUE_COMMIT_TICKET : Nat := 0xF000400048
def CUE_COMMIT_TICKET_SEQ : Fld := ⟨CUE_COMMIT_TICKET, 15, 0⟩
/-- CUE_COMMIT_NEXT (R164). -/
def CUE_COMMIT_NEXT : Nat := 0xF00040004C
def CUE_COMMIT_NEXT_SEQ : Fld := ⟨CUE_COMMIT_NEXT, 15, 0⟩
/-- CUE_COMMIT_STATUS (R165). -/
def CUE_COMMIT_STATUS (i : Nat) : Nat := 0xF000401000 + i * 0x8
def CUE_COMMIT_STATUS_SEQ (i : Nat) : Fld := ⟨CUE_COMMIT_STATUS i, 63, 48⟩
def CUE_COMMIT_STATUS_MERGED (i : Nat) : Fld := ⟨CUE_COMMIT_STATUS i, 47, 47⟩
def CUE_COMMIT_STATUS_STATE (i : Nat) : Fld := ⟨CUE_COMMIT_STATUS i, 46, 44⟩
def CUE_COMMIT_STATUS_CAUSE (i : Nat) : Fld := ⟨CUE_COMMIT_STATUS i, 43, 40⟩
def CUE_COMMIT_STATUS_RASTER (i : Nat) : Fld := ⟨CUE_COMMIT_STATUS i, 36, 32⟩
def CUE_COMMIT_STATUS_FRAME (i : Nat) : Fld := ⟨CUE_COMMIT_STATUS i, 31, 0⟩
/-- LE_BIND (R193). -/
def LE_BIND (n : Nat) : Nat := 0xF001000010 + n * 0x100000
def LE_BIND_PARTITION (n : Nat) : Fld := ⟨LE_BIND n, 9, 9⟩
def LE_BIND_HITLESS (n : Nat) : Fld := ⟨LE_BIND n, 8, 8⟩
def LE_BIND_CLUSTER (n : Nat) : Fld := ⟨LE_BIND n, 7, 0⟩
/-- LE_CTRL (R194). -/
def LE_CTRL (n : Nat) : Nat := 0xF001000014 + n * 0x100000
def LE_CTRL_EN (n : Nat) : Fld := ⟨LE_CTRL n, 0, 0⟩
/-- LE_SOURCE (R194). -/
def LE_SOURCE (n : Nat) : Nat := 0xF001000018 + n * 0x100000
def LE_SOURCE_SRC (n : Nat) : Fld := ⟨LE_SOURCE n, 31, 31⟩
def LE_SOURCE_FLOW (n : Nat) : Fld := ⟨LE_SOURCE n, 8, 0⟩
/-- LE_SURF_BASE (R195). -/
def LE_SURF_BASE (n : Nat) : Nat := 0xF001000020 + n * 0x100000
def LE_SURF_BASE_BASE (n : Nat) : Fld := ⟨LE_SURF_BASE n, 39, 8⟩
/-- LE_SURF_STRIDE (R195). -/
def LE_SURF_STRIDE (n : Nat) : Nat := 0xF001000028 + n * 0x100000
def LE_SURF_STRIDE_STRIDE (n : Nat) : Fld := ⟨LE_SURF_STRIDE n, 23, 6⟩
/-- LE_SURF_SIZE (R195). -/
def LE_SURF_SIZE (n : Nat) : Nat := 0xF00100002C + n * 0x100000
def LE_SURF_SIZE_HEIGHT (n : Nat) : Fld := ⟨LE_SURF_SIZE n, 31, 16⟩
def LE_SURF_SIZE_WIDTH (n : Nat) : Fld := ⟨LE_SURF_SIZE n, 15, 0⟩
/-- LE_SURF_FMT (R195). -/
def LE_SURF_FMT (n : Nat) : Nat := 0xF001000030 + n * 0x100000
def LE_SURF_FMT_FORMAT (n : Nat) : Fld := ⟨LE_SURF_FMT n, 7, 0⟩
/-- LE_FETCH_CFG (R196). -/
def LE_FETCH_CFG (n : Nat) : Nat := 0xF001000034 + n * 0x100000
def LE_FETCH_CFG_MODE (n : Nat) : Fld := ⟨LE_FETCH_CFG n, 31, 31⟩
def LE_FETCH_CFG_SKIP_EN (n : Nat) : Fld := ⟨LE_FETCH_CFG n, 30, 30⟩
def LE_FETCH_CFG_WATERMARK (n : Nat) : Fld := ⟨LE_FETCH_CFG n, 23, 16⟩
def LE_FETCH_CFG_MESH_ROWS (n : Nat) : Fld := ⟨LE_FETCH_CFG n, 15, 0⟩
/-- LE_TOUCH (R197). -/
def LE_TOUCH (n : Nat) : Nat := 0xF001000040 + n * 0x100000
/-- LE_TOL_GUARD (R197). -/
def LE_TOL_GUARD (n : Nat) : Nat := 0xF001000044 + n * 0x100000
def LE_TOL_GUARD_GUARD_NS (n : Nat) : Fld := ⟨LE_TOL_GUARD n, 15, 0⟩
/-- LE_TOL (R197). -/
def LE_TOL (n : Nat) : Nat := 0xF001000048 + n * 0x100000
def LE_TOL_NS (n : Nat) : Fld := ⟨LE_TOL n, 31, 0⟩
/-- LE_TOL_MIN (R197). -/
def LE_TOL_MIN (n : Nat) : Nat := 0xF00100004C + n * 0x100000
def LE_TOL_MIN_NS (n : Nat) : Fld := ⟨LE_TOL_MIN n, 31, 0⟩
/-- LE_TOL_MIN_RESTART (R197). -/
def LE_TOL_MIN_RESTART (n : Nat) : Nat := 0xF001000050 + n * 0x100000
/-- LE_LIVE_SURF (R198). -/
def LE_LIVE_SURF (n : Nat) : Nat := 0xF001000058 + n * 0x100000
def LE_LIVE_SURF_VALID (n : Nat) : Fld := ⟨LE_LIVE_SURF n, 63, 63⟩
def LE_LIVE_SURF_ADDR (n : Nat) : Fld := ⟨LE_LIVE_SURF n, 39, 0⟩
/-- LE_FETCH_BYTES (R198). -/
def LE_FETCH_BYTES (n : Nat) : Nat := 0xF001000060 + n * 0x100000
def LE_FETCH_BYTES_BYTES (n : Nat) : Fld := ⟨LE_FETCH_BYTES n, 63, 0⟩
/-- LE_SKIP_BYTES (R198). -/
def LE_SKIP_BYTES (n : Nat) : Nat := 0xF001000068 + n * 0x100000
def LE_SKIP_BYTES_BYTES (n : Nat) : Fld := ⟨LE_SKIP_BYTES n, 63, 0⟩
/-- LE_EVENTS (R199). -/
def LE_EVENTS (n : Nat) : Nat := 0xF001000070 + n * 0x100000
def LE_EVENTS_UNDERRUN_LINES (n : Nat) : Fld := ⟨LE_EVENTS n, 63, 52⟩
def LE_EVENTS_OVERFLOW_LINES (n : Nat) : Fld := ⟨LE_EVENTS n, 51, 40⟩
def LE_EVENTS_LATE_ROWS (n : Nat) : Fld := ⟨LE_EVENTS n, 39, 28⟩
def LE_EVENTS_POISON_BURSTS (n : Nat) : Fld := ⟨LE_EVENTS n, 27, 16⟩
def LE_EVENTS_URGENT_ROWS (n : Nat) : Fld := ⟨LE_EVENTS n, 15, 0⟩
/-- LE_REJECT (R200). -/
def LE_REJECT (n : Nat) : Nat := 0xF001000078 + n * 0x100000
def LE_REJECT_CODE (n : Nat) : Fld := ⟨LE_REJECT n, 7, 0⟩
/-- LE_DIRTY (R200). -/
def LE_DIRTY (n : Nat) : Nat := 0xF00100007C + n * 0x100000
def LE_DIRTY_TOUCHES (n : Nat) : Fld := ⟨LE_DIRTY n, 31, 16⟩
def LE_DIRTY_DIRTY (n : Nat) : Fld := ⟨LE_DIRTY n, 0, 0⟩
/-- LE_COLOUR_CTRL (R271). -/
def LE_COLOUR_CTRL (n : Nat) : Nat := 0xF001000080 + n * 0x100000
def LE_COLOUR_CTRL_DECODE (n : Nat) : Fld := ⟨LE_COLOUR_CTRL n, 8, 8⟩
def LE_COLOUR_CTRL_RANGE (n : Nat) : Fld := ⟨LE_COLOUR_CTRL n, 4, 4⟩
def LE_COLOUR_CTRL_CSC (n : Nat) : Fld := ⟨LE_COLOUR_CTRL n, 1, 0⟩
/-- LE_CSC_COEF (R272). -/
def LE_CSC_COEF (n : Nat) (i : Nat) : Nat := 0xF001000090 + n * 0x100000 + i * 0x4
def LE_CSC_COEF_COEF (n : Nat) (i : Nat) : Fld := ⟨LE_CSC_COEF n i, 16, 0⟩
/-- LE_CSC_IN_OFF (R272). -/
def LE_CSC_IN_OFF (n : Nat) (i : Nat) : Nat := 0xF0010000B4 + n * 0x100000 + i * 0x4
def LE_CSC_IN_OFF_OFF (n : Nat) (i : Nat) : Fld := ⟨LE_CSC_IN_OFF n i, 16, 0⟩
/-- LE_CSC_OUT_OFF (R272). -/
def LE_CSC_OUT_OFF (n : Nat) (i : Nat) : Nat := 0xF0010000C0 + n * 0x100000 + i * 0x4
def LE_CSC_OUT_OFF_OFF (n : Nat) (i : Nat) : Fld := ⟨LE_CSC_OUT_OFF n i, 16, 0⟩
/-- LE_DECODE_LOAD (R273). -/
def LE_DECODE_LOAD (n : Nat) : Nat := 0xF0010000D0 + n * 0x100000
def LE_DECODE_LOAD_BUSY (n : Nat) : Fld := ⟨LE_DECODE_LOAD n, 31, 31⟩
def LE_DECODE_LOAD_RESULT (n : Nat) : Fld := ⟨LE_DECODE_LOAD n, 30, 29⟩
def LE_DECODE_LOAD_PRESET (n : Nat) : Fld := ⟨LE_DECODE_LOAD n, 16, 14⟩
def LE_DECODE_LOAD_REF_NITS (n : Nat) : Fld := ⟨LE_DECODE_LOAD n, 13, 0⟩
/-- LE_COLOUR_REJECT (R273). -/
def LE_COLOUR_REJECT (n : Nat) : Nat := 0xF0010000D4 + n * 0x100000
def LE_COLOUR_REJECT_CODE (n : Nat) : Fld := ⟨LE_COLOUR_REJECT n, 7, 0⟩
/-- LE_DECODE_LUT (R274). -/
def LE_DECODE_LUT (n : Nat) (i : Nat) (j : Nat) : Nat := 0xF001010000 + n * 0x100000 + i * 0x4000 + j * 0x4
def LE_DECODE_LUT_VALUE (n : Nat) (i : Nat) (j : Nat) : Fld := ⟨LE_DECODE_LUT n i j, 23, 0⟩
/-- MESH_CTRL (R221). -/
def MESH_CTRL (i : Nat) : Nat := 0xF003800100 + i * 0x40
def MESH_CTRL_SPACING (i : Nat) : Fld := ⟨MESH_CTRL i, 15, 13⟩
def MESH_CTRL_EDGE_V (i : Nat) : Fld := ⟨MESH_CTRL i, 7, 6⟩
def MESH_CTRL_EDGE_H (i : Nat) : Fld := ⟨MESH_CTRL i, 5, 4⟩
def MESH_CTRL_TABLE (i : Nat) : Fld := ⟨MESH_CTRL i, 0, 0⟩
/-- MESH_DST_ORG (R221). -/
def MESH_DST_ORG (i : Nat) : Nat := 0xF003800104 + i * 0x40
def MESH_DST_ORG_Y0 (i : Nat) : Fld := ⟨MESH_DST_ORG i, 31, 16⟩
def MESH_DST_ORG_X0 (i : Nat) : Fld := ⟨MESH_DST_ORG i, 15, 0⟩
/-- MESH_DST_SIZE (R221). -/
def MESH_DST_SIZE (i : Nat) : Nat := 0xF003800108 + i * 0x40
def MESH_DST_SIZE_DH (i : Nat) : Fld := ⟨MESH_DST_SIZE i, 31, 16⟩
def MESH_DST_SIZE_DW (i : Nat) : Fld := ⟨MESH_DST_SIZE i, 15, 0⟩
/-- MESH_GRID (R221). -/
def MESH_GRID (i : Nat) : Nat := 0xF00380010C + i * 0x40
def MESH_GRID_ORIGIN (i : Nat) : Fld := ⟨MESH_GRID i, 23, 0⟩
/-- MESH_PITCH (R221). -/
def MESH_PITCH (i : Nat) : Nat := 0xF003800110 + i * 0x40
def MESH_PITCH_PITCH (i : Nat) : Fld := ⟨MESH_PITCH i, 15, 0⟩
/-- MESH_FLAT_U0 (R222). -/
def MESH_FLAT_U0 (i : Nat) : Nat := 0xF003800114 + i * 0x40
def MESH_FLAT_U0_U0 (i : Nat) : Fld := ⟨MESH_FLAT_U0 i, 26, 0⟩
/-- MESH_FLAT_V0 (R222). -/
def MESH_FLAT_V0 (i : Nat) : Nat := 0xF003800118 + i * 0x40
def MESH_FLAT_V0_V0 (i : Nat) : Fld := ⟨MESH_FLAT_V0 i, 26, 0⟩
/-- MESH_FLAT_STEP_U (R222). -/
def MESH_FLAT_STEP_U (i : Nat) : Nat := 0xF00380011C + i * 0x40
def MESH_FLAT_STEP_U_STEP (i : Nat) : Fld := ⟨MESH_FLAT_STEP_U i, 23, 0⟩
/-- MESH_FLAT_STEP_V (R222). -/
def MESH_FLAT_STEP_V (i : Nat) : Nat := 0xF003800120 + i * 0x40
def MESH_FLAT_STEP_V_STEP (i : Nat) : Fld := ⟨MESH_FLAT_STEP_V i, 23, 0⟩
/-- MESH_BANK_T (R222). -/
def MESH_BANK_T (i : Nat) : Nat := 0xF003800124 + i * 0x40
def MESH_BANK_T_T3 (i : Nat) : Fld := ⟨MESH_BANK_T i, 29, 20⟩
def MESH_BANK_T_T2 (i : Nat) : Fld := ⟨MESH_BANK_T i, 19, 10⟩
def MESH_BANK_T_T1 (i : Nat) : Fld := ⟨MESH_BANK_T i, 9, 0⟩
/-- MESH_REJECT (R223). -/
def MESH_REJECT (i : Nat) : Nat := 0xF003800128 + i * 0x40
def MESH_REJECT_CODE (i : Nat) : Fld := ⟨MESH_REJECT i, 7, 0⟩
/-- MESH_EVENTS (R223). -/
def MESH_EVENTS (i : Nat) : Nat := 0xF003800130 + i * 0x40
def MESH_EVENTS_INVALID_CELLS (i : Nat) : Fld := ⟨MESH_EVENTS i, 63, 32⟩
def MESH_EVENTS_POISON_VERTICES (i : Nat) : Fld := ⟨MESH_EVENTS i, 31, 16⟩
def MESH_EVENTS_CLAMPED (i : Nat) : Fld := ⟨MESH_EVENTS i, 15, 0⟩
/-- MESH_PART (R224). -/
def MESH_PART (i : Nat) : Nat := 0xF003800900 + i * 0x8
def MESH_PART_COUNT (i : Nat) : Fld := ⟨MESH_PART i, 56, 32⟩
def MESH_PART_BASE (i : Nat) : Fld := ⟨MESH_PART i, 23, 0⟩
/-- MESH_COEF (R213). -/
def MESH_COEF (i : Nat) (j : Nat) (k : Nat) (l : Nat) : Nat := 0xF003808000 + i * 0x1C00 + j * 0x700 + k * 0x1C + l * 0x4
def MESH_COEF_HI (i : Nat) (j : Nat) (k : Nat) (l : Nat) : Fld := ⟨MESH_COEF i j k l, 29, 16⟩
def MESH_COEF_LO (i : Nat) (j : Nat) (k : Nat) (l : Nat) : Fld := ⟨MESH_COEF i j k l, 13, 0⟩
/-- BC_BIND (R245). -/
def BC_BIND (n : Nat) : Nat := 0xF003000010 + n * 0x100000
def BC_BIND_RASTERS (n : Nat) : Fld := ⟨BC_BIND n, 31, 16⟩
def BC_BIND_ENABLED (n : Nat) : Fld := ⟨BC_BIND n, 0, 0⟩
/-- BC_ENGINES (R245). -/
def BC_ENGINES (n : Nat) : Nat := 0xF003000014 + n * 0x100000
def BC_ENGINES_ENGINES (n : Nat) : Fld := ⟨BC_ENGINES n, 31, 0⟩
/-- BC_REGION (R245). -/
def BC_REGION (n : Nat) : Nat := 0xF003000018 + n * 0x100000
def BC_REGION_Y_LAST (n : Nat) : Fld := ⟨BC_REGION n, 63, 48⟩
def BC_REGION_X_LAST (n : Nat) : Fld := ⟨BC_REGION n, 47, 32⟩
def BC_REGION_Y0 (n : Nat) : Fld := ⟨BC_REGION n, 31, 16⟩
def BC_REGION_X0 (n : Nat) : Fld := ⟨BC_REGION n, 15, 0⟩
/-- BC_BG (R246). -/
def BC_BG (n : Nat) : Nat := 0xF003000020 + n * 0x100000
def BC_BG_R (n : Nat) : Fld := ⟨BC_BG n, 59, 40⟩
def BC_BG_G (n : Nat) : Fld := ⟨BC_BG n, 39, 20⟩
def BC_BG_B (n : Nat) : Fld := ⟨BC_BG n, 19, 0⟩
/-- BC_VIEW (R247). -/
def BC_VIEW (n : Nat) (i : Nat) : Nat := 0xF003000040 + n * 0x100000 + i * 0x4
def BC_VIEW_CY (n : Nat) (i : Nat) : Fld := ⟨BC_VIEW n i, 31, 16⟩
def BC_VIEW_CX (n : Nat) (i : Nat) : Fld := ⟨BC_VIEW n i, 15, 0⟩
/-- BC_PLAN (R248). -/
def BC_PLAN (n : Nat) (i : Nat) : Nat := 0xF003000100 + n * 0x100000 + i * 0x10
def BC_PLAN_GAIN (n : Nat) (i : Nat) : Fld := ⟨BC_PLAN n i, 31, 16⟩
def BC_PLAN_MASK (n : Nat) (i : Nat) : Fld := ⟨BC_PLAN n i, 15, 0⟩
/-- BC_PLAN_CTRL (R248). -/
def BC_PLAN_CTRL (n : Nat) (i : Nat) : Nat := 0xF003000104 + n * 0x100000 + i * 0x10
def BC_PLAN_CTRL_PIPE (n : Nat) (i : Nat) : Fld := ⟨BC_PLAN_CTRL n i, 1, 1⟩
def BC_PLAN_CTRL_OVR_EN (n : Nat) (i : Nat) : Fld := ⟨BC_PLAN_CTRL n i, 0, 0⟩
/-- BC_PLAN_OVR (R248). -/
def BC_PLAN_OVR (n : Nat) (i : Nat) : Nat := 0xF003000108 + n * 0x100000 + i * 0x10
def BC_PLAN_OVR_R (n : Nat) (i : Nat) : Fld := ⟨BC_PLAN_OVR n i, 59, 40⟩
def BC_PLAN_OVR_G (n : Nat) (i : Nat) : Fld := ⟨BC_PLAN_OVR n i, 39, 20⟩
def BC_PLAN_OVR_B (n : Nat) (i : Nat) : Fld := ⟨BC_PLAN_OVR n i, 19, 0⟩
/-- BC_LAYER (R249). -/
def BC_LAYER (n : Nat) (i : Nat) : Nat := 0xF003000200 + n * 0x100000 + i * 0x20
def BC_LAYER_EN (n : Nat) (i : Nat) : Fld := ⟨BC_LAYER n i, 31, 31⟩
def BC_LAYER_ENGINE (n : Nat) (i : Nat) : Fld := ⟨BC_LAYER n i, 28, 24⟩
def BC_LAYER_OPAQUE (n : Nat) (i : Nat) : Fld := ⟨BC_LAYER n i, 23, 23⟩
def BC_LAYER_MODE (n : Nat) (i : Nat) : Fld := ⟨BC_LAYER n i, 22, 20⟩
def BC_LAYER_ASRC (n : Nat) (i : Nat) : Fld := ⟨BC_LAYER n i, 18, 16⟩
/-- BC_LAYER_ALPHA (R249). -/
def BC_LAYER_ALPHA (n : Nat) (i : Nat) : Nat := 0xF003000204 + n * 0x100000 + i * 0x20
def BC_LAYER_ALPHA_K (n : Nat) (i : Nat) : Fld := ⟨BC_LAYER_ALPHA n i, 15, 0⟩
/-- BC_KEY_CFG (R249). -/
def BC_KEY_CFG (n : Nat) (i : Nat) : Nat := 0xF003000208 + n * 0x100000 + i * 0x20
def BC_KEY_CFG_INVERT (n : Nat) (i : Nat) : Fld := ⟨BC_KEY_CFG n i, 4, 4⟩
def BC_KEY_CFG_CH (n : Nat) (i : Nat) : Fld := ⟨BC_KEY_CFG n i, 3, 2⟩
def BC_KEY_CFG_COEF (n : Nat) (i : Nat) : Fld := ⟨BC_KEY_CFG n i, 1, 1⟩
def BC_KEY_CFG_SRC (n : Nat) (i : Nat) : Fld := ⟨BC_KEY_CFG n i, 0, 0⟩
/-- BC_KEY_LOW (R249). -/
def BC_KEY_LOW (n : Nat) (i : Nat) : Nat := 0xF00300020C + n * 0x100000 + i * 0x20
def BC_KEY_LOW_LOW (n : Nat) (i : Nat) : Fld := ⟨BC_KEY_LOW n i, 24, 0⟩
/-- BC_KEY_GAIN (R249). -/
def BC_KEY_GAIN (n : Nat) (i : Nat) : Nat := 0xF003000210 + n * 0x100000 + i * 0x20
def BC_KEY_GAIN_KGAIN (n : Nat) (i : Nat) : Fld := ⟨BC_KEY_GAIN n i, 31, 0⟩
/-- BC_COVER (R250). -/
def BC_COVER (n : Nat) : Nat := 0xF003000600 + n * 0x100000
def BC_COVER_BLOCKS (n : Nat) : Fld := ⟨BC_COVER n, 31, 0⟩
/-- BC_COVER_TOTAL (R250). -/
def BC_COVER_TOTAL (n : Nat) : Nat := 0xF003000608 + n * 0x100000
def BC_COVER_TOTAL_BLOCKS (n : Nat) : Fld := ⟨BC_COVER_TOTAL n, 63, 0⟩
/-- BC_EVENTS (R250). -/
def BC_EVENTS (n : Nat) : Nat := 0xF003000610 + n * 0x100000
def BC_EVENTS_CLAMPED_PIXELS (n : Nat) : Fld := ⟨BC_EVENTS n, 63, 32⟩
/-- BC_REJECT (R250). -/
def BC_REJECT (n : Nat) : Nat := 0xF003000618 + n * 0x100000
def BC_REJECT_CODE (n : Nat) : Fld := ⟨BC_REJECT n, 7, 0⟩
/-- BC_CP_CTRL (R275). -/
def BC_CP_CTRL (n : Nat) (i : Nat) : Nat := 0xF003000800 + n * 0x100000 + i * 0x100
def BC_CP_CTRL_RSHIFT (n : Nat) (i : Nat) : Fld := ⟨BC_CP_CTRL n i, 11, 9⟩
def BC_CP_CTRL_LUT3D_EN (n : Nat) (i : Nat) : Fld := ⟨BC_CP_CTRL n i, 8, 8⟩
def BC_CP_CTRL_ENC_MODE (n : Nat) (i : Nat) : Fld := ⟨BC_CP_CTRL n i, 0, 0⟩
/-- BC_CP_MATRIX (R275). -/
def BC_CP_MATRIX (n : Nat) (i : Nat) (j : Nat) : Nat := 0xF003000810 + n * 0x100000 + i * 0x100 + j * 0x4
def BC_CP_MATRIX_COEF (n : Nat) (i : Nat) (j : Nat) : Fld := ⟨BC_CP_MATRIX n i j, 18, 0⟩
/-- BC_CP_LIN_GAIN (R275). -/
def BC_CP_LIN_GAIN (n : Nat) (i : Nat) : Nat := 0xF003000840 + n * 0x100000 + i * 0x100
def BC_CP_LIN_GAIN_GAIN (n : Nat) (i : Nat) : Fld := ⟨BC_CP_LIN_GAIN n i, 19, 0⟩
/-- BC_OUT_CFG (R276). -/
def BC_OUT_CFG (n : Nat) : Nat := 0xF003000A00 + n * 0x100000
def BC_OUT_CFG_DITHER (n : Nat) : Fld := ⟨BC_OUT_CFG n, 3, 2⟩
def BC_OUT_CFG_DEPTH (n : Nat) : Fld := ⟨BC_OUT_CFG n, 1, 0⟩
/-- BC_ENCODE_LOAD (R277). -/
def BC_ENCODE_LOAD (n : Nat) : Nat := 0xF003000A10 + n * 0x100000
def BC_ENCODE_LOAD_BUSY (n : Nat) : Fld := ⟨BC_ENCODE_LOAD n, 31, 31⟩
def BC_ENCODE_LOAD_RESULT (n : Nat) : Fld := ⟨BC_ENCODE_LOAD n, 30, 29⟩
def BC_ENCODE_LOAD_SET (n : Nat) : Fld := ⟨BC_ENCODE_LOAD n, 17, 17⟩
def BC_ENCODE_LOAD_PRESET (n : Nat) : Fld := ⟨BC_ENCODE_LOAD n, 16, 14⟩
def BC_ENCODE_LOAD_REF_NITS (n : Nat) : Fld := ⟨BC_ENCODE_LOAD n, 13, 0⟩
/-- BC_COLOUR_REJECT (R277). -/
def BC_COLOUR_REJECT (n : Nat) : Nat := 0xF003000A18 + n * 0x100000
def BC_COLOUR_REJECT_CODE (n : Nat) : Fld := ⟨BC_COLOUR_REJECT n, 7, 0⟩
/-- BC_COLOUR_EVENTS (R278). -/
def BC_COLOUR_EVENTS (n : Nat) : Nat := 0xF003000A20 + n * 0x100000
def BC_COLOUR_EVENTS_CLIPPED_PIXELS (n : Nat) : Fld := ⟨BC_COLOUR_EVENTS n, 63, 32⟩
def BC_COLOUR_EVENTS_POISON_READS (n : Nat) : Fld := ⟨BC_COLOUR_EVENTS n, 31, 16⟩
/-- BC_ENC_LUT (R279). -/
def BC_ENC_LUT (n : Nat) (i : Nat) (j : Nat) (k : Nat) : Nat := 0xF003010000 + n * 0x100000 + i * 0xC000 + j * 0x4000 + k * 0x4
def BC_ENC_LUT_VALUE (n : Nat) (i : Nat) (j : Nat) (k : Nat) : Fld := ⟨BC_ENC_LUT n i j k, 20, 0⟩
/-- ORS_BIND (R308). -/
def ORS_BIND (n : Nat) : Nat := 0xF004000010 + n * 0x100000
def ORS_BIND_LOCK_GROUP (n : Nat) : Fld := ⟨ORS_BIND n, 23, 16⟩
def ORS_BIND_HITLESS (n : Nat) : Fld := ⟨ORS_BIND n, 9, 9⟩
def ORS_BIND_ENABLED (n : Nat) : Fld := ⟨ORS_BIND n, 8, 8⟩
def ORS_BIND_CLUSTER (n : Nat) : Fld := ⟨ORS_BIND n, 7, 0⟩
/-- ORS_HTIME (R309). -/
def ORS_HTIME (n : Nat) : Nat := 0xF004000018 + n * 0x100000
def ORS_HTIME_H_BP (n : Nat) : Fld := ⟨ORS_HTIME n, 63, 48⟩
def ORS_HTIME_H_SYNC (n : Nat) : Fld := ⟨ORS_HTIME n, 47, 32⟩
def ORS_HTIME_H_FP (n : Nat) : Fld := ⟨ORS_HTIME n, 31, 16⟩
def ORS_HTIME_H_ACTIVE (n : Nat) : Fld := ⟨ORS_HTIME n, 15, 0⟩
/-- ORS_VTIME (R309). -/
def ORS_VTIME (n : Nat) : Nat := 0xF004000020 + n * 0x100000
def ORS_VTIME_V_BP (n : Nat) : Fld := ⟨ORS_VTIME n, 63, 48⟩
def ORS_VTIME_V_SYNC (n : Nat) : Fld := ⟨ORS_VTIME n, 47, 32⟩
def ORS_VTIME_V_FP (n : Nat) : Fld := ⟨ORS_VTIME n, 31, 16⟩
def ORS_VTIME_V_ACTIVE (n : Nat) : Fld := ⟨ORS_VTIME n, 15, 0⟩
/-- ORS_MODE (R310). -/
def ORS_MODE (n : Nat) : Nat := 0xF004000028 + n * 0x100000
def ORS_MODE_SUBFRAMES (n : Nat) : Fld := ⟨ORS_MODE n, 19, 16⟩
def ORS_MODE_FETCH_LEAD (n : Nat) : Fld := ⟨ORS_MODE n, 15, 0⟩
/-- ORS_PHASE (R310). -/
def ORS_PHASE (n : Nat) : Nat := 0xF00400002C + n * 0x100000
def ORS_PHASE_PHASE_OFFSET (n : Nat) : Fld := ⟨ORS_PHASE n, 31, 0⟩
/-- ORS_LATCH (R310). -/
def ORS_LATCH (n : Nat) : Nat := 0xF004000030 + n * 0x100000
def ORS_LATCH_LATCH_LEAD (n : Nat) : Fld := ⟨ORS_LATCH n, 23, 16⟩
def ORS_LATCH_SEND_LINE (n : Nat) : Fld := ⟨ORS_LATCH n, 14, 0⟩
/-- ORS_HOLD_CFG (R310). -/
def ORS_HOLD_CFG (n : Nat) : Nat := 0xF004000034 + n * 0x100000
def ORS_HOLD_CFG_HOLD_EN (n : Nat) : Fld := ⟨ORS_HOLD_CFG n, 31, 31⟩
def ORS_HOLD_CFG_HOLD_AFTER (n : Nat) : Fld := ⟨ORS_HOLD_CFG n, 23, 8⟩
def ORS_HOLD_CFG_REFRESH_DIVISOR (n : Nat) : Fld := ⟨ORS_HOLD_CFG n, 7, 0⟩
/-- ORS_STATE (R311). -/
def ORS_STATE (n : Nat) : Nat := 0xF004000040 + n * 0x100000
def ORS_STATE_SUBFRAME (n : Nat) : Fld := ⟨ORS_STATE n, 19, 16⟩
def ORS_STATE_LOCK_SETTLING (n : Nat) : Fld := ⟨ORS_STATE n, 8, 8⟩
def ORS_STATE_STATE (n : Nat) : Fld := ⟨ORS_STATE n, 2, 0⟩
/-- ORS_REJECT (R311). -/
def ORS_REJECT (n : Nat) : Nat := 0xF004000044 + n * 0x100000
def ORS_REJECT_ENTRY (n : Nat) : Fld := ⟨ORS_REJECT n, 31, 16⟩
def ORS_REJECT_CODE (n : Nat) : Fld := ⟨ORS_REJECT n, 7, 0⟩
/-- ORS_NOW (R312). -/
def ORS_NOW (n : Nat) : Nat := 0xF004000048 + n * 0x100000
def ORS_NOW_LINE (n : Nat) : Fld := ⟨ORS_NOW n, 63, 48⟩
def ORS_NOW_FRAME (n : Nat) : Fld := ⟨ORS_NOW n, 47, 0⟩
/-- ORS_COUNTS (R312). -/
def ORS_COUNTS (n : Nat) : Nat := 0xF004000050 + n * 0x100000
def ORS_COUNTS_SENT_FRAMES (n : Nat) : Fld := ⟨ORS_COUNTS n, 63, 32⟩
def ORS_COUNTS_HOLD_FRAMES (n : Nat) : Fld := ⟨ORS_COUNTS n, 31, 0⟩
/-- ORS_UNDERRUN (R312). -/
def ORS_UNDERRUN (n : Nat) : Nat := 0xF004000058 + n * 0x100000
def ORS_UNDERRUN_LINES (n : Nat) : Fld := ⟨ORS_UNDERRUN n, 63, 32⟩
def ORS_UNDERRUN_FRAMES (n : Nat) : Fld := ⟨ORS_UNDERRUN n, 31, 0⟩
/-- ORS_UNDER_FIRST (R312). -/
def ORS_UNDER_FIRST (n : Nat) : Nat := 0xF004000060 + n * 0x100000
def ORS_UNDER_FIRST_VALID (n : Nat) : Fld := ⟨ORS_UNDER_FIRST n, 63, 63⟩
def ORS_UNDER_FIRST_LINE (n : Nat) : Fld := ⟨ORS_UNDER_FIRST n, 62, 48⟩
def ORS_UNDER_FIRST_PIXEL (n : Nat) : Fld := ⟨ORS_UNDER_FIRST n, 47, 32⟩
def ORS_UNDER_FIRST_FRAME (n : Nat) : Fld := ⟨ORS_UNDER_FIRST n, 31, 0⟩
/-- ORS_UNDER_RESTART (R312). -/
def ORS_UNDER_RESTART (n : Nat) : Nat := 0xF004000068 + n * 0x100000
/-- ORS_IDLE (R312). -/
def ORS_IDLE (n : Nat) : Nat := 0xF00400006C + n * 0x100000
def ORS_IDLE_CLEAN (n : Nat) : Fld := ⟨ORS_IDLE n, 31, 16⟩
/-- ORS_LANDED (R312). -/
def ORS_LANDED (n : Nat) : Nat := 0xF004000070 + n * 0x100000
def ORS_LANDED_FRAME (n : Nat) : Fld := ⟨ORS_LANDED n, 47, 0⟩
/-- PQ_MODE (R389). -/
def PQ_MODE (n : Nat) : Nat := 0xF006000010 + n * 0x100000
def PQ_MODE_ROLE (n : Nat) : Fld := ⟨PQ_MODE n, 15, 8⟩
def PQ_MODE_MODE (n : Nat) : Fld := ⟨PQ_MODE n, 2, 0⟩
/-- PQ_REFCLK (R389). -/
def PQ_REFCLK (n : Nat) : Nat := 0xF006000014 + n * 0x100000
def PQ_REFCLK_PRESENT (n : Nat) : Fld := ⟨PQ_REFCLK n, 0, 0⟩
/-- PQ_LANE_CFG (R390). -/
def PQ_LANE_CFG (n : Nat) (i : Nat) : Nat := 0xF006000020 + n * 0x100000 + i * 0x4
def PQ_LANE_CFG_TX_INV (n : Nat) (i : Nat) : Fld := ⟨PQ_LANE_CFG n i, 31, 31⟩
def PQ_LANE_CFG_RX_INV (n : Nat) (i : Nat) : Fld := ⟨PQ_LANE_CFG n i, 30, 30⟩
def PQ_LANE_CFG_AN_EN (n : Nat) (i : Nat) : Fld := ⟨PQ_LANE_CFG n i, 29, 29⟩
def PQ_LANE_CFG_PCS_LOOP (n : Nat) (i : Nat) : Fld := ⟨PQ_LANE_CFG n i, 28, 28⟩
def PQ_LANE_CFG_TX_PRE (n : Nat) (i : Nat) : Fld := ⟨PQ_LANE_CFG n i, 21, 16⟩
def PQ_LANE_CFG_TX_MAIN (n : Nat) (i : Nat) : Fld := ⟨PQ_LANE_CFG n i, 13, 8⟩
def PQ_LANE_CFG_TX_POST (n : Nat) (i : Nat) : Fld := ⟨PQ_LANE_CFG n i, 5, 0⟩
/-- BTL_CFG (R351). -/
def BTL_CFG (p : Nat) : Nat := 0xF006001000 + p / 4 * 0x100000 + p % 4 * 0x200
def BTL_CFG_ETHERTYPE (p : Nat) : Fld := ⟨BTL_CFG p, 31, 16⟩
def BTL_CFG_CHECK (p : Nat) : Fld := ⟨BTL_CFG p, 15, 15⟩
def BTL_CFG_MAX_PAYLOAD (p : Nat) : Fld := ⟨BTL_CFG p, 13, 0⟩
/-- BTL_GUARD (R351). -/
def BTL_GUARD (p : Nat) : Nat := 0xF006001004 + p / 4 * 0x100000 + p % 4 * 0x200
def BTL_GUARD_GUARD_NS (p : Nat) : Fld := ⟨BTL_GUARD p, 19, 0⟩
/-- BTL_MAC_SA (R352). -/
def BTL_MAC_SA (p : Nat) : Nat := 0xF006001008 + p / 4 * 0x100000 + p % 4 * 0x200
def BTL_MAC_SA_SA (p : Nat) : Fld := ⟨BTL_MAC_SA p, 47, 0⟩
/-- BTL_MAC_DA (R352). -/
def BTL_MAC_DA (p : Nat) : Nat := 0xF006001010 + p / 4 * 0x100000 + p % 4 * 0x200
def BTL_MAC_DA_DA (p : Nat) : Fld := ⟨BTL_MAC_DA p, 47, 0⟩
/-- BTL_CTRL_CFG (R353). -/
def BTL_CTRL_CFG (p : Nat) : Nat := 0xF006001018 + p / 4 * 0x100000 + p % 4 * 0x200
def BTL_CTRL_CFG_TIMEOUT_US (p : Nat) : Fld := ⟨BTL_CTRL_CFG p, 31, 16⟩
def BTL_CTRL_CFG_RETRIES (p : Nat) : Fld := ⟨BTL_CTRL_CFG p, 3, 0⟩
/-- BTL_ECHO_CFG (R353). -/
def BTL_ECHO_CFG (p : Nat) : Nat := 0xF00600101C + p / 4 * 0x100000 + p % 4 * 0x200
def BTL_ECHO_CFG_PERIOD (p : Nat) : Fld := ⟨BTL_ECHO_CFG p, 31, 16⟩
def BTL_ECHO_CFG_AUTO (p : Nat) : Fld := ⟨BTL_ECHO_CFG p, 0, 0⟩
/-- BTL_CTRL_ADDR (R354). -/
def BTL_CTRL_ADDR (p : Nat) : Nat := 0xF006001020 + p / 4 * 0x100000 + p % 4 * 0x200
def BTL_CTRL_ADDR_ADDR (p : Nat) : Fld := ⟨BTL_CTRL_ADDR p, 31, 0⟩
/-- BTL_CTRL_SEND (R354). -/
def BTL_CTRL_SEND (p : Nat) : Nat := 0xF006001024 + p / 4 * 0x100000 + p % 4 * 0x200
def BTL_CTRL_SEND_WORDS (p : Nat) : Fld := ⟨BTL_CTRL_SEND p, 20, 16⟩
def BTL_CTRL_SEND_TILE (p : Nat) : Fld := ⟨BTL_CTRL_SEND p, 15, 0⟩
/-- BTL_CTRL_RESULT (R354). -/
def BTL_CTRL_RESULT (p : Nat) : Nat := 0xF006001028 + p / 4 * 0x100000 + p % 4 * 0x200
def BTL_CTRL_RESULT_STATE (p : Nat) : Fld := ⟨BTL_CTRL_RESULT p, 31, 30⟩
def BTL_CTRL_RESULT_TRIES (p : Nat) : Fld := ⟨BTL_CTRL_RESULT p, 27, 24⟩
def BTL_CTRL_RESULT_CODE (p : Nat) : Fld := ⟨BTL_CTRL_RESULT p, 15, 0⟩
/-- BTL_STATUS (R355). -/
def BTL_STATUS (p : Nat) : Nat := 0xF00600102C + p / 4 * 0x100000 + p % 4 * 0x200
def BTL_STATUS_SEQ (p : Nat) : Fld := ⟨BTL_STATUS p, 31, 16⟩
def BTL_STATUS_FLAGS (p : Nat) : Fld := ⟨BTL_STATUS p, 15, 0⟩
/-- BTL_ECHO_REQ (R355). -/
def BTL_ECHO_REQ (p : Nat) : Nat := 0xF006001030 + p / 4 * 0x100000 + p % 4 * 0x200
def BTL_ECHO_REQ_TILE (p : Nat) : Fld := ⟨BTL_ECHO_REQ p, 15, 0⟩
/-- BTL_ECHO_RESULT (R355). -/
def BTL_ECHO_RESULT (p : Nat) : Nat := 0xF006001038 + p / 4 * 0x100000 + p % 4 * 0x200
def BTL_ECHO_RESULT_VALID (p : Nat) : Fld := ⟨BTL_ECHO_RESULT p, 63, 63⟩
def BTL_ECHO_RESULT_TIMEOUT (p : Nat) : Fld := ⟨BTL_ECHO_RESULT p, 62, 62⟩
def BTL_ECHO_RESULT_TILE (p : Nat) : Fld := ⟨BTL_ECHO_RESULT p, 47, 32⟩
def BTL_ECHO_RESULT_DELAY (p : Nat) : Fld := ⟨BTL_ECHO_RESULT p, 31, 0⟩
/-- BTL_CTRL_DATA (R354). -/
def BTL_CTRL_DATA (p : Nat) (i : Nat) : Nat := 0xF006001040 + p / 4 * 0x100000 + p % 4 * 0x200 + i * 0x4
def BTL_CTRL_DATA_DATA (p : Nat) (i : Nat) : Fld := ⟨BTL_CTRL_DATA p i, 31, 0⟩
/-- BTL_TX_COUNTS (R356). -/
def BTL_TX_COUNTS (p : Nat) : Nat := 0xF006001080 + p / 4 * 0x100000 + p % 4 * 0x200
def BTL_TX_COUNTS_PIXEL_PKTS (p : Nat) : Fld := ⟨BTL_TX_COUNTS p, 63, 32⟩
def BTL_TX_COUNTS_LATE_PIXEL (p : Nat) : Fld := ⟨BTL_TX_COUNTS p, 31, 16⟩
def BTL_TX_COUNTS_TX_LATE (p : Nat) : Fld := ⟨BTL_TX_COUNTS p, 15, 0⟩
/-- BTL_RX_COUNTS (R356). -/
def BTL_RX_COUNTS (p : Nat) : Nat := 0xF006001088 + p / 4 * 0x100000 + p % 4 * 0x200
def BTL_RX_COUNTS_RX_BAD (p : Nat) : Fld := ⟨BTL_RX_COUNTS p, 63, 48⟩
def BTL_RX_COUNTS_RX_OTHER (p : Nat) : Fld := ⟨BTL_RX_COUNTS p, 47, 32⟩
def BTL_RX_COUNTS_RX_STAT (p : Nat) : Fld := ⟨BTL_RX_COUNTS p, 31, 16⟩
def BTL_RX_COUNTS_RX_OWN (p : Nat) : Fld := ⟨BTL_RX_COUNTS p, 15, 0⟩
/-- BTL_DELIVERED (R356). -/
def BTL_DELIVERED (p : Nat) : Nat := 0xF006001090 + p / 4 * 0x100000 + p % 4 * 0x200
def BTL_DELIVERED_PIXELS (p : Nat) : Fld := ⟨BTL_DELIVERED p, 63, 0⟩
/-- BTL_TILE_EVENTS (R356). -/
def BTL_TILE_EVENTS (p : Nat) : Nat := 0xF006001098 + p / 4 * 0x100000 + p % 4 * 0x200
def BTL_TILE_EVENTS_LATE_LATCH (p : Nat) : Fld := ⟨BTL_TILE_EVENTS p, 63, 32⟩
def BTL_TILE_EVENTS_CHECK_FAIL (p : Nat) : Fld := ⟨BTL_TILE_EVENTS p, 31, 0⟩
/-- BTL_CTRL_STATS (R356). -/
def BTL_CTRL_STATS (p : Nat) : Nat := 0xF0060010A0 + p / 4 * 0x100000 + p % 4 * 0x200
def BTL_CTRL_STATS_RETRIES (p : Nat) : Fld := ⟨BTL_CTRL_STATS p, 31, 16⟩
def BTL_CTRL_STATS_FAILED (p : Nat) : Fld := ⟨BTL_CTRL_STATS p, 15, 0⟩
/-- BTL_TEST (R357). -/
def BTL_TEST (p : Nat) : Nat := 0xF0060010B0 + p / 4 * 0x100000 + p % 4 * 0x200
def BTL_TEST_COUNT (p : Nat) : Fld := ⟨BTL_TEST p, 31, 24⟩
def BTL_TEST_LEN64 (p : Nat) : Fld := ⟨BTL_TEST p, 23, 16⟩
def BTL_TEST_TILE (p : Nat) : Fld := ⟨BTL_TEST p, 15, 0⟩
/-- BTL_TEST_RESULT (R357). -/
def BTL_TEST_RESULT (p : Nat) : Nat := 0xF0060010B4 + p / 4 * 0x100000 + p % 4 * 0x200
def BTL_TEST_RESULT_SENT (p : Nat) : Fld := ⟨BTL_TEST_RESULT p, 31, 24⟩
def BTL_TEST_RESULT_RETURNED (p : Nat) : Fld := ⟨BTL_TEST_RESULT p, 23, 16⟩
def BTL_TEST_RESULT_MISMATCH (p : Nat) : Fld := ⟨BTL_TEST_RESULT p, 15, 8⟩
def BTL_TEST_RESULT_BUSY (p : Nat) : Fld := ⟨BTL_TEST_RESULT p, 0, 0⟩
/-- PORT_STATUS (R391). -/
def PORT_STATUS (p : Nat) : Nat := 0xF006002000 + p / 4 * 0x100000 + p % 4 * 0x400
def PORT_STATUS_SEQ (p : Nat) : Fld := ⟨PORT_STATUS p, 31, 16⟩
def PORT_STATUS_FLAGS (p : Nat) : Fld := ⟨PORT_STATUS p, 15, 0⟩
/-- PORT_LINK (R391). -/
def PORT_LINK (p : Nat) : Nat := 0xF006002004 + p / 4 * 0x100000 + p % 4 * 0x400
def PORT_LINK_LINK_UP (p : Nat) : Fld := ⟨PORT_LINK p, 31, 31⟩
def PORT_LINK_BLOCK_LOCK (p : Nat) : Fld := ⟨PORT_LINK p, 30, 30⟩
def PORT_LINK_HI_BER (p : Nat) : Fld := ⟨PORT_LINK p, 29, 29⟩
def PORT_LINK_FEC_LOCK (p : Nat) : Fld := ⟨PORT_LINK p, 28, 28⟩
def PORT_LINK_AN_DONE (p : Nat) : Fld := ⟨PORT_LINK p, 27, 27⟩
def PORT_LINK_REMOTE_FAULT (p : Nat) : Fld := ⟨PORT_LINK p, 26, 26⟩
/-- PORT_TX_CFG (R391). -/
def PORT_TX_CFG (p : Nat) : Nat := 0xF006002008 + p / 4 * 0x100000 + p % 4 * 0x400
def PORT_TX_CFG_OVERHEAD (p : Nat) : Fld := ⟨PORT_TX_CFG p, 5, 0⟩
/-- PORT_MAC_RX (R392). -/
def PORT_MAC_RX (p : Nat) : Nat := 0xF006002010 + p / 4 * 0x100000 + p % 4 * 0x400
def PORT_MAC_RX_RX_FRAMES (p : Nat) : Fld := ⟨PORT_MAC_RX p, 63, 32⟩
def PORT_MAC_RX_FCS_ERR (p : Nat) : Fld := ⟨PORT_MAC_RX p, 31, 16⟩
def PORT_MAC_RX_OVERSIZE (p : Nat) : Fld := ⟨PORT_MAC_RX p, 15, 0⟩
/-- PORT_MAC_TX (R392). -/
def PORT_MAC_TX (p : Nat) : Nat := 0xF006002018 + p / 4 * 0x100000 + p % 4 * 0x400
def PORT_MAC_TX_TX_FRAMES (p : Nat) : Fld := ⟨PORT_MAC_TX p, 63, 0⟩
/-- PORT_PHY_COUNTS (R392). -/
def PORT_PHY_COUNTS (p : Nat) : Nat := 0xF006002020 + p / 4 * 0x100000 + p % 4 * 0x400
def PORT_PHY_COUNTS_FEC_CORRECTED (p : Nat) : Fld := ⟨PORT_PHY_COUNTS p, 63, 32⟩
def PORT_PHY_COUNTS_FEC_UNCORRECTABLE (p : Nat) : Fld := ⟨PORT_PHY_COUNTS p, 31, 16⟩
def PORT_PHY_COUNTS_LINK_DOWNS (p : Nat) : Fld := ⟨PORT_PHY_COUNTS p, 15, 0⟩
/-- QUEUE_SHAPE_RATE (R393). -/
def QUEUE_SHAPE_RATE (p : Nat) (i : Nat) : Nat := 0xF006002040 + p / 4 * 0x100000 + p % 4 * 0x400 + i * 0x20
def QUEUE_SHAPE_RATE_RATE (p : Nat) (i : Nat) : Fld := ⟨QUEUE_SHAPE_RATE p i, 31, 0⟩
/-- QUEUE_SHAPE_BURST (R393). -/
def QUEUE_SHAPE_BURST (p : Nat) (i : Nat) : Nat := 0xF006002044 + p / 4 * 0x100000 + p % 4 * 0x400 + i * 0x20
def QUEUE_SHAPE_BURST_EN (p : Nat) (i : Nat) : Fld := ⟨QUEUE_SHAPE_BURST p i, 31, 31⟩
def QUEUE_SHAPE_BURST_BURST (p : Nat) (i : Nat) : Fld := ⟨QUEUE_SHAPE_BURST p i, 23, 0⟩
/-- QUEUE_CREDIT (R393). -/
def QUEUE_CREDIT (p : Nat) (i : Nat) : Nat := 0xF006002048 + p / 4 * 0x100000 + p % 4 * 0x400 + i * 0x20
def QUEUE_CREDIT_CREDIT (p : Nat) (i : Nat) : Fld := ⟨QUEUE_CREDIT p i, 31, 0⟩
/-- QUEUE_QUANTUM (R393). -/
def QUEUE_QUANTUM (p : Nat) (i : Nat) : Nat := 0xF00600204C + p / 4 * 0x100000 + p % 4 * 0x400 + i * 0x20
def QUEUE_QUANTUM_QUANTUM (p : Nat) (i : Nat) : Fld := ⟨QUEUE_QUANTUM p i, 15, 0⟩
/-- QUEUE_SAMPLE (R393). -/
def QUEUE_SAMPLE (p : Nat) (i : Nat) : Nat := 0xF006002050 + p / 4 * 0x100000 + p % 4 * 0x400 + i * 0x20
def QUEUE_SAMPLE_HEAD_DELAY (p : Nat) (i : Nat) : Fld := ⟨QUEUE_SAMPLE p i, 63, 32⟩
def QUEUE_SAMPLE_DEPTH (p : Nat) (i : Nat) : Fld := ⟨QUEUE_SAMPLE p i, 31, 0⟩
/-- QUEUE_SAMPLE_MAX (R393). -/
def QUEUE_SAMPLE_MAX (p : Nat) (i : Nat) : Nat := 0xF006002058 + p / 4 * 0x100000 + p % 4 * 0x400 + i * 0x20
def QUEUE_SAMPLE_MAX_HEAD_DELAY (p : Nat) (i : Nat) : Fld := ⟨QUEUE_SAMPLE_MAX p i, 63, 32⟩
def QUEUE_SAMPLE_MAX_DEPTH (p : Nat) (i : Nat) : Fld := ⟨QUEUE_SAMPLE_MAX p i, 31, 0⟩
/-- QUEUE_COUNTS (R394). -/
def QUEUE_COUNTS (p : Nat) (i : Nat) : Nat := 0xF006002140 + p / 4 * 0x100000 + p % 4 * 0x400 + i * 0x10
def QUEUE_COUNTS_SENT (p : Nat) (i : Nat) : Fld := ⟨QUEUE_COUNTS p i, 63, 32⟩
def QUEUE_COUNTS_DEFICIT (p : Nat) (i : Nat) : Fld := ⟨QUEUE_COUNTS p i, 31, 0⟩
/-- QUEUE_DROPS (R394). -/
def QUEUE_DROPS (p : Nat) (i : Nat) : Nat := 0xF006002148 + p / 4 * 0x100000 + p % 4 * 0x400 + i * 0x10
def QUEUE_DROPS_WINDOW (p : Nat) (i : Nat) : Fld := ⟨QUEUE_DROPS p i, 63, 48⟩
def QUEUE_DROPS_CRUCIBLE (p : Nat) (i : Nat) : Fld := ⟨QUEUE_DROPS p i, 47, 32⟩
def QUEUE_DROPS_LINK_DOWN (p : Nat) (i : Nat) : Fld := ⟨QUEUE_DROPS p i, 31, 16⟩
def QUEUE_DROPS_INJECTED (p : Nat) (i : Nat) : Fld := ⟨QUEUE_DROPS p i, 15, 0⟩
/-- PORT_SAMPLE_CFG (R395). -/
def PORT_SAMPLE_CFG (p : Nat) : Nat := 0xF0060021C0 + p / 4 * 0x100000 + p % 4 * 0x400
def PORT_SAMPLE_CFG_TRACE_EN (p : Nat) : Fld := ⟨PORT_SAMPLE_CFG p, 31, 31⟩
def PORT_SAMPLE_CFG_PERIOD_US (p : Nat) : Fld := ⟨PORT_SAMPLE_CFG p, 19, 0⟩
/-- PORT_SAMPLE_RESTART (R395). -/
def PORT_SAMPLE_RESTART (p : Nat) : Nat := 0xF0060021C4 + p / 4 * 0x100000 + p % 4 * 0x400
/-- PORT_TRACE_BASE (R395). -/
def PORT_TRACE_BASE (p : Nat) : Nat := 0xF0060021C8 + p / 4 * 0x100000 + p % 4 * 0x400
def PORT_TRACE_BASE_BASE (p : Nat) : Fld := ⟨PORT_TRACE_BASE p, 39, 8⟩
/-- PORT_TRACE_CFG (R395). -/
def PORT_TRACE_CFG (p : Nat) : Nat := 0xF0060021D0 + p / 4 * 0x100000 + p % 4 * 0x400
def PORT_TRACE_CFG_LOG2 (p : Nat) : Fld := ⟨PORT_TRACE_CFG p, 4, 0⟩
/-- PORT_TRACE_WPTR (R395). -/
def PORT_TRACE_WPTR (p : Nat) : Nat := 0xF0060021D4 + p / 4 * 0x100000 + p % 4 * 0x400
def PORT_TRACE_WPTR_WPTR (p : Nat) : Fld := ⟨PORT_TRACE_WPTR p, 31, 0⟩
/-- PORT_SWAP_FLUSH (R620). -/
def PORT_SWAP_FLUSH (p : Nat) : Nat := 0xF0060021D8 + p / 4 * 0x100000 + p % 4 * 0x400
def PORT_SWAP_FLUSH_FRAMES (p : Nat) : Fld := ⟨PORT_SWAP_FLUSH p, 31, 0⟩
/-- GATE_CTRL (R396). -/
def GATE_CTRL (p : Nat) : Nat := 0xF006002200 + p / 4 * 0x100000 + p % 4 * 0x400
def GATE_CTRL_EN (p : Nat) : Fld := ⟨GATE_CTRL p, 31, 31⟩
def GATE_CTRL_ALIGN (p : Nat) : Fld := ⟨GATE_CTRL p, 1, 0⟩
/-- GATE_SWITCH (R396). -/
def GATE_SWITCH (p : Nat) : Nat := 0xF006002204 + p / 4 * 0x100000 + p % 4 * 0x400
def GATE_SWITCH_BANK (p : Nat) : Fld := ⟨GATE_SWITCH p, 0, 0⟩
/-- GATE_CYCLE (R396). -/
def GATE_CYCLE (p : Nat) : Nat := 0xF006002208 + p / 4 * 0x100000 + p % 4 * 0x400
def GATE_CYCLE_CYCLE_NS (p : Nat) : Fld := ⟨GATE_CYCLE p, 31, 0⟩
/-- GATE_LEN (R396). -/
def GATE_LEN (p : Nat) (i : Nat) : Nat := 0xF00600220C + p / 4 * 0x100000 + p % 4 * 0x400 + i * 0x10
def GATE_LEN_LEN (p : Nat) (i : Nat) : Fld := ⟨GATE_LEN p i, 6, 0⟩
/-- GATE_BASE (R396). -/
def GATE_BASE (p : Nat) : Nat := 0xF006002210 + p / 4 * 0x100000 + p % 4 * 0x400
def GATE_BASE_BASE_NS (p : Nat) : Fld := ⟨GATE_BASE p, 63, 0⟩
/-- GATE_STATE (R396). -/
def GATE_STATE (p : Nat) : Nat := 0xF006002218 + p / 4 * 0x100000 + p % 4 * 0x400
def GATE_STATE_ACTIVE (p : Nat) : Fld := ⟨GATE_STATE p, 31, 31⟩
def GATE_STATE_PENDING (p : Nat) : Fld := ⟨GATE_STATE p, 30, 30⟩
def GATE_STATE_ENTRY (p : Nat) : Fld := ⟨GATE_STATE p, 21, 16⟩
def GATE_STATE_SWITCHES (p : Nat) : Fld := ⟨GATE_STATE p, 15, 0⟩
/-- HRX_BASE (R398). -/
def HRX_BASE (p : Nat) : Nat := 0xF006002220 + p / 4 * 0x100000 + p % 4 * 0x400
def HRX_BASE_BASE (p : Nat) : Fld := ⟨HRX_BASE p, 39, 8⟩
/-- HRX_CFG (R398). -/
def HRX_CFG (p : Nat) : Nat := 0xF006002228 + p / 4 * 0x100000 + p % 4 * 0x400
def HRX_CFG_EN (p : Nat) : Fld := ⟨HRX_CFG p, 31, 31⟩
def HRX_CFG_SLOTS (p : Nat) : Fld := ⟨HRX_CFG p, 10, 0⟩
/-- HRX_PROD (R398). -/
def HRX_PROD (p : Nat) : Nat := 0xF00600222C + p / 4 * 0x100000 + p % 4 * 0x400
def HRX_PROD_INDEX (p : Nat) : Fld := ⟨HRX_PROD p, 31, 0⟩
/-- HRX_CONS (R398). -/
def HRX_CONS (p : Nat) : Nat := 0xF006002230 + p / 4 * 0x100000 + p % 4 * 0x400
def HRX_CONS_INDEX (p : Nat) : Fld := ⟨HRX_CONS p, 31, 0⟩
/-- HRX_DROPS (R398). -/
def HRX_DROPS (p : Nat) : Nat := 0xF006002234 + p / 4 * 0x100000 + p % 4 * 0x400
def HRX_DROPS_COUNT (p : Nat) : Fld := ⟨HRX_DROPS p, 31, 0⟩
/-- HTX_BASE (R398). -/
def HTX_BASE (p : Nat) : Nat := 0xF006002238 + p / 4 * 0x100000 + p % 4 * 0x400
def HTX_BASE_BASE (p : Nat) : Fld := ⟨HTX_BASE p, 39, 8⟩
/-- HTX_CFG (R398). -/
def HTX_CFG (p : Nat) : Nat := 0xF006002240 + p / 4 * 0x100000 + p % 4 * 0x400
def HTX_CFG_EN (p : Nat) : Fld := ⟨HTX_CFG p, 31, 31⟩
def HTX_CFG_SLOTS (p : Nat) : Fld := ⟨HTX_CFG p, 10, 0⟩
/-- HTX_PROD (R398). -/
def HTX_PROD (p : Nat) : Nat := 0xF006002244 + p / 4 * 0x100000 + p % 4 * 0x400
def HTX_PROD_INDEX (p : Nat) : Fld := ⟨HTX_PROD p, 31, 0⟩
/-- HTX_CONS (R398). -/
def HTX_CONS (p : Nat) : Nat := 0xF006002248 + p / 4 * 0x100000 + p % 4 * 0x400
def HTX_CONS_INDEX (p : Nat) : Fld := ⟨HTX_CONS p, 31, 0⟩
/-- HTX_BAD (R398). -/
def HTX_BAD (p : Nat) : Nat := 0xF00600224C + p / 4 * 0x100000 + p % 4 * 0x400
def HTX_BAD_COUNT (p : Nat) : Fld := ⟨HTX_BAD p, 31, 0⟩
/-- FI_CFG (R399). -/
def FI_CFG (p : Nat) (i : Nat) : Nat := 0xF006002280 + p / 4 * 0x100000 + p % 4 * 0x400 + i * 0x10
def FI_CFG_EN (p : Nat) (i : Nat) : Fld := ⟨FI_CFG p i, 31, 31⟩
def FI_CFG_ACTION (p : Nat) (i : Nat) : Fld := ⟨FI_CFG p i, 30, 28⟩
def FI_CFG_HOLD (p : Nat) (i : Nat) : Fld := ⟨FI_CFG p i, 27, 25⟩
def FI_CFG_PATTERN (p : Nat) (i : Nat) : Fld := ⟨FI_CFG p i, 24, 24⟩
/-- FI_SEL (R399). -/
def FI_SEL (p : Nat) (i : Nat) : Nat := 0xF006002284 + p / 4 * 0x100000 + p % 4 * 0x400 + i * 0x10
def FI_SEL_TYPES (p : Nat) (i : Nat) : Fld := ⟨FI_SEL p i, 31, 16⟩
def FI_SEL_QUEUES (p : Nat) (i : Nat) : Fld := ⟨FI_SEL p i, 7, 0⟩
/-- FI_N (R399). -/
def FI_N (p : Nat) (i : Nat) : Nat := 0xF006002288 + p / 4 * 0x100000 + p % 4 * 0x400 + i * 0x10
def FI_N_N (p : Nat) (i : Nat) : Fld := ⟨FI_N p i, 23, 0⟩
/-- FI_HITS (R399). -/
def FI_HITS (p : Nat) (i : Nat) : Nat := 0xF00600228C + p / 4 * 0x100000 + p % 4 * 0x400 + i * 0x10
def FI_HITS_HITS (p : Nat) (i : Nat) : Fld := ⟨FI_HITS p i, 31, 0⟩
/-- FI_SEED (R399). -/
def FI_SEED (p : Nat) (i : Nat) : Nat := 0xF0060022A0 + p / 4 * 0x100000 + p % 4 * 0x400 + i * 0x4
def FI_SEED_SEED (p : Nat) (i : Nat) : Fld := ⟨FI_SEED p i, 31, 0⟩
/-- GATE_ENTRY (R397). -/
def GATE_ENTRY (p : Nat) (i : Nat) (j : Nat) : Nat := 0xF006004000 + p / 4 * 0x100000 + p % 4 * 0x200 + i * 0x100 + j * 0x4
def GATE_ENTRY_MASK (p : Nat) (i : Nat) (j : Nat) : Fld := ⟨GATE_ENTRY p i j, 31, 24⟩
def GATE_ENTRY_DURATION (p : Nat) (i : Nat) (j : Nat) : Fld := ⟨GATE_ENTRY p i j, 23, 0⟩
/-- CRU_CFG (R400). -/
def CRU_CFG : Nat := 0xF008000010
def CRU_CFG_YELLOW_THRESHOLD : Fld := ⟨CRU_CFG, 30, 16⟩
def CRU_CFG_ALPHA : Fld := ⟨CRU_CFG, 7, 0⟩
/-- CRU_SHARED (R400). -/
def CRU_SHARED : Nat := 0xF008000014
def CRU_SHARED_IN_USE : Fld := ⟨CRU_SHARED, 31, 16⟩
def CRU_SHARED_SIZE : Fld := ⟨CRU_SHARED, 15, 0⟩
/-- CRU_FREE (R400). -/
def CRU_FREE : Nat := 0xF008000018
def CRU_FREE_MIN_FREE : Fld := ⟨CRU_FREE, 31, 16⟩
def CRU_FREE_FREE : Fld := ⟨CRU_FREE, 15, 0⟩
/-- CRU_RESTART (R400). -/
def CRU_RESTART : Nat := 0xF00800001C
/-- CRU_PORT (R400). -/
def CRU_PORT (i : Nat) : Nat := 0xF008000100 + i * 0x8
def CRU_PORT_RESERVE (i : Nat) : Fld := ⟨CRU_PORT i, 63, 48⟩
def CRU_PORT_HELD (i : Nat) : Fld := ⟨CRU_PORT i, 47, 32⟩
def CRU_PORT_PEAK (i : Nat) : Fld := ⟨CRU_PORT i, 31, 16⟩
def CRU_PORT_REFUSED (i : Nat) : Fld := ⟨CRU_PORT i, 15, 0⟩
/-- ING_RX_STATS (R426). -/
def ING_RX_STATS : Nat := 0xF008100010
def ING_RX_STATS_TUNNELED : Fld := ⟨ING_RX_STATS, 63, 32⟩
def ING_RX_STATS_NOT_OURS : Fld := ⟨ING_RX_STATS, 31, 16⟩
def ING_RX_STATS_IP_ERR : Fld := ⟨ING_RX_STATS, 15, 0⟩
/-- ING_WRITER (R426). -/
def ING_WRITER : Nat := 0xF008100018
def ING_WRITER_BYTES : Fld := ⟨ING_WRITER, 63, 0⟩
/-- ING_FLOWS_ON (R426). -/
def ING_FLOWS_ON : Nat := 0xF008100020
def ING_FLOWS_ON_COUNT : Fld := ⟨ING_FLOWS_ON, 9, 0⟩
/-- ING_PORT_MAC (R426). -/
def ING_PORT_MAC (i : Nat) : Nat := 0xF008100100 + i * 0x8
def ING_PORT_MAC_ACCEPT_ALL (i : Nat) : Fld := ⟨ING_PORT_MAC i, 63, 63⟩
def ING_PORT_MAC_MAC (i : Nat) : Fld := ⟨ING_PORT_MAC i, 47, 0⟩
/-- ING_FLOW_CTRL (R427). -/
def ING_FLOW_CTRL (i : Nat) : Nat := 0xF008110000 + i * 0x80
def ING_FLOW_CTRL_EN (i : Nat) : Fld := ⟨ING_FLOW_CTRL i, 31, 31⟩
def ING_FLOW_CTRL_LATE_POLICY (i : Nat) : Fld := ⟨ING_FLOW_CTRL i, 30, 30⟩
def ING_FLOW_CTRL_INCOMPLETE_POLICY (i : Nat) : Fld := ⟨ING_FLOW_CTRL i, 29, 29⟩
def ING_FLOW_CTRL_REPLICATE (i : Nat) : Fld := ⟨ING_FLOW_CTRL i, 28, 28⟩
def ING_FLOW_CTRL_SRC_CHAIN (i : Nat) : Fld := ⟨ING_FLOW_CTRL i, 27, 27⟩
def ING_FLOW_CTRL_ROLE (i : Nat) : Fld := ⟨ING_FLOW_CTRL i, 26, 25⟩
def ING_FLOW_CTRL_PRESENT_LATENCY (i : Nat) : Fld := ⟨ING_FLOW_CTRL i, 23, 20⟩
def ING_FLOW_CTRL_RING (i : Nat) : Fld := ⟨ING_FLOW_CTRL i, 19, 16⟩
def ING_FLOW_CTRL_PARTNER (i : Nat) : Fld := ⟨ING_FLOW_CTRL i, 8, 0⟩
/-- ING_FLOW_DST (R427). -/
def ING_FLOW_DST (i : Nat) : Nat := 0xF008110004 + i * 0x80
def ING_FLOW_DST_DST_IP (i : Nat) : Fld := ⟨ING_FLOW_DST i, 31, 0⟩
/-- ING_FLOW_SSRC (R427). -/
def ING_FLOW_SSRC (i : Nat) : Nat := 0xF008110008 + i * 0x80
def ING_FLOW_SSRC_SSRC (i : Nat) : Fld := ⟨ING_FLOW_SSRC i, 31, 0⟩
/-- ING_FLOW_PORT (R427). -/
def ING_FLOW_PORT (i : Nat) : Nat := 0xF00811000C + i * 0x80
def ING_FLOW_PORT_UDP_PORT (i : Nat) : Fld := ⟨ING_FLOW_PORT i, 31, 16⟩
def ING_FLOW_PORT_PT_ANY (i : Nat) : Fld := ⟨ING_FLOW_PORT i, 15, 15⟩
def ING_FLOW_PORT_PT (i : Nat) : Fld := ⟨ING_FLOW_PORT i, 14, 8⟩
def ING_FLOW_PORT_PORT (i : Nat) : Fld := ⟨ING_FLOW_PORT i, 6, 0⟩
/-- ING_FLOW_FMT (R427). -/
def ING_FLOW_FMT (i : Nat) : Nat := 0xF008110010 + i * 0x80
def ING_FLOW_FMT_TARGET (i : Nat) : Fld := ⟨ING_FLOW_FMT i, 15, 8⟩
def ING_FLOW_FMT_PACKING (i : Nat) : Fld := ⟨ING_FLOW_FMT i, 4, 4⟩
def ING_FLOW_FMT_DEPTH (i : Nat) : Fld := ⟨ING_FLOW_FMT i, 3, 2⟩
def ING_FLOW_FMT_SAMPLING (i : Nat) : Fld := ⟨ING_FLOW_FMT i, 1, 0⟩
/-- ING_FLOW_SIZE (R427). -/
def ING_FLOW_SIZE (i : Nat) : Nat := 0xF008110014 + i * 0x80
def ING_FLOW_SIZE_HEIGHT (i : Nat) : Fld := ⟨ING_FLOW_SIZE i, 31, 16⟩
def ING_FLOW_SIZE_WIDTH (i : Nat) : Fld := ⟨ING_FLOW_SIZE i, 15, 0⟩
/-- ING_RING_BASE (R428). -/
def ING_RING_BASE (i : Nat) : Nat := 0xF008110018 + i * 0x80
def ING_RING_BASE_BASE (i : Nat) : Fld := ⟨ING_RING_BASE i, 39, 8⟩
/-- ING_RING_STRIDE (R428). -/
def ING_RING_STRIDE (i : Nat) : Nat := 0xF008110020 + i * 0x80
def ING_RING_STRIDE_STRIDE (i : Nat) : Fld := ⟨ING_RING_STRIDE i, 23, 6⟩
/-- ING_RING_SPACING (R428). -/
def ING_RING_SPACING (i : Nat) : Nat := 0xF008110024 + i * 0x80
def ING_RING_SPACING_SPACING (i : Nat) : Fld := ⟨ING_RING_SPACING i, 31, 8⟩
/-- ING_FLOW_TS_ADJ (R427). -/
def ING_FLOW_TS_ADJ (i : Nat) : Nat := 0xF00811002C + i * 0x80
def ING_FLOW_TS_ADJ_TS_ADJ (i : Nat) : Fld := ⟨ING_FLOW_TS_ADJ i, 31, 0⟩
/-- ING_FLOW_STATE (R429). -/
def ING_FLOW_STATE (i : Nat) : Nat := 0xF008110030 + i * 0x80
def ING_FLOW_STATE_LAST_TS (i : Nat) : Fld := ⟨ING_FLOW_STATE i, 63, 32⟩
def ING_FLOW_STATE_FILLING (i : Nat) : Fld := ⟨ING_FLOW_STATE i, 31, 24⟩
def ING_FLOW_STATE_COMPLETE (i : Nat) : Fld := ⟨ING_FLOW_STATE i, 23, 16⟩
def ING_FLOW_STATE_HELD (i : Nat) : Fld := ⟨ING_FLOW_STATE i, 15, 8⟩
def ING_FLOW_STATE_FREE (i : Nat) : Fld := ⟨ING_FLOW_STATE i, 7, 0⟩
/-- ING_FLOW_LAST_P (R429). -/
def ING_FLOW_LAST_P (i : Nat) : Nat := 0xF008110038 + i * 0x80
def ING_FLOW_LAST_P_P (i : Nat) : Fld := ⟨ING_FLOW_LAST_P i, 47, 0⟩
/-- ING_FLOW_FRAMES (R429). -/
def ING_FLOW_FRAMES (i : Nat) : Nat := 0xF008110040 + i * 0x80
def ING_FLOW_FRAMES_COMPLETED (i : Nat) : Fld := ⟨ING_FLOW_FRAMES i, 63, 32⟩
def ING_FLOW_FRAMES_LATE (i : Nat) : Fld := ⟨ING_FLOW_FRAMES i, 31, 16⟩
def ING_FLOW_FRAMES_EARLY (i : Nat) : Fld := ⟨ING_FLOW_FRAMES i, 15, 0⟩
/-- ING_FLOW_LOSS (R429). -/
def ING_FLOW_LOSS (i : Nat) : Nat := 0xF008110048 + i * 0x80
def ING_FLOW_LOSS_INCOMPLETE (i : Nat) : Fld := ⟨ING_FLOW_LOSS i, 63, 48⟩
def ING_FLOW_LOSS_NO_SURFACE (i : Nat) : Fld := ⟨ING_FLOW_LOSS i, 47, 32⟩
def ING_FLOW_LOSS_SKIPPED (i : Nat) : Fld := ⟨ING_FLOW_LOSS i, 31, 16⟩
def ING_FLOW_LOSS_KEY_SKEW (i : Nat) : Fld := ⟨ING_FLOW_LOSS i, 15, 0⟩
/-- ING_FLOW_PKTS (R429). -/
def ING_FLOW_PKTS (i : Nat) : Nat := 0xF008110050 + i * 0x80
def ING_FLOW_PKTS_ACCEPTED (i : Nat) : Fld := ⟨ING_FLOW_PKTS i, 63, 32⟩
def ING_FLOW_PKTS_SEQ_GAPS (i : Nat) : Fld := ⟨ING_FLOW_PKTS i, 31, 0⟩
/-- ING_FLOW_PKT_ERR (R429). -/
def ING_FLOW_PKT_ERR (i : Nat) : Nat := 0xF008110058 + i * 0x80
def ING_FLOW_PKT_ERR_DUP (i : Nat) : Fld := ⟨ING_FLOW_PKT_ERR i, 63, 48⟩
def ING_FLOW_PKT_ERR_STALE (i : Nat) : Fld := ⟨ING_FLOW_PKT_ERR i, 47, 32⟩
def ING_FLOW_PKT_ERR_BAD_RTP (i : Nat) : Fld := ⟨ING_FLOW_PKT_ERR i, 31, 16⟩
def ING_FLOW_PKT_ERR_BAD_SRD (i : Nat) : Fld := ⟨ING_FLOW_PKT_ERR i, 15, 0⟩
/-- ING_FLOW_PATH (R429). -/
def ING_FLOW_PATH (i : Nat) : Nat := 0xF008110060 + i * 0x80
def ING_FLOW_PATH_DOWN (i : Nat) : Fld := ⟨ING_FLOW_PATH i, 63, 63⟩
def ING_FLOW_PATH_FIRST (i : Nat) : Fld := ⟨ING_FLOW_PATH i, 31, 0⟩
/-- ING_FLOW_REJECT (R429). -/
def ING_FLOW_REJECT (i : Nat) : Nat := 0xF008110068 + i * 0x80
def ING_FLOW_REJECT_CODE (i : Nat) : Fld := ⟨ING_FLOW_REJECT i, 7, 0⟩
/-- POL_CIR (R401). -/
def POL_CIR (i : Nat) : Nat := 0xF008120000 + i * 0x20
def POL_CIR_CIR (i : Nat) : Fld := ⟨POL_CIR i, 31, 0⟩
/-- POL_PIR (R401). -/
def POL_PIR (i : Nat) : Nat := 0xF008120004 + i * 0x20
def POL_PIR_PIR (i : Nat) : Fld := ⟨POL_PIR i, 31, 0⟩
/-- POL_PBS (R401). -/
def POL_PBS (i : Nat) : Nat := 0xF008120008 + i * 0x20
def POL_PBS_PBS (i : Nat) : Fld := ⟨POL_PBS i, 23, 0⟩
/-- POL_CBS (R401). -/
def POL_CBS (i : Nat) : Nat := 0xF00812000C + i * 0x20
def POL_CBS_EN (i : Nat) : Fld := ⟨POL_CBS i, 31, 31⟩
def POL_CBS_CBS (i : Nat) : Fld := ⟨POL_CBS i, 23, 0⟩
/-- POL_PASS (R401). -/
def POL_PASS (i : Nat) : Nat := 0xF008120010 + i * 0x20
def POL_PASS_GREEN (i : Nat) : Fld := ⟨POL_PASS i, 63, 32⟩
def POL_PASS_YELLOW (i : Nat) : Fld := ⟨POL_PASS i, 31, 0⟩
/-- POL_DROP (R401). -/
def POL_DROP (i : Nat) : Nat := 0xF008120018 + i * 0x20
def POL_DROP_DROP_RED (i : Nat) : Fld := ⟨POL_DROP i, 63, 32⟩
def POL_DROP_DROP_YELLOW (i : Nat) : Fld := ⟨POL_DROP i, 31, 0⟩
/-- CHAIN_STATE (R454). -/
def CHAIN_STATE : Nat := 0xF008800010
def CHAIN_STATE_EPOCH : Fld := ⟨CHAIN_STATE, 31, 16⟩
def CHAIN_STATE_INDEX : Fld := ⟨CHAIN_STATE, 15, 12⟩
def CHAIN_STATE_STRAP_ROLE : Fld := ⟨CHAIN_STATE, 11, 10⟩
def CHAIN_STATE_ROLE : Fld := ⟨CHAIN_STATE, 2, 0⟩
/-- CHAIN_CFG (R454). -/
def CHAIN_CFG : Nat := 0xF008800014
def CHAIN_CFG_ETHERTYPE : Fld := ⟨CHAIN_CFG, 31, 16⟩
def CHAIN_CFG_TUNNEL_TIMEOUT_US : Fld := ⟨CHAIN_CFG, 15, 8⟩
def CHAIN_CFG_AUTO_TAKEOVER : Fld := ⟨CHAIN_CFG, 0, 0⟩
/-- CHAIN_TAKEOVER (R454). -/
def CHAIN_TAKEOVER : Nat := 0xF008800018
def CHAIN_TAKEOVER_KEY : Fld := ⟨CHAIN_TAKEOVER, 15, 0⟩
/-- CHAIN_DOORBELL (R455). -/
def CHAIN_DOORBELL : Nat := 0xF00880001C
def CHAIN_DOORBELL_SEQ : Fld := ⟨CHAIN_DOORBELL, 31, 16⟩
def CHAIN_DOORBELL_FLAGS : Fld := ⟨CHAIN_DOORBELL, 15, 0⟩
/-- CHAIN_TIME (R456). -/
def CHAIN_TIME : Nat := 0xF008800020
def CHAIN_TIME_DELAY : Fld := ⟨CHAIN_TIME, 63, 32⟩
def CHAIN_TIME_OFFSET : Fld := ⟨CHAIN_TIME, 31, 0⟩
/-- CHAIN_STATS (R456). -/
def CHAIN_STATS : Nat := 0xF008800028
def CHAIN_STATS_TAKEOVERS : Fld := ⟨CHAIN_STATS, 63, 48⟩
def CHAIN_STATS_CUE_REPLACED : Fld := ⟨CHAIN_STATS, 47, 32⟩
def CHAIN_STATS_TUNNEL_TIMEOUTS : Fld := ⟨CHAIN_STATS, 31, 16⟩
def CHAIN_STATS_REF_MISMATCHES : Fld := ⟨CHAIN_STATS, 15, 0⟩
/-- CHAIN_LINK (R457). -/
def CHAIN_LINK (i : Nat) : Nat := 0xF008800100 + i * 0x8
def CHAIN_LINK_STATE (i : Nat) : Fld := ⟨CHAIN_LINK i, 63, 61⟩
def CHAIN_LINK_KIND (i : Nat) : Fld := ⟨CHAIN_LINK i, 60, 59⟩
def CHAIN_LINK_CAUSE (i : Nat) : Fld := ⟨CHAIN_LINK i, 58, 56⟩
def CHAIN_LINK_MEMBERS (i : Nat) : Fld := ⟨CHAIN_LINK i, 55, 52⟩
def CHAIN_LINK_PEER (i : Nat) : Fld := ⟨CHAIN_LINK i, 51, 48⟩
def CHAIN_LINK_DELAY (i : Nat) : Fld := ⟨CHAIN_LINK i, 31, 0⟩
/-- CHAIN_LINK_ASYM (R458). -/
def CHAIN_LINK_ASYM (i : Nat) : Nat := 0xF008800200 + i * 0x4
def CHAIN_LINK_ASYM_ASYM (i : Nat) : Fld := ⟨CHAIN_LINK_ASYM i, 31, 0⟩
/-- CHAIN_LINK_STATS (R458). -/
def CHAIN_LINK_STATS (i : Nat) : Nat := 0xF008800300 + i * 0x8
def CHAIN_LINK_STATS_DOWNS (i : Nat) : Fld := ⟨CHAIN_LINK_STATS i, 63, 48⟩
def CHAIN_LINK_STATS_RX_BAD (i : Nat) : Fld := ⟨CHAIN_LINK_STATS i, 47, 32⟩
def CHAIN_LINK_STATS_REPL_DROPS (i : Nat) : Fld := ⟨CHAIN_LINK_STATS i, 31, 16⟩
def CHAIN_LINK_STATS_CUE_UNSENT (i : Nat) : Fld := ⟨CHAIN_LINK_STATS i, 15, 0⟩
/-- CHAIN_PEER (R459). -/
def CHAIN_PEER (i : Nat) : Nat := 0xF008800400 + i * 0x4
def CHAIN_PEER_STATE (i : Nat) : Fld := ⟨CHAIN_PEER i, 31, 30⟩
def CHAIN_PEER_VIA (i : Nat) : Fld := ⟨CHAIN_PEER i, 19, 16⟩
def CHAIN_PEER_LAG (i : Nat) : Fld := ⟨CHAIN_PEER i, 15, 0⟩
/-- CHAIN_MEMWIN (R460). -/
def CHAIN_MEMWIN (i : Nat) : Nat := 0xF008800500 + i * 0x8
def CHAIN_MEMWIN_BASE (i : Nat) : Fld := ⟨CHAIN_MEMWIN i, 39, 30⟩
/-- BLT_CTRL (R477). -/
def BLT_CTRL (n : Nat) : Nat := 0xF009000010 + n * 0x100000
def BLT_CTRL_EN (n : Nat) : Fld := ⟨BLT_CTRL n, 31, 31⟩
def BLT_CTRL_HALT_ON_ERROR (n : Nat) : Fld := ⟨BLT_CTRL n, 30, 30⟩
/-- BLT_DEAD_TIME (R477). -/
def BLT_DEAD_TIME (n : Nat) : Nat := 0xF009000014 + n * 0x100000
def BLT_DEAD_TIME_DEAD_TIME (n : Nat) : Fld := ⟨BLT_DEAD_TIME n, 15, 0⟩
/-- BLT_RING_BASE (R478). -/
def BLT_RING_BASE (n : Nat) : Nat := 0xF009000018 + n * 0x100000
def BLT_RING_BASE_BASE (n : Nat) : Fld := ⟨BLT_RING_BASE n, 39, 8⟩
/-- BLT_RING_CFG (R478). -/
def BLT_RING_CFG (n : Nat) : Nat := 0xF009000020 + n * 0x100000
def BLT_RING_CFG_LOG2 (n : Nat) : Fld := ⟨BLT_RING_CFG n, 3, 0⟩
/-- BLT_PROD (R478). -/
def BLT_PROD (n : Nat) : Nat := 0xF009000024 + n * 0x100000
def BLT_PROD_PROD (n : Nat) : Fld := ⟨BLT_PROD n, 15, 0⟩
/-- BLT_CONS (R479). -/
def BLT_CONS (n : Nat) : Nat := 0xF009000028 + n * 0x100000
def BLT_CONS_CONS (n : Nat) : Fld := ⟨BLT_CONS n, 15, 0⟩
/-- BLT_STATE (R479). -/
def BLT_STATE (n : Nat) : Nat := 0xF00900002C + n * 0x100000
def BLT_STATE_EFF_DEAD_TIME (n : Nat) : Fld := ⟨BLT_STATE n, 31, 16⟩
def BLT_STATE_STATE (n : Nat) : Fld := ⟨BLT_STATE n, 2, 0⟩
/-- BLT_RESUME (R478). -/
def BLT_RESUME (n : Nat) : Nat := 0xF009000030 + n * 0x100000
/-- BLT_LAST_ERR (R479). -/
def BLT_LAST_ERR (n : Nat) : Nat := 0xF009000034 + n * 0x100000
def BLT_LAST_ERR_INDEX (n : Nat) : Fld := ⟨BLT_LAST_ERR n, 31, 16⟩
def BLT_LAST_ERR_CODE (n : Nat) : Fld := ⟨BLT_LAST_ERR n, 7, 0⟩
/-- BLT_COUNTS (R480). -/
def BLT_COUNTS (n : Nat) : Nat := 0xF009000040 + n * 0x100000
def BLT_COUNTS_DONE (n : Nat) : Fld := ⟨BLT_COUNTS n, 63, 32⟩
def BLT_COUNTS_FAILED (n : Nat) : Fld := ⟨BLT_COUNTS n, 31, 0⟩
/-- BLT_BURSTS (R480). -/
def BLT_BURSTS (n : Nat) : Nat := 0xF009000048 + n * 0x100000
def BLT_BURSTS_BURSTS (n : Nat) : Fld := ⟨BLT_BURSTS n, 63, 0⟩
/-- SIG_CFG (R495). -/
def SIG_CFG (i : Nat) : Nat := 0xF009800100 + i * 0x80
def SIG_CFG_RUN (i : Nat) : Fld := ⟨SIG_CFG i, 31, 24⟩
def SIG_CFG_SF_MASK (i : Nat) : Fld := ⟨SIG_CFG i, 23, 16⟩
def SIG_CFG_SRC (i : Nat) : Fld := ⟨SIG_CFG i, 12, 8⟩
def SIG_CFG_WINDOW (i : Nat) : Fld := ⟨SIG_CFG i, 7, 7⟩
def SIG_CFG_EXP_ONCE (i : Nat) : Fld := ⟨SIG_CFG i, 6, 6⟩
def SIG_CFG_SENSE (i : Nat) : Fld := ⟨SIG_CFG i, 5, 5⟩
def SIG_CFG_EXP_SRC (i : Nat) : Fld := ⟨SIG_CFG i, 4, 4⟩
def SIG_CFG_POLY (i : Nat) : Fld := ⟨SIG_CFG i, 3, 2⟩
def SIG_CFG_MODE (i : Nat) : Fld := ⟨SIG_CFG i, 1, 0⟩
/-- SIG_WIN_ORG (R495). -/
def SIG_WIN_ORG (i : Nat) : Nat := 0xF009800104 + i * 0x80
def SIG_WIN_ORG_Y (i : Nat) : Fld := ⟨SIG_WIN_ORG i, 31, 16⟩
def SIG_WIN_ORG_X (i : Nat) : Fld := ⟨SIG_WIN_ORG i, 15, 0⟩
/-- SIG_WIN_SIZE (R495). -/
def SIG_WIN_SIZE (i : Nat) : Nat := 0xF009800108 + i * 0x80
def SIG_WIN_SIZE_H (i : Nat) : Fld := ⟨SIG_WIN_SIZE i, 31, 16⟩
def SIG_WIN_SIZE_W (i : Nat) : Fld := ⟨SIG_WIN_SIZE i, 15, 0⟩
/-- SIG_EXPECT (R495). -/
def SIG_EXPECT (i : Nat) : Nat := 0xF009800110 + i * 0x80
def SIG_EXPECT_VALUE (i : Nat) : Fld := ⟨SIG_EXPECT i, 63, 0⟩
/-- SIG_EXP_STATE (R495). -/
def SIG_EXP_STATE (i : Nat) : Nat := 0xF009800118 + i * 0x80
def SIG_EXP_STATE_VALID (i : Nat) : Fld := ⟨SIG_EXP_STATE i, 0, 0⟩
/-- SIG_RESULT (R496). -/
def SIG_RESULT (i : Nat) : Nat := 0xF009800120 + i * 0x80
def SIG_RESULT_VALUE (i : Nat) : Fld := ⟨SIG_RESULT i, 63, 0⟩
/-- SIG_RESULT_FRAME (R496). -/
def SIG_RESULT_FRAME (i : Nat) : Nat := 0xF009800128 + i * 0x80
def SIG_RESULT_FRAME_VALID (i : Nat) : Fld := ⟨SIG_RESULT_FRAME i, 63, 63⟩
def SIG_RESULT_FRAME_FRAME (i : Nat) : Fld := ⟨SIG_RESULT_FRAME i, 47, 0⟩
/-- SIG_FAIL_GOT (R496). -/
def SIG_FAIL_GOT (i : Nat) : Nat := 0xF009800130 + i * 0x80
def SIG_FAIL_GOT_VALUE (i : Nat) : Fld := ⟨SIG_FAIL_GOT i, 63, 0⟩
/-- SIG_FAIL_EXP (R496). -/
def SIG_FAIL_EXP (i : Nat) : Nat := 0xF009800138 + i * 0x80
def SIG_FAIL_EXP_VALUE (i : Nat) : Fld := ⟨SIG_FAIL_EXP i, 63, 0⟩
/-- SIG_FAIL_INFO (R496). -/
def SIG_FAIL_INFO (i : Nat) : Nat := 0xF009800140 + i * 0x80
def SIG_FAIL_INFO_VALID (i : Nat) : Fld := ⟨SIG_FAIL_INFO i, 63, 63⟩
def SIG_FAIL_INFO_FRAME (i : Nat) : Fld := ⟨SIG_FAIL_INFO i, 47, 0⟩
/-- SIG_COUNTS (R496). -/
def SIG_COUNTS (i : Nat) : Nat := 0xF009800148 + i * 0x80
def SIG_COUNTS_CHECKED (i : Nat) : Fld := ⟨SIG_COUNTS i, 63, 32⟩
def SIG_COUNTS_ALARMS (i : Nat) : Fld := ⟨SIG_COUNTS i, 31, 16⟩
def SIG_COUNTS_SKIPPED (i : Nat) : Fld := ⟨SIG_COUNTS i, 15, 0⟩
/-- MCU_START (R497). -/
def MCU_START (i : Nat) : Nat := 0xF009801000 + i * 0x40
def MCU_START_ADDR (i : Nat) : Fld := ⟨MCU_START i, 39, 6⟩
/-- MCU_LEN (R497). -/
def MCU_LEN (i : Nat) : Nat := 0xF009801008 + i * 0x40
def MCU_LEN_LEN (i : Nat) : Fld := ⟨MCU_LEN i, 31, 6⟩
/-- MCU_CFG (R497). -/
def MCU_CFG (i : Nat) : Nat := 0xF00980100C + i * 0x40
def MCU_CFG_PACE (i : Nat) : Fld := ⟨MCU_CFG i, 31, 16⟩
def MCU_CFG_START_ON_LOAD (i : Nat) : Fld := ⟨MCU_CFG i, 3, 3⟩
def MCU_CFG_COMPARE (i : Nat) : Fld := ⟨MCU_CFG i, 2, 2⟩
def MCU_CFG_POLY (i : Nat) : Fld := ⟨MCU_CFG i, 1, 0⟩
/-- MCU_GO (R497). -/
def MCU_GO (i : Nat) : Nat := 0xF009801010 + i * 0x40
/-- MCU_EXPECT (R497). -/
def MCU_EXPECT (i : Nat) : Nat := 0xF009801018 + i * 0x40
def MCU_EXPECT_VALUE (i : Nat) : Fld := ⟨MCU_EXPECT i, 63, 0⟩
/-- MCU_RESULT (R497). -/
def MCU_RESULT (i : Nat) : Nat := 0xF009801020 + i * 0x40
def MCU_RESULT_VALUE (i : Nat) : Fld := ⟨MCU_RESULT i, 63, 0⟩
/-- MCU_STATE (R497). -/
def MCU_STATE (i : Nat) : Nat := 0xF009801028 + i * 0x40
def MCU_STATE_RUNS (i : Nat) : Fld := ⟨MCU_STATE i, 31, 16⟩
def MCU_STATE_LAST (i : Nat) : Fld := ⟨MCU_STATE i, 7, 4⟩
def MCU_STATE_EXP_VALID (i : Nat) : Fld := ⟨MCU_STATE i, 2, 2⟩
def MCU_STATE_STATE (i : Nat) : Fld := ⟨MCU_STATE i, 1, 0⟩
/-- MC_STATE (R516). -/
def MC_STATE (n : Nat) : Nat := 0xF00A000010 + n * 0x100000
def MC_STATE_SPEED (n : Nat) : Fld := ⟨MC_STATE n, 11, 10⟩
def MC_STATE_RANKS (n : Nat) : Fld := ⟨MC_STATE n, 9, 9⟩
def MC_STATE_DENSITY (n : Nat) : Fld := ⟨MC_STATE n, 8, 8⟩
def MC_STATE_DERATED (n : Nat) : Fld := ⟨MC_STATE n, 7, 7⟩
def MC_STATE_STATE (n : Nat) : Fld := ⟨MC_STATE n, 2, 0⟩
/-- MC_SHARE (R517). -/
def MC_SHARE (n : Nat) : Nat := 0xF00A000014 + n * 0x100000
def MC_SHARE_RT_SHARE (n : Nat) : Fld := ⟨MC_SHARE n, 15, 12⟩
def MC_SHARE_WT_INGEST (n : Nat) : Fld := ⟨MC_SHARE n, 11, 8⟩
def MC_SHARE_WT_BLIT (n : Nat) : Fld := ⟨MC_SHARE n, 7, 4⟩
def MC_SHARE_WT_CORE (n : Nat) : Fld := ⟨MC_SHARE n, 3, 0⟩
/-- MC_PWR_CFG (R517). -/
def MC_PWR_CFG (n : Nat) : Nat := 0xF00A000018 + n * 0x100000
def MC_PWR_CFG_SR_EN (n : Nat) : Fld := ⟨MC_PWR_CFG n, 31, 31⟩
def MC_PWR_CFG_PD_EN (n : Nat) : Fld := ⟨MC_PWR_CFG n, 30, 30⟩
def MC_PWR_CFG_MARGIN_NS (n : Nat) : Fld := ⟨MC_PWR_CFG n, 29, 20⟩
def MC_PWR_CFG_SR_IDLE_US (n : Nat) : Fld := ⟨MC_PWR_CFG n, 19, 10⟩
def MC_PWR_CFG_PD_IDLE_NS (n : Nat) : Fld := ⟨MC_PWR_CFG n, 9, 0⟩
/-- MC_TIMING (R516). -/
def MC_TIMING (n : Nat) : Nat := 0xF00A000020 + n * 0x100000
def MC_TIMING_SR_EXIT_NS (n : Nat) : Fld := ⟨MC_TIMING n, 31, 16⟩
def MC_TIMING_PD_EXIT_NS (n : Nat) : Fld := ⟨MC_TIMING n, 15, 0⟩
/-- MC_STALL (R516). -/
def MC_STALL (n : Nat) : Nat := 0xF00A000024 + n * 0x100000
def MC_STALL_STALL_NS (n : Nat) : Fld := ⟨MC_STALL n, 31, 16⟩
def MC_STALL_T_REQ_NS (n : Nat) : Fld := ⟨MC_STALL n, 15, 0⟩
/-- MC_TOL (R516). -/
def MC_TOL (n : Nat) : Nat := 0xF00A000028 + n * 0x100000
def MC_TOL_NS (n : Nat) : Fld := ⟨MC_TOL n, 31, 0⟩
/-- MC_REFRESH (R517). -/
def MC_REFRESH (n : Nat) : Nat := 0xF00A00002C + n * 0x100000
def MC_REFRESH_DOUBLE (n : Nat) : Fld := ⟨MC_REFRESH n, 0, 0⟩
/-- MC_SCRUB (R517). -/
def MC_SCRUB (n : Nat) : Nat := 0xF00A000030 + n * 0x100000
def MC_SCRUB_EN (n : Nat) : Fld := ⟨MC_SCRUB n, 31, 31⟩
def MC_SCRUB_PERIOD_H (n : Nat) : Fld := ⟨MC_SCRUB n, 7, 0⟩
/-- MC_ECC_COUNTS (R518). -/
def MC_ECC_COUNTS (n : Nat) : Nat := 0xF00A000038 + n * 0x100000
def MC_ECC_COUNTS_CE (n : Nat) : Fld := ⟨MC_ECC_COUNTS n, 63, 32⟩
def MC_ECC_COUNTS_UE (n : Nat) : Fld := ⟨MC_ECC_COUNTS n, 31, 16⟩
def MC_ECC_COUNTS_CA_RETRY (n : Nat) : Fld := ⟨MC_ECC_COUNTS n, 15, 8⟩
def MC_ECC_COUNTS_WR_RETRY (n : Nat) : Fld := ⟨MC_ECC_COUNTS n, 7, 0⟩
/-- MC_ECC_LOG (R518). -/
def MC_ECC_LOG (n : Nat) : Nat := 0xF00A000040 + n * 0x100000
def MC_ECC_LOG_UE (n : Nat) : Fld := ⟨MC_ECC_LOG n, 63, 63⟩
def MC_ECC_LOG_SCRUB (n : Nat) : Fld := ⟨MC_ECC_LOG n, 62, 62⟩
def MC_ECC_LOG_ADDR (n : Nat) : Fld := ⟨MC_ECC_LOG n, 39, 0⟩
/-- MC_RESIDENCY (R518). -/
def MC_RESIDENCY (n : Nat) : Nat := 0xF00A000048 + n * 0x100000
def MC_RESIDENCY_SR_US (n : Nat) : Fld := ⟨MC_RESIDENCY n, 63, 32⟩
def MC_RESIDENCY_PD_US (n : Nat) : Fld := ⟨MC_RESIDENCY n, 31, 0⟩
/-- SLAB_SCRUB (R519). -/
def SLAB_SCRUB : Nat := 0xF00B000010
def SLAB_SCRUB_EN : Fld := ⟨SLAB_SCRUB, 31, 31⟩
def SLAB_SCRUB_PERIOD_MS : Fld := ⟨SLAB_SCRUB, 15, 0⟩
/-- SLAB_ECC_COUNTS (R519). -/
def SLAB_ECC_COUNTS : Nat := 0xF00B000018
def SLAB_ECC_COUNTS_CE : Fld := ⟨SLAB_ECC_COUNTS, 63, 32⟩
def SLAB_ECC_COUNTS_UE : Fld := ⟨SLAB_ECC_COUNTS, 31, 0⟩
/-- SLAB_UE_LOG (R519). -/
def SLAB_UE_LOG : Nat := 0xF00B000020
def SLAB_UE_LOG_VALID : Fld := ⟨SLAB_UE_LOG, 63, 63⟩
def SLAB_UE_LOG_REGION : Fld := ⟨SLAB_UE_LOG, 62, 60⟩
def SLAB_UE_LOG_OFFSET : Fld := ⟨SLAB_UE_LOG, 27, 0⟩
/-- APPCX_CORE_CTRL (R538). -/
def APPCX_CORE_CTRL : Nat := 0xF00E000010
def APPCX_CORE_CTRL_RELEASE : Fld := ⟨APPCX_CORE_CTRL, 7, 0⟩
/-- APPCX_CORE_STATE (R538). -/
def APPCX_CORE_STATE : Nat := 0xF00E000014
def APPCX_CORE_STATE_HALTED : Fld := ⟨APPCX_CORE_STATE, 15, 8⟩
def APPCX_CORE_STATE_RUNNING : Fld := ⟨APPCX_CORE_STATE, 7, 0⟩
/-- APPCX_RESET_VEC (R538). -/
def APPCX_RESET_VEC : Nat := 0xF00E000018
def APPCX_RESET_VEC_VEC : Fld := ⟨APPCX_RESET_VEC, 39, 2⟩
/-- APPCX_CORE_CLK (R538). -/
def APPCX_CORE_CLK : Nat := 0xF00E000020
def APPCX_CORE_CLK_MHZ : Fld := ⟨APPCX_CORE_CLK, 15, 0⟩
/-- APPCX_MTIMECMP (R538). -/
def APPCX_MTIMECMP (i : Nat) : Nat := 0xF00E000100 + i * 0x8
def APPCX_MTIMECMP_CMP (i : Nat) : Fld := ⟨APPCX_MTIMECMP i, 63, 0⟩
/-- PLIC_PRIO (R539). -/
def PLIC_PRIO (i : Nat) : Nat := 0xF00E001004 + i * 0x4
def PLIC_PRIO_PRIO (i : Nat) : Fld := ⟨PLIC_PRIO i, 2, 0⟩
/-- PLIC_PENDING (R539). -/
def PLIC_PENDING (i : Nat) : Nat := 0xF00E001800 + i * 0x4
def PLIC_PENDING_PEND (i : Nat) : Fld := ⟨PLIC_PENDING i, 31, 0⟩
/-- PLIC_ENABLE (R539). -/
def PLIC_ENABLE (i : Nat) (j : Nat) : Nat := 0xF00E002000 + i * 0x20 + j * 0x4
def PLIC_ENABLE_EN (i : Nat) (j : Nat) : Fld := ⟨PLIC_ENABLE i j, 31, 0⟩
/-- PLIC_ENABLE_K (R539). -/
def PLIC_ENABLE_K (i : Nat) : Nat := 0xF00E002200 + i * 0x4
def PLIC_ENABLE_K_EN (i : Nat) : Fld := ⟨PLIC_ENABLE_K i, 31, 0⟩
/-- PLIC_THRESHOLD (R539). -/
def PLIC_THRESHOLD (i : Nat) : Nat := 0xF00E003000 + i * 0x10
def PLIC_THRESHOLD_THRESHOLD (i : Nat) : Fld := ⟨PLIC_THRESHOLD i, 2, 0⟩
/-- PLIC_THRESHOLD_K (R539). -/
def PLIC_THRESHOLD_K : Nat := 0xF00E003100
def PLIC_THRESHOLD_K_THRESHOLD : Fld := ⟨PLIC_THRESHOLD_K, 2, 0⟩
/-- PLIC_CLAIM (R539). -/
def PLIC_CLAIM (i : Nat) : Nat := 0xF00E003004 + i * 0x10
def PLIC_CLAIM_SOURCE (i : Nat) : Fld := ⟨PLIC_CLAIM i, 7, 0⟩
/-- PLIC_CLAIM_K (R539). -/
def PLIC_CLAIM_K : Nat := 0xF00E003104
def PLIC_CLAIM_K_SOURCE : Fld := ⟨PLIC_CLAIM_K, 7, 0⟩
/-- MMAC_CFG (R547). -/
def MMAC_CFG (i : Nat) : Nat := 0xF00E008000 + i * 0x400
def MMAC_CFG_EN (i : Nat) : Fld := ⟨MMAC_CFG i, 31, 31⟩
def MMAC_CFG_MODE (i : Nat) : Fld := ⟨MMAC_CFG i, 30, 30⟩
def MMAC_CFG_AN_EN (i : Nat) : Fld := ⟨MMAC_CFG i, 29, 29⟩
def MMAC_CFG_SPEED (i : Nat) : Fld := ⟨MMAC_CFG i, 28, 27⟩
def MMAC_CFG_PROMISC (i : Nat) : Fld := ⟨MMAC_CFG i, 26, 26⟩
def MMAC_CFG_MCAST (i : Nat) : Fld := ⟨MMAC_CFG i, 25, 25⟩
def MMAC_CFG_TX_INV (i : Nat) : Fld := ⟨MMAC_CFG i, 24, 24⟩
def MMAC_CFG_RX_INV (i : Nat) : Fld := ⟨MMAC_CFG i, 23, 23⟩
/-- MMAC_ADDR (R547). -/
def MMAC_ADDR (i : Nat) : Nat := 0xF00E008008 + i * 0x400
def MMAC_ADDR_MAC (i : Nat) : Fld := ⟨MMAC_ADDR i, 47, 0⟩
/-- MMAC_STATUS (R547). -/
def MMAC_STATUS (i : Nat) : Nat := 0xF00E008010 + i * 0x400
def MMAC_STATUS_SEQ (i : Nat) : Fld := ⟨MMAC_STATUS i, 31, 16⟩
def MMAC_STATUS_FLAGS (i : Nat) : Fld := ⟨MMAC_STATUS i, 15, 0⟩
/-- MMAC_LINK (R547). -/
def MMAC_LINK (i : Nat) : Nat := 0xF00E008014 + i * 0x400
def MMAC_LINK_LINK_UP (i : Nat) : Fld := ⟨MMAC_LINK i, 31, 31⟩
def MMAC_LINK_AN_DONE (i : Nat) : Fld := ⟨MMAC_LINK i, 30, 30⟩
def MMAC_LINK_RATE (i : Nat) : Fld := ⟨MMAC_LINK i, 29, 28⟩
/-- MMAC_RX_BASE (R547). -/
def MMAC_RX_BASE (i : Nat) : Nat := 0xF00E008020 + i * 0x400
def MMAC_RX_BASE_BASE (i : Nat) : Fld := ⟨MMAC_RX_BASE i, 39, 8⟩
/-- MMAC_RX_CFG (R547). -/
def MMAC_RX_CFG (i : Nat) : Nat := 0xF00E008028 + i * 0x400
def MMAC_RX_CFG_EN (i : Nat) : Fld := ⟨MMAC_RX_CFG i, 31, 31⟩
def MMAC_RX_CFG_SLOTS (i : Nat) : Fld := ⟨MMAC_RX_CFG i, 10, 0⟩
/-- MMAC_RX_PROD (R547). -/
def MMAC_RX_PROD (i : Nat) : Nat := 0xF00E00802C + i * 0x400
def MMAC_RX_PROD_INDEX (i : Nat) : Fld := ⟨MMAC_RX_PROD i, 31, 0⟩
/-- MMAC_RX_CONS (R547). -/
def MMAC_RX_CONS (i : Nat) : Nat := 0xF00E008030 + i * 0x400
def MMAC_RX_CONS_INDEX (i : Nat) : Fld := ⟨MMAC_RX_CONS i, 31, 0⟩
/-- MMAC_TX_BASE (R547). -/
def MMAC_TX_BASE (i : Nat) : Nat := 0xF00E008038 + i * 0x400
def MMAC_TX_BASE_BASE (i : Nat) : Fld := ⟨MMAC_TX_BASE i, 39, 8⟩
/-- MMAC_TX_CFG (R547). -/
def MMAC_TX_CFG (i : Nat) : Nat := 0xF00E008040 + i * 0x400
def MMAC_TX_CFG_EN (i : Nat) : Fld := ⟨MMAC_TX_CFG i, 31, 31⟩
def MMAC_TX_CFG_SLOTS (i : Nat) : Fld := ⟨MMAC_TX_CFG i, 10, 0⟩
/-- MMAC_TX_PROD (R547). -/
def MMAC_TX_PROD (i : Nat) : Nat := 0xF00E008044 + i * 0x400
def MMAC_TX_PROD_INDEX (i : Nat) : Fld := ⟨MMAC_TX_PROD i, 31, 0⟩
/-- MMAC_TX_CONS (R547). -/
def MMAC_TX_CONS (i : Nat) : Nat := 0xF00E008048 + i * 0x400
def MMAC_TX_CONS_INDEX (i : Nat) : Fld := ⟨MMAC_TX_CONS i, 31, 0⟩
/-- MMAC_RX_COUNTS (R547). -/
def MMAC_RX_COUNTS (i : Nat) : Nat := 0xF00E008050 + i * 0x400
def MMAC_RX_COUNTS_FRAMES (i : Nat) : Fld := ⟨MMAC_RX_COUNTS i, 63, 32⟩
def MMAC_RX_COUNTS_FILTERED (i : Nat) : Fld := ⟨MMAC_RX_COUNTS i, 31, 16⟩
def MMAC_RX_COUNTS_ERRORS (i : Nat) : Fld := ⟨MMAC_RX_COUNTS i, 15, 0⟩
/-- MMAC_TX_COUNTS (R547). -/
def MMAC_TX_COUNTS (i : Nat) : Nat := 0xF00E008058 + i * 0x400
def MMAC_TX_COUNTS_FRAMES (i : Nat) : Fld := ⟨MMAC_TX_COUNTS i, 63, 0⟩
/-- MMAC_DROPS (R547). -/
def MMAC_DROPS (i : Nat) : Nat := 0xF00E008060 + i * 0x400
def MMAC_DROPS_RX_DROPS (i : Nat) : Fld := ⟨MMAC_DROPS i, 31, 16⟩
def MMAC_DROPS_TX_BAD (i : Nat) : Fld := ⟨MMAC_DROPS i, 15, 0⟩
/-- MDIO_CFG (R549). -/
def MDIO_CFG : Nat := 0xF00E008800
def MDIO_CFG_DIV : Fld := ⟨MDIO_CFG, 7, 0⟩
/-- MDIO_CMD (R549). -/
def MDIO_CMD : Nat := 0xF00E008804
def MDIO_CMD_OP : Fld := ⟨MDIO_CMD, 31, 30⟩
def MDIO_CMD_C45 : Fld := ⟨MDIO_CMD, 29, 29⟩
def MDIO_CMD_PHYAD : Fld := ⟨MDIO_CMD, 28, 24⟩
def MDIO_CMD_REGAD : Fld := ⟨MDIO_CMD, 23, 19⟩
def MDIO_CMD_DATA : Fld := ⟨MDIO_CMD, 15, 0⟩
/-- MDIO_STATUS (R549). -/
def MDIO_STATUS : Nat := 0xF00E008808
def MDIO_STATUS_BUSY : Fld := ⟨MDIO_STATUS, 31, 31⟩
def MDIO_STATUS_CMD_REFUSED : Fld := ⟨MDIO_STATUS, 30, 30⟩
def MDIO_STATUS_DATA : Fld := ⟨MDIO_STATUS, 15, 0⟩
/-- UART_TX (R551). -/
def UART_TX : Nat := 0xF00E009000
def UART_TX_BYTE : Fld := ⟨UART_TX, 7, 0⟩
/-- UART_RX (R551). -/
def UART_RX : Nat := 0xF00E009004
def UART_RX_VALID : Fld := ⟨UART_RX, 31, 31⟩
def UART_RX_BYTE : Fld := ⟨UART_RX, 7, 0⟩
/-- UART_CFG (R551). -/
def UART_CFG : Nat := 0xF00E009008
def UART_CFG_DIV : Fld := ⟨UART_CFG, 31, 16⟩
def UART_CFG_RX_IE : Fld := ⟨UART_CFG, 15, 15⟩
def UART_CFG_TX_IE : Fld := ⟨UART_CFG, 14, 14⟩
def UART_CFG_RX_THRESHOLD : Fld := ⟨UART_CFG, 5, 0⟩
/-- UART_STATUS (R551). -/
def UART_STATUS : Nat := 0xF00E00900C
def UART_STATUS_SEQ : Fld := ⟨UART_STATUS, 31, 16⟩
def UART_STATUS_FLAGS : Fld := ⟨UART_STATUS, 15, 0⟩
/-- UART_LEVEL (R551). -/
def UART_LEVEL : Nat := 0xF00E009010
def UART_LEVEL_TX_COUNT : Fld := ⟨UART_LEVEL, 22, 16⟩
def UART_LEVEL_RX_COUNT : Fld := ⟨UART_LEVEL, 6, 0⟩
/-- GPIO_OUT (R553). -/
def GPIO_OUT : Nat := 0xF00E009100
def GPIO_OUT_OUT : Fld := ⟨GPIO_OUT, 31, 0⟩
/-- GPIO_OE (R553). -/
def GPIO_OE : Nat := 0xF00E009104
def GPIO_OE_OE : Fld := ⟨GPIO_OE, 31, 0⟩
/-- GPIO_IN (R553). -/
def GPIO_IN : Nat := 0xF00E009108
def GPIO_IN_IN : Fld := ⟨GPIO_IN, 31, 0⟩
/-- GPIO_PULL_EN (R553). -/
def GPIO_PULL_EN : Nat := 0xF00E00910C
def GPIO_PULL_EN_PULL_EN : Fld := ⟨GPIO_PULL_EN, 31, 0⟩
/-- GPIO_INT_EN (R553). -/
def GPIO_INT_EN : Nat := 0xF00E009110
def GPIO_INT_EN_INT_EN : Fld := ⟨GPIO_INT_EN, 31, 0⟩
/-- GPIO_INT_MODE (R553). -/
def GPIO_INT_MODE : Nat := 0xF00E009114
def GPIO_INT_MODE_INT_MODE : Fld := ⟨GPIO_INT_MODE, 31, 0⟩
/-- GPIO_INT_POL (R553). -/
def GPIO_INT_POL : Nat := 0xF00E009118
def GPIO_INT_POL_INT_POL : Fld := ⟨GPIO_INT_POL, 31, 0⟩
/-- GPIO_INT_PEND (R553). -/
def GPIO_INT_PEND : Nat := 0xF00E00911C
def GPIO_INT_PEND_PEND : Fld := ⟨GPIO_INT_PEND, 31, 0⟩
/-- GPIO_INT_ACK (R553). -/
def GPIO_INT_ACK : Nat := 0xF00E009120
def GPIO_INT_ACK_ACK : Fld := ⟨GPIO_INT_ACK, 31, 0⟩
/-- I2C_CFG (R555). -/
def I2C_CFG (i : Nat) : Nat := 0xF00E009200 + i * 0x80
def I2C_CFG_SPEED (i : Nat) : Fld := ⟨I2C_CFG i, 1, 0⟩
/-- I2C_XFER (R555). -/
def I2C_XFER (i : Nat) : Nat := 0xF00E009204 + i * 0x80
def I2C_XFER_RD_LEN (i : Nat) : Fld := ⟨I2C_XFER i, 24, 20⟩
def I2C_XFER_WR_LEN (i : Nat) : Fld := ⟨I2C_XFER i, 19, 15⟩
def I2C_XFER_ADDR (i : Nat) : Fld := ⟨I2C_XFER i, 6, 0⟩
/-- I2C_STATUS (R555). -/
def I2C_STATUS (i : Nat) : Nat := 0xF00E009208 + i * 0x80
def I2C_STATUS_BUSY (i : Nat) : Fld := ⟨I2C_STATUS i, 31, 31⟩
def I2C_STATUS_RESULT (i : Nat) : Fld := ⟨I2C_STATUS i, 30, 28⟩
def I2C_STATUS_BYTES (i : Nat) : Fld := ⟨I2C_STATUS i, 20, 16⟩
/-- I2C_FLAGS (R555). -/
def I2C_FLAGS (i : Nat) : Nat := 0xF00E00920C + i * 0x80
def I2C_FLAGS_SEQ (i : Nat) : Fld := ⟨I2C_FLAGS i, 31, 16⟩
def I2C_FLAGS_FLAGS (i : Nat) : Fld := ⟨I2C_FLAGS i, 15, 0⟩
/-- I2C_BUF (R555). -/
def I2C_BUF (i : Nat) (j : Nat) : Nat := 0xF00E009210 + i * 0x80 + j * 0x4
def I2C_BUF_DATA (i : Nat) (j : Nat) : Fld := ⟨I2C_BUF i j, 31, 0⟩
/-- SPI_CFG (R557). -/
def SPI_CFG : Nat := 0xF00E009400
def SPI_CFG_DIV : Fld := ⟨SPI_CFG, 3, 0⟩
/-- SPI_ADDR (R557). -/
def SPI_ADDR : Nat := 0xF00E009404
def SPI_ADDR_ADDR : Fld := ⟨SPI_ADDR, 31, 0⟩
/-- SPI_CMD (R557). -/
def SPI_CMD : Nat := 0xF00E009408
def SPI_CMD_DIR : Fld := ⟨SPI_CMD, 31, 31⟩
def SPI_CMD_DATA_QUAD : Fld := ⟨SPI_CMD, 30, 30⟩
def SPI_CMD_ADDR_QUAD : Fld := ⟨SPI_CMD, 29, 29⟩
def SPI_CMD_ADDR_BYTES : Fld := ⟨SPI_CMD, 27, 26⟩
def SPI_CMD_DUMMY : Fld := ⟨SPI_CMD, 25, 21⟩
def SPI_CMD_LEN : Fld := ⟨SPI_CMD, 16, 8⟩
def SPI_CMD_OPCODE : Fld := ⟨SPI_CMD, 7, 0⟩
/-- SPI_FLAGS (R557). -/
def SPI_FLAGS : Nat := 0xF00E00940C
def SPI_FLAGS_SEQ : Fld := ⟨SPI_FLAGS, 31, 16⟩
def SPI_FLAGS_FLAGS : Fld := ⟨SPI_FLAGS, 15, 0⟩
/-- SPI_STATE (R557). -/
def SPI_STATE : Nat := 0xF00E009410
def SPI_STATE_BUSY : Fld := ⟨SPI_STATE, 31, 31⟩
/-- SPI_BUF (R557). -/
def SPI_BUF (i : Nat) : Nat := 0xF00E009500 + i * 0x4
def SPI_BUF_DATA (i : Nat) : Fld := ⟨SPI_BUF i, 31, 0⟩
/-- MB_BIND_LOCK (R540). -/
def MB_BIND_LOCK : Nat := 0xF00C000010
def MB_BIND_LOCK_LOCKED : Fld := ⟨MB_BIND_LOCK, 0, 0⟩
/-- MB_REFUSED_LOG (R540). -/
def MB_REFUSED_LOG : Nat := 0xF00C000020
def MB_REFUSED_LOG_REASON : Fld := ⟨MB_REFUSED_LOG, 31, 24⟩
def MB_REFUSED_LOG_MASTER : Fld := ⟨MB_REFUSED_LOG, 20, 16⟩
def MB_REFUSED_LOG_CHANNEL : Fld := ⟨MB_REFUSED_LOG, 5, 0⟩
/-- MB_BIND (R540). -/
def MB_BIND (i : Nat) : Nat := 0xF00C000100 + i * 0x4
def MB_BIND_ACK_TIMEOUT_US (i : Nat) : Fld := ⟨MB_BIND i, 31, 16⟩
def MB_BIND_EN (i : Nat) : Fld := ⟨MB_BIND i, 15, 15⟩
def MB_BIND_RECEIVER (i : Nat) : Fld := ⟨MB_BIND i, 12, 8⟩
def MB_BIND_SENDER (i : Nat) : Fld := ⟨MB_BIND i, 4, 0⟩
/-- MB_RX_PEND (R540). -/
def MB_RX_PEND (i : Nat) : Nat := 0xF00C000400 + i * 0x8
def MB_RX_PEND_CHANNELS (i : Nat) : Fld := ⟨MB_RX_PEND i, 63, 0⟩
/-- MB_ACK_PEND (R540). -/
def MB_ACK_PEND (i : Nat) : Nat := 0xF00C000500 + i * 0x8
def MB_ACK_PEND_CHANNELS (i : Nat) : Fld := ⟨MB_ACK_PEND i, 63, 0⟩
/-- MB_MSG (R541). -/
def MB_MSG (i : Nat) (j : Nat) : Nat := 0xF00C001000 + i * 0x80 + j * 0x4
def MB_MSG_DATA (i : Nat) (j : Nat) : Fld := ⟨MB_MSG i j, 31, 0⟩
/-- MB_SEND (R541). -/
def MB_SEND (i : Nat) : Nat := 0xF00C001040 + i * 0x80
def MB_SEND_LEN (i : Nat) : Fld := ⟨MB_SEND i, 20, 16⟩
def MB_SEND_TAG (i : Nat) : Fld := ⟨MB_SEND i, 15, 0⟩
/-- MB_ACK (R541). -/
def MB_ACK (i : Nat) : Nat := 0xF00C001044 + i * 0x80
def MB_ACK_STATUS (i : Nat) : Fld := ⟨MB_ACK i, 31, 16⟩
def MB_ACK_CODE (i : Nat) : Fld := ⟨MB_ACK i, 15, 0⟩
/-- MB_REPLY (R541). -/
def MB_REPLY (i : Nat) : Nat := 0xF00C001048 + i * 0x80
def MB_REPLY_STATUS (i : Nat) : Fld := ⟨MB_REPLY i, 31, 16⟩
def MB_REPLY_CODE (i : Nat) : Fld := ⟨MB_REPLY i, 15, 0⟩
/-- MB_STATE (R541). -/
def MB_STATE (i : Nat) : Nat := 0xF00C00104C + i * 0x80
def MB_STATE_STATE (i : Nat) : Fld := ⟨MB_STATE i, 31, 30⟩
def MB_STATE_TIMED_OUT (i : Nat) : Fld := ⟨MB_STATE i, 29, 29⟩
def MB_STATE_EN (i : Nat) : Fld := ⟨MB_STATE i, 28, 28⟩
def MB_STATE_SENDER (i : Nat) : Fld := ⟨MB_STATE i, 27, 23⟩
def MB_STATE_RECEIVER (i : Nat) : Fld := ⟨MB_STATE i, 22, 18⟩
def MB_STATE_LEN (i : Nat) : Fld := ⟨MB_STATE i, 17, 13⟩
/-- MB_DONE (R541). -/
def MB_DONE (i : Nat) : Nat := 0xF00C001050 + i * 0x80
/-- MB_TAG (R541). -/
def MB_TAG (i : Nat) : Nat := 0xF00C001054 + i * 0x80
def MB_TAG_SENDS (i : Nat) : Fld := ⟨MB_TAG i, 31, 16⟩
def MB_TAG_TAG (i : Nat) : Fld := ⟨MB_TAG i, 15, 0⟩
/-- DBG_CTRL (R559). -/
def DBG_CTRL : Nat := 0xF00F000010
def DBG_CTRL_DM_EN : Fld := ⟨DBG_CTRL, 31, 31⟩
def DBG_CTRL_SBA_EN : Fld := ⟨DBG_CTRL, 30, 30⟩
def DBG_CTRL_HALT_EN : Fld := ⟨DBG_CTRL, 7, 0⟩
/-- DBG_LOCK (R559). -/
def DBG_LOCK : Nat := 0xF00F000014
def DBG_LOCK_LOCKED : Fld := ⟨DBG_LOCK, 0, 0⟩
/-- DBG_STATE (R559). -/
def DBG_STATE : Nat := 0xF00F000018
def DBG_STATE_ATTACHED : Fld := ⟨DBG_STATE, 31, 31⟩
def DBG_STATE_HALTED : Fld := ⟨DBG_STATE, 7, 0⟩
/-- NVM_KEY (R579). -/
def NVM_KEY : Nat := 0xF000200010
def NVM_KEY_KEY : Fld := ⟨NVM_KEY, 15, 0⟩
/-- NVM_STORE (R579). -/
def NVM_STORE : Nat := 0xF000200014
def NVM_STORE_SECTOR : Fld := ⟨NVM_STORE, 7, 0⟩
/-- NVM_STORE_STATE (R579). -/
def NVM_STORE_STATE : Nat := 0xF000200018
def NVM_STORE_STATE_STATE : Fld := ⟨NVM_STORE_STATE, 31, 30⟩
def NVM_STORE_STATE_RESULT : Fld := ⟨NVM_STORE_STATE, 23, 16⟩
def NVM_STORE_STATE_SECTOR : Fld := ⟨NVM_STORE_STATE, 7, 0⟩
/-- NVM_READ_SEL (R579). -/
def NVM_READ_SEL : Nat := 0xF00020001C
def NVM_READ_SEL_SECTOR : Fld := ⟨NVM_READ_SEL, 6, 0⟩
/-- BOOT_STATUS (R580). -/
def BOOT_STATUS : Nat := 0xF000200020
def BOOT_STATUS_STEP : Fld := ⟨BOOT_STATUS, 31, 28⟩
def BOOT_STATUS_CODE : Fld := ⟨BOOT_STATUS, 27, 20⟩
def BOOT_STATUS_FW_SRC : Fld := ⟨BOOT_STATUS, 19, 18⟩
def BOOT_STATUS_FW_SIG : Fld := ⟨BOOT_STATUS, 17, 16⟩
def BOOT_STATUS_PARAMS_SPI : Fld := ⟨BOOT_STATUS, 15, 15⟩
def BOOT_STATUS_APP_SIG : Fld := ⟨BOOT_STATUS, 14, 13⟩
/-- RESET_CAUSE (R580). -/
def RESET_CAUSE : Nat := 0xF000200024
def RESET_CAUSE_KEEPER_RESETS : Fld := ⟨RESET_CAUSE, 31, 16⟩
def RESET_CAUSE_CAUSE : Fld := ⟨RESET_CAUSE, 7, 0⟩
/-- BOOT_FW_VERSION (R580). -/
def BOOT_FW_VERSION : Nat := 0xF000200028
def BOOT_FW_VERSION_VERSION : Fld := ⟨BOOT_FW_VERSION, 31, 0⟩
/-- RESET_CTRL (R581). -/
def RESET_CTRL : Nat := 0xF00020002C
def RESET_CTRL_KEY : Fld := ⟨RESET_CTRL, 31, 16⟩
def RESET_CTRL_TYPE : Fld := ⟨RESET_CTRL, 1, 0⟩
/-- KWDT_CFG (R581). -/
def KWDT_CFG : Nat := 0xF000200030
def KWDT_CFG_EN : Fld := ⟨KWDT_CFG, 31, 31⟩
def KWDT_CFG_TIMEOUT_MS : Fld := ⟨KWDT_CFG, 15, 0⟩
/-- KWDT_KICK (R581). -/
def KWDT_KICK : Nat := 0xF000200034
/-- NVM_WEAR (R582). -/
def NVM_WEAR (i : Nat) : Nat := 0xF000200400 + i * 0x4
def NVM_WEAR_COUNT (i : Nat) : Fld := ⟨NVM_WEAR i, 16, 0⟩
/-- PWR_STATE (R597). -/
def PWR_STATE : Nat := 0xF00D000010
def PWR_STATE_TJ_MAX : Fld := ⟨PWR_STATE, 31, 16⟩
def PWR_STATE_GOV_EXHAUSTED : Fld := ⟨PWR_STATE, 3, 3⟩
def PWR_STATE_THERMAL_HOLD : Fld := ⟨PWR_STATE, 2, 2⟩
def PWR_STATE_GOV_STEP : Fld := ⟨PWR_STATE, 1, 0⟩
/-- PWR_NOW (R597). -/
def PWR_NOW : Nat := 0xF00D000014
def PWR_NOW_EXCESS : Fld := ⟨PWR_NOW, 31, 16⟩
def PWR_NOW_POWER : Fld := ⟨PWR_NOW, 15, 0⟩
/-- PWR_SUPPLY (R597). -/
def PWR_SUPPLY : Nat := 0xF00D000018
def PWR_SUPPLY_OUT : Fld := ⟨PWR_SUPPLY, 7, 0⟩
/-- PWR_ALERT (R597). -/
def PWR_ALERT : Nat := 0xF00D00001C
def PWR_ALERT_SUPPLY : Fld := ⟨PWR_ALERT, 4, 4⟩
def PWR_ALERT_GOV_EXHAUSTED : Fld := ⟨PWR_ALERT, 3, 3⟩
def PWR_ALERT_THERMAL_HOLD : Fld := ⟨PWR_ALERT, 2, 2⟩
def PWR_ALERT_KEEPER_RESET : Fld := ⟨PWR_ALERT, 1, 1⟩
def PWR_ALERT_BOOT : Fld := ⟨PWR_ALERT, 0, 0⟩
/-- GOV_CFG (R598). -/
def GOV_CFG : Nat := 0xF00D000020
def GOV_CFG_DOWN_MHZ : Fld := ⟨GOV_CFG, 31, 16⟩
def GOV_CFG_LIMIT_W : Fld := ⟨GOV_CFG, 15, 8⟩
def GOV_CFG_RELEASE_W : Fld := ⟨GOV_CFG, 7, 0⟩
/-- GOV_TIME (R598). -/
def GOV_TIME : Nat := 0xF00D000024
def GOV_TIME_BUDGET_MS : Fld := ⟨GOV_TIME, 31, 21⟩
def GOV_TIME_HOLD_MS : Fld := ⟨GOV_TIME, 20, 10⟩
def GOV_TIME_ACT_MS : Fld := ⟨GOV_TIME, 9, 0⟩
/-- GOV_STATS (R598). -/
def GOV_STATS : Nat := 0xF00D000028
def GOV_STATS_ENGAGES : Fld := ⟨GOV_STATS, 31, 16⟩
def GOV_STATS_EXHAUSTED : Fld := ⟨GOV_STATS, 15, 0⟩
/-- THERM_CFG (R598). -/
def THERM_CFG : Nat := 0xF00D000030
def THERM_CFG_WARN_C : Fld := ⟨THERM_CFG, 15, 8⟩
def THERM_CFG_EXIT_C : Fld := ⟨THERM_CFG, 7, 0⟩
/-- THERM_SENSE (R599). -/
def THERM_SENSE (i : Nat) : Nat := 0xF00D000040 + i * 0x4
def THERM_SENSE_TJ (i : Nat) : Fld := ⟨THERM_SENSE i, 15, 0⟩
/-- THERM_STATS (R599). -/
def THERM_STATS : Nat := 0xF00D000080
def THERM_STATS_HOLDS : Fld := ⟨THERM_STATS, 63, 48⟩
def THERM_STATS_TJ_PEAK : Fld := ⟨THERM_STATS, 47, 32⟩
def THERM_STATS_HOLD_MS : Fld := ⟨THERM_STATS, 31, 0⟩
/-- PWR_ENERGY (R600). -/
def PWR_ENERGY (i : Nat) : Nat := 0xF00D000100 + i * 0x8
def PWR_ENERGY_UJ (i : Nat) : Fld := ⟨PWR_ENERGY i, 63, 0⟩
/-- PWR_ENERGY_TOTAL (R600). -/
def PWR_ENERGY_TOTAL : Nat := 0xF00D000140
def PWR_ENERGY_TOTAL_UJ : Fld := ⟨PWR_ENERGY_TOTAL, 63, 0⟩
/-- PWR_DELIVERED (R600). -/
def PWR_DELIVERED : Nat := 0xF00D000148
def PWR_DELIVERED_PIXELS : Fld := ⟨PWR_DELIVERED, 63, 0⟩
/-- PWR_SNAP (R600). -/
def PWR_SNAP : Nat := 0xF00D000180
/-- PWR_SNAP_ENERGY (R600). -/
def PWR_SNAP_ENERGY : Nat := 0xF00D000188
def PWR_SNAP_ENERGY_UJ : Fld := ⟨PWR_SNAP_ENERGY, 63, 0⟩
/-- PWR_SNAP_DELIVERED (R600). -/
def PWR_SNAP_DELIVERED : Nat := 0xF00D000190
def PWR_SNAP_DELIVERED_PIXELS : Fld := ⟨PWR_SNAP_DELIVERED, 63, 0⟩
/-- PWR_SNAP_TIME (R600). -/
def PWR_SNAP_TIME : Nat := 0xF00D000198
def PWR_SNAP_TIME_SEQ : Fld := ⟨PWR_SNAP_TIME, 63, 56⟩
def PWR_SNAP_TIME_NS : Fld := ⟨PWR_SNAP_TIME, 55, 0⟩

end Reg

namespace Flag

/-- Flag 8 of SYS (R63). -/
def SYS_SEM_MISMATCH : Nat := 8
/-- Flag 0 of MASTERS (R44). -/
def MASTERS_ACCESS_DENIED : Nat := 0
/-- Flag 1 of MASTERS (R44). -/
def MASTERS_LOCK_VIOLATION : Nat := 1
/-- Flag 2 of MASTERS (R44). -/
def MASTERS_BUS_ERROR : Nat := 2
/-- Flag 3 of MASTERS (R44). -/
def MASTERS_LOG_WRAPPED : Nat := 3
/-- Flag 0 of INGOT (R97). -/
def INGOT_VALIDATED : Nat := 0
/-- Flag 1 of INGOT (R97). -/
def INGOT_INVALID : Nat := 1
/-- Flag 2 of INGOT (R97). -/
def INGOT_SWAP_LANDED : Nat := 2
/-- Flag 3 of INGOT (R97). -/
def INGOT_SWAP_REFUSED : Nat := 3
/-- Flag 4 of INGOT (R97). -/
def INGOT_CMD_REFUSED : Nat := 4
/-- Flag 5 of INGOT (R97). -/
def INGOT_BOOT_FALLBACK : Nat := 5
/-- Flag 0 of TIMEBASE (R134). -/
def TIMEBASE_STATE_CHANGE : Nat := 0
/-- Flag 1 of TIMEBASE (R134). -/
def TIMEBASE_SOURCE_LOST : Nat := 1
/-- Flag 2 of TIMEBASE (R134). -/
def TIMEBASE_SOURCE_SWITCH : Nat := 2
/-- Flag 3 of TIMEBASE (R134). -/
def TIMEBASE_STEP_DONE : Nat := 3
/-- Flag 4 of TIMEBASE (R134). -/
def TIMEBASE_REF_CHANGE_DONE : Nat := 4
/-- Flag 5 of TIMEBASE (R134). -/
def TIMEBASE_REF_CHANGE_REJECTED : Nat := 5
/-- Flag 6 of TIMEBASE (R134). -/
def TIMEBASE_REFSYNC_ERROR : Nat := 6
/-- Flag 7 of TIMEBASE (R134). -/
def TIMEBASE_INCR_CLAMPED : Nat := 7
/-- Flag 8 of TIMEBASE (R134). -/
def TIMEBASE_ORS_SETTLING : Nat := 8
/-- Flag 0 of CUE (R160). -/
def CUE_LATE_RUN : Nat := 0
/-- Flag 1 of CUE (R160). -/
def CUE_LATE_DISCARD : Nat := 1
/-- Flag 2 of CUE (R160). -/
def CUE_CUE_FAILED : Nat := 2
/-- Flag 3 of CUE (R160). -/
def CUE_ARM_REFUSED : Nat := 3
/-- Flag 4 of CUE (R160). -/
def CUE_COMMIT_REJECTED : Nat := 4
/-- Flag 5 of CUE (R160). -/
def CUE_CROWDED : Nat := 5
/-- Flag 6 of CUE (R160). -/
def CUE_RASTER_GONE : Nat := 6
/-- Flag 0 of LE (R192). -/
def LE_UNDERRUN : Nat := 0
/-- Flag 1 of LE (R192). -/
def LE_ROW_OVERFLOW : Nat := 1
/-- Flag 2 of LE (R192). -/
def LE_LATE_ROWS : Nat := 2
/-- Flag 3 of LE (R192). -/
def LE_REJECTED : Nat := 3
/-- Flag 4 of LE (R192). -/
def LE_POISON : Nat := 4
/-- Flag 0 of MESH (R220). -/
def MESH_REJECTED : Nat := 0
/-- Flag 1 of MESH (R220). -/
def MESH_INVALID_CELL : Nat := 1
/-- Flag 2 of MESH (R220). -/
def MESH_POISON : Nat := 2
/-- Flag 3 of MESH (R220). -/
def MESH_COORD_CLAMPED : Nat := 3
/-- Flag 0 of BC (R244). -/
def BC_REJECTED : Nat := 0
/-- Flag 1 of BC (R244). -/
def BC_CLAMPED : Nat := 1
/-- Flag 2 of BC (R244). -/
def BC_COLOUR_CLIPPED : Nat := 2
/-- Flag 3 of BC (R244). -/
def BC_LUT3D_POISON : Nat := 3
/-- Flag 0 of ORS (R307). -/
def ORS_UNDERRUN : Nat := 0
/-- Flag 1 of ORS (R307). -/
def ORS_REJECTED : Nat := 1
/-- Flag 2 of ORS (R307). -/
def ORS_IDLE_ENTERED : Nat := 2
/-- Flag 3 of ORS (R307). -/
def ORS_IDLE_LEFT : Nat := 3
/-- Flag 4 of ORS (R307). -/
def ORS_ENTRY_DEAD : Nat := 4
/-- Flag 0 of PQ (R362). -/
def PQ_REFCLK_LOST : Nat := 0
/-- Flag 0 of BTL_STATUS (R350). -/
def BTL_STATUS_CTRL_DONE : Nat := 0
/-- Flag 1 of BTL_STATUS (R350). -/
def BTL_STATUS_CTRL_FAILED : Nat := 1
/-- Flag 2 of BTL_STATUS (R350). -/
def BTL_STATUS_CTRL_REFUSED : Nat := 2
/-- Flag 3 of BTL_STATUS (R350). -/
def BTL_STATUS_LATE_PIXEL : Nat := 3
/-- Flag 4 of BTL_STATUS (R350). -/
def BTL_STATUS_TILE_LATE_LATCH : Nat := 4
/-- Flag 5 of BTL_STATUS (R350). -/
def BTL_STATUS_RX_BAD : Nat := 5
/-- Flag 6 of BTL_STATUS (R350). -/
def BTL_STATUS_ECHO_DONE : Nat := 6
/-- Flag 7 of BTL_STATUS (R350). -/
def BTL_STATUS_ECHO_TIMEOUT : Nat := 7
/-- Flag 8 of BTL_STATUS (R350). -/
def BTL_STATUS_ECHO_REFUSED : Nat := 8
/-- Flag 9 of BTL_STATUS (R350). -/
def BTL_STATUS_TEST_REFUSED : Nat := 9
/-- Flag 0 of PORT_STATUS (R391). -/
def PORT_STATUS_LINK_CHANGE : Nat := 0
/-- Flag 1 of PORT_STATUS (R391). -/
def PORT_STATUS_WINDOW_OVERSIZE : Nat := 1
/-- Flag 2 of PORT_STATUS (R391). -/
def PORT_STATUS_CRUCIBLE_DROP : Nat := 2
/-- Flag 3 of PORT_STATUS (R391). -/
def PORT_STATUS_CFG_REFUSED : Nat := 3
/-- Flag 4 of PORT_STATUS (R391). -/
def PORT_STATUS_GATE_SWITCHED : Nat := 4
/-- Flag 5 of PORT_STATUS (R391). -/
def PORT_STATUS_GATE_REFUSED : Nat := 5
/-- Flag 6 of PORT_STATUS (R391). -/
def PORT_STATUS_HRX_DROP : Nat := 6
/-- Flag 7 of PORT_STATUS (R391). -/
def PORT_STATUS_HTX_BAD : Nat := 7
/-- Flag 8 of PORT_STATUS (R391). -/
def PORT_STATUS_TRACE_WRAP : Nat := 8
/-- Flag 9 of PORT_STATUS (R391). -/
def PORT_STATUS_LINK_DOWN_DROP : Nat := 9
/-- Flag 10 of PORT_STATUS (R391). -/
def PORT_STATUS_POISON : Nat := 10
/-- Flag 0 of CRUCIBLE (R388). -/
def CRUCIBLE_REFUSED : Nat := 0
/-- Flag 1 of CRUCIBLE (R388). -/
def CRUCIBLE_YELLOW_LIMIT : Nat := 1
/-- Flag 2 of CRUCIBLE (R388). -/
def CRUCIBLE_POISON : Nat := 2
/-- Flag 3 of CRUCIBLE (R388). -/
def CRUCIBLE_CFG_REFUSED : Nat := 3
/-- Flag 0 of INGEST (R425). -/
def INGEST_FLOW_REFUSED : Nat := 0
/-- Flag 1 of INGEST (R425). -/
def INGEST_CFG_REFUSED : Nat := 1
/-- Flag 2 of INGEST (R425). -/
def INGEST_LATE : Nat := 2
/-- Flag 3 of INGEST (R425). -/
def INGEST_EARLY : Nat := 3
/-- Flag 4 of INGEST (R425). -/
def INGEST_INCOMPLETE : Nat := 4
/-- Flag 5 of INGEST (R425). -/
def INGEST_NO_SURFACE : Nat := 5
/-- Flag 6 of INGEST (R425). -/
def INGEST_PATH_DOWN : Nat := 6
/-- Flag 7 of INGEST (R425). -/
def INGEST_KEY_SKEW : Nat := 7
/-- Flag 8 of INGEST (R425). -/
def INGEST_BAD_PACKET : Nat := 8
/-- Flag 15 of INGEST (R425). -/
def INGEST_POLICER_REFUSED : Nat := 15
/-- Flag 0 of CHAIN (R453). -/
def CHAIN_LINK_CHANGE : Nat := 0
/-- Flag 1 of CHAIN (R453). -/
def CHAIN_LINK_MISMATCH : Nat := 1
/-- Flag 2 of CHAIN (R453). -/
def CHAIN_CHAIN_TIME_LOST : Nat := 2
/-- Flag 3 of CHAIN (R453). -/
def CHAIN_PEER_LOST : Nat := 3
/-- Flag 4 of CHAIN (R453). -/
def CHAIN_TAKEOVER : Nat := 4
/-- Flag 5 of CHAIN (R453). -/
def CHAIN_DEPOSED : Nat := 5
/-- Flag 6 of CHAIN (R453). -/
def CHAIN_REF_MISMATCH : Nat := 6
/-- Flag 7 of CHAIN (R453). -/
def CHAIN_TUNNEL_TIMEOUT : Nat := 7
/-- Flag 8 of CHAIN (R453). -/
def CHAIN_REPL_DROP : Nat := 8
/-- Flag 9 of CHAIN (R453). -/
def CHAIN_CUE_REPLACED : Nat := 9
/-- Flag 10 of CHAIN (R453). -/
def CHAIN_DOORBELL : Nat := 10
/-- Flag 0 of BLT (R476). -/
def BLT_DESC_DONE : Nat := 0
/-- Flag 1 of BLT (R476). -/
def BLT_DESC_ERROR : Nat := 1
/-- Flag 2 of BLT (R476). -/
def BLT_HALTED : Nat := 2
/-- Flag 3 of BLT (R476). -/
def BLT_PROD_REFUSED : Nat := 3
/-- Flag 4 of BLT (R476). -/
def BLT_CFG_REFUSED : Nat := 4
/-- Flag 5 of BLT (R476). -/
def BLT_POISON : Nat := 5
/-- Flag 0 of CHECK (R494). -/
def CHECK_SIG_ALARM : Nat := 0
/-- Flag 1 of CHECK (R494). -/
def CHECK_MEM_ALARM : Nat := 1
/-- Flag 2 of CHECK (R494). -/
def CHECK_WINDOW_OUT : Nat := 2
/-- Flag 3 of CHECK (R494). -/
def CHECK_POISON : Nat := 3
/-- Flag 4 of CHECK (R494). -/
def CHECK_CFG_REFUSED : Nat := 4
/-- Flag 5 of CHECK (R494). -/
def CHECK_MEM_DONE : Nat := 5
/-- Flag 0 of MC (R510). -/
def MC_CE : Nat := 0
/-- Flag 1 of MC (R510). -/
def MC_UE : Nat := 1
/-- Flag 2 of MC (R510). -/
def MC_CA_PARITY : Nat := 2
/-- Flag 3 of MC (R510). -/
def MC_WR_CRC : Nat := 3
/-- Flag 4 of MC (R510). -/
def MC_FAULT : Nat := 4
/-- Flag 5 of MC (R510). -/
def MC_SCRUB_DONE : Nat := 5
/-- Flag 6 of MC (R510). -/
def MC_DERATED : Nat := 6
/-- Flag 0 of SLAB (R514). -/
def SLAB_CE : Nat := 0
/-- Flag 1 of SLAB (R514). -/
def SLAB_UE : Nat := 1
/-- Flag 2 of SLAB (R514). -/
def SLAB_SCRUB_DONE : Nat := 2
/-- Flag 0 of MMAC_STATUS (R547). -/
def MMAC_STATUS_RX_FRAME : Nat := 0
/-- Flag 1 of MMAC_STATUS (R547). -/
def MMAC_STATUS_TX_DONE : Nat := 1
/-- Flag 2 of MMAC_STATUS (R547). -/
def MMAC_STATUS_RX_DROP : Nat := 2
/-- Flag 3 of MMAC_STATUS (R547). -/
def MMAC_STATUS_TX_BAD : Nat := 3
/-- Flag 4 of MMAC_STATUS (R547). -/
def MMAC_STATUS_LINK_CHANGE : Nat := 4
/-- Flag 5 of MMAC_STATUS (R547). -/
def MMAC_STATUS_CFG_REFUSED : Nat := 5
/-- Flag 0 of UART_STATUS (R551). -/
def UART_STATUS_RX_OVERRUN : Nat := 0
/-- Flag 1 of UART_STATUS (R551). -/
def UART_STATUS_FRAMING : Nat := 1
/-- Flag 2 of UART_STATUS (R551). -/
def UART_STATUS_TX_OVERFLOW : Nat := 2
/-- Flag 0 of I2C_FLAGS (R555). -/
def I2C_FLAGS_DONE : Nat := 0
/-- Flag 1 of I2C_FLAGS (R555). -/
def I2C_FLAGS_ERROR : Nat := 1
/-- Flag 2 of I2C_FLAGS (R555). -/
def I2C_FLAGS_CMD_REFUSED : Nat := 2
/-- Flag 0 of SPI_FLAGS (R557). -/
def SPI_FLAGS_DONE : Nat := 0
/-- Flag 1 of SPI_FLAGS (R557). -/
def SPI_FLAGS_CMD_REFUSED : Nat := 1
/-- Flag 0 of MAILBOX (R537). -/
def MAILBOX_SEND_REFUSED : Nat := 0
/-- Flag 1 of MAILBOX (R537). -/
def MAILBOX_ACK_REFUSED : Nat := 1
/-- Flag 2 of MAILBOX (R537). -/
def MAILBOX_WRITE_REFUSED : Nat := 2
/-- Flag 3 of MAILBOX (R537). -/
def MAILBOX_TIMEOUT : Nat := 3
/-- Flag 0 of DEBUG (R558). -/
def DEBUG_DM_ACTIVATED : Nat := 0
/-- Flag 1 of DEBUG (R558). -/
def DEBUG_HALT_REFUSED : Nat := 1
/-- Flag 0 of NVM (R578). -/
def NVM_STORE_DONE : Nat := 0
/-- Flag 1 of NVM (R578). -/
def NVM_STORE_REFUSED : Nat := 1
/-- Flag 2 of NVM (R578). -/
def NVM_READ_ERROR : Nat := 2
/-- Flag 3 of NVM (R578). -/
def NVM_WEAR_WARN : Nat := 3
/-- Flag 4 of NVM (R578). -/
def NVM_KEEPER_RESET : Nat := 4
/-- Flag 0 of POWER (R597). -/
def POWER_THERMAL_WARN : Nat := 0
/-- Flag 1 of POWER (R597). -/
def POWER_HOLD_ENTERED : Nat := 1
/-- Flag 2 of POWER (R597). -/
def POWER_HOLD_LEFT : Nat := 2
/-- Flag 3 of POWER (R597). -/
def POWER_GOV_STEP : Nat := 3
/-- Flag 4 of POWER (R597). -/
def POWER_GOV_EXHAUSTED : Nat := 4
/-- Flag 5 of POWER (R597). -/
def POWER_SUPPLY : Nat := 5

end Flag

/-- Registers of block SYS. -/
def rowsSYS : List RegRow :=
  [
   { off := 0x0, dims := [], wide := false, cls := .OPEN, shadowed := false, reset := .blockId, eff := .plain,
     fields := [⟨31, 16, .ro⟩, ⟨15, 8, .ro⟩, ⟨7, 0, .ro⟩] },
   { off := 0x4, dims := [], wide := false, cls := .PRIV, shadowed := false, reset := .const 0x0, eff := .plain,
     fields := [⟨31, 16, .sq⟩, ⟨15, 0, .sq⟩] },
   { off := 0x10, dims := [], wide := false, cls := .OPEN, shadowed := false, reset := .const 0x81281200, eff := .plain,
     fields := [⟨31, 16, .ro⟩, ⟨15, 12, .ro⟩, ⟨11, 8, .ro⟩, ⟨7, 4, .ro⟩, ⟨3, 0, .rsv⟩] },
   { off := 0x400, dims := [(64, 0x4)], wide := false, cls := .OPEN, shadowed := false, reset := .const 0x0, eff := .sysSemAcq,
     fields := [⟨31, 31, .ro⟩, ⟨30, 5, .rsv⟩, ⟨4, 0, .ro⟩] },
   { off := 0x500, dims := [(64, 0x4)], wide := false, cls := .OPEN, shadowed := false, reset := .const 0x0, eff := .sysSemRel,
     fields := [⟨31, 5, .rsv⟩, ⟨4, 0, .wo⟩] },
   { off := 0x600, dims := [(64, 0x4)], wide := false, cls := .OPEN, shadowed := false, reset := .const 0x0, eff := .sysSemPeek,
     fields := [⟨31, 31, .ro⟩, ⟨30, 5, .rsv⟩, ⟨4, 0, .ro⟩] },
   { off := 0x700, dims := [], wide := false, cls := .SECURE, shadowed := false, reset := .const 0x0, eff := .sysSemForce,
     fields := [⟨31, 6, .rsv⟩, ⟨5, 0, .wo⟩] } ]

/-- Registers of block MASTERS. -/
def rowsMASTERS : List RegRow :=
  [
   { off := 0x0, dims := [], wide := false, cls := .OPEN, shadowed := false, reset := .blockId, eff := .plain,
     fields := [⟨31, 16, .ro⟩, ⟨15, 8, .ro⟩, ⟨7, 0, .ro⟩] },
   { off := 0x4, dims := [], wide := false, cls := .PRIV, shadowed := false, reset := .const 0x0, eff := .plain,
     fields := [⟨31, 16, .sq⟩, ⟨15, 0, .sq⟩] },
   { off := 0x100, dims := [(16, 0x4)], wide := false, cls := .SECURE, shadowed := false, reset := .const 0x0, eff := .classFloor,
     fields := [⟨31, 0, .rw⟩] },
   { off := 0x140, dims := [], wide := false, cls := .SECURE, shadowed := false, reset := .const 0x0, eff := .classLock,
     fields := [⟨31, 1, .rsv⟩, ⟨0, 0, .wo1⟩] },
   { off := 0x200, dims := [], wide := false, cls := .SECURE, shadowed := false, reset := .const 0x0, eff := .accessLogHead,
     fields := [⟨31, 8, .ro⟩, ⟨7, 5, .rsv⟩, ⟨4, 0, .ro⟩] },
   { off := 0x300, dims := [(32, 0x8)], wide := true, cls := .SECURE, shadowed := false, reset := .const 0x0, eff := .plain,
     fields := [⟨63, 63, .ro⟩, ⟨62, 62, .ro⟩, ⟨61, 60, .ro⟩, ⟨59, 57, .rsv⟩, ⟨56, 52, .ro⟩, ⟨51, 40, .ro⟩, ⟨39, 0, .ro⟩] },
   { off := 0x208, dims := [], wide := true, cls := .SECURE, shadowed := false, reset := .const 0x0, eff := .plain,
     fields := [⟨63, 48, .ro⟩, ⟨47, 45, .rsv⟩, ⟨44, 40, .ro⟩, ⟨39, 0, .ro⟩] },
   { off := 0x210, dims := [], wide := true, cls := .PRIV, shadowed := false, reset := .const 0x0, eff := .plain,
     fields := [⟨63, 52, .ro⟩, ⟨51, 48, .ro⟩, ⟨47, 45, .rsv⟩, ⟨44, 40, .ro⟩, ⟨39, 0, .ro⟩] } ]

/-- Registers of block INGOT. -/
def rowsINGOT : List RegRow :=
  [
   { off := 0x0, dims := [], wide := false, cls := .OPEN, shadowed := false, reset := .blockId, eff := .plain,
     fields := [⟨31, 16, .ro⟩, ⟨15, 8, .ro⟩, ⟨7, 0, .ro⟩] },
   { off := 0x4, dims := [], wide := false, cls := .PRIV, shadowed := false, reset := .const 0x0, eff := .plain,
     fields := [⟨31, 16, .sq⟩, ⟨15, 0, .sq⟩] },
   { off := 0x10, dims := [], wide := false, cls := .PRIV, shadowed := false, reset := .const 0x4, eff := .plain,
     fields := [⟨31, 3, .rsv⟩, ⟨2, 2, .ro⟩, ⟨1, 1, .ro⟩, ⟨0, 0, .ro⟩] },
   { off := 0x14, dims := [], wide := false, cls := .PRIV, shadowed := false, reset := .const 0x0, eff := .ingotCmd,
     fields := [⟨31, 5, .rsv⟩, ⟨4, 4, .wo⟩, ⟨3, 0, .wo⟩] },
   { off := 0x20, dims := [(2, 0x10)], wide := false, cls := .PRIV, shadowed := false, reset := .const 0xFFFF00, eff := .plain,
     fields := [⟨31, 24, .ro⟩, ⟨23, 16, .ro⟩, ⟨15, 8, .ro⟩, ⟨7, 6, .ro⟩, ⟨5, 5, .ro⟩, ⟨4, 3, .rsv⟩, ⟨2, 0, .ro⟩] },
   { off := 0x24, dims := [(2, 0x10)], wide := false, cls := .PRIV, shadowed := false, reset := .const 0x0, eff := .plain,
     fields := [⟨31, 0, .ro⟩] },
   { off := 0x28, dims := [(2, 0x10)], wide := false, cls := .PRIV, shadowed := false, reset := .const 0x0, eff := .plain,
     fields := [⟨31, 0, .ro⟩] },
   { off := 0x40, dims := [], wide := true, cls := .PRIV, shadowed := false, reset := .const 0x0, eff := .plain,
     fields := [⟨63, 16, .ro⟩, ⟨15, 8, .ro⟩, ⟨7, 0, .ro⟩] },
   { off := 0x48, dims := [], wide := false, cls := .PRIV, shadowed := false, reset := .const 0x0, eff := .plain,
     fields := [⟨31, 16, .rsv⟩, ⟨15, 0, .ro⟩] },
   { off := 0x4C, dims := [], wide := false, cls := .PRIV, shadowed := false, reset := .const 0x0, eff := .plain,
     fields := [⟨31, 0, .ro⟩] } ]

/-- Registers of block TIMEBASE. -/
def rowsTIMEBASE : List RegRow :=
  [
   { off := 0x0, dims := [], wide := false, cls := .OPEN, shadowed := false, reset := .blockId, eff := .plain,
     fields := [⟨31, 16, .ro⟩, ⟨15, 8, .ro⟩, ⟨7, 0, .ro⟩] },
   { off := 0x4, dims := [], wide := false, cls := .PRIV, shadowed := false, reset := .const 0x0, eff := .plain,
     fields := [⟨31, 16, .sq⟩, ⟨15, 0, .sq⟩] },
   { off := 0x10, dims := [], wide := false, cls := .OPEN, shadowed := false, reset := .const 0x0, eff := .plain,
     fields := [⟨31, 12, .rsv⟩, ⟨11, 8, .ro⟩, ⟨7, 4, .ro⟩, ⟨3, 2, .rsv⟩, ⟨1, 0, .ro⟩] },
   { off := 0x14, dims := [], wide := false, cls := .OPEN, shadowed := false, reset := .const 0x0, eff := .tbHoldoverS,
     fields := [⟨31, 0, .ro⟩] },
   { off := 0x18, dims := [], wide := false, cls := .OPEN, shadowed := false, reset := .const 0x0, eff := .tbUtc,
     fields := [⟨31, 31, .ro⟩, ⟨30, 16, .rsv⟩, ⟨15, 0, .ro⟩] },
   { off := 0x20, dims := [], wide := true, cls := .OPEN, shadowed := false, reset := .const 0x0, eff := .plain,
     fields := [⟨63, 32, .ro⟩, ⟨31, 0, .ro⟩] },
   { off := 0x28, dims := [], wide := true, cls := .OPEN, shadowed := false, reset := .const 0x0, eff := .plain,
     fields := [⟨63, 0, .ro⟩] },
   { off := 0x30, dims := [], wide := false, cls := .PRIV, shadowed := false, reset := .const 0xA0039, eff := .plain,
     fields := [⟨31, 16, .rw⟩, ⟨15, 6, .rsv⟩, ⟨5, 4, .rw⟩, ⟨3, 2, .rw⟩, ⟨1, 0, .rw⟩] },
   { off := 0x34, dims := [], wide := false, cls := .PRIV, shadowed := false, reset := .const 0xBE864416, eff := .plain,
     fields := [⟨31, 31, .rw⟩, ⟨30, 20, .rw⟩, ⟨19, 12, .rw⟩, ⟨11, 6, .rw⟩, ⟨5, 3, .rw⟩, ⟨2, 0, .rw⟩] },
   { off := 0x38, dims := [], wide := false, cls := .PRIV, shadowed := false, reset := .const 0x407F, eff := .plain,
     fields := [⟨31, 16, .rsv⟩, ⟨15, 15, .rw⟩, ⟨14, 14, .rw⟩, ⟨13, 7, .rsv⟩, ⟨6, 0, .rw⟩] },
   { off := 0x40, dims := [(2, 0x4)], wide := false, cls := .PRIV, shadowed := false, reset := .const 0xFF000000, eff := .plain,
     fields := [⟨31, 24, .rw⟩, ⟨23, 23, .rw⟩, ⟨22, 20, .rsv⟩, ⟨19, 10, .rw⟩, ⟨9, 0, .rw⟩] },
   { off := 0x50, dims := [], wide := true, cls := .SECURE, shadowed := false, reset := .const 0x555555555555, eff := .tbIncr,
     fields := [⟨63, 48, .rsv⟩, ⟨47, 0, .rw⟩] },
   { off := 0x58, dims := [], wide := true, cls := .SECURE, shadowed := false, reset := .const 0x0, eff := .tbStep,
     fields := [⟨63, 0, .wo⟩] },
   { off := 0x60, dims := [], wide := true, cls := .SECURE, shadowed := false, reset := .const 0x0, eff := .tbSetTime,
     fields := [⟨63, 16, .wo⟩, ⟨15, 0, .wo⟩] },
   { off := 0x68, dims := [], wide := false, cls := .SECURE, shadowed := false, reset := .const 0x0, eff := .tbSetNs,
     fields := [⟨31, 30, .rsv⟩, ⟨29, 0, .wo⟩] },
   { off := 0x70, dims := [], wide := false, cls := .OPEN, shadowed := false, reset := .const 0x0, eff := .tbCapture,
     fields := [⟨31, 0, .wo⟩] },
   { off := 0x78, dims := [], wide := true, cls := .OPEN, shadowed := false, reset := .const 0x0, eff := .plain,
     fields := [⟨63, 16, .ro⟩, ⟨15, 0, .ro⟩] },
   { off := 0x80, dims := [], wide := false, cls := .OPEN, shadowed := false, reset := .const 0x0, eff := .plain,
     fields := [⟨31, 0, .ro⟩] },
   { off := 0x88, dims := [], wide := true, cls := .OPEN, shadowed := false, reset := .const 0x0, eff := .plain,
     fields := [⟨63, 48, .rsv⟩, ⟨47, 0, .ro⟩] },
   { off := 0x90, dims := [], wide := false, cls := .OPEN, shadowed := false, reset := .const 0x0, eff := .plain,
     fields := [⟨31, 16, .ro⟩, ⟨15, 0, .ro⟩] },
   { off := 0xA0, dims := [], wide := true, cls := .PRIV, shadowed := false, reset := .const 0x10000003C, eff := .plain,
     fields := [⟨63, 53, .rsv⟩, ⟨52, 32, .rw⟩, ⟨31, 21, .rsv⟩, ⟨20, 0, .rw⟩] },
   { off := 0xA8, dims := [], wide := false, cls := .PRIV, shadowed := false, reset := .const 0x465, eff := .plain,
     fields := [⟨31, 16, .rsv⟩, ⟨15, 0, .rw⟩] },
   { off := 0xB0, dims := [], wide := true, cls := .PRIV, shadowed := false, reset := .const 0x0, eff := .tbRefApply,
     fields := [⟨63, 60, .ro⟩, ⟨59, 48, .rsv⟩, ⟨47, 0, .rw⟩] },
   { off := 0xB8, dims := [], wide := false, cls := .PRIV, shadowed := false, reset := .const 0x4, eff := .plain,
     fields := [⟨31, 8, .rw⟩, ⟨7, 3, .rsv⟩, ⟨2, 2, .rw⟩, ⟨1, 1, .rw⟩, ⟨0, 0, .rw⟩] },
   { off := 0xBC, dims := [], wide := false, cls := .PRIV, shadowed := false, reset := .const 0x19000000, eff := .plain,
     fields := [⟨31, 22, .rw⟩, ⟨21, 12, .rw⟩, ⟨11, 2, .rw⟩, ⟨1, 1, .rw⟩, ⟨0, 0, .rw⟩] },
   { off := 0xC0, dims := [], wide := false, cls := .OPEN, shadowed := false, reset := .const 0x0, eff := .plain,
     fields := [⟨31, 16, .ro⟩, ⟨15, 0, .ro⟩] },
   { off := 0xD0, dims := [(4, 0x4)], wide := false, cls := .PRIV, shadowed := false, reset := .const 0x10050060, eff := .tbSyncoutCfg,
     fields := [⟨31, 31, .rw⟩, ⟨30, 30, .rw⟩, ⟨29, 29, .rw⟩, ⟨28, 24, .rw⟩, ⟨23, 16, .rw⟩, ⟨15, 0, .rw⟩] },
   { off := 0x100, dims := [(16, 0x4)], wide := false, cls := .OPEN, shadowed := false, reset := .const 0x0, eff := .plain,
     fields := [⟨31, 30, .ro⟩, ⟨29, 0, .ro⟩] } ]

/-- Registers of block CUE. -/
def rowsCUE : List RegRow :=
  [
   { off := 0x0, dims := [], wide := false, cls := .OPEN, shadowed := false, reset := .blockId, eff := .plain,
     fields := [⟨31, 16, .ro⟩, ⟨15, 8, .ro⟩, ⟨7, 0, .ro⟩] },
   { off := 0x4, dims := [], wide := false, cls := .PRIV, shadowed := false, reset := .const 0x0, eff := .plain,
     fields := [⟨31, 16, .sq⟩, ⟨15, 0, .sq⟩] },
   { off := 0x10, dims := [], wide := false, cls := .PRIV, shadowed := false, reset := .const 0x0, eff := .cueArm,
     fields := [⟨31, 31, .wo⟩, ⟨30, 13, .rsv⟩, ⟨12, 0, .wo⟩] },
   { off := 0x14, dims := [], wide := false, cls := .OPEN, shadowed := false, reset := .const 0x0, eff := .plain,
     fields := [⟨31, 29, .rsv⟩, ⟨28, 16, .ro⟩, ⟨15, 8, .rsv⟩, ⟨7, 0, .ro⟩] },
   { off := 0x18, dims := [], wide := false, cls := .OPEN, shadowed := false, reset := .const 0x0, eff := .plain,
     fields := [⟨31, 14, .rsv⟩, ⟨13, 0, .ro⟩] },
   { off := 0x20, dims := [], wide := true, cls := .OPEN, shadowed := false, reset := .const 0x0, eff := .plain,
     fields := [⟨63, 48, .ro⟩, ⟨47, 32, .ro⟩, ⟨31, 16, .ro⟩, ⟨15, 0, .ro⟩] },
   { off := 0x40, dims := [], wide := true, cls := .PRIV, shadowed := false, reset := .const 0x0, eff := .cueCommit,
     fields := [⟨63, 56, .rsv⟩, ⟨55, 0, .wo⟩] },
   { off := 0x50, dims := [], wide := true, cls := .OPEN, shadowed := false, reset := .const 0x0, eff := .plain,
     fields := [⟨63, 56, .rsv⟩, ⟨55, 0, .ro⟩] },
   { off := 0x58, dims := [], wide := true, cls := .PRIV, shadowed := false, reset := .const 0x0, eff := .plain,
     fields := [⟨63, 56, .rsv⟩, ⟨55, 40, .ro⟩, ⟨39, 0, .rw⟩] },
   { off := 0x48, dims := [], wide := false, cls := .OPEN, shadowed := false, reset := .const 0x0, eff := .cueCommitTicket,
     fields := [⟨31, 16, .rsv⟩, ⟨15, 0, .ro⟩] },
   { off := 0x4C, dims := [], wide := false, cls := .OPEN, shadowed := false, reset := .const 0x1, eff := .plain,
     fields := [⟨31, 16, .rsv⟩, ⟨15, 0, .ro⟩] },
   { off := 0x1000, dims := [(256, 0x8)], wide := true, cls := .OPEN, shadowed := false, reset := .const 0x0, eff := .plain,
     fields := [⟨63, 48, .ro⟩, ⟨47, 47, .ro⟩, ⟨46, 44, .ro⟩, ⟨43, 40, .ro⟩, ⟨39, 37, .rsv⟩, ⟨36, 32, .ro⟩, ⟨31, 0, .ro⟩] } ]

/-- Registers of block LE. -/
def rowsLE : List RegRow :=
  [
   { off := 0x0, dims := [], wide := false, cls := .OPEN, shadowed := false, reset := .blockId, eff := .plain,
     fields := [⟨31, 16, .ro⟩, ⟨15, 8, .ro⟩, ⟨7, 0, .ro⟩] },
   { off := 0x4, dims := [], wide := false, cls := .PRIV, shadowed := false, reset := .const 0x0, eff := .plain,
     fields := [⟨31, 16, .sq⟩, ⟨15, 0, .sq⟩] },
   { off := 0x10, dims := [], wide := false, cls := .OPEN, shadowed := false, reset := .const 0xFF, eff := .plain,
     fields := [⟨31, 10, .rsv⟩, ⟨9, 9, .ro⟩, ⟨8, 8, .ro⟩, ⟨7, 0, .ro⟩] },
   { off := 0x14, dims := [], wide := false, cls := .PRIV, shadowed := true, reset := .const 0x0, eff := .plain,
     fields := [⟨31, 1, .rsv⟩, ⟨0, 0, .rw⟩] },
   { off := 0x18, dims := [], wide := false, cls := .PRIV, shadowed := true, reset := .const 0x0, eff := .plain,
     fields := [⟨31, 31, .rw⟩, ⟨30, 9, .rsv⟩, ⟨8, 0, .rw⟩] },
   { off := 0x20, dims := [], wide := true, cls := .PRIV, shadowed := true, reset := .const 0x0, eff := .plain,
     fields := [⟨63, 40, .rsv⟩, ⟨39, 8, .rw⟩, ⟨7, 0, .ro⟩] },
   { off := 0x28, dims := [], wide := false, cls := .PRIV, shadowed := true, reset := .const 0x0, eff := .plain,
     fields := [⟨31, 24, .rsv⟩, ⟨23, 6, .rw⟩, ⟨5, 0, .ro⟩] },
   { off := 0x2C, dims := [], wide := false, cls := .PRIV, shadowed := true, reset := .const 0x0, eff := .plain,
     fields := [⟨31, 16, .rw⟩, ⟨15, 0, .rw⟩] },
   { off := 0x30, dims := [], wide := false, cls := .PRIV, shadowed := true, reset := .const 0x0, eff := .plain,
     fields := [⟨31, 8, .rsv⟩, ⟨7, 0, .rw⟩] },
   { off := 0x34, dims := [], wide := false, cls := .PRIV, shadowed := true, reset := .const 0x40080000, eff := .plain,
     fields := [⟨31, 31, .rw⟩, ⟨30, 30, .rw⟩, ⟨29, 24, .rsv⟩, ⟨23, 16, .rw⟩, ⟨15, 0, .rw⟩] },
   { off := 0x40, dims := [], wide := false, cls := .OPEN, shadowed := false, reset := .const 0x0, eff := .leTouch,
     fields := [⟨31, 0, .wo⟩] },
   { off := 0x44, dims := [], wide := false, cls := .PRIV, shadowed := false, reset := .const 0x100, eff := .plain,
     fields := [⟨31, 16, .rsv⟩, ⟨15, 0, .rw⟩] },
   { off := 0x48, dims := [], wide := false, cls := .OPEN, shadowed := false, reset := .const 0xFFFFFFFF, eff := .plain,
     fields := [⟨31, 0, .ro⟩] },
   { off := 0x4C, dims := [], wide := false, cls := .OPEN, shadowed := false, reset := .const 0xFFFFFFFF, eff := .plain,
     fields := [⟨31, 0, .ro⟩] },
   { off := 0x50, dims := [], wide := false, cls := .PRIV, shadowed := false, reset := .const 0x0, eff := .leTolMinRestart,
     fields := [⟨31, 0, .wo⟩] },
   { off := 0x58, dims := [], wide := true, cls := .OPEN, shadowed := false, reset := .const 0x0, eff := .leLiveSurf,
     fields := [⟨63, 63, .ro⟩, ⟨62, 40, .rsv⟩, ⟨39, 0, .ro⟩] },
   { off := 0x60, dims := [], wide := true, cls := .OPEN, shadowed := false, reset := .const 0x0, eff := .plain,
     fields := [⟨63, 0, .ro⟩] },
   { off := 0x68, dims := [], wide := true, cls := .OPEN, shadowed := false, reset := .const 0x0, eff := .plain,
     fields := [⟨63, 0, .ro⟩] },
   { off := 0x70, dims := [], wide := true, cls := .OPEN, shadowed := false, reset := .const 0x0, eff := .plain,
     fields := [⟨63, 52, .ro⟩, ⟨51, 40, .ro⟩, ⟨39, 28, .ro⟩, ⟨27, 16, .ro⟩, ⟨15, 0, .ro⟩] },
   { off := 0x78, dims := [], wide := false, cls := .OPEN, shadowed := false, reset := .const 0x0, eff := .plain,
     fields := [⟨31, 8, .rsv⟩, ⟨7, 0, .ro⟩] },
   { off := 0x7C, dims := [], wide := false, cls := .OPEN, shadowed := false, reset := .const 0x0, eff := .leDirty,
     fields := [⟨31, 16, .ro⟩, ⟨15, 1, .rsv⟩, ⟨0, 0, .ro⟩] },
   { off := 0x80, dims := [], wide := false, cls := .PRIV, shadowed := true, reset := .const 0x0, eff := .plain,
     fields := [⟨31, 9, .rsv⟩, ⟨8, 8, .rw⟩, ⟨7, 5, .rsv⟩, ⟨4, 4, .rw⟩, ⟨3, 2, .rsv⟩, ⟨1, 0, .rw⟩] },
   { off := 0x90, dims := [(9, 0x4)], wide := false, cls := .PRIV, shadowed := true, reset := .diag 0x4000, eff := .plain,
     fields := [⟨31, 17, .rsv⟩, ⟨16, 0, .rw⟩] },
   { off := 0xB4, dims := [(3, 0x4)], wide := false, cls := .PRIV, shadowed := true, reset := .const 0x0, eff := .plain,
     fields := [⟨31, 17, .rsv⟩, ⟨16, 0, .rw⟩] },
   { off := 0xC0, dims := [(3, 0x4)], wide := false, cls := .PRIV, shadowed := true, reset := .const 0x0, eff := .plain,
     fields := [⟨31, 17, .rsv⟩, ⟨16, 0, .rw⟩] },
   { off := 0xD0, dims := [], wide := false, cls := .PRIV, shadowed := false, reset := .const 0x0, eff := .leDecodeLoad,
     fields := [⟨31, 31, .ro⟩, ⟨30, 29, .ro⟩, ⟨28, 17, .rsv⟩, ⟨16, 14, .wo⟩, ⟨13, 0, .wo⟩] },
   { off := 0xD4, dims := [], wide := false, cls := .OPEN, shadowed := false, reset := .const 0x0, eff := .plain,
     fields := [⟨31, 8, .rsv⟩, ⟨7, 0, .ro⟩] },
   { off := 0x10000, dims := [(3, 0x4000), (4096, 0x4)], wide := false, cls := .PRIV, shadowed := true, reset := .decodeLut, eff := .plain,
     fields := [⟨31, 24, .rsv⟩, ⟨23, 0, .rw⟩] } ]

/-- Registers of block MESH. -/
def rowsMESH : List RegRow :=
  [
   { off := 0x0, dims := [], wide := false, cls := .OPEN, shadowed := false, reset := .blockId, eff := .plain,
     fields := [⟨31, 16, .ro⟩, ⟨15, 8, .ro⟩, ⟨7, 0, .ro⟩] },
   { off := 0x4, dims := [], wide := false, cls := .PRIV, shadowed := false, reset := .const 0x0, eff := .plain,
     fields := [⟨31, 16, .sq⟩, ⟨15, 0, .sq⟩] },
   { off := 0x100, dims := [(32, 0x40)], wide := false, cls := .PRIV, shadowed := true, reset := .const 0x4000, eff := .plain,
     fields := [⟨31, 16, .rsv⟩, ⟨15, 13, .rw⟩, ⟨12, 8, .rsv⟩, ⟨7, 6, .rw⟩, ⟨5, 4, .rw⟩, ⟨3, 1, .rsv⟩, ⟨0, 0, .rw⟩] },
   { off := 0x104, dims := [(32, 0x40)], wide := false, cls := .PRIV, shadowed := true, reset := .const 0x0, eff := .plain,
     fields := [⟨31, 16, .rw⟩, ⟨15, 0, .rw⟩] },
   { off := 0x108, dims := [(32, 0x40)], wide := false, cls := .PRIV, shadowed := true, reset := .const 0x0, eff := .plain,
     fields := [⟨31, 16, .rw⟩, ⟨15, 0, .rw⟩] },
   { off := 0x10C, dims := [(32, 0x40)], wide := false, cls := .PRIV, shadowed := true, reset := .const 0x0, eff := .plain,
     fields := [⟨31, 24, .rsv⟩, ⟨23, 0, .rw⟩] },
   { off := 0x110, dims := [(32, 0x40)], wide := false, cls := .PRIV, shadowed := true, reset := .const 0x0, eff := .plain,
     fields := [⟨31, 16, .rsv⟩, ⟨15, 0, .rw⟩] },
   { off := 0x114, dims := [(32, 0x40)], wide := false, cls := .PRIV, shadowed := true, reset := .const 0x0, eff := .plain,
     fields := [⟨31, 27, .rsv⟩, ⟨26, 0, .rw⟩] },
   { off := 0x118, dims := [(32, 0x40)], wide := false, cls := .PRIV, shadowed := true, reset := .const 0x0, eff := .plain,
     fields := [⟨31, 27, .rsv⟩, ⟨26, 0, .rw⟩] },
   { off := 0x11C, dims := [(32, 0x40)], wide := false, cls := .PRIV, shadowed := true, reset := .const 0x10000, eff := .plain,
     fields := [⟨31, 24, .rsv⟩, ⟨23, 0, .rw⟩] },
   { off := 0x120, dims := [(32, 0x40)], wide := false, cls := .PRIV, shadowed := true, reset := .const 0x10000, eff := .plain,
     fields := [⟨31, 24, .rsv⟩, ⟨23, 0, .rw⟩] },
   { off := 0x124, dims := [(32, 0x40)], wide := false, cls := .PRIV, shadowed := true, reset := .const 0xA018044, eff := .plain,
     fields := [⟨31, 30, .rsv⟩, ⟨29, 20, .rw⟩, ⟨19, 10, .rw⟩, ⟨9, 0, .rw⟩] },
   { off := 0x128, dims := [(32, 0x40)], wide := false, cls := .OPEN, shadowed := false, reset := .const 0x0, eff := .plain,
     fields := [⟨31, 8, .rsv⟩, ⟨7, 0, .ro⟩] },
   { off := 0x130, dims := [(32, 0x40)], wide := true, cls := .OPEN, shadowed := false, reset := .const 0x0, eff := .plain,
     fields := [⟨63, 32, .ro⟩, ⟨31, 16, .ro⟩, ⟨15, 0, .ro⟩] },
   { off := 0x900, dims := [(32, 0x8)], wide := true, cls := .OPEN, shadowed := false, reset := .const 0x0, eff := .plain,
     fields := [⟨63, 57, .rsv⟩, ⟨56, 32, .ro⟩, ⟨31, 24, .rsv⟩, ⟨23, 0, .ro⟩] },
   { off := 0x8000, dims := [(32, 0x1C00), (4, 0x700), (64, 0x1C), (7, 0x4)], wide := false, cls := .PRIV, shadowed := true, reset := .meshCoef, eff := .plain,
     fields := [⟨31, 30, .rsv⟩, ⟨29, 16, .rw⟩, ⟨15, 14, .rsv⟩, ⟨13, 0, .rw⟩] } ]

/-- Registers of block BC. -/
def rowsBC : List RegRow :=
  [
   { off := 0x0, dims := [], wide := false, cls := .OPEN, shadowed := false, reset := .blockId, eff := .plain,
     fields := [⟨31, 16, .ro⟩, ⟨15, 8, .ro⟩, ⟨7, 0, .ro⟩] },
   { off := 0x4, dims := [], wide := false, cls := .PRIV, shadowed := false, reset := .const 0x0, eff := .plain,
     fields := [⟨31, 16, .sq⟩, ⟨15, 0, .sq⟩] },
   { off := 0x10, dims := [], wide := false, cls := .OPEN, shadowed := false, reset := .const 0x0, eff := .plain,
     fields := [⟨31, 16, .ro⟩, ⟨15, 1, .rsv⟩, ⟨0, 0, .ro⟩] },
   { off := 0x14, dims := [], wide := false, cls := .OPEN, shadowed := false, reset := .const 0x0, eff := .plain,
     fields := [⟨31, 0, .ro⟩] },
   { off := 0x18, dims := [], wide := true, cls := .OPEN, shadowed := false, reset := .const 0x0, eff := .plain,
     fields := [⟨63, 48, .ro⟩, ⟨47, 32, .ro⟩, ⟨31, 16, .ro⟩, ⟨15, 0, .ro⟩] },
   { off := 0x20, dims := [], wide := true, cls := .PRIV, shadowed := true, reset := .const 0x0, eff := .plain,
     fields := [⟨63, 60, .rsv⟩, ⟨59, 40, .rw⟩, ⟨39, 20, .rw⟩, ⟨19, 0, .rw⟩] },
   { off := 0x40, dims := [(16, 0x4)], wide := false, cls := .PRIV, shadowed := true, reset := .const 0x0, eff := .plain,
     fields := [⟨31, 16, .rw⟩, ⟨15, 0, .rw⟩] },
   { off := 0x100, dims := [(8, 0x10)], wide := false, cls := .PRIV, shadowed := true, reset := .const 0x1000FFFF, eff := .plain,
     fields := [⟨31, 16, .rw⟩, ⟨15, 0, .rw⟩] },
   { off := 0x104, dims := [(8, 0x10)], wide := false, cls := .PRIV, shadowed := true, reset := .const 0x0, eff := .plain,
     fields := [⟨31, 2, .rsv⟩, ⟨1, 1, .rw⟩, ⟨0, 0, .rw⟩] },
   { off := 0x108, dims := [(8, 0x10)], wide := true, cls := .PRIV, shadowed := true, reset := .const 0x0, eff := .plain,
     fields := [⟨63, 60, .rsv⟩, ⟨59, 40, .rw⟩, ⟨39, 20, .rw⟩, ⟨19, 0, .rw⟩] },
   { off := 0x200, dims := [(16, 0x20)], wide := false, cls := .PRIV, shadowed := true, reset := .const 0x0, eff := .plain,
     fields := [⟨31, 31, .rw⟩, ⟨30, 29, .rsv⟩, ⟨28, 24, .rw⟩, ⟨23, 23, .rw⟩, ⟨22, 20, .rw⟩, ⟨19, 19, .rsv⟩, ⟨18, 16, .rw⟩, ⟨15, 0, .rsv⟩] },
   { off := 0x204, dims := [(16, 0x20)], wide := false, cls := .PRIV, shadowed := true, reset := .const 0x8000, eff := .plain,
     fields := [⟨31, 16, .rsv⟩, ⟨15, 0, .rw⟩] },
   { off := 0x208, dims := [(16, 0x20)], wide := false, cls := .PRIV, shadowed := true, reset := .const 0x4, eff := .plain,
     fields := [⟨31, 5, .rsv⟩, ⟨4, 4, .rw⟩, ⟨3, 2, .rw⟩, ⟨1, 1, .rw⟩, ⟨0, 0, .rw⟩] },
   { off := 0x20C, dims := [(16, 0x20)], wide := false, cls := .PRIV, shadowed := true, reset := .const 0x0, eff := .plain,
     fields := [⟨31, 25, .rsv⟩, ⟨24, 0, .rw⟩] },
   { off := 0x210, dims := [(16, 0x20)], wide := false, cls := .PRIV, shadowed := true, reset := .const 0x10000, eff := .plain,
     fields := [⟨31, 0, .rw⟩] },
   { off := 0x600, dims := [], wide := false, cls := .OPEN, shadowed := false, reset := .const 0x0, eff := .plain,
     fields := [⟨31, 0, .ro⟩] },
   { off := 0x608, dims := [], wide := true, cls := .OPEN, shadowed := false, reset := .const 0x0, eff := .plain,
     fields := [⟨63, 0, .ro⟩] },
   { off := 0x610, dims := [], wide := true, cls := .OPEN, shadowed := false, reset := .const 0x0, eff := .plain,
     fields := [⟨63, 32, .ro⟩, ⟨31, 0, .rsv⟩] },
   { off := 0x618, dims := [], wide := false, cls := .OPEN, shadowed := false, reset := .const 0x0, eff := .plain,
     fields := [⟨31, 8, .rsv⟩, ⟨7, 0, .ro⟩] },
   { off := 0x800, dims := [(2, 0x100)], wide := false, cls := .PRIV, shadowed := true, reset := .const 0x1, eff := .plain,
     fields := [⟨31, 12, .rsv⟩, ⟨11, 9, .rw⟩, ⟨8, 8, .rw⟩, ⟨7, 1, .rsv⟩, ⟨0, 0, .rw⟩] },
   { off := 0x810, dims := [(2, 0x100), (9, 0x4)], wide := false, cls := .PRIV, shadowed := true, reset := .diag 0x10000, eff := .plain,
     fields := [⟨31, 19, .rsv⟩, ⟨18, 0, .rw⟩] },
   { off := 0x840, dims := [(2, 0x100)], wide := false, cls := .PRIV, shadowed := true, reset := .const 0x10000, eff := .plain,
     fields := [⟨31, 20, .rsv⟩, ⟨19, 0, .rw⟩] },
   { off := 0xA00, dims := [], wide := false, cls := .PRIV, shadowed := true, reset := .const 0xB, eff := .plain,
     fields := [⟨31, 4, .rsv⟩, ⟨3, 2, .rw⟩, ⟨1, 0, .rw⟩] },
   { off := 0xA10, dims := [], wide := false, cls := .PRIV, shadowed := false, reset := .const 0x0, eff := .bcEncodeLoad,
     fields := [⟨31, 31, .ro⟩, ⟨30, 29, .ro⟩, ⟨28, 18, .rsv⟩, ⟨17, 17, .wo⟩, ⟨16, 14, .wo⟩, ⟨13, 0, .wo⟩] },
   { off := 0xA18, dims := [], wide := false, cls := .OPEN, shadowed := false, reset := .const 0x0, eff := .plain,
     fields := [⟨31, 8, .rsv⟩, ⟨7, 0, .ro⟩] },
   { off := 0xA20, dims := [], wide := true, cls := .OPEN, shadowed := false, reset := .const 0x0, eff := .plain,
     fields := [⟨63, 32, .ro⟩, ⟨31, 16, .ro⟩, ⟨15, 0, .rsv⟩] },
   { off := 0x10000, dims := [(2, 0xC000), (3, 0x4000), (4096, 0x4)], wide := false, cls := .PRIV, shadowed := true, reset := .encodeLut, eff := .plain,
     fields := [⟨31, 21, .rsv⟩, ⟨20, 0, .rw⟩] } ]

/-- Registers of block ORS. -/
def rowsORS : List RegRow :=
  [
   { off := 0x0, dims := [], wide := false, cls := .OPEN, shadowed := false, reset := .blockId, eff := .plain,
     fields := [⟨31, 16, .ro⟩, ⟨15, 8, .ro⟩, ⟨7, 0, .ro⟩] },
   { off := 0x4, dims := [], wide := false, cls := .PRIV, shadowed := false, reset := .const 0x0, eff := .plain,
     fields := [⟨31, 16, .sq⟩, ⟨15, 0, .sq⟩] },
   { off := 0x10, dims := [], wide := false, cls := .OPEN, shadowed := false, reset := .const 0xFF00FF, eff := .plain,
     fields := [⟨31, 24, .rsv⟩, ⟨23, 16, .ro⟩, ⟨15, 10, .rsv⟩, ⟨9, 9, .ro⟩, ⟨8, 8, .ro⟩, ⟨7, 0, .ro⟩] },
   { off := 0x18, dims := [], wide := true, cls := .PRIV, shadowed := true, reset := .const 0x0, eff := .plain,
     fields := [⟨63, 48, .rw⟩, ⟨47, 32, .rw⟩, ⟨31, 16, .rw⟩, ⟨15, 0, .rw⟩] },
   { off := 0x20, dims := [], wide := true, cls := .PRIV, shadowed := true, reset := .const 0x0, eff := .plain,
     fields := [⟨63, 48, .rw⟩, ⟨47, 32, .rw⟩, ⟨31, 16, .rw⟩, ⟨15, 0, .rw⟩] },
   { off := 0x28, dims := [], wide := false, cls := .PRIV, shadowed := true, reset := .const 0x0, eff := .plain,
     fields := [⟨31, 20, .rsv⟩, ⟨19, 16, .rw⟩, ⟨15, 0, .rw⟩] },
   { off := 0x2C, dims := [], wide := false, cls := .PRIV, shadowed := true, reset := .const 0x0, eff := .plain,
     fields := [⟨31, 0, .rw⟩] },
   { off := 0x30, dims := [], wide := false, cls := .PRIV, shadowed := true, reset := .const 0x0, eff := .plain,
     fields := [⟨31, 24, .rsv⟩, ⟨23, 16, .rw⟩, ⟨15, 15, .rsv⟩, ⟨14, 0, .rw⟩] },
   { off := 0x34, dims := [], wide := false, cls := .PRIV, shadowed := true, reset := .const 0x3C3C, eff := .plain,
     fields := [⟨31, 31, .rw⟩, ⟨30, 24, .rsv⟩, ⟨23, 8, .rw⟩, ⟨7, 0, .rw⟩] },
   { off := 0x40, dims := [], wide := false, cls := .OPEN, shadowed := false, reset := .const 0x0, eff := .orsState,
     fields := [⟨31, 20, .rsv⟩, ⟨19, 16, .ro⟩, ⟨15, 9, .rsv⟩, ⟨8, 8, .ro⟩, ⟨7, 3, .rsv⟩, ⟨2, 0, .ro⟩] },
   { off := 0x44, dims := [], wide := false, cls := .OPEN, shadowed := false, reset := .const 0x0, eff := .plain,
     fields := [⟨31, 16, .ro⟩, ⟨15, 8, .rsv⟩, ⟨7, 0, .ro⟩] },
   { off := 0x48, dims := [], wide := true, cls := .OPEN, shadowed := false, reset := .const 0x0, eff := .orsNow,
     fields := [⟨63, 48, .ro⟩, ⟨47, 0, .ro⟩] },
   { off := 0x50, dims := [], wide := true, cls := .OPEN, shadowed := false, reset := .const 0x0, eff := .plain,
     fields := [⟨63, 32, .ro⟩, ⟨31, 0, .ro⟩] },
   { off := 0x58, dims := [], wide := true, cls := .OPEN, shadowed := false, reset := .const 0x0, eff := .plain,
     fields := [⟨63, 32, .ro⟩, ⟨31, 0, .ro⟩] },
   { off := 0x60, dims := [], wide := true, cls := .OPEN, shadowed := false, reset := .const 0x0, eff := .plain,
     fields := [⟨63, 63, .ro⟩, ⟨62, 48, .ro⟩, ⟨47, 32, .ro⟩, ⟨31, 0, .ro⟩] },
   { off := 0x68, dims := [], wide := false, cls := .PRIV, shadowed := false, reset := .const 0x0, eff := .orsUnderRestart,
     fields := [⟨31, 0, .wo⟩] },
   { off := 0x6C, dims := [], wide := false, cls := .OPEN, shadowed := false, reset := .const 0x0, eff := .plain,
     fields := [⟨31, 16, .ro⟩, ⟨15, 0, .rsv⟩] },
   { off := 0x70, dims := [], wide := true, cls := .OPEN, shadowed := false, reset := .const 0x0, eff := .plain,
     fields := [⟨63, 48, .rsv⟩, ⟨47, 0, .ro⟩] } ]

/-- Registers of block PQ, part 0. -/
def rowsPQ0 : List RegRow :=
  [
   { off := 0x0, dims := [], wide := false, cls := .OPEN, shadowed := false, reset := .blockId, eff := .plain,
     fields := [⟨31, 16, .ro⟩, ⟨15, 8, .ro⟩, ⟨7, 0, .ro⟩] },
   { off := 0x4, dims := [], wide := false, cls := .PRIV, shadowed := false, reset := .const 0x0, eff := .plain,
     fields := [⟨31, 16, .sq⟩, ⟨15, 0, .sq⟩] },
   { off := 0x10, dims := [], wide := false, cls := .OPEN, shadowed := false, reset := .const 0x0, eff := .plain,
     fields := [⟨31, 16, .rsv⟩, ⟨15, 8, .ro⟩, ⟨7, 3, .rsv⟩, ⟨2, 0, .ro⟩] },
   { off := 0x14, dims := [], wide := false, cls := .OPEN, shadowed := false, reset := .const 0x0, eff := .plain,
     fields := [⟨31, 1, .rsv⟩, ⟨0, 0, .ro⟩] },
   { off := 0x20, dims := [(4, 0x4)], wide := false, cls := .PRIV, shadowed := false, reset := .const 0x20043008, eff := .pqLaneCfg,
     fields := [⟨31, 31, .rw⟩, ⟨30, 30, .rw⟩, ⟨29, 29, .rw⟩, ⟨28, 28, .rw⟩, ⟨27, 22, .rsv⟩, ⟨21, 16, .rw⟩, ⟨15, 14, .rsv⟩, ⟨13, 8, .rw⟩, ⟨7, 6, .rsv⟩, ⟨5, 0, .rw⟩] },
   { off := 0x1000, dims := [(4, 0x200)], wide := false, cls := .PRIV, shadowed := false, reset := .const 0x88B52000, eff := .plain,
     fields := [⟨31, 16, .rw⟩, ⟨15, 15, .rw⟩, ⟨14, 14, .rsv⟩, ⟨13, 0, .rw⟩] },
   { off := 0x1004, dims := [(4, 0x200)], wide := false, cls := .PRIV, shadowed := false, reset := .const 0x19C8, eff := .plain,
     fields := [⟨31, 20, .rsv⟩, ⟨19, 0, .rw⟩] },
   { off := 0x1008, dims := [(4, 0x200)], wide := true, cls := .PRIV, shadowed := false, reset := .const 0x0, eff := .plain,
     fields := [⟨63, 48, .rsv⟩, ⟨47, 0, .rw⟩] },
   { off := 0x1010, dims := [(4, 0x200)], wide := true, cls := .PRIV, shadowed := false, reset := .const 0xFFFFFFFFFFFF, eff := .plain,
     fields := [⟨63, 48, .rsv⟩, ⟨47, 0, .rw⟩] },
   { off := 0x1018, dims := [(4, 0x200)], wide := false, cls := .PRIV, shadowed := false, reset := .const 0x640003, eff := .plain,
     fields := [⟨31, 16, .rw⟩, ⟨15, 4, .rsv⟩, ⟨3, 0, .rw⟩] },
   { off := 0x101C, dims := [(4, 0x200)], wide := false, cls := .PRIV, shadowed := false, reset := .const 0x3C0000, eff := .plain,
     fields := [⟨31, 16, .rw⟩, ⟨15, 1, .rsv⟩, ⟨0, 0, .rw⟩] },
   { off := 0x1020, dims := [(4, 0x200)], wide := false, cls := .PRIV, shadowed := false, reset := .const 0x0, eff := .plain,
     fields := [⟨31, 0, .rw⟩] },
   { off := 0x1024, dims := [(4, 0x200)], wide := false, cls := .PRIV, shadowed := false, reset := .const 0x0, eff := .btlCtrlSend,
     fields := [⟨31, 21, .rsv⟩, ⟨20, 16, .wo⟩, ⟨15, 0, .wo⟩] },
   { off := 0x1028, dims := [(4, 0x200)], wide := false, cls := .OPEN, shadowed := false, reset := .const 0x0, eff := .plain,
     fields := [⟨31, 30, .ro⟩, ⟨29, 28, .rsv⟩, ⟨27, 24, .ro⟩, ⟨23, 16, .rsv⟩, ⟨15, 0, .ro⟩] },
   { off := 0x102C, dims := [(4, 0x200)], wide := false, cls := .PRIV, shadowed := false, reset := .const 0x0, eff := .plain,
     fields := [⟨31, 16, .sq⟩, ⟨15, 0, .sq⟩] },
   { off := 0x1030, dims := [(4, 0x200)], wide := false, cls := .PRIV, shadowed := false, reset := .const 0x0, eff := .btlEchoReq,
     fields := [⟨31, 16, .rsv⟩, ⟨15, 0, .wo⟩] },
   { off := 0x1038, dims := [(4, 0x200)], wide := true, cls := .OPEN, shadowed := false, reset := .const 0x0, eff := .plain,
     fields := [⟨63, 63, .ro⟩, ⟨62, 62, .ro⟩, ⟨61, 48, .rsv⟩, ⟨47, 32, .ro⟩, ⟨31, 0, .ro⟩] },
   { off := 0x1040, dims := [(4, 0x200), (16, 0x4)], wide := false, cls := .PRIV, shadowed := false, reset := .const 0x0, eff := .plain,
     fields := [⟨31, 0, .rw⟩] },
   { off := 0x1080, dims := [(4, 0x200)], wide := true, cls := .OPEN, shadowed := false, reset := .const 0x0, eff := .plain,
     fields := [⟨63, 32, .ro⟩, ⟨31, 16, .ro⟩, ⟨15, 0, .ro⟩] },
   { off := 0x1088, dims := [(4, 0x200)], wide := true, cls := .OPEN, shadowed := false, reset := .const 0x0, eff := .plain,
     fields := [⟨63, 48, .ro⟩, ⟨47, 32, .ro⟩, ⟨31, 16, .ro⟩, ⟨15, 0, .ro⟩] },
   { off := 0x1090, dims := [(4, 0x200)], wide := true, cls := .OPEN, shadowed := false, reset := .const 0x0, eff := .plain,
     fields := [⟨63, 0, .ro⟩] },
   { off := 0x1098, dims := [(4, 0x200)], wide := true, cls := .OPEN, shadowed := false, reset := .const 0x0, eff := .plain,
     fields := [⟨63, 32, .ro⟩, ⟨31, 0, .ro⟩] },
   { off := 0x10A0, dims := [(4, 0x200)], wide := false, cls := .OPEN, shadowed := false, reset := .const 0x0, eff := .plain,
     fields := [⟨31, 16, .ro⟩, ⟨15, 0, .ro⟩] },
   { off := 0x10B0, dims := [(4, 0x200)], wide := false, cls := .PRIV, shadowed := false, reset := .const 0x0, eff := .btlTest,
     fields := [⟨31, 24, .wo⟩, ⟨23, 16, .wo⟩, ⟨15, 0, .wo⟩] },
   { off := 0x10B4, dims := [(4, 0x200)], wide := false, cls := .OPEN, shadowed := false, reset := .const 0x0, eff := .plain,
     fields := [⟨31, 24, .ro⟩, ⟨23, 16, .ro⟩, ⟨15, 8, .ro⟩, ⟨7, 1, .rsv⟩, ⟨0, 0, .ro⟩] },
   { off := 0x2000, dims := [(4, 0x400)], wide := false, cls := .PRIV, shadowed := false, reset := .const 0x0, eff := .plain,
     fields := [⟨31, 16, .sq⟩, ⟨15, 0, .sq⟩] },
   { off := 0x2004, dims := [(4, 0x400)], wide := false, cls := .OPEN, shadowed := false, reset := .const 0x0, eff := .plain,
     fields := [⟨31, 31, .ro⟩, ⟨30, 30, .ro⟩, ⟨29, 29, .ro⟩, ⟨28, 28, .ro⟩, ⟨27, 27, .ro⟩, ⟨26, 26, .ro⟩, ⟨25, 0, .rsv⟩] },
   { off := 0x2008, dims := [(4, 0x400)], wide := false, cls := .PRIV, shadowed := false, reset := .const 0x14, eff := .plain,
     fields := [⟨31, 6, .rsv⟩, ⟨5, 0, .rw⟩] },
   { off := 0x2010, dims := [(4, 0x400)], wide := true, cls := .OPEN, shadowed := false, reset := .const 0x0, eff := .plain,
     fields := [⟨63, 32, .ro⟩, ⟨31, 16, .ro⟩, ⟨15, 0, .ro⟩] },
   { off := 0x2018, dims := [(4, 0x400)], wide := true, cls := .OPEN, shadowed := false, reset := .const 0x0, eff := .plain,
     fields := [⟨63, 0, .ro⟩] },
   { off := 0x2020, dims := [(4, 0x400)], wide := true, cls := .OPEN, shadowed := false, reset := .const 0x0, eff := .plain,
     fields := [⟨63, 32, .ro⟩, ⟨31, 16, .ro⟩, ⟨15, 0, .ro⟩] },
   { off := 0x2040, dims := [(4, 0x400), (8, 0x20)], wide := false, cls := .PRIV, shadowed := false, reset := .const 0x0, eff := .queueShapeRate,
     fields := [⟨31, 0, .rw⟩] },
   { off := 0x2044, dims := [(4, 0x400), (8, 0x20)], wide := false, cls := .PRIV, shadowed := false, reset := .const 0x0, eff := .queueShapeBurst,
     fields := [⟨31, 31, .rw⟩, ⟨30, 24, .rsv⟩, ⟨23, 0, .rw⟩] },
   { off := 0x2048, dims := [(4, 0x400), (8, 0x20)], wide := false, cls := .OPEN, shadowed := false, reset := .const 0x0, eff := .queueCredit,
     fields := [⟨31, 0, .ro⟩] },
   { off := 0x204C, dims := [(4, 0x400), (8, 0x20)], wide := false, cls := .PRIV, shadowed := false, reset := .const 0x2400, eff := .queueQuantum,
     fields := [⟨31, 16, .rsv⟩, ⟨15, 0, .rw⟩] },
   { off := 0x2050, dims := [(4, 0x400), (8, 0x20)], wide := true, cls := .OPEN, shadowed := false, reset := .const 0x0, eff := .plain,
     fields := [⟨63, 32, .ro⟩, ⟨31, 0, .ro⟩] },
   { off := 0x2058, dims := [(4, 0x400), (8, 0x20)], wide := true, cls := .OPEN, shadowed := false, reset := .const 0x0, eff := .plain,
     fields := [⟨63, 32, .ro⟩, ⟨31, 0, .ro⟩] },
   { off := 0x2140, dims := [(4, 0x400), (8, 0x10)], wide := true, cls := .OPEN, shadowed := false, reset := .const 0x0, eff := .plain,
     fields := [⟨63, 32, .ro⟩, ⟨31, 0, .ro⟩] },
   { off := 0x2148, dims := [(4, 0x400), (8, 0x10)], wide := true, cls := .OPEN, shadowed := false, reset := .const 0x0, eff := .plain,
     fields := [⟨63, 48, .ro⟩, ⟨47, 32, .ro⟩, ⟨31, 16, .ro⟩, ⟨15, 0, .ro⟩] },
   { off := 0x21C0, dims := [(4, 0x400)], wide := false, cls := .PRIV, shadowed := false, reset := .const 0x3E8, eff := .portSampleCfg,
     fields := [⟨31, 31, .rw⟩, ⟨30, 20, .rsv⟩, ⟨19, 0, .rw⟩] } ]

/-- Registers of block PQ, part 1. -/
def rowsPQ1 : List RegRow :=
  [
   { off := 0x21C4, dims := [(4, 0x400)], wide := false, cls := .PRIV, shadowed := false, reset := .const 0x0, eff := .portSampleRestart,
     fields := [⟨31, 0, .wo⟩] },
   { off := 0x21C8, dims := [(4, 0x400)], wide := true, cls := .PRIV, shadowed := false, reset := .const 0x0, eff := .plain,
     fields := [⟨63, 40, .rsv⟩, ⟨39, 8, .rw⟩, ⟨7, 0, .ro⟩] },
   { off := 0x21D0, dims := [(4, 0x400)], wide := false, cls := .PRIV, shadowed := false, reset := .const 0xA, eff := .plain,
     fields := [⟨31, 5, .rsv⟩, ⟨4, 0, .rw⟩] },
   { off := 0x21D4, dims := [(4, 0x400)], wide := false, cls := .OPEN, shadowed := false, reset := .const 0x0, eff := .plain,
     fields := [⟨31, 0, .ro⟩] },
   { off := 0x21D8, dims := [(4, 0x400)], wide := false, cls := .OPEN, shadowed := false, reset := .const 0x0, eff := .plain,
     fields := [⟨31, 0, .ro⟩] },
   { off := 0x2200, dims := [(4, 0x400)], wide := false, cls := .PRIV, shadowed := false, reset := .const 0x0, eff := .gateCtrl,
     fields := [⟨31, 31, .rw⟩, ⟨30, 2, .rsv⟩, ⟨1, 0, .rw⟩] },
   { off := 0x2204, dims := [(4, 0x400)], wide := false, cls := .PRIV, shadowed := false, reset := .const 0x0, eff := .gateSwitch,
     fields := [⟨31, 1, .rsv⟩, ⟨0, 0, .wo⟩] },
   { off := 0x2208, dims := [(4, 0x400)], wide := false, cls := .PRIV, shadowed := false, reset := .const 0xF4240, eff := .gateTime,
     fields := [⟨31, 0, .rw⟩] },
   { off := 0x220C, dims := [(4, 0x400), (2, 0x10)], wide := false, cls := .PRIV, shadowed := false, reset := .const 0x1, eff := .gateLen,
     fields := [⟨31, 7, .rsv⟩, ⟨6, 0, .rw⟩] },
   { off := 0x2210, dims := [(4, 0x400)], wide := true, cls := .PRIV, shadowed := false, reset := .const 0x0, eff := .gateTime,
     fields := [⟨63, 0, .rw⟩] },
   { off := 0x2218, dims := [(4, 0x400)], wide := false, cls := .OPEN, shadowed := false, reset := .const 0x0, eff := .plain,
     fields := [⟨31, 31, .ro⟩, ⟨30, 30, .ro⟩, ⟨29, 22, .rsv⟩, ⟨21, 16, .ro⟩, ⟨15, 0, .ro⟩] },
   { off := 0x2220, dims := [(4, 0x400)], wide := true, cls := .PRIV, shadowed := false, reset := .const 0x0, eff := .hrxBase,
     fields := [⟨63, 40, .rsv⟩, ⟨39, 8, .rw⟩, ⟨7, 0, .ro⟩] },
   { off := 0x2228, dims := [(4, 0x400)], wide := false, cls := .PRIV, shadowed := false, reset := .const 0x10, eff := .hrxCfg,
     fields := [⟨31, 31, .rw⟩, ⟨30, 11, .rsv⟩, ⟨10, 0, .rw⟩] },
   { off := 0x222C, dims := [(4, 0x400)], wide := false, cls := .OPEN, shadowed := false, reset := .const 0x0, eff := .plain,
     fields := [⟨31, 0, .ro⟩] },
   { off := 0x2230, dims := [(4, 0x400)], wide := false, cls := .PRIV, shadowed := false, reset := .const 0x0, eff := .plain,
     fields := [⟨31, 0, .rw⟩] },
   { off := 0x2234, dims := [(4, 0x400)], wide := false, cls := .OPEN, shadowed := false, reset := .const 0x0, eff := .plain,
     fields := [⟨31, 0, .ro⟩] },
   { off := 0x2238, dims := [(4, 0x400)], wide := true, cls := .PRIV, shadowed := false, reset := .const 0x0, eff := .htxBase,
     fields := [⟨63, 40, .rsv⟩, ⟨39, 8, .rw⟩, ⟨7, 0, .ro⟩] },
   { off := 0x2240, dims := [(4, 0x400)], wide := false, cls := .PRIV, shadowed := false, reset := .const 0x10, eff := .htxCfg,
     fields := [⟨31, 31, .rw⟩, ⟨30, 11, .rsv⟩, ⟨10, 0, .rw⟩] },
   { off := 0x2244, dims := [(4, 0x400)], wide := false, cls := .PRIV, shadowed := false, reset := .const 0x0, eff := .htxProd,
     fields := [⟨31, 0, .rw⟩] },
   { off := 0x2248, dims := [(4, 0x400)], wide := false, cls := .OPEN, shadowed := false, reset := .const 0x0, eff := .plain,
     fields := [⟨31, 0, .ro⟩] },
   { off := 0x224C, dims := [(4, 0x400)], wide := false, cls := .OPEN, shadowed := false, reset := .const 0x0, eff := .plain,
     fields := [⟨31, 0, .ro⟩] },
   { off := 0x2280, dims := [(4, 0x400), (2, 0x10)], wide := false, cls := .PRIV, shadowed := false, reset := .const 0x2000000, eff := .fiCfg,
     fields := [⟨31, 31, .rw⟩, ⟨30, 28, .rw⟩, ⟨27, 25, .rw⟩, ⟨24, 24, .rw⟩, ⟨23, 0, .rsv⟩] },
   { off := 0x2284, dims := [(4, 0x400), (2, 0x10)], wide := false, cls := .PRIV, shadowed := false, reset := .const 0xFFFF00FF, eff := .plain,
     fields := [⟨31, 16, .rw⟩, ⟨15, 8, .rsv⟩, ⟨7, 0, .rw⟩] },
   { off := 0x2288, dims := [(4, 0x400), (2, 0x10)], wide := false, cls := .PRIV, shadowed := false, reset := .const 0x1, eff := .plain,
     fields := [⟨31, 24, .rsv⟩, ⟨23, 0, .rw⟩] },
   { off := 0x228C, dims := [(4, 0x400), (2, 0x10)], wide := false, cls := .OPEN, shadowed := false, reset := .const 0x0, eff := .plain,
     fields := [⟨31, 0, .ro⟩] },
   { off := 0x22A0, dims := [(4, 0x400), (2, 0x4)], wide := false, cls := .PRIV, shadowed := false, reset := .const 0x1, eff := .plain,
     fields := [⟨31, 0, .rw⟩] },
   { off := 0x4000, dims := [(4, 0x200), (2, 0x100), (64, 0x4)], wide := false, cls := .PRIV, shadowed := false, reset := .const 0xFF0003E8, eff := .gateEntry,
     fields := [⟨31, 24, .rw⟩, ⟨23, 0, .rw⟩] } ]

/-- Registers of block CRUCIBLE. -/
def rowsCRUCIBLE : List RegRow :=
  [
   { off := 0x0, dims := [], wide := false, cls := .OPEN, shadowed := false, reset := .blockId, eff := .plain,
     fields := [⟨31, 16, .ro⟩, ⟨15, 8, .ro⟩, ⟨7, 0, .ro⟩] },
   { off := 0x4, dims := [], wide := false, cls := .PRIV, shadowed := false, reset := .const 0x0, eff := .plain,
     fields := [⟨31, 16, .sq⟩, ⟨15, 0, .sq⟩] },
   { off := 0x10, dims := [], wide := false, cls := .PRIV, shadowed := false, reset := .const 0x20000020, eff := .cruCfg,
     fields := [⟨31, 31, .rsv⟩, ⟨30, 16, .rw⟩, ⟨15, 8, .rsv⟩, ⟨7, 0, .rw⟩] },
   { off := 0x14, dims := [], wide := false, cls := .OPEN, shadowed := false, reset := .const 0x0, eff := .plain,
     fields := [⟨31, 16, .ro⟩, ⟨15, 0, .ro⟩] },
   { off := 0x18, dims := [], wide := false, cls := .OPEN, shadowed := false, reset := .const 0x60006000, eff := .plain,
     fields := [⟨31, 16, .ro⟩, ⟨15, 0, .ro⟩] },
   { off := 0x1C, dims := [], wide := false, cls := .PRIV, shadowed := false, reset := .const 0x0, eff := .cruRestart,
     fields := [⟨31, 0, .wo⟩] },
   { off := 0x100, dims := [(128, 0x8)], wide := true, cls := .OPEN, shadowed := false, reset := .const 0x0, eff := .plain,
     fields := [⟨63, 48, .ro⟩, ⟨47, 32, .ro⟩, ⟨31, 16, .ro⟩, ⟨15, 0, .ro⟩] } ]

/-- Registers of block INGEST. -/
def rowsINGEST : List RegRow :=
  [
   { off := 0x0, dims := [], wide := false, cls := .OPEN, shadowed := false, reset := .blockId, eff := .plain,
     fields := [⟨31, 16, .ro⟩, ⟨15, 8, .ro⟩, ⟨7, 0, .ro⟩] },
   { off := 0x4, dims := [], wide := false, cls := .PRIV, shadowed := false, reset := .const 0x0, eff := .plain,
     fields := [⟨31, 16, .sq⟩, ⟨15, 0, .sq⟩] },
   { off := 0x10, dims := [], wide := true, cls := .OPEN, shadowed := false, reset := .const 0x0, eff := .plain,
     fields := [⟨63, 32, .ro⟩, ⟨31, 16, .ro⟩, ⟨15, 0, .ro⟩] },
   { off := 0x18, dims := [], wide := true, cls := .OPEN, shadowed := false, reset := .const 0x0, eff := .plain,
     fields := [⟨63, 0, .ro⟩] },
   { off := 0x20, dims := [], wide := false, cls := .OPEN, shadowed := false, reset := .const 0x0, eff := .plain,
     fields := [⟨31, 10, .rsv⟩, ⟨9, 0, .ro⟩] },
   { off := 0x100, dims := [(128, 0x8)], wide := true, cls := .PRIV, shadowed := false, reset := .const 0x0, eff := .plain,
     fields := [⟨63, 63, .rw⟩, ⟨62, 48, .rsv⟩, ⟨47, 0, .rw⟩] },
   { off := 0x10000, dims := [(512, 0x80)], wide := false, cls := .PRIV, shadowed := false, reset := .const 0x20240000, eff := .ingFlowCtrl,
     fields := [⟨31, 31, .rw⟩, ⟨30, 30, .rw⟩, ⟨29, 29, .rw⟩, ⟨28, 28, .rw⟩, ⟨27, 27, .rw⟩, ⟨26, 25, .rw⟩, ⟨24, 24, .rsv⟩, ⟨23, 20, .rw⟩, ⟨19, 16, .rw⟩, ⟨15, 9, .rsv⟩, ⟨8, 0, .rw⟩] },
   { off := 0x10004, dims := [(512, 0x80)], wide := false, cls := .PRIV, shadowed := false, reset := .const 0x0, eff := .ingFlowCfg,
     fields := [⟨31, 0, .rw⟩] },
   { off := 0x10008, dims := [(512, 0x80)], wide := false, cls := .PRIV, shadowed := false, reset := .const 0x0, eff := .ingFlowCfg,
     fields := [⟨31, 0, .rw⟩] },
   { off := 0x1000C, dims := [(512, 0x80)], wide := false, cls := .PRIV, shadowed := false, reset := .const 0xE000, eff := .ingFlowCfg,
     fields := [⟨31, 16, .rw⟩, ⟨15, 15, .rw⟩, ⟨14, 8, .rw⟩, ⟨7, 7, .rsv⟩, ⟨6, 0, .rw⟩] },
   { off := 0x10010, dims := [(512, 0x80)], wide := false, cls := .PRIV, shadowed := false, reset := .const 0x804, eff := .ingFlowCfg,
     fields := [⟨31, 16, .rsv⟩, ⟨15, 8, .rw⟩, ⟨7, 5, .rsv⟩, ⟨4, 4, .rw⟩, ⟨3, 2, .rw⟩, ⟨1, 0, .rw⟩] },
   { off := 0x10014, dims := [(512, 0x80)], wide := false, cls := .PRIV, shadowed := false, reset := .const 0x0, eff := .ingFlowCfg,
     fields := [⟨31, 16, .rw⟩, ⟨15, 0, .rw⟩] },
   { off := 0x10018, dims := [(512, 0x80)], wide := true, cls := .PRIV, shadowed := false, reset := .const 0x0, eff := .ingFlowCfg,
     fields := [⟨63, 40, .rsv⟩, ⟨39, 8, .rw⟩, ⟨7, 0, .ro⟩] },
   { off := 0x10020, dims := [(512, 0x80)], wide := false, cls := .PRIV, shadowed := false, reset := .const 0x0, eff := .ingFlowCfg,
     fields := [⟨31, 24, .rsv⟩, ⟨23, 6, .rw⟩, ⟨5, 0, .ro⟩] },
   { off := 0x10024, dims := [(512, 0x80)], wide := false, cls := .PRIV, shadowed := false, reset := .const 0x0, eff := .ingFlowCfg,
     fields := [⟨31, 8, .rw⟩, ⟨7, 0, .ro⟩] },
   { off := 0x1002C, dims := [(512, 0x80)], wide := false, cls := .PRIV, shadowed := false, reset := .const 0x0, eff := .ingFlowCfg,
     fields := [⟨31, 0, .rw⟩] },
   { off := 0x10030, dims := [(512, 0x80)], wide := true, cls := .OPEN, shadowed := false, reset := .const 0x0, eff := .flowState,
     fields := [⟨63, 32, .ro⟩, ⟨31, 24, .ro⟩, ⟨23, 16, .ro⟩, ⟨15, 8, .ro⟩, ⟨7, 0, .ro⟩] },
   { off := 0x10038, dims := [(512, 0x80)], wide := true, cls := .OPEN, shadowed := false, reset := .const 0x0, eff := .plain,
     fields := [⟨63, 48, .rsv⟩, ⟨47, 0, .ro⟩] },
   { off := 0x10040, dims := [(512, 0x80)], wide := true, cls := .OPEN, shadowed := false, reset := .const 0x0, eff := .plain,
     fields := [⟨63, 32, .ro⟩, ⟨31, 16, .ro⟩, ⟨15, 0, .ro⟩] },
   { off := 0x10048, dims := [(512, 0x80)], wide := true, cls := .OPEN, shadowed := false, reset := .const 0x0, eff := .plain,
     fields := [⟨63, 48, .ro⟩, ⟨47, 32, .ro⟩, ⟨31, 16, .ro⟩, ⟨15, 0, .ro⟩] },
   { off := 0x10050, dims := [(512, 0x80)], wide := true, cls := .OPEN, shadowed := false, reset := .const 0x0, eff := .plain,
     fields := [⟨63, 32, .ro⟩, ⟨31, 0, .ro⟩] },
   { off := 0x10058, dims := [(512, 0x80)], wide := true, cls := .OPEN, shadowed := false, reset := .const 0x0, eff := .plain,
     fields := [⟨63, 48, .ro⟩, ⟨47, 32, .ro⟩, ⟨31, 16, .ro⟩, ⟨15, 0, .ro⟩] },
   { off := 0x10060, dims := [(512, 0x80)], wide := true, cls := .OPEN, shadowed := false, reset := .const 0x0, eff := .plain,
     fields := [⟨63, 63, .ro⟩, ⟨62, 32, .rsv⟩, ⟨31, 0, .ro⟩] },
   { off := 0x10068, dims := [(512, 0x80)], wide := false, cls := .OPEN, shadowed := false, reset := .const 0x0, eff := .plain,
     fields := [⟨31, 8, .rsv⟩, ⟨7, 0, .ro⟩] },
   { off := 0x20000, dims := [(512, 0x20)], wide := false, cls := .PRIV, shadowed := false, reset := .const 0x0, eff := .polCir,
     fields := [⟨31, 0, .rw⟩] },
   { off := 0x20004, dims := [(512, 0x20)], wide := false, cls := .PRIV, shadowed := false, reset := .const 0x0, eff := .polPir,
     fields := [⟨31, 0, .rw⟩] },
   { off := 0x20008, dims := [(512, 0x20)], wide := false, cls := .PRIV, shadowed := false, reset := .const 0x0, eff := .polPbs,
     fields := [⟨31, 24, .rsv⟩, ⟨23, 0, .rw⟩] },
   { off := 0x2000C, dims := [(512, 0x20)], wide := false, cls := .PRIV, shadowed := false, reset := .const 0x0, eff := .polCbs,
     fields := [⟨31, 31, .rw⟩, ⟨30, 24, .rsv⟩, ⟨23, 0, .rw⟩] },
   { off := 0x20010, dims := [(512, 0x20)], wide := true, cls := .OPEN, shadowed := false, reset := .const 0x0, eff := .plain,
     fields := [⟨63, 32, .ro⟩, ⟨31, 0, .ro⟩] },
   { off := 0x20018, dims := [(512, 0x20)], wide := true, cls := .OPEN, shadowed := false, reset := .const 0x0, eff := .plain,
     fields := [⟨63, 32, .ro⟩, ⟨31, 0, .ro⟩] } ]

/-- Registers of block CHAIN. -/
def rowsCHAIN : List RegRow :=
  [
   { off := 0x0, dims := [], wide := false, cls := .OPEN, shadowed := false, reset := .blockId, eff := .plain,
     fields := [⟨31, 16, .ro⟩, ⟨15, 8, .ro⟩, ⟨7, 0, .ro⟩] },
   { off := 0x4, dims := [], wide := false, cls := .PRIV, shadowed := false, reset := .const 0x0, eff := .plain,
     fields := [⟨31, 16, .sq⟩, ⟨15, 0, .sq⟩] },
   { off := 0x10, dims := [], wide := false, cls := .OPEN, shadowed := false, reset := .const 0x0, eff := .plain,
     fields := [⟨31, 16, .ro⟩, ⟨15, 12, .ro⟩, ⟨11, 10, .ro⟩, ⟨9, 3, .rsv⟩, ⟨2, 0, .ro⟩] },
   { off := 0x14, dims := [], wide := false, cls := .PRIV, shadowed := false, reset := .const 0x88B66401, eff := .plain,
     fields := [⟨31, 16, .rw⟩, ⟨15, 8, .rw⟩, ⟨7, 1, .rsv⟩, ⟨0, 0, .rw⟩] },
   { off := 0x18, dims := [], wide := false, cls := .PRIV, shadowed := false, reset := .const 0x0, eff := .chainTakeover,
     fields := [⟨31, 16, .rsv⟩, ⟨15, 0, .wo⟩] },
   { off := 0x1C, dims := [], wide := false, cls := .PRIV, shadowed := false, reset := .const 0x0, eff := .chainDoorbell,
     fields := [⟨31, 16, .sq⟩, ⟨15, 0, .sq⟩] },
   { off := 0x20, dims := [], wide := true, cls := .OPEN, shadowed := false, reset := .const 0x0, eff := .plain,
     fields := [⟨63, 32, .ro⟩, ⟨31, 0, .ro⟩] },
   { off := 0x28, dims := [], wide := true, cls := .OPEN, shadowed := false, reset := .const 0x0, eff := .plain,
     fields := [⟨63, 48, .ro⟩, ⟨47, 32, .ro⟩, ⟨31, 16, .ro⟩, ⟨15, 0, .ro⟩] },
   { off := 0x100, dims := [(16, 0x8)], wide := true, cls := .OPEN, shadowed := false, reset := .const 0x0, eff := .plain,
     fields := [⟨63, 61, .ro⟩, ⟨60, 59, .ro⟩, ⟨58, 56, .ro⟩, ⟨55, 52, .ro⟩, ⟨51, 48, .ro⟩, ⟨47, 32, .rsv⟩, ⟨31, 0, .ro⟩] },
   { off := 0x200, dims := [(16, 0x4)], wide := false, cls := .PRIV, shadowed := false, reset := .const 0x0, eff := .plain,
     fields := [⟨31, 0, .rw⟩] },
   { off := 0x300, dims := [(16, 0x8)], wide := true, cls := .OPEN, shadowed := false, reset := .const 0x0, eff := .plain,
     fields := [⟨63, 48, .ro⟩, ⟨47, 32, .ro⟩, ⟨31, 16, .ro⟩, ⟨15, 0, .ro⟩] },
   { off := 0x400, dims := [(16, 0x4)], wide := false, cls := .OPEN, shadowed := false, reset := .const 0x0, eff := .plain,
     fields := [⟨31, 30, .ro⟩, ⟨29, 20, .rsv⟩, ⟨19, 16, .ro⟩, ⟨15, 0, .ro⟩] },
   { off := 0x500, dims := [(16, 0x8)], wide := true, cls := .PRIV, shadowed := false, reset := .const 0x0, eff := .plain,
     fields := [⟨63, 40, .rsv⟩, ⟨39, 30, .rw⟩, ⟨29, 0, .ro⟩] } ]

/-- Registers of block BLT. -/
def rowsBLT : List RegRow :=
  [
   { off := 0x0, dims := [], wide := false, cls := .OPEN, shadowed := false, reset := .blockId, eff := .plain,
     fields := [⟨31, 16, .ro⟩, ⟨15, 8, .ro⟩, ⟨7, 0, .ro⟩] },
   { off := 0x4, dims := [], wide := false, cls := .PRIV, shadowed := false, reset := .const 0x0, eff := .plain,
     fields := [⟨31, 16, .sq⟩, ⟨15, 0, .sq⟩] },
   { off := 0x10, dims := [], wide := false, cls := .PRIV, shadowed := false, reset := .const 0x40000000, eff := .bltCtrl,
     fields := [⟨31, 31, .rw⟩, ⟨30, 30, .rw⟩, ⟨29, 0, .rsv⟩] },
   { off := 0x14, dims := [], wide := false, cls := .PRIV, shadowed := false, reset := .const 0x0, eff := .plain,
     fields := [⟨31, 16, .rsv⟩, ⟨15, 0, .rw⟩] },
   { off := 0x18, dims := [], wide := true, cls := .PRIV, shadowed := false, reset := .const 0x0, eff := .bltRingBase,
     fields := [⟨63, 40, .rsv⟩, ⟨39, 8, .rw⟩, ⟨7, 0, .ro⟩] },
   { off := 0x20, dims := [], wide := false, cls := .PRIV, shadowed := false, reset := .const 0x4, eff := .bltRingCfg,
     fields := [⟨31, 4, .rsv⟩, ⟨3, 0, .rw⟩] },
   { off := 0x24, dims := [], wide := false, cls := .PRIV, shadowed := false, reset := .const 0x0, eff := .bltProd,
     fields := [⟨31, 16, .rsv⟩, ⟨15, 0, .rw⟩] },
   { off := 0x28, dims := [], wide := false, cls := .OPEN, shadowed := false, reset := .const 0x0, eff := .plain,
     fields := [⟨31, 16, .rsv⟩, ⟨15, 0, .ro⟩] },
   { off := 0x2C, dims := [], wide := false, cls := .OPEN, shadowed := false, reset := .const 0x0, eff := .bltState,
     fields := [⟨31, 16, .ro⟩, ⟨15, 3, .rsv⟩, ⟨2, 0, .ro⟩] },
   { off := 0x30, dims := [], wide := false, cls := .PRIV, shadowed := false, reset := .const 0x0, eff := .bltResume,
     fields := [⟨31, 0, .wo⟩] },
   { off := 0x34, dims := [], wide := false, cls := .OPEN, shadowed := false, reset := .const 0x0, eff := .plain,
     fields := [⟨31, 16, .ro⟩, ⟨15, 8, .rsv⟩, ⟨7, 0, .ro⟩] },
   { off := 0x40, dims := [], wide := true, cls := .OPEN, shadowed := false, reset := .const 0x0, eff := .plain,
     fields := [⟨63, 32, .ro⟩, ⟨31, 0, .ro⟩] },
   { off := 0x48, dims := [], wide := true, cls := .OPEN, shadowed := false, reset := .const 0x0, eff := .plain,
     fields := [⟨63, 0, .ro⟩] } ]

/-- Registers of block CHECK. -/
def rowsCHECK : List RegRow :=
  [
   { off := 0x0, dims := [], wide := false, cls := .OPEN, shadowed := false, reset := .blockId, eff := .plain,
     fields := [⟨31, 16, .ro⟩, ⟨15, 8, .ro⟩, ⟨7, 0, .ro⟩] },
   { off := 0x4, dims := [], wide := false, cls := .PRIV, shadowed := false, reset := .const 0x0, eff := .plain,
     fields := [⟨31, 16, .sq⟩, ⟨15, 0, .sq⟩] },
   { off := 0x100, dims := [(16, 0x80)], wide := false, cls := .PRIV, shadowed := false, reset := .const 0x1FF0008, eff := .plain,
     fields := [⟨31, 24, .rw⟩, ⟨23, 16, .rw⟩, ⟨15, 13, .rsv⟩, ⟨12, 8, .rw⟩, ⟨7, 7, .rw⟩, ⟨6, 6, .rw⟩, ⟨5, 5, .rw⟩, ⟨4, 4, .rw⟩, ⟨3, 2, .rw⟩, ⟨1, 0, .rw⟩] },
   { off := 0x104, dims := [(16, 0x80)], wide := false, cls := .PRIV, shadowed := false, reset := .const 0x0, eff := .plain,
     fields := [⟨31, 16, .rw⟩, ⟨15, 0, .rw⟩] },
   { off := 0x108, dims := [(16, 0x80)], wide := false, cls := .PRIV, shadowed := false, reset := .const 0x10001, eff := .plain,
     fields := [⟨31, 16, .rw⟩, ⟨15, 0, .rw⟩] },
   { off := 0x110, dims := [(16, 0x80)], wide := true, cls := .PRIV, shadowed := false, reset := .const 0x0, eff := .sigExpect,
     fields := [⟨63, 0, .rw⟩] },
   { off := 0x118, dims := [(16, 0x80)], wide := false, cls := .OPEN, shadowed := false, reset := .const 0x0, eff := .plain,
     fields := [⟨31, 1, .rsv⟩, ⟨0, 0, .ro⟩] },
   { off := 0x120, dims := [(16, 0x80)], wide := true, cls := .OPEN, shadowed := false, reset := .const 0x0, eff := .plain,
     fields := [⟨63, 0, .ro⟩] },
   { off := 0x128, dims := [(16, 0x80)], wide := true, cls := .OPEN, shadowed := false, reset := .const 0x0, eff := .plain,
     fields := [⟨63, 63, .ro⟩, ⟨62, 48, .rsv⟩, ⟨47, 0, .ro⟩] },
   { off := 0x130, dims := [(16, 0x80)], wide := true, cls := .OPEN, shadowed := false, reset := .const 0x0, eff := .plain,
     fields := [⟨63, 0, .ro⟩] },
   { off := 0x138, dims := [(16, 0x80)], wide := true, cls := .OPEN, shadowed := false, reset := .const 0x0, eff := .plain,
     fields := [⟨63, 0, .ro⟩] },
   { off := 0x140, dims := [(16, 0x80)], wide := true, cls := .OPEN, shadowed := false, reset := .const 0x0, eff := .plain,
     fields := [⟨63, 63, .ro⟩, ⟨62, 48, .rsv⟩, ⟨47, 0, .ro⟩] },
   { off := 0x148, dims := [(16, 0x80)], wide := true, cls := .OPEN, shadowed := false, reset := .const 0x0, eff := .plain,
     fields := [⟨63, 32, .ro⟩, ⟨31, 16, .ro⟩, ⟨15, 0, .ro⟩] },
   { off := 0x1000, dims := [(4, 0x40)], wide := true, cls := .PRIV, shadowed := false, reset := .const 0x0, eff := .plain,
     fields := [⟨63, 40, .rsv⟩, ⟨39, 6, .rw⟩, ⟨5, 0, .ro⟩] },
   { off := 0x1008, dims := [(4, 0x40)], wide := false, cls := .PRIV, shadowed := false, reset := .const 0x40, eff := .plain,
     fields := [⟨31, 6, .rw⟩, ⟨5, 0, .ro⟩] },
   { off := 0x100C, dims := [(4, 0x40)], wide := false, cls := .PRIV, shadowed := false, reset := .const 0x2, eff := .plain,
     fields := [⟨31, 16, .rw⟩, ⟨15, 4, .rsv⟩, ⟨3, 3, .rw⟩, ⟨2, 2, .rw⟩, ⟨1, 0, .rw⟩] },
   { off := 0x1010, dims := [(4, 0x40)], wide := false, cls := .PRIV, shadowed := false, reset := .const 0x0, eff := .mcuGo,
     fields := [⟨31, 0, .wo⟩] },
   { off := 0x1018, dims := [(4, 0x40)], wide := true, cls := .PRIV, shadowed := false, reset := .const 0x0, eff := .mcuExpect,
     fields := [⟨63, 0, .rw⟩] },
   { off := 0x1020, dims := [(4, 0x40)], wide := true, cls := .OPEN, shadowed := false, reset := .const 0x0, eff := .plain,
     fields := [⟨63, 0, .ro⟩] },
   { off := 0x1028, dims := [(4, 0x40)], wide := false, cls := .OPEN, shadowed := false, reset := .const 0x0, eff := .plain,
     fields := [⟨31, 16, .ro⟩, ⟨15, 8, .rsv⟩, ⟨7, 4, .ro⟩, ⟨3, 3, .rsv⟩, ⟨2, 2, .ro⟩, ⟨1, 0, .ro⟩] } ]

/-- Registers of block MC. -/
def rowsMC : List RegRow :=
  [
   { off := 0x0, dims := [], wide := false, cls := .OPEN, shadowed := false, reset := .blockId, eff := .plain,
     fields := [⟨31, 16, .ro⟩, ⟨15, 8, .ro⟩, ⟨7, 0, .ro⟩] },
   { off := 0x4, dims := [], wide := false, cls := .PRIV, shadowed := false, reset := .const 0x0, eff := .plain,
     fields := [⟨31, 16, .sq⟩, ⟨15, 0, .sq⟩] },
   { off := 0x10, dims := [], wide := false, cls := .OPEN, shadowed := false, reset := .const 0x0, eff := .plain,
     fields := [⟨31, 12, .rsv⟩, ⟨11, 10, .ro⟩, ⟨9, 9, .ro⟩, ⟨8, 8, .ro⟩, ⟨7, 7, .ro⟩, ⟨6, 3, .rsv⟩, ⟨2, 0, .ro⟩] },
   { off := 0x14, dims := [], wide := false, cls := .PRIV, shadowed := false, reset := .const 0xC412, eff := .plain,
     fields := [⟨31, 16, .rsv⟩, ⟨15, 12, .rw⟩, ⟨11, 8, .rw⟩, ⟨7, 4, .rw⟩, ⟨3, 0, .rw⟩] },
   { off := 0x18, dims := [], wide := false, cls := .PRIV, shadowed := false, reset := .const 0xC6402864, eff := .plain,
     fields := [⟨31, 31, .rw⟩, ⟨30, 30, .rw⟩, ⟨29, 20, .rw⟩, ⟨19, 10, .rw⟩, ⟨9, 0, .rw⟩] },
   { off := 0x20, dims := [], wide := false, cls := .OPEN, shadowed := false, reset := .const 0x0, eff := .plain,
     fields := [⟨31, 16, .ro⟩, ⟨15, 0, .ro⟩] },
   { off := 0x24, dims := [], wide := false, cls := .OPEN, shadowed := false, reset := .const 0x0, eff := .plain,
     fields := [⟨31, 16, .ro⟩, ⟨15, 0, .ro⟩] },
   { off := 0x28, dims := [], wide := false, cls := .OPEN, shadowed := false, reset := .const 0xFFFFFFFF, eff := .plain,
     fields := [⟨31, 0, .ro⟩] },
   { off := 0x2C, dims := [], wide := false, cls := .SECURE, shadowed := false, reset := .const 0x0, eff := .mcRefresh,
     fields := [⟨31, 1, .rsv⟩, ⟨0, 0, .rw⟩] },
   { off := 0x30, dims := [], wide := false, cls := .PRIV, shadowed := false, reset := .const 0x80000018, eff := .plain,
     fields := [⟨31, 31, .rw⟩, ⟨30, 8, .rsv⟩, ⟨7, 0, .rw⟩] },
   { off := 0x38, dims := [], wide := true, cls := .OPEN, shadowed := false, reset := .const 0x0, eff := .plain,
     fields := [⟨63, 32, .ro⟩, ⟨31, 16, .ro⟩, ⟨15, 8, .ro⟩, ⟨7, 0, .ro⟩] },
   { off := 0x40, dims := [], wide := true, cls := .OPEN, shadowed := false, reset := .const 0x0, eff := .plain,
     fields := [⟨63, 63, .ro⟩, ⟨62, 62, .ro⟩, ⟨61, 40, .rsv⟩, ⟨39, 0, .ro⟩] },
   { off := 0x48, dims := [], wide := true, cls := .OPEN, shadowed := false, reset := .const 0x0, eff := .mcResidency,
     fields := [⟨63, 32, .ro⟩, ⟨31, 0, .ro⟩] } ]

/-- Registers of block SLAB. -/
def rowsSLAB : List RegRow :=
  [
   { off := 0x0, dims := [], wide := false, cls := .OPEN, shadowed := false, reset := .blockId, eff := .plain,
     fields := [⟨31, 16, .ro⟩, ⟨15, 8, .ro⟩, ⟨7, 0, .ro⟩] },
   { off := 0x4, dims := [], wide := false, cls := .PRIV, shadowed := false, reset := .const 0x0, eff := .plain,
     fields := [⟨31, 16, .sq⟩, ⟨15, 0, .sq⟩] },
   { off := 0x10, dims := [], wide := false, cls := .PRIV, shadowed := false, reset := .const 0x800003E8, eff := .plain,
     fields := [⟨31, 31, .rw⟩, ⟨30, 16, .rsv⟩, ⟨15, 0, .rw⟩] },
   { off := 0x18, dims := [], wide := true, cls := .OPEN, shadowed := false, reset := .const 0x0, eff := .plain,
     fields := [⟨63, 32, .ro⟩, ⟨31, 0, .ro⟩] },
   { off := 0x20, dims := [], wide := true, cls := .OPEN, shadowed := false, reset := .const 0x0, eff := .plain,
     fields := [⟨63, 63, .ro⟩, ⟨62, 60, .ro⟩, ⟨59, 28, .rsv⟩, ⟨27, 0, .ro⟩] } ]

/-- Registers of block APPCX, part 0. -/
def rowsAPPCX0 : List RegRow :=
  [
   { off := 0x0, dims := [], wide := false, cls := .OPEN, shadowed := false, reset := .blockId, eff := .plain,
     fields := [⟨31, 16, .ro⟩, ⟨15, 8, .ro⟩, ⟨7, 0, .ro⟩] },
   { off := 0x4, dims := [], wide := false, cls := .PRIV, shadowed := false, reset := .const 0x0, eff := .plain,
     fields := [⟨31, 16, .sq⟩, ⟨15, 0, .sq⟩] },
   { off := 0x10, dims := [], wide := false, cls := .SECURE, shadowed := false, reset := .const 0x0, eff := .appcxCoreCtrl,
     fields := [⟨31, 8, .rsv⟩, ⟨7, 0, .rw⟩] },
   { off := 0x14, dims := [], wide := false, cls := .OPEN, shadowed := false, reset := .const 0x0, eff := .plain,
     fields := [⟨31, 16, .rsv⟩, ⟨15, 8, .ro⟩, ⟨7, 0, .ro⟩] },
   { off := 0x18, dims := [], wide := true, cls := .SECURE, shadowed := false, reset := .const 0xFF00000000, eff := .plain,
     fields := [⟨63, 40, .rsv⟩, ⟨39, 2, .rw⟩, ⟨1, 0, .ro⟩] },
   { off := 0x20, dims := [], wide := false, cls := .OPEN, shadowed := false, reset := .const 0x960, eff := .coreClk,
     fields := [⟨31, 16, .rsv⟩, ⟨15, 0, .ro⟩] },
   { off := 0x100, dims := [(8, 0x8)], wide := true, cls := .PRIV, shadowed := false, reset := .const 0xFFFFFFFFFFFFFFFF, eff := .mtimecmp,
     fields := [⟨63, 0, .rw⟩] },
   { off := 0x1004, dims := [(255, 0x4)], wide := false, cls := .PRIV, shadowed := false, reset := .const 0x0, eff := .plain,
     fields := [⟨31, 3, .rsv⟩, ⟨2, 0, .rw⟩] },
   { off := 0x1800, dims := [(8, 0x4)], wide := false, cls := .OPEN, shadowed := false, reset := .const 0x0, eff := .plicPending,
     fields := [⟨31, 0, .ro⟩] },
   { off := 0x2000, dims := [(16, 0x20), (8, 0x4)], wide := false, cls := .PRIV, shadowed := false, reset := .const 0x0, eff := .plain,
     fields := [⟨31, 0, .rw⟩] },
   { off := 0x2200, dims := [(8, 0x4)], wide := false, cls := .SECURE, shadowed := false, reset := .const 0x0, eff := .plain,
     fields := [⟨31, 0, .rw⟩] },
   { off := 0x3000, dims := [(16, 0x10)], wide := false, cls := .PRIV, shadowed := false, reset := .const 0x0, eff := .plain,
     fields := [⟨31, 3, .rsv⟩, ⟨2, 0, .rw⟩] },
   { off := 0x3100, dims := [], wide := false, cls := .SECURE, shadowed := false, reset := .const 0x0, eff := .plain,
     fields := [⟨31, 3, .rsv⟩, ⟨2, 0, .rw⟩] },
   { off := 0x3004, dims := [(16, 0x10)], wide := false, cls := .PRIV, shadowed := false, reset := .const 0x0, eff := .plicClaim,
     fields := [⟨31, 8, .rsv⟩, ⟨7, 0, .rw⟩] },
   { off := 0x3104, dims := [], wide := false, cls := .SECURE, shadowed := false, reset := .const 0x0, eff := .plicClaimK,
     fields := [⟨31, 8, .rsv⟩, ⟨7, 0, .rw⟩] },
   { off := 0x8000, dims := [(2, 0x400)], wide := false, cls := .PRIV, shadowed := false, reset := .const 0x32000000, eff := .mmacCfg,
     fields := [⟨31, 31, .rw⟩, ⟨30, 30, .rw⟩, ⟨29, 29, .rw⟩, ⟨28, 27, .rw⟩, ⟨26, 26, .rw⟩, ⟨25, 25, .rw⟩, ⟨24, 24, .rw⟩, ⟨23, 23, .rw⟩, ⟨22, 0, .rsv⟩] },
   { off := 0x8008, dims := [(2, 0x400)], wide := true, cls := .PRIV, shadowed := false, reset := .const 0x0, eff := .plain,
     fields := [⟨63, 48, .rsv⟩, ⟨47, 0, .rw⟩] },
   { off := 0x8010, dims := [(2, 0x400)], wide := false, cls := .PRIV, shadowed := false, reset := .const 0x0, eff := .plain,
     fields := [⟨31, 16, .sq⟩, ⟨15, 0, .sq⟩] },
   { off := 0x8014, dims := [(2, 0x400)], wide := false, cls := .OPEN, shadowed := false, reset := .const 0x0, eff := .plain,
     fields := [⟨31, 31, .ro⟩, ⟨30, 30, .ro⟩, ⟨29, 28, .ro⟩, ⟨27, 0, .rsv⟩] },
   { off := 0x8020, dims := [(2, 0x400)], wide := true, cls := .PRIV, shadowed := false, reset := .const 0x0, eff := .mmacRing,
     fields := [⟨63, 40, .rsv⟩, ⟨39, 8, .rw⟩, ⟨7, 0, .ro⟩] },
   { off := 0x8028, dims := [(2, 0x400)], wide := false, cls := .PRIV, shadowed := false, reset := .const 0x10, eff := .mmacRing,
     fields := [⟨31, 31, .rw⟩, ⟨30, 11, .rsv⟩, ⟨10, 0, .rw⟩] },
   { off := 0x802C, dims := [(2, 0x400)], wide := false, cls := .OPEN, shadowed := false, reset := .const 0x0, eff := .plain,
     fields := [⟨31, 0, .ro⟩] },
   { off := 0x8030, dims := [(2, 0x400)], wide := false, cls := .PRIV, shadowed := false, reset := .const 0x0, eff := .plain,
     fields := [⟨31, 0, .rw⟩] },
   { off := 0x8038, dims := [(2, 0x400)], wide := true, cls := .PRIV, shadowed := false, reset := .const 0x0, eff := .mmacRing,
     fields := [⟨63, 40, .rsv⟩, ⟨39, 8, .rw⟩, ⟨7, 0, .ro⟩] },
   { off := 0x8040, dims := [(2, 0x400)], wide := false, cls := .PRIV, shadowed := false, reset := .const 0x10, eff := .mmacRing,
     fields := [⟨31, 31, .rw⟩, ⟨30, 11, .rsv⟩, ⟨10, 0, .rw⟩] },
   { off := 0x8044, dims := [(2, 0x400)], wide := false, cls := .PRIV, shadowed := false, reset := .const 0x0, eff := .mmacTxProd,
     fields := [⟨31, 0, .rw⟩] },
   { off := 0x8048, dims := [(2, 0x400)], wide := false, cls := .OPEN, shadowed := false, reset := .const 0x0, eff := .plain,
     fields := [⟨31, 0, .ro⟩] },
   { off := 0x8050, dims := [(2, 0x400)], wide := true, cls := .OPEN, shadowed := false, reset := .const 0x0, eff := .plain,
     fields := [⟨63, 32, .ro⟩, ⟨31, 16, .ro⟩, ⟨15, 0, .ro⟩] },
   { off := 0x8058, dims := [(2, 0x400)], wide := true, cls := .OPEN, shadowed := false, reset := .const 0x0, eff := .plain,
     fields := [⟨63, 0, .ro⟩] },
   { off := 0x8060, dims := [(2, 0x400)], wide := false, cls := .OPEN, shadowed := false, reset := .const 0x0, eff := .plain,
     fields := [⟨31, 16, .ro⟩, ⟨15, 0, .ro⟩] },
   { off := 0x8800, dims := [], wide := false, cls := .PRIV, shadowed := false, reset := .const 0x5, eff := .plain,
     fields := [⟨31, 8, .rsv⟩, ⟨7, 0, .rw⟩] },
   { off := 0x8804, dims := [], wide := false, cls := .PRIV, shadowed := false, reset := .const 0x0, eff := .mdioCmd,
     fields := [⟨31, 30, .wo⟩, ⟨29, 29, .wo⟩, ⟨28, 24, .wo⟩, ⟨23, 19, .wo⟩, ⟨18, 16, .rsv⟩, ⟨15, 0, .wo⟩] },
   { off := 0x8808, dims := [], wide := false, cls := .OPEN, shadowed := false, reset := .const 0x0, eff := .plain,
     fields := [⟨31, 31, .ro⟩, ⟨30, 30, .ro⟩, ⟨29, 16, .rsv⟩, ⟨15, 0, .ro⟩] },
   { off := 0x9000, dims := [], wide := false, cls := .PRIV, shadowed := false, reset := .const 0x0, eff := .uartTx,
     fields := [⟨31, 8, .rsv⟩, ⟨7, 0, .wo⟩] },
   { off := 0x9004, dims := [], wide := false, cls := .PRIV, shadowed := false, reset := .const 0x0, eff := .uartRx,
     fields := [⟨31, 31, .ro⟩, ⟨30, 8, .rsv⟩, ⟨7, 0, .ro⟩] },
   { off := 0x9008, dims := [], wide := false, cls := .PRIV, shadowed := false, reset := .const 0xD90001, eff := .plain,
     fields := [⟨31, 16, .rw⟩, ⟨15, 15, .rw⟩, ⟨14, 14, .rw⟩, ⟨13, 6, .rsv⟩, ⟨5, 0, .rw⟩] },
   { off := 0x900C, dims := [], wide := false, cls := .PRIV, shadowed := false, reset := .const 0x0, eff := .plain,
     fields := [⟨31, 16, .sq⟩, ⟨15, 0, .sq⟩] },
   { off := 0x9010, dims := [], wide := false, cls := .OPEN, shadowed := false, reset := .const 0x0, eff := .plain,
     fields := [⟨31, 23, .rsv⟩, ⟨22, 16, .ro⟩, ⟨15, 7, .rsv⟩, ⟨6, 0, .ro⟩] },
   { off := 0x9100, dims := [], wide := false, cls := .PRIV, shadowed := false, reset := .const 0x0, eff := .plain,
     fields := [⟨31, 0, .rw⟩] },
   { off := 0x9104, dims := [], wide := false, cls := .PRIV, shadowed := false, reset := .const 0x0, eff := .plain,
     fields := [⟨31, 0, .rw⟩] } ]

/-- Registers of block APPCX, part 1. -/
def rowsAPPCX1 : List RegRow :=
  [
   { off := 0x9108, dims := [], wide := false, cls := .OPEN, shadowed := false, reset := .const 0x0, eff := .plain,
     fields := [⟨31, 0, .ro⟩] },
   { off := 0x910C, dims := [], wide := false, cls := .PRIV, shadowed := false, reset := .const 0xFFFFFFFF, eff := .plain,
     fields := [⟨31, 0, .rw⟩] },
   { off := 0x9110, dims := [], wide := false, cls := .PRIV, shadowed := false, reset := .const 0x0, eff := .plain,
     fields := [⟨31, 0, .rw⟩] },
   { off := 0x9114, dims := [], wide := false, cls := .PRIV, shadowed := false, reset := .const 0x0, eff := .plain,
     fields := [⟨31, 0, .rw⟩] },
   { off := 0x9118, dims := [], wide := false, cls := .PRIV, shadowed := false, reset := .const 0xFFFFFFFF, eff := .plain,
     fields := [⟨31, 0, .rw⟩] },
   { off := 0x911C, dims := [], wide := false, cls := .OPEN, shadowed := false, reset := .const 0x0, eff := .plain,
     fields := [⟨31, 0, .ro⟩] },
   { off := 0x9120, dims := [], wide := false, cls := .PRIV, shadowed := false, reset := .const 0x0, eff := .gpioIntAck,
     fields := [⟨31, 0, .wo⟩] },
   { off := 0x9200, dims := [(2, 0x80)], wide := false, cls := .PRIV, shadowed := false, reset := .const 0x0, eff := .plain,
     fields := [⟨31, 2, .rsv⟩, ⟨1, 0, .rw⟩] },
   { off := 0x9204, dims := [(2, 0x80)], wide := false, cls := .PRIV, shadowed := false, reset := .const 0x0, eff := .i2cXfer,
     fields := [⟨31, 25, .rsv⟩, ⟨24, 20, .wo⟩, ⟨19, 15, .wo⟩, ⟨14, 7, .rsv⟩, ⟨6, 0, .wo⟩] },
   { off := 0x9208, dims := [(2, 0x80)], wide := false, cls := .OPEN, shadowed := false, reset := .const 0x0, eff := .plain,
     fields := [⟨31, 31, .ro⟩, ⟨30, 28, .ro⟩, ⟨27, 21, .rsv⟩, ⟨20, 16, .ro⟩, ⟨15, 0, .rsv⟩] },
   { off := 0x920C, dims := [(2, 0x80)], wide := false, cls := .PRIV, shadowed := false, reset := .const 0x0, eff := .plain,
     fields := [⟨31, 16, .sq⟩, ⟨15, 0, .sq⟩] },
   { off := 0x9210, dims := [(2, 0x80), (4, 0x4)], wide := false, cls := .PRIV, shadowed := false, reset := .const 0x0, eff := .plain,
     fields := [⟨31, 0, .rw⟩] },
   { off := 0x9400, dims := [], wide := false, cls := .PRIV, shadowed := false, reset := .const 0x1, eff := .plain,
     fields := [⟨31, 4, .rsv⟩, ⟨3, 0, .rw⟩] },
   { off := 0x9404, dims := [], wide := false, cls := .PRIV, shadowed := false, reset := .const 0x0, eff := .plain,
     fields := [⟨31, 0, .rw⟩] },
   { off := 0x9408, dims := [], wide := false, cls := .PRIV, shadowed := false, reset := .const 0x0, eff := .spiCmd,
     fields := [⟨31, 31, .wo⟩, ⟨30, 30, .wo⟩, ⟨29, 29, .wo⟩, ⟨28, 28, .rsv⟩, ⟨27, 26, .wo⟩, ⟨25, 21, .wo⟩, ⟨20, 17, .rsv⟩, ⟨16, 8, .wo⟩, ⟨7, 0, .wo⟩] },
   { off := 0x940C, dims := [], wide := false, cls := .PRIV, shadowed := false, reset := .const 0x0, eff := .plain,
     fields := [⟨31, 16, .sq⟩, ⟨15, 0, .sq⟩] },
   { off := 0x9410, dims := [], wide := false, cls := .OPEN, shadowed := false, reset := .const 0x0, eff := .plain,
     fields := [⟨31, 31, .ro⟩, ⟨30, 0, .rsv⟩] },
   { off := 0x9500, dims := [(64, 0x4)], wide := false, cls := .PRIV, shadowed := false, reset := .const 0x0, eff := .plain,
     fields := [⟨31, 0, .rw⟩] } ]

/-- Registers of block MAILBOX. -/
def rowsMAILBOX : List RegRow :=
  [
   { off := 0x0, dims := [], wide := false, cls := .OPEN, shadowed := false, reset := .blockId, eff := .plain,
     fields := [⟨31, 16, .ro⟩, ⟨15, 8, .ro⟩, ⟨7, 0, .ro⟩] },
   { off := 0x4, dims := [], wide := false, cls := .PRIV, shadowed := false, reset := .const 0x0, eff := .plain,
     fields := [⟨31, 16, .sq⟩, ⟨15, 0, .sq⟩] },
   { off := 0x10, dims := [], wide := false, cls := .SECURE, shadowed := false, reset := .const 0x0, eff := .mbBindLock,
     fields := [⟨31, 1, .rsv⟩, ⟨0, 0, .wo1⟩] },
   { off := 0x20, dims := [], wide := false, cls := .OPEN, shadowed := false, reset := .const 0x0, eff := .plain,
     fields := [⟨31, 24, .ro⟩, ⟨23, 21, .rsv⟩, ⟨20, 16, .ro⟩, ⟨15, 6, .rsv⟩, ⟨5, 0, .ro⟩] },
   { off := 0x100, dims := [(64, 0x4)], wide := false, cls := .SECURE, shadowed := false, reset := .const 0x0, eff := .mbBind,
     fields := [⟨31, 16, .rw⟩, ⟨15, 15, .rw⟩, ⟨14, 13, .rsv⟩, ⟨12, 8, .rw⟩, ⟨7, 5, .rsv⟩, ⟨4, 0, .rw⟩] },
   { off := 0x400, dims := [(18, 0x8)], wide := true, cls := .OPEN, shadowed := false, reset := .const 0x0, eff := .plain,
     fields := [⟨63, 0, .ro⟩] },
   { off := 0x500, dims := [(18, 0x8)], wide := true, cls := .OPEN, shadowed := false, reset := .const 0x0, eff := .plain,
     fields := [⟨63, 0, .ro⟩] },
   { off := 0x1000, dims := [(64, 0x80), (16, 0x4)], wide := false, cls := .OPEN, shadowed := false, reset := .const 0x0, eff := .mbMsg,
     fields := [⟨31, 0, .rw⟩] },
   { off := 0x1040, dims := [(64, 0x80)], wide := false, cls := .OPEN, shadowed := false, reset := .const 0x0, eff := .mbSend,
     fields := [⟨31, 21, .rsv⟩, ⟨20, 16, .wo⟩, ⟨15, 0, .wo⟩] },
   { off := 0x1044, dims := [(64, 0x80)], wide := false, cls := .OPEN, shadowed := false, reset := .const 0x0, eff := .mbAck,
     fields := [⟨31, 16, .wo⟩, ⟨15, 0, .wo⟩] },
   { off := 0x1048, dims := [(64, 0x80)], wide := false, cls := .OPEN, shadowed := false, reset := .const 0x0, eff := .plain,
     fields := [⟨31, 16, .ro⟩, ⟨15, 0, .ro⟩] },
   { off := 0x104C, dims := [(64, 0x80)], wide := false, cls := .OPEN, shadowed := false, reset := .const 0x0, eff := .plain,
     fields := [⟨31, 30, .ro⟩, ⟨29, 29, .ro⟩, ⟨28, 28, .ro⟩, ⟨27, 23, .ro⟩, ⟨22, 18, .ro⟩, ⟨17, 13, .ro⟩, ⟨12, 0, .rsv⟩] },
   { off := 0x1050, dims := [(64, 0x80)], wide := false, cls := .OPEN, shadowed := false, reset := .const 0x0, eff := .mbDone,
     fields := [⟨31, 0, .wo⟩] },
   { off := 0x1054, dims := [(64, 0x80)], wide := false, cls := .OPEN, shadowed := false, reset := .const 0x0, eff := .plain,
     fields := [⟨31, 16, .ro⟩, ⟨15, 0, .ro⟩] } ]

/-- Registers of block DEBUG. -/
def rowsDEBUG : List RegRow :=
  [
   { off := 0x0, dims := [], wide := false, cls := .OPEN, shadowed := false, reset := .blockId, eff := .plain,
     fields := [⟨31, 16, .ro⟩, ⟨15, 8, .ro⟩, ⟨7, 0, .ro⟩] },
   { off := 0x4, dims := [], wide := false, cls := .PRIV, shadowed := false, reset := .const 0x0, eff := .plain,
     fields := [⟨31, 16, .sq⟩, ⟨15, 0, .sq⟩] },
   { off := 0x10, dims := [], wide := false, cls := .SECURE, shadowed := false, reset := .const 0xC00000FF, eff := .dbgCtrl,
     fields := [⟨31, 31, .rw⟩, ⟨30, 30, .rw⟩, ⟨29, 8, .rsv⟩, ⟨7, 0, .rw⟩] },
   { off := 0x14, dims := [], wide := false, cls := .SECURE, shadowed := false, reset := .const 0x0, eff := .dbgLock,
     fields := [⟨31, 1, .rsv⟩, ⟨0, 0, .wo1⟩] },
   { off := 0x18, dims := [], wide := false, cls := .OPEN, shadowed := false, reset := .const 0x0, eff := .plain,
     fields := [⟨31, 31, .ro⟩, ⟨30, 8, .rsv⟩, ⟨7, 0, .ro⟩] } ]

/-- Registers of block NVM. -/
def rowsNVM : List RegRow :=
  [
   { off := 0x0, dims := [], wide := false, cls := .OPEN, shadowed := false, reset := .blockId, eff := .plain,
     fields := [⟨31, 16, .ro⟩, ⟨15, 8, .ro⟩, ⟨7, 0, .ro⟩] },
   { off := 0x4, dims := [], wide := false, cls := .PRIV, shadowed := false, reset := .const 0x0, eff := .plain,
     fields := [⟨31, 16, .sq⟩, ⟨15, 0, .sq⟩] },
   { off := 0x8, dims := [], wide := false, cls := .OPEN, shadowed := false, reset := .const 0x0, eff := .plain,
     fields := [⟨31, 0, .ro⟩] },
   { off := 0x10, dims := [], wide := false, cls := .SECURE, shadowed := false, reset := .const 0x0, eff := .nvmKey,
     fields := [⟨31, 16, .rsv⟩, ⟨15, 0, .wo⟩] },
   { off := 0x14, dims := [], wide := false, cls := .SECURE, shadowed := false, reset := .const 0x0, eff := .nvmStore,
     fields := [⟨31, 8, .rsv⟩, ⟨7, 0, .wo⟩] },
   { off := 0x18, dims := [], wide := false, cls := .PRIV, shadowed := false, reset := .const 0x0, eff := .plain,
     fields := [⟨31, 30, .mr⟩, ⟨29, 24, .rsv⟩, ⟨23, 16, .mr⟩, ⟨15, 8, .rsv⟩, ⟨7, 0, .mr⟩] },
   { off := 0x1C, dims := [], wide := false, cls := .SECURE, shadowed := false, reset := .const 0x0, eff := .nvmReadSel,
     fields := [⟨31, 7, .rsv⟩, ⟨6, 0, .rw⟩] },
   { off := 0x20, dims := [], wide := false, cls := .PRIV, shadowed := false, reset := .const 0x10000000, eff := .plain,
     fields := [⟨31, 28, .mr⟩, ⟨27, 20, .mr⟩, ⟨19, 18, .mr⟩, ⟨17, 16, .mr⟩, ⟨15, 15, .mr⟩, ⟨14, 13, .mr⟩, ⟨12, 0, .rsv⟩] },
   { off := 0x24, dims := [], wide := false, cls := .PRIV, shadowed := false, reset := .const 0x1, eff := .plain,
     fields := [⟨31, 16, .mr⟩, ⟨15, 8, .rsv⟩, ⟨7, 0, .mr⟩] },
   { off := 0x28, dims := [], wide := false, cls := .PRIV, shadowed := false, reset := .const 0x0, eff := .plain,
     fields := [⟨31, 0, .mr⟩] },
   { off := 0x2C, dims := [], wide := false, cls := .SECURE, shadowed := false, reset := .const 0x0, eff := .resetCtrl,
     fields := [⟨31, 16, .wo⟩, ⟨15, 2, .rsv⟩, ⟨1, 0, .wo⟩] },
   { off := 0x30, dims := [], wide := false, cls := .SECURE, shadowed := false, reset := .const 0x3E8, eff := .plain,
     fields := [⟨31, 31, .mr⟩, ⟨30, 16, .rsv⟩, ⟨15, 0, .mr⟩] },
   { off := 0x34, dims := [], wide := false, cls := .SECURE, shadowed := false, reset := .const 0x0, eff := .kwdtKick,
     fields := [⟨31, 0, .wo⟩] },
   { off := 0x400, dims := [(128, 0x4)], wide := false, cls := .PRIV, shadowed := false, reset := .const 0x0, eff := .plain,
     fields := [⟨31, 17, .rsv⟩, ⟨16, 0, .mr⟩] } ]

/-- Registers of block POWER. -/
def rowsPOWER : List RegRow :=
  [
   { off := 0x0, dims := [], wide := false, cls := .OPEN, shadowed := false, reset := .blockId, eff := .plain,
     fields := [⟨31, 16, .ro⟩, ⟨15, 8, .ro⟩, ⟨7, 0, .ro⟩] },
   { off := 0x4, dims := [], wide := false, cls := .PRIV, shadowed := false, reset := .const 0x0, eff := .plain,
     fields := [⟨31, 16, .sq⟩, ⟨15, 0, .sq⟩] },
   { off := 0x8, dims := [], wide := false, cls := .OPEN, shadowed := false, reset := .const 0x0, eff := .plain,
     fields := [⟨31, 0, .ro⟩] },
   { off := 0x10, dims := [], wide := false, cls := .OPEN, shadowed := false, reset := .const 0x0, eff := .plain,
     fields := [⟨31, 16, .mr⟩, ⟨15, 4, .rsv⟩, ⟨3, 3, .mr⟩, ⟨2, 2, .mr⟩, ⟨1, 0, .mr⟩] },
   { off := 0x14, dims := [], wide := false, cls := .OPEN, shadowed := false, reset := .const 0x0, eff := .plain,
     fields := [⟨31, 16, .mr⟩, ⟨15, 0, .mr⟩] },
   { off := 0x18, dims := [], wide := false, cls := .OPEN, shadowed := false, reset := .const 0x0, eff := .plain,
     fields := [⟨31, 8, .rsv⟩, ⟨7, 0, .mr⟩] },
   { off := 0x1C, dims := [], wide := false, cls := .OPEN, shadowed := false, reset := .const 0x1, eff := .plain,
     fields := [⟨31, 5, .rsv⟩, ⟨4, 4, .mr⟩, ⟨3, 3, .mr⟩, ⟨2, 2, .mr⟩, ⟨1, 1, .mr⟩, ⟨0, 0, .mr⟩] },
   { off := 0x20, dims := [], wide := false, cls := .SECURE, shadowed := false, reset := .const 0x3206E64, eff := .plain,
     fields := [⟨31, 16, .mr⟩, ⟨15, 8, .mr⟩, ⟨7, 0, .mr⟩] },
   { off := 0x24, dims := [], wide := false, cls := .SECURE, shadowed := false, reset := .const 0xBB8FA00A, eff := .plain,
     fields := [⟨31, 21, .mr⟩, ⟨20, 10, .mr⟩, ⟨9, 0, .mr⟩] },
   { off := 0x28, dims := [], wide := false, cls := .OPEN, shadowed := false, reset := .const 0x0, eff := .plain,
     fields := [⟨31, 16, .mr⟩, ⟨15, 0, .mr⟩] },
   { off := 0x30, dims := [], wide := false, cls := .SECURE, shadowed := false, reset := .const 0x6469, eff := .plain,
     fields := [⟨31, 16, .rsv⟩, ⟨15, 8, .mr⟩, ⟨7, 0, .mr⟩] },
   { off := 0x40, dims := [(16, 0x4)], wide := false, cls := .OPEN, shadowed := false, reset := .const 0x0, eff := .plain,
     fields := [⟨31, 16, .rsv⟩, ⟨15, 0, .mr⟩] },
   { off := 0x80, dims := [], wide := true, cls := .OPEN, shadowed := false, reset := .const 0x0, eff := .plain,
     fields := [⟨63, 48, .mr⟩, ⟨47, 32, .mr⟩, ⟨31, 0, .mr⟩] },
   { off := 0x100, dims := [(8, 0x8)], wide := true, cls := .OPEN, shadowed := false, reset := .const 0x0, eff := .plain,
     fields := [⟨63, 0, .mr⟩] },
   { off := 0x140, dims := [], wide := true, cls := .OPEN, shadowed := false, reset := .const 0x0, eff := .plain,
     fields := [⟨63, 0, .mr⟩] },
   { off := 0x148, dims := [], wide := true, cls := .OPEN, shadowed := false, reset := .const 0x0, eff := .plain,
     fields := [⟨63, 0, .mr⟩] },
   { off := 0x180, dims := [], wide := false, cls := .PRIV, shadowed := false, reset := .const 0x0, eff := .pwrSnap,
     fields := [⟨31, 0, .wo⟩] },
   { off := 0x188, dims := [], wide := true, cls := .OPEN, shadowed := false, reset := .const 0x0, eff := .plain,
     fields := [⟨63, 0, .mr⟩] },
   { off := 0x190, dims := [], wide := true, cls := .OPEN, shadowed := false, reset := .const 0x0, eff := .plain,
     fields := [⟨63, 0, .mr⟩] },
   { off := 0x198, dims := [], wide := true, cls := .OPEN, shadowed := false, reset := .const 0x0, eff := .plain,
     fields := [⟨63, 56, .mr⟩, ⟨55, 0, .mr⟩] } ]

/-- The blocks (R38): index of instance 0, number of instances, registers. -/
def blockTable : List BlockRow :=
  [
   { first := 0x0, count := 1, rows := rowsSYS },
   { first := 0xC8, count := 1, rows := rowsMASTERS },
   { first := 0x1, count := 1, rows := rowsINGOT },
   { first := 0x3, count := 1, rows := rowsTIMEBASE },
   { first := 0x4, count := 1, rows := rowsCUE },
   { first := 0x10, count := 32, rows := rowsLE },
   { first := 0x38, count := 1, rows := rowsMESH },
   { first := 0x30, count := 8, rows := rowsBC },
   { first := 0x40, count := 16, rows := rowsORS },
   { first := 0x60, count := 32, rows := rowsPQ0 ++ rowsPQ1 },
   { first := 0x80, count := 1, rows := rowsCRUCIBLE },
   { first := 0x81, count := 1, rows := rowsINGEST },
   { first := 0x88, count := 1, rows := rowsCHAIN },
   { first := 0x90, count := 4, rows := rowsBLT },
   { first := 0x98, count := 1, rows := rowsCHECK },
   { first := 0xA0, count := 16, rows := rowsMC },
   { first := 0xB0, count := 1, rows := rowsSLAB },
   { first := 0xE0, count := 1, rows := rowsAPPCX0 ++ rowsAPPCX1 },
   { first := 0xC0, count := 1, rows := rowsMAILBOX },
   { first := 0xF0, count := 1, rows := rowsDEBUG },
   { first := 0x2, count := 1, rows := rowsNVM },
   { first := 0xD0, count := 1, rows := rowsPOWER } ]

end Sys2Proof.Machine
end

