-- ==== Sys2Proof/Config.lean ====
section
/-! DEFINITION. The values the manual leaves open, as constants without a body: nothing can evaluate them, so a
statement that holds of this model holds whatever they are. -/

namespace Sys2Proof

/-- FREE VALUE (log entry 4). The n-th open value the machine takes: an undefined or unstated number. The index is
the counter State.free, which every use advances. -/
opaque Config.freeValue : Nat → Nat

/-- FREE VALUE (R49, log entry 7). What an RSV field holds after a write of another value than it held: of the register's
address, the field's old value and the value written. -/
opaque Config.reservedValue : Nat → Nat → Nat → Nat

end Sys2Proof
end

