-- ==== Sys2Proof/Machine/State.lean ====
section
/-! DEFINITION. The state of the part as plain data, its faults and refusals, and the state right after reset. -/

namespace Sys2Proof.Machine

/-- Sparse data by key: pairs in strictly rising order of key. -/
abbrev Tab (α : Type) := List (Nat × α)

/-- How an access ended (R42, R45). -/
inductive RespKind where
  | none      -- no access yet
  | done      -- served
  | denied    -- without sufficient class
  | busError  -- with the cause code of R45
  | waiting   -- on its way: queued for the slow domain, or over the chain
  deriving DecidableEq, Repr

/-- What the last access of a master returned to it: the data of a read, the cause of a bus error. -/
structure Resp where
  kind : RespKind := .none
  data : Word := 0
  cause : Nat := 0
  deriving DecidableEq, Repr

/-- The holding or staging register of one master (R48): the register it belongs to, and a half. -/
structure Half64 where
  addr : Nat
  value : Half
  deriving DecidableEq, Repr

/-- A forwarded write (R56): its register, the bits written, and the master. -/
structure Forwarded where
  addr : Nat
  mask : Word
  data : Word
  master : Nat
  reply : Option (Nat × Nat) := none  -- the chain link and request that wait for a stalled write (R441)
  deriving DecidableEq, Repr

/-- A master's access to DDR4 that waits for room in a channel's request queue (R502). -/
structure Blocked where
  master : Nat
  addr : Nat
  width : Width
  write : Bool
  data : Word
  reply : Option (Nat × Nat) := none  -- the chain link and request that wait for it (R441)
  deriving DecidableEq, Repr

/-- The register access machinery beside the registers themselves (R42–R65). -/
structure Bus where
  resp : Tab Resp := []          -- per master, how its last access ended
  sbError : Bool := false        -- system-bus error status of the debug module (R45)
  hold : Tab Half64 := []
  stage : Tab Half64 := []
  logUnread : Nat := 0           -- entries written since ACCESS_LOG_HEAD was last read (R621)
  semOwner : Tab Nat := []       -- holders of the semaphores that are held (R62)
  slow : Tab Word := []          -- slow-domain values of the mirrored registers (R55)
  nvmQ : List Forwarded := []    -- forwarded-write queue of NVM, oldest first (R56)
  powerQ : List Forwarded := []  -- forwarded-write queue of POWER
  stalled : List Forwarded := [] -- writes whose masters wait for a queue entry (R56)
  blocked : List Blocked := []   -- accesses to DDR4 whose masters wait for a queue entry (R502)
  deriving DecidableEq, Repr

/-- The NVM of the always-on domain (R561–R569). -/
structure Nvm where
  cells : List Host.Cell := []      -- sector × 65,536 + offset; unlisted bytes read 0
  stored : List Nat := []           -- sectors stored at least once (R569)
  bad : List Nat := []              -- bytes that read with an uncorrectable error (R568)
  key : Nat := 0                    -- 0 disarmed, 1 after 0x5A17, 2 armed (R564)
  storing : Option Nat := none      -- the sector of the store in progress (R565)
  staged : List Host.Cell := []     -- its data, by offset, as the staging buffer held it (R566)
  readSel : Nat := 0                -- the sector the read window shows (R568)
  lost : Bool := false              -- a store was in progress when power fell (R566)
  deriving DecidableEq, Repr

/-- A change of Device Time that waits for the end of its FCLK (R106): a signed offset in 2^−16 ns, or a set. -/
inductive TimeOp where
  | step (q : Int)
  | set (tq : Nat)
  deriving DecidableEq, Repr

/-- A source that has qualified (R117): its number, its TB_PTP_PORT entry and grandmaster, its offset in ns. -/
structure Qualified where
  src : TimeSource
  ptpPort : Fin 2
  gm : Word
  offset : Int
  deriving DecidableEq, Repr

/-- One SYNCOUT pair (R131, R132). -/
structure SyncPair where
  h : Bool := false                -- the H pulse is active
  v : Bool := false                -- the V pulse is active
  vSource : Bool := false          -- the V pulse of the selected source is active
  hLeft : Nat := 0                 -- FCLKs left of a reference H pulse
  waiting : Bool := false          -- inactive until the selected source starts a V pulse
  oldH : Option Word := none       -- the configuration under which an H pulse finishes
  oldV : Option Word := none
  deriving DecidableEq, Repr

/-- A PTP message with its timestamp at the balls (R110, R111): the TB_PTP_PORT entry, T_Q and the message. -/
structure PtpStamp where
  entry : Nat
  tq : Int
  msg : List Byte
  deriving DecidableEq, Repr

/-- The timebase beside its registers (R104–R135). -/
structure Time where
  dt : Nat := 0                    -- Device Time in 2^−48 ns
  incr : Nat := 0x555555555555     -- the increment in force (R104, R105)
  ops : List (Nat × TimeOp) := []  -- steps and sets of this FCLK with their masters, in master-ID order (R60, R106)
  steady : Nat := 0                -- what the increments alone have counted since reset, in 2^−48 ns (R114, R117)
  followed : Nat := 0              -- the part of it that passed in ACQUIRE or LOCKED (R117)
  setSec : Nat := 0                -- TB_SET_TIME as held (R106)
  setFrac : Nat := 0
  n : Nat := 60                    -- the live reference rate and line count (R120)
  d : Nat := 1
  l : Nat := 1125
  rateNext : Option (Nat × Nat × Nat) := none -- the rate and line count that govern from the next FCLK (R71, R123)
  newLine : Bool := false          -- the reference line has changed in this FCLK, and its start is to come (R121)
  newFrame : Bool := false         -- the same of the reference frame count
  lineStart : Bool := false        -- the reference line start of this FCLK has been taken (R121, R449)
  armed : Bool := false            -- a rate change waits for TB_REF_APPLY.AT_FRAME (R123)
  inRow : Nat := 0                 -- consecutive measurements within LOCK_NS, or beyond UNLOCK_NS (R117)
  acquired : Bool := false         -- a first acquisition has happened since reset (R118)
  sources : List Qualified := []   -- the sources that stand qualified
  slew : Option Nat := none        -- the increment from which the slew in progress departs (R118)
  history : List (Nat × Nat) := [] -- `followed` and increment at each change in ACQUIRE or LOCKED, newest first (R117)
  holdFrom : Nat := 0              -- `steady` at entry to HOLDOVER
  fEdge : Option Nat := none       -- `steady` at the last REFSYNC_F edge
  fGood : Nat := 0                 -- consecutive good REFSYNC_F periods (R114)
  lEdge : Option Nat := none       -- `steady` at the last REFSYNC_L edge
  lines : Nat := 0                 -- REFSYNC_L edges since the last REFSYNC_F edge
  ppsEdge : Option Nat := none     -- `steady` at the last PPS_IN edge
  ppsGood : Nat := 0               -- consecutive good PPS_IN periods (R115)
  sync : List SyncPair := [{}, {}, {}, {}]
  ptpIn : List PtpStamp := []      -- PTP messages that Keeper firmware has received, newest first (R111)
  ptpOut : List PtpStamp := []     -- Delay_Req messages that have left, newest first (R111)
  deriving DecidableEq, Repr

/-- The timing of one raster frame (R281, R310). -/
structure Timing where
  hActive : Nat := 0
  hFp : Nat := 0
  hSync : Nat := 0
  hBp : Nat := 0
  vActive : Nat := 0
  vFp : Nat := 0
  vSync : Nat := 0
  vBp : Nat := 0
  sub : Nat := 1
  fetchLead : Nat := 0
  phase : Int := 0
  sendLine : Nat := 0
  latchLead : Nat := 0
  deriving DecidableEq, Repr

/-- The fetch of a raster frame (R177, R237): its number on the raster, its plan words, and the active lines that the engines
have planned so far (R208, R241). -/
structure Pass where
  no : Nat
  plan : Nat × Nat × Nat
  upTo : Nat := 0
  deriving DecidableEq, Repr

/-- What a raster does (R35, R90, R127). -/
inductive RasterMode where
  | off                      -- not enabled, or no Ingot active
  | unstarted (k : Nat)      -- enabled; its first frame will be k
  | run                      -- inside a frame
  | ready (k : Nat)          -- at a frame end that found the ideal start of frame k
  | wait                     -- at a frame end that found none
  | hit (k : Nat)            -- a hit raster; it restarts with frame k
  deriving DecidableEq, Repr

/-- A Tile Map entry as a raster frame uses it (R288, R290). -/
structure MapEntry where
  idx : Nat
  w0 : Word
  w1 : Word
  deriving DecidableEq, Repr

/-- One output raster beside its registers. -/
structure Raster where
  mode : RasterMode := .off
  frame : Nat := 0                   -- raster frame k
  pos : Nat := 0                     -- pixel positions passed in the frame (R126)
  acc : Nat := 0                     -- the 48-bit accumulator
  tim : Timing := {}                 -- timing of the frame in progress (R302)
  passed : Bool := false             -- has passed a position since it was enabled (R147)
  alive : Nat := 0                   -- alive counter (R332)
  stpDone : Bool := false            -- the STP of the frame in progress has happened
  composed : Nat := 0                -- lines composed of the frame in progress
  sendDone : Bool := false           -- the send position of the frame has passed
  sentCur : Bool := false            -- the frame in progress is sent to the tiles (R300)
  sentNext : Bool := false           -- the frame that the last STP decided is sent
  heldCur : Bool := false            -- the frame in progress is in Idle Hold
  heldNext : Bool := false
  entCur : List MapEntry := []       -- entries that govern the frame in progress (R290)
  entNext : List MapEntry := []      -- entries taken at the last STP
  holdJ : Nat := 0                   -- J of R300
  forceDirty : Bool := false         -- the next decision is dirty (R298)
  underCounted : Bool := false       -- the frame is counted in ORS_UNDERRUN.FRAMES
  deadRaised : Bool := false         -- ENTRY_DEAD is set for the frame
  settling : Bool := false           -- TB_ORS_PHASE.STATE is SETTLING (R127)
  shift : Int := 0                   -- FCLKs by which the last line is lengthened (R128)
  stall : Nat := 0                   -- FCLKs for which the raster stands still to lengthen it
  thermal : Bool := false            -- Thermal Hold stopped this frame (R297)
  plan : Nat × Nat × Nat := (0x1000FFFF, 0, 0)      -- plan words of the frame in progress (R237)
  plansNext : List (Nat × Nat × Nat) := []  -- plan words by sub-frame, as the last STP found them (R237)
  pass : Option Pass := none         -- the fetch in progress: of the frame in progress, past its STP of the next (R177)
  passes : Nat := 0                  -- fetches begun so far
  seqs : Tab Nat := []               -- per entry, the SEQ of its next PIXEL packet of the frame (R328)
  waitFrom : Nat := 0                -- T_Q at the frame end that began a wait (R129)
  hitAt : Nat × Nat × Nat := (0, 0, 0) -- a hit raster's position at the swap point (R147)
  hitFrom : Option (Nat × Nat) := none -- the instant, in T_Q as a fraction, at or after which a hit raster restarts (R90)
  notBefore : Nat := 0               -- the FCLK from which a raster that an Ingot enables may start (R35)
  blocks : Nat := 0                  -- blocks counted for BC_COVER in the frame in progress (R242)
  vTail : Nat × Bool := (0, false)   -- pixel positions into the frame to which the last frame's V pulse runs, and whether that frame had sub-frame index 0 (R131)
  deriving DecidableEq, Repr

/-- What a frame that a port sends is (R317, R363, R437). -/
inductive FrameKind where
  | pixel (m k : Nat)              -- a PIXEL packet of frame k of raster m
  | latch (m k : Nat)              -- the LATCH of that frame
  | hold (m k : Nat)               -- its HOLD
  | beacon (m : Nat)               -- a periodic BEACON of raster m, stamped as it leaves (R334)
  | waitBeacon (m : Nat)           -- a BEACON with WAIT 1
  | echo (m tile seq : Nat)        -- an echo request (R337)
  | mode (m : Nat)
  | ctrl (ch : Nat)                -- the CTRL of channel ch (R344)
  | test (n : Nat)                 -- the n-th TEST packet
  | host                           -- a frame of the host transmit ring (R383)
  | delayReq                       -- a PTP Delay_Req (R111, R363)
  | chain (type : Nat)             -- a chain frame (R437)
  deriving DecidableEq, Repr

/-- A frame that waits or is sent: for a BTL packet its header and payload with the fold prefix (R325), for any other
frame its bytes from DA on without pad and FCS. -/
structure Frame where
  kind : FrameKind
  body : List Byte
  fold : List Byte := []
  since : Nat := 0                 -- T_Q at its admission (R384), or at the send position of a LATCH or HOLD (R339)
  reorder : Option Nat := none     -- frames that still go first (R387 REORDER); none where it is not held
  judged : Bool := false           -- the transmit injector has judged it (R386)
  deriving DecidableEq, Repr

/-- A frame that leaves the port now (R365). -/
structure TxFrame where
  frame : Frame
  queue : Nat
  wire : List Byte                 -- the bytes as they leave, FCS included
  start : Nat                      -- T_Q at its first byte
  deriving DecidableEq, Repr

/-- A received frame that stands on a port (R376). -/
structure RxFrame where
  bytes : List Byte
  billets : Nat := 0          -- the Billets that it holds
  refused : Bool := false     -- the Crucible has refused it
  askLast : Bool := false     -- its last Billet is asked for once the meter has run (R380)
  tq : Nat := 0               -- T_Q of its reception (R110)
  fclk : Nat := 0             -- the FCLK of its reception (R409)
  deriving DecidableEq, Repr

/-- One direction of a fault injector beside its registers (R386, R387). -/
structure Injector where
  count : Nat := 0
  lfsr : Nat := 1
  held : List (RxFrame × Nat) := []     -- received frames held by REORDER, with the frames still to come first
  deriving DecidableEq, Repr

/-- An outstanding CTRL transaction (R345). -/
structure Ctrl where
  tile : Nat
  seq : Nat
  addr : Nat
  payload : List Byte
  tries : Nat
  deriving DecidableEq, Repr

/-- An outstanding echo (R337). -/
structure Echo where
  tile : Nat
  seq : Nat
  t1 : Option Nat                  -- T_Q of departure, once it has left
  deriving DecidableEq, Repr

/-- A test in progress (R349). -/
structure LinkTest where
  tile : Nat
  count : Nat
  len : Nat
  seqs : List Nat                  -- SEQ of each TEST queued, in order
  deriving DecidableEq, Repr

/-- One port beside its registers (R363–R387, R337–R349). -/
structure Port where
  queues : List (List Frame) := List.replicate 8 []
  due : List Frame := []           -- LATCH and HOLD due at a send position, in order
  retry : List (Nat × Frame) := [] -- frames the Crucible refused that wait, with their queues (R378)
  tx : Option TxFrame := none
  lastSent : List Byte := []       -- the wire bytes of the last frame that left
  rx : List RxFrame := []          -- received frames that stand on the port, oldest first (R376)
  rxBad : Nat := 0                 -- Billets of frames that the MAC has rejected in this FCLK (R376)
  credit : List Int := List.replicate 8 0   -- shaper credit in 1/24,000,000 byte (R368)
  turn : Nat := 0                  -- the deficit group's queue in turn (R367)
  granted : Bool := false          -- its turn has begun
  bank : Nat := 0                  -- gate bank in force (R375)
  nextBank : Option Nat := none    -- a switch is pending
  align : Nat := 0                 -- ALIGN, CYCLE and BASE in force
  cycleNs : Nat := 1000000
  baseNs : Nat := 0
  started : Bool := false          -- the list runs (R375)
  entry : Nat := 0                 -- the entry running
  cycleFrom : Nat := 0             -- the first T_Q at which a cycle start counts (R372, R375)
  entryAt : Nat := 0               -- the instant of the entry's start, steps and sets of Device Time aside (R371)
  fiTx : Injector := {}
  fiRx : Injector := {}
  ctrl : List (Option Ctrl) := [none, none]
  ctrlSeq : Nat := 1               -- count of R344
  hostWait : List (Nat × RxFrame) := []    -- frames for the host receive ring that a full queue holds back, with their KIND (R383, R502)
  traceWait : List (Nat × List Byte) := [] -- trace entries that a full queue holds back, oldest first (R385, R502)
  traceWrapped : Bool := false     -- the trace ring has wrapped since it was switched on (R385)
  delays : List (Nat × Nat) := []  -- delay writes waiting for channel 1: tile and value (R338)
  echo : Option Echo := none
  echoSeq : Nat := 1
  round : List Nat := []           -- tiles left of the automatic round
  roundFrames : Nat := 0           -- reference frames since the last round began
  test : Option LinkTest := none
  testSeq : Nat := 0
  deriving DecidableEq, Repr

/-- An armed cue (R140–R146): its position, when it has come due, and what else is known of the coming run. -/
structure ArmedCue where
  raster : Nat
  first : Nat                      -- the frame of its position as it was armed (R141, R445)
  f : Nat
  l : Nat
  t : Nat
  period : Nat
  due : Option Nat := none         -- the FCLK in which it came due (R144)
  late : Bool := false             -- found late at its arming (R142)
  once : Bool := false             -- disarmed after it came due (R143)
  ranIn : Option (Nat × Nat) := none -- the FCLK of the last run of a periodic cue, and the STATE that the run leaves (R143)
  deriving DecidableEq, Repr

/-- A registered commit whose last landing has not happened (R153, R157). -/
structure Commit where
  seq : Nat
  units : Nat                      -- units still pending, in the layout of R154
  fclk : Nat := 0                  -- its registration FCLK (R153)
  landed : Bool := false
  rejected : Bool := false
  deriving DecidableEq, Repr

/-- A fill of lookup tables in progress (R257, R266). -/
structure Fill where
  preset : Nat
  nits : Nat
  set : Nat
  deriving DecidableEq, Repr

/-- A ring surface as an engine holds it (R421): the flow, its number, and its geometry. -/
structure HeldSurface where
  flow : Nat
  k : Nat
  base : Nat
  stride : Nat
  width : Nat
  height : Nat
  fmt : Nat
  deriving DecidableEq, Repr

/-- A 256-byte span of a source row that an engine fetches in a pass of a raster, with the line that needs it first (R177,
R187). -/
structure Span where
  ras : Nat
  pass : Nat
  row : Nat
  addr : Nat
  line : Nat
  deriving DecidableEq, Repr

/-- A span that an engine has requested: its bytes as its request entered the queue, and whether they are poisoned (R186,
R503). -/
structure Burst where
  span : Span
  data : List Byte
  bad : Bool
  deriving DecidableEq, Repr

/-- A request of 256 bytes to a DDR4 channel (R502): the master it comes from, its address, whether it is urgent, and what
a layer engine fetches with it. -/
structure MemReq where
  src : Nat
  addr : Nat
  urgent : Bool := false
  write : Bool := false
  burst : Option Burst := none
  deriving DecidableEq, Repr

/-- The request queues of a channel (R502). -/
inductive MemQueue where
  | realTime | ingest | blit | core
  deriving DecidableEq, Repr

/-- A layer engine beside its registers. -/
structure Engine where
  held : Option HeldSurface := none -- the ring surface it holds (R421)
  dirty : List Nat := []           -- rasters whose dirty state is set (R190)
  buf : Tab (List Byte) := []      -- bursts in the line buffer; key: raster × 2^40 + address
  refs : List Nat := []            -- rows that planned lines reference (R177, R191); key: raster × 2^16 + row
  spare : List Span := []          -- spans of those rows that no planned line needs (R187)
  need : List Span := []           -- the spans that planned lines need, in order of first need
  todo : List Span := []           -- those not requested yet
  asked : List Burst := []         -- those granted that have not arrived
  wait : Nat := 0                  -- FCLKs before the next request (R169)
  rows : List Nat := []            -- rows resident or requested (R177, R179); key: raster × 2^16 + row
  urgent : List Nat := []          -- rows counted as urgent (R184); key: raster × 2^16 + row
  late : List (Nat × Nat × Nat) := [] -- rows counted as late (R185): raster, pass, row
  grid : Tab (Word × Bool) := []   -- vertices read for its passes, with their errors (R208, R209); key: raster × 2^40 + index
  cells : List Nat := []           -- invalid cells counted in a pass (R216); key: raster × 2^40 + row × 2^20 + column
  fill : Option Fill := none
  deriving DecidableEq, Repr

/-- A frame that a signature unit folds to its end under the settings before, once another raster's frame has brought new
ones into force (R486): its settings, its CRC, and the result that it is compared with. -/
structure SigTail where
  cfg : Nat
  org : Nat
  size : Nat
  crc : Nat
  prev : Option Nat
  deriving DecidableEq, Repr

/-- A signature unit beside its registers (R484–R488): the settings in force and the frame it folds. -/
structure SigUnit where
  cfg : Nat := 0x01FF0008
  org : Nat := 0
  size : Nat := 0x00010001
  folding : Bool := false
  crc : Nat := 0
  run : Nat := 0                   -- consecutive events
  prev : Option Nat := none        -- the result of the previous checked frame, where it can be compared with
  before : Option (Nat × Nat × Bool) := none -- an FCLK of loads, with SIG_EXPECT and VALID at its start (R490)
  tails : List SigTail := []       -- old rasters' frames, still to end
  deriving DecidableEq, Repr

/-- A memory check run in progress (R491–R493). -/
structure McuRun where
  start : Nat
  len : Nat
  poly : Nat
  done : Nat := 0                  -- bytes of the region read so far
  crc : Nat                        -- the CRC register
  wait : Nat := 0                  -- FCLKs before the next burst (R492)
  spoiled : Bool := false          -- a burst has returned poisoned (R493)
  deriving DecidableEq, Repr

/-- A surface of a flow's ring (R417–R422). -/
structure RingSurface where
  mode : Nat := 0                  -- 0 FREE, 1 FILLING, 2 COMPLETE
  p : Nat := 0                     -- presentation frame
  order : Nat := 0                 -- order of completion
  seen : Bool := false             -- an engine has held it
  doneAt : Nat := 0                -- the FCLK in which it became COMPLETE (R30)
  deriving DecidableEq, Repr

/-- A row of a fill-plus-key pair in the staging window (R413): pixel words and K values by x. -/
structure StagedRow where
  fill : Tab Nat := []
  key : Tab Nat := []
  deriving DecidableEq, Repr

/-- The frame that a flow fills (R417, R418). -/
structure VideoFrame where
  ts : Nat
  surf : Nat
  p : Nat
  late : Bool := false             -- counted as late (R420)
  pixels : Nat := 0                -- pixels of the fill written
  keyPixels : Nat := 0             -- pixels of the key written
  mark : Bool := false             -- the fill's marker packet has been written
  keyMark : Bool := false
  skew : Bool := false             -- a row was written under R413
  rows : Tab StagedRow := []
  doneRows : List Nat := []        -- rows written from the window
  deriving DecidableEq, Repr

/-- An accepted packet that waits for the ingest writer (R376, R424). -/
structure VideoPacket where
  flow : Nat                       -- the VIDEO or KEY flow whose samples it carries
  ts : Nat
  marker : Bool
  srd : List Byte                  -- from the first SRD header on
  port : Fin 128                     -- the port whose Billets it holds
  billets : Nat
  deriving DecidableEq, Repr

/-- An ingest flow beside its registers (R380–R382, R414–R420). -/
structure Flow where
  onAt : Option Nat := none        -- the FCLK of the write that enabled it (R409)
  surfs : Tab RingSurface := []
  order : Nat := 0
  top : Option Nat := none         -- highest sequence number accepted (R414)
  low : Nat := 0                   -- the lowest number of the window
  got : List Nat := []             -- numbers of the window that were received
  frame : Option VideoFrame := none
  dropTs : List Nat := []          -- the timestamps whose packets are dropped, newest first (R417, R420)
  waiting : List VideoPacket := [] -- in arrival order
  cir : Nat := 0                   -- policer values in force (R382)
  pir : Nat := 0
  pbs : Nat := 0
  cbs : Nat := 0
  polEn : Bool := false
  tc : Nat := 0                    -- tokens in 1/24,000,000,000 byte (R380)
  tp : Nat := 0
  deriving DecidableEq, Repr

/-- A chain window access of a master on the manager (R442). -/
structure ChainAccess where
  id : Nat
  part : Nat
  req : Req
  addr : Nat
  width : Width
  write : Bool
  data : Word
  reach : Nat                      -- the address on the part that it reaches (R441, R443)
  answer : Option (Bool × Word) := none -- a response that waits for those of older requests (R442)
  deriving DecidableEq, Repr

/-- The Photor Chain beside its registers (R430–R461). -/
structure Chain where
  joined : List Nat := []          -- ports that have joined their links (R434)
  failed : List Nat := []          -- ports whose training attempt has failed once
  boot : Option Nat := none        -- the port of the boot link (R436)
  bootEnds : List Nat := []        -- downlinks whose far end trains as a boot link
  delays : List Int := []          -- delays of the last exchanges, newest first, in ps (R439)
  heard : Bool := false            -- a HEARTBEAT of the current epoch has come since the Ingot became active (R448)
  silent : Nat := 0                -- reference line starts since the last one
  forced : Option Nat := none      -- the FCLK in which CHAIN_TAKEOVER forced a takeover (R448)
  nextId : Nat := 0
  out : List ChainAccess := []     -- requests without response, oldest first
  stalled : List ChainAccess := [] -- requests whose masters wait for room (R442)
  behind : List (Nat × Tunnel) := [] -- requests of the manager, with their links, behind one that waits (R56, R61)
  deriving DecidableEq, Repr

/-- What a raster still has to do before a swap has landed (R95). -/
inductive SwapNeed where
  | land (reload : Bool)           -- a hitless change, at the next landing STP (R89); reload: with new timing
  | restart (reload : Bool)        -- a hit raster, at its restart (R90)
  | start                          -- a raster the swap enables (R35)
  deriving DecidableEq, Repr

/-- A DDR4 channel beside its registers (R502–R510). -/
structure Chan where
  rt : List MemReq := []           -- the four request queues, oldest first (R502)
  ingest : List MemReq := []
  blit : List MemReq := []
  core : List MemReq := []
  waiters : List (MemQueue × MemReq) := [] -- requests whose sources a full queue stalls, oldest first
  slot : Nat := 0                  -- the slot of the round of 16 (R503)
  turn : Nat := 0                  -- position in the weighted round-robin of ingest, blit and core
  busy : Nat := 0                  -- the last FCLK in which it held a request (R505)
  since : Nat := 0                 -- the FCLK in which it entered its low-power state
  pd : Nat := 0                    -- FCLKs spent in power-down before the present stay
  sr : Nat := 0                    -- FCLKs spent in self-refresh before it
  postponed : Nat := 0             -- refreshes postponed (R507)
  caTries : Nat := 0               -- re-issues of the failing command so far (R510)
  crcTries : Nat := 0              -- resends of the failing write so far
  deriving DecidableEq, Repr

/-- A burst of a blit engine (R462): the aligned 256-byte span at addr that a row of its rectangle touches, read or written. -/
structure BltBurst where
  write : Bool
  row : Nat
  addr : Nat
  deriving DecidableEq, Repr

/-- The descriptor that a blit engine runs (R466). -/
structure Blit where
  desc : List Byte                 -- its 64 bytes, as read
  addr : Nat                       -- where it lies
  index : Nat                      -- its ring index
  code : Nat                       -- the code of R467 so far
  ran : Bool := false              -- its operation has begun
  wrote : Bool := false            -- it wrote at least one byte of its destination
  todo : List BltBurst := []       -- the bursts still to move, in order (R462)
  buf : Tab (List Byte) := []      -- the source spans that it has read of the row in progress
  deriving DecidableEq, Repr

/-- An I²C transaction in progress (R554): the target's address, the bytes to write, the number to read. -/
structure I2cRun where
  target : Nat
  out : List Byte
  rd : Nat
  deriving DecidableEq, Repr

/-- A SPI command in progress (R556): opcode, address bytes as sent, dummy clocks, lanes, and the data sent or the number
of bytes to receive. -/
structure SpiRun where
  opcode : Nat
  addr : List Byte
  addrQuad : Bool
  dummy : Nat
  dataQuad : Bool
  write : Bool
  out : List Byte
  len : Nat
  deriving DecidableEq, Repr

/-- The service interfaces and the interrupt controller beside their registers (R524–R527, R543–R557). -/
structure Serv where
  claimed : List Nat := []         -- sources claimed and not completed (R527)
  timer : List Nat := []           -- cores in their machine timer interrupt (R524)
  uartTx : List Byte := []         -- transmit FIFO, oldest first
  uartRx : List Byte := []         -- receive FIFO, oldest first
  gpio : BitVec 32 := 0            -- synchronised levels of the GPIO balls
  gpioBoard : BitVec 32 := 0       -- the levels that the board drives there
  mdio : Option Nat := none        -- the frame in progress: the word of MDIO_CMD (R548)
  i2c : Tab I2cRun := []           -- transactions in progress, per bus
  spi : Option SpiRun := none      -- the command in progress
  mmacSent : Tab (List Byte) := [] -- the frame each management MAC sent last, FCS included
  mmacTx : Tab (List Byte) := []   -- the frame each management MAC is sending
  mmacReq : Tab (List Byte) := []  -- the Delay_Req that waits for each management MAC (R111)
  mmacWait : List (Nat × Nat × List Byte) := [] -- received frames that a full queue holds back: MAC, T_Q, frame (R502)
  deriving DecidableEq, Repr

/-- The power governor beside its registers (R589, R590). -/
structure Gov where
  evals : Nat := 0                 -- evaluations since Keeper firmware started
  exceeded : List Nat := []        -- those of the last 10,000 that exceeded LIMIT_W, newest first
  below : Nat := 0                 -- consecutive intervals below RELEASE_W
  engaged : Option Nat := none     -- evaluation of the last engagement
  changed : Option Nat := none     -- evaluation of the last engagement or release
  deriving DecidableEq, Repr

/-- What holds the part in reset (R593, R612). -/
inductive Hold where
  | free
  | pins                           -- PWR_GOOD or RESET_N
  | trip
  deriving DecidableEq, Repr

/-- The always-on domain beside its registers: reset, boot, watchdog, energy (R571–R593). -/
structure Aon where
  hold : Hold := .free
  keeperUp : Bool := false         -- Keeper firmware runs
  pwrGood : Bool := true           -- the level of PWR_GOOD, with which the energy counters run (R601)
  saved : Option Nat := none       -- STEP at a Keeper reset, until firmware runs again
  halted : Bool := false           -- the Keeper has halted in its ROM without firmware (R563)
  stopped : Bool := false          -- no further boot step runs: boot has stopped (R573), or a Keeper reset has cut it off (R572)
  params : List Byte := []         -- the boot parameters in use (R570)
  entry : Option Nat := none       -- start address of the application image (R573)
  held : Bool := false             -- step 7 waits for an Ingot over the chain (R575)
  ready : Bool := false            -- steps 5 and 6 are done while it waits
  watchdog : Nat := 0              -- slow-clock edges since the last kick (R572)
  nanoJ : Tab Nat := []            -- energy below one µJ: rails 0–7, their sum 8
  holdEdges : Nat := 0             -- slow-clock edges in Thermal Hold below one ms
  cool : Nat := 0                  -- consecutive slow-clock edges cool enough to end Thermal Hold, or a trip (R591, R593)
  gov : Gov := {}
  deriving DecidableEq, Repr

/-- Faults: none. Every outcome the spec gives is a next state. -/
inductive Fault where
  deriving DecidableEq, Repr

/-- Refusals. -/
inductive Refusal where
  /-- Raised by an arm of Dispatch whose command has no meaning yet; safe. -/
  | notModelled (mnemonic : String)
  deriving DecidableEq, Repr

/-- The state of one GX8128. -/
structure State where
  pending : List Instr := []
  free : Nat := 0                -- the model's own: uses of Config.freeValue so far
  cycle : List Nat := []         -- status registers whose set event of their block's cycle is counted (R52)
  regs : Tab Word := []          -- registers, normal view; unlisted: the reset value
  live : Tab Word := []          -- live copies of the shadowed registers (R28)
  mem : List Host.Cell := []     -- memory windows; unlisted bytes read 0
  poison : List Nat := []        -- 8-byte words that hold an uncorrectable error (R510, R514)
  bus : Bus := {}
  nvm : Nvm := {}
  time : Time := {}
  rasters : Tab Raster := []
  ports : Tab Port := []
  fclk : Nat := 0                -- FCLKs since reset
  ran : Nat := 0                 -- due cues run in this FCLK (R144)
  cues : Tab ArmedCue := []
  commits : List Commit := []    -- in order of registration
  tickets : Tab Nat := []        -- per master, its last sequence number (R164)
  engines : Tab Engine := []
  flows : Tab Flow := []
  chain : Chain := {}
  encFill : Tab Fill := []       -- encode fills in progress, per cluster (R266)
  sigs : Tab SigUnit := []
  mcus : Tab McuRun := []
  swap : Tab SwapNeed := []      -- rasters that a pending swap waits for
  copying : List Nat := []       -- slots that a LOAD_NVM copy fills (R83)
  copyWaits : List Nat := []     -- those of them whose copy waits for a store of their sector to end (R568)
  chans : Tab Chan := []
  blits : Tab Blit := []
  bltWait : Tab Nat := []          -- FCLKs before a blit engine's next burst (R462, R472)
  serv : Serv := {}
  aon : Aon := {}
  quadIdle : List Nat := []      -- quads in electrical idle after a swap changed their MODE (R92)
  deriving DecidableEq, Repr

/-- The state right after reset. -/
def State.reset : State := {}

end Sys2Proof.Machine
end

