-- ==== Sys2Proof/Machine/Ops.lean ====
section
/-! DEFINITION. The named operations every meaning is written with: tables by key, bit fields, signed and fixed-point
numbers, memory, registers with their fields, status flags, counters, free values. -/

namespace Sys2Proof.Machine

/-! ### Tables by key -/

/-- The entry of key k. -/
def Tab.find {α : Type} (t : Tab α) (k : Nat) : Option α :=
  match t with
  | [] => none
  | (j, a) :: r => if j = k then some a else Tab.find r k

/-- Set the entry of key k, keeping the keys strictly rising. -/
def Tab.put {α : Type} (t : Tab α) (k : Nat) (a : α) : Tab α :=
  match t with
  | [] => [(k, a)]
  | (j, b) :: r => if k < j then (k, a) :: (j, b) :: r else if k = j then (k, a) :: r else (j, b) :: Tab.put r k a

/-- Remove the entry of key k. -/
def Tab.del {α : Type} (t : Tab α) (k : Nat) : Tab α :=
  match t with
  | [] => []
  | (j, b) :: r => if j = k then r else (j, b) :: Tab.del r k

/-- The entry of key k, or d where the table has none. -/
def Tab.get {α : Type} (t : Tab α) (k : Nat) (d : α) : α := (Tab.find t k).getD d

/-- The keys rise strictly. -/
def Tab.wf {α : Type} (t : Tab α) : Bool :=
  match t with
  | [] => true
  | (j, _) :: r => (match r with | [] => true | (k, _) :: _ => decide (j < k)) && Tab.wf r

/-- Add the members of xs to a set written as a strictly rising list. -/
def setAdd (xs : List Nat) (k : Nat) : List Nat :=
  match xs with
  | [] => [k]
  | j :: r => if k < j then k :: j :: r else if k = j then j :: r else j :: setAdd r k

/-! ### Bits and numbers -/

/-- Bits hi..lo of v as a number (R11). -/
def bits (v hi lo : Nat) : Nat := v / 2 ^ lo % 2 ^ (hi + 1 - lo)

/-- Bit i of v. -/
def bit (v i : Nat) : Bool := v / 2 ^ i % 2 == 1

/-- v with bits hi..lo replaced by the low bits of n. -/
def putBits (v hi lo n : Nat) : Nat :=
  v / 2 ^ (hi + 1) * 2 ^ (hi + 1) + n % 2 ^ (hi + 1 - lo) * 2 ^ lo + v % 2 ^ lo

/-- A w-bit stored integer read as two's complement (R13). -/
def sgn (w n : Nat) : Int := if n % 2 ^ w < 2 ^ (w - 1) then (n % 2 ^ w : Nat) else (n % 2 ^ w : Nat) - (2 ^ w : Nat)

/-- The w-bit stored integer of i, modulo 2^w. -/
def unsgn (w : Nat) (i : Int) : Nat := (i % (2 ^ w : Nat)).toNat

/-- i clamped to lo..hi (R14). -/
def clampI (i lo hi : Int) : Int := if i < lo then lo else if hi < i then hi else i

/-- n / d rounded to the nearest integer, a tie toward +∞ (R14); d > 0. -/
def roundDiv (n d : Int) : Int := (2 * n + d) / (2 * d)

/-- n / 2^k rounded, a tie toward +∞ (R14). -/
def roundShift (n : Int) (k : Nat) : Int := roundDiv n (2 ^ k : Nat)

/-- n / d rounded up. -/
def ceilDiv (n d : Nat) : Nat := (n + d - 1) / d

/-- Add, stopping at the largest value of w bits. -/
def satAdd (w a b : Nat) : Nat := min (a + b) (2 ^ w - 1)

/-- The n bytes of v, least significant first (R11). -/
def leBytes (n v : Nat) : List Byte :=
  match n with
  | 0 => []
  | k + 1 => BitVec.ofNat 8 v :: leBytes k (v / 256)

/-- The number whose bytes are bs, least significant first. -/
def ofLe (bs : List Byte) : Nat := bs.foldr (fun b n => b.toNat + 256 * n) 0

/-- The number whose bytes are bs, most significant first. -/
def ofBe (bs : List Byte) : Nat := bs.foldl (fun n b => n * 256 + b.toNat) 0

/-- The n bytes of v, most significant first. -/
def beBytes (n v : Nat) : List Byte := (leBytes n v).reverse

/-- n bytes of a byte list from position p; a missing byte reads 0. -/
def byteAt (bs : List Byte) (p : Nat) : Byte := bs.getD p 0

/-- The n-byte little-endian number at position p of a byte list. -/
def leAt (bs : List Byte) (p n : Nat) : Nat := ofLe ((List.range n).map fun i => byteAt bs (p + i))

/-- The n-byte big-endian number at position p of a byte list. -/
def beAt (bs : List Byte) (p n : Nat) : Nat := ofBe ((List.range n).map fun i => byteAt bs (p + i))

/-- Fold a state change over 0, 1, …, n − 1. -/
def forN {σ : Type} (n : Nat) (f : Nat → σ → σ) (s : σ) : σ := (List.range n).foldl (fun t i => f i t) s

/-- Apply f where b holds. -/
def when {σ : Type} (b : Bool) (f : σ → σ) (s : σ) : σ := if b then f s else s

/-! ### Memory windows -/

/-- The byte at address a; a byte that nothing has written reads 0 (log entry 5). -/
def Mem.read (m : List Host.Cell) (a : Nat) : Byte := Tab.get m a 0

/-- Write one byte, keeping the list in its canonical form: a zero byte is not listed. -/
def Mem.write (m : List Host.Cell) (a : Nat) (b : Byte) : List Host.Cell :=
  if b = 0 then Tab.del m a else Tab.put m a b

/-- The canonical form of memory: addresses strictly rising, no listed byte zero. -/
def Memory.wf (m : List Host.Cell) : Bool := Tab.wf m && m.all fun c => c.2 != 0

/-- Write bytes from address a on, but those at addresses that take none. -/
def Mem.writes (takes : Nat → Bool) (m : List Host.Cell) (a : Nat) (bs : List Byte) : List Host.Cell :=
  match bs with
  | [] => m
  | b :: r => Mem.writes takes (if takes a then Mem.write m a b else m) (a + 1) r

namespace State

/-- The n bytes from address a on. -/
def bytes (s : State) (a n : Nat) : List Byte := (List.range n).map fun i => Mem.read s.mem (a + i)

/-- The n-byte little-endian number at address a. -/
def rd (s : State) (a n : Nat) : Nat := ofLe (s.bytes a n)

end State

/-! ### The register map (R18, R38) -/

/-- A register found at an address: its row, instance, element indices and base address in the normal view. -/
structure Found where
  row : RegRow
  first : Nat
  inst : Nat
  idx : List Nat
  addr : Nat
  deriving DecidableEq, Repr

/-- The indices of the element of dims that holds offset o, and the offset left over. -/
def elemAt (dims : List (Nat × Nat)) (o : Nat) : Option (List Nat × Nat) :=
  match dims with
  | [] => some ([], o)
  | (c, st) :: r =>
    if o / st < c then (elemAt r (o % st)).map fun e => (o / st :: e.1, e.2) else none

/-- Does a row of a table hold the byte at offset o of its block? -/
def rowAt (r : RegRow) (o : Nat) : Option (List Nat × Nat) :=
  if o < r.off then none else
  match elemAt r.dims (o - r.off) with
  | some e => if e.2 < (if r.wide then 8 else 4) then some e else none
  | none => none

/-- The block of a block index, with the instance number. -/
def blockAt (k : Nat) : Option (BlockRow × Nat) :=
  (blockTable.find? fun b => decide (b.first ≤ k) && decide (k < b.first + b.count)).map fun b => (b, k - b.first)

/-- The register that holds the byte at address a of the register space, read in the normal view (R38). -/
def findReg (a : Nat) : Option Found :=
  match blockAt (bits a 27 20) with
  | none => none
  | some (b, i) =>
    b.rows.findSome? fun r =>
      (rowAt r (bits a 17 0)).map fun e =>
        { row := r, first := b.first, inst := i, idx := e.1,
          addr := 0xF000000000 + bits a 27 20 * 0x100000 + bits a 17 0 - e.2 : Found }

/-! ### Reset values of registers -/

/-- Entry i of the decode LUT after reset: round(2^20 · i / 4095) (R274). -/
def decodeLutReset (i : Nat) : Nat := (roundDiv ((2 ^ 20 * i : Nat) : Int) 4095).toNat

/-- The input at entry i of an encode LUT, in units of 2^−20 (R266). -/
def encodeLutInput (i : Nat) : Nat := if i < 256 then 2 * i else 2 ^ (i / 256 + 8) + i % 256 * 2 ^ (i / 256)

/-- Word w of filter set k at phase p after reset: the bilinear filter (R213). -/
def meshCoefReset (p w : Nat) : Nat :=
  let v3 := 64 * p
  let h3 := 4096 - 64 * p
  if w = 1 then h3 * 0x10000 else if w = 2 then v3 else if w = 5 then v3 * 0x10000 + h3 else 0

/-- The value of a register at reset. -/
def resetOf (f : Found) : Nat :=
  match f.row.reset with
  | .const v => v
  | .blockId => f.first * 0x10000 + f.inst * 0x100 + 0x10
  | .diag v => if f.idx.getLastD 0 % 4 = 0 then v else 0
  | .decodeLut => decodeLutReset (f.idx.getLastD 0)
  | .encodeLut => min (encodeLutInput (f.idx.getLastD 0)) 0x100000
  | .meshCoef => meshCoefReset (f.idx.getD 2 0) (f.idx.getD 3 0)

/-- The reset value of the register at address a. -/
def resetAt (a : Nat) : Word :=
  match findReg a with
  | some f => BitVec.ofNat 64 (resetOf f)
  | none => 0

namespace State

/-- Set the access machinery. -/
def setBus (s : State) (b : Bus) : State := { s with bus := b }

/-- Set the timebase. -/
def setTime (s : State) (t : Time) : State := { s with time := t }

/-- Set the NVM. -/
def setNvm (s : State) (n : Nvm) : State := { s with nvm := n }

/-! ### Registers and their fields -/

/-- A register in the normal view: the shadow of a shadowed register (R28). -/
def reg (s : State) (a : Nat) : Word := (Tab.find s.regs a).getD (resetAt a)

/-- Set a register in the normal view. -/
def setReg (s : State) (a : Nat) (v : Word) : State := { s with regs := Tab.put s.regs a v }

/-- The live value of a shadowed register. -/
def lreg (s : State) (a : Nat) : Word := (Tab.find s.live a).getD (resetAt a)

/-- Set a live value. -/
def setLreg (s : State) (a : Nat) (v : Word) : State := { s with live := Tab.put s.live a v }

/-- A field of a register in the normal view. -/
def f (s : State) (x : Fld) : Nat := bits (s.reg x.addr).toNat x.hi x.lo

/-- A field of one bit. -/
def fb (s : State) (x : Fld) : Bool := s.f x != 0

/-- A field of a live register. -/
def lf (s : State) (x : Fld) : Nat := bits (s.lreg x.addr).toNat x.hi x.lo

/-- A live field of one bit. -/
def lfb (s : State) (x : Fld) : Bool := s.lf x != 0

/-- Set a field of a register in the normal view. -/
def setF (s : State) (x : Fld) (n : Nat) : State :=
  s.setReg x.addr (BitVec.ofNat 64 (putBits (s.reg x.addr).toNat x.hi x.lo n))

/-- Set a field of a live register. -/
def setLf (s : State) (x : Fld) (n : Nat) : State :=
  s.setLreg x.addr (BitVec.ofNat 64 (putBits (s.lreg x.addr).toNat x.hi x.lo n))

/-- Add to a counting field that stops at its largest value. -/
def satF (s : State) (x : Fld) (n : Nat) : State := s.setF x (satAdd (x.hi + 1 - x.lo) (s.f x) n)

/-- Add to a counting field that wraps. -/
def addF (s : State) (x : Fld) (n : Nat) : State := s.setF x (s.f x + n)

/-- Raise a counting field to n where it is lower. -/
def maxF (s : State) (x : Fld) (n : Nat) : State := if s.f x < n then s.setF x n else s

/-! ### Stores and uncorrectable errors -/

/-- Does address a lie in a DDR4 channel in FAULT, which discards writes and returns poisoned reads (R510)? -/
def faulted (s : State) (a : Nat) : Bool := decide (a < 2 ^ 39) && s.f (Reg.MC_STATE_STATE (a / 256 % 16)) == 4

/-- Store bytes from address a on. -/
def store (s : State) (a : Nat) (bs : List Byte) : State :=
  { s with mem := Mem.writes (fun x => !s.faulted x) s.mem a bs }

/-- Store the n-byte little-endian number v at address a. -/
def wr (s : State) (a n v : Nat) : State := s.store a (leBytes n v)

/-- The 8-byte words that n bytes from a on touch. -/
def wordsOf (a n : Nat) : List Nat := (List.range ((a % 8 + n + 7) / 8)).map fun i => a / 8 * 8 + 8 * i

/-- Does any of the n bytes from a on lie in a word with an uncorrectable error (R510, R514)? -/
def poisoned (s : State) (a n : Nat) : Bool := (wordsOf a n).any fun w => s.poison.contains w || s.faulted w

/-- Mark the words of n bytes from a on as uncorrectable. -/
def addPoison (s : State) (a n : Nat) : State := { s with poison := (wordsOf a n).foldl setAdd s.poison }

/-- Clear the error of every word that n bytes from a on replace whole. -/
def clearPoison (s : State) (a n : Nat) : State :=
  { s with poison := s.poison.filter fun w => !(decide (a ≤ w) && decide (w + 8 ≤ a + n)) }

/-- Store bytes as the controllers do: a word replaced whole loses its error (R510, R514). -/
def put (s : State) (a : Nat) (bs : List Byte) : State := (s.store a bs).clearPoison a bs.length

/-! ### Slow-domain values (R55) -/

/-- The slow-domain value of a mirrored register. -/
def slowReg (s : State) (a : Nat) : Word := (Tab.find s.bus.slow a).getD (resetAt a)

/-- Set a slow-domain value; the mirror shows it from the next refresh on. -/
def setSlow (s : State) (a : Nat) (v : Word) : State := { s with bus := { s.bus with slow := Tab.put s.bus.slow a v } }

/-- A field of a slow-domain value. -/
def sf (s : State) (x : Fld) : Nat := bits (s.slowReg x.addr).toNat x.hi x.lo

/-- Set a field of a slow-domain value. -/
def setSf (s : State) (x : Fld) (n : Nat) : State :=
  s.setSlow x.addr (BitVec.ofNat 64 (putBits (s.slowReg x.addr).toNat x.hi x.lo n))

/-! ### Free values -/

/-- The next open value, and the state after taking it (log entry 4). -/
def takeFree (s : State) : Nat × State := (Config.freeValue s.free, { s with free := s.free + 1 })

end State
end Sys2Proof.Machine
end

