-- ==== Sys2Proof/Machine/Crypto.lean ====
section
/-! DEFINITION. Check values and signatures: the reflected CRCs of the manual (R68, R326, R482), SHA-256 and ECDSA over
curve P-256 as their standards define them (R80, log entry 114). -/

namespace Sys2Proof.Machine

/-- One bit of a reflected CRC with reflected polynomial poly. -/
def crcBit (poly c : Nat) : Nat := if c % 2 = 1 then c / 2 ^^^ poly else c / 2

/-- One byte of a reflected CRC. -/
def crcByte (poly c : Nat) (b : Byte) : Nat := (List.range 8).foldl (fun c _ => crcBit poly c) (c ^^^ b.toNat)

/-- A reflected CRC of w bits over bytes, initial value and final XOR all ones. -/
def crcReflected (w poly : Nat) (bs : List Byte) : Nat := bs.foldl (crcByte poly) (2 ^ w - 1) ^^^ (2 ^ w - 1)

/-- CRC-32C, polynomial 0x1EDC_6F41 (R68). -/
def crc32c (bs : List Byte) : Nat := crcReflected 32 0x82F63B78 bs

/-- CRC-32 of IEEE 802.3, polynomial 0x04C1_1DB7 (R326). -/
def crc32 (bs : List Byte) : Nat := crcReflected 32 0xEDB88320 bs

/-! ### SHA-256, the digest that an image's signature covers (R80) -/

/-- The sum of words, in 32 bits. -/
def add32 (ws : List Nat) : Nat := ws.sum % 2 ^ 32

/-- The exclusive or of the rotations of x right by each of ns, in 32 bits. -/
def rotations (x : Nat) (ns : List Nat) : Nat :=
  ns.foldl (fun y n => y ^^^ (x * 2 ^ (32 - n) % 2 ^ 32 + x / 2 ^ n)) 0

/-- The largest number of w bits whose k-th power is at most n. -/
def rootOf (k w n : Nat) : Nat :=
  (List.range w).foldl (fun r i => if (r + 2 ^ (w - 1 - i)) ^ k ≤ n then r + 2 ^ (w - 1 - i) else r) 0

/-- The primes below n; n is at most 361. -/
def primesBelow (n : Nat) : List Nat :=
  (List.range n).filter fun p => decide (2 ≤ p) && [2, 3, 5, 7, 11, 13, 17].all fun q => p == q || p % q != 0

/-- The first 32 fraction bits of the k-th root of each prime below n. -/
def rootWords (k n : Nat) : List Nat := (primesBelow n).map fun p => rootOf k 40 (p * 2 ^ (32 * k)) % 2 ^ 32

/-- A message cut into blocks of 64 bytes, n of them, after its padding: 0x80, zeros, its length in bits over eight bytes. -/
def digestBlocks (bs : List Byte) : List (List Byte) :=
  let n := (bs.length + 72) / 64
  let all := bs ++ 0x80 :: (List.replicate (64 * n - 9 - bs.length) 0 ++ beBytes 8 (8 * bs.length))
  (List.range n).map fun i => (all.drop (64 * i)).take 64

/-- One more word on a schedule of at least 16 words, newest first. -/
def moreSchedule (ws : List Nat) : List Nat :=
  let at' (back : Nat) : Nat := ws.getD (back - 1) 0
  add32 [at' 16, rotations (at' 15) [7, 18] ^^^ at' 15 / 8, at' 7, rotations (at' 2) [17, 19] ^^^ at' 2 / 1024] :: ws

/-- The 64 words of a block's schedule. -/
def schedule (block : List Byte) : List Nat :=
  let start := ((List.range 16).map fun i => beAt block (4 * i) 4).reverse
  ((List.range 48).foldl (fun ws _ => moreSchedule ws) start).reverse

/-- A round on the eight working words, with the sum of its constant and its schedule word. -/
def digestRound (v : List Nat) (kw : Nat) : List Nat :=
  let x (i : Nat) : Nat := v.getD i 0
  let choice := (x 4 &&& x 5) + ((x 6 ||| x 4) - x 4)
  let majority := (x 0 &&& (x 1 ||| x 2)) ||| (x 1 &&& x 2)
  let t := add32 [x 7, rotations (x 4) [6, 11, 25], choice, kw]
  (add32 [t, rotations (x 0) [2, 13, 22], majority] :: v.take 3) ++ (add32 [x 3, t] :: (v.drop 4).take 3)

/-- A block enters the eight words of the digest. -/
def digestBlock (v : List Nat) (block : List Byte) : List Nat :=
  let ks := List.zipWith (· + ·) (rootWords 3 312) (schedule block)
  List.zipWith (fun a b => add32 [a, b]) v (ks.foldl digestRound v)

/-- SHA-256 as 32 bytes. -/
def sha256 (bs : List Byte) : List Byte :=
  ((digestBlocks bs).foldl digestBlock (rootWords 2 20)).flatMap (beBytes 4)

/-! ### ECDSA over P-256 -/

/-- The field's prime. -/
def p256 : Nat := 2 ^ 256 - 2 ^ 224 + 2 ^ 192 + 2 ^ 96 - 1

/-- The group's order. -/
def n256 : Nat := 0xffffffff00000000ffffffffffffffffbce6faada7179e84f3b9cac2fc632551

/-- The curve's constant b. -/
def b256 : Nat := 0x5ac635d8aa3a93e7b3ebbd55769886bc651d06b0cc53b0f63bce3c3e27d2604b

/-- The base point. -/
def g256 : Option (Nat × Nat) :=
  some (0x6b17d1f2e12c4247f8bce6e563a440f277037d812deb33a0f4a13945d898c296,
        0x4fe342e2fe1a7f9b8ee7eb4a7c0f9e162bce33576b315ececbb6406837bf51f5)

/-- b to the power e modulo m, for e below 2^k. -/
def powMod (k b e m : Nat) : Nat :=
  match k with
  | 0 => 1 % m
  | k + 1 => powMod k (b * b % m) (e / 2) m * (if e % 2 = 1 then b else 1) % m

/-- The inverse modulo a prime. -/
def invMod (a m : Nat) : Nat := powMod 256 (a % m) (m - 2) m

/-- The sum of two points; none is the point at infinity. -/
def ecAdd (x y : Option (Nat × Nat)) : Option (Nat × Nat) :=
  match x, y with
  | none, q => q
  | p, none => p
  | some (x1, y1), some (x2, y2) =>
    if x1 = x2 ∧ (y1 + y2) % p256 = 0 then none
    else
      let l := if x1 = x2 then (3 * x1 * x1 + (p256 - 3)) * invMod (2 * y1) p256 % p256
        else (y2 + p256 - y1) * invMod (x2 + p256 - x1) p256 % p256
      let x3 := (l * l + 2 * p256 - x1 - x2) % p256
      some (x3, (l * (x1 + p256 - x3) + p256 - y1) % p256)

/-- k times a point, for k below 2^n. -/
def ecMul (n k : Nat) (q : Option (Nat × Nat)) : Option (Nat × Nat) :=
  match n with
  | 0 => none
  | m + 1 => ecAdd (if k % 2 = 1 then q else none) (ecMul m (k / 2) (ecAdd q q))

/-- Does (r, s) sign the digest under the public key (x, y) (R80)? -/
def ecdsaVerify (digest : List Byte) (x y r s : Nat) : Bool :=
  if x < p256 ∧ y < p256 ∧ (y * y) % p256 = (x * x * x + (p256 - 3) * x + b256) % p256 ∧
      0 < r ∧ r < n256 ∧ 0 < s ∧ s < n256 then
    let w := invMod s n256
    match ecAdd (ecMul 256 (ofBe digest * w % n256) g256) (ecMul 256 (r * w % n256) (some (x, y))) with
    | none => false
    | some (px, _) => px % n256 == r
  else false

end Sys2Proof.Machine
end

