-- ==== Sys2Proof/Machine/Flags.lean ====
section
/-! DEFINITION. Status flags and their set-event counts (R40, R52–R54): a status register holds sixteen flags in bits
15–0 and SEQ in bits 31–16. -/

namespace Sys2Proof.Machine
namespace State

/-- Set flags of the status register at a: one set event in the cycle, whether or not they were set (R52). -/
def raiseAll (s : State) (a : Nat) (flags : List Nat) : State :=
  let v := (s.reg a).toNat
  let fl := flags.foldl (fun m b => m ||| 2 ^ b) (bits v 15 0)
  let seq := if s.cycle.contains a then bits v 31 16 else (bits v 31 16 + 1) % 65536
  { (s.setReg a (BitVec.ofNat 64 (seq * 65536 + fl % 65536))) with cycle := setAdd s.cycle a }

/-- Set one flag of the status register at a. -/
def raise (s : State) (a flag : Nat) : State := s.raiseAll a [flag]

/-- Is a flag of the status register at a set? -/
def flagSet (s : State) (a flag : Nat) : Bool := bit (s.reg a).toNat flag

/-- Does a status register belong to the slow domain, whose blocks run on the slow clock? -/
def slowStatus (a : Nat) : Bool := a == Reg.NVM_BLOCK_STATUS || a == Reg.POWER_BLOCK_STATUS

/-- A new cycle begins for the blocks of the fast domain, or for those of the slow domain (R52, log entry 3). -/
def newCycle (s : State) (slow : Bool) : State := { s with cycle := s.cycle.filter fun a => slowStatus a != slow }

/-- Set flags of a mirrored status register in the slow domain (R40, R52). -/
def slowRaise (s : State) (a : Nat) (flags : List Nat) : State :=
  let v := (s.slowReg a).toNat
  let fl := flags.foldl (fun m b => m ||| 2 ^ b) (bits v 15 0)
  let seq := if s.cycle.contains a then bits v 31 16 else (bits v 31 16 + 1) % 65536
  { (s.setSlow a (BitVec.ofNat 64 (seq * 65536 + fl % 65536))) with cycle := setAdd s.cycle a }

end State
end Sys2Proof.Machine
end

