-- ==== Sys2Proof/Machine/Operands.lean ====
section
/-! DEFINITION. The operands of an access (R36–R50): widths, views, halves, the class a requester reaches. -/

namespace Sys2Proof.Machine

/-- The bytes of an access. -/
def widthBytes (w : Width) : Nat :=
  match w with | .w8 => 1 | .w16 => 2 | .w32 => 4 | .w64 => 8

/-- The views of a block (R38). -/
inductive View where
  | normal | set | clear | toggle
  deriving DecidableEq, Repr

/-- The part of a register that an access names (R46). -/
inductive Part where
  | whole | low | high
  deriving DecidableEq, Repr

/-- The highest class a requester reaches (R40, R41). -/
def reachOf (r : Req) : Nat :=
  if r.master.val = 0 then 2
  else if r.master.val = 15 then 1
  else if r.master.val ≤ 8 then (match r.mode with | .user => 0 | _ => 1)
  else 0

/-- The alias views are legal only for a register with an RW field and no WO, WO1, SQ or MR field (R50). -/
def RegRow.aliasable (r : RegRow) : Bool :=
  (r.fields.any fun x => x.type == .rw) &&
  r.fields.all fun x => match x.type with | .wo | .wo1 | .sq | .mr => false | _ => true

end Sys2Proof.Machine
end

