-- ==== Sys2Proof/Machine/Access.lean ====
section
/-! DEFINITION. How the part judges an access, and what a plain read or write does (R36–R59, R621). -/

namespace Sys2Proof.Machine

/-- What an access reaches, once judged. -/
inductive Target where
  | reg (f : Found) (view : View) (part : Part)
  | mem           -- memory that holds what is written
  | readOnly      -- a window that discards writes (R136, R287)
  | chain (n : Nat)
  deriving DecidableEq, Repr

/-- The part's judgement of an access (R44): to be served; without sufficient class; a bus error (R45). -/
inductive Verdict where
  | ok (t : Target)
  | denied (need : Nat)
  | error (cause : Nat)
  deriving DecidableEq, Repr

namespace State

/-- Is the part a GX8128-M (R2)? -/
def isM (s : State) : Bool := s.f Reg.SYS_DEVICE_ID_VARIANT == 1

/-- The requester as it is judged: a core halted in debug mode accesses at machine-mode rights (R41). -/
def actsAs (s : State) (r : Req) : Req :=
  if 1 ≤ r.master.val ∧ r.master.val ≤ 8 ∧ bit (s.f Reg.APPCX_CORE_STATE_HALTED) (r.master.val - 1) then { r with mode := .machine } else r

/-- Does a requester issue nothing: an application core of a GX8128-W (R2), the debug module while DM_EN is 0 (R558), or a
master that waits for room for its access (R56, R442, R502)? The blit engines, the descriptor prefetcher, the chain's send side
and the management MACs issue no register access and no message (R40, R529, log entry 28); what they read and write in memory
comes with their own commands. The cue engine and the chain's identity 15 have queues of their own. -/
def silent (s : State) (r : Req) : Bool :=
  (decide (1 ≤ r.master.val) && decide (r.master.val ≤ 8) && !s.isM) ||
  (r.master.val == 16 && !s.fb Reg.DBG_CTRL_DM_EN) || [10, 11, 12, 13, 14, 17].contains r.master.val ||
  (r.master.val != 9 && (s.bus.stalled.any fun w => w.master == r.master.val)) ||
  (s.bus.blocked.any fun w => w.master == r.master.val) ||
  (s.chain.stalled.any fun x => x.req.master == r.master)

/-- The floor of the block at index k (R43); 0b11 counts as 0b10. -/
def floorOf (s : State) (k : Nat) : Nat :=
  min 2 (bits (s.reg (Reg.CLASS_FLOOR (k / 16))).toNat (2 * (k % 16) + 1) (2 * (k % 16)))

/-- Have all sixteen channels become READY since reset (R500, R516)? -/
def ddrReady (s : State) : Bool := (List.range 16).all fun c => s.f (Reg.MC_STATE_STATE c) != 0

/-- Is the NVM staging buffer locked (R565): a STORE write waits in the queue, or a store runs? -/
def stagingLocked (s : State) : Bool :=
  s.nvm.storing.isSome || (s.bus.nvmQ ++ s.bus.stalled).any fun w => w.addr == Reg.NVM_STORE

/-- The fitted DDR4 capacity in bytes (R500): zero until all sixteen channels have become READY. -/
def capacity (s : State) : Nat :=
  if s.ddrReady then
    2 ^ 33 * 16 * (if s.fb (Reg.MC_STATE_DENSITY 0) then 2 else 1) * (if s.fb (Reg.MC_STATE_RANKS 0) then 2 else 1)
  else 0

/-- STATE of the status entry of cue slot i (R139). -/
def cueState (s : State) (i : Nat) : Nat := bits (s.rd (0xE800E40000 + 16 * i) 8) 63 60

/-- Does a write to cue slot i meet a lock (R136)? -/
def cueLocked (s : State) (i : Nat) : Bool :=
  s.cueState i == 1 || (decide (7680 ≤ i) && (s.f Reg.CHAIN_STATE_ROLE == 2 || s.f Reg.CHAIN_STATE_ROLE == 3))

/-- Does a write to the window of Ingot slot i meet a lock (R82)? -/
def slotLocked (s : State) (i : Nat) : Bool :=
  s.f (Reg.INGOT_SLOT_STATE_STATE i) == 2 || s.f (Reg.INGOT_SLOT_STATE_STATE i) == 5 ||
  s.f (Reg.INGOT_SLOT_STATE_STATE i) == 6

/-- Is the offset in the 16 MiB cluster store populated (R513)? -/
def clusterStore (o : Nat) : Bool :=
  decide (o < 0x200000) ||
  (decide (0x400000 ≤ o) && decide (o < 0xC00000) && decide ((o - 0x400000) % 0x80000 < 287496)) ||
  (decide (0xE00000 ≤ o) && decide (o < 0xE60000)) || (decide (0xF00000 ≤ o) && decide (o < 0xF20000))

/-- Does a write at offset o of the cluster store meet a lock? -/
def storeLocked (s : State) (o : Nat) : Bool :=
  if 0xE00000 ≤ o ∧ o < 0xE40000 then s.cueLocked ((o - 0xE00000) / 32)
  else if 0xF00000 ≤ o then s.slotLocked ((o - 0xF00000) / 0x10000)
  else false

/-- Are masters' writes to offset o of the cluster store discarded (R136, R287)? -/
def storeReadOnly (o : Nat) : Bool :=
  (decide (0x100000 ≤ o) && decide (o < 0x200000)) || (decide (0xE40000 ≤ o) && decide (o < 0xE60000))

/-- Does a write to a register meet a lock (R43, R59)? A WO1 register locks itself; CLASS_FLOOR, MB_BIND and
DBG_CTRL are locked by the register beside them; gate lists in force or pending are locked (R371). -/
def regLocked (s : State) (x : Found) : Bool :=
  (x.row.fields.any fun y => y.type == .wo1 && bits (s.reg x.addr).toNat y.hi y.lo != 0) ||
  match x.row.eff with
  | .classFloor => s.fb Reg.CLASS_LOCK_LOCKED
  | .mbBind => s.fb Reg.MB_BIND_LOCK_LOCKED
  | .dbgCtrl => s.fb Reg.DBG_LOCK_LOCKED
  | .gateEntry | .gateLen =>
    let p := 4 * x.inst + x.idx.headD 0
    let r := Tab.get s.ports p {}
    s.fb (Reg.GATE_CTRL_EN p) && (r.bank == x.idx.getD 1 0 || r.nextBank == some (x.idx.getD 1 0))
  | _ =>
    -- lookup table words during a fill (R257, R266)
    (decide (0x010 ≤ x.first) && decide (x.first < 0x030) && decide (0x10000 ≤ x.addr % 2 ^ 18) &&
      s.fb (Reg.LE_DECODE_LOAD_BUSY x.inst)) ||
    (x.first == 0x030 && decide (0x10000 ≤ x.addr % 2 ^ 18) && s.fb (Reg.BC_ENCODE_LOAD_BUSY x.inst) &&
      (Tab.get s.encFill x.inst ⟨0, 0, 2⟩).set == x.idx.headD 0)

/-- The access checks of a window that takes naturally aligned 32-bit and 64-bit accesses. R36 gives the widths and the
class of the Slab and Keeper SRAM windows and no order of the checks: the causes and the order of R44 are taken, NARROW,
MISALIGNED, class, lock (log entry 91). -/
def judgeWindow (r : Req) (a : Nat) (w : Width) (need : Nat) (locked : Bool) (t : Target) : Verdict :=
  if widthBytes w < 4 then .error 3
  else if a % widthBytes w ≠ 0 then .error 4
  else if reachOf r < need then .denied need
  else if locked then .error 7
  else .ok t

/-- Judge an access to the register space in the order of R44. A 64-bit access at an address 4 mod 8 meets MISALIGNED and
WIDE; MISALIGNED is answered. An alias access to the NVM staging buffer meets UNIMPLEMENTED (log entry 91). -/
def judgeReg (s : State) (r : Req) (a : Nat) (w : Width) (wr : Bool) : Verdict :=
  match findReg a with
  | none =>
    -- the staging buffer and the read window of NVM (R564, R568)
    if bits a 27 20 = 2 ∧ 0x10000 ≤ bits a 19 0 ∧ bits a 19 0 < 0x30000 then
      judgeWindow (s.actsAs r) a w 2 (wr && s.stagingLocked && decide (bits a 19 0 < 0x20000))
        (if bits a 19 0 < 0x20000 then .mem else .readOnly)
    else .error 2
  | some x =>
    let need := max x.row.cls.num (s.floorOf (bits a 27 20))
    let view := match bits a 19 18 with | 0 => View.normal | 1 => View.set | 2 => View.clear | _ => View.toggle
    if widthBytes w < 4 then .error 3
    else if a % widthBytes w ≠ 0 then .error 4
    else if w = .w64 ∧ x.row.wide = false then .error 5
    else if view ≠ .normal ∧ x.row.aliasable = false then .error 6
    else if reachOf (s.actsAs r) < need then .denied need
    else if wr ∧ s.regLocked x then .error 7
    else .ok (.reg x view (if x.row.wide = false ∨ w = .w64 then .whole else if a % 8 = 0 then .low else .high))

/-- Judge an access of any master anywhere in the address space (R36, R37, R44). -/
def judge (s : State) (r : Req) (a : Nat) (w : Width) (wr : Bool) : Verdict :=
  let top := bits a 39 32
  if a < 2 ^ 39 then (if a + widthBytes w ≤ s.capacity then .ok .mem else .error 1)
  else if top / 16 = 0xC then
    let n := top % 16
    let o := bits a 31 0
    if s.f Reg.CHAIN_STATE_ROLE = 1 ∧ s.f (Reg.CHAIN_PEER_STATE n) = 2 ∧ n ≠ s.f Reg.CHAIN_STATE_INDEX ∧
        (o < 0x19000000 ∨ (0x40000000 ≤ o ∧ o < 0x80000000)) then
      (if reachOf (s.actsAs r) < 1 then .denied 1 else .ok (.chain n))
    else .error 1
  else if top = 0xE0 then
    if bits a 31 0 < 0x8000000 then judgeWindow (s.actsAs r) a w 1 false .mem else .error 1
  else if top = 0xE8 then
    let o := bits a 31 0
    if o < 0x1000000 ∧ clusterStore o then
      judgeWindow (s.actsAs r) a w 1 (wr && s.storeLocked o) (if storeReadOnly o then .readOnly else .mem)
    else .error 1
  else if top = 0xF0 then
    if bits a 31 28 = 0 then s.judgeReg r a w wr else .error 1
  else if top = 0xFF then
    -- the L2 scratch of a GX8128-W is fused off with its cores (R2, R37, log entry 8)
    if s.isM = false ∧ bits a 31 0 < 0x400000 then .error 1
    else if bits a 31 0 + widthBytes w ≤ 0x80000000 then (if reachOf (s.actsAs r) < 1 then .denied 1 else .ok .mem)
    else if 0x80000000 ≤ bits a 31 0 ∧ bits a 31 0 < 0x80080000 then judgeWindow (s.actsAs r) a w 2 false .mem
    else .error 1
  else .error 1

/-! ### What a refused access leaves -/

/-- How the last access of a master ended. -/
def respOf (s : State) (m : Nat) : Resp := Tab.get s.bus.resp m {}

/-- Answer master m. A bus error of the debug module sets its system-bus error status, which stays until reset (R45, log
entry 92). -/
def respond (s : State) (m : Nat) (k : RespKind) (data : Word) (cause : Nat) : State :=
  { s with bus := { s.bus with resp := Tab.put s.bus.resp m { kind := k, data := data, cause := cause },
                               sbError := s.bus.sbError || (m == 16 && k == .busError) } }

/-- An access without sufficient class (R42, R621). -/
def logDenied (s : State) (r : Req) (a : Nat) (wr : Bool) (need : Nat) : State :=
  let next := s.f Reg.ACCESS_LOG_HEAD_NEXT
  let s1 := s.satF Reg.ACCESS_LOG_HEAD_TOTAL 1
  let total := s1.f Reg.ACCESS_LOG_HEAD_TOTAL
  let entry := 2 ^ 63 + (if wr then 2 ^ 62 else 0) + need * 2 ^ 60 + r.master.val * 2 ^ 52 + total % 4096 * 2 ^ 40 + a % 2 ^ 40
  let s2 := (s1.setReg (Reg.ACCESS_LOG_ENTRY next) (BitVec.ofNat 64 entry)).setF Reg.ACCESS_LOG_HEAD_NEXT (next + 1)
  let s3 := s2.raiseAll Reg.MASTERS_BLOCK_STATUS
    (Flag.MASTERS_ACCESS_DENIED :: if s.bus.logUnread = 32 then [Flag.MASTERS_LOG_WRAPPED] else [])
  { s3 with bus := { s3.bus with logUnread := min 32 (s.bus.logUnread + 1) } }

/-- A denied access: it reads zero, its write is ignored (R42); a denied read of SYS_SEM_ACQ shows identity 31 (R63). -/
def deny (s : State) (r : Req) (a : Nat) (wr : Bool) (need : Nat) : State :=
  let sem := wr = false ∧ 0xF000000400 ≤ a ∧ a < 0xF000000500
  (s.logDenied r a wr need).respond r.master.val .denied (if sem then 0x8000001F else 0) 0

/-- A bus error (R45); cause LOCKED also updates LOCK_VIOLATION (R59). -/
def busError (s : State) (r : Req) (a : Nat) (cause : Nat) : State :=
  let s1 := ((s.satF Reg.BUS_ERROR_LOG_COUNT 1).setF Reg.BUS_ERROR_LOG_CAUSE cause).setF Reg.BUS_ERROR_LOG_MASTER r.master.val
  let s2 := s1.setF Reg.BUS_ERROR_LOG_ADDR a
  let s3 := if cause = 7 then
      ((s2.satF Reg.LOCK_VIOLATION_COUNT 1).setF Reg.LOCK_VIOLATION_MASTER r.master.val).setF Reg.LOCK_VIOLATION_ADDR a
    else s2
  (s3.raiseAll Reg.MASTERS_BLOCK_STATUS
    (Flag.MASTERS_BUS_ERROR :: if cause = 7 then [Flag.MASTERS_LOCK_VIOLATION] else [])).respond r.master.val .busError 0 cause

/-- Serve an access by its judgement. A requester that issues nothing leaves the state as it is; system bus access of the
debug module (identity 16) ends in a bus error of the debug module alone while SBA_EN is 0 (R558). -/
def guarded (s : State) (r : Req) (a : Nat) (w : Width) (wr : Bool) (serve : Target → State → State) : State :=
  if s.silent r then s
  else if r.master.val = 16 ∧ s.fb Reg.DBG_CTRL_SBA_EN = false then s.respond r.master.val .busError 0 0
  else
    match s.judge r a w wr with
    | .ok t => serve t s
    | .denied need => s.deny r a wr need
    | .error cause => s.busError r a cause

/-! ### Writing a register -/

/-- The bits of a register that a part covers. -/
def Part.mask (p : Part) (wide : Bool) : Nat :=
  match p with
  | .whole => if wide then 2 ^ 64 - 1 else 2 ^ 32 - 1
  | .low => 2 ^ 32 - 1
  | .high => (2 ^ 32 - 1) * 2 ^ 32

/-- What a write of d carries to a 64-bit register (R48): nothing for a low half, which is staged; the staged low half
with a high half. R48 does not say how an alias write to a half combines with staging: a low half is staged as written,
whatever its view, and the view of the high-half access applies to both halves (log entry 91). Answers the mask of the bits carried and the data, or none where the write only stages. -/
def assemble (s : State) (r : Req) (x : Found) (p : Part) (d : Nat) : Option (Nat × Nat) × State :=
  match p with
  | .low =>
    (none, { s with bus := { s.bus with stage := Tab.put s.bus.stage r.master.val ⟨x.addr, BitVec.ofNat 32 d⟩ } })
  | .high =>
    match Tab.find s.bus.stage r.master.val with
    | some h =>
      if h.addr = x.addr then
        (some (2 ^ 64 - 1, d % 2 ^ 32 * 2 ^ 32 + h.value.toNat),
          { s with bus := { s.bus with stage := Tab.del s.bus.stage r.master.val } })
      else (some (Part.mask .high true, d % 2 ^ 32 * 2 ^ 32), s)
    | none => (some (Part.mask .high true, d % 2 ^ 32 * 2 ^ 32), s)
  | .whole =>
    if x.row.wide then
      let untag (t : Tab Half64) : Tab Half64 :=
        match Tab.find t r.master.val with
        | some h => if h.addr = x.addr then Tab.del t r.master.val else t
        | none => t
      (some (2 ^ 64 - 1, d % 2 ^ 64), { s with bus := { s.bus with stage := untag s.bus.stage, hold := untag s.bus.hold } })
    else (some (2 ^ 32 - 1, d % 2 ^ 32), s)

/-- The value written by way of a view (R51). -/
def View.apply (v : View) (old d : Nat) : Nat :=
  match v with
  | .normal => d
  | .set => old ||| d
  | .clear => old - (old &&& d)
  | .toggle => old ^^^ d

/-- One field of the register at a after a write of d to the bits of mask (R20, R49, R51, R53, R59): an RW field takes the
bits, a WO1 field sets, flags clear against a matching SEQ, every other field keeps its value. An RSV field written in the
normal view with another value than it holds has no defined value (log entry 7); the alias views ignore it. -/
def writeField (a : Nat) (alias_ : Bool) (mask d old : Nat) (v : Nat) (x : Field) : Nat :=
  match x.type with
  | .rsv =>
    let was := bits old x.hi x.lo
    let new := bits ((old - (old &&& mask)) + (d &&& mask)) x.hi x.lo
    if alias_ ∨ new = was then v else putBits v x.hi x.lo (Config.reservedValue a was new)
  | .rw => putBits v x.hi x.lo (bits ((old - (old &&& mask)) + (d &&& mask)) x.hi x.lo)
  | .wo1 => putBits v x.hi x.lo (2 ^ (x.hi + 1 - x.lo) - 1)
  | .sq =>
    if x.lo = 0 ∧ bits d 31 16 = bits old 31 16 then
      putBits v x.hi x.lo (bits old 15 0 - (bits old 15 0 &&& bits d 15 0))
    else v
  | _ => v

/-- A register's value after a write of d to the bits of mask. -/
def writeFields (a : Nat) (alias_ : Bool) (fs : List Field) (mask d old : Nat) : Nat :=
  fs.foldl (writeField a alias_ mask d old) old

/-- Does a write to this register wait for the slow clock (R56)? Every writable register of the NVM and POWER blocks
does. -/
def isSlow (x : Found) : Bool := x.first == 0x002 || x.first == 0x0D0

/-- Is there room for a write in the forwarded-write queue of its block? -/
def roomFor (s : State) (w : Forwarded) : Bool :=
  decide ((if bits w.addr 27 20 = 2 then s.bus.nvmQ else s.bus.powerQ).length < 16)

/-- A write enters the forwarded-write queue of its block. -/
def enqueueSlow (s : State) (w : Forwarded) : State :=
  if bits w.addr 27 20 = 2 then s.setBus { s.bus with nvmQ := s.bus.nvmQ ++ [w] }
  else s.setBus { s.bus with powerQ := s.bus.powerQ ++ [w] }

/-- Put a write into the forwarded-write queue of its block, or hold its master where the queue is full (R56). -/
def forward (s : State) (w : Forwarded) : State :=
  if s.roomFor w then s.enqueueSlow w
  else (s.setBus { s.bus with stalled := s.bus.stalled ++ [w] }).respond w.master .waiting 0 0

/-- What a write to a register starts, once it passes: the requester, the register, its value after the write, the
data written and the bits carried. -/
abbrev WriteEffect := Req → Found → Nat → Nat → Nat → State → State

/-- The effect of a write to a register that does nothing beside holding its fields. -/
def plainWrite : WriteEffect := fun r x new d mask s =>
  if isSlow x then s.forward { addr := x.addr, mask := BitVec.ofNat 64 mask, data := BitVec.ofNat 64 d, master := r.master.val }
  else s.setReg x.addr (BitVec.ofNat 64 new)

/-- Serve a write to a register. -/
def serveRegWrite (eff : WriteEffect) (r : Req) (x : Found) (v : View) (p : Part) (d : Nat) (s : State) : State :=
  match s.assemble r x p d with
  | (none, s1) => s1.respond r.master.val .done 0 0
  | (some (mask, data), s1) =>
    let old := (s1.reg x.addr).toNat
    let data' := View.apply v old data
    eff r x (writeFields x.addr (v != .normal) x.row.fields mask data' old) data' mask (s1.respond r.master.val .done 0 0)

/-- A write to the register at address a whose effect is eff. -/
def writeReg (s : State) (r : Req) (a : Nat) (w : Width) (d : Nat) (eff : WriteEffect) : State :=
  s.guarded r a w true fun t s' =>
    match t with
    | .reg x v p => serveRegWrite eff r x v p d s'
    | _ => s'

/-! ### Reading a register -/

/-- The value that a read of a register returns, and the state it leaves. -/
abbrev ReadEffect := Req → Found → State → Nat × State

/-- A read of a register whose fields are what it returns. -/
def plainRead : ReadEffect := fun _ x s => ((s.reg x.addr).toNat, s)

/-- Serve a read of a register, with the holding register of a 64-bit register's halves (R48). -/
def serveRegRead (eff : ReadEffect) (r : Req) (x : Found) (p : Part) (s : State) : State :=
  match p with
  | .whole =>
    let (v, s1) := eff r x s
    let untag (t : Tab Half64) : Tab Half64 :=
      match Tab.find t r.master.val with
      | some h => if h.addr = x.addr then Tab.del t r.master.val else t
      | none => t
    let s2 := if x.row.wide then { s1 with bus := { s1.bus with stage := untag s1.bus.stage, hold := untag s1.bus.hold } } else s1
    s2.respond r.master.val .done (BitVec.ofNat 64 v) 0
  | .low =>
    let (v, s1) := eff r x s
    (s1.setBus { s1.bus with hold := Tab.put s1.bus.hold r.master.val ⟨x.addr, BitVec.ofNat 32 (bits v 63 32)⟩ }).respond
      r.master.val .done (BitVec.ofNat 64 (bits v 31 0)) 0
  | .high =>
    match Tab.find s.bus.hold r.master.val with
    | some h =>
      if h.addr = x.addr then
        (s.setBus { s.bus with hold := Tab.del s.bus.hold r.master.val }).respond r.master.val .done
          (BitVec.ofNat 64 h.value.toNat) 0
      else let (v, s1) := eff r x s; s1.respond r.master.val .done (BitVec.ofNat 64 (bits v 63 32)) 0
    | none => let (v, s1) := eff r x s; s1.respond r.master.val .done (BitVec.ofNat 64 (bits v 63 32)) 0

/-- A read of the register at address a whose effect is eff. -/
def readReg (s : State) (r : Req) (a : Nat) (w : Width) (eff : ReadEffect) : State :=
  s.guarded r a w false fun t s' =>
    match t with
    | .reg x _ p => serveRegRead eff r x p s'
    | _ => s'

end State
end Sys2Proof.Machine
end

