-- ==== Sys2Proof/Machine/Requests.lean ====
section
/-! DEFINITION. The request queues of the DDR4 channels and the grants of their data bus (R501–R504), and what a write to DDR4
meets (R510). A request stands for the bus time of an access; what an access reads or writes happens as its command puts the
request into its queue (log entry 29). -/

namespace Sys2Proof.Machine
namespace State

/-- The record of channel c. -/
def chan (s : State) (c : Nat) : Chan := Tab.get s.chans c {}

/-- Set the record of channel c. -/
def setChan (s : State) (c : Nat) (x : Chan) : State := { s with chans := Tab.put s.chans c x }

end State

/-- The channel of an address (R501). -/
def chanOf (a : Nat) : Nat := a / 256 % 16

namespace Chan

/-- The queue of one activity, its depth, and the channel with that queue replaced (R502). -/
def queue (x : Chan) (q : MemQueue) : List MemReq :=
  match q with | .realTime => x.rt | .ingest => x.ingest | .blit => x.blit | .core => x.core
def depth (q : MemQueue) : Nat := match q with | .realTime | .ingest => 64 | .blit | .core => 32
def withQueue (x : Chan) (q : MemQueue) (l : List MemReq) : Chan :=
  match q with
  | .realTime => { x with rt := l } | .ingest => { x with ingest := l } | .blit => { x with blit := l }
  | .core => { x with core := l }

/-- Is there room in a queue? -/
def room (x : Chan) (q : MemQueue) : Bool := decide ((x.queue q).length < depth q)

/-- The requests in all four queues (R505). -/
def count (x : Chan) : Nat := x.rt.length + x.ingest.length + x.blit.length + x.core.length

/-- A request enters its queue; behind a full queue it waits with its source, and stalls nothing else (R502). -/
def add (x : Chan) (q : MemQueue) (r : MemReq) : Chan :=
  if x.room q ∧ x.waiters.all (fun y => y.1 != q) then x.withQueue q (x.queue q ++ [r]) else { x with waiters := x.waiters ++ [(q, r)] }

/-- The oldest request that waits for a queue enters it where there is room. -/
def takeWaiting (x : Chan) (q : MemQueue) : Chan :=
  match x.waiters.find? fun y => y.1 == q with
  | some y => if x.room q then { x.withQueue q (x.queue q ++ [y.2]) with waiters := x.waiters.erase y } else x
  | none => x

/-- The request that a queue serves next: in the real-time queue urgent ones go first; else the oldest (R503). -/
def first (x : Chan) (q : MemQueue) : Option MemReq :=
  match q with
  | .realTime => match x.rt.find? fun r => r.urgent with | some r => some r | none => x.rt.head?
  | _ => (x.queue q).head?

end Chan

/-- The queue in turn at a position of the weighted round-robin (R503). -/
def turnOwner (wi wb wc p : Nat) : MemQueue :=
  let i := p % (wi + wb + wc)
  if i < wi then .ingest else if i < wi + wb then .blit else .core

namespace State

/-- The weights of channel c: ingest, blit, core; 0 is taken as 1 (R517). -/
def weights (s : State) (c : Nat) : Nat × Nat × Nat :=
  (max 1 (s.f (Reg.MC_SHARE_WT_INGEST c)), max 1 (s.f (Reg.MC_SHARE_WT_BLIT c)), max 1 (s.f (Reg.MC_SHARE_WT_CORE c)))

/-- Does the present slot of channel c belong to the real-time queue? The first RT_SHARE slots of a round do (R503, log
entry 97). -/
def slotIsRt (s : State) (c : Nat) : Bool := decide ((s.chan c).slot < max 1 (s.f (Reg.MC_SHARE_RT_SHARE c)))

/-- The queues in the order in which the present slot of channel c is offered to them: its owner, the real-time queue,
the others (R503). -/
def slotOrder (s : State) (c : Nat) : List MemQueue :=
  let (wi, wb, wc) := s.weights c
  let own := if s.slotIsRt c then .realTime else turnOwner wi wb wc (s.chan c).turn
  [own, .realTime, .ingest, .blit, .core]

/-- The queue that the present slot of channel c serves, with its request; none where no queue holds one. -/
def grant (s : State) (c : Nat) : Option (MemQueue × MemReq) :=
  (s.slotOrder c).findSome? fun q => ((s.chan c).first q).map fun r => (q, r)

/-- A slot of channel c passes: its request leaves its queue, a waiting one enters, the round and the turn go on. -/
def slotPasses (s : State) (c : Nat) : Option MemReq × State :=
  match s.grant c with
  | none => (none, s)
  | some (q, r) =>
    let x := (s.chan c).withQueue q (((s.chan c).queue q).erase r)
    let y := x.takeWaiting q
    (some r, s.setChan c { y with
      slot := (y.slot + 1) % 16, turn := if s.slotIsRt c then y.turn else y.turn + 1,
      -- the retries of a failing command or write count anew once one has completed (R510, log entry 41)
      caTries := 0, crcTries := if r.write then 0 else y.crcTries })

/-- Has a queue of channel c, or a source that waits for it, a request? -/
def chanBusy (s : State) (c : Nat) : Bool := decide (0 < (s.chan c).count) || !(s.chan c).waiters.isEmpty

/-- Master src requests the 256-byte spans that n bytes from a on touch, for a read or a write; nothing outside DDR4 (R501,
R502). -/
def request (s : State) (q : MemQueue) (src a n : Nat) (write : Bool := false) : State :=
  if a < 2 ^ 39 ∧ 0 < n then
    (List.range ((a % 256 + n + 255) / 256)).foldl (fun t i =>
      let b := a / 256 * 256 + 256 * i
      t.setChan (chanOf b) ((t.chan (chanOf b)).add q { src := src, addr := b, write := write })) s
  else s

/-- Is there room for n bytes from a on in a queue of their channels, with no older request that waits for it (R502)? -/
def queueRoom (s : State) (q : MemQueue) (a n : Nat) : Bool :=
  [chanOf a, chanOf (a + n - 1)].all fun c => (s.chan c).room q && (s.chan c).waiters.all fun y => y.1 != q

/-- Does a full queue stall a source (R502)? -/
def sourceStalled (s : State) (src : Nat) : Bool := s.chans.any fun x => x.2.waiters.any fun y => y.2.src == src && y.2.burst.isNone

/-! ### Errors that a channel records (R510, R518) -/

/-- Set flags of the status of channel c. -/
def mcRaise (s : State) (c : Nat) (flags : List Nat) : State := s.raiseAll (Reg.MC_BLOCK_STATUS c) flags

/-- Log a word's error (R510, R518). -/
def mcLog (s : State) (c a : Nat) (ue scrub : Bool) : State :=
  ((s.setF (Reg.MC_ECC_LOG_UE c) (if ue then 1 else 0)).setF (Reg.MC_ECC_LOG_SCRUB c) (if scrub then 1 else 0)).setF
    (Reg.MC_ECC_LOG_ADDR c) (a / 8 * 8)

/-- Channel c has met an uncorrectable word at address a. -/
def mcUe (s : State) (c a : Nat) (scrub : Bool) : State :=
  ((s.satF (Reg.MC_ECC_COUNTS_UE c) 1).mcLog c a true scrub).mcRaise c [Flag.MC_UE]

/-- The DDR4 words that a write of n bytes from a on replaces in part and that are uncorrectable. -/
def mergedUe (s : State) (a n : Nat) : List Nat :=
  (wordsOf a n).filter fun w => decide (w < 2 ^ 39) && s.poison.contains w && !s.faulted w && !(decide (a ≤ w) && decide (w + 8 ≤ a + n))

/-- Such words are read first, and recorded. -/
def noteMerged (s : State) (a n : Nat) : State := (s.mergedUe a n).foldl (fun t w => t.mcUe (chanOf w) w false) s

/-- Store bytes: an uncorrectable word of DDR4 that is replaced in part is recorded, and stays uncorrectable (R510). -/
def putDdr (s : State) (a : Nat) (bs : List Byte) : State := (s.noteMerged a bs.length).put a bs

end State
end Sys2Proof.Machine
end

