-- ==== Sys2Proof/Machine/Image.lean ====
section
/-! DEFINITION. What the active Ingot fixes, read from its slot window (R66–R79): sections, entries, bindings. -/

namespace Sys2Proof.Machine

/-- A record of an image: its type, version, flags, check value, payload position and length (R69). -/
structure Record where
  type : Nat
  version : Nat
  flags : Nat
  crc : Nat
  pos : Nat
  len : Nat
  deriving DecidableEq, Repr

/-- The records from position p of an image whose bytes num reads, at most n of them, ending at position e. -/
def recordsFrom (num : Nat → Nat → Nat) (e : Nat) (n p : Nat) : List Record :=
  match n with
  | 0 => []
  | k + 1 =>
    if p + 16 ≤ e then
      let r : Record := ⟨num p 2, num (p + 2) 2, num (p + 8) 4, num (p + 12) 4, p + 16, num (p + 4) 4⟩
      r :: recordsFrom num e k (p + 16 + r.len)
    else []

namespace State

/-- The base of the window of slot i (R82). -/
def slotBase (i : Nat) : Nat := 0xE800F00000 + 0x10000 * i

/-- The n-byte number at position p of slot i. -/
def slotNum (s : State) (i p n : Nat) : Nat := s.rd (slotBase i + p) n

/-- The records of the image in slot i. -/
def slotRecords (s : State) (i : Nat) : List Record := recordsFrom (s.slotNum i) 65536 (s.slotNum i 0x0C 2) 0x20

/-- The n-byte number at offset o of the payload of section ty of the image in slot i; 0 where it has none. -/
def img (s : State) (i ty o n : Nat) : Nat :=
  match (s.slotRecords i).find? fun r => r.type == ty with
  | some r => s.slotNum i (r.pos + o) n
  | none => 0

/-- Is an Ingot active (R97)? -/
def hasIngot (s : State) : Bool := !s.fb Reg.INGOT_ACTIVE_NONE

/-- The active slot; meaningful while an Ingot is active. -/
def slot (s : State) : Nat := s.f Reg.INGOT_ACTIVE_SLOT

/-! ### Sections of the image in slot i -/

/-- CLUSTER of the ENGINE_BIND entry of engine n (R72). -/
def engCluster (s : State) (i n : Nat) : Nat := s.img i 2 (4 * n) 1

/-- Is cluster c ENABLED (R73)? -/
def clusterEnabled (s : State) (i c : Nat) : Bool := decide (c < 8) && bit (s.img i 3 (16 * c + 8) 1) 0

/-- Is raster m ENABLED (R74)? -/
def rasterEnabled (s : State) (i m : Nat) : Bool := decide (m < 16) && bit (s.img i 4 (32 * m + 2) 1) 1

/-- CLUSTER of the RASTER entry of raster m. -/
def rasterCluster (s : State) (i m : Nat) : Nat := s.img i 4 (32 * m) 1

/-- The lock group of raster m; 0xFF for none or for a disabled raster (R74). -/
def lockGroup (s : State) (i m : Nat) : Nat := if s.rasterEnabled i m then s.img i 4 (32 * m + 1) 1 else 0xFF

/-- The enabled rasters that share the lock group of raster m, itself included (R74, R154). -/
def groupOf (s : State) (i m : Nat) : List Nat :=
  let g := s.lockGroup i m
  if g = 0xFF then [m] else (List.range 16).filter fun x => s.lockGroup i x == g

/-- The enabled rasters bound to cluster c (R22), rising. -/
def clusterRasters (s : State) (i c : Nat) : List Nat :=
  (List.range 16).filter fun m => s.rasterEnabled i m && s.rasterCluster i m == c

/-- The engines bound to cluster c, rising. -/
def clusterEngines (s : State) (i c : Nat) : List Nat := (List.range 32).filter fun n => s.engCluster i n == c

/-- MODE of quad q (R75). -/
def quadMode (s : State) (i q : Nat) : Nat := s.img i 5 (4 * q) 1

/-- ROLE of port p (R76): 0 OFF, 1 EGRESS, 2 INGEST, 3 CHAIN. -/
def portRole (s : State) (i p : Nat) : Nat := s.img i 6 (8 * p) 1

/-- LINK of port p. -/
def portLink (s : State) (i p : Nat) : Nat := s.img i 6 (8 * p + 1) 1

/-- RESERVE of port p, in Billets. -/
def portReserve (s : State) (i p : Nat) : Nat := s.img i 6 (8 * p + 4) 2

/-- The RASTER entry of raster m as a timing with the latch positions of R283. -/
def entryTiming (s : State) (i m : Nat) : Timing :=
  let g (o n : Nat) := s.img i 4 (32 * m + o) n
  let v := g 12 2 + g 14 2 + g 16 2 + g 18 2
  { hActive := g 4 2, hFp := g 6 2, hSync := g 8 2, hBp := g 10 2,
    vActive := g 12 2, vFp := g 14 2, vSync := g 16 2, vBp := g 18 2,
    sub := g 3 1, fetchLead := g 20 2, phase := sgn 32 (g 24 4), sendLine := g 12 2, latchLead := min 4 (v - 1) }

/-- The role of port p in the active Ingot; OFF while none is active (R34). -/
def role (s : State) (p : Nat) : Nat := if s.hasIngot then s.portRole s.slot p else 0

/-- Is raster m enabled in the active Ingot? -/
def enabled (s : State) (m : Nat) : Bool := s.hasIngot && s.rasterEnabled s.slot m

/-- The cluster of engine n in the active Ingot; none where it is unbound. -/
def boundTo (s : State) (n : Nat) : Option Nat :=
  if s.hasIngot && decide (s.engCluster s.slot n < 8) then some (s.engCluster s.slot n) else none

/-- The governing raster of a unit of the commit layout (R152, R154): 0–31 engines, 32–39 clusters, 40–55 rasters. -/
def governor (s : State) (u : Nat) : Option Nat :=
  if s.hasIngot then
    (if u < 32 then (s.boundTo u).bind fun c => (s.clusterRasters s.slot c).head?
     else if u < 40 then (s.clusterRasters s.slot (u - 32)).head?
     else if s.rasterEnabled s.slot (u - 40) then some (u - 40) else none)
  else none

end State
end Sys2Proof.Machine
end

