-- ==== Sys2Proof/Machine/Time.lean ====
section
/-! DEFINITION. Device Time, the reference raster and the phase of output rasters as exact functions of Device Time
(R104–R130). -/

namespace Sys2Proof.Machine

/-- A raster position RP(f, l, t) (R15). -/
structure RP where
  f : Nat
  l : Nat
  t : Nat
  deriving DecidableEq, Repr

/-- Positions compare by f, then l, then t (R17). -/
def RP.le (a b : RP) : Bool :=
  decide (a.f < b.f) || (a.f == b.f && (decide (a.l < b.l) || (a.l == b.l && decide (a.t ≤ b.t))))

/-- One second in units of T_Q. -/
def secQ : Nat := 65536 * 1000000000

namespace Timing

/-- H_TOTAL (R281). -/
def hTotal (x : Timing) : Nat := x.hActive + x.hFp + x.hSync + x.hBp

/-- V_TOTAL. -/
def vTotal (x : Timing) : Nat := x.vActive + x.vFp + x.vSync + x.vBp

end Timing

namespace State

/-- T_Q: Device Time in 2^−16 ns. -/
def tq (s : State) : Nat := s.time.dt / 2 ^ 32

/-- The reference position as an exact function of T_Q (R121). f is not reduced where it passes 48 bits: positions compare
as they are, and a register shows its low 48 bits (log entry 115). -/
def refPosAt (s : State) (tq : Nat) : RP :=
  let k := tq * s.time.n * s.time.l / (s.time.d * 1000000000)
  ⟨k / (s.time.l * 65536), k / 65536 % s.time.l, k % 65536⟩

/-- The reference position now. -/
def refPos (s : State) : RP := s.refPosAt s.tq

/-- The timing that the live registers of raster m hold (R309, R310). -/
def liveTiming (s : State) (m : Nat) : Timing :=
  { hActive := s.lf (Reg.ORS_HTIME_H_ACTIVE m), hFp := s.lf (Reg.ORS_HTIME_H_FP m),
    hSync := s.lf (Reg.ORS_HTIME_H_SYNC m), hBp := s.lf (Reg.ORS_HTIME_H_BP m),
    vActive := s.lf (Reg.ORS_VTIME_V_ACTIVE m), vFp := s.lf (Reg.ORS_VTIME_V_FP m),
    vSync := s.lf (Reg.ORS_VTIME_V_SYNC m), vBp := s.lf (Reg.ORS_VTIME_V_BP m),
    sub := s.lf (Reg.ORS_MODE_SUBFRAMES m), fetchLead := s.lf (Reg.ORS_MODE_FETCH_LEAD m),
    phase := sgn 32 (s.lf (Reg.ORS_PHASE_PHASE_OFFSET m)), sendLine := s.lf (Reg.ORS_LATCH_SEND_LINE m),
    latchLead := s.lf (Reg.ORS_LATCH_LATCH_LEAD m) }

/-- The raster record of raster m. -/
def raster (s : State) (m : Nat) : Raster := Tab.get s.rasters m {}

/-- Set the raster record of raster m. -/
def setRaster (s : State) (m : Nat) (r : Raster) : State := { s with rasters := Tab.put s.rasters m r }

/-! ### Ideal starts (R125)

An ideal start is the exact fraction idealNum / idealDen in units of T_Q. -/

/-- The denominator of an ideal start. -/
def idealDen (s : State) (x : Timing) : Nat := 3 * s.time.n * max 1 x.sub

/-- The numerator of the ideal start of raster frame k. -/
def idealNum (s : State) (x : Timing) (k : Int) : Int :=
  3 * k * (s.time.d * secQ : Nat) + x.phase * 65536 * (s.time.n * max 1 x.sub : Nat)

/-- The number of the first raster frame whose ideal start is at or after the instant num / idealDen. -/
def firstFrameFrom (s : State) (x : Timing) (num : Int) : Nat :=
  let top : Int := num - x.phase * 65536 * (s.time.n * max 1 x.sub : Nat)
  (-(-top / (3 * (s.time.d * secQ) : Nat))).toNat

/-- The number of the first raster frame whose ideal start is at or after T_Q q. -/
def firstFrameAt (s : State) (x : Timing) (q : Nat) : Nat := s.firstFrameFrom x (q * s.idealDen x : Nat)

/-- The number of the first raster frame whose ideal start is after T_Q q. -/
def firstFrameAfter (s : State) (x : Timing) (q : Nat) : Nat := s.firstFrameFrom x ((q * s.idealDen x : Nat) + 1)

/-- Frame k, or the first frame after it with sub-frame index 0. -/
def wholeFrame (x : Timing) (k : Nat) : Nat := ceilDiv k (max 1 x.sub) * max 1 x.sub

/-- The swap point's Device Time plus one reference frame period, in T_Q as a fraction (R90). -/
def restartBound (s : State) : Nat × Nat := (s.tq * s.time.n + s.time.d * secQ, s.time.n)

/-- The first frame with sub-frame index 0 whose ideal start is at or after an instant given as a fraction (R90). -/
def restartAt (s : State) (x : Timing) (b : Nat × Nat) : Nat :=
  wholeFrame x (s.firstFrameFrom x (ceilDiv (b.1 * s.idealDen x) (max 1 b.2) : Nat))

/-- Has Device Time reached the ideal start of frame k (R125)? -/
def startReached (s : State) (x : Timing) (k : Nat) : Bool :=
  decide (s.idealNum x k ≤ ((s.tq * s.idealDen x : Nat) : Int))

/-- The frame whose ideal start lies within one FCLK of T_Q q, if there is one (R127). -/
def frameNear (s : State) (x : Timing) (q : Nat) : Option Nat :=
  let here : Int := (q * s.idealDen x : Nat)
  let one := s.time.incr * s.idealDen x / 2 ^ 32
  let k := s.firstFrameFrom x (here - (one : Nat))
  if (s.idealNum x k - here).natAbs ≤ one then some k else none

/-- The ideal start of frame k less T_Q q, in whole FCLK, rounded (R127). -/
def idealError (s : State) (x : Timing) (k q : Nat) : Int :=
  roundDiv ((s.idealNum x k - ((q * s.idealDen x : Nat) : Int)) * 3) (65536 * s.idealDen x : Nat)

/-- φ of a raster (R126). -/
def phi (s : State) (x : Timing) : Nat :=
  min (2 ^ 48 - 1)
    (roundDiv ((x.hTotal * x.vTotal * x.sub * s.time.n * s.time.incr : Nat) : Int)
      (s.time.d * 1000000000 : Nat)).toNat

/-- The position of raster m in its frame (R124); past the last pixel it stands at the last position of the last line. -/
def rasterPos (s : State) (m : Nat) : RP :=
  let r := s.raster m
  let h := max 1 r.tim.hTotal
  if r.tim.hTotal * r.tim.vTotal ≤ r.pos then ⟨r.frame, r.tim.vTotal - 1, 65536 * (h - 1) / h⟩
  else ⟨r.frame, r.pos / h, 65536 * (r.pos % h) / h⟩

/-- The number of the last position of a frame. -/
def lastPos (x : Timing) : Nat := x.hTotal * x.vTotal

/-- The time in T_Q of a number of pixel positions in units of 2^−48, at the rate of raster m's live timing (R126, R181). -/
def posTime (s : State) (m q : Nat) : Nat :=
  let t := s.liveTiming m
  q * (s.time.d * secQ) / (max 1 (t.hTotal * t.vTotal * t.sub * s.time.n) * 2 ^ 48)

/-- Pixel positions that raster m has passed in its frame, in units of 2^−48, the accumulator's fraction included (R126). -/
def posNow (s : State) (m : Nat) : Nat := (s.raster m).pos * 2 ^ 48 + (s.raster m).acc

/-- T_Q from now to the start of the next frame of raster m: what is left of the frame in progress, with the FCLKs by which its
last line is made longer or shorter (R128); where the raster stands at a frame end, the time to the ideal start that it waits for
(R181). -/
def toNextFrame (s : State) (m : Nat) : Nat :=
  let r := s.raster m
  let t := s.liveTiming m
  let until' (k : Nat) : Nat := (s.idealNum t k / (s.idealDen t : Int)).toNat - s.tq
  match r.mode with
  | .ready k => until' k
  | .wait => until' (s.firstFrameAfter t s.tq)
  | _ =>
    let left : Int := (s.posTime m (lastPos r.tim * 2 ^ 48 - s.posNow m) : Nat)
    (left + (r.stall + r.shift) * (s.time.incr : Int) / (2 ^ 32 : Nat)).toNat

/-- The pixel rate of a cluster breaks R23 where raster m has timing tim m: Σ H·V·S·N/D over 3·10^9. -/
def overRate (s : State) (slot c n d : Nat) (tim : Nat → Timing) : Bool :=
  let sum := ((s.clusterRasters slot c).map fun m => (tim m).hTotal * (tim m).vTotal * (tim m).sub).sum
  decide (3000000000 * d < sum * n)

/-- The raster rate N/D × S is above 960 Hz. -/
def overFast (n d sub : Nat) : Bool := decide (960 * d < n * sub)

/-- N, D and L_REF lie within the limits of R120. -/
def rateInRange (n d l : Nat) : Bool :=
  decide (1 ≤ n) && decide (n ≤ 2 ^ 20) && decide (1 ≤ d) && decide (d ≤ 2 ^ 20) && decide (24000 * d ≤ 1001 * n) &&
  decide (n ≤ 240 * d) && decide (1 ≤ l) && decide (l ≤ 65535)

/-- The level of PPS_OUT, a function of Device Time (R133): active for WIDTH_MS from each second plus OUT_OFFSET. -/
def ppsOut (s : State) : Bool :=
  s.fb Reg.TB_PPS_CFG_OUT_EN &&
  decide ((s.tq + secQ - 65536 * s.f Reg.TB_PPS_CFG_OUT_OFFSET) % secQ <
    65536000000 * min 999 (max 1 (s.f Reg.TB_PPS_CFG_WIDTH_MS)))

end State
end Sys2Proof.Machine
end

