-- ==== Sys2Proof/Machine/Timebase.lean ====
section
/-! DEFINITION. The timebase (R104–R135): writes to its registers, its sources and lock states, REFSYNC and PPS edges,
SYNCOUT, and what each FCLK does to Device Time. -/

namespace Sys2Proof.Machine

/-- The number of a source in TB_STATE.SOURCE and TB_SRC_CFG. -/
def sourceNum (x : TimeSource) : Nat :=
  match x with | .ptp => 1 | .refsync => 2 | .pps => 3 | .chain => 4

namespace State

/-- Set a flag of the TIMEBASE status. -/
def tbRaise (s : State) (flags : List Nat) : State := s.raiseAll Reg.TIMEBASE_BLOCK_STATUS flags

/-- The clamp of R105. -/
def clampIncr (n : Nat) : Nat := min 93871904733003 (max 93778079740767 n)

/-- Does the timebase follow a source: is it in ACQUIRE or LOCKED (R117)? -/
def following (s : State) : Bool := s.f Reg.TB_STATE_STATE == 1 || s.f Reg.TB_STATE_STATE == 2

/-- Note an increment while a source is followed, for the mean of R117; records older than 64 s are dropped but one. -/
def noteIncr (s : State) (n : Nat) : State :=
  if s.following then
    let old := s.time.followed - 64 * 10 ^ 9 * 2 ^ 48
    let young := s.time.history.filter fun h => decide (old < h.1)
    let first := (s.time.history.filter fun h => decide (h.1 ≤ old)).take 1
    (s.setTime { s.time with history := (s.time.followed, n) :: (young ++ first) })
  else s

/-- A step or set of a master joins those of its FCLK, behind those of masters not above it (R60, R106). -/
def addTimeOp (l : List (Nat × TimeOp)) (m : Nat) (op : TimeOp) : List (Nat × TimeOp) :=
  (l.takeWhile fun x => decide (x.1 ≤ m)) ++ (m, op) :: l.dropWhile fun x => decide (x.1 ≤ m)

/-- A step or set waits for the end of its FCLK and sets STEP_DONE (R106). -/
def moveTime (s : State) (m : Nat) (op : TimeOp) : State :=
  (s.setTime { s.time with ops := addTimeOp s.time.ops m op }).tbRaise [Flag.TIMEBASE_STEP_DONE]

/-- A write of TB_INCR (R105). -/
def tbIncrWrite : WriteEffect := fun _ x new _ _ s =>
  let n := bits new 47 0
  let s1 := (s.setReg x.addr (BitVec.ofNat 64 (putBits new 47 0 (clampIncr n)))).noteIncr (clampIncr n)
  if clampIncr n = n then s1 else s1.tbRaise [Flag.TIMEBASE_INCR_CLAMPED]

/-- A write of TB_STEP (R106): the offset is added at the end of the FCLK. -/
def tbStepWrite : WriteEffect := fun r _ _ d mask s => s.moveTime r.master.val (.step (sgn 64 (d &&& mask)))

/-- A write of TB_SET_TIME: SEC and FRAC are held for the next set (R106). -/
def tbSetTimeWrite : WriteEffect := fun _ _ _ d mask s =>
  let old := s.time.setSec * 65536 + s.time.setFrac
  let v := (old - (old &&& mask)) + (d &&& mask)
  (s.setTime { s.time with setSec := bits v 63 16, setFrac := bits v 15 0 })

/-- A write of TB_SET_NS performs the set at the end of the FCLK (R106). -/
def tbSetNsWrite : WriteEffect := fun r _ _ d _ s =>
  let ns := min 999999999 (bits d 29 0)
  s.moveTime r.master.val (.set ((s.time.setSec * 1000000000 + ns) * 65536 + s.time.setFrac))

/-- SEC, NS and FRAC of a Device Time q in 2^−16 ns. -/
def secOf (q : Nat) : Nat := q / secQ % 2 ^ 48

/-- The nanosecond field of q. -/
def nsOf (q : Nat) : Nat := q / 65536 % 1000000000

/-- A write of TB_CAPTURE copies Device Time and the reference position (R108). -/
def tbCaptureWrite : WriteEffect := fun _ _ _ _ _ s =>
  let p := s.refPos
  ((((((s.setF Reg.TB_CAP_TIME_SEC (secOf s.tq)).setF Reg.TB_CAP_TIME_FRAC (s.tq % 65536)).setF
    Reg.TB_CAP_NS_NS (nsOf s.tq)).setF Reg.TB_CAP_RPF_F p.f).setF Reg.TB_CAP_RPLT_L p.l).setF Reg.TB_CAP_RPLT_T p.t)

/-- The live rate and line count; those that govern from the next FCLK, where they have just changed (R71, R123). -/
def liveRate (s : State) : Nat × Nat × Nat := s.time.rateNext.getD (s.time.n, s.time.d, s.time.l)

/-- TB_REF_RATE and TB_REF_LINES show the live values (R71, R123). -/
def refRegsLive (s : State) : State :=
  ((s.setF Reg.TB_REF_RATE_N s.liveRate.1).setF Reg.TB_REF_RATE_D s.liveRate.2.1).setF Reg.TB_REF_LINES_L_REF s.liveRate.2.2

/-- A reference rate change is rejected with a cause (R123). -/
def refReject (s : State) (cause : Nat) : State :=
  let s1 := (s.refRegsLive.setF Reg.TB_REF_APPLY_REJECT_CAUSE cause).tbRaise [Flag.TIMEBASE_REF_CHANGE_REJECTED]
  (s1.setTime { s1.time with armed := false })

/-- A write of TB_REF_APPLY arms the change, or rejects it at once where its frame has passed (R123). -/
def tbRefApplyWrite : WriteEffect := fun _ x new _ _ s =>
  let s1 := s.setReg x.addr (BitVec.ofNat 64 new)
  if s.refPos.f < bits new 47 0 then (s1.setTime { s1.time with armed := true }) else s1.refReject 4

/-- The cause that rejects the armed change, 0 for none (R123). R123 does not say which REJECT_CAUSE stands where several
rejections hold at once: the lowest-numbered one (log entry 94). -/
def refCause (s : State) : Nat :=
  let n := s.f Reg.TB_REF_RATE_N
  let d := s.f Reg.TB_REF_RATE_D
  if !rateInRange n d (s.f Reg.TB_REF_LINES_L_REF) then 1
  else if s.hasIngot && (List.range 8).any fun c => s.overRate s.slot c n d s.liveTiming then 2
  else if (List.range 16).any fun m => s.enabled m && overFast n d (s.liveTiming m).sub then 3
  else 0

/-- The part judges the armed reference rate change once, when the reference position is at or after RP(AT_FRAME, 0, 0);
the new values govern from the next FCLK (R123). -/
def refChangeJudge (s : State) : State :=
  if s.time.armed ∧ s.f Reg.TB_REF_APPLY_AT_FRAME ≤ s.refPos.f then
    if s.refCause = 0 then
      let s1 := (s.setF Reg.TB_REF_APPLY_REJECT_CAUSE 0).tbRaise [Flag.TIMEBASE_REF_CHANGE_DONE]
      (s1.setTime { s1.time with
        armed := false, rateNext := some (s.f Reg.TB_REF_RATE_N, s.f Reg.TB_REF_RATE_D, s.f Reg.TB_REF_LINES_L_REF) })
    else s.refReject s.refCause
  else s

/-! ### Sources and lock states (R116–R118) -/

/-- Does this part take its time from the chain: as a worker, or over a boot link (R116, R431, R438)? -/
def followsChain (s : State) : Bool := s.f Reg.CHAIN_STATE_ROLE == 2 || s.f Reg.CHAIN_STATE_ROLE == 3 || s.chain.boot.isSome

/-- The rank of a source under TB_SRC_CFG: 0 highest; none where it is not to be used. -/
def sourceRank (s : State) (x : TimeSource) : Option Nat :=
  if s.followsChain then (if x = .chain then some 0 else none)
  else if x = .chain then none
  else if s.f Reg.TB_SRC_CFG_PRIO0 = sourceNum x then some 0
  else if s.f Reg.TB_SRC_CFG_PRIO1 = sourceNum x then some 1
  else if s.f Reg.TB_SRC_CFG_PRIO2 = sourceNum x then some 2
  else none

/-- The step or slew on entry to ACQUIRE (R118): the first acquisition always steps; a slew departs from the increment
held. Keeper firmware is master 0. -/
def acquireMove (s : State) (offset : Int) : State :=
  if !s.time.acquired || (s.fb Reg.TB_LOCK_CFG_STEP_EN && decide (1000 * s.f Reg.TB_LOCK_CFG_STEP_US < offset.natAbs)) then
    (s.setTime { s.time with acquired := true, slew := none }).moveTime 0 (.step (-offset * 65536))
  else s.setTime { s.time with slew := some (s.f Reg.TB_INCR_INCR) }

/-- The increments that the servo may choose (R105, R118): within the clamp; during a slew, within SLEW_PPM of the
increment held. -/
def servoRange (s : State) : Nat × Nat :=
  match s.time.slew with
  | none => (93778079740767, 93871904733003)
  | some h =>
    let most := h * s.f Reg.TB_LOCK_CFG_SLEW_PPM / 1000000
    (clampIncr (h - most), clampIncr (h + most))

/-- The servo drives TB_INCR from a measurement (R117, R118, R438). Its law is Keeper firmware's, or the CHAIN block's on
a worker, and the manual gives none: the increment is an open value within its range (log entry 56). A slew ends with an
offset within LOCK_NS. -/
def steer (s : State) (near : Bool) : State :=
  if s.following then
    let s0 := if near then s.setTime { s.time with slew := none } else s
    let (lo, hi) := s0.servoRange
    let (v, s1) := s0.takeFree
    let n := lo + v % (hi + 1 - lo)
    (s1.setF Reg.TB_INCR_INCR n).noteIncr n
  else s

/-- Enter ACQUIRE on a source. -/
def acquire (s : State) (q : Qualified) : State :=
  let old := s.f Reg.TB_STATE_SOURCE
  let s1 := ((s.setF Reg.TB_STATE_STATE 1).setF Reg.TB_STATE_SOURCE (sourceNum q.src)).setF Reg.TB_HOLDOVER_S_SECONDS 0
  let s2 := if q.src = .ptp then (s1.setF Reg.TB_STATE_PTP_PORT q.ptpPort.val).setReg Reg.TB_GM_ID q.gm else s1
  let s3 := s2.tbRaise (Flag.TIMEBASE_STATE_CHANGE ::
    if old ≠ 0 ∧ old ≠ sourceNum q.src then [Flag.TIMEBASE_SOURCE_SWITCH] else [])
  ((s3.setTime { s3.time with inRow := 0 }).noteIncr (s.f Reg.TB_INCR_INCR)).acquireMove q.offset

/-- The qualified sources with one added, in place of an earlier record of the same source. -/
def addSource (qs : List Qualified) (q : Qualified) : List Qualified := (qs.filter fun x => x.src != q.src) ++ [q]

/-- Does the part act on source x: Keeper firmware does while it runs, and the CHAIN block for the chain (R438, R572, log
entry 108)? -/
def actsOn (s : State) (x : TimeSource) : Bool := s.aon.keeperUp || x == .chain

/-- A source qualifies (R117). While PTP is followed, a master that BMCA selects anew shows in TB_STATE.PTP_PORT and TB_GM_ID
(R109, R134). -/
def sourceQualified (s : State) (q : Qualified) : State :=
  let s1 := (s.setTime { s.time with sources := addSource s.time.sources q })
  if s.actsOn q.src = false then s1
  else if (s.f Reg.TB_STATE_STATE = 0 ∨ s.f Reg.TB_STATE_STATE = 3) ∧ (s.sourceRank q.src).isSome then s1.acquire q
  else if q.src = .ptp ∧ s.f Reg.TB_STATE_SOURCE = 1 then
    (s1.setF Reg.TB_STATE_PTP_PORT q.ptpPort.val).setReg Reg.TB_GM_ID q.gm
  else s1

/-- The usable source of highest priority among those qualified. -/
def bestSource (s : State) : Option Qualified :=
  (s.time.sources.filter fun q => (s.sourceRank q.src).isSome).foldl
    (fun best q =>
      match best with
      | none => some q
      | some b => if (s.sourceRank q.src).getD 9 < (s.sourceRank b.src).getD 9 then some q else some b) none

/-- The sum of increment × time over the history back to a start, and the time it covers. -/
def histSum (h : List (Nat × Nat)) (now start : Nat) : Nat × Nat :=
  match h with
  | [] => (0, 0)
  | (t, n) :: r =>
    let span := now - max t start
    let (a, b) := histSum r (min now (max t start)) start
    (a + n * span, b + span)

/-- The mean of TB_INCR over the last 64 s of ACQUIRE or LOCKED (R117). -/
def meanIncr (s : State) : Nat :=
  let (a, b) := histSum s.time.history s.time.followed (s.time.followed - 64 * 10 ^ 9 * 2 ^ 48)
  if b = 0 then s.f Reg.TB_INCR_INCR else a / b

/-- A standby source as it is when it is taken over. The offset of REFSYNC and PPS is that of their last edge, moved by
every step since; PTP has none measured since it qualified, and its offset now is an open value (log entry 95). -/
def sourceNow (s : State) (q : Qualified) : Qualified × State :=
  if q.src = .ptp then let (v, s1) := s.takeFree; ({ q with offset := sgn 64 v }, s1) else (q, s)

/-- Keeper firmware, while it runs, holds TB_INCR at its mean (R117, R572). -/
def holdMean (s : State) : State := if s.aon.keeperUp then s.setF Reg.TB_INCR_INCR (clampIncr s.meanIncr) else s

/-- The selected source is lost (R117): another qualified source takes over, or HOLDOVER begins. -/
def selectedLost (s : State) : State :=
  match s.bestSource with
  | some q => let (z, s1) := s.sourceNow q; (s1.tbRaise [Flag.TIMEBASE_SOURCE_LOST]).acquire z
  | none =>
    let s1 := ((s.holdMean.setF Reg.TB_STATE_STATE 3).setF Reg.TB_STATE_SOURCE 0).tbRaise
      [Flag.TIMEBASE_SOURCE_LOST, Flag.TIMEBASE_STATE_CHANGE]
    (s1.setTime { s1.time with holdFrom := s.time.steady, inRow := 0, slew := none })

/-- A source is lost. -/
def sourceLost (s : State) (x : TimeSource) : State :=
  let s1 := (s.setTime { s.time with sources := s.time.sources.filter fun q => q.src != x })
  if s.actsOn x ∧ s.f Reg.TB_STATE_SOURCE = sourceNum x ∧ (s.f Reg.TB_STATE_STATE = 1 ∨ s.f Reg.TB_STATE_STATE = 2) then
    s1.selectedLost
  else s1

/-- The source is chosen anew among those qualified: by Keeper firmware as it starts, which finds what has changed while it
was down (R572), and after a takeover (R449). A source that is followed no longer stands: it is lost; in FREERUN or HOLDOVER the
best one is taken. -/
def reselect (s : State) : State :=
  if s.following then
    (if s.time.sources.any fun q => sourceNum q.src == s.f Reg.TB_STATE_SOURCE then s else s.selectedLost)
  else
    match s.bestSource with
    | some q => let (z, s1) := s.sourceNow q; s1.acquire z
    | none => if s.f Reg.TB_STATE_STATE = 3 then s.holdMean else s

/-- A source of higher priority has stayed qualified for REVERT_S seconds (R117). -/
def sourceRevert (s : State) (q : Qualified) : State :=
  let cur := s.f Reg.TB_STATE_SOURCE
  let rankCur := (([TimeSource.ptp, .refsync, .pps, .chain].find? fun x => sourceNum x == cur).bind s.sourceRank).getD 9
  let s1 := (s.setTime { s.time with sources := addSource s.time.sources q })
  match s.sourceRank q.src with
  | some r =>
    if s.actsOn q.src ∧ s.f Reg.TB_SRC_CFG_REVERT_S ≠ 0 ∧ s.f Reg.TB_STATE_STATE ≠ 0 ∧ r < rankCur ∧ cur ≠ sourceNum q.src then s1.acquire q
    else s1
  | none => s1

/-- A threshold of TB_LOCK_CFG, in ns. -/
def lockNs (v : Nat) : Nat := 25 * 2 ^ v

/-- The servo registers after a measurement. -/
def noteServo (s : State) (offset : Int) (pathDelay : Nat) : State :=
  (s.setF Reg.TB_SERVO_OFFSET (unsgn 32 (clampI offset (-2147483648) 2147483647))).setF Reg.TB_SERVO_PATH_DELAY
    (min pathDelay 0xFFFFFFFF)

/-- Does the servo run: Keeper firmware's pauses while the Keeper is being reset; the CHAIN block's own goes on (R438, R572,
log entry 108)? -/
def servoRuns (s : State) : Bool := s.aon.keeperUp || s.f Reg.TB_STATE_SOURCE == 4

/-- An offset measurement against the selected source: the servo acts, and the lock state follows (R117, R118). -/
def measurement (s : State) (offset : Int) (pathDelay : Nat) : State :=
  if s.servoRuns = false then s
  else
  let s1 := (s.noteServo offset pathDelay).steer (decide (offset.natAbs ≤ lockNs (s.f Reg.TB_LOCK_CFG_LOCK_NS)))
  if s.f Reg.TB_STATE_STATE = 1 then
    if offset.natAbs ≤ lockNs (s.f Reg.TB_LOCK_CFG_LOCK_NS) then
      if max 1 (s.f Reg.TB_LOCK_CFG_LOCK_COUNT) ≤ s.time.inRow + 1 then
        let s2 := (s1.setF Reg.TB_STATE_STATE 2).tbRaise [Flag.TIMEBASE_STATE_CHANGE]
        (s2.setTime { s2.time with inRow := 0 })
      else (s1.setTime { s1.time with inRow := s.time.inRow + 1 })
    else (s1.setTime { s1.time with inRow := 0 })
  else if s.f Reg.TB_STATE_STATE = 2 then
    if lockNs (s.f Reg.TB_LOCK_CFG_UNLOCK_NS) < offset.natAbs then
      if 4 ≤ s.time.inRow + 1 then
        let s2 := (s1.setF Reg.TB_STATE_STATE 1).tbRaise [Flag.TIMEBASE_STATE_CHANGE]
        (s2.setTime { s2.time with inRow := 0 }).acquireMove offset
      else (s1.setTime { s1.time with inRow := s.time.inRow + 1 })
    else (s1.setTime { s1.time with inRow := 0 })
  else s1

/-! ### REFSYNC and PPS (R113–R115) -/

/-- An offset wrapped into half a period either side. -/
def wrapHalf (i : Int) (p : Nat) : Int := (i + (p / 2 : Nat)) % (p : Int) - (p / 2 : Nat)

/-- The reference frame period in 2^−48 ns, rounded. -/
def framePeriod (s : State) : Nat := s.time.d * 10 ^ 9 * 2 ^ 48 / s.time.n

/-- Device Time's phase error against a REFSYNC_F edge now, in ns (R113). -/
def refsyncOffset (s : State) : Int :=
  let p := s.framePeriod
  wrapHalf ((s.time.dt % p : Nat) + sgn 24 (s.f Reg.TB_REFSYNC_CFG_DELAY) * (s.time.incr : Int)) p / (2 ^ 48 : Nat)

/-- An edge of a source that stands qualified measures its offset anew. -/
def noteOffset (s : State) (x : TimeSource) (offset : Int) : State :=
  let fresh (q : Qualified) : Qualified := if q.src = x then { q with offset := offset } else q
  s.setTime { s.time with sources := s.time.sources.map fresh }

/-- REFSYNC falls outside its limits, or its edges stop (R114). -/
def refsyncBad (s : State) : State :=
  let s1 := (s.setTime { s.time with fGood := 0 }).tbRaise [Flag.TIMEBASE_REFSYNC_ERROR]
  if s.time.sources.any fun q => q.src == .refsync then s1.sourceLost .refsync else s1

/-- An active REFSYNC_F edge (R113, R114). -/
def refsyncFEdge (s : State) : State :=
  let note (t : State) (good : Nat) : State :=
    (t.setTime { t.time with fEdge := some s.time.steady, lines := 0, fGood := good })
  match s.time.fEdge with
  | none => note s 0
  | some e =>
    let p := s.framePeriod
    let err : Int := (s.time.steady : Int) - e - p
    let s1 := (s.setF Reg.TB_REFSYNC_STAT_LINES s.time.lines).setF Reg.TB_REFSYNC_STAT_PERIOD_PPM
      (unsgn 16 (clampI (roundDiv (err * 1000000) p) (-32768) 32767))
    if err.natAbs * 10000 ≤ p ∧ (s.fb Reg.TB_REFSYNC_CFG_LINE_CHECK = false ∨ s.time.lines = s.time.l) then
      let s2 := (note s1 (s.time.fGood + 1)).noteOffset .refsync s.refsyncOffset
      if s.time.fGood + 1 = 3 then s2.sourceQualified ⟨.refsync, 0, 0, s.refsyncOffset⟩ else s2
    else note (s1.refsyncBad) 0

/-- An active REFSYNC_L edge (R113, R114). -/
def refsyncLEdge (s : State) : State :=
  (s.setTime { s.time with lEdge := some s.time.steady, lines := s.time.lines + 1 })

/-- An active PPS_IN edge with what REF10M_IN says of it (R115). -/
def ppsInEdge (s : State) (refOk : Bool) (periodNs : Nat) : State :=
  let good := if !refOk then 0 else
    if s.time.ppsEdge.isSome ∧ 999999000 ≤ periodNs ∧ periodNs ≤ 1000001000 then s.time.ppsGood + 1 else 1
  let offset := wrapHalf ((s.tq % secQ : Nat) + 65536 * (s.f Reg.TB_PPS_CFG_IN_DELAY : Int)) secQ / 65536
  let s1 := (s.setTime { s.time with ppsEdge := some s.time.steady, ppsGood := good }).noteOffset .pps offset
  if good = 3 then s1.sourceQualified ⟨.pps, 0, 0, offset⟩ else s1

/-- PPS_IN missing for 2 s, or REF10M_IN for 10 µs (R115). -/
def ppsLost (s : State) : State :=
  (s.setTime { s.time with ppsGood := 0, ppsEdge := none }).sourceLost .pps

/-- REFSYNC_F edges missing (R114). -/
def refsyncLost (s : State) : State :=
  let s1 := s.refsyncBad
  (s1.setTime { s1.time with fEdge := none })

/-! ### SYNCOUT (R131, R132) -/

/-- Does the configuration select a source that drives its pulses? -/
def syncLive (s : State) (cfg : Nat) : Bool :=
  bit cfg 31 &&
  (if bits cfg 28 24 = 16 then true
   else decide (bits cfg 28 24 < 16) && s.enabled (bits cfg 28 24) &&
    match (s.raster (bits cfg 28 24)).mode with | .run => true | .ready _ => true | _ => false)

/-- Is the H pulse of a raster source active at its position? -/
def syncRasterH (s : State) (m : Nat) : Bool :=
  let r := s.raster m
  let h := r.pos % max 1 r.tim.hTotal
  decide (r.tim.hActive + r.tim.hFp ≤ h) && decide (h < r.tim.hActive + r.tim.hFp + r.tim.hSync)

/-- Is the V pulse of a configuration's source active? A pulse runs on into the next frame by as much as V_BP leaves of
it (R131). -/
def syncV (s : State) (cfg : Nat) : Bool :=
  s.syncLive cfg &&
  if bits cfg 28 24 = 16 then decide (s.refPos.l < max 1 (bits cfg 23 16))
  else
    let r := s.raster (bits cfg 28 24)
    let h := r.tim.hTotal
    let start := (r.tim.vActive + r.tim.vFp) * h + r.tim.hActive + r.tim.hFp
    (decide (start ≤ r.pos) && decide (r.pos < start + r.tim.vSync * h) && (!bit cfg 29 || r.frame % max 1 r.tim.sub == 0)) ||
    (decide (r.pos < r.vTail.1) && (!bit cfg 29 || r.vTail.2))

/-- Is the H pulse of a configuration's source active? left: FCLKs left of a reference H pulse. -/
def syncH (s : State) (cfg left : Nat) : Bool :=
  s.syncLive cfg && if bits cfg 28 24 = 16 then decide (0 < left) else s.syncRasterH (bits cfg 28 24)

/-- A write of TB_SYNCOUT_CFG (R132): pulses in progress finish, then the pair waits for the source's first V pulse. R132
has both EN 0 drive the inactive level and a pulse in progress finish: the pulse finishes after a write that clears EN, at
the POL that the write leaves (log entry 96). -/
def syncoutWrite : WriteEffect := fun _ x new _ _ s =>
  let i := x.idx.headD 0
  let old := s.reg x.addr
  let p := s.time.sync.getD i {}
  let s1 := s.setReg x.addr (BitVec.ofNat 64 new)
  let q : SyncPair := { p with oldH := if p.h then some (p.oldH.getD old) else none,
                               oldV := if p.v then some (p.oldV.getD old) else none,
                               waiting := true, vSource := s1.syncV new }
  (s1.setTime { s1.time with sync := s.time.sync.set i q })

/-- One pair in an FCLK; newLine: the reference line changed. -/
def syncTick (s : State) (newLine : Bool) (i : Nat) (p : SyncPair) : SyncPair :=
  let cfg := (s.reg (Reg.TB_SYNCOUT_CFG i)).toNat
  let width (c : Nat) := 8 * max 1 (bits c 15 0)
  let left := if newLine then width cfg else p.hLeft - 1
  let v := s.syncV cfg
  let waiting := p.waiting && !(v && !p.vSource)
  -- a new reference line ends an old pulse of the reference raster alone
  let finH := match p.oldH with
    | some c => !(newLine && bits c.toNat 28 24 == 16) && s.syncH c.toNat left
    | none => false
  let finV := match p.oldV with | some c => s.syncV c.toNat | none => false
  { h := finH || (!waiting && s.syncH cfg left),
    v := finV || (!waiting && v),
    vSource := v, hLeft := left, waiting := waiting,
    oldH := if finH then p.oldH else none, oldV := if finV then p.oldV else none }

/-- The level of a SYNCOUT pin: the pulse against POL; inactive while EN is 0. -/
def syncLevel (s : State) (i : Nat) (pulse : Bool) : Bool :=
  if s.fb (Reg.TB_SYNCOUT_CFG_POL i) then pulse else !pulse

/-! ### An FCLK -/

/-- Device Time moves to a value at once. The offsets of standby sources move with it; a raster that waits counts from the
earlier instant where time went back (R129); gate cycles that start before the new time never run (R372). -/
def jumpTo (s : State) (dt : Nat) : State :=
  let by' : Int := ((dt : Int) - s.time.dt) / (2 ^ 48 : Nat)
  let moved (q : Qualified) : Qualified := { q with offset := q.offset + by' }
  let wait (x : Nat × Raster) : Nat × Raster := (x.1, { x.2 with waitFrom := min x.2.waitFrom (dt / 2 ^ 32) })
  let gate (x : Nat × Port) : Nat × Port := (x.1, { x.2 with cycleFrom := dt / 2 ^ 32 })
  { s with time := { s.time with dt := dt, sources := s.time.sources.map moved },
           rasters := s.rasters.map wait, ports := s.ports.map gate }

/-- Device Time after a step or set (R106). Device Time is 48 bits of seconds; a result outside them is an open value
(log entry 9). -/
def applyTimeOp (s : State) (op : TimeOp) : State :=
  match op with
  | .set q => s.jumpTo (q * 2 ^ 32)
  | .step q =>
    let v : Int := (s.time.dt : Int) + q * (2 ^ 32 : Nat)
    let top := 2 ^ 48 * 10 ^ 9 * 2 ^ 48
    if 0 ≤ v ∧ v < (top : Nat) then s.jumpTo v.toNat
    else let (x, t) := s.takeFree; t.jumpTo (x % top)

/-- The end of an FCLK for Device Time: it advances by the increment in force, then the steps and sets of the FCLK act
in order, and a new TB_INCR and a new reference rate take force (R104–R106, R123). -/
def timeTick (s : State) : State :=
  let (n, d, l) := s.liveRate
  let s1 := (s.setTime { s.time with
    dt := (s.time.dt + s.time.incr) % (2 ^ 48 * 10 ^ 9 * 2 ^ 48), ops := [], incr := s.f Reg.TB_INCR_INCR,
    steady := s.time.steady + s.time.incr,
    followed := if s.following then s.time.followed + s.time.incr else s.time.followed,
    n := n, d := d, l := l, rateNext := none })
  -- a raster that waits counts ideal starts under a new rate from here on (R129)
  let fresh (x : Nat × Raster) : Nat × Raster := (x.1, { x.2 with waitFrom := s1.tq })
  let s2 := if s.time.rateNext.isSome then { s1 with rasters := s1.rasters.map fresh } else s1
  s.time.ops.foldl (fun t x => t.applyTimeOp x.2) s2

/-- Do the ideal starts of rasters move as the next FCLK begins: by a step, a set or a new reference rate (R129)? -/
def startsMove (s : State) : Bool := !s.time.ops.isEmpty || s.time.rateNext.isSome

/-- SYNCOUT in an FCLK. -/
def syncoutTick (s : State) (newLine : Bool) : State :=
  (s.setTime { s.time with sync := (List.range 4).map fun i => s.syncTick newLine i (s.time.sync.getD i {}) })

end State
end Sys2Proof.Machine
end

