-- ==== Sys2Proof/Machine/Frames.lean ====
section
/-! DEFINITION. Frames and buffers of the ports: lengths and times (R364), the bytes of a frame on the wire
(R314–R326), the Crucible (R376–R379), queues. -/

namespace Sys2Proof.Machine

/-- The LENGTH of a BTL packet's payload. -/
def Frame.payload (x : Frame) : Nat := x.body.length - 16

/-- Is the frame a BTL packet? -/
def Frame.isBtl (x : Frame) : Bool := !x.fold.isEmpty

/-- A frame's length from DA through FCS, pad included (R314, R364). -/
def Frame.length (x : Frame) : Nat := if x.isBtl then max 64 (38 + x.payload) else max 64 (x.body.length + 4)

/-- The Billets a frame of length n takes (R376). -/
def billetsOf (n : Nat) : Nat := ceilDiv n 2048

/-- Is the frame a LATCH or HOLD (R339)? -/
def Frame.isLatch (x : Frame) : Bool := match x.kind with | .latch _ _ | .hold _ _ => true | _ => false

/-- TYPE of a BTL packet; 0 for any other frame. -/
def Frame.btlType (x : Frame) : Nat := if x.isBtl then (byteAt x.body 0).toNat % 16 else 0

/-- The 16-byte header of R316: TYPE, FLAGS, TILE_ADDR, LENGTH and the ten bytes of type fields. -/
def btlHeader (type flags tile len : Nat) (fields : List Byte) : List Byte :=
  [BitVec.ofNat 8 (0x10 + type), BitVec.ofNat 8 flags] ++ leBytes 2 tile ++ leBytes 2 len ++ fields

/-- The fold prefix of R325. -/
def foldPrefix (raster type tile alive sub : Nat) : List Byte :=
  [BitVec.ofNat 8 raster, BitVec.ofNat 8 type] ++ leBytes 2 tile ++ [BitVec.ofNat 8 alive, BitVec.ofNat 8 sub, 0, 0]

/-- The bytes of zero pad that bring n bytes up to 60, before the FCS. -/
def padTo60 (bs : List Byte) : List Byte := bs ++ List.replicate (60 - bs.length) 0

/-- The frame check sequence of IEEE 802.3, in wire order. -/
def fcs (bs : List Byte) : List Byte := leBytes 4 (crc32 bs)

namespace State

/-- The record of port p. -/
def port (s : State) (p : Nat) : Port := Tab.get s.ports p {}

/-- Set the record of port p. -/
def setPort (s : State) (p : Nat) (x : Port) : State := { s with ports := Tab.put s.ports p x }

/-- Set flags of PORT_STATUS. -/
def portRaise (s : State) (p : Nat) (flags : List Nat) : State := s.raiseAll (Reg.PORT_STATUS p) flags

/-- Set flags of BTL_STATUS. -/
def btlRaise (s : State) (p : Nat) (flags : List Nat) : State := s.raiseAll (Reg.BTL_STATUS p) flags

/-- Set flags of the CRUCIBLE status. -/
def cruRaise (s : State) (flags : List Nat) : State := s.raiseAll Reg.CRUCIBLE_BLOCK_STATUS flags

/-- The MAC rate of port p in Gb/s (R359); 0 in a powered-down quad. -/
def macRate (s : State) (p : Nat) : Nat :=
  match s.f (Reg.PQ_MODE_MODE (p / 4)) with | 0 => 0 | 1 => 1 | 2 => 10 | _ => 25

/-- A frame's transmit length on port p (R364). -/
def txLength (s : State) (p : Nat) (x : Frame) : Nat := x.length + s.f (Reg.PORT_TX_CFG_OVERHEAD p)

/-- The transmit time of n bytes on port p in units of T_Q, rounded up (R364). -/
def txTime (s : State) (p n : Nat) : Nat := ceilDiv (n * 8 * 65536) (max 1 (s.macRate p))

/-- Is the port's link up? -/
def linkUp (s : State) (p : Nat) : Bool := s.fb (Reg.PORT_LINK_LINK_UP p)

/-- The check value of a BTL packet under BTL_CFG.CHECK of port p (R325, R326). -/
def checkValue (s : State) (p : Nat) (bs : List Byte) : Nat :=
  if s.fb (Reg.BTL_CFG_CHECK p) then crc32 bs else crc32c bs

/-- The bytes of a BTL packet from DA to the check value, before pad and FCS (R314, R315). -/
def btlBytes (s : State) (p : Nat) (x : Frame) : List Byte :=
  leBytes 6 (s.f (Reg.BTL_MAC_DA_DA p)) ++ leBytes 6 (s.f (Reg.BTL_MAC_SA_SA p)) ++
    beBytes 2 (s.f (Reg.BTL_CFG_ETHERTYPE p)) ++ x.body ++ leBytes 4 (s.checkValue p (x.fold ++ x.body))

/-- The bytes of a frame on the wire, without its FCS. -/
def wireBody (s : State) (p : Nat) (x : Frame) : List Byte := padTo60 (if x.isBtl then s.btlBytes p x else x.body)

/-! ### The Crucible (R376–R378) -/

/-- SZ (R377): zero while no Ingot is active (R400). -/
def cruSize (s : State) : Nat := s.f Reg.CRU_SHARED_SIZE

/-- The shared Billets that O held Billets of a port with reservation res are (R377). -/
def sharedOf (held res : Nat) : Nat := held - res

/-- Is a request for n Billets by port p admitted (R377)? A raised reservation is met only from Billets that are free (R93). -/
def cruAdmits (s : State) (p n : Nat) (q7 : Bool) : Bool :=
  let o := s.f (Reg.CRU_PORT_HELD p)
  let res := s.f (Reg.CRU_PORT_RESERVE p)
  let after := sharedOf (o + n) res
  let need := after - sharedOf o res
  let free := s.cruSize - s.f Reg.CRU_SHARED_IN_USE
  decide (n ≤ s.f Reg.CRU_FREE_FREE) &&
    (need == 0 || (decide (need ≤ free) && (q7 || decide (after * 16 ≤ s.f Reg.CRU_CFG_ALPHA * free))))

/-- Set the Billets that port p holds, with SH, FREE and their extremes. -/
def setHeld (s : State) (p o : Nat) : State :=
  let old := s.f (Reg.CRU_PORT_HELD p)
  let res := s.f (Reg.CRU_PORT_RESERVE p)
  let sh := s.f Reg.CRU_SHARED_IN_USE + sharedOf o res - sharedOf old res
  let free := s.f Reg.CRU_FREE_FREE + old - o
  let s1 := ((s.setF (Reg.CRU_PORT_HELD p) o).maxF (Reg.CRU_PORT_PEAK p) o).setF Reg.CRU_SHARED_IN_USE sh
  let s2 := s1.setF Reg.CRU_FREE_FREE free
  let s3 := if free < s2.f Reg.CRU_FREE_MIN_FREE then s2.setF Reg.CRU_FREE_MIN_FREE free else s2
  let y := s.f Reg.CRU_CFG_YELLOW_THRESHOLD
  if y ≤ sh ∧ s.f Reg.CRU_SHARED_IN_USE < y then s3.cruRaise [Flag.CRUCIBLE_YELLOW_LIMIT] else s3

/-- Port p takes n Billets. -/
def takeBillets (s : State) (p n : Nat) : State := s.setHeld p (s.f (Reg.CRU_PORT_HELD p) + n)

/-- Port p gives n Billets back. -/
def freeBillets (s : State) (p n : Nat) : State := s.setHeld p (s.f (Reg.CRU_PORT_HELD p) - n)

/-- Count a refusal (R378). -/
def cruRefused (s : State) (p : Nat) : State :=
  (s.satF (Reg.CRU_PORT_REFUSED p) 1).cruRaise [Flag.CRUCIBLE_REFUSED]

/-! ### Gate lists (R371–R375) -/

/-- Entry e of bank b: its mask and its duration in units of T_Q. -/
def gateEntry (s : State) (p b e : Nat) : Nat × Nat :=
  (s.f (Reg.GATE_ENTRY_MASK p b e), 65536 * s.f (Reg.GATE_ENTRY_DURATION p b e))

/-- The number of the cycle in which T_Q q lies, under ALIGN, CYCLE and BASE; ALIGN 3 acts as 1 (R372, R396). -/
def cycleNo (s : State) (align cycle base q : Nat) : Int :=
  match align with
  | 0 => ((q : Int) - (65536 * base : Nat)) / (65536 * max 1 cycle : Nat)
  | 2 => (q * s.time.n / (s.time.d * secQ) : Nat)
  | _ => (q * (s.time.n * s.time.l) / (s.time.d * secQ) : Nat)

/-- The T_Q at which cycle j starts. -/
def cycleStart (s : State) (align cycle base : Nat) (j : Int) : Int :=
  match align with
  | 0 => (65536 * base : Nat) + j * (65536 * max 1 cycle : Nat)
  | 2 => -(-(j * (s.time.d * secQ : Nat)) / (s.time.n : Nat))
  | _ => -(-(j * (s.time.d * secQ : Nat)) / (s.time.n * s.time.l : Nat))

/-- What has passed since reset in units of T_Q, steps and sets of Device Time aside: gate entries run on it. -/
def ranQ (s : State) : Nat := s.time.steady / 2 ^ 32

/-- The start of the cycle that port p is in, where it has not been taken: it has come since EN was written, since the
last start, and since the last step or set of Device Time, which skips what lies before it (R372, R375). -/
def cycleDue (s : State) (p : Nat) : Option Nat :=
  let r := s.port p
  let at' := s.cycleStart r.align r.cycleNs r.baseNs (s.cycleNo r.align r.cycleNs r.baseNs s.tq)
  if s.fb (Reg.GATE_CTRL_EN p) ∧ (r.cycleFrom : Int) ≤ at' then some at'.toNat else none

/-- The length of a cycle under ALIGN and CYCLE, in units of T_Q (R372). -/
def cycleLen (s : State) (align cycle : Nat) : Nat :=
  match align with
  | 0 => 65536 * max 1 cycle
  | 2 => s.time.d * secQ / s.time.n
  | _ => s.time.d * secQ / (s.time.n * s.time.l)

/-- The spans of one whole cycle of a bank: mask and length, the last one held or cut at the cycle's end (R371). -/
def cycleSpans (s : State) (p b len n e : Nat) : List (Nat × Nat) :=
  match n with
  | 0 => []
  | k + 1 =>
    let (m, d) := s.gateEntry p b e
    if k = 0 ∨ len ≤ d then [(m, len)] else (m, d) :: s.cycleSpans p b (len - d) k (e + 1)

/-- The spans of a cycle of bank b under ALIGN and CYCLE. -/
def bankSpans (s : State) (p b align cycle : Nat) : List (Nat × Nat) :=
  s.cycleSpans p b (s.cycleLen align cycle) (s.f (Reg.GATE_LEN_LEN p b)) 0

end State

/-- The open time of queue q from the start of a list of spans until its bit is clear; none where it never is. -/
def openRun (q : Nat) (spans : List (Nat × Nat)) : Option Nat :=
  match spans with
  | [] => none
  | (m, d) :: r => if bit m q then (openRun q r).map (d + ·) else some 0

/-- The longest span in which bit q stays set, over a list of spans. -/
def longestRun (q : Nat) (spans : List (Nat × Nat)) (cur : Nat) : Nat :=
  match spans with
  | [] => cur
  | (m, d) :: r => if bit m q then longestRun q r (cur + d) else max cur (longestRun q r 0)

namespace State

/-- Does the gate list hold queue q closed or limit it? Before the list starts every gate is open (R375). -/
def gated (s : State) (p : Nat) : Bool := s.fb (Reg.GATE_CTRL_EN p) && (s.port p).started

/-- The rest of the cycle in progress: spans from the current instant to the next cycle start. -/
def restSpans (s : State) (p : Nat) : List (Nat × Nat) :=
  let r := s.port p
  let next := s.cycleStart r.align r.cycleNs r.baseNs (s.cycleNo r.align r.cycleNs r.baseNs s.tq + 1)
  let left := (next - s.tq).toNat
  let (m, d) := s.gateEntry p r.bank r.entry
  let n := s.f (Reg.GATE_LEN_LEN p r.bank)
  let here := d + r.entryAt - s.ranQ
  if n ≤ r.entry + 1 ∨ left ≤ here then [(m, left)]
  else (m, here) :: s.cycleSpans p r.bank (left - here) (n - r.entry - 1) (r.entry + 1)

/-- The bank, ALIGN, CYCLE and BASE in force from the next cycle start on. -/
def nextList (s : State) (p : Nat) : Nat × Nat × Nat × Nat :=
  let r := s.port p
  match r.nextBank with
  | some b => (b, s.f (Reg.GATE_CTRL_ALIGN p), s.f (Reg.GATE_CYCLE_CYCLE_NS p), (s.reg (Reg.GATE_BASE p)).toNat)
  | none => (r.bank, r.align, r.cycleNs, r.baseNs)

/-- The spans from the next cycle start on: one cycle, which ends at the cycle start that ALIGN, CYCLE and BASE in force from
then on give, and a whole one (R372, R373). -/
def nextSpans (s : State) (p : Nat) : List (Nat × Nat) :=
  let r := s.port p
  let at' := (s.cycleStart r.align r.cycleNs r.baseNs (s.cycleNo r.align r.cycleNs r.baseNs s.tq + 1)).toNat
  let (b, al, cy, base) := s.nextList p
  let len := (s.cycleStart al cy base (s.cycleNo al cy base at' + 1)).toNat - at'
  s.cycleSpans p b len (s.f (Reg.GATE_LEN_LEN p b)) 0 ++ s.bankSpans p b al cy

/-- The remaining open time of queue q (R373); none where it is unlimited. -/
def openTime (s : State) (p q : Nat) : Option Nat := openRun q (s.restSpans p ++ s.nextSpans p)

/-- The longest window of queue q under the bank in force (R374); none where it is unlimited. -/
def longestWindow (s : State) (p q : Nat) : Option Nat :=
  let r := s.port p
  let cyc := s.bankSpans p r.bank r.align r.cycleNs
  if cyc.all fun x => bit x.1 q then none else some (longestRun q (cyc ++ cyc) 0)

/-- May the head frame of queue q start by the gate list (R373)? -/
def gateAllows (s : State) (p q : Nat) (x : Frame) : Bool :=
  !s.gated p ||
    match s.openTime p q with
    | none => true
    | some t => decide (s.txTime p (s.txLength p x) ≤ t)

/-- Is the head frame longer than every window of its queue (R374)? No gate list holds a LATCH or HOLD (R339). -/
def oversize (s : State) (p q : Nat) (x : Frame) : Bool :=
  s.gated p && !x.isLatch &&
    match s.longestWindow p q with
    | none => false
    | some t => decide (t < s.txTime p (s.txLength p x))

/-- Is a frame held by REORDER (R387)? -/
def isHeld (x : Frame) : Bool := match x.reorder with | some (_ + 1) => true | _ => false

/-- The position in a queue of the frame that goes next: frames held by REORDER let the first frame behind them that is
not held go; where the queue holds no such frame, the first goes (R387). -/
def nextIndex (q : List Frame) : Nat := (q.findIdx? fun x => !isHeld x).getD 0

/-- Drop the frame of queue q that goes next as WINDOW_OVERSIZE while it is oversize, at most n frames (R374). -/
def dropOversize (s : State) (p q n : Nat) : State :=
  match n with
  | 0 => s
  | k + 1 =>
    let l := (s.port p).queues.getD q []
    match l[nextIndex l]? with
    | none => s
    | some x =>
      if s.oversize p q x then
        let s1 := s.setPort p { s.port p with queues := (s.port p).queues.set q (l.eraseIdx (nextIndex l)) }
        let s2 := ((s1.freeBillets p (billetsOf x.length)).satF (Reg.QUEUE_DROPS_WINDOW p q) 1).portRaise p
          [Flag.PORT_STATUS_WINDOW_OVERSIZE]
        s2.dropOversize p q k
      else s

/-- Judge the frame of queue q that goes next, and those behind it that come next then (R374). -/
def judgeQueue (s : State) (p q : Nat) : State := s.dropOversize p q ((s.port p).queues.getD q []).length

/-- Judge the heads of all queues (R374). -/
def judgeHeads (s : State) (p : Nat) : State := forN 8 (fun q t => t.judgeQueue p q) s

/-- Append a frame to queue q of port p; front: ahead of the frames that wait there (R334). A frame that reaches the head is
judged (R374). -/
def pushFrame (s : State) (p q : Nat) (x : Frame) (front : Bool) : State :=
  let r := s.port p
  let old := r.queues.getD q []
  let s1 := s.setPort p { r with queues := r.queues.set q (if front then x :: old else old ++ [x]) }
  if front ∨ old.all isHeld then s1.judgeQueue p q else s1

/-- Does a refused frame of this kind wait to be judged again (R378)? R378 does not list a Delay_Req: it waits as CTRL does (log
entry 120). -/
def waitsForBillets (k : FrameKind) : Bool :=
  match k with
  | .ctrl _ | .test _ | .echo _ _ _ | .delayReq => true
  | _ => false

/-- Queue a frame in queue q of port p: the Crucible judges it once (R376–R378). -/
def enqueueAt (s : State) (p q : Nat) (x : Frame) (front : Bool) : State :=
  let n := billetsOf x.length
  let y := { x with since := s.tq }
  if s.cruAdmits p n (q == 7) then (s.takeBillets p n).pushFrame p q y front
  else
    let s1 := s.cruRefused p
    if waitsForBillets x.kind then s1.setPort p { s1.port p with retry := (s1.port p).retry ++ [(q, x)] }
    else (s1.satF (Reg.QUEUE_DROPS_CRUCIBLE p q) 1).portRaise p [Flag.PORT_STATUS_CRUCIBLE_DROP]

/-- Queue a frame at the end of queue q. -/
def enqueue (s : State) (p q : Nat) (x : Frame) : State := s.enqueueAt p q x false

/-- Every refused CTRL, TEST and echo frame of a port is judged again, in order (R378). -/
def retryFrames (s : State) (p : Nat) : State :=
  (s.port p).retry.foldl (fun t y => t.enqueue p y.1 y.2) (s.setPort p { s.port p with retry := [] })

/-- Discard the frames of a port at a swap point (R91, R620): its queues, the frames that wait for Billets, and the frames
in reception, those that the receive injector holds among them. A frame on the wire ends, unless the link is cut. -/
def flushPort (s : State) (p : Nat) (cut : Bool) : State :=
  let r := s.port p
  let n := (r.queues.map List.length).sum + r.due.length + r.retry.length + r.rx.length + r.fiRx.held.length + r.hostWait.length
  let s1 := s.satF (Reg.PORT_SWAP_FLUSH_FRAMES p) n
  let tx := if cut then none else r.tx
  let s2 := s1.setPort p { r with queues := List.replicate 8 [], due := [], rx := [], rxBad := 0, retry := [], tx := tx, hostWait := [],
                                  granted := false, fiRx := { r.fiRx with held := [] } }
  let s3 := forN 5 (fun q t => t.setF (Reg.QUEUE_COUNTS_DEFICIT p q) 0) s2
  s3.setHeld p (match tx with | some x => billetsOf x.frame.length | none => 0)

/-! ### Chain frames (R437) -/

/-- The body of a chain frame from part src to part dst: Ethernet header, chain header, payload, CRC-32C. The manual leaves the MAC
addresses, FLAGS, the per-type fields and the payload layouts to the part: zeros, but that a number k may stand in the per-type
fields, and layouts of this model (log entry 25). -/
def chainBodyWith (s : State) (type src dst k : Nat) (payload : List Byte) : List Byte :=
  let head := [BitVec.ofNat 8 type, 0, BitVec.ofNat 8 src, BitVec.ofNat 8 dst] ++
    leBytes 2 payload.length ++ leBytes 2 (s.f Reg.CHAIN_STATE_EPOCH) ++ leBytes 8 k
  List.replicate 12 0 ++ beBytes 2 (s.f Reg.CHAIN_CFG_ETHERTYPE) ++ head ++ payload ++ leBytes 4 (crc32c (head ++ payload))

/-- The body of a chain frame with no number in its per-type fields. -/
def chainBody (s : State) (type src dst : Nat) (payload : List Byte) : List Byte := s.chainBodyWith type src dst 0 payload

/-! ### The Slab's own errors (R514) -/

/-- A correctable error in a Slab word: corrected, written back, counted. -/
def slabCe (s : State) : State :=
  (s.satF Reg.SLAB_ECC_COUNTS_CE 1).raise Reg.SLAB_BLOCK_STATUS Flag.SLAB_CE

/-- An uncorrectable error in the Slab word at offset o of a region (R514, R519). -/
def slabUe (s : State) (region o : Nat) : State :=
  let s1 := (s.satF Reg.SLAB_ECC_COUNTS_UE 1).setReg Reg.SLAB_UE_LOG (BitVec.ofNat 64 (2 ^ 63 + region * 2 ^ 60 + o % 2 ^ 28))
  s1.raise Reg.SLAB_BLOCK_STATUS Flag.SLAB_UE

/-- Every word with an uncorrectable error among n bytes from offset o on of the cluster store is recorded as it is read. -/
def slabUeWords (s : State) (o n : Nat) : State :=
  ((wordsOf (0xE800000000 + o) n).filter s.poison.contains).foldl (fun t w => t.slabUe 3 (w - 0xE800000000)) s

/-- An uncorrectable error in a Billet or a line buffer: the manual gives the word no offset, so OFFSET is an open value
(log entry 11). -/
def slabUeOpen (s : State) (region : Nat) : State :=
  let (v, s1) := s.takeFree
  s1.slabUe region v

end State
end Sys2Proof.Machine
end

