-- ==== Sys2Proof/Machine/Ports.lean ====
section
/-! DEFINITION. The ports (R359–R402): gate lists, guard windows, shapers and the deficit group, the start and end of a
frame, reception, fault injection, sampling, host rings, and the writes that configure them. -/

namespace Sys2Proof.Machine
namespace State

/-! ### The Tile Map's live entries (R287, R288) -/

/-- The VALID entries of the copy of the Tile Map at base, in ascending index. -/
def mapEntries (s : State) (base : Nat) : List MapEntry :=
  s.mem.filterMap fun c =>
    if base ≤ c.1 ∧ c.1 < base + 0x100000 ∧ c.1 % 16 = 15 ∧ 128 ≤ c.2.toNat then
      some { idx := (c.1 - base) / 16, w0 := BitVec.ofNat 64 (s.rd (c.1 - 15) 8), w1 := BitVec.ofNat 64 (s.rd (c.1 - 7) 8) }
    else none

/-- The live entries. -/
def liveEntries (s : State) : List MapEntry := s.mapEntries 0xE800100000

end State

namespace MapEntry

/-- Fields of an entry (R288). -/
def x (e : MapEntry) : Nat := bits e.w0.toNat 15 0
def y (e : MapEntry) : Nat := bits e.w0.toNat 31 16
def w (e : MapEntry) : Nat := bits e.w0.toNat 47 32
def h (e : MapEntry) : Nat := bits e.w0.toNat 63 48
def tile (e : MapEntry) : Nat := bits e.w1.toNat 15 0
def port (e : MapEntry) : Nat := bits e.w1.toNat 22 16
def altPort (e : MapEntry) : Nat := bits e.w1.toNat 30 24
def altEn (e : MapEntry) : Bool := bit e.w1.toNat 31
def queue (e : MapEntry) : Nat := bits e.w1.toNat 34 32
def orient (e : MapEntry) : Nat := bits e.w1.toNat 38 36
def raster (e : MapEntry) : Nat := bits e.w1.toNat 43 40

/-- Is a reserved bit of the entry set (R287, R305)? -/
def reserved (e : MapEntry) : Bool :=
  bits e.w1.toNat 62 44 != 0 || bit e.w1.toNat 39 || bit e.w1.toNat 35 || bit e.w1.toNat 23

/-- The ports an entry names (R293). -/
def ports (e : MapEntry) : List Nat := if e.altEn then [e.port, e.altPort] else [e.port]

/-- Does the rectangle lie inside an active area (R288, R293)? -/
def inside (e : MapEntry) (t : Timing) : Bool := decide (e.x + e.w ≤ t.hActive) && decide (e.y + e.h ≤ t.vActive)

end MapEntry

namespace State

/-- The rasters with a live VALID entry on port p, rising (R334, R339). -/
def portRasters (s : State) (p : Nat) : List Nat :=
  let es := s.liveEntries.filter fun e => e.ports.contains p
  (List.range 16).filter fun m => es.any fun e => e.raster == m

/-! ### The guard window (R339) -/

/-- Is the send position of the frame in progress on a raster still to come? -/
def sendAhead (r : Raster) : Bool :=
  !r.sendDone && (match r.mode with | .run => true | .hit _ => true | _ => false) && decide (r.pos ≤ r.tim.sendLine * r.tim.hTotal)

/-- Time until the next send position of raster m, in units of T_Q, at the rate of the live timing (R126, R302); none where its
timing does not run. -/
def toSend (s : State) (m : Nat) : Option Nat :=
  let r := s.raster m
  match r.mode with
  | .off | .unstarted _ => none
  | _ =>
    let t := s.liveTiming m
    some (if sendAhead r then s.posTime m (r.tim.sendLine * r.tim.hTotal * 2 ^ 48 - s.posNow m)
      else s.toNextFrame m + s.posTime m (t.sendLine * t.hTotal * 2 ^ 48))

/-- The entries that govern the next send position of raster m: those of the frame in progress while its own is to come (R290);
then those taken at its STP, or, before it, the live ones. -/
def sendEntries (s : State) (m : Nat) : List MapEntry :=
  let r := s.raster m
  if sendAhead r then r.entCur else if r.stpDone then r.entNext else s.liveEntries.filter fun e => e.raster == m

/-- Does the guard window let a frame of n transmit bytes start on port p (R339)? -/
def guardAllows (s : State) (p n : Nat) : Bool :=
  (List.range 16).all fun m =>
    match s.toSend m with
    | none => true
    | some t =>
      !((s.sendEntries m).any fun e => e.ports.contains p) ||
        decide (65536 * s.f (Reg.BTL_GUARD_GUARD_NS p) ≤ t) || decide (s.txTime p n ≤ t)

/-! ### Choosing a frame (R365–R367) -/

/-- Does queue q's shaper let a frame start (R366, R368)? -/
def shaperAllows (s : State) (p q : Nat) : Bool :=
  !s.fb (Reg.QUEUE_SHAPE_BURST_EN p q) || decide (0 ≤ (s.port p).credit.getD q 0)

/-- The frame that queue q would start. -/
def headOf (s : State) (p q : Nat) : Option Frame :=
  let l := (s.port p).queues.getD q []
  l[nextIndex l]?

/-- Is queue q eligible (R366)? With the link down every queue that holds a frame is (R361); nothing holds a LATCH or HOLD
(R365). -/
def eligible (s : State) (p q : Nat) : Bool :=
  match s.headOf p q with
  | none => false
  | some x => !s.linkUp p || x.isLatch || (s.shaperAllows p q && s.gateAllows p q x && s.guardAllows p (s.txLength p x))

/-- The deficit group's queue in turn (R367). -/
def turnOf (s : State) (p : Nat) : Nat := (s.port p).turn % 5

/-- End the turn of a deficit queue. -/
def endTurn (s : State) (p : Nat) : State :=
  let r := s.port p
  let q := s.turnOf p
  let s1 := if (r.queues.getD q []).isEmpty then s.setF (Reg.QUEUE_COUNTS_DEFICIT p q) 0 else s
  s1.setPort p { r with turn := (q + 1) % 5, granted := false }

/-- The turn of a deficit queue ends at once where the queue has emptied, its head exceeds DEF or it is not eligible
(R367). -/
def settleTurn (s : State) (p q : Nat) : State :=
  let ended : Bool := match s.headOf p q with
    | some x => !s.eligible p q || decide (s.f (Reg.QUEUE_COUNTS_DEFICIT p q) < s.txLength p x)
    | none => true
  if q < 5 ∧ (s.port p).granted ∧ s.turnOf p = q ∧ ended = true then s.endTurn p else s

/-- The QUANTUM of a deficit queue, 1 to 65,535 bytes (R367, R370). -/
def quantum (s : State) (p q : Nat) : Nat := max 1 (s.f (Reg.QUEUE_QUANTUM_QUANTUM p q))

/-- The deficit group's choice (R367): the queue that starts its next frame, if one is eligible. -/
def chooseDeficit (s : State) (p n : Nat) : Option Nat × State :=
  match n with
  | 0 => (none, s)
  | k + 1 =>
    let r := s.port p
    let q := s.turnOf p
    if r.granted then
      match s.headOf p q with
      | some x =>
        if s.eligible p q ∧ s.txLength p x ≤ s.f (Reg.QUEUE_COUNTS_DEFICIT p q) then (some q, s)
        else (s.endTurn p).chooseDeficit p k
      | none => (s.endTurn p).chooseDeficit p k
    else if s.eligible p q then
      ((s.satF (Reg.QUEUE_COUNTS_DEFICIT p q) (s.quantum p q)).setPort p { r with granted := true }).chooseDeficit p k
    else if (List.range 5).any fun j => s.eligible p j then
      (s.setPort p { r with turn := (q + 1) % 5 }).chooseDeficit p k
    else (none, s)

/-- More steps than the deficit group takes to a choice: ten in each round, for as many rounds as its heads have bytes. -/
def deficitSteps (s : State) (p : Nat) : Nat :=
  20 + 10 * ((List.range 5).map fun q => match s.headOf p q with | some x => s.txLength p x | none => 0).sum

/-- The queue whose frame starts next: Q7 to Q5 strictly, then the deficit group (R365). -/
def chooseQueue (s : State) (p : Nat) : Option Nat × State :=
  if s.eligible p 7 then (some 7, s)
  else if s.eligible p 6 then (some 6, s)
  else if s.eligible p 5 then (some 5, s)
  else s.chooseDeficit p (s.deficitSteps p)

/-! ### Fault injection (R386, R387) -/

/-- One step of the injector's LFSR. -/
def lfsrNext (x : Nat) : Nat := x / 2 ^^^ (if x % 2 = 1 then 0x80200003 else 0)

/-- Judge a candidate of injector d of port p: is it selected (R386)? -/
def injectorPick (s : State) (p d : Nat) : Bool × State :=
  let r := s.port p
  let j := if d = 0 then r.fiTx else r.fiRx
  let n := s.f (Reg.FI_N_N p d)
  let lf := lfsrNext j.lfsr
  let (hit, j') :=
    if s.f (Reg.FI_CFG_PATTERN p d) = 0 then (n != 0 && (j.count + 1) % n == 0, { j with count := j.count + 1 })
    else (n != 0 && lf % n == 0, { j with lfsr := lf })
  let s1 := s.setPort p (if d = 0 then { r with fiTx := j' } else { r with fiRx := j' })
  (hit, if hit then s1.addF (Reg.FI_HITS_HITS p d) 1 else s1)

/-- The action that injector d applies to a frame of BTL type ty (0 for another frame) in queue q; none where the frame
is no candidate or is not selected. -/
def inject (s : State) (p d ty q : Nat) : Option Nat × State :=
  let act := s.f (Reg.FI_CFG_ACTION p d)
  if s.fb (Reg.FI_CFG_EN p d) && decide (act ≤ 4) && bit (s.f (Reg.FI_SEL_TYPES p d)) ty &&
      (d == 1 || bit (s.f (Reg.FI_SEL_QUEUES p d)) q) && (act != 2 || ty != 0) then
    let (hit, s1) := s.injectorPick p d
    (if hit then some act else none, s1)
  else (none, s)

/-- Invert bit 0 of the byte at position i. -/
def flipAt (bs : List Byte) (i : Nat) : List Byte := bs.set i ((byteAt bs i) ^^^ 1)

/-- The position of the byte that PAYLOAD inverts: before the check value, or the last data byte (R387). -/
def flipPos (btl : Bool) (payload total : Nat) : Nat := if btl then 29 + payload else total - 1

/-- The wire bytes of a frame with an injected fault: act 1 PAYLOAD, 2 CHECK, 3 FCS. -/
def faultyWire (body : List Byte) (btl : Bool) (payload : Nat) (act : Option Nat) : List Byte :=
  let b := match act with
    | some 1 => flipAt body (flipPos btl payload body.length)
    | some 2 => flipAt body (30 + payload)
    | _ => body
  let c := fcs b
  b ++ match act with | some 3 => flipAt c 0 | _ => c

/-! ### Starting and ending a frame (R365, R376) -/

/-- Charge a frame's transmit length to its queue's shaper (R368): debt stops at −2^31 bytes. -/
def charge (s : State) (p q n : Nat) : State :=
  if s.fb (Reg.QUEUE_SHAPE_BURST_EN p q) then
    let r := s.port p
    let c := r.credit.getD q 0 - 24000000 * (n : Int)
    s.setPort p { r with credit := r.credit.set q (max c (-2147483648 * 24000000)) }
  else s

/-- A later frame of their queue has started: frames held by REORDER count it (R387). -/
def passHeld (l : List Frame) : List Frame :=
  l.map fun x => match x.reorder with | some (n + 1) => { x with reorder := some n } | _ => x

/-- Remove the frame at position i of queue q; a frame that reaches the head then is judged (R374). -/
def popFrame (s : State) (p q i : Nat) : State :=
  let r := s.port p
  (s.setPort p { r with queues := r.queues.set q ((r.queues.getD q []).eraseIdx i) }).judgeQueue p q

/-- Count and discard a frame in place of its start while the link is down (R361). -/
def discardDown (s : State) (p q : Nat) (x : Frame) : State :=
  ((s.freeBillets p (billetsOf x.length)).satF (Reg.QUEUE_DROPS_LINK_DOWN p q) 1).portRaise p
    [Flag.PORT_STATUS_LINK_DOWN_DROP]

/-- The stamp of a layout-A BEACON (R320): header and payload of raster m as the frame leaves, with the timing of the frame
in progress (R302). -/
def beaconBody (s : State) (m tile seq flags : Nat) : List Byte × List Byte :=
  let r := s.raster m
  let pos := s.rasterPos m
  let live := r.tim
  let sub := r.frame % max 1 live.sub
  let period := (roundDiv ((s.time.d * secQ : Nat) : Int) (max 1 (s.time.n * live.vTotal * live.sub) : Nat)).toNat
  let fields := [BitVec.ofNat 8 m, BitVec.ofNat 8 r.alive] ++ leBytes 4 seq ++ [0, 0, 0, 0]
  let payload := leBytes 4 pos.f ++ leBytes 2 pos.l ++ leBytes 2 pos.t ++ leBytes 6 period ++ leBytes 2 live.vTotal ++
    List.replicate 8 0 ++ [BitVec.ofNat 8 live.sub, BitVec.ofNat 8 live.latchLead] ++ leBytes 2 live.sendLine ++ [0, 0, 0, 0]
  (btlHeader 4 (flags + sub % 8) tile 32 fields ++ payload, foldPrefix m 4 tile r.alive sub)

/-- A TIME frame takes its last stamp as it leaves: t1 of a request, t3 of a reply (R438); the check value follows. -/
def timeStamped (s : State) (body : List Byte) : List Byte :=
  let head := (body.drop 14).take 16
  let pay := (body.drop 30).take (leAt head 4 2 - 8) ++ leBytes 8 s.tq
  body.take 30 ++ pay ++ leBytes 4 (crc32c (head ++ pay))

/-- A BEACON and a chain TIME frame are stamped as they leave; any other frame leaves as it was queued (R334, R438). -/
def stamped (s : State) (x : Frame) : Frame :=
  match x.kind with
  | .beacon m => let (b, g) := s.beaconBody m 0xFFFF 0 0; { x with body := b, fold := g }
  | .echo m tile seq => let (b, g) := s.beaconBody m tile seq 0x80; { x with body := b, fold := g }
  | .chain 2 => { x with body := s.timeStamped x.body }
  | _ => x

/-- The TB_PTP_PORT entry that names a port: 0–127, or a management MAC as 128 and 129 (R111). -/
def ptpEntry (s : State) (p : Nat) : Option Nat := (List.range 2).find? fun a => s.f (Reg.TB_PTP_PORT_PORT a) == p

/-- A Delay_Req leaves by the port of an entry: its timestamp, with the board's latency, goes to Keeper firmware (R110,
R111). -/
def stampOut (s : State) (p : Nat) (msg : List Byte) : State :=
  match s.ptpEntry p with
  | some a =>
    let x : PtpStamp := { entry := a, tq := s.tq + 65536 * s.f (Reg.TB_PTP_PORT_TX_LAT a), msg := msg }
    s.setTime { s.time with ptpOut := x :: s.time.ptpOut }
  | none => s

/-- Start a frame: its wire bytes, with an injected fault or an uncorrectable Billet (R379), the shaper's charge, the
counts of its queue. -/
def startFrame (s : State) (p q : Nat) (x0 : Frame) (charged : Bool) (act : Option Nat) (billet : Ecc) : State :=
  let x := s.stamped x0
  let wire0 := faultyWire (s.wireBody p x) x.isBtl x.payload act
  let bad := billet == .uncorrectable
  let wire := if bad then wire0.take (wire0.length - 4) ++ (wire0.drop (wire0.length - 4)).map (~~~ ·) else wire0
  let s1 := if charged then s.charge p q (s.txLength p x) else s
  let s2 := s1.addF (Reg.QUEUE_COUNTS_SENT p q) 1
  let s3 := match x.kind with
    | .pixel _ _ => s2.addF (Reg.BTL_TX_COUNTS_PIXEL_PKTS p) 1
    | .latch _ _ | .hold _ _ => if x.since + 100 * 65536 < s.tq then s2.addF (Reg.BTL_TX_COUNTS_TX_LATE p) 1 else s2
    | _ => s2
  let s4 := s3.setPort p { s3.port p with tx := some { frame := x, queue := q, wire := wire, start := s.tq } }
  let s5 := match x.kind with
    | .echo _ _ _ => match (s4.port p).echo with
      | some e => s4.setPort p { s4.port p with echo := some { e with t1 := some s.tq } }
      | none => s4
    | .delayReq => s4.stampOut p (x.body.drop 42)
    | _ => s4
  match billet with
  | .clean => s5
  | .correctable => s5.slabCe
  | .uncorrectable => ((s5.slabUeOpen 1).portRaise p [Flag.PORT_STATUS_POISON]).cruRaise [Flag.CRUCIBLE_POISON]

/-- Take the frame at position i of queue q and start it, under the transmit injector (R386, R387). -/
def launch (s : State) (p q i : Nat) (x : Frame) (billet : Ecc) : State :=
  let (act, s1) := if x.judged then (none, s) else s.inject p 0 x.btlType q
  match act with
  | some 0 =>
    (((s1.popFrame p q i).settleTurn p q).freeBillets p (billetsOf x.length)).satF (Reg.QUEUE_DROPS_INJECTED p q) 1
  | some 4 =>
    let r := s1.port p
    let held := { x with reorder := some (max 1 (s.f (Reg.FI_CFG_HOLD p 0))), judged := true }
    s1.setPort p { r with queues := r.queues.set q ((r.queues.getD q []).set i held) }
  | a =>
    -- the frames held before it count it
    let l := (s1.port p).queues.getD q []
    let s2 := s1.setPort p { s1.port p with queues := (s1.port p).queues.set q (passHeld (l.take i) ++ l.drop i) }
    let s3 := s2.popFrame p q i
    let s4 := if q < 5 then s3.setF (Reg.QUEUE_COUNTS_DEFICIT p q) (s3.f (Reg.QUEUE_COUNTS_DEFICIT p q) - s.txLength p x) else s3
    (s4.startFrame p q x (!x.isLatch) a billet).settleTurn p q

/-- Start a due LATCH or HOLD (R339, R365); fault injection may select it (R387). -/
def launchDue (s : State) (p : Nat) (x : Frame) (rest : List Frame) (billet : Ecc) : State :=
  let s0 := s.setPort p { s.port p with due := rest }
  let (act, s1) := if x.judged then (none, s0) else s0.inject p 0 x.btlType 7
  match act with
  | some 0 => (s1.freeBillets p (billetsOf x.length)).satF (Reg.QUEUE_DROPS_INJECTED p 7) 1
  | some 4 => s1.pushFrame p 7 { x with reorder := some (max 1 (s.f (Reg.FI_CFG_HOLD p 0))), judged := true } true
  | a =>
    let s2 := s1.setPort p { s1.port p with queues := (s1.port p).queues.set 7 (passHeld ((s1.port p).queues.getD 7 [])) }
    s2.startFrame p 7 x false a billet

/-- The port starts the frame that R365 yields, or discards it while the link is down (R361). -/
def portTxStart (s : State) (p : Nat) (billet : Ecc) : State :=
  if (s.port p).tx.isSome then s
  else
    let s0 := s.judgeHeads p
    match (s0.port p).due with
    | x :: rest =>
      if s0.linkUp p then s0.launchDue p x rest billet
      else (s0.setPort p { s0.port p with due := rest }).discardDown p 7 x
    | [] =>
      match s0.chooseQueue p with
      | (none, s1) => s1
      | (some q, s1) =>
        let l := (s1.port p).queues.getD q []
        let i := nextIndex l
        match l[i]? with
        | none => s1
        | some x =>
          if s1.linkUp p then s1.launch p q i x billet
          else
            let s2 := s1.popFrame p q i
            let s3 := if q < 5 then s2.setF (Reg.QUEUE_COUNTS_DEFICIT p q) (s2.f (Reg.QUEUE_COUNTS_DEFICIT p q) - s1.txLength p x) else s2
            (s3.settleTurn p q).discardDown p q x

/-- The last byte of a frame leaves the port: its Billets are freed (R376). -/
def portTxComplete (s : State) (p : Nat) : State :=
  match (s.port p).tx with
  | none => s
  | some x =>
    let s1 := s.setPort p { s.port p with tx := none, lastSent := x.wire }
    let s2 := (s1.freeBillets p (billetsOf x.frame.length)).addF (Reg.PORT_MAC_TX_TX_FRAMES p) 1
    match x.frame.kind with
    | .test _ => s2.satF (Reg.BTL_TEST_RESULT_SENT p) 1
    | _ => s2

/-! ### Reception (R348, R364, R376, R379) -/

/-- Deliver a received frame: its Billets stand until its role's step has taken it. -/
def deliver (s : State) (p : Nat) (x : RxFrame) : State := s.setPort p { s.port p with rx := (s.port p).rx ++ [x] }

/-- A frame delivered on port p counts for the frames that the receive injector holds (R387). -/
def passRxHeld (s : State) (p : Nat) : State :=
  let r := s.port p
  let left := r.fiRx.held.map fun x => (x.1, x.2 - 1)
  let out := left.filter fun x => x.2 == 0
  let s1 := s.setPort p { r with fiRx := { r.fiRx with held := left.filter fun x => x.2 != 0 } }
  out.foldl (fun t x => t.deliver p x.1) s1

/-- BTL TYPE of a received frame on port p; 0 for another frame. -/
def rxType (s : State) (p : Nat) (frame : List Byte) : Nat :=
  if beAt frame 12 2 = s.f (Reg.BTL_CFG_ETHERTYPE p) then (byteAt frame 14).toNat % 16 else 0

/-- A frame that has passed the MAC and the Crucible meets the receive injector (R386, R387). -/
def rxInjected (s : State) (p : Nat) (x : RxFrame) (act : Option Nat) : State :=
  let btl := s.rxType p x.bytes != 0
  let len := leAt x.bytes 18 2
  match act with
  | some 0 => s.freeBillets p x.billets
  | some 1 => (s.deliver p { x with bytes := flipAt x.bytes (flipPos btl len (x.bytes.length - 4)) }).passRxHeld p
  | some 2 => (s.deliver p { x with bytes := flipAt x.bytes (30 + len) }).passRxHeld p
  | some 4 =>
    let r := s.port p
    s.setPort p { r with fiRx := { r.fiRx with held := r.fiRx.held ++ [(x, max 1 (s.f (Reg.FI_CFG_HOLD p 1)))] } }
  | _ => (s.deliver p x).passRxHeld p

/-- The frame's Billets are requested one at a time (R376): how many are granted before a refusal. -/
def takeOneByOne (s : State) (p n : Nat) : Nat × State :=
  match n with
  | 0 => (0, s)
  | k + 1 =>
    if s.cruAdmits p 1 false then let (g, t) := (s.takeBillets p 1).takeOneByOne p k; (g + 1, t) else (0, s)

/-- The Billets of a frame that the MAC has rejected stand to the end of the FCLK in which its last byte arrived (R376, log
entry 104). -/
def holdBad (s : State) (p n : Nat) : State := s.setPort p { s.port p with rxBad := (s.port p).rxBad + n }

/-- They are freed. -/
def freeBad (s : State) (p : Nat) : State :=
  if (s.port p).rxBad = 0 then s
  else (s.setPort p { s.port p with rxBad := 0 }).freeBillets p (s.port p).rxBad

/-- Does the MAC pass a frame whose FCS it found right or wrong (R364)? -/
def macPasses (frame : List Byte) (ok : Bool) : Bool := ok && decide (64 ≤ frame.length) && decide (frame.length ≤ 9216)

/-- A received frame, its bytes from DA through FCS (R364, R376, R379). One that the Crucible has refused is discarded; on an
INGEST port it first goes, without Billets, through the steps that sort and meter it, and one that is not refused asks for its last
Billet there, after the meter (R380, R404). The arrival is one instant (log entry 104). -/
def portRxFrame (s : State) (p : Nat) (frame : List Byte) (fcsOk : Bool) (billet : Ecc) : State :=
  if s.role p = 0 then s
  else
    let (act, s0) := s.inject p 1 (s.rxType p frame) 0
    let good := macPasses frame (fcsOk && act != some 3)
    let askLast := good && s.role p == 2
    let n := billetsOf (min frame.length 9216) - (if askLast then 1 else 0)
    let (got, s1) := s0.takeOneByOne p n
    let refused := decide (got < n)
    let s2 := if refused then (s1.freeBillets p got).cruRefused p else s1
    let reject (t : State) : State := if refused then t else t.holdBad p n
    if 9216 < frame.length then reject (s2.satF (Reg.PORT_MAC_RX_OVERSIZE p) 1)
    else if good = false then reject (s2.satF (Reg.PORT_MAC_RX_FCS_ERR p) 1)
    else
      let s3 := s2.addF (Reg.PORT_MAC_RX_RX_FRAMES p) 1
      let x : RxFrame := { bytes := frame, billets := n, askLast := askLast, tq := s.tq, fclk := s.fclk }
      if refused then
        (if s.role p = 2 ∧ act ≠ some 0 then s3.deliver p { x with billets := 0, refused := true, askLast := false } else s3)
      else
        match billet with
        | .uncorrectable =>
          (((s3.freeBillets p n).slabUeOpen 1).portRaise p [Flag.PORT_STATUS_POISON]).cruRaise [Flag.CRUCIBLE_POISON]
        | .correctable => (s3.rxInjected p x act).slabCe
        | .clean => s3.rxInjected p x act

/-- The frame of these bytes that stands on port p. -/
def rxFind (s : State) (p : Nat) (frame : List Byte) : Option RxFrame := (s.port p).rx.find? fun x => x.bytes == frame

/-- A frame leaves the frames that stand on port p; its Billets stay taken. -/
def rxRemove (s : State) (p : Nat) (x : RxFrame) : State := s.setPort p { s.port p with rx := (s.port p).rx.erase x }

/-- The step of a role takes a received frame out of the Crucible. -/
def takeRx (s : State) (p : Nat) (frame : List Byte) : State :=
  match s.rxFind p frame with
  | none => s
  | some x => (s.rxRemove p x).freeBillets p x.billets

/-- A frame taken out of those that stand on port p with its Billets; one that does not stand there holds none (log entry 74). -/
def rxTakeOut (s : State) (p : Nat) (frame : List Byte) : RxFrame × State :=
  match s.rxFind p frame with
  | some x => (x, s.rxRemove p x)
  | none => ({ bytes := frame, tq := s.tq, fclk := s.fclk }, s)

/-- T_Q of the reception of a frame that stands on port p (R110, R337); now, where none does. -/
def rxTq (s : State) (p : Nat) (frame : List Byte) : Nat := match s.rxFind p frame with | some x => x.tq | none => s.tq

/-- A frame on port p asks for its last Billet (R376, R380): where that is refused it gives back the others. -/
def askLastBillet (s : State) (p : Nat) (frame : List Byte) : State :=
  match s.rxFind p frame with
  | none => s
  | some x =>
    if x.askLast = false then s
    else
      let become (t : State) (y : RxFrame) : State := t.setPort p { t.port p with rx := (t.port p).rx.replace x y }
      if s.cruAdmits p 1 false then become (s.takeBillets p 1) { x with billets := x.billets + 1, askLast := false }
      else become ((s.freeBillets p x.billets).cruRefused p) { x with billets := 0, refused := true, askLast := false }

/-- A held received frame is delivered after 100 µs (R387). -/
def fiReorderRelease (s : State) (p : Nat) : State :=
  let r := s.port p
  match r.fiRx.held with
  | [] => s
  | x :: rest => (s.setPort p { r with fiRx := { r.fiRx with held := rest } }).deliver p x.1

/-! ### Link and clocks (R361, R362, R390) -/

/-- What the PCS reports of port p; LINK_UP follows it (R361), but stays 0 while its quad is in the electrical idle of a
swap (R92). -/
def setLink (s : State) (p : Nat) (b : LinkBits) : State :=
  let an := s.fb (Reg.PQ_LANE_CFG_AN_EN (p / 4) (p % 4)) && s.f (Reg.PQ_MODE_MODE (p / 4)) == 1
  let fec := s.f (Reg.PQ_MODE_MODE (p / 4)) == 4
  let up := b.blockLock && !b.hiBer && (!an || b.anDone) && (!fec || b.fecLock) && s.f (Reg.PQ_MODE_MODE (p / 4)) != 0 &&
    s.fb (Reg.PQ_REFCLK_PRESENT (p / 4)) && !s.quadIdle.contains (p / 4)
  let old := s.linkUp p
  let n (x : Bool) : Nat := if x then 1 else 0
  let s1 := (((((s.setF (Reg.PORT_LINK_BLOCK_LOCK p) (n b.blockLock)).setF (Reg.PORT_LINK_HI_BER p) (n b.hiBer)).setF
    (Reg.PORT_LINK_FEC_LOCK p) (n b.fecLock)).setF (Reg.PORT_LINK_AN_DONE p) (n b.anDone)).setF
    (Reg.PORT_LINK_REMOTE_FAULT p) (n b.remoteFault)).setF (Reg.PORT_LINK_LINK_UP p) (n up)
  let s2 := if old && !up then s1.satF (Reg.PORT_PHY_COUNTS_LINK_DOWNS p) 1 else s1
  let s3 := if fec then (s2.satF (Reg.PORT_PHY_COUNTS_FEC_CORRECTED p) b.corrected).satF
      (Reg.PORT_PHY_COUNTS_FEC_UNCORRECTABLE p) b.uncorrectable else s2
  if old != up then s3.portRaise p [Flag.PORT_STATUS_LINK_CHANGE] else s3

/-- LINK_UP follows what the PCS reported last, where something else that it depends on has changed. -/
def relink (s : State) (p : Nat) : State :=
  s.setLink p { blockLock := s.fb (Reg.PORT_LINK_BLOCK_LOCK p), hiBer := s.fb (Reg.PORT_LINK_HI_BER p),
                fecLock := s.fb (Reg.PORT_LINK_FEC_LOCK p), anDone := s.fb (Reg.PORT_LINK_AN_DONE p),
                remoteFault := s.fb (Reg.PORT_LINK_REMOTE_FAULT p) }

/-- The lane loses its link. -/
def dropLink (s : State) (p : Nat) : State :=
  s.setLink p { blockLock := false, hiBer := s.fb (Reg.PORT_LINK_HI_BER p), fecLock := false, anDone := false,
                remoteFault := s.fb (Reg.PORT_LINK_REMOTE_FAULT p) }

/-- A reference-clock pair comes or goes (R362). -/
def refclkChange (s : State) (i : Nat) (present : Bool) : State :=
  forN 2 (fun j t =>
    let q := 2 * i + j
    let t1 := t.setF (Reg.PQ_REFCLK_PRESENT q) (if present then 1 else 0)
    if present then t1
    else (forN 4 (fun l u => u.dropLink (4 * q + l)) t1).raise (Reg.PQ_BLOCK_STATUS q) Flag.PQ_REFCLK_LOST) s

/-- A write of PQ_LANE_CFG: a polarity or loopback change drops the lane's link (R390); LINK_UP follows AN_EN (R361). -/
def laneCfgWrite : WriteEffect := fun _ x new _ _ s =>
  let old := (s.reg x.addr).toNat
  let s1 := s.setReg x.addr (BitVec.ofNat 64 new)
  let p := 4 * x.inst + x.idx.headD 0
  if bits old 31 30 ≠ bits new 31 30 ∨ bit old 28 ≠ bit new 28 then s1.dropLink p else s1.relink p

/-! ### Shapers, quanta, gates, sampling, injectors: writes that the port judges -/

/-- The port a register of a port window belongs to. -/
def portOf (x : Found) : Nat := 4 * x.inst + x.idx.headD 0

/-- Ignore a write and set CFG_REFUSED (R388). -/
def cfgRefused (s : State) (p : Nat) : State := s.portRaise p [Flag.PORT_STATUS_CFG_REFUSED]

/-- A write of a shaper's rate or burst (R368–R370). -/
def queueShapeWrite : WriteEffect := fun _ x new _ _ s =>
  let p := portOf x
  let q := x.idx.getD 1 0
  let s1 := s.setReg x.addr (BitVec.ofNat 64 new)
  if s1.fb (Reg.QUEUE_SHAPE_BURST_EN p q) ∧
      (s1.f (Reg.QUEUE_SHAPE_RATE_RATE p q) = 0 ∨ s1.f (Reg.QUEUE_SHAPE_BURST_BURST p q) = 0) then s.cfgRefused p
  else
    let r := s1.port p
    s1.setPort p { r with credit := r.credit.set q (min (r.credit.getD q 0) 0) }

/-- A write of QUEUE_QUANTUM (R370). -/
def queueQuantumWrite : WriteEffect := fun _ x new _ _ s =>
  if bits new 15 0 = 0 then s.cfgRefused (portOf x) else s.setReg x.addr (BitVec.ofNat 64 new)

/-- Can bank b of port p not start (R375)? -/
def bankBad (s : State) (p b : Nat) : Bool :=
  let n := s.f (Reg.GATE_LEN_LEN p b)
  n == 0 || decide (64 < n) || (List.range n).any fun e => s.f (Reg.GATE_ENTRY_DURATION p b e) == 0

/-- Bring bank b into force with the ALIGN, CYCLE and BASE that the registers hold. -/
def bankInForce (s : State) (p b : Nat) : State :=
  let r := s.port p
  s.setPort p { r with bank := b, nextBank := none, align := s.f (Reg.GATE_CTRL_ALIGN p),
                       cycleNs := s.f (Reg.GATE_CYCLE_CYCLE_NS p), baseNs := (s.reg (Reg.GATE_BASE p)).toNat }

/-- A completed bank switch counts and, while EN is 1, sets GATE_SWITCHED. -/
def switched (s : State) (p b : Nat) (flag : Bool) : State :=
  let s1 := ((s.bankInForce p b).setF (Reg.GATE_STATE_ACTIVE p) b).setF (Reg.GATE_STATE_PENDING p) 0
  let s2 := s1.addF (Reg.GATE_STATE_SWITCHES p) 1
  if flag then s2.portRaise p [Flag.PORT_STATUS_GATE_SWITCHED] else s2

/-- A write of GATE_SWITCH (R375). -/
def gateSwitchWrite : WriteEffect := fun _ x _ d _ s =>
  let p := portOf x
  let b := bits d 0 0
  if s.fb (Reg.GATE_CTRL_EN p) then
    if b = (s.port p).bank ∨ (s.port p).nextBank.isSome ∨ s.bankBad p b then s.portRaise p [Flag.PORT_STATUS_GATE_REFUSED]
    else (s.setPort p { s.port p with nextBank := some b }).setF (Reg.GATE_STATE_PENDING p) 1
  else s.switched p b false

/-- A write of GATE_CTRL (R375). -/
def gateCtrlWrite : WriteEffect := fun _ x new _ _ s =>
  let p := portOf x
  let was := s.fb (Reg.GATE_CTRL_EN p)
  let en := bit new 31
  let s1 := s.setReg x.addr (BitVec.ofNat 64 new)
  if was && en then s1
  else if was then
    let s2 := match (s1.port p).nextBank with
      | some b => s1.switched p b true
      | none => s1.bankInForce p (s1.port p).bank
    (s2.setPort p { s2.port p with started := false }).setF (Reg.GATE_STATE_ENTRY p) 0
  else if en then
    let b := (s1.port p).bank
    if s1.bankBad p b then
      ((s1.setF (Reg.GATE_CTRL_EN p) 0).bankInForce p b).portRaise p [Flag.PORT_STATUS_GATE_REFUSED]
    else
      let s2 := s1.bankInForce p b
      s2.setPort p { s2.port p with started := false, cycleFrom := s.tq + 1 }
  else s1.bankInForce p (s1.port p).bank

/-- A write of GATE_CYCLE or GATE_BASE: while EN is 0 it takes effect at once (R375). -/
def gateTimeWrite : WriteEffect := fun _ x new _ _ s =>
  let p := portOf x
  let s1 := s.setReg x.addr (BitVec.ofNat 64 new)
  if s.fb (Reg.GATE_CTRL_EN p) then s1 else s1.bankInForce p (s1.port p).bank

/-- A gate cycle starts, where its instant has come (R371, R372, R375): a pending switch takes force, the entries restart.
The heads are judged under a bank that comes into force (R374). -/
def gateCycleStart (s : State) (p : Nat) : State :=
  match s.cycleDue p with
  | none => s
  | some at' =>
    let s1 := match (s.port p).nextBank with
      | some b => s.switched p b true
      | none => s
    let s2 := (s1.setPort p { s1.port p with
      started := true, entry := 0, cycleFrom := at' + 1, entryAt := s.ranQ - (s.tq - at') }).setF (Reg.GATE_STATE_ENTRY p) 0
    if (s.port p).nextBank.isSome ∨ (s.port p).started = false then s2.judgeHeads p else s2

/-- A gate entry's DURATION expires (R371): the next entry's mask takes force; the last entry holds. -/
def gateEntryEnd (s : State) (p : Nat) : State :=
  let r := s.port p
  let ends := r.entryAt + (s.gateEntry p r.bank r.entry).2
  if s.gated p ∧ r.entry + 1 < s.f (Reg.GATE_LEN_LEN p r.bank) ∧ ends ≤ s.ranQ then
    (s.setPort p { r with entry := r.entry + 1, entryAt := ends }).setF (Reg.GATE_STATE_ENTRY p) (r.entry + 1)
  else s

/-- The sum of the lengths of the frames in queue q, and the time since its head's admission in ns (R384). In Q7 the LATCH
and HOLD frames that are due stand ahead of the rest (R365). -/
def queueDepth (s : State) (p q : Nat) : Nat × Nat :=
  let l := (if q = 7 then (s.port p).due else []) ++ (s.port p).queues.getD q []
  (min (2 ^ 32 - 1) (l.map Frame.length).sum, min (2 ^ 32 - 1) (match l.head? with | some x => (s.tq - x.since) / 65536 | none => 0))

/-- Write the trace entries of port p that wait, oldest first, while its queue has room (R385, R502). -/
def traceDrain (s : State) (p : Nat) : State :=
  forN (s.port p).traceWait.length (fun _ t =>
    match (t.port p).traceWait with
    | [] => t
    | x :: rest =>
      if t.queueRoom .core x.1 16 then
        ((t.setPort p { t.port p with traceWait := rest }).putDdr x.1 x.2).request .core (64 + p) x.1 16 true
      else t) s

/-- The port samples its queues and may write trace entries (R384, R385). The first wrap of the ring since TRACE_EN was set
counts (log entry 131). -/
def queueSample (s : State) (p : Nat) : State :=
  let s1 := forN 8 (fun q t =>
    let (d, h) := s.queueDepth p q
    (((t.setF (Reg.QUEUE_SAMPLE_DEPTH p q) d).setF (Reg.QUEUE_SAMPLE_HEAD_DELAY p q) h).maxF
      (Reg.QUEUE_SAMPLE_MAX_DEPTH p q) d).maxF (Reg.QUEUE_SAMPLE_MAX_HEAD_DELAY p q) h) s
  if s.fb (Reg.PORT_SAMPLE_CFG_TRACE_EN p) then
    let size := 2 ^ s.f (Reg.PORT_TRACE_CFG_LOG2 p)
    let base := 256 * s.f (Reg.PORT_TRACE_BASE_BASE p)
    let w := s.f (Reg.PORT_TRACE_WPTR_WPTR p)
    let entry (q : Nat) : Nat × List Byte :=
      let (d, h) := s.queueDepth p q
      (base + 16 * ((w + q) % 2 ^ 32 % size),
        leBytes 8 (s.tq / 65536) ++ leBytes 4 (q * 2 ^ 29 + min d (2 ^ 29 - 1)) ++ leBytes 4 h)
    let s2 := s1.setPort p { s1.port p with traceWait := (s1.port p).traceWait ++ (List.range 8).map entry }
    let s3 := (s2.addF (Reg.PORT_TRACE_WPTR_WPTR p) 8).traceDrain p
    if (s.port p).traceWrapped = false ∧ (List.range 8).any fun q => decide (0 < w + q) && (w + q) % size == 0 then
      (s3.setPort p { s3.port p with traceWrapped := true }).portRaise p [Flag.PORT_STATUS_TRACE_WRAP]
    else s3
  else s1

/-- A write of PORT_SAMPLE_RESTART (R384). -/
def portSampleRestart : WriteEffect := fun _ x _ _ _ s =>
  forN 8 (fun q t => t.setReg (Reg.QUEUE_SAMPLE_MAX (portOf x) q) 0) s

/-- A write of PORT_SAMPLE_CFG (R384, R385). -/
def portSampleCfgWrite : WriteEffect := fun _ x new _ _ s =>
  let p := portOf x
  let per := bits new 19 0
  let lg := s.f (Reg.PORT_TRACE_CFG_LOG2 p)
  if per = 0 ∨ 1000000 < per ∨
      (bit new 31 ∧ (lg < 4 ∨ 20 < lg ∨ s.capacity < 256 * s.f (Reg.PORT_TRACE_BASE_BASE p) + 16 * 2 ^ lg)) then s.cfgRefused p
  else
    let s1 := s.setReg x.addr (BitVec.ofNat 64 new)
    if bit new 31 ∧ s.fb (Reg.PORT_SAMPLE_CFG_TRACE_EN p) = false then s1.setPort p { s1.port p with traceWrapped := false } else s1

/-- A write of FI_CFG (R386, R399): EN 1 restarts the count and the LFSR, or is refused with N 0. -/
def fiCfgWrite : WriteEffect := fun _ x new _ _ s =>
  let p := portOf x
  let d := x.idx.getD 1 0
  if bit new 31 then
    if s.f (Reg.FI_N_N p d) = 0 then s.cfgRefused p
    else
      let s1 := s.setReg x.addr (BitVec.ofNat 64 new)
      let r := s1.port p
      let seed := max 1 (s.f (Reg.FI_SEED_SEED p d))
      if d = 0 then s1.setPort p { r with fiTx := { r.fiTx with count := 0, lfsr := seed } }
      else s1.setPort p { r with fiRx := { r.fiRx with count := 0, lfsr := seed } }
  else s.setReg x.addr (BitVec.ofNat 64 new)

/-- A write of CRU_RESTART (R400). -/
def cruRestart : WriteEffect := fun _ _ _ _ _ s =>
  forN 128 (fun p t => t.setF (Reg.CRU_PORT_PEAK p) (t.f (Reg.CRU_PORT_HELD p)))
    (s.setF Reg.CRU_FREE_MIN_FREE (s.f Reg.CRU_FREE_FREE))

/-- A write of CRU_CFG: ALPHA 0 is refused (R388, R400). -/
def cruCfgWrite : WriteEffect := fun _ x new _ _ s =>
  if bits new 7 0 = 0 then s.cruRaise [Flag.CRUCIBLE_CFG_REFUSED] else s.setReg x.addr (BitVec.ofNat 64 new)

/-! ### Host rings (R383, R398) -/

/-- A write of a host ring's base: outside the fitted capacity it is refused (R383). -/
def ringBaseWrite : WriteEffect := fun _ x new _ _ s =>
  if s.capacity ≤ bits new 39 8 * 256 then s.cfgRefused (portOf x) else s.setReg x.addr (BitVec.ofNat 64 new)

/-- A write of a host ring's CFG: SLOTS outside 2–1,024 is refused; else both indices go to zero (R398). -/
def ringCfgWrite : WriteEffect := fun _ x new _ _ s =>
  let p := portOf x
  let n := bits new 10 0
  if n < 2 ∨ 1024 < n then s.cfgRefused p
  else
    let s1 := s.setReg x.addr (BitVec.ofNat 64 new)
    if x.row.eff == .hrxCfg then (s1.setReg (Reg.HRX_PROD p) 0).setReg (Reg.HRX_CONS p) 0
    else (s1.setReg (Reg.HTX_PROD p) 0).setReg (Reg.HTX_CONS p) 0

/-- The slot of a host ring that starts at base; in a slot that passes the fitted capacity identity 14 meets a bus error,
UNMAPPED (R37, R383). -/
def ringSlot (s : State) (base slots i : Nat) : Nat × State :=
  let a := 256 * base + 9472 * (i % max 1 slots)
  (a, if s.capacity < a + 9472 then s.busError ⟨14, .user⟩ a 1 else s)

/-- Place a frame, FCS excluded, in the host receive ring of port p (R383): kind 0 tunnel, 1 BTL STAT. Its Billets are freed. -/
def hostPlace (s : State) (p kind : Nat) (x : RxFrame) : State :=
  let slots := s.f (Reg.HRX_CFG_SLOTS p)
  let prod := s.f (Reg.HRX_PROD_INDEX p)
  let s0 := s.freeBillets p x.billets
  if s.fb (Reg.HRX_CFG_EN p) = false ∨ (prod + 2 ^ 32 - s.f (Reg.HRX_CONS_INDEX p)) % 2 ^ 32 = slots then
    (s0.satF (Reg.HRX_DROPS_COUNT p) 1).portRaise p [Flag.PORT_STATUS_HRX_DROP]
  else
    let (a, s1) := s0.ringSlot (s.f (Reg.HRX_BASE_BASE p)) slots prod
    let s2 := if s.capacity < a + 9472 then s1
      else ((s1.putDdr a (leBytes 2 x.bytes.length ++ [BitVec.ofNat 8 p, BitVec.ofNat 8 kind])).putDdr (a + 8)
        (leBytes 8 (x.tq / 65536) ++ x.bytes)).request .ingest 14 a (16 + x.bytes.length) true
    s2.addF (Reg.HRX_PROD_INDEX p) 1

/-- Place the frames for the host receive ring of port p that wait, oldest first, while no full queue stalls identity 14
(R502). -/
def hostDrain (s : State) (p : Nat) : State :=
  forN (s.port p).hostWait.length (fun _ t =>
    match (t.port p).hostWait with
    | [] => t
    | x :: rest => if t.sourceStalled 14 then t else (t.setPort p { t.port p with hostWait := rest }).hostPlace p x.1 x.2) s

/-- A frame for the host receive ring of port p, behind those that a full queue holds back. -/
def hostReceive (s : State) (p kind : Nat) (x : RxFrame) : State :=
  (s.setPort p { s.port p with hostWait := (s.port p).hostWait ++ [(kind, x)] }).hostDrain p

/-- Is a host transmit frame a BTL packet of an EGRESS port (R383)? -/
def hostIsBtl (s : State) (p : Nat) (frame : List Byte) : Bool :=
  let ty := s.f (Reg.BTL_CFG_ETHERTYPE p)
  s.role p == 1 && (beAt frame 12 2 == ty || (beAt frame 12 2 == 0x8100 && beAt frame 16 2 == ty))

/-! ### An FCLK (R368) -/

/-- The credit of queue q after one FCLK: it grows by RATE up to BURST, and stands still while EN is 0 (R368). -/
def creditTick (s : State) (p q : Nat) : Int :=
  let c := (s.port p).credit.getD q 0
  if s.fb (Reg.QUEUE_SHAPE_BURST_EN p q) then
    min (c + s.f (Reg.QUEUE_SHAPE_RATE_RATE p q)) (max c (24000000 * (s.f (Reg.QUEUE_SHAPE_BURST_BURST p q) : Int)))
  else c

/-- The shapers of a port gain one FCLK of credit. -/
def shaperTick (s : State) (p : Nat) : State :=
  s.setPort p { s.port p with credit := (List.range 8).map (s.creditTick p) }

/-- What QUEUE_CREDIT reads: whole bytes; 0 while the queue is not shaped. -/
def creditRead (s : State) (p q : Nat) : Nat :=
  if s.fb (Reg.QUEUE_SHAPE_BURST_EN p q) then unsgn 32 ((s.port p).credit.getD q 0 / 24000000) else 0

/-- What an FCLK does on a port beside its shapers: the Billets of rejected frames are freed, and frames and trace entries that a full
queue held back are written while it has room (R376, R502). -/
def portTick (s : State) (p : Nat) : State :=
  let r := s.port p
  if r.rxBad = 0 ∧ r.hostWait = [] ∧ r.traceWait = [] then s else ((s.freeBad p).hostDrain p).traceDrain p

end State
end Sys2Proof.Machine
end

