-- ==== Sys2Proof/Machine/Btl.lean ====
section
/-! DEFINITION. Blueri Tile Link at the part's end (R314–R358): CTRL transactions, echoes, tests, and the frames that
come back from tiles. -/

namespace Sys2Proof.Machine

/-- What a frame received on an EGRESS port is (R348). -/
inductive RxClass where
  | other | bad | own | cack | reply | stat | test
  deriving DecidableEq, Repr

namespace State

/-- Classify a received frame, its bytes from DA through FCS, by the first row of R348 that applies. -/
def classify (s : State) (p : Nat) (frame : List Byte) : RxClass :=
  let v := (byteAt frame 14).toNat
  let ty := v % 16
  let flags := (byteAt frame 15).toNat
  let reply := bit flags 6
  let len := leAt frame 18 2
  if beAt frame 12 2 ≠ s.f (Reg.BTL_CFG_ETHERTYPE p) then .other
  else if v / 16 ≠ 1 ∨ ty = 0 ∨ 9 < ty then .bad
  else if ty ≠ 7 ∧ ty ≠ 8 ∧ ((ty ≠ 4 ∧ ty ≠ 9) ∨ reply = false) then .own
  else
    let goodLen := match ty with | 7 => len == 0 | 8 => len == 32 | 4 => len == 32 | _ => decide (len ≤ 8192)
    let tile := leAt frame 16 2
    let pre := if ty = 4 then foldPrefix (byteAt frame 20).toNat 4 tile (byteAt frame 21).toNat (flags % 8)
      else foldPrefix 0xFF ty tile 0 0
    if goodLen = false ∨ frame.length < 38 + len ∨
        leAt frame (30 + len) 4 ≠ s.checkValue p (pre ++ (frame.drop 14).take (16 + len)) then .bad
    else match ty with | 7 => .cack | 8 => .stat | 4 => .reply | _ => .test

/-! ### CTRL (R322, R344, R345) -/

/-- The CTRL packet of a transaction. -/
def ctrlFrame (ch : Nat) (c : Ctrl) : Frame :=
  { kind := .ctrl ch,
    body := btlHeader 6 0 c.tile c.payload.length ([0, 0] ++ leBytes 4 c.seq ++ leBytes 4 c.addr) ++ c.payload,
    fold := foldPrefix 0xFF 6 c.tile 0 0 }

/-- The next SEQ of the port, with the channel in bit 31 (R344). -/
def nextCtrlSeq (s : State) (p ch : Nat) : Nat × State :=
  let r := s.port p
  (ch * 2 ^ 31 + r.ctrlSeq, s.setPort p { r with ctrlSeq := if r.ctrlSeq = 0x7FFFFFFF then 1 else r.ctrlSeq + 1 })

/-- Start a transaction on a channel. -/
def startCtrl (s : State) (p ch tile addr : Nat) (payload : List Byte) : State :=
  let (seq, s1) := s.nextCtrlSeq p ch
  let c : Ctrl := { tile := tile, seq := seq, addr := addr / 4 * 4, payload := payload, tries := 1 }
  let s2 := s1.setPort p { s1.port p with ctrl := (s1.port p).ctrl.set ch (some c) }
  s2.enqueue p 6 (ctrlFrame ch c)

/-- A write of BTL_CTRL_SEND (R345, R350). -/
def btlCtrlSendWrite : WriteEffect := fun _ x _ d _ s =>
  let p := portOf x
  let words := bits d 20 16
  let tile := bits d 15 0
  if ((s.port p).ctrl.getD 0 none).isSome ∨ words = 0 ∨ 16 < words ∨ tile = 0xFFFF ∨ s.role p ≠ 1 then
    s.btlRaise p [Flag.BTL_STATUS_CTRL_REFUSED]
  else
    let payload := (List.range words).flatMap fun w => leBytes 4 (s.f (Reg.BTL_CTRL_DATA_DATA p w))
    (((s.setF (Reg.BTL_CTRL_RESULT_STATE p) 1).setF (Reg.BTL_CTRL_RESULT_TRIES p) 1).setF (Reg.BTL_CTRL_RESULT_CODE p) 0).startCtrl
      p 0 tile (s.f (Reg.BTL_CTRL_ADDR_ADDR p)) payload

/-- Start the next delay write on channel 1 where it is free (R338, R344). -/
def nextDelay (s : State) (p : Nat) : State :=
  let r := s.port p
  match r.ctrl.getD 1 none, r.delays with
  | none, (tile, v) :: rest => (s.setPort p { r with delays := rest }).startCtrl p 1 tile 4 (leBytes 4 v)
  | _, _ => s

/-- End the transaction of a channel. -/
def endCtrl (s : State) (p ch : Nat) : State :=
  s.setPort p { s.port p with ctrl := (s.port p).ctrl.set ch none }

/-- A transaction ends as FAILED with CODE 0xFFFF (R345, R350). -/
def failCtrl (s : State) (p ch : Nat) : State :=
  let s1 := ((s.endCtrl p ch).satF (Reg.BTL_CTRL_STATS_FAILED p) 1).btlRaise p [Flag.BTL_STATUS_CTRL_FAILED]
  if ch = 0 then (s1.setF (Reg.BTL_CTRL_RESULT_STATE p) 3).setF (Reg.BTL_CTRL_RESULT_CODE p) 0xFFFF else s1

/-- TIMEOUT_US passes without a matching CACK (R345). -/
def ctrlTimeout (s : State) (p ch : Nat) : State :=
  match (s.port p).ctrl.getD ch none with
  | none => s
  | some c =>
    if c.tries ≤ s.f (Reg.BTL_CTRL_CFG_RETRIES p) then
      let c' := { c with tries := c.tries + 1 }
      let s1 := (s.setPort p { s.port p with ctrl := (s.port p).ctrl.set ch (some c') }).satF (Reg.BTL_CTRL_STATS_RETRIES p) 1
      let s2 := if ch = 0 then s1.setF (Reg.BTL_CTRL_RESULT_TRIES p) (min 15 c'.tries) else s1
      s2.enqueue p 6 (ctrlFrame ch c')
    else
      let s1 := s.failCtrl p ch
      if ch = 1 then s1.nextDelay p else s1

/-- A valid CACK (R345): it ends the transaction whose TILE_ADDR and SEQ it matches. -/
def cackReceived (s : State) (p : Nat) (frame : List Byte) : State :=
  if s.classify p frame = .cack then
    let s0 := s.takeRx p frame
    let tile := leAt frame 16 2
    let code := leAt frame 20 2
    let seq := leAt frame 22 4
    let hit (ch : Nat) : Bool := match (s.port p).ctrl.getD ch none with | some c => c.tile == tile && c.seq == seq | none => false
    if hit 0 then
      ((((s0.endCtrl p 0).setF (Reg.BTL_CTRL_RESULT_STATE p) 2).setF (Reg.BTL_CTRL_RESULT_CODE p) code)).btlRaise p
        [Flag.BTL_STATUS_CTRL_DONE]
    else if hit 1 then (s0.endCtrl p 1).nextDelay p
    else s0
  else s

/-! ### Echoes (R337, R338) -/

/-- The raster an echo request to a tile carries: that of the tile's first live entry on the port. The manual gives no
raster for a tile without one: an open value (log entry 12). -/
def echoRaster (s : State) (p tile : Nat) : Nat × State :=
  match s.liveEntries.find? fun e => e.tile == tile && e.ports.contains p with
  | some e => (e.raster, s)
  | none => let (v, s1) := s.takeFree; (v % 256, s1)

/-- Send one echo. -/
def startEcho (s : State) (p tile : Nat) : State :=
  let (m, s1) := s.echoRaster p tile
  let seq := (s1.port p).echoSeq
  let s2 := s1.setPort p { s1.port p with echo := some { tile := tile, seq := seq, t1 := none }, echoSeq := (seq + 1) % 2 ^ 32 }
  s2.enqueue p 7 { kind := .echo m tile seq, body := List.replicate 48 0, fold := List.replicate 8 0 }

/-- A write of BTL_ECHO_REQ (R337, R338, R350). -/
def btlEchoReqWrite : WriteEffect := fun _ x _ d _ s =>
  let p := portOf x
  if s.fb (Reg.BTL_ECHO_CFG_AUTO p) ∨ (s.port p).echo.isSome ∨ s.role p ≠ 1 then s.btlRaise p [Flag.BTL_STATUS_ECHO_REFUSED]
  else s.startEcho p (bits d 15 0)

/-- The next echo of an automatic round; a round ends with AUTO (R338). -/
def nextEcho (s : State) (p : Nat) : State :=
  if s.fb (Reg.BTL_ECHO_CFG_AUTO p) then
    match (s.port p).round with
    | [] => s
    | t :: rest => (s.setPort p { s.port p with round := rest }).startEcho p t
  else s.setPort p { s.port p with round := [] }

/-- The distinct members of a list, first occurrences kept. -/
def distinct (l : List Nat) : List Nat := l.foldl (fun acc x => if acc.contains x then acc else acc ++ [x]) []

/-- An automatic round starts (R338): the distinct tiles of the port's live entries, in ascending entry index. -/
def echoRoundStart (s : State) (p : Nat) : State :=
  if s.fb (Reg.BTL_ECHO_CFG_AUTO p) ∧ s.role p = 1 ∧ (s.port p).echo.isNone ∧ (s.port p).round = [] then
    let tiles := distinct ((s.liveEntries.filter fun e => e.ports.contains p).map MapEntry.tile)
    (s.setPort p { s.port p with round := tiles, roundFrames := 0 }).nextEcho p
  else s

/-- The one-way delay of R337 in units of 2^−16 ns, doubled. -/
def echoTwice (t1 t4 : Nat) (frame : List Byte) : Int :=
  (t4 : Int) - t1 - sgn 64 (leAt frame 30 8) - sgn 64 (leAt frame 46 8) - leAt frame 38 8

/-- A BEACON reply completes the outstanding echo (R337, R338). DELAY is D truncated to U24.8 (log entry 13); a D outside
U24.8 is an open value. -/
def echoReplyReceived (s : State) (p : Nat) (frame : List Byte) : State :=
  if s.classify p frame = .reply then
    let s0 := s.takeRx p frame
    match (s.port p).echo with
    | some e =>
      match e.t1 with
      | some t1 =>
        if leAt frame 22 4 = e.seq then
          let d := echoTwice t1 (s.rxTq p frame) frame / 512
          let (v, s1) := if 0 ≤ d ∧ d < 2 ^ 32 then (d.toNat, s0) else let (x, t) := s0.takeFree; (x % 2 ^ 32, t)
          let s2 := ((((s1.setF (Reg.BTL_ECHO_RESULT_VALID p) 1).setF (Reg.BTL_ECHO_RESULT_TIMEOUT p) 0).setF
            (Reg.BTL_ECHO_RESULT_TILE p) e.tile).setF (Reg.BTL_ECHO_RESULT_DELAY p) v).btlRaise p [Flag.BTL_STATUS_ECHO_DONE]
          let s3 := s2.setPort p { s2.port p with echo := none }
          let s4 := if s.fb (Reg.BTL_ECHO_CFG_AUTO p) then
              (s3.setPort p { s3.port p with delays := (s3.port p).delays ++ [(e.tile, v)] }).nextDelay p else s3
          s4.nextEcho p
        else s0
      | none => s0
    | none => s0
  else s

/-- No reply within 200 µs (R337, R350); a round continues with the next tile. -/
def echoTimeout (s : State) (p : Nat) : State :=
  match (s.port p).echo with
  | none => s
  | some e =>
    let s1 := (((s.setF (Reg.BTL_ECHO_RESULT_VALID p) 0).setF (Reg.BTL_ECHO_RESULT_TIMEOUT p) 1).setF
      (Reg.BTL_ECHO_RESULT_TILE p) e.tile).btlRaise p [Flag.BTL_STATUS_ECHO_TIMEOUT]
    (s1.setPort p { s1.port p with echo := none }).nextEcho p

/-! ### STAT, TEST and discarded frames (R347–R349) -/

/-- A valid STAT (R347). -/
def statReceived (s : State) (p : Nat) (frame : List Byte) : State :=
  if s.classify p frame = .stat then
    let (x, s0) := s.rxTakeOut p frame
    let delivered := leAt frame 30 4
    let fail := leAt frame 34 2
    let late := leAt frame 36 2
    let s1 := s0.setReg (Reg.BTL_DELIVERED p) (s0.reg (Reg.BTL_DELIVERED p) + BitVec.ofNat 64 delivered)
    let s2 := s1.setSlow Reg.PWR_DELIVERED (s1.slowReg Reg.PWR_DELIVERED + BitVec.ofNat 64 delivered)
    let s3 := ((s2.satF (Reg.BTL_TILE_EVENTS_LATE_LATCH p) late).satF (Reg.BTL_TILE_EVENTS_CHECK_FAIL p) fail).addF
      (Reg.BTL_RX_COUNTS_RX_STAT p) 1
    let s4 := if late ≠ 0 then s3.btlRaise p [Flag.BTL_STATUS_TILE_LATE_LATCH] else s3
    s4.hostReceive p 1 { x with bytes := frame.take (frame.length - 4) }
  else s

/-- The payload byte i of the n-th TEST packet (R324). -/
def testPayload (n len : Nat) : List Byte := (List.range len).map fun i => BitVec.ofNat 8 (i + n)

/-- A write of BTL_TEST (R349, R350). -/
def btlTestWrite : WriteEffect := fun _ x _ d _ s =>
  let p := portOf x
  let count := bits d 31 24
  let len := 64 * bits d 23 16
  let tile := bits d 15 0
  if count = 0 ∨ len = 0 ∨ 8192 < len ∨ (s.port p).test.isSome ∨ s.role p ≠ 1 then s.btlRaise p [Flag.BTL_STATUS_TEST_REFUSED]
  else
    let s1 := s.setReg (Reg.BTL_TEST_RESULT p) 1
    let s2 := s1.setPort p { s1.port p with test := some { tile := tile, count := count, len := len,
                                                            seqs := (List.range count).map (· + 1) } }
    forN count (fun i t => t.enqueue p 6
      { kind := .test (i + 1), fold := foldPrefix 0xFF 9 tile 0 0,
        body := btlHeader 9 0 tile len ([0, 0] ++ leBytes 4 (i + 1) ++ [0, 0, 0, 0]) ++ testPayload (i + 1) len }) s2

/-- A returned TEST packet (R349). -/
def testReplyReceived (s : State) (p : Nat) (frame : List Byte) : State :=
  if s.classify p frame = .test then
    let s0 := s.takeRx p frame
    match (s.port p).test with
    | some t =>
      let n := leAt frame 22 4
      if t.seqs.contains n ∧ leAt frame 16 2 = t.tile then
        let s1 := s0.satF (Reg.BTL_TEST_RESULT_RETURNED p) 1
        if (frame.drop 30).take (leAt frame 18 2) = testPayload n t.len then s1
        else s1.satF (Reg.BTL_TEST_RESULT_MISMATCH p) 1
      else s0
    | none => s0
  else s

/-- A test ends 1 ms after its last packet (R349). -/
def testEnd (s : State) (p : Nat) : State :=
  (s.setPort p { s.port p with test := none }).setF (Reg.BTL_TEST_RESULT_BUSY p) 0

/-- A frame that R348 discards is counted. -/
def btlRxDiscard (s : State) (p : Nat) (frame : List Byte) : State :=
  match s.classify p frame with
  | .other => (s.takeRx p frame).addF (Reg.BTL_RX_COUNTS_RX_OTHER p) 1
  | .bad => ((s.takeRx p frame).addF (Reg.BTL_RX_COUNTS_RX_BAD p) 1).btlRaise p [Flag.BTL_STATUS_RX_BAD]
  | .own => (s.takeRx p frame).addF (Reg.BTL_RX_COUNTS_RX_OWN p) 1
  | _ => s

/-- A port's role leaves EGRESS at a swap (R358): what is outstanding ends as FAILED. -/
def endBtl (s : State) (p : Nat) : State :=
  let s1 := if ((s.port p).ctrl.getD 0 none).isSome then s.failCtrl p 0 else s
  let s2 := if ((s1.port p).ctrl.getD 1 none).isSome then s1.failCtrl p 1 else s1
  let s3 := if (s2.port p).test.isSome then s2.testEnd p else s2
  s3.setPort p { s3.port p with echo := none, round := [], delays := [] }

end State
end Sys2Proof.Machine
end

