-- ==== Sys2Proof/Machine/Pixel.lean ====
section
/-! DEFINITION. Pixel formats (R172–R176): a pixel's bytes, its channel codes and its alpha. -/

namespace Sys2Proof.Machine

/-- A surface in DDR4 (R170, R171). -/
structure Surf where
  base : Nat
  stride : Nat
  width : Nat
  height : Nat
  fmt : Nat
  deriving DecidableEq, Repr

/-- A pixel: three codes of 16 bits, or three U4.20 values for format 0x0A, and alpha U1.15. -/
structure Px where
  c0 : Nat
  c1 : Nat
  c2 : Nat
  a : Nat
  deriving DecidableEq, Repr

/-- Bytes per pixel of a format; 0 for a code that R172 does not list. -/
def bppOf (fmt : Nat) : Nat :=
  if fmt = 1 ∨ fmt = 2 ∨ fmt = 3 then 2
  else if fmt = 4 ∨ fmt = 5 then 3
  else if fmt = 6 ∨ fmt = 7 ∨ fmt = 8 then 4
  else if fmt = 9 ∨ fmt = 10 then 8
  else 0

/-- Formats without alpha (R172). -/
def noAlpha (fmt : Nat) : Bool := fmt == 1 || fmt == 4 || fmt == 5

namespace Surf

/-- ROW_BYTES (R171). -/
def rowBytes (x : Surf) : Nat := ceilDiv (x.width * bppOf x.fmt) 64 * 64

/-- The end of the surface's extent. -/
def limit (x : Surf) : Nat := x.base + x.stride * (x.height - 1) + x.rowBytes

/-- The addresses of the 256-byte spans of row j, rising (R187). -/
def spans (x : Surf) (j : Nat) : List Nat :=
  let a := x.base + x.stride * j
  (List.range (if x.rowBytes = 0 then 0 else (a % 256 + x.rowBytes + 255) / 256)).map fun i => a / 256 * 256 + 256 * i

/-- The address of pixel (i, j). -/
def at' (x : Surf) (i j : Nat) : Nat := x.base + x.stride * j + bppOf x.fmt * i

end Surf

/-- An n-bit value repeated from bit 15 downward (R174). -/
def expandBits (n v : Nat) : Nat :=
  let r := ceilDiv 16 n
  ((List.range r).map fun i => v * 2 ^ (n * i)).sum / 2 ^ (n * r - 16)

/-- An n-bit alpha as U1.15 (R174). -/
def alphaBits (n v : Nat) : Nat := (roundDiv ((v * 32768 : Nat) : Int) ((2 ^ n - 1 : Nat) : Int)).toNat

/-- A binary16 value times 2^k, rounded, clamped to 0..top (R175). -/
def halfTo (k top h : Nat) : Nat :=
  let e := bits h 14 10
  let m := bits h 9 0
  if e = 31 then (if m = 0 ∧ bit h 15 = false then top else 0)
  else if bit h 15 then 0
  else
    let q := if e = 0 then m else (1024 + m) * 2 ^ (e - 1)
    min top (roundShift ((q * 2 ^ k : Nat) : Int) 24).toNat

/-- Unpack a pixel word of any format but 0x08. -/
def unpackWord (fmt w : Nat) : Px :=
  let f (hi lo : Nat) : Nat := expandBits (hi + 1 - lo) (bits w hi lo)
  match fmt with
  | 1 => ⟨f 15 11, f 10 5, f 4 0, 0x8000⟩
  | 2 => ⟨f 14 10, f 9 5, f 4 0, alphaBits 1 (bits w 15 15)⟩
  | 3 => ⟨f 11 8, f 7 4, f 3 0, alphaBits 4 (bits w 15 12)⟩
  | 4 => ⟨f 23 16, f 15 8, f 7 0, 0x8000⟩
  | 5 => ⟨f 7 0, f 15 8, f 23 16, 0x8000⟩
  | 6 => ⟨f 23 16, f 15 8, f 7 0, alphaBits 8 (bits w 31 24)⟩
  | 7 => ⟨f 29 20, f 19 10, f 9 0, alphaBits 2 (bits w 31 30)⟩
  | 9 => ⟨f 47 32, f 31 16, f 15 0, alphaBits 16 (bits w 63 48)⟩
  | 10 => ⟨halfTo 20 0xFFFFFF (bits w 47 32), halfTo 20 0xFFFFFF (bits w 31 16), halfTo 20 0xFFFFFF (bits w 15 0),
           halfTo 15 0x8000 (bits w 63 48)⟩
  | _ => ⟨0, 0, 0, 0⟩

/-- Average of two 10-bit chroma values, rounded up (R176). -/
def chromaMean (a b : Nat) : Nat := (a + b + 1) / 2

/-- Pixel x of a row of the given width; word reads the row's pixel words, none where a word has not arrived. -/
def unpackPx (fmt width : Nat) (word : Nat → Option Nat) (x : Nat) : Option Px :=
  if fmt = 8 then
    let c (i : Nat) : Option Nat := (word i).map fun w => bits w 19 10
    let other : Option Nat :=
      if x = 0 then c 1
      else if width ≤ x + 1 then c (x - 1)
      else match c (x - 1), c (x + 1) with | some a, some b => some (chromaMean a b) | _, _ => none
    match word x, other with
    | some w, some o =>
      let own := bits w 19 10
      let (cb, cr) := if x % 2 = 0 then (own, o) else (o, own)
      some ⟨expandBits 10 (bits w 9 0), expandBits 10 cb, expandBits 10 cr, alphaBits 10 (bits w 29 20)⟩
    | _, _ => none
  else (word x).map (unpackWord fmt)

end Sys2Proof.Machine
end

