-- ==== Sys2Proof/Machine/Mesh.lean ====
section
/-! DEFINITION. Layer engines and the mesh resampler (R167–R225): the live surface, source coordinates, the filter, the
rows a line needs, solid cells. -/

namespace Sys2Proof.Machine

/-- The live mesh of an engine, with its partition in one image (R203, R204, R207, R212, R215). -/
structure MeshCfg where
  n : Nat
  ras : Nat         -- the raster for which the engine reads its vertices
  x0 : Nat
  y0 : Nat
  dw : Nat
  dh : Nat
  table : Bool
  g : Nat
  first : Nat       -- BASE + ORIGIN
  pitch : Nat
  u0 : Int
  v0 : Int
  stepU : Nat
  stepV : Nat
  edgeH : Nat
  edgeV : Nat
  t1 : Nat
  t2 : Nat
  t3 : Nat
  deriving DecidableEq, Repr

/-- A vertex (R206): VALID, HOLE, edge-blend weight in units of 2^−8, coordinates, and whether its read failed. -/
structure Vertex where
  valid : Bool
  hole : Bool
  e : Nat
  u : Int
  v : Int
  poison : Bool
  deriving DecidableEq, Repr

/-- Where an output pixel comes from (R204, R210, R216, R217). -/
structure Coord where
  cut : Bool := false
  u : Int := 0
  v : Int := 0
  w : Nat := 0x8000
  sx : Nat := 0
  sy : Nat := 0
  clamped : Bool := false
  deriving DecidableEq, Repr

/-- A sample as the engine delivers it to its cluster: linear colour U4.20, a, w and a_w. -/
structure Sample where
  c0 : Nat
  c1 : Nat
  c2 : Nat
  a : Nat
  w : Nat
  aw : Nat
  deriving DecidableEq, Repr

/-- What an engine gives for one output pixel. -/
inductive Got where
  | none            -- no sample: outside the destination rectangle, or cut (R230)
  | missing         -- a row has not arrived (R185)
  | some (x : Sample)
  deriving DecidableEq, Repr

namespace State

/-- The record of engine n. -/
def engine (s : State) (n : Nat) : Engine := Tab.get s.engines n {}

/-- Set the record of engine n. -/
def setEngine (s : State) (n : Nat) (e : Engine) : State := { s with engines := Tab.put s.engines n e }

/-- Does raster m still run under the image that a swap retires (R89, R90)? -/
def waitsForSwap (s : State) (m : Nat) : Bool :=
  match Tab.find s.swap m with
  | some (.land _) => true
  | some (.restart _) => true
  | _ => false

/-- The slot whose image governs raster m. -/
def imgOf (s : State) (m : Nat) : Nat := if s.waitsForSwap m then 1 - s.slot else s.slot

/-- Surface k of the ring of flow f (R428). -/
def ringSurf (s : State) (f k : Nat) : Surf :=
  { base := 256 * s.f (Reg.ING_RING_BASE_BASE f) + 256 * s.f (Reg.ING_RING_SPACING_SPACING f) * k,
    stride := 64 * s.f (Reg.ING_RING_STRIDE_STRIDE f), width := s.f (Reg.ING_FLOW_SIZE_WIDTH f),
    height := s.f (Reg.ING_FLOW_SIZE_HEIGHT f), fmt := s.f (Reg.ING_FLOW_FMT_TARGET f) }

/-- The surface that the live registers of engine n name with SRC 0 (R195). -/
def regSurf (s : State) (n : Nat) : Surf :=
  { base := 256 * s.lf (Reg.LE_SURF_BASE_BASE n), stride := 64 * s.lf (Reg.LE_SURF_STRIDE_STRIDE n),
    width := s.lf (Reg.LE_SURF_SIZE_WIDTH n), height := s.lf (Reg.LE_SURF_SIZE_HEIGHT n),
    fmt := s.lf (Reg.LE_SURF_FMT_FORMAT n) }

/-- The live surface of engine n (R168, R198): none while LE_LIVE_SURF.VALID reads 0. -/
def liveSurf (s : State) (n : Nat) : Option Surf :=
  if s.lfb (Reg.LE_CTRL_EN n) then
    (if s.lfb (Reg.LE_SOURCE_SRC n) then
       (match (s.engine n).held with
        | some h =>
          if h.flow = s.lf (Reg.LE_SOURCE_FLOW n) then some ⟨h.base, h.stride, h.width, h.height, h.fmt⟩ else none
        | none => none)
     else some (s.regSurf n))
  else none

/-- The live mesh of engine n for raster m, with its partition in the image of slot i. -/
def meshCfg (s : State) (i n m : Nat) : MeshCfg :=
  { n := n, ras := m, x0 := s.lf (Reg.MESH_DST_ORG_X0 n), y0 := s.lf (Reg.MESH_DST_ORG_Y0 n),
    dw := s.lf (Reg.MESH_DST_SIZE_DW n), dh := s.lf (Reg.MESH_DST_SIZE_DH n), table := s.lfb (Reg.MESH_CTRL_TABLE n),
    g := 2 ^ (2 + s.lf (Reg.MESH_CTRL_SPACING n)), first := s.img i 7 (8 * n) 4 + s.lf (Reg.MESH_GRID_ORIGIN n),
    pitch := s.lf (Reg.MESH_PITCH_PITCH n), u0 := sgn 27 (s.lf (Reg.MESH_FLAT_U0_U0 n)),
    v0 := sgn 27 (s.lf (Reg.MESH_FLAT_V0_V0 n)), stepU := s.lf (Reg.MESH_FLAT_STEP_U_STEP n),
    stepV := s.lf (Reg.MESH_FLAT_STEP_V_STEP n), edgeH := s.lf (Reg.MESH_CTRL_EDGE_H n),
    edgeV := s.lf (Reg.MESH_CTRL_EDGE_V n), t1 := s.lf (Reg.MESH_BANK_T_T1 n), t2 := s.lf (Reg.MESH_BANK_T_T2 n),
    t3 := s.lf (Reg.MESH_BANK_T_T3 n) }

/-- A read of vertex i of the Mesh Table: its word, and whether it is uncorrectable (R208, R209). -/
def vertexWord (s : State) (i : Nat) : Word × Bool :=
  (BitVec.ofNat 64 (s.rd (0xE000000000 + 8 * i) 8), s.poisoned (0xE000000000 + 8 * i) 8)

/-- Vertex i as engine n composes with it on raster m: what it has read for the sub-frame; one that it has still to read as the
Mesh Table holds it now (R208, log entry 22). An uncorrectable word is taken as VALID 0 (R209). -/
def vertex (s : State) (n m i : Nat) : Vertex :=
  let x := (Tab.find (s.engine n).grid (m * 2 ^ 40 + i)).getD (s.vertexWord i)
  let w := x.1.toNat
  let bad := x.2
  { valid := bit w 63 && !bad, hole := bit w 62 && !bad, e := if bits w 61 54 = 0xFF then 256 else bits w 61 54,
    u := sgn 27 (bits w 26 0), v := sgn 27 (bits w 53 27), poison := bad }

end State

namespace MeshCfg

/-- The index of grid vertex (c, r) (R207). -/
def index (x : MeshCfg) (c r : Nat) : Nat := x.first + r * x.pitch + c

/-- Is a canvas pixel inside the destination rectangle (R203)? -/
def inside (m : MeshCfg) (x y : Nat) : Bool :=
  decide (m.x0 ≤ x) && decide (x < m.x0 + m.dw) && decide (m.y0 ≤ y) && decide (y < m.y0 + m.dh)

/-- Is an axis of a flat mesh a copy axis (R205)? -/
def copyU (m : MeshCfg) : Bool := !m.table && m.stepU == 0x10000 && m.u0 % 512 == 0
def copyV (m : MeshCfg) : Bool := !m.table && m.stepV == 0x10000 && m.v0 % 512 == 0

/-- A flat coordinate on one axis: origin, step, distance; clamped to S17.9 (R204). -/
def flatAxis (o : Int) (step d : Nat) : Int × Bool :=
  let r := roundShift (o * 128 + (d * step : Nat)) 7
  let c := clampI r (-33554432) 33554431
  (c, r != c)

end MeshCfg

/-- Bilinear weighting of four corner values over a cell of side g at offsets ax, ay. -/
def bilinear (g ax ay : Nat) (a b c d : Int) : Int :=
  ((g - ax) * (g - ay) : Nat) * a + (ax * (g - ay) : Nat) * b + ((g - ax) * ay : Nat) * c + (ax * ay : Nat) * d

/-- The base column (or row) and phase of a coordinate (R211). -/
def phaseOf (u : Int) : Int × Nat :=
  let p := ((u % 512).toNat + 4) / 8
  if p = 64 then (u / 512 + 1, 0) else (u / 512, p)

/-- The column (or row) a tap reads: none where it contributes zero (R215). -/
def edgeIndex (mode len : Nat) (i : Int) : Option Nat :=
  if 0 ≤ i ∧ i < len then some i.toNat
  else match mode with
    | 1 => none
    | 2 => some (i % (max 1 len : Nat)).toNat
    | _ => some (if i < 0 then 0 else len - 1)

namespace State

/-- The four corners of cell (c, r): P00, P10, P01, P11. -/
def corners (s : State) (m : MeshCfg) (c r : Nat) : List Vertex :=
  let v (i j : Nat) : Vertex := s.vertex m.n m.ras (m.index i j)
  [v c r, v (c + 1) r, v c (r + 1), v (c + 1) (r + 1)]

/-- The corner at position k. -/
def corner (vs : List Vertex) (k : Nat) : Vertex := vs.getD k ⟨false, false, 0, 0, 0, false⟩

/-- The local scale of a cell on one axis, truncated to U4.6 (R212): a, b one pair of differences, c, d the other. -/
def cellScale (g : Nat) (a b c d : Int) : Nat := min 1023 ((a.natAbs + b.natAbs + c.natAbs + d.natAbs) / (16 * g))

/-- The source coordinate of canvas pixel (x, y) inside the destination rectangle. -/
def coordAt (s : State) (m : MeshCfg) (x y : Nat) : Coord :=
  let px := x - m.x0
  let py := y - m.y0
  if m.table then
    let vs := s.corners m (px / m.g) (py / m.g)
    let p := corner vs 0
    let q := corner vs 1
    let t := corner vs 2
    let z := corner vs 3
    if vs.any fun v => v.hole || !v.valid then { cut := true, w := 0 }
    else
      let ax := px % m.g
      let ay := py % m.g
      { u := roundDiv (bilinear m.g ax ay p.u q.u t.u z.u) (m.g * m.g : Nat),
        v := roundDiv (bilinear m.g ax ay p.v q.v t.v z.v) (m.g * m.g : Nat),
        w := (roundDiv (bilinear m.g ax ay p.e q.e t.e z.e * 128) (m.g * m.g : Nat)).toNat,
        sx := cellScale m.g (q.u - p.u) (z.u - t.u) (t.u - p.u) (z.u - q.u),
        sy := cellScale m.g (t.v - p.v) (z.v - q.v) (q.v - p.v) (z.v - t.v) }
  else
    let (u, cu) := MeshCfg.flatAxis m.u0 m.stepU px
    let (v, cv) := MeshCfg.flatAxis m.v0 m.stepV py
    { u := u, v := v, sx := min 1023 (m.stepU / 1024), sy := min 1023 (m.stepV / 1024), clamped := cu || cv }

/-- The bank for a local scale (R212). -/
def bankOf (m : MeshCfg) (x : Nat) : Nat := if x < m.t1 then 0 else if x < m.t2 then 1 else if x < m.t3 then 2 else 3

/-- Live coefficient k of bank b and phase p: 0–7 are H0–H7, 8–13 are V0–V5 (R213). -/
def coef (s : State) (n b p k : Nat) : Int :=
  sgn 14 (s.lf (if k % 2 = 0 then Reg.MESH_COEF_LO n b p (k / 2) else Reg.MESH_COEF_HI n b p (k / 2)))

/-- The horizontal taps: columns and weights. -/
def tapsH (s : State) (m : MeshCfg) (c : Coord) : List (Int × Int) :=
  let (i, p) := phaseOf c.u
  if m.copyU then [(i, 4096)] else (List.range 8).map fun (k : Nat) => (i - 3 + (k : Int), s.coef m.n (bankOf m c.sx) p k)

/-- The vertical taps: rows and weights. -/
def tapsV (s : State) (m : MeshCfg) (c : Coord) : List (Int × Int) :=
  let (j, p) := phaseOf c.v
  if m.copyV then [(j, 4096)] else (List.range 6).map fun (k : Nat) => (j - 2 + (k : Int), s.coef m.n (bankOf m c.sy) p (8 + k))

/-- The rows that a coordinate reads. -/
def rowsOf (s : State) (m : MeshCfg) (x : Surf) (c : Coord) : List Nat :=
  if c.cut then [] else (s.tapsV m c).filterMap fun t => edgeIndex m.edgeV x.height t.1

/-- Weighted sum of pixels, channel by channel; none where one is missing. An index of none contributes zero. -/
def weigh (ts : List (Int × Option Nat)) (px : Nat → Option (Int × Int × Int × Int)) : Option (Int × Int × Int × Int) :=
  ts.foldl (fun acc t =>
    match acc, t.2 with
    | some a, some i =>
      (px i).map fun p => (a.1 + t.1 * p.1, a.2.1 + t.1 * p.2.1, a.2.2.1 + t.1 * p.2.2.1, a.2.2.2 + t.1 * p.2.2.2)
    | some a, none => some a
    | none, _ => none) (some (0, 0, 0, 0))

/-- The filtered pixel (R214): src reads column i of row j. -/
def filtered (s : State) (m : MeshCfg) (x : Surf) (c : Coord) (src : Nat → Nat → Option Px) : Option Px :=
  let hs := (s.tapsH m c).map fun t => (t.2, edgeIndex m.edgeH x.width t.1)
  let vs := (s.tapsV m c).map fun t => (t.2, edgeIndex m.edgeV x.height t.1)
  let row (j : Nat) := weigh hs fun i =>
    (src i j).map fun p => ((p.c0 : Int), (p.c1 : Int), (p.c2 : Int), (p.a : Int))
  let top : Int := if x.fmt = 10 then 0xFFFFFF else 65535
  let out (t v : Int) : Nat := (clampI (roundShift v 24) 0 t).toNat
  (weigh vs row).map fun r => ⟨out top r.1, out top r.2.1, out top r.2.2.1, out 0x8000 r.2.2.2⟩

/-! ### Per-layer colour (R252–R256) -/

/-- A preset of R255: K in millionths, row by row. -/
def cscK (preset : Nat) : List Int :=
  if preset = 1 then [1000000, 0, 1574800, 1000000, -187324, -468124, 1000000, 1855600, 0]
  else [1000000, 0, 1474600, 1000000, -164553, -571353, 1000000, 1881400, 0]

/-- The scale of input c of a preset for a depth of 8 or 10 bits, as a fraction. -/
def cscScale (ten full : Bool) (c : Nat) : Int × Int :=
  if full then (1, 1)
  else if ten then (1023, if c = 0 then 876 else 896)
  else (255, if c = 0 then 219 else 224)

/-- A preset for a depth and a range (R255). -/
def cscPreset (p : Nat) (ten full : Bool) : List Int × List Int × List Int :=
  let y : Int := if full then 0 else if ten then 4100 else 4112
  let c : Int := if ten then 32800 else 32896
  ((List.range 9).map fun j =>
      let (a, b) := cscScale ten full (j % 3)
      roundDiv (16384 * (cscK p).getD j 0 * a) (1000000 * b), [y, c, c], [0, 0, 0])

/-- The matrix of engine n for a format: nine coefficients, three input and three output offsets (R254, R255). -/
def cscOf (s : State) (n fmt : Nat) : List Int × List Int × List Int :=
  let mode := s.lf (Reg.LE_COLOUR_CTRL_CSC n)
  let full := s.lfb (Reg.LE_COLOUR_CTRL_RANGE n)
  match mode with
  | 0 => ([16384, 0, 0, 0, 16384, 0, 0, 0, 16384], [0, 0, 0], [0, 0, 0])
  | 3 => ((List.range 9).map fun j => sgn 17 (s.lf (Reg.LE_CSC_COEF_COEF n j)),
          (List.range 3).map fun j => sgn 17 (s.lf (Reg.LE_CSC_IN_OFF_OFF n j)),
          (List.range 3).map fun j => sgn 17 (s.lf (Reg.LE_CSC_OUT_OFF_OFF n j)))
  | p => cscPreset p (fmt == 8) full

/-- Row r of the input matrix (R253). -/
def cscRow (m : List Int × List Int × List Int) (code : List Int) (r : Nat) : Nat :=
  let acc := ((List.range 3).map fun c => m.1.getD (3 * r + c) 0 * (code.getD c 0 - m.2.1.getD c 0)).sum
  (clampI (roundShift acc 14 + m.2.2.getD r 0) 0 65535).toNat

/-- Decode a code of channel c to linear (R256). -/
def decodeCode (s : State) (n c v : Nat) : Nat :=
  if s.lfb (Reg.LE_COLOUR_CTRL_DECODE n) then
    let q := v * 4095
    let i := q / 65535
    let e (k : Nat) : Int := s.lf (Reg.LE_DECODE_LUT_VALUE n c k)
    if i = 4095 then (e 4095).toNat else (e i + roundDiv ((e (i + 1) - e i) * (q % 65535 : Nat)) 65535).toNat
  else (roundDiv ((v * 2 ^ 20 : Nat) : Int) 65535).toNat

/-- The per-layer colour stages of a filtered pixel. -/
def layerColour (s : State) (n fmt : Nat) (p : Px) : Nat × Nat × Nat :=
  if fmt = 10 then (p.c0, p.c1, p.c2)
  else
    let m := s.cscOf n fmt
    let code : List Int := [p.c0, p.c1, p.c2]
    (s.decodeCode n 0 (cscRow m code 0), s.decodeCode n 1 (cscRow m code 1), s.decodeCode n 2 (cscRow m code 2))

/-! ### The line buffer (R177–R186) -/

/-- A byte of the line buffer of engine n for raster m; none where its burst has not arrived. -/
def bufByte (e : Engine) (m a : Nat) : Option Byte :=
  (Tab.find e.buf (m * 2 ^ 40 + a / 256 * 256)).map fun b => byteAt b (a % 256)

/-- The pixel word of k bytes at address a of the line buffer. -/
def bufWord (e : Engine) (m a k : Nat) : Option Nat :=
  match k with
  | 0 => some 0
  | j + 1 => match bufByte e m a, bufWord e m (a + 1) j with
    | some b, some w => some (b.toNat + 256 * w)
    | _, _ => none

/-- Pixel (i, j) of the surface as the line buffer holds it for raster m; rowOk tells which rows can be resident. -/
def bufPx (e : Engine) (m : Nat) (x : Surf) (rowOk : Nat → Bool) (i j : Nat) : Option Px :=
  if rowOk j then unpackPx x.fmt x.width (fun k => bufWord e m (x.at' k j) (bppOf x.fmt)) i else none

/-- What engine n delivers for canvas pixel (x, y) on raster m. -/
def sampleAt (s : State) (e : Engine) (m : Nat) (c : MeshCfg) (sf : Surf) (rowOk : Nat → Bool) (x y : Nat) : Got :=
  if c.inside x y then
    let p := s.coordAt c x y
    if p.cut then .none
    else match s.filtered c sf p (bufPx e m sf rowOk) with
      | none => .missing
      | some q =>
        let (r, g, b) := s.layerColour c.n sf.fmt q
        .some ⟨r, g, b, q.a, p.w, (roundShift ((q.a * p.w : Nat) : Int) 15).toNat⟩
  else .none

/-! ### Views and rows -/

/-- The canvas position of the first active pixel of raster m on cluster c (R226). -/
def viewOf (s : State) (c m : Nat) : Nat × Nat := (s.lf (Reg.BC_VIEW_CX c m), s.lf (Reg.BC_VIEW_CY c m))

/-- Does the destination rectangle of an engine meet a view of w × h pixels (R228)? -/
def meets (g : MeshCfg) (cx cy w h : Nat) : Bool :=
  decide (g.x0 < cx + w) && decide (cx < g.x0 + g.dw) && decide (g.y0 < cy + h) && decide (cy < g.y0 + g.dh)

/-- Does engine n serve raster m (R228)? -/
def serves (s : State) (n m : Nat) : Bool :=
  let i := s.imgOf m
  let c := s.rasterCluster i m
  s.enabled m && s.engCluster i n == c &&
    meets (s.meshCfg i n m) (s.viewOf c m).1 (s.viewOf c m).2 (s.liveTiming m).hActive (s.liveTiming m).vActive

/-- The rasters that engine n serves, rising. -/
def served (s : State) (n : Nat) : List Nat := if s.hasIngot then (List.range 16).filter (s.serves n) else []

/-- The source rows that active line v of raster m references through engine n, in order of first need. -/
def lineRows (s : State) (n m v : Nat) : List Nat :=
  match s.liveSurf n with
  | none => []
  | some x =>
    let i := s.imgOf m
    let g := s.meshCfg i n m
    let (cx, cy) := s.viewOf (s.rasterCluster i m) m
    let y := cy + v
    let xs := (List.range (s.liveTiming m).hActive).filter fun h => g.inside (cx + h) y
    -- on a flat mesh every pixel of a line reads the same rows
    let xs' := if g.table then xs else xs.take 1
    xs'.foldl (fun acc h => (s.rowsOf g x (s.coordAt g (cx + h) y)).foldl (fun a j => if a.contains j then a else a ++ [j]) acc) []

/-- BUF_ROWS (R178). -/
def bufRows (x : Surf) : Nat := 524288 / max 1 x.rowBytes

/-- Is row j resident: has every span of it that the engine fetches for raster m arrived (R181, R187)? -/
def rowArrived (e : Engine) (m j : Nat) : Bool :=
  e.need.all fun p => p.ras != m || p.row != j || (Tab.find e.buf (m * 2 ^ 40 + p.addr)).isSome

/-! ### Solid cells (R218) -/

/-- Is an axis with this edge mode solid for the coordinates lo..hi: its footprint runs from lo − below to hi + above? -/
def axisSolid (mode len : Nat) (lo hi : Int) (below above : Int) : Bool :=
  mode == 0 || mode == 2 || (decide (0 ≤ lo / 512 - below) && decide (hi / 512 + above < len))

/-- Is cell (c, r) solid? -/
def cellSolid (s : State) (m : MeshCfg) (x : Surf) (c r : Nat) : Bool :=
  let vs := s.corners m c r
  let lo (f : Vertex → Int) : Int := (vs.map f).foldl min (f (corner vs 0))
  let hi (f : Vertex → Int) : Int := (vs.map f).foldl max (f (corner vs 0))
  (vs.all fun v => v.valid && !v.hole && v.e == 256) &&
    axisSolid m.edgeH x.width (lo Vertex.u) (hi Vertex.u) 3 5 && axisSolid m.edgeV x.height (lo Vertex.v) (hi Vertex.v) 2 4

/-- Does an engine's layer pass the solid test over all 256 pixels of block (bx, by) (R240)? -/
def blockSolid (s : State) (m : MeshCfg) (x : Surf) (bx by' : Nat) : Bool :=
  m.inside (16 * bx) (16 * by') && m.inside (16 * bx + 15) (16 * by' + 15) &&
    if m.table then
      let c0 := (16 * bx - m.x0) / m.g
      let c1 := (16 * bx + 15 - m.x0) / m.g
      let r0 := (16 * by' - m.y0) / m.g
      let r1 := (16 * by' + 15 - m.y0) / m.g
      (List.range (c1 + 1 - c0)).all fun i => (List.range (r1 + 1 - r0)).all fun j => s.cellSolid m x (c0 + i) (r0 + j)
    else
      (List.range 16).all fun i =>
        (let u := (MeshCfg.flatAxis m.u0 m.stepU (16 * bx + i - m.x0)).1; axisSolid m.edgeH x.width u u 3 5) &&
        (let v := (MeshCfg.flatAxis m.v0 m.stepV (16 * by' + i - m.y0)).1; axisSolid m.edgeV x.height v v 2 4)

end State
end Sys2Proof.Machine
end

