-- ==== Sys2Proof/Machine/Cluster.lean ====
section
/-! DEFINITION. Blend clusters and their colour pipeline (R226–R280): the layer stack, coverage, and the link codes of a
line. -/

namespace Sys2Proof.Machine

/-- A slot of a cluster's stack that takes part in a frame (R229), with what its engine needs. -/
structure Layer where
  k : Nat
  n : Nat
  opaq : Bool
  mode : Nat
  asrc : Nat
  alpha : Nat
  keyCfg : Nat
  keyLow : Int
  keyGain : Nat
  mesh : MeshCfg
  surf : Surf
  deriving DecidableEq, Repr

/-- A colour in progress, per channel U4.20, and whether a clamp of R231 or R233 has acted. -/
structure Acc where
  r : Nat
  g : Nat
  b : Nat
  clamped : Bool
  deriving DecidableEq, Repr

/-- One composed pixel: link codes, clamps, poisoned lattice reads. -/
structure PixOut where
  r : Nat
  g : Nat
  b : Nat
  clamped : Bool
  clipped : Bool
  poison : List Nat   -- offsets of the lattice words whose reads failed
  deriving DecidableEq, Repr

/-- A U4.16 colour word as three U4.20 values (R231). -/
def wordColour (w : Nat) : Nat × Nat × Nat := (16 * bits w 59 40, 16 * bits w 39 20, 16 * bits w 19 0)

/-- Round n / 2^15. -/
def shr15 (n : Nat) : Nat := (n + 16384) / 32768

/-- Clamp to the top of U4.20. -/
def top420 (n : Nat) : Nat × Bool := if 0xFFFFFF < n then (0xFFFFFF, true) else (n, false)

/-- A and F of a sample under a slot (R232). -/
def alphaOf (x : Layer) (q : Sample) : Nat × Nat :=
  let full := x.opaq || noAlpha x.surf.fmt
  let p := if full then 0x8000 else q.a
  let aw := if full then q.w else q.aw
  match x.asrc with
  | 1 => (x.alpha, x.alpha)
  | 2 => (shr15 (p * x.alpha), x.alpha)
  | 3 => (q.w, q.w)
  | 4 => (aw, q.w)
  | 5 => (shr15 (aw * x.alpha), shr15 (q.w * x.alpha))
  | _ => (p, 0x8000)

/-- The key alpha of a colour (R235). -/
def keyAlpha (x : Layer) (r g b : Nat) : Nat :=
  let luma := if bit x.keyCfg 1 then 17216 * r + 44434 * g + 3886 * b else 13933 * r + 46871 * g + 4732 * b
  let ch := bits x.keyCfg 3 2
  let own : Int := if ch = 0 then r else if ch = 1 then g else b
  let others : Int := if ch = 0 then max g b else if ch = 1 then max r b else max r g
  let v : Int := if bit x.keyCfg 0 then own - others else roundShift (luma : Nat) 16
  let k := (clampI (roundShift ((v - x.keyLow) * x.keyGain) 21) 0 0x8000).toNat
  if bit x.keyCfg 4 then 0x8000 - k else k

/-- One channel of a blend (R233). -/
def blendCh (mode a f c d : Nat) : Nat × Bool :=
  match mode with
  | 1 => top420 (shr15 (c * f) + shr15 (d * (32768 - a)))
  | 2 => top420 (d + shr15 (c * a))
  | 3 =>
    let m := shr15 (c * a + 0x100000 * (32768 - a))
    top420 ((d * m + 0x80000) / 0x100000)
  | 4 => (c, false)
  | _ => (shr15 (c * a + d * (32768 - a)), false)

/-- Blend a sample of a slot over what lies beneath (R233). -/
def blend (x : Layer) (q : Sample) (d : Acc) : Acc :=
  let (a0, f) := alphaOf x q
  let a := if x.mode = 5 then shr15 (a0 * keyAlpha x q.c0 q.c1 q.c2) else a0
  let (r, cr) := blendCh x.mode a f q.c0 d.r
  let (g, cg) := blendCh x.mode a f q.c1 d.g
  let (b, cb) := blendCh x.mode a f q.c2 d.b
  ⟨r, g, b, d.clamped || cr || cg || cb⟩

/-- Apply the gain of a sub-frame (R231). -/
def gained (gain : Nat) (d : Acc) : Acc :=
  let f (x : Nat) := top420 ((x * gain + 2048) / 4096)
  let (r, cr) := f d.r
  let (g, cg) := f d.g
  let (b, cb) := f d.b
  ⟨r, g, b, d.clamped || cr || cg || cb⟩

/-- The ordered-dither threshold (R267). -/
def ditherThr (x y : Nat) : Nat :=
  ((List.range 3).map fun b => ((x ^^^ y) / 2 ^ b % 2) * 2 ^ (5 - 2 * b) + (y / 2 ^ b % 2) * 2 ^ (4 - 2 * b)).sum

/-- The link code of E (R267). -/
def linkCode (depth dither h v k ch e : Nat) : Nat :=
  let t := if dither = 0 then 2 ^ 19
    else
      let ox := if dither = 2 then 3 * k % 8 else 0
      let oy := if dither = 2 then 5 * k % 8 else 0
      (2 * ditherThr ((h + ox + 3 * ch) % 8) ((v + oy + 6 * ch) % 8) + 1) * 8192
  (e * (2 ^ depth - 1) + t) / 2 ^ 20

/-- The link depth of a DEPTH code (R267). -/
def depthBits (d : Nat) : Nat := match d with | 0 => 8 | 1 => 10 | 2 => 12 | _ => 16

namespace State

/-! ### Taking part (R229, R236, R237) -/

/-- The live plan words of cluster c for sub-frame i. -/
def livePlan (s : State) (c i : Nat) : Nat × Nat × Nat :=
  ((s.lreg (Reg.BC_PLAN c i)).toNat, (s.lreg (Reg.BC_PLAN_CTRL c i)).toNat, (s.lreg (Reg.BC_PLAN_OVR c i)).toNat)

/-- The slots of raster m's cluster that take part under a plan, bottom first. -/
def layersOf (s : State) (m : Nat) (plan : Nat × Nat × Nat) : List Layer :=
  let i := s.imgOf m
  let c := s.rasterCluster i m
  if bit plan.2.1 0 then []
  else (List.range 16).filterMap fun k =>
    let n := s.lf (Reg.BC_LAYER_ENGINE c k)
    if s.lfb (Reg.BC_LAYER_EN c k) && bit plan.1 k && s.engCluster i n == c then
      (s.liveSurf n).map fun x =>
        { k := k, n := n, opaq := s.lfb (Reg.BC_LAYER_OPAQUE c k), mode := s.lf (Reg.BC_LAYER_MODE c k),
          asrc := s.lf (Reg.BC_LAYER_ASRC c k), alpha := min 0x8000 (s.lf (Reg.BC_LAYER_ALPHA_K c k)),
          keyCfg := (s.lreg (Reg.BC_KEY_CFG c k)).toNat, keyLow := sgn 25 (s.lf (Reg.BC_KEY_LOW_LOW c k)),
          keyGain := s.lf (Reg.BC_KEY_GAIN_KGAIN c k), mesh := s.meshCfg i n m, surf := x : Layer }
    else none

/-- Does engine n take part in a frame of raster m under a plan? -/
def takesPart (s : State) (n m : Nat) (plan : Nat × Nat × Nat) : Bool := (s.layersOf m plan).any fun x => x.n == n

/-! ### Coverage (R239–R241) -/

/-- Can a slot cover (R239)? -/
def canCover (x : Layer) : Bool :=
  (x.mode == 4 || ((x.mode == 0 || x.mode == 1) && (x.opaq || noAlpha x.surf.fmt))) &&
    (!(x.asrc == 1 || x.asrc == 2 || x.asrc == 5) || x.alpha == 0x8000)

/-- Does a slot cover block (bx, by) (R240)? -/
def covers (s : State) (x : Layer) (bx b : Nat) : Bool := canCover x && s.blockSolid x.mesh x.surf bx b

/-- The highest slot that covers block (bx, by); none where no slot does. -/
def topCover (s : State) (ls : List Layer) (bx b : Nat) : Option Nat :=
  ((ls.filter fun x => s.covers x bx b).getLast?).map Layer.k

/-- Blocks of a block row of a view in which a slot that takes part is covered above (R242). -/
def coveredBlocks (s : State) (ls : List Layer) (cx w b : Nat) : Nat :=
  ((List.range ((cx + w - 1) / 16 + 1 - cx / 16)).filter fun i =>
    match s.topCover ls (cx / 16 + i) b with
    | some k => ls.any fun x => decide (x.k < k)
    | none => false).length

/-! ### The colour pipeline of a cluster (R259–R267) -/

/-- The gamut matrix of set p of cluster c (R260). -/
def gamut (s : State) (c p : Nat) (d : Acc) : Acc :=
  let row (r : Nat) : Nat × Bool :=
    let m (j : Nat) : Int := sgn 19 (s.lf (Reg.BC_CP_MATRIX_COEF c p (3 * r + j)))
    let y := roundShift (m 0 * d.r + m 1 * d.g + m 2 * d.b) 16
    let z := clampI y 0 0xFFFFFF
    (z.toNat, z != y)
  let (r, cr) := row 0
  let (g, cg) := row 1
  let (b, cb) := row 2
  ⟨r, g, b, cr || cg || cb⟩

/-- The offset in the cluster store of a lattice point of the 3D LUT of set p of cluster c (R261). -/
def latticeAt (c p : Nat) (i : Nat × Nat × Nat) : Nat := 0x400000 + 0x80000 * (2 * c + p) + 8 * ((i.2.2 * 33 + i.2.1) * 33 + i.1)

/-- A lattice position one step further on an axis: 0 R, 1 G, 2 B. -/
def latStep (i : Nat × Nat × Nat) (axis : Nat) : Nat × Nat × Nat :=
  match axis with | 0 => (i.1 + 1, i.2.1, i.2.2) | 1 => (i.1, i.2.1 + 1, i.2.2) | _ => (i.1, i.2.1, i.2.2 + 1)

/-- The index and fraction of one input of the 3D LUT (R262). -/
def latIndex (shift y : Nat) : Nat × Nat :=
  let q := min 0x100000 (y / 2 ^ shift) * 32
  if q / 2 ^ 20 = 32 then (31, 2 ^ 20) else (q / 2 ^ 20, q % 2 ^ 20)

/-- Axes ordered by fraction, largest first; equal fractions keep the order R, G, B (R262). -/
def axesBy (fr fg fb : Nat) : List (Nat × Nat) :=
  let ins (x : Nat × Nat) (l : List (Nat × Nat)) : List (Nat × Nat) :=
    (l.takeWhile fun y => decide (x.1 ≤ y.1)) ++ x :: (l.dropWhile fun y => decide (x.1 ≤ y.1))
  ins (fb, 2) (ins (fg, 1) [(fr, 0)])

/-- The 3D LUT (R262, R263): the colour, and the offsets of the lattice words whose reads fail. -/
def lut3d (s : State) (c p : Nat) (d : Acc) : Acc × List Nat :=
  if s.lfb (Reg.BC_CP_CTRL_LUT3D_EN c p) then
    let sh := s.lf (Reg.BC_CP_CTRL_RSHIFT c p)
    let (ir, fr) := latIndex sh d.r
    let (ig, fg) := latIndex sh d.g
    let (ib, fb) := latIndex sh d.b
    let ax := axesBy fr fg fb
    let a (i : Nat) : Nat × Nat := ax.getD i (0, 0)
    let q0 := (ir, ig, ib)
    let q1 := latStep q0 (a 0).2
    let q2 := latStep q1 (a 1).2
    let ps := [q0, q1, q2, (ir + 1, ig + 1, ib + 1)].map (latticeAt c p)
    let bad := ps.filter fun o => s.poisoned (0xE800000000 + o) 8
    if bad.isEmpty then
      let ws := [2 ^ 20 - (a 0).1, (a 0).1 - (a 1).1, (a 1).1 - (a 2).1, (a 2).1]
      let f (hi lo : Nat) : Nat := (((List.range 4).map fun i => bits (s.rd (0xE800000000 + ps.getD i 0) 8) hi lo * ws.getD i 0).sum + 32768) / 65536
      ({ d with r := f 59 40, g := f 39 20, b := f 19 0 }, [])
    else (d, bad)
  else (d, [])

/-- Encode one channel (R264, R265): E and whether LINEAR clamped. -/
def encode (s : State) (c p ch x : Nat) : Nat × Bool :=
  if s.lfb (Reg.BC_CP_CTRL_ENC_MODE c p) then
    let e := (x * s.lf (Reg.BC_CP_LIN_GAIN_GAIN c p) + 32768) / 65536
    (min e 0x100000, decide (0x100000 < e))
  else
    let e := Nat.log2 x
    let (k, i) := if x < 512 then (1, x / 2) else (e - 8, 256 * (e - 8) + (x - 2 ^ e) / 2 ^ (e - 8))
    let v (j : Nat) : Int := (min 0x100000 (s.lf (Reg.BC_ENC_LUT_VALUE c p ch j)) : Nat)
    if i = 4095 then ((v 4095).toNat, false)
    else ((v i + roundShift ((v (i + 1) - v i) * (x % 2 ^ k : Nat)) k).toNat, false)

/-- The colour pipeline of a pixel (h, v) of raster frame k (R259). -/
def pipeline (s : State) (c p h v k : Nat) (d : Acc) : PixOut :=
  let y := s.gamut c p d
  let (z, bad) := s.lut3d c p y
  let (er, cr) := s.encode c p 0 z.r
  let (eg, cg) := s.encode c p 1 z.g
  let (eb, cb) := s.encode c p 2 z.b
  let dep := depthBits (s.lf (Reg.BC_OUT_CFG_DEPTH c))
  let dit := s.lf (Reg.BC_OUT_CFG_DITHER c)
  ⟨linkCode dep dit h v k 0 er, linkCode dep dit h v k 1 eg, linkCode dep dit h v k 2 eb, d.clamped,
    y.clamped || cr || cg || cb, bad⟩

/-! ### Composing -/

/-- Does slot k lie beneath the slot that covers a block? -/
def beneath (cover : Option Nat) (k : Nat) : Bool := match cover with | some j => decide (k < j) | none => false

/-- The stack at one pixel: none where a sample that is needed is missing. A slot beneath the highest covering slot is not
needed (R242); where its engine delivers a sample all the same, it is blended as any other, and its clamps count (R234). -/
def stack (s : State) (es : List (Layer × Engine × (Nat → Bool))) (m : Nat) (cover : Option Nat) (x y : Nat) (bg : Acc) :
    Except (Nat) Acc :=
  es.foldl (fun acc t =>
    match acc with
    | .error n => .error n
    | .ok d =>
      match s.sampleAt t.2.1 m t.1.mesh t.1.surf t.2.2 x y with
        | .none => .ok d
        | .missing => if beneath cover t.1.k then .ok d else .error t.1.n
        | .some q => .ok (blend t.1 q d)) (.ok bg)

/-- The engines whose sample is missing at one pixel. -/
def missingAt (s : State) (es : List (Layer × Engine × (Nat → Bool))) (m : Nat) (cover : Option Nat) (x y : Nat) : List Nat :=
  (es.filter fun t =>
    !beneath cover t.1.k &&
      (match s.sampleAt t.2.1 m t.1.mesh t.1.surf t.2.2 x y with | .missing => true | _ => false)).map fun t => t.1.n

/-- A composed line: its pixels, and the first pixel at which a sample was missing with the engines that lacked it. -/
structure Line where
  px : List PixOut
  under : Option (Nat × List Nat)

/-- Compose active line v of the frame in progress on raster m (R231). -/
def lineOf (s : State) (m v : Nat) : Line :=
  let r := s.raster m
  let i := s.imgOf m
  let c := s.rasterCluster i m
  let (cx, cy) := s.viewOf c m
  let y := cy + v
  let w := r.tim.hActive
  let ls := s.layersOf m r.plan
  let (br, bgr, bb) := wordColour (s.lreg (Reg.BC_BG c)).toNat
  let (ovr, ovg, ovb) := wordColour r.plan.2.2
  let bg : Acc := ⟨br, bgr, bb, false⟩
  let base : Acc := if bit r.plan.2.1 0 then ⟨ovr, ovg, ovb, false⟩ else bg
  let gain := bits r.plan.1 31 16
  let pipe := bits r.plan.2.1 1 1
  let es := ls.map fun x =>
    let rows := if x.mesh.table then s.lineRows x.n m v else []
    let okRows := rows.take (bufRows x.surf)
    (x, s.engine x.n, fun j => !x.mesh.table || okRows.contains j)
  let covs := (List.range ((cx + w - 1) / 16 + 1 - cx / 16)).map fun b => s.topCover ls (cx / 16 + b) (y / 16)
  let done := (List.range w).foldl (fun (acc : List PixOut × Option (Nat × List Nat)) h =>
    let cov := covs.getD ((cx + h) / 16 - cx / 16) none
    let (d, u) := match acc.2 with
      | some u => (bg, some u)
      | none => match s.stack es m cov (cx + h) y base with
        | .ok d => (d, none)
        | .error _ => (bg, some (h, s.missingAt es m cov (cx + h) y))
    (s.pipeline c pipe h v r.frame (gained gain d) :: acc.1, u)) ([], none)
  ⟨done.1.reverse, done.2⟩

end State
end Sys2Proof.Machine
end

