-- ==== Sys2Proof/Machine/Check.lean ====
section
/-! DEFINITION. Check-value units (R482–R498): the CRCs, the raster signature units and the memory check units. -/

namespace Sys2Proof.Machine

/-- One byte of a CRC of w bits that is not reflected. -/
def crcMsbByte (w poly c : Nat) (b : Byte) : Nat :=
  (List.range 8).foldl (fun c _ => if bit c (w - 1) then (2 * c % 2 ^ w) ^^^ poly else 2 * c % 2 ^ w)
    (c ^^^ b.toNat * 2 ^ (w - 8))

/-- The width of the CRC that POLY selects (R482). -/
def polyWidth (p : Nat) : Nat := match p with | 0 => 16 | 3 => 64 | _ => 32

/-- The CRC register before the first byte. -/
def crcStart (p : Nat) : Nat := match p with | 0 => 0xFFFF | 3 => 0 | _ => 0xFFFFFFFF

/-- Take bytes into the CRC register. -/
def crcTake (p c : Nat) (bs : List Byte) : Nat :=
  match p with
  | 0 => bs.foldl (crcMsbByte 16 0x1021) c
  | 1 => bs.foldl (crcByte 0xEDB88320) c
  | 2 => bs.foldl (crcByte 0x82F63B78) c
  | _ => bs.foldl (crcMsbByte 64 0x42F0E1EBA9EA3693) c

/-- The result of a CRC register. -/
def crcEnd (p c : Nat) : Nat := match p with | 1 | 2 => c ^^^ 0xFFFFFFFF | _ => c

/-- The CRC of bytes under POLY. -/
def crcOf (p : Nat) (bs : List Byte) : Nat := crcEnd p (crcTake p (crcStart p) bs)

namespace State

/-- The record of signature unit u. -/
def sig (s : State) (u : Nat) : SigUnit := Tab.get s.sigs u {}

/-- Set the record of signature unit u. -/
def setSig (s : State) (u : Nat) (x : SigUnit) : State := { s with sigs := Tab.put s.sigs u x }

/-- Set flags of the CHECK status. -/
def checkRaise (s : State) (flags : List Nat) : State := s.raiseAll Reg.CHECK_BLOCK_STATUS flags

end State

namespace SigUnit

/-- Fields of the settings in force (R495). -/
def mode (x : SigUnit) : Nat := bits x.cfg 1 0
def poly (x : SigUnit) : Nat := bits x.cfg 3 2
def expSrc (x : SigUnit) : Bool := bit x.cfg 4
def sense (x : SigUnit) : Bool := bit x.cfg 5
def once (x : SigUnit) : Bool := bit x.cfg 6
def window (x : SigUnit) : Bool := bit x.cfg 7
def src (x : SigUnit) : Nat := bits x.cfg 12 8
def sfMask (x : SigUnit) : Nat := bits x.cfg 23 16
def alarmRun (x : SigUnit) : Nat := max 1 (bits x.cfg 31 24)
def wx (x : SigUnit) : Nat := bits x.org 15 0
def wy (x : SigUnit) : Nat := bits x.org 31 16
def ww (x : SigUnit) : Nat := max 1 (bits x.size 15 0)
def wh (x : SigUnit) : Nat := max 1 (bits x.size 31 16)

end SigUnit

namespace State

/-- The settings that the registers of unit u hold come into force (R486, R488). A frame in progress of another raster than m
keeps the old ones. -/
def sigApply (s : State) (u m : Nat) : State :=
  let x := s.sig u
  let y : SigUnit := { x with cfg := (s.reg (Reg.SIG_CFG u)).toNat, org := (s.reg (Reg.SIG_WIN_ORG u)).toNat,
                              size := (s.reg (Reg.SIG_WIN_SIZE u)).toNat }
  let fresh := y.src != x.src || y.poly != x.poly || y.window != x.window || y.org != x.org || y.size != x.size ||
    (y.mode == 3 && x.mode != 3)
  let keeps := x.folding && x.src != m
  s.setSig u { y with prev := if fresh then none else y.prev, folding := false,
                      tails := if keeps then ⟨x.cfg, x.org, x.size, x.crc, x.prev⟩ :: y.tails else y.tails }

/-- A frame of raster m begins for signature unit u (R485, R486): the settings written come into force where m is the old
SRC or the new one. A frame that the unit does not check counts in SKIPPED, one in MODE OFF included (R485, R488). -/
def sigStart (s : State) (m k : Nat) (sent : Bool) (u : Nat) : State :=
  let s0 := s.setSig u { s.sig u with tails := (s.sig u).tails.filter fun y => bits y.cfg 12 8 != m }
  let s1 := if (s0.sig u).src = m ∨ s.f (Reg.SIG_CFG_SRC u) = m then s0.sigApply u m else s0
  let x := s1.sig u
  let t := s.liveTiming m
  if x.src ≠ m then s1
  else if x.mode = 0 ∨ bit x.sfMask (k % max 1 t.sub) = false ∨ sent = false then s1.satF (Reg.SIG_COUNTS_SKIPPED u) 1
  else if x.window = true ∧ (t.hActive < x.wx + x.ww ∨ t.vActive < x.wy + x.wh) then
    (s1.satF (Reg.SIG_COUNTS_SKIPPED u) 1).checkRaise [Flag.CHECK_WINDOW_OUT]
  else
    let depth := s.lf (Reg.BC_OUT_CFG_DEPTH (s.rasterCluster (s.imgOf m) m))
    s1.setSig u { x with folding := true,
                         crc := crcTake x.poly (crcStart x.poly) [BitVec.ofNat 8 m, BitVec.ofNat 8 depth, 0, 0] }

/-- A frame of raster m begins for every signature unit. -/
def sigFrameStart (s : State) (m k : Nat) (sent : Bool) : State := forN 16 (fun u t => t.sigStart m k sent u) s

/-- The old raster's frame of a unit, as the unit folds it. -/
def tailUnit (x : SigUnit) (y : SigTail) : SigUnit :=
  { x with cfg := y.cfg, org := y.org, size := y.size, crc := y.crc, prev := y.prev, folding := true }

/-- The frames of raster m are abandoned (R297, R485). -/
def sigAbandon (s : State) (m : Nat) : State :=
  forN 16 (fun u t =>
    let x := t.sig u
    let old := x.tails.filter fun y => bits y.cfg 12 8 == m
    let own := x.src == m && x.folding
    if own || !old.isEmpty then
      (t.setSig u { x with folding := x.folding && !own, tails := x.tails.filter fun y => bits y.cfg 12 8 != m }).satF
        (Reg.SIG_COUNTS_SKIPPED u) ((if own then 1 else 0) + old.length)
    else t) s

/-- The CRC of a unit's frame after a line of raster m, where the line lies in its window (R484). -/
def sigTake (x : SigUnit) (m v : Nat) (px : List PixOut) : Nat :=
  if x.folding ∧ x.src = m ∧ (x.window = false ∨ (x.wy ≤ v ∧ v < x.wy + x.wh)) then
    let run := if x.window then (px.drop x.wx).take x.ww else px
    crcTake x.poly x.crc (run.flatMap fun p => leBytes 2 p.r ++ leBytes 2 p.g ++ leBytes 2 p.b)
  else x.crc

/-- A composed line enters the signatures of its raster (R484). -/
def sigLine (s : State) (m v : Nat) (px : List PixOut) : State :=
  forN 16 (fun u t =>
    let x := t.sig u
    t.setSig u { x with crc := sigTake x m v px,
                        tails := x.tails.map fun y => { y with crc := sigTake (tailUnit x y) m v px } }) s

/-- A comparison of a frame of unit u under the settings of x (R488). -/
def sigCompare (s : State) (u : Nat) (x : SigUnit) (got want : Nat) : State :=
  if (got == want) == x.sense then
    let run := (s.sig u).run + 1
    let s1 := s.setSig u { s.sig u with run := run }
    if x.alarmRun ≤ run then
      (((((s1.setF (Reg.SIG_FAIL_GOT_VALUE u) got).setF (Reg.SIG_FAIL_EXP_VALUE u) want).setF (Reg.SIG_FAIL_INFO_VALID u) 1).setF
        (Reg.SIG_FAIL_INFO_FRAME u) (s.f (Reg.SIG_RESULT_FRAME_FRAME u))).satF (Reg.SIG_COUNTS_ALARMS u) 1).checkRaise
        [Flag.CHECK_SIG_ALARM]
    else s1
  else s.setSig u { s.sig u with run := 0 }

/-- SIG_EXPECT and VALID of unit u as they stood at the start of this FCLK (R490). -/
def sigWant (s : State) (u : Nat) : Nat × Bool :=
  match (s.sig u).before with
  | some (f, v, valid) => if f = s.fclk then (v, valid) else (s.f (Reg.SIG_EXPECT_VALUE u), s.fb (Reg.SIG_EXP_STATE_VALID u))
  | none => (s.f (Reg.SIG_EXPECT_VALUE u), s.fb (Reg.SIG_EXP_STATE_VALID u))

/-- Has a load of unit u come in this FCLK? -/
def sigLoaded (s : State) (u : Nat) : Bool := (s.sig u).before.any fun x => x.1 == s.fclk

/-- Has the raster of unit u reached RP(k, V_ACTIVE, 0) in the frame that the unit folds (R486)? -/
def atResult (s : State) (x : SigUnit) : Bool :=
  let r := s.raster x.src
  x.folding && decide (r.tim.vActive * r.tim.hTotal ≤ r.pos)

/-- The result of the frame that unit u folds as x has it (R486–R488); old: it is that of an old raster. A load in this FCLK
governs later ones, and VALID stays (R490). -/
def sigResult (s : State) (u : Nat) (x : SigUnit) (old : Option SigTail) : State :=
  let got := crcEnd x.poly x.crc
  let k := (s.raster x.src).frame
  let s1 := (((s.setF (Reg.SIG_RESULT_VALUE u) got).setF (Reg.SIG_RESULT_FRAME_VALID u) 1).setF
    (Reg.SIG_RESULT_FRAME_FRAME u) k).addF (Reg.SIG_COUNTS_CHECKED u) 1
  let s2 := s1.setSig u (match old with
    | some y => { s.sig u with tails := (s.sig u).tails.erase y }
    | none => { s.sig u with folding := false, prev := some got })
  match x.mode with
  | 2 => if old.isSome then s2 else (s2.setF (Reg.SIG_CFG_MODE u) 0).setSig u { s2.sig u with cfg := putBits x.cfg 1 0 0 }
  | 3 =>
    if x.expSrc then
      match x.prev with
      | some p => s2.sigCompare u x got p
      | none => s2.satF (Reg.SIG_COUNTS_SKIPPED u) 1
    else if (s.sigWant u).2 then
      let s3 := s2.sigCompare u x got ((s.sigWant u).1 % 2 ^ polyWidth x.poly)
      if x.once ∧ s.sigLoaded u = false then s3.setF (Reg.SIG_EXP_STATE_VALID u) 0 else s3
    else s2.satF (Reg.SIG_COUNTS_SKIPPED u) 1
  | _ => s2

/-- The result point of unit u: of the old raster's frame, where the unit still folds one that has reached it, else of its
own (R486). -/
def resultPoint (s : State) (u : Nat) : State :=
  let x := s.sig u
  match x.tails.find? fun y => s.atResult (tailUnit x y) with
  | some y => s.sigResult u (tailUnit x y) (some y)
  | none => if s.atResult x then s.sigResult u x none else s

/-- Load the expected value of signature unit u; what stood at the start of this FCLK is kept (R490). -/
def sigExpect (s : State) (u v : Nat) : State :=
  let w := s.sigWant u
  ((s.setSig u { s.sig u with before := some (s.fclk, w.1, w.2) }).setF (Reg.SIG_EXPECT_VALUE u) v).setF (Reg.SIG_EXP_STATE_VALID u) 1

/-- A write of SIG_EXPECT. -/
def sigExpectWrite : WriteEffect := fun _ x new _ _ s => s.sigExpect (x.idx.headD 0) new

/-! ### Memory check units (R491–R493) -/

/-- Start a run of unit m (R492). -/
def mcuStart (s : State) (m : Nat) : State :=
  let a := 64 * s.f (Reg.MCU_START_ADDR m)
  let n := 64 * s.f (Reg.MCU_LEN_LEN m)
  if s.f (Reg.MCU_STATE_STATE m) = 1 ∨ n = 0 ∨ s.capacity < a + n then s.checkRaise [Flag.CHECK_CFG_REFUSED]
  else
    let p := s.f (Reg.MCU_CFG_POLY m)
    { (s.setF (Reg.MCU_STATE_STATE m) 1) with
      mcus := Tab.put s.mcus m { start := a, len := n, poly := p, crc := crcTake p (crcStart p) (leBytes 8 a) } }

/-- Unit m reads a burst, up to the next multiple of 256 bytes, through the blit queues as source 24 + m (R491, R492, R502):
what memory holds enters the CRC; a poisoned one ends the reading (R493). -/
def mcuBurst (s : State) (m : Nat) (r : McuRun) : State :=
  let a := r.start + r.done
  let n := min (256 - a % 256) (r.len - r.done)
  let bad := s.poisoned a n
  let x : McuRun := { r with
    done := r.done + n, crc := if bad then r.crc else crcTake r.poly r.crc (s.bytes a n), wait := 3 + s.f (Reg.MCU_CFG_PACE m),
    spoiled := bad }
  { s with mcus := Tab.put s.mcus m x }.request .blit (24 + m) a n

/-- Has a run nothing left to read? -/
def mcuRead (r : McuRun) : Bool := r.spoiled || decide (r.len ≤ r.done)

/-- A memory check unit in an FCLK: at most one burst per 4 + PACE (R492). -/
def mcuTick (s : State) (m : Nat) : State :=
  match Tab.find s.mcus m with
  | none => s
  | some r =>
    if mcuRead r then s
    else if 0 < r.wait then { s with mcus := Tab.put s.mcus m { r with wait := r.wait - 1 } }
    else if s.queueRoom .blit (r.start + r.done) 1 then s.mcuBurst m r
    else s

/-- A write of MCU_GO. -/
def mcuGoWrite : WriteEffect := fun _ x _ _ _ s => s.mcuStart (x.idx.headD 0)

/-- Load the expected value of memory check unit m. -/
def mcuExpect (s : State) (m v : Nat) : State :=
  (s.setF (Reg.MCU_EXPECT_VALUE m) v).setF (Reg.MCU_STATE_EXP_VALID m) 1

/-- A write of MCU_EXPECT. -/
def mcuExpectWrite : WriteEffect := fun _ x new _ _ s => s.mcuExpect (x.idx.headD 0) new

/-- A run of unit m ends, once it has read its region or a burst has failed (R493). -/
def mcuRunEnd (s : State) (m : Nat) : State :=
  match Tab.find s.mcus m with
  | none => s
  | some r =>
    if mcuRead r = false then s
    else
    let s1 := { ((s.setF (Reg.MCU_STATE_STATE m) 0).addF (Reg.MCU_STATE_RUNS m) 1) with mcus := Tab.del s.mcus m }
    if r.spoiled then (s1.setF (Reg.MCU_STATE_LAST m) 3).checkRaise [Flag.CHECK_POISON, Flag.CHECK_MEM_DONE]
    else
      let got := crcEnd r.poly r.crc
      let s2 := s1.setF (Reg.MCU_RESULT_VALUE m) got
      if s.fb (Reg.MCU_CFG_COMPARE m) ∧ s.fb (Reg.MCU_STATE_EXP_VALID m) then
        let s3 := s2.setF (Reg.MCU_STATE_EXP_VALID m) 0
        if got = s.f (Reg.MCU_EXPECT_VALUE m) % 2 ^ polyWidth r.poly then
          (s3.setF (Reg.MCU_STATE_LAST m) 1).checkRaise [Flag.CHECK_MEM_DONE]
        else (s3.setF (Reg.MCU_STATE_LAST m) 2).checkRaise [Flag.CHECK_MEM_ALARM, Flag.CHECK_MEM_DONE]
      else (s2.setF (Reg.MCU_STATE_LAST m) 4).checkRaise [Flag.CHECK_MEM_DONE]

/-- A LOAD_EXPECT cue (R145, R490, R492): units 0–15 are signature units, 16–19 memory check units. -/
def loadExpect (s : State) (u v : Nat) : State :=
  if u < 16 then s.sigExpect u v
  else
    let s1 := s.mcuExpect (u - 16) v
    if s.fb (Reg.MCU_CFG_START_ON_LOAD (u - 16)) then s1.mcuStart (u - 16) else s1

end State
end Sys2Proof.Machine
end

