-- ==== Sys2Proof/Machine/Curves.lean ====
section
/-! DEFINITION. The transfer curves of the colour presets (R257, R266). The curves are real functions; they are
evaluated in fixed point with 120 fraction bits, far below the last place of the 20-bit results. -/

namespace Sys2Proof.Machine
namespace Fx

/-- 1.0 with 120 fraction bits. -/
def one : Int := 2 ^ 120

/-- The fixed-point value of n / d. -/
def ofFrac (n d : Int) : Int := n * one / d

/-- A product. -/
def mul (a b : Int) : Int := a * b / one

/-- A quotient; b is not zero. -/
def div (a b : Int) : Int := a * one / b

/-- The sum of y^(2k+1)/(2k+1) for k from i on, n terms; p is y^(2i+1). -/
def atanhSum (y2 p : Int) (n i : Nat) : Int :=
  match n with
  | 0 => 0
  | m + 1 => p / (2 * i + 1 : Nat) + atanhSum y2 (mul p y2) m (i + 1)

/-- ln m for m between 1.0 and 2.0. -/
def lnNear (m : Int) : Int :=
  let y := div (m - one) (m + one)
  2 * atanhSum (mul y y) y 44 0

/-- ln 2. -/
def ln2 : Int := lnNear (2 * one)

/-- ln x for x above 0. -/
def ln (x : Int) : Int :=
  let e : Int := (Nat.log2 x.toNat : Int) - 120
  let m := if 0 ≤ e then x / 2 ^ e.toNat else x * 2 ^ (-e).toNat
  lnNear m + e * ln2

/-- The sum of r^k/k! from the term t = r^i/i! on, n terms. -/
def expSum (r t : Int) (n i : Nat) : Int :=
  match n with
  | 0 => 0
  | m + 1 => t + expSum r (mul t r / (i + 1 : Nat)) m (i + 1)

/-- e^x. -/
def exp (x : Int) : Int :=
  let k := x / ln2
  let v := expSum (x - k * ln2) one 40 0
  if 0 ≤ k then v * 2 ^ k.toNat else v / 2 ^ (-k).toNat

/-- x^(p/q) for x at least 0. -/
def pow (x p q : Int) : Int := if x ≤ 0 then 0 else exp (ln x * p / q)

/-- 2^20 × x, rounded and clamped to 0..top. -/
def out (top : Nat) (x : Int) : Nat := min top (roundShift (x * 2 ^ 20) 120).toNat

end Fx

/-- c1, c2 and c3 of PQ. -/
def pqC1 : Int := Fx.ofFrac 3424 4096
def pqC2 : Int := Fx.ofFrac 2413 128
def pqC3 : Int := Fx.ofFrac 2392 128

/-- a, b and c of HLG. -/
def hlgA : Int := Fx.ofFrac 17883277 100000000
def hlgB : Int := Fx.ofFrac 28466892 100000000
def hlgC : Int := Fx.ofFrac 55991073 100000000

/-- Y_PQ(V) / 10,000. -/
def pqToLinear (v : Int) : Int :=
  let p := Fx.pow v (32 : Int) 2523
  Fx.pow (Fx.div (max (p - pqC1) 0) (pqC2 - Fx.mul pqC3 p)) 16384 2610

/-- E(V) of HLG. -/
def hlgToLinear (v : Int) : Int :=
  if 2 * v ≤ Fx.one then Fx.mul v v / 3 else (Fx.exp (Fx.div (v - hlgC) hlgA) + hlgB) / 12

/-- The scene light of HLG reference white, a signal of 0.75. -/
def hlgWhite : Int := hlgToLinear (3 * Fx.one / 4)

/-- Entry i of a decode LUT under a preset (R257). -/
def decodePreset (preset nits i : Nat) : Nat :=
  let v := Fx.ofFrac i 4095
  Fx.out 0xFFFFFF <|
    match preset with
    | 1 => pqToLinear v * 10000 / max 1 nits
    | 2 => Fx.div (hlgToLinear v) hlgWhite
    | 3 => Fx.pow v 12 5
    | 4 => if (i * 100000 : Nat) ≤ 4045 * 4095 then v * 100 / 1292
           else Fx.pow ((v + Fx.ofFrac 55 1000) * 1000 / 1055) 12 5
    | _ => v

/-- Entry i of an encode LUT under a preset (R266). -/
def encodePreset (preset nits i : Nat) : Nat :=
  let xi := encodeLutInput i
  let x := Fx.ofFrac xi (2 ^ 20)
  let t := min x Fx.one
  Fx.out 0x100000 <|
    match preset with
    | 1 =>
      let y := Fx.pow (min (x * nits / 10000) Fx.one) 2610 16384
      Fx.pow (Fx.div (pqC1 + Fx.mul pqC2 y) (Fx.one + Fx.mul pqC3 y)) 2523 32
    | 2 =>
      let h := min (Fx.mul x hlgWhite) Fx.one
      if 12 * h ≤ Fx.one then Fx.pow (3 * h) 1 2 else Fx.mul hlgA (Fx.ln (12 * h - hlgB)) + hlgC
    | 3 => Fx.pow t 5 12
    | 4 => if t * 10000000 ≤ 31308 * Fx.one then t * 1292 / 100 else Fx.pow t 5 12 * 1055 / 1000 - Fx.ofFrac 55 1000
    | _ => t

end Sys2Proof.Machine
end

