-- ==== Sys2Proof/Machine/Scan.lean ====
section
/-! DEFINITION. Scan-out (R281–R300, R317–R339) and the layer engines' own events (R181–R190, R257, R266): a composed
line cut into PIXEL packets, the send position, BEACON and MODE packets, bursts, tolerances, fills of lookup tables. -/

namespace Sys2Proof.Machine
namespace State

/-- Set flags of the ORS status of raster m. -/
def orsRaise (s : State) (m : Nat) (flags : List Nat) : State := s.raiseAll (Reg.ORS_BLOCK_STATUS m) flags

/-- Is the part in Thermal Hold (R591)? The state lives in the slow domain. -/
def thermalHold (s : State) : Bool := s.sf Reg.PWR_STATE_THERMAL_HOLD != 0

/-- Does raster m run: does it pass positions? -/
def rasterRuns (s : State) (m : Nat) : Bool :=
  match (s.raster m).mode with | .run => true | _ => false

/-- Does the timing of raster m run (R296)? -/
def timingRuns (s : State) (m : Nat) : Bool :=
  match (s.raster m).mode with | .run => true | .ready _ => true | .hit _ => true | _ => false

/-! ### PIXEL packets (R291, R292, R318, R327, R328) -/

/-- Is the run of an orientation a tile column; is its order against the raster; is its index counted from the far edge
(R292)? -/
def runAxis (o : Nat) : Bool := o % 2 == 1
def runReversed (o : Nat) : Bool := o == 1 || o == 2 || o == 4 || o == 5
def runFar (o : Nat) : Bool := o == 2 || o == 3 || o == 5 || o == 6

/-- The payload of codes at a depth: one bit stream, least significant bit first (R327). -/
def pixelPayload (depth : Nat) (px : List PixOut) : List Byte :=
  let codes := px.flatMap fun p => [p.r, p.g, p.b]
  let v := (codes.foldr (fun c n => n * 2 ^ depth + c % 2 ^ depth) 0)
  leBytes (ceilDiv (3 * depth * px.length) 8) v

/-- Cut a list into pieces of n. -/
def pieces {α : Type} (n k : Nat) (l : List α) : List (List α) :=
  match k with
  | 0 => []
  | j + 1 => if l.isEmpty then [] else l.take n :: pieces n j (l.drop n)

/-- The PIXEL packets of one run (R318, R328): the entry, the first SEQ, the run's index and its pixels in tile order. -/
def runFrames (s : State) (m : Nat) (e : MapEntry) (seq idx : Nat) (px : List PixOut) : List Frame :=
  let r := s.raster m
  let code := s.lf (Reg.BC_OUT_CFG_DEPTH (s.rasterCluster (s.imgOf m) m))
  let depth := depthBits code
  let most := min 8192 (max 64 (s.f (Reg.BTL_CFG_MAX_PAYLOAD e.port)))
  let per := 8 * most / (3 * depth)
  let flags := code * 64 + (if runAxis e.orient then 32 else 0)
  let ps := pieces per px.length px
  (List.range ps.length).map fun i =>
    let load := pixelPayload depth (ps.getD i [])
    { kind := .pixel m r.frame, fold := foldPrefix m 1 e.tile r.alive (r.frame % max 1 r.tim.sub),
      body := btlHeader 1 flags e.tile load.length (leBytes 2 e.idx ++ leBytes 4 (seq + i) ++ leBytes 2 idx ++
        leBytes 2 (i * per)) ++ load }

/-- May the part build packets for an entry on a port (R293)? -/
def entryAlive (s : State) (m : Nat) (e : MapEntry) (p : Nat) : Bool := e.inside (s.raster m).tim && s.role p == 1

/-- Set ENTRY_DEAD once in a frame that skips an entry (R293). -/
def noteDead (s : State) (m : Nat) : State :=
  let r := s.raster m
  if r.deadRaised = false ∧ (r.entCur.any fun e => e.ports.any fun p => !s.entryAlive m e p) then
    (s.setRaster m { r with deadRaised := true }).orsRaise m [Flag.ORS_ENTRY_DEAD]
  else s

/-- Cut the run of one entry on line v: the packets it asks of each port, with their queue; none where the entry's words of
the live Tile Map are uncorrectable (R514, log entry 109). -/
def cutRun (m v : Nat) (px : List PixOut) (a : State × List (Nat × Nat × Frame)) (e : MapEntry) :
    State × List (Nat × Nat × Frame) :=
  let s := a.1
  if e.y ≤ v ∧ v < e.y + e.h ∧ e.inside (s.raster m).tim then
    if s.poisoned (0xE800100000 + 16 * e.idx) 16 then (s.slabUeWords (0x100000 + 16 * e.idx) 16, a.2)
    else
    let seg := (px.drop e.x).take e.w
    let idx := if runFar e.orient then e.y + e.h - 1 - v else v - e.y
    let r := s.raster m
    let seq := Tab.get r.seqs e.idx 0
    let fs := s.runFrames m e seq idx (if runReversed e.orient then seg.reverse else seg)
    (s.setRaster m { r with seqs := Tab.put r.seqs e.idx (seq + fs.length) },
      a.2 ++ ((e.ports.filter fun p => s.role p == 1).flatMap fun p => fs.map fun x => (p, e.queue, x)))
  else a

/-- Queue the runs of a line: entries in ascending index on one port (R292), ports in ascending number (R377). -/
def queueRuns (s : State) (l : List (Nat × Nat × Frame)) : State :=
  (List.range 128).foldl (fun t p => (l.filter fun x => x.1 == p).foldl (fun u x => u.enqueue p x.2.1 x.2.2) t) s

/-! ### The pass of the engines over a frame (R177, R187, R208, R216, R240, R241) -/

/-- The line of the frame being fetched from which rows are still needed on raster m. -/
def nextLine (s : State) (m : Nat) : Nat := if (s.raster m).stpDone then 0 else (s.raster m).composed

/-- The rows and 256-byte spans that one output pixel reads through an engine (R187). -/
def pixelSpans (s : State) (x : Layer) (px py : Nat) : List (Nat × Nat) :=
  let c := s.coordAt x.mesh px py
  if x.mesh.inside px py ∧ c.cut = false then
    let js := s.rowsOf x.mesh x.surf c
    let is := ((s.tapsH x.mesh c).filterMap fun t => edgeIndex x.mesh.edgeH x.surf.width t.1).flatMap fun i =>
      if x.surf.fmt = 8 then [i - 1, i, min (x.surf.width - 1) (i + 1)] else [i]
    let at' (j a : Nat) : Nat × Nat := (j, a / 256 * 256)
    (js.flatMap fun j => is.flatMap fun i => [at' j (x.surf.at' i j), at' j (x.surf.at' i j + bppOf x.surf.fmt - 1)]).eraseDups
  else []

/-- The spans that active line v of raster m needs from a layer's engine, with their rows (R187, R191): with SKIP_EN those
that a pixel of a block that is not covered reads, else every span of the rows that the line references. ls: the stack. -/
def lineNeed (s : State) (m : Nat) (ls : List Layer) (x : Layer) (v : Nat) : List (Nat × Nat) :=
  let (cx, cy) := s.viewOf (s.rasterCluster (s.imgOf m) m) m
  let y := cy + v
  if s.lfb (Reg.LE_FETCH_CFG_SKIP_EN x.n) then
    let hs := (List.range (s.liveTiming m).hActive).filter fun h => !beneath (s.topCover ls ((cx + h) / 16) (y / 16)) x.k
    (hs.flatMap fun h => s.pixelSpans x (cx + h) y).eraseDups
  else (s.lineRows x.n m v).flatMap fun j => (x.surf.spans j).map fun a => (j, a)

/-- The first active line of raster m below the row of blocks that holds line v. -/
def blockRowEnd (s : State) (m v : Nat) : Nat :=
  let y := (s.viewOf (s.rasterCluster (s.imgOf m) m) m).2 + v
  min (s.liveTiming m).vActive (v + (16 - y % 16))

/-- The vertices that a layer's engine reads for lines v to w − 1 of raster m, which lie in one row of blocks: the corners of
the cells that the view's pixels touch, and those of the cells of every block that can be solid (R208, R240, R241). -/
def gridRow (s : State) (m v w : Nat) (x : Layer) : List Nat :=
  if x.mesh.table then
    let (cx, cy) := s.viewOf (s.rasterCluster (s.imgOf m) m) m
    let wide := (s.liveTiming m).hActive
    let cell (p : Nat × Nat) : Nat × Nat := ((p.1 - x.mesh.x0) / x.mesh.g, (p.2 - x.mesh.y0) / x.mesh.g)
    let view := (List.range (w - v)).flatMap fun i => (List.range wide).map fun h => (cx + h, cy + v + i)
    let by' := (cy + v) / 16
    let blocks := (List.range ((cx + wide - 1) / 16 + 1 - cx / 16)).flatMap fun i =>
      let bx := cx / 16 + i
      if x.mesh.inside (16 * bx) (16 * by') && x.mesh.inside (16 * bx + 15) (16 * by' + 15) then
        (List.range 16).flatMap fun j => (List.range 16).map fun k => (16 * bx + k, 16 * by' + j)
      else []
    let cells := (((view ++ blocks).filter fun p => x.mesh.inside p.1 p.2).map cell).eraseDups
    (cells.flatMap fun c =>
      [x.mesh.index c.1 c.2, x.mesh.index (c.1 + 1) c.2, x.mesh.index c.1 (c.2 + 1), x.mesh.index (c.1 + 1) (c.2 + 1)]).eraseDups
  else []

/-- A layer's engine reads the vertices of a row of blocks of raster m, each once in its pass, as the first engine's fetch
reaches the row (R208, R241; log entry 22). Reads that fail are counted and recorded (R209, R514). -/
def readGrid (m v w : Nat) (s : State) (x : Layer) : State :=
  let e := s.engine x.n
  let vs := (s.gridRow m v w x).filter fun j => (Tab.find e.grid (m * 2 ^ 40 + j)).isNone
  let bad := vs.filter fun j => (s.vertexWord j).2
  let s1 := s.setEngine x.n { e with grid := vs.foldl (fun t j => Tab.put t (m * 2 ^ 40 + j) (s.vertexWord j)) e.grid }
  if bad.isEmpty then s1
  else bad.foldl (fun t j => t.slabUe 0 (8 * j))
    ((s1.satF (Reg.MESH_EVENTS_POISON_VERTICES x.n) bad.length).raise Reg.MESH_BLOCK_STATUS Flag.MESH_POISON)

/-- A layer's engine plans the fetch for line v in pass no of raster m (R177, R187). -/
def planLine (m no : Nat) (ls : List Layer) (x : Layer) (s : State) (v : Nat) : State :=
  let e := s.engine x.n
  let span (q : Nat × Nat) : Span := ⟨m, no, q.1, q.2, v⟩
  let rows := (s.lineRows x.n m v).filter fun j => !e.refs.contains (m * 2 ^ 16 + j)
  let want := s.lineNeed m ls x v
  let new := (want.filter fun q => !e.need.any fun p => p.ras == m && (p.row, p.addr) == q).map span
  let all := rows.flatMap fun j => (x.surf.spans j).map fun a => span (j, a)
  s.setEngine x.n { e with
    refs := (rows.map fun j => m * 2 ^ 16 + j) ++ e.refs, need := e.need ++ new, todo := e.todo ++ new,
    spare := (e.spare ++ all).filter fun p => p.ras != m || !want.contains (p.row, p.addr) }

/-- The spans that a layer's engine has not needed in its pass on raster m are skipped (R187). -/
def countSkipped (m : Nat) (s : State) (x : Layer) : State :=
  let e := s.engine x.n
  let k := (e.spare.filter fun p => p.ras == m).length
  let s1 := s.setEngine x.n { e with spare := e.spare.filter fun p => p.ras != m }
  if k = 0 then s1 else s1.setReg (Reg.LE_SKIP_BYTES x.n) (s1.reg (Reg.LE_SKIP_BYTES x.n) + BitVec.ofNat 64 (256 * k))

/-- The engines plan the next row of blocks of raster m: they read its vertices, its coverage follows from them, and then what
they fetch for its lines (R208, R241). -/
def planBlock (s : State) (m : Nat) : State :=
  match (s.raster m).pass with
  | none => s
  | some p =>
    if (s.liveTiming m).vActive ≤ p.upTo then s
    else
      let w := s.blockRowEnd m p.upTo
      let ls := s.layersOf m p.plan
      let s1 := ls.foldl (readGrid m p.upTo w) s
      let s2 := ls.foldl (fun t x => ((List.range (w - p.upTo)).map (p.upTo + ·)).foldl (planLine m p.no ls x) t) s1
      let s3 := s2.setRaster m { s2.raster m with pass := some { p with upTo := w } }
      if w = (s.liveTiming m).vActive then ls.foldl (countSkipped m) s3 else s3

/-- Does the plan of raster m's pass end at or before line v? -/
def behind (s : State) (m v : Nat) : Bool := match (s.raster m).pass with | some p => decide (p.upTo ≤ v) | none => false

/-- The pass of raster m is planned at least through line v: composition has reached it. -/
def planTo (s : State) (m v : Nat) : State := forN (v / 16 + 2) (fun _ t => if t.behind m v then t.planBlock m else t) s

/-- An engine has requested all that is planned of raster m's pass: the fetch reaches the next row of blocks (R208). -/
def planAhead (s : State) (m : Nat) : State :=
  match (s.raster m).pass with
  | some p =>
    if s.thermalHold = false ∧ p.upTo < (s.liveTiming m).vActive ∧
        (s.layersOf m p.plan).any (fun x => (s.engine x.n).todo.all fun q => q.ras != m) then s.planBlock m
    else s
  | none => s

/-! ### Composing a line (R185, R231, R234, R260, R295) -/

/-- Count what a line's pixels report: clamps and poisoned lattice reads, which the Slab records too (R234, R260, R263,
R514). -/
def countPixels (s0 : State) (c : Nat) (px : List PixOut) : State :=
  let n1 := (px.filter fun p => p.clamped).length
  let n2 := (px.filter fun p => p.clipped).length
  let bad := px.flatMap fun p => p.poison
  let n3 := bad.length
  let s := bad.foldl (fun t o => t.slabUe 3 o) s0
  let s1 := ((s.satF (Reg.BC_EVENTS_CLAMPED_PIXELS c) n1).satF (Reg.BC_COLOUR_EVENTS_CLIPPED_PIXELS c) n2).satF
    (Reg.BC_COLOUR_EVENTS_POISON_READS c) n3
  let fl := (if n1 = 0 then [] else [Flag.BC_CLAMPED]) ++ (if n2 = 0 then [] else [Flag.BC_COLOUR_CLIPPED]) ++
    (if n3 = 0 then [] else [Flag.BC_LUT3D_POISON])
  if fl.isEmpty then s1 else s1.raiseAll (Reg.BC_BLOCK_STATUS c) fl

/-- An underrun at active pixel h of active line v (R185, R295). -/
def underrun (s : State) (m v h : Nat) (ns : List Nat) : State :=
  let s1 := ns.foldl (fun t n =>
    (t.satF (Reg.LE_EVENTS_UNDERRUN_LINES n) 1).raise (Reg.LE_BLOCK_STATUS n) Flag.LE_UNDERRUN) s
  let r := s1.raster m
  let s2 := s1.satF (Reg.ORS_UNDERRUN_LINES m) 1
  let s3 := if r.underCounted then s2
    else (s2.satF (Reg.ORS_UNDERRUN_FRAMES m) 1).setRaster m { r with underCounted := true }
  let s4 := if s3.fb (Reg.ORS_UNDER_FIRST_VALID m) then s3
    else (((s3.setF (Reg.ORS_UNDER_FIRST_VALID m) 1).setF (Reg.ORS_UNDER_FIRST_LINE m) v).setF
      (Reg.ORS_UNDER_FIRST_PIXEL m) h).setF (Reg.ORS_UNDER_FIRST_FRAME m) r.frame
  s4.orsRaise m [Flag.ORS_UNDERRUN]

/-- The rows that the lines from v on reference through engine n, as far as FETCH_LEAD reaches (R179). -/
def leadRows (s : State) (n m v : Nat) : List Nat :=
  let t := s.liveTiming m
  ((List.range (min t.fetchLead (t.vActive - v))).flatMap fun i => s.lineRows n m (v + i)).eraseDups

/-- Do the rows that engine n needs to stay FETCH_LEAD lines ahead on line v of raster m, beside those of the other rasters that
it serves, exceed its line buffer (R179, R228)? -/
def leadReduced (s : State) (n m v : Nat) (x : Surf) : Bool :=
  let others := ((s.served n).filter fun o => o != m && (s.raster o).pass.isSome).map fun o =>
    (s.leadRows n o (s.nextLine o)).length
  decide (bufRows x < (s.leadRows n m v).length + others.sum)

/-- Count what an engine's mesh meets on a line: clamped coordinates, invalid cells of which a pixel is needed, a lead that the
buffer does not hold (R179, R204, R216). ls: the stack. -/
def meshLine (s : State) (m v : Nat) (ls : List Layer) (x : Layer) : State :=
  let i := s.imgOf m
  let (cx, cy) := s.viewOf (s.rasterCluster i m) m
  let y := cy + v
  let hs := (List.range (s.raster m).tim.hActive).filter fun h => x.mesh.inside (cx + h) y
  if x.mesh.table then
    let r := (y - x.mesh.y0) / x.mesh.g
    let open' := hs.filter fun h => !beneath (s.topCover ls ((cx + h) / 16) (y / 16)) x.k
    let cs := (open'.map fun h => (cx + h - x.mesh.x0) / x.mesh.g).eraseDups
    let e := s.engine x.n
    let bad := cs.filter fun c =>
      ((s.corners x.mesh c r).any fun p => !p.valid && !p.hole) && !e.cells.contains (m * 2 ^ 40 + r * 2 ^ 20 + c)
    let s1 := s.setEngine x.n { e with cells := (bad.map fun c => m * 2 ^ 40 + r * 2 ^ 20 + c) ++ e.cells }
    let s2 := if bad.isEmpty then s1
      else (s1.satF (Reg.MESH_EVENTS_INVALID_CELLS x.n) bad.length).raise Reg.MESH_BLOCK_STATUS Flag.MESH_INVALID_CELL
    if s.leadReduced x.n m v x.surf then
      (s2.satF (Reg.LE_EVENTS_OVERFLOW_LINES x.n) 1).raise (Reg.LE_BLOCK_STATUS x.n) Flag.LE_ROW_OVERFLOW
    else s2
  else if hs.any fun h => (s.coordAt x.mesh (cx + h) y).clamped then
    (s.satF (Reg.MESH_EVENTS_CLAMPED x.n) 1).raise Reg.MESH_BLOCK_STATUS Flag.MESH_COORD_CLAMPED
  else s

/-- Count the coverage of the block row that line v begins, and close the count at the last line (R242). -/
def coverLine (s : State) (m v : Nat) (ls : List Layer) : State :=
  let i := s.imgOf m
  let c := s.rasterCluster i m
  let r := s.raster m
  let (cx, cy) := s.viewOf c m
  let n := if v = 0 ∨ (cy + v) % 16 = 0 then s.coveredBlocks ls cx r.tim.hActive ((cy + v) / 16) else 0
  let s1 := s.setRaster m { r with blocks := r.blocks + n }
  if v + 1 = r.tim.vActive ∧ (s.clusterRasters i c).head? = some m then
    let k := r.blocks + n
    (s1.setReg (Reg.BC_COVER c) (BitVec.ofNat 64 k)).setReg (Reg.BC_COVER_TOTAL c)
      (s1.reg (Reg.BC_COVER_TOTAL c) + BitVec.ofNat 64 k)
  else s1

/-- Is row j needed by an active line from v on of raster m through engine n? -/
def rowNeeded (s : State) (n m v j : Nat) : Bool :=
  (List.range ((s.liveTiming m).vActive - v)).any fun i => (s.lineRows n m (v + i)).contains j

/-- The engine gives up what no active line from v on of raster m references (R177): rows with their spans, and spans of
them not requested yet. -/
def releaseRows (s : State) (m v n : Nat) : State :=
  let e := s.engine n
  let keep (ras row : Nat) : Bool := ras != m || s.rowNeeded n m v row
  let held (a : Nat) : Bool := e.need.any fun p => p.ras * 2 ^ 40 + p.addr == a && keep p.ras p.row
  if e.rows.isEmpty ∧ e.buf.isEmpty ∧ e.todo.isEmpty then s
  else s.setEngine n { e with
    rows := e.rows.filter (fun k => keep (k / 2 ^ 16) (k % 2 ^ 16)), todo := e.todo.filter (fun p => keep p.ras p.row),
    need := e.need.filter (fun p => keep p.ras p.row),
    buf := e.buf.filter fun x => x.1 / 2 ^ 40 != m || held x.1 }

/-- The cluster composes the next active line of a raster that sends its frame and has reached the line, and the Tile Map
cuts it; engines move on to the next line. -/
def composeLine (s0 : State) (m : Nat) : State :=
  let r := s0.raster m
  if s0.rasterRuns m ∧ r.sentCur ∧ r.thermal = false ∧ r.composed < r.tim.vActive ∧ r.composed * r.tim.hTotal ≤ r.pos then
    let v := r.composed
    let s := s0.planTo m v
    let line := s.lineOf m v
    let ls := s.layersOf m r.plan
    let s1 := s.setRaster m { s.raster m with composed := v + 1 }
    let s2 := ls.foldl (fun t x => (t.meshLine m v ls x).releaseRows m (v + 1) x.n) s1
    let s3 := (s2.coverLine m v ls).countPixels (s.rasterCluster (s.imgOf m) m) line.px
    let s4 := match line.under with | some u => s3.underrun m v u.1 u.2 | none => s3
    let s5 := (s4.sigLine m v line.px).noteDead m
    let (s6, l) := r.entCur.foldl (cutRun m v line.px) (s5, [])
    s6.queueRuns l
  else s0

/-! ### The send position (R284, R319, R339) -/

/-- Flush the PIXEL packets of frame k of raster m from Q0–Q4 of port p (R339). -/
def flushLate (s : State) (m k p : Nat) : State :=
  let r := s.port p
  let isLate (x : Frame) : Bool := match x.kind with | .pixel a b => a == m && b == k | _ => false
  let late := (r.queues.take 5).flatten.filter isLate
  if late.isEmpty then s
  else
    let s1 := s.setPort p { r with queues := (r.queues.take 5).map (fun q => q.filter fun x => !isLate x) ++ r.queues.drop 5 }
    let s2 := ((forN 5 (fun q t => t.settleTurn p q) s1).freeBillets p ((late.map fun x => billetsOf x.length).sum)).judgeHeads p
    (s2.addF (Reg.BTL_TX_COUNTS_LATE_PIXEL p) late.length).btlRaise p [Flag.BTL_STATUS_LATE_PIXEL]

/-- The raster of a LATCH or HOLD. -/
def dueRaster (x : Frame) : Nat := match x.kind with | .latch m _ | .hold m _ => m | _ => 0

/-- Does a due frame go before one of raster m that falls due now: is its raster lower, or the same (R339, R365)? -/
def duesFirst (m : Nat) (y : Frame) : Bool := decide (dueRaster y ≤ m)

/-- A LATCH or HOLD takes its Billets and stands due (R339, R376). -/
def pushDue (s : State) (p : Nat) (x : Frame) : State :=
  let n := billetsOf x.length
  if s.cruAdmits p n true then
    let s1 := s.takeBillets p n
    let l := (s1.port p).due
    let ahead := duesFirst (dueRaster x)
    s1.setPort p { s1.port p with due := l.takeWhile ahead ++ { x with since := s.tq } :: l.dropWhile ahead }
  else ((s.cruRefused p).satF (Reg.QUEUE_DROPS_CRUCIBLE p 7) 1).portRaise p [Flag.PORT_STATUS_CRUCIBLE_DROP]

/-- The LATCH (or HOLD) of the frame in progress on raster m (R284, R319). -/
def latchFrame (s : State) (m : Nat) (sent : Bool) : Frame :=
  let r := s.raster m
  let l := r.tim.sendLine + r.tim.latchLead
  let (tf, tl) := if r.tim.vTotal ≤ l then (r.frame + 1, l - r.tim.vTotal) else (r.frame, l)
  let sub := r.frame % max 1 r.tim.sub
  let ty := if sent then 2 else 3
  { kind := if sent then .latch m r.frame else .hold m r.frame, fold := foldPrefix m ty 0xFFFF r.alive sub,
    body := btlHeader ty sub 0xFFFF 0 ([BitVec.ofNat 8 m, BitVec.ofNat 8 r.alive] ++ leBytes 4 tf ++ leBytes 2 tl ++ [0, 0]) }

/-- The EGRESS ports that hold an entry of the frame in progress, rising (R332). -/
def latchPorts (s : State) (m : Nat) : List Nat :=
  let es := (s.raster m).entCur
  (List.range 128).filter fun p => s.role p == 1 && es.any fun e => e.ports.contains p

/-- The send position of the frame in progress on raster m, once the raster has reached it. -/
def sendPosition (s : State) (m : Nat) : State :=
  let r := s.raster m
  if s.timingRuns m ∧ r.sendDone = false ∧ r.tim.sendLine * r.tim.hTotal ≤ r.pos then
    let sent := s.rasterRuns m && r.sentCur && !r.thermal && !s.thermalHold
    let s1 := s.setRaster m { r with sendDone := true }
    let s2 := if sent then s1.addF (Reg.ORS_COUNTS_SENT_FRAMES m) 1 else s1.addF (Reg.ORS_COUNTS_HOLD_FRAMES m) 1
    let x := s2.latchFrame m sent
    (s2.latchPorts m).foldl (fun t p => (t.flushLate m r.frame p).pushDue p x) (s2.noteDead m)
  else s

/-! ### BEACON and MODE (R303, R320, R321, R334) -/

/-- Does a hit raster wait at a frame end? -/
def hitWaits (r : Raster) : Bool :=
  (match r.mode with | .hit _ => true | _ => false) && r.settling && decide (lastPos r.tim ≤ r.pos)

/-- The BEACONs of EGRESS port p at a reference line start (R334). -/
def lineBeacons (s : State) (p : Nat) : State :=
  if s.role p = 1 then
    ((s.portRasters p).filter fun m => s.timingRuns m && !hitWaits (s.raster m)).foldl (fun t m =>
      t.enqueue p 7 { kind := .beacon m, body := List.replicate 48 0, fold := List.replicate 8 0 }) s
  else s

/-- Put a WAIT BEACON of raster m ahead of what waits in Q7 of port p, behind those of lower rasters (R334). -/
def frontBeacon (s : State) (p m : Nat) (x : Frame) : State :=
  let lower (y : Frame) : Bool := match y.kind with | .waitBeacon j => decide (j < m) | _ => false
  let s1 := s.enqueueAt p 7 x true
  let q := (s1.port p).queues.getD 7 []
  if q.length = ((s.port p).queues.getD 7 []).length + 1 then
    let rest := q.drop 1
    s1.setPort p { s1.port p with queues := (s1.port p).queues.set 7 (rest.takeWhile lower ++ q.take 1 ++ rest.dropWhile lower) }
  else s1

/-- The WAIT BEACON of raster m on each of its ports (R334). -/
def waitBeacons (s : State) (m : Nat) : State :=
  let ps := (List.range 128).filter fun p => s.role p == 1 && (s.portRasters p).contains m
  let (b, g) := s.beaconBody m 0xFFFF 0 0x20
  ps.foldl (fun t p => t.frontBeacon p m { kind := .waitBeacon m, body := b, fold := g }) s

/-- The MODE packets of raster m under its live timing (R303, R321). -/
def modeFrames (s : State) (m : Nat) : State :=
  let r := s.raster m
  let t := s.liveTiming m
  let sub := r.frame % max 1 r.tim.sub
  let period := (roundDiv ((s.time.d * secQ : Nat) : Int) (max 1 (s.time.n * t.vTotal * t.sub) : Nat)).toNat
  let load := leBytes 2 t.hActive ++ leBytes 2 t.hFp ++ leBytes 2 t.hSync ++ leBytes 2 t.hBp ++ leBytes 2 t.vActive ++
    leBytes 2 t.vFp ++ leBytes 2 t.vSync ++ leBytes 2 t.vBp ++ leBytes 6 period ++
    [BitVec.ofNat 8 t.sub, BitVec.ofNat 8 t.latchLead] ++ leBytes 2 t.sendLine ++ List.replicate 6 0
  let es := s.liveEntries.filter fun e => e.raster == m
  let dest := (es.flatMap fun e => e.ports.map fun p => (p, e.tile)).eraseDups
  s.queueRuns ((dest.filter fun d => s.role d.1 == 1).map fun d =>
    (d.1, 7, { kind := .mode m, fold := foldPrefix m 5 d.2 r.alive sub,
               body := btlHeader 5 sub d.2 32 ([BitVec.ofNat 8 m, BitVec.ofNat 8 r.alive] ++ List.replicate 8 0) ++ load }))

/-! ### Layer engines (R181–R190) -/

/-- Every dirty state of engine n is set (R189, R190). -/
def dirtyEngine (s : State) (n : Nat) : State :=
  let e := s.engine n
  s.setEngine n { e with dirty := (s.served n).foldl setAdd e.dirty }

/-- A write of LE_TOUCH (R189, R200). -/
def leTouchWrite : WriteEffect := fun _ x _ _ _ s =>
  (s.dirtyEngine x.inst).satF (Reg.LE_DIRTY_TOUCHES x.inst) 1

/-- A write of LE_TOL_MIN_RESTART (R197). -/
def leTolMinRestart : WriteEffect := fun _ x _ _ _ s => s.setF (Reg.LE_TOL_MIN_NS x.inst) 0xFFFFFFFF

/-- Is the span one of the pass that raster m's fetch is in, and still needed by a line to come? -/
def spanWanted (s : State) (n : Nat) (p : Span) : Bool :=
  (match (s.raster p.ras).pass with | some q => q.no == p.pass | none => false) &&
    s.rowNeeded n p.ras (s.nextLine p.ras) p.row

/-- Rows beyond the footprint of raster m's next line that are resident in engine n and needed later (R184). -/
def rowsAhead (s : State) (n m : Nat) : Nat :=
  let e := s.engine n
  let v := s.nextLine m
  let cur := s.lineRows n m v
  (e.rows.filter fun k => k / 2 ^ 16 == m && !cur.contains (k % 2 ^ 16) && rowArrived e m (k % 2 ^ 16) &&
    s.rowNeeded n m (v + 1) (k % 2 ^ 16)).length

/-- Is there room in the line buffer for the row of span p: does it hold the row, or fewer than BUF_ROWS (R179)? -/
def rowFits (s : State) (n : Nat) (p : Span) : Bool :=
  match s.liveSurf n with
  | none => false
  | some x => (s.engine n).rows.contains (p.ras * 2 ^ 16 + p.row) || decide ((s.engine n).rows.length < bufRows x)

/-- T_Q from now to the start of line v of the frame that raster m's fetch is in. -/
def toLine (s : State) (m v : Nat) : Nat :=
  let h := (s.liveTiming m).hTotal
  if (s.raster m).stpDone then s.toNextFrame m + s.posTime m (v * h * 2 ^ 48)
  else s.posTime m (v * h * 2 ^ 48 - s.posNow m)

/-- May engine n request span p now: its channel's real-time queue and the line buffer have room (R179, R502)? -/
def mayFetch (s : State) (n : Nat) (p : Span) : Bool :=
  (s.chan (chanOf p.addr)).room .realTime && s.rowFits n p && !s.thermalHold

/-- The span that engine n requests next: of the first spans of its passes that it may request, the one whose line comes first
(R177, R228). -/
def nextSpan (s : State) (n : Nat) : Option Span :=
  let heads := (List.range 16).filterMap fun m => (s.engine n).todo.find? fun p => p.ras == m
  (heads.filter (s.mayFetch n)).foldl (fun (best : Option Span) p =>
    match best with
    | none => some p
    | some b => if s.toLine p.ras p.line < s.toLine b.ras b.line then some p else some b) none

/-- Engine n requests span p (R177, R184): the request enters the real-time queue of its channel, behind every write that has
reached memory before it (R503). -/
def fetchSpan (s : State) (n : Nat) (p : Span) : State :=
  let e := s.engine n
  let key := p.ras * 2 ^ 16 + p.row
  let urgent := s.lfb (Reg.LE_FETCH_CFG_MODE n) && decide (s.rowsAhead n p.ras < s.lf (Reg.LE_FETCH_CFG_WATERMARK n))
  let new := urgent && !e.urgent.contains key
  let b : Burst := ⟨p, s.bytes p.addr 256, s.poisoned p.addr 256⟩
  let s1 := s.setEngine n { e with
    todo := e.todo.erase p, rows := setAdd e.rows key, urgent := if new then key :: e.urgent else e.urgent, wait := 3 }
  let c := chanOf p.addr
  let s2 := s1.setChan c ((s.chan c).add .realTime { src := 32 + n, addr := p.addr, urgent := urgent, burst := some b })
  if new then s2.satF (Reg.LE_EVENTS_URGENT_ROWS n) 1 else s2

/-- Engine n in an FCLK: it requests the next span of its passes, at most one in 4 FCLK (R169). -/
def issueFetch (s : State) (n : Nat) : State :=
  let e := s.engine n
  if 0 < e.wait then s.setEngine n { e with wait := e.wait - 1 }
  else match s.nextSpan n with
    | none => s
    | some p => s.fetchSpan n p

/-- A granted request of an engine is on its way to its line buffer; a channel in FAULT returns it poisoned (R510). -/
def fetchGranted (s : State) (r : MemReq) : State :=
  match r.burst with
  | some b =>
    let n := r.src - 32
    s.setEngine n { s.engine n with asked := (s.engine n).asked ++ [{ b with bad := b.bad || s.faulted r.addr }] }
  | none => s

/-- Count a late row once in its pass (R185). -/
def lateRow (s : State) (n : Nat) (p : Span) : State :=
  let e := s.engine n
  if e.late.contains (p.ras, p.pass, p.row) then s
  else ((s.setEngine n { e with late := (p.ras, p.pass, p.row) :: e.late }).satF (Reg.LE_EVENTS_LATE_ROWS n) 1).raise
    (Reg.LE_BLOCK_STATUS n) Flag.LE_LATE_ROWS

/-- A fetched burst of engine n for raster m arrives (R185, R186): its 256 bytes, as its request found them (R503), enter the line
buffer, zeros where memory reports them uncorrectable; one that no remaining line needs is discarded as late. An engine fetches
only what it has requested (R177). -/
def burstArrival (s : State) (n m a : Nat) (ecc : Ecc) : State :=
  match (s.engine n).asked.find? fun b => b.span.ras == m && b.span.addr == a / 256 * 256 with
  | none => s
  | some b =>
    let bad := b.bad || ecc == .uncorrectable
    let s0 := s.setEngine n { s.engine n with asked := (s.engine n).asked.erase b }
    let s1 := s0.setReg (Reg.LE_FETCH_BYTES n) (s.reg (Reg.LE_FETCH_BYTES n) + 256)
    let s2 := if bad then (s1.satF (Reg.LE_EVENTS_POISON_BURSTS n) 1).raise (Reg.LE_BLOCK_STATUS n) Flag.LE_POISON else s1
    if s.spanWanted n b.span then
      let data := if bad then List.replicate 256 (0 : Byte) else b.data
      s2.setEngine n { s2.engine n with buf := Tab.put (s2.engine n).buf (m * 2 ^ 40 + b.span.addr) data }
    else s2.lateRow n b.span

/-- The first line, from line v on, of a frame of raster m under a plan that needs a span engine n does not hold (R181); none
where the engine takes no part in it. -/
def firstMissing (s : State) (n m : Nat) (plan : Nat × Nat × Nat) (v : Nat) : Option Nat :=
  let ls := s.layersOf m plan
  match ls.find? fun x => x.n == n with
  | none => none
  | some x =>
    ((List.range ((s.liveTiming m).vActive - v)).find? fun i =>
      (s.lineNeed m ls x (v + i)).any fun q => (Tab.find (s.engine n).buf (m * 2 ^ 40 + q.2)).isNone).map (v + ·)

/-- The true tolerance of engine n for raster m in ns (R181); none where it is unlimited. The pass of a raster is that of the
frame being composed or, once its STP has passed, that of the frame that the STP has begun. -/
def tolOn (s : State) (n m : Nat) : Option Nat :=
  let r := s.raster m
  match r.pass with
  | none => none
  | some p =>
    if r.stpDone ∨ (s.rasterRuns m ∧ r.sentCur ∧ r.thermal = false) then
      (s.firstMissing n m p.plan (s.nextLine m)).map fun l => s.toLine m l / 65536
    else none

/-- The tolerance that engine n sends (R181–R184). -/
def tolerance (s : State) (n : Nat) : Nat :=
  if (s.liveSurf n).isNone ∨ s.thermalHold then 0xFFFFFFFF
  else
    match (s.served n).filterMap fun m => s.tolOn n m with
    | [] => 0xFFFFFFFF
    | t :: r =>
      if s.lfb (Reg.LE_FETCH_CFG_MODE n) then 0
      else min 0xFFFFFFFE ((r.foldl min t) - s.f (Reg.LE_TOL_GUARD_GUARD_NS n))

/-- Every channel's minimum tolerance: the smallest that the engines last sent (R505). -/
def updateMcTol (s : State) : State :=
  let least := ((List.range 32).map fun n => s.f (Reg.LE_TOL_NS n)).foldl min 0xFFFFFFFF
  forN 16 (fun c t => t.setF (Reg.MC_TOL_NS c) least) s

/-- Engine n sends its tolerance to every channel (R181, R182, R197). -/
def toleranceUpdate (s : State) (n : Nat) : State :=
  let t := s.tolerance n
  let s1 := s.setF (Reg.LE_TOL_NS n) t
  let s2 := if t ≠ 0xFFFFFFFF ∧ t < s1.f (Reg.LE_TOL_MIN_NS n) then s1.setF (Reg.LE_TOL_MIN_NS n) t else s1
  s2.updateMcTol

/-! ### Fills of lookup tables (R257, R266) -/

/-- Replace the registers from address lo up to hi by a list in rising order of address. -/
def putRange (t : Tab Word) (lo hi : Nat) (new : Tab Word) : Tab Word :=
  (t.filter fun x => decide (x.1 < lo)) ++ new ++ (t.filter fun x => decide (hi ≤ x.1))

/-- One channel of a lookup table from address lo on. -/
def lutPlane (lo : Nat) (col : List Nat) : Tab Word :=
  ((List.range 4096).zip col).map fun e => (lo + 4 * e.1, BitVec.ofNat 64 e.2)

/-- The three channels of a lookup table from address lo on. -/
def lutWords (lo : Nat) (col : List Nat) : Tab Word :=
  lutPlane lo col ++ (lutPlane (lo + 0x4000) col ++ lutPlane (lo + 0x8000) col)

/-- Why a preset load is refused: 1 busy, 2 bad preset, 3 bad REF_NITS; 0 where it is accepted. -/
def loadResult (busy : Bool) (preset nits : Nat) : Nat :=
  if busy then 1 else if preset = 0 ∨ 5 < preset then 2 else if preset = 1 ∧ (nits = 0 ∨ 10000 < nits) then 3 else 0

/-- A write of LE_DECODE_LOAD (R257). -/
def decodeLoadWrite : WriteEffect := fun _ x _ d _ s =>
  let n := x.inst
  let preset := bits d 16 14
  let nits := bits d 13 0
  let res := loadResult (s.fb (Reg.LE_DECODE_LOAD_BUSY n)) preset nits
  let s1 := s.setF (Reg.LE_DECODE_LOAD_RESULT n) res
  if res = 0 then
    (s1.setF (Reg.LE_DECODE_LOAD_BUSY n) 1).setEngine n { s1.engine n with fill := some ⟨preset, nits, 0⟩ }
  else s1

/-- The decode fill of engine n ends. -/
def decodeFillDone (s : State) (n : Nat) : State :=
  match (s.engine n).fill with
  | none => s
  | some f =>
    let s1 := (s.setF (Reg.LE_DECODE_LOAD_BUSY n) 0).setEngine n { s.engine n with fill := none }
    let col := (List.range 4096).map fun i => decodePreset f.preset f.nits i
    let lo := Reg.LE_DECODE_LUT n 0 0
    { s1 with regs := putRange s1.regs lo (lo + 0xC000) (lutWords lo col) }

/-- A write of BC_ENCODE_LOAD (R266). -/
def encodeLoadWrite : WriteEffect := fun _ x _ d _ s =>
  let c := x.inst
  let preset := bits d 16 14
  let nits := bits d 13 0
  let res := loadResult (s.fb (Reg.BC_ENCODE_LOAD_BUSY c)) preset nits
  let s1 := s.setF (Reg.BC_ENCODE_LOAD_RESULT c) res
  if res = 0 then { (s1.setF (Reg.BC_ENCODE_LOAD_BUSY c) 1) with encFill := Tab.put s1.encFill c ⟨preset, nits, bits d 17 17⟩ }
  else s1

/-- The encode fill of cluster c ends. -/
def encodeFillDone (s : State) (c : Nat) : State :=
  match Tab.find s.encFill c with
  | none => s
  | some f =>
    let s1 := { (s.setF (Reg.BC_ENCODE_LOAD_BUSY c) 0) with encFill := Tab.del s.encFill c }
    let col := (List.range 4096).map fun i => encodePreset f.preset f.nits i
    let lo := Reg.BC_ENC_LUT c f.set 0 0
    { s1 with regs := putRange s1.regs lo (lo + 0xC000) (lutWords lo col) }

/-- A write of ORS_UNDER_RESTART (R295, R312). -/
def underRestart : WriteEffect := fun _ x _ _ _ s => s.setF (Reg.ORS_UNDER_FIRST_VALID x.inst) 0

end State
end Sys2Proof.Machine
end

