-- ==== Sys2Proof/Machine/Land.lean ====
section
/-! DEFINITION. Landings (R151–R159, R180, R219, R243, R258, R269, R289, R305): what a commit transfers, the checks of the
state that a landing would produce, and the record it leaves. -/

namespace Sys2Proof.Machine
namespace State

/-! ### Units (R151, R154) -/

/-- The units of a mask in the layout of R154. -/
def unitsOf (mask : Nat) : List Nat := (List.range 56).filter fun u => bit mask u

/-- The mask of a list of units. -/
def maskOf (us : List Nat) : Nat := us.foldl (fun m u => m ||| 2 ^ u) 0

/-- A mask with every member of each lock group that it names (R154). -/
def expandMask (s : State) (mask : Nat) : Nat :=
  if s.hasIngot then
    (List.range 16).foldl (fun v m =>
      if bit mask (40 + m) then v ||| maskOf ((s.groupOf s.slot m).map (40 + ·)) else v) mask
  else mask

/-- The live registers of an address range become their shadows. -/
def goLive (s : State) (lo hi : Nat) : State :=
  { s with live := putRange s.live lo hi (s.regs.filter fun x => decide (lo ≤ x.1) && decide (x.1 < hi)) }

/-- The Tile Map entries that belong to raster m (R289), by index, rising. -/
def belongs (s : State) (m : Nat) : List Nat :=
  let pick (base : Nat) := ((s.mapEntries base).filter fun e => e.raster == m).map MapEntry.idx
  (pick 0xE800100000).foldl setAdd ((pick 0xE800000000).foldl setAdd [])

/-- The shadow copies that are VALID among the entries that belong to raster m. -/
def shadowOf (s : State) (m : Nat) : List MapEntry :=
  let own := s.belongs m
  (s.mapEntries 0xE800000000).filter fun e => own.contains e.idx

/-- The live copy of Tile Map entry e becomes its shadow as it stands in old; a word that the Slab cannot correct is recorded
as it is read, and stays uncorrectable in its live copy (R514, log entry 109). -/
def liveEntry (s : State) (old : State) (e : Nat) : State :=
  let live := 0xE800100000 + 16 * e
  let bad := (List.range 2).filter fun w => old.poison.contains (0xE800000000 + 16 * e + 8 * w)
  bad.foldl (fun u w => u.addPoison (live + 8 * w) 8) ((s.put live (old.bytes (0xE800000000 + 16 * e) 16)).slabUeWords (16 * e) 16)

/-- Transfer one unit: every shadow becomes live (R151, R289). -/
def transfer (s : State) (u : Nat) : State :=
  if u < 32 then
    let b := 0xF001000000 + u * 0x100000
    let c := 0xF003800000
    ((((s.goLive (b + 0x14) (b + 0x40)).goLive (b + 0x80) (b + 0xD0)).goLive (b + 0x10000) (b + 0x1C000)).goLive
      (c + 0x100 + 0x40 * u) (c + 0x128 + 0x40 * u)).goLive (c + 0x8000 + 0x1C00 * u) (c + 0x8000 + 0x1C00 * (u + 1))
  else if u < 40 then
    let b := 0xF003000000 + (u - 32) * 0x100000
    ((s.goLive (b + 0x20) (b + 0x600)).goLive (b + 0x800) (b + 0xA10)).goLive (b + 0x10000) (b + 0x28000)
  else
    let b := 0xF004000000 + (u - 40) * 0x100000
    (s.belongs (u - 40)).foldl (fun t e => t.liveEntry s e)
      (s.goLive (b + 0x18) (b + 0x38))

/-- The state after a transfer of units. -/
def transferAll (s : State) (us : List Nat) : State := us.foldl transfer s

/-! ### Causes 1 to 5 (R157)

In these checks, s is the state before a landing and t the state that the landing would produce. -/

/-- TIMING (R282). -/
def timingBad (s : State) (x : Timing) : Bool :=
  x.hActive == 0 || decide (16384 < x.hActive) || x.vActive == 0 || decide (16384 < x.vActive) ||
  decide (32767 < x.hTotal) || decide (32767 < x.vTotal) || overFast s.time.n s.time.d x.sub

/-- FETCH_LEAD (R282). -/
def leadBad (x : Timing) : Bool := x.fetchLead == 0 || decide (x.vFp + x.vSync + x.vBp < x.fetchLead)

/-- TILE_MAP: a shadow entry of raster m does not fit the raster it names (R288, R289). -/
def mapBad (s t : State) (m : Nat) : Bool := (s.shadowOf m).any fun e => !e.inside (t.liveTiming e.raster)

/-- The cause among 1 to 5 that rejects a landing of the rasters ms; 0 for none. -/
def landCause (s t : State) (governed : Bool) (ms : List Nat) : Nat :=
  if governed && ms.any fun m => s.overRate s.slot (s.rasterCluster s.slot m) s.time.n s.time.d t.liveTiming then 1
  else if ms.any fun m => s.timingBad (t.liveTiming m) then 2
  else if ms.any fun m => leadBad (t.liveTiming m) then 3
  else if ms.any fun m => s.mapBad t m then 4
  else if governed && ms.any fun m => (s.groupOf s.slot m).any fun x => t.liveTiming x != t.liveTiming m then 5
  else 0

/-! ### Unit checks (cause 6) -/

/-- ROWS_NEED of engine n under a FETCH_LEAD (R178). -/
def rowsNeed (t : State) (n : Nat) (g : MeshCfg) (x : Surf) (lead : Nat) : Nat :=
  min x.height
    (if g.table then t.lf (Reg.LE_FETCH_CFG_MESH_ROWS n)
     else if g.stepV = 0x10000 ∧ g.v0 % 512 = 0 then lead
     else ceilDiv (lead * g.stepV) 65536 + 6)

/-- The first failing check of R180 for engine n; 0 where all pass. -/
def engineCode (t : State) (n : Nat) : Nat :=
  let f := t.lf (Reg.LE_SOURCE_FLOW n)
  let src := t.lfb (Reg.LE_SOURCE_SRC n)
  let on := t.fb (Reg.ING_FLOW_CTRL_EN f)
  let x := if src then t.ringSurf f 0 else t.regSurf n
  let top := if src then (t.ringSurf f (t.f (Reg.ING_FLOW_CTRL_RING f) - 1)).limit else x.limit
  let g := t.meshCfg t.slot n 0
  let leads := (t.served n).map fun m => (t.liveTiming m).fetchLead
  let mode := t.lfb (Reg.LE_FETCH_CFG_MODE n)
  let wm := t.lf (Reg.LE_FETCH_CFG_WATERMARK n)
  if (src = false ∨ on) ∧ bppOf x.fmt = 0 then 1
  else if (src = false ∨ on) ∧ (x.width = 0 ∨ x.height = 0) then 2
  else if (src = false ∨ on) ∧ x.stride < x.width * bppOf x.fmt then 3
  else if (src = false ∨ on) ∧ t.capacity < top then 4
  else if (src = false ∨ on) ∧ x.fmt = 8 ∧ x.width % 2 = 1 then 5
  else if (src = false ∨ on) ∧ bufRows x < (leads.map (t.rowsNeed n g x)).sum then 6
  else if mode ∧ (wm = 0 ∨ leads.any fun l => decide (l < wm)) then 7
  else if src ∧ on = false then 8
  else if g.table ∧ t.lf (Reg.LE_FETCH_CFG_MESH_ROWS n) = 0 then 9
  else 0

/-- The first failing check of R219 for engine n. -/
def meshCode (t : State) (n : Nat) : Nat :=
  let g := t.meshCfg t.slot n 0
  let sp := t.lf (Reg.MESH_CTRL_SPACING n)
  let count := if t.hasIngot then t.img t.slot 7 (8 * n + 4) 4 else 0
  let nc := ceilDiv g.dw g.g + 1
  let nr := ceilDiv g.dh g.g + 1
  if 4 < sp then 1
  else if g.edgeH = 3 ∨ g.edgeV = 3 then 2
  else if g.dw = 0 ∨ g.dh = 0 ∨ 65536 < g.x0 + g.dw ∨ 65536 < g.y0 + g.dh then 3
  else if g.t2 < g.t1 ∨ g.t3 < g.t2 then 4
  else if g.table ∧ count = 0 then 5
  else if g.table ∧ g.pitch < nc then 6
  else if g.table ∧ count < t.lf (Reg.MESH_GRID_ORIGIN n) + (nr - 1) * g.pitch + nc then 7
  else 0

/-- The first failing check of R258 for engine n. -/
def layerColourCode (t : State) (n : Nat) : Nat :=
  let csc := t.lf (Reg.LE_COLOUR_CTRL_CSC n)
  let fmt := if t.lfb (Reg.LE_SOURCE_SRC n) then t.f (Reg.ING_FLOW_FMT_TARGET (t.lf (Reg.LE_SOURCE_FLOW n)))
    else t.lf (Reg.LE_SURF_FMT_FORMAT n)
  if (csc = 1 ∨ csc = 2) ∧ fmt ≠ 5 ∧ fmt ≠ 8 then 1
  else if t.fb (Reg.LE_DECODE_LOAD_BUSY n) then 2
  else 0

/-- The first failing check of R243 for cluster c. -/
def clusterCode (t : State) (c : Nat) : Nat :=
  let en := (List.range 16).filter fun k => t.lfb (Reg.BC_LAYER_EN c k)
  let ns := en.map fun k => t.lf (Reg.BC_LAYER_ENGINE c k)
  let ms := if t.hasIngot then t.clusterRasters t.slot c else []
  let reg (o : Nat) : Nat := t.img t.slot 3 (16 * c + o) 2
  if ns.any fun n => t.boundTo n != some c then 1
  else if ns.eraseDups.length ≠ ns.length then 2
  else if en.any fun k => decide (6 ≤ t.lf (Reg.BC_LAYER_MODE c k)) then 3
  else if en.any fun k => decide (6 ≤ t.lf (Reg.BC_LAYER_ASRC c k)) then 4
  else if en.any fun k => t.lf (Reg.BC_LAYER_MODE c k) == 5 &&
      (t.lf (Reg.BC_KEY_GAIN_KGAIN c k) == 0 || (t.lfb (Reg.BC_KEY_CFG_SRC c k) && t.lf (Reg.BC_KEY_CFG_CH c k) == 3)) then 5
  else if ms.any fun m =>
      let v := t.viewOf c m
      let x := t.liveTiming m
      decide (v.1 < reg 0) || decide (v.2 < reg 2) || decide (reg 4 + 1 < v.1 + x.hActive) || decide (reg 6 + 1 < v.2 + x.vActive)
    then 6
  else if (ms.map fun m => (t.liveTiming m).sub).eraseDups.length > 1 then 7
  else 0

/-- The first failing check of R269 for cluster c. -/
def clusterColourCode (t : State) (c : Nat) : Nat :=
  if (List.range 2).any fun p => decide (4 < t.lf (Reg.BC_CP_CTRL_RSHIFT c p)) then 1
  else if t.lf (Reg.BC_OUT_CFG_DITHER c) = 3 then 2
  else if t.fb (Reg.BC_ENCODE_LOAD_BUSY c) then 3
  else 0

/-- The first failing check of R305 for raster m, with the entry of codes 5 and 6. -/
def rasterCode (s t : State) (m : Nat) : Nat × Nat :=
  let x := t.liveTiming m
  let hold := t.lf (Reg.ORS_HOLD_CFG_HOLD_AFTER m)
  let div := t.lf (Reg.ORS_HOLD_CFG_REFRESH_DIVISOR m)
  let es := s.shadowOf m
  let bad5 := es.find? fun e => e.w == 0 || e.h == 0 || decide (4 < e.queue) || e.reserved
  let bad6 := es.find? fun e => t.role e.port != 1 || (e.altEn && (t.role e.altPort != 1 || e.altPort == e.port))
  if x.sub = 0 ∨ 8 < x.sub then (1, 0)
  else if x.sendLine < x.vActive ∨ x.vTotal ≤ x.sendLine ∨ x.latchLead = 0 ∨ x.vTotal ≤ x.latchLead then (2, 0)
  else if hold = 0 ∨ div = 0 then (3, 0)
  else if t.lfb (Reg.ORS_HOLD_CFG_HOLD_EN m) ∧ 1 < x.sub then (4, 0)
  else match bad5, bad6 with
    | some e, _ => (5, e.idx)
    | none, some e => (6, e.idx)
    | none, none => (0, 0)

/-- Record the first failing check of engine n, if one fails; own: its LE unit is in the landing. -/
def engineReject (s t : State) (own : Bool) (n : Nat) : Option State :=
  if t.lfb (Reg.LE_CTRL_EN n) = false then none
  else if t.engineCode n ≠ 0 then
    some ((s.setF (Reg.LE_REJECT_CODE n) (t.engineCode n)).raise (Reg.LE_BLOCK_STATUS n) Flag.LE_REJECTED)
  else if own = false then none
  else if t.meshCode n ≠ 0 then
    some ((s.setF (Reg.MESH_REJECT_CODE n) (t.meshCode n)).raise Reg.MESH_BLOCK_STATUS Flag.MESH_REJECTED)
  else if t.layerColourCode n ≠ 0 then
    some ((s.setF (Reg.LE_COLOUR_REJECT_CODE n) (t.layerColourCode n)).raise (Reg.LE_BLOCK_STATUS n) Flag.LE_REJECTED)
  else none

/-- Record the first failing check of cluster c, if one fails. -/
def clusterReject (s t : State) (own : Bool) (c : Nat) : Option State :=
  if t.clusterCode c ≠ 0 then
    some ((s.setF (Reg.BC_REJECT_CODE c) (t.clusterCode c)).raise (Reg.BC_BLOCK_STATUS c) Flag.BC_REJECTED)
  else if own ∧ t.clusterColourCode c ≠ 0 then
    some ((s.setF (Reg.BC_COLOUR_REJECT_CODE c) (t.clusterColourCode c)).raise (Reg.BC_BLOCK_STATUS c) Flag.BC_REJECTED)
  else none

/-- Record the first failing check of raster m, if one fails; old: the state before the landing. -/
def rasterReject (s old t : State) (m : Nat) : Option State :=
  let r := old.rasterCode t m
  if r.1 ≠ 0 then
    some (((s.setF (Reg.ORS_REJECT_CODE m) r.1).setF (Reg.ORS_REJECT_ENTRY m) r.2).orsRaise m [Flag.ORS_REJECTED])
  else none

/-- Run a check of each unit of a list: each that fails records its own first failing check. Answers whether one failed. -/
def rejectEach {α : Type} (check : State → α → Option State) (xs : List α) (a : Bool × State) : Bool × State :=
  xs.foldl (fun acc x => match check acc.2 x with | some r => (true, r) | none => acc) a

/-- The unit checks of a landing, engines before clusters before rasters: whether one failed, and the state that records
each unit's failure (R180, R219, R243, R258, R269, R305). -/
def unitReject (s t : State) (governed : Bool) (us : List Nat) : Bool × State :=
  let ms := (us.filter fun u => decide (40 ≤ u)).map (· - 40)
  let lead := if governed then ms.filter fun m => (t.liveTiming m).fetchLead != (s.liveTiming m).fetchLead else []
  let moved := if governed then ms.filter fun m => t.liveTiming m != s.liveTiming m else []
  let ns := (List.range 32).filter fun n => us.contains n || lead.any fun m => t.boundTo n == some (t.rasterCluster t.slot m)
  let cs := (List.range 8).filter fun c => us.contains (32 + c) || moved.any fun m => t.rasterCluster t.slot m == c
  let a1 := rejectEach (fun x n => x.engineReject t (us.contains n) n) ns (false, s)
  let a2 := rejectEach (fun x c => x.clusterReject t (us.contains (32 + c)) c) cs a1
  rejectEach (fun x m => x.rasterReject s t m) ms a2

/-! ### A landing -/

/-- A landing's record in the status of each commit it concerns (R157, R159): the units, whether they landed, the cause,
the first frame governed; gov answers the raster reported for a unit, of several the lowest (log entry 125). A commit registered in the landing's own FCLK has
no part in it (R152, R155). -/
def recordLanding (s : State) (us : List Nat) (ok : Bool) (cause frame : Nat) (gov : Nat → Nat) : State :=
  let old (c : Commit) : Bool := decide (c.fclk < s.fclk)
  let share (c : Commit) : Bool := ok && (unitsOf c.units).any fun u =>
    us.contains u && decide (1 < (s.commits.filter fun d => old d && bit d.units u).length)
  let step (t : State) (c : Commit) : State :=
    let mine := (unitsOf c.units).filter us.contains
    if old c = false ∨ mine.isEmpty then { t with commits := t.commits ++ [c] }
    else
      let left := maskOf ((unitsOf c.units).filter fun u => !us.contains u)
      let c1 : Commit := { c with units := left, landed := c.landed || ok, rejected := c.rejected || !ok }
      let k := c.seq % 256
      let st := if left ≠ 0 then 1 else if c1.rejected = false then 2 else if c1.landed = false then 4 else 3
      let t1 := if left ≠ 0 then { t with commits := t.commits ++ [c1] } else t
      -- an entry overwritten by a later registration records nothing more (R160)
      if s.f (Reg.CUE_COMMIT_STATUS_SEQ k) ≠ c.seq then t1
      else
        let t2 := ((t1.setF (Reg.CUE_COMMIT_STATUS_STATE k) st).setF (Reg.CUE_COMMIT_STATUS_RASTER k)
          ((mine.map gov).foldl min 31)).setF (Reg.CUE_COMMIT_STATUS_FRAME k) frame
        let t3 := if share c then t2.setF (Reg.CUE_COMMIT_STATUS_MERGED k) 1 else t2
        if ok then t3 else t3.setF (Reg.CUE_COMMIT_STATUS_CAUSE k) cause
  let s1 := s.commits.foldl step { s with commits := [] }
  let s2 := s1.setF Reg.CUE_COMMIT_PENDING_MASK (maskOf ((unitsOf (s1.f Reg.CUE_COMMIT_PENDING_MASK)).filter fun u =>
    !us.contains u || s.commits.any fun c => !old c && bit c.units u))
  if ok then s2 else s2.raise Reg.CUE_BLOCK_STATUS Flag.CUE_COMMIT_REJECTED

/-- Do the H or V values or S differ (R303)? -/
def modeChanged (x y : Timing) : Bool :=
  (x.hActive, x.hFp, x.hSync, x.hBp, x.vActive, x.vFp, x.vSync, x.vBp, x.sub) !=
    (y.hActive, y.hFp, y.hSync, y.hBp, y.vActive, y.vFp, y.vSync, y.vBp, y.sub)

/-- The next frame decided for raster m is dirty (R298). -/
def soil (s : State) (m : Nat) : State := s.setRaster m { s.raster m with forceDirty := true }

/-- A small change of PHASE_OFFSET is absorbed by the last line of vertical blanking (R128). -/
def absorbShift (s : State) (m : Nat) (old new : Timing) : State :=
  let r := s.raster m
  let d := new.phase - old.phase
  if d ≠ 0 ∧ d.natAbs ≤ 3072 ∧ 2 * d.natAbs * s.phi new ≤ r.tim.hTotal * 2 ^ 48 ∧ s.rasterRuns m then
    s.setRaster m { r with shift := r.shift + d }
  else s

/-- What the landing of an enabled raster leaves beside its transfer (R128, R302, R303, R312). -/
def rasterLanded (old s : State) (m k : Nat) : State :=
  let x := old.liveTiming m
  let y := s.liveTiming m
  let s0 := (s.setF (Reg.ORS_LANDED_FRAME m) (k + 1)).soil m
  -- a raster that waits counts ideal starts under its new timing from here on (R129)
  let s1 := if x = y then s0 else s0.setRaster m { s0.raster m with waitFrom := s.tq }
  let s2 := if modeChanged x y then s1.modeFrames m else s1
  s2.absorbShift m x y

/-- A landing of units at the landing STP of frame k (R157), or of units without a governing raster (R152, R283). -/
def land (s : State) (us : List Nat) (governed : Bool) (k : Nat) : State :=
  if us.isEmpty then s
  else
    let ms := (us.filter fun u => decide (40 ≤ u)).map (· - 40)
    let t := s.transferAll us
    let frame := if governed then k + 1 else s.refPos.f
    let gov (u : Nat) : Nat := if governed then (s.governor u).getD 31 else 31
    let cause := s.landCause t governed ms
    if cause ≠ 0 then s.recordLanding us false cause frame gov
    else match s.unitReject t governed us with
      | (true, r) => r.recordLanding us false 6 frame gov
      | (false, _) =>
        let ns := us.filter fun u => decide (u < 32)
        let cs := (ns.filterMap t.boundTo) ++ (us.filter fun u => decide (32 ≤ u) && decide (u < 40)).map (· - 32)
        let t1 := ns.foldl (fun x n => x.dirtyEngine n) t
        let t2 := if s.hasIngot then (cs.flatMap fun c => s.clusterRasters s.slot c).foldl soil t1 else t1
        let t3 := if governed then ms.foldl (fun x m => rasterLanded s x m k) t2 else t2
        t3.recordLanding us true 0 frame gov

/-- Is raster m a hit raster before its restart (R90)? -/
def isHit (s : State) (m : Nat) : Bool := match (s.raster m).mode with | .hit _ => true | _ => false

/-- The units that a commit registered in an earlier FCLK has pending (R152, R155). -/
def duePending (s : State) : List Nat :=
  (unitsOf (s.f Reg.CUE_COMMIT_PENDING_MASK)).filter fun u => s.commits.any fun c => decide (c.fclk < s.fclk) && bit c.units u

/-- Does raster m wait for the structure of a swap (R89)? Its units land with the structure or later (R94). -/
def awaitsStructure (s : State) (m : Nat) : Bool := match Tab.find s.swap m with | some (.land _) => true | _ => false

/-- The landing at the STP of frame k of raster m (R155), or at its restart (R94): the pending units whose governing
raster is m or shares its lock group, a hit raster's at its restart alone. whole: a landing at reference-frame grain; at any
other, units with SUBFRAME_GRAIN only. -/
def landAt (s : State) (m k : Nat) (whole : Bool) : State :=
  let grp := (s.groupOf s.slot m).filter fun x => s.isHit x == s.isHit m && !s.awaitsStructure x
  let mine := s.duePending.filter fun u => match s.governor u with | some g => grp.contains g | none => false
  let now := if whole then mine else mine.filter fun u => decide (u < 40) && bit (s.f Reg.CUE_GRAIN_GRAIN) u
  s.land now true k

/-- The landing of the units without a governing raster, in the FCLK after their registration (R152). -/
def ungovernedLanding (s : State) : State := s.land (s.duePending.filter fun u => (s.governor u).isNone) false 0

/-! ### Registration (R153, R154) -/

/-- Register a commit for the units of a mask: answers its sequence number, 0 for a mask of zero. -/
def registerCommit (s : State) (mask : Nat) : Nat × State :=
  if mask % 2 ^ 56 = 0 then (0, s)
  else
    let units := s.expandMask (mask % 2 ^ 56)
    let seq := s.f Reg.CUE_COMMIT_NEXT_SEQ
    let k := seq % 256
    let s1 := s.setF Reg.CUE_COMMIT_NEXT_SEQ (if seq = 65535 then 1 else seq + 1)
    let s2 := s1.setReg (Reg.CUE_COMMIT_STATUS k) (BitVec.ofNat 64 (seq * 2 ^ 48 + 1 * 2 ^ 44))
    let s3 := s2.setF Reg.CUE_COMMIT_PENDING_MASK (s2.f Reg.CUE_COMMIT_PENDING_MASK ||| units)
    (seq, { s3 with commits := s3.commits ++ [{ seq := seq, units := units, fclk := s.fclk }] })

/-- A write of CUE_COMMIT (R153, R163, R164). -/
def cueCommitWrite : WriteEffect := fun r _ _ d mask s =>
  let (seq, s1) := s.registerCommit (d &&& mask)
  if seq = 0 then s1 else { s1 with tickets := Tab.put s1.tickets r.master.val seq }

end State
end Sys2Proof.Machine
end

