-- ==== Sys2Proof/Machine/Frame.lean ====
section
/-! DEFINITION. The frames of an output raster (R29, R35, R89–R95, R125–R129, R187, R190, R294–R303, R421): start, end,
wait, the Shadow Transfer Point, the restart of a hit raster, and the landing of a swap. -/

namespace Sys2Proof.Machine

/-- The payload bytes of section ty of the image in slot i. -/
def State.section (s : State) (i ty n : Nat) : List Byte := (List.range n).map fun o => BitVec.ofNat 8 (s.img i ty o 1)

namespace State

/-! ### SWAPPABLE and the landing of a swap (R85, R95) -/

/-- Do the images in two slots allow a swap between them (R85)? -/
def swapAllowed (s : State) (i j : Nat) : Bool :=
  s.section i 1 3 == s.section j 1 3 && s.section i 8 128 == s.section j 8 128 &&
  (List.range 32).all fun q => s.quadMode i q == s.quadMode j q ||
    (List.range 4).all fun k => s.portRole i (4 * q + k) != 3 && s.portRole j (4 * q + k) != 3

/-- SWAPPABLE of both slots, as the pair stands. -/
def setSwappable (s : State) : State :=
  forN 2 (fun i t =>
    let ok := t.f (Reg.INGOT_SLOT_STATE_STATE i) == 3 && t.f (Reg.INGOT_SLOT_STATE_STATE (1 - i)) == 5 &&
      t.swapAllowed i (1 - i)
    t.setF (Reg.INGOT_SLOT_STATE_SWAPPABLE i) (if ok then 1 else 0)) s

/-- Every change of the pending swap has landed (R95). -/
def swapLanded (s : State) : State :=
  if s.fb Reg.INGOT_ACTIVE_SWAP_PENDING ∧ s.swap = [] then
    (((s.setF Reg.INGOT_ACTIVE_SWAP_PENDING 0).setF (Reg.INGOT_SLOT_STATE_STATE (1 - s.slot)) 3).setSwappable).raise
      Reg.INGOT_BLOCK_STATUS Flag.INGOT_SWAP_LANDED
  else s

/-- Raster m has done what the swap asked of it. -/
def swapDone (s : State) (m : Nat) : State := { s with swap := Tab.del s.swap m }

/-- A RASTER entry's timing goes into the shadow and live registers of raster m, with the latch of R283 (R88). -/
def loadTiming (s : State) (i m : Nat) : State :=
  let x := s.entryTiming i m
  let set (t : State) (a v : Nat) : State := (t.setReg a (BitVec.ofNat 64 v)).setLreg a (BitVec.ofNat 64 v)
  let four (a b c d : Nat) : Nat := a + b * 2 ^ 16 + c * 2 ^ 32 + d * 2 ^ 48
  let s1 := set s (Reg.ORS_HTIME m) (four x.hActive x.hFp x.hSync x.hBp)
  let s2 := set s1 (Reg.ORS_VTIME m) (four x.vActive x.vFp x.vSync x.vBp)
  let s3 := set s2 (Reg.ORS_MODE m) (x.fetchLead + x.sub * 2 ^ 16)
  let s4 := set s3 (Reg.ORS_PHASE m) (unsgn 32 x.phase)
  set s4 (Reg.ORS_LATCH m) (x.sendLine + x.latchLead * 2 ^ 16)

/-! ### Cues and positions (R144, R147) -/

/-- The position of a cue's raster: where it runs, its position; where it does not, its held position, if it has one. -/
def cuePos (s : State) (ras : Nat) : Option RP :=
  if ras < 16 then
    let r := s.raster ras
    match r.mode with
    | .run | .ready _ | .wait => some (s.rasterPos ras)
    | .hit _ => if r.passed then some ⟨r.hitAt.1, r.hitAt.2.1, r.hitAt.2.2⟩ else none
    | _ => none
  else some s.refPos

/-- Do positions of a cue's raster pass? -/
def cuePasses (s : State) (ras : Nat) : Bool :=
  if ras < 16 then (match (s.raster ras).mode with | .run | .ready _ => true | _ => false) else true

/-- Every cue whose raster has reached or passed its position comes due. -/
def markDue (s : State) : State :=
  { s with cues := s.cues.map fun c =>
      match s.cuePos c.2.raster with
      | some p =>
        if c.2.due.isNone && s.cuePasses c.2.raster && RP.le ⟨c.2.f, c.2.l, c.2.t⟩ p then (c.1, { c.2 with due := some s.fclk })
        else c
      | none => c }

/-! ### The fetch of a frame begins (R177, R183, R237) -/

/-- Engine n gives up the pass on raster m: its rows, spans and vertices. A late row stays counted while a burst of it is on
its way (R185). -/
def closePass (s : State) (m n : Nat) : State :=
  let e := s.engine n
  let row (k : Nat) : Bool := k / 2 ^ 16 != m
  let key (k : Nat) : Bool := k / 2 ^ 40 != m
  let other (p : Span) : Bool := p.ras != m
  s.setEngine n { e with
    buf := e.buf.filter (fun x => key x.1), refs := e.refs.filter row, spare := e.spare.filter other, need := e.need.filter other,
    todo := e.todo.filter other, rows := e.rows.filter row, urgent := e.urgent.filter row,
    late := e.late.filter (fun k => k.1 != m || e.asked.any fun b => (b.span.ras, b.span.pass, b.span.row) == k),
    grid := e.grid.filter (fun x => key x.1), cells := e.cells.filter key }

/-- Every engine gives up its pass on raster m. -/
def endPass (s : State) (m : Nat) : State :=
  let s1 := forN 32 (fun n t => t.closePass m n) s
  s1.setRaster m { s1.raster m with pass := none }

/-- The fetch of a frame of raster m begins under a plan: the pass before is given up, and, where the frame is sent, the first
rows of blocks are planned (R177, R183, R229). -/
def openPass (s : State) (m : Nat) (plan : Nat × Nat × Nat) (sent : Bool) : State :=
  let s1 := s.endPass m
  if sent ∧ s.thermalHold = false then
    let r := s1.raster m
    (s1.setRaster m { r with pass := some { no := r.passes + 1, plan := plan }, passes := r.passes + 1 }).planBlock m
  else s1

/-- The plans of raster m's cluster by sub-frame, as its STP finds them (R237). -/
def takePlans (s : State) (m : Nat) : List (Nat × Nat × Nat) :=
  (List.range 8).map fun i => s.livePlan (s.rasterCluster (s.imgOf m) m) i

/-- Each engine that raster m governs, or that serves it, sends its tolerance in the FCLK in which the raster's fetch begins
(R182, R183). -/
def sendTolerances (s : State) (m : Nat) : State :=
  forN 32 (fun n t => if t.governor n = some m ∨ t.serves n m then t.toleranceUpdate n else t) s

/-! ### Starting a frame (R125, R332) -/

/-- The V pulse of the frame that ends, where it runs past the frame: its pixel positions in the next one, and whether the
frame had sub-frame index 0 (R131). -/
def pulseTail (r : Raster) : Nat × Bool :=
  ((r.tim.vActive + r.tim.vFp + r.tim.vSync) * r.tim.hTotal + (if r.tim.vSync = 0 then 0 else r.tim.hActive + r.tim.hFp) -
      r.tim.vTotal * r.tim.hTotal, r.frame % max 1 r.tim.sub == 0)

/-- The plan of frame k of raster m: of those that its STP found live, that of its sub-frame (R237). -/
def planTaken (s : State) (m k : Nat) : Nat × Nat × Nat :=
  (s.raster m).plansNext.getD (k % max 1 (s.liveTiming m).sub) (0x1000FFFF, 0, 0)

/-- A frame that is sent has started under a plan: where the fetch runs under another, since a wait has skipped frame numbers
(R127), it begins anew, so that the map and the composition follow one plan (R237, log entry 133). -/
def refetch (s : State) (m : Nat) : State :=
  let r := s.raster m
  if r.sentCur ∧ r.pass.map Pass.plan ≠ some r.plan then s.openPass m r.plan true else s

/-- Raster m starts frame k, and cues come due with it (R147). hit: it is a hit raster before its restart, and its frame
is not sent. -/
def startFrameOf (s : State) (m k : Nat) (hit : Bool) : State :=
  let r := s.raster m
  let t := s.liveTiming m
  let first := r.passed = false
  let sent := !hit && (first || r.sentNext) && !s.thermalHold
  let live := s.liveEntries.filter fun e => e.raster == m
  let r1 : Raster := { r with
    mode := (match r.mode with | .hit j => if hit then .hit j else .run | _ => .run), frame := k, pos := 0, acc := 0,
    tim := t, passed := true, alive := if first then 0 else (r.alive + 1) % 256, stpDone := false, composed := 0,
    sendDone := false, sentCur := sent, heldCur := !first && r.heldNext, entCur := if first then live else r.entNext,
    underCounted := false, deadRaised := false, thermal := s.thermalHold,
    plan := s.planTaken m k, seqs := [], blocks := 0,
    vTail := match r.mode with | .run | .ready _ => pulseTail r | _ => (0, false) }
  (((s.setRaster m r1).refetch m).sigFrameStart m k sent).markDue

/-- TB_ORS_PHASE of raster m (R127). -/
def setPhase (s : State) (m state : Nat) (err : Int) : State :=
  (s.setF (Reg.TB_ORS_PHASE_STATE m) state).setF (Reg.TB_ORS_PHASE_ERROR m)
    (unsgn 30 (clampI err (-536870912) 536870911))

/-- A raster that had not started starts its first frame (R35): its engines' fetch begins with it. -/
def firstFrame (s : State) (m k : Nat) : State :=
  let s0 := s.setRaster m { s.raster m with plansNext := s.takePlans m }
  let s1 := ((s0.openPass m (s0.planTaken m k) true).startFrameOf m k false).soil m
  let s2 := (s1.setPhase m 1 0).sendTolerances m
  if Tab.find s.swap m = some .start then (s2.swapDone m).swapLanded else s2

/-- Once Device Time has reached its ideal start, a raster starts the frame that it stands ready for, or its first frame
(R35, R125). -/
def rasterFrameStart (s : State) (m : Nat) : State :=
  match (s.raster m).mode with
  | .ready k => if s.startReached (s.liveTiming m) k then s.startFrameOf m k false else s
  | .unstarted k => if (s.raster m).notBefore ≤ s.fclk ∧ s.startReached (s.liveTiming m) k then s.firstFrame m k else s
  | _ => s

/-! ### The frame end and a wait (R127, R129) -/

/-- A wait begins: one WAIT BEACON goes out and the raster settles. -/
def beginWait (s : State) (m : Nat) : State :=
  let r := s.raster m
  let s1 := s.setRaster m { r with settling := true, waitFrom := s.tq, pos := lastPos r.tim,
                                   mode := match r.mode with | .hit k => .hit k | _ => .wait }
  (s1.waitBeacons m).tbRaise [Flag.TIMEBASE_ORS_SETTLING]

/-- Does raster m stand at its frame end: has it passed the last position of its last line (R127)? -/
def atFrameEnd (s : State) (m : Nat) : Bool :=
  let r := s.raster m
  (s.rasterRuns m || (s.isHit m && !hitWaits r)) && decide (lastPos r.tim ≤ r.pos)

/-- The frame end of raster m: the next frame starts, or a wait begins. -/
def rasterFrameEnd (s : State) (m : Nat) : State :=
  let r := s.raster m
  if s.atFrameEnd m then
    let t := s.liveTiming m
    let s0 := s.setRaster m { r with stall := 0, shift := 0 }
    let err (k : Nat) : Int := s.idealError t k s.tq
    match s.frameNear t s.tq with
    | some k =>
      let s1 := (s0.setRaster m { s0.raster m with settling := false }).setPhase m 1 (err k)
      if s.isHit m then s1.startFrameOf m k true
      -- the frame starts in the first FCLK at or after its ideal start (R125)
      else if s.startReached t k then s1.startFrameOf m k false
      else s1.setRaster m { s1.raster m with mode := .ready k, waitFrom := s.tq }
    | none => (s0.beginWait m).setPhase m 2 (err (s.firstFrameAt t s.tq))
  else s

/-- The frame that ends the wait of raster m now (R127, R129): the latest ideal start that Device Time has reached or
passed since the wait began, or since it last went back; none while it has reached none. -/
def waitFrame (s : State) (m : Nat) : Option Nat :=
  let t := s.liveTiming m
  let k := s.firstFrameAfter t s.tq
  if 0 < k ∧ (((s.raster m).waitFrom * s.idealDen t : Nat) : Int) ≤ s.idealNum t (k - 1 : Nat) then some (k - 1) else none

/-- The timing under which raster m starts its next frame: that of the new structure where a swap is to load it (R90). -/
def startTiming (s : State) (m : Nat) : Timing :=
  if Tab.find s.swap m = some (.restart true) then s.entryTiming s.slot m else s.liveTiming m

/-- The ideal starts of raster m have moved, by a step or set of Device Time or a new reference rate. One that stands ready
for a frame judges its frame end again; where it finds no ideal start it waits (R127, R129). A hit raster keeps the instant of R90,
and one that has not started takes the next ideal start with sub-frame index 0, or the latest that Device Time has passed
(R35, R90, log entry 130). -/
def retime (s : State) (m : Nat) : State :=
  let r := s.raster m
  let t := s.startTiming m
  let next := wholeFrame t (s.firstFrameAt t s.tq)
  match r.mode with
  | .ready _ =>
    match s.frameNear t s.tq with
    | some k => (s.setRaster m { r with mode := .ready k }).setPhase m 1 (s.idealError t k s.tq)
    | none =>
      let s1 := s.beginWait m
      (s1.setRaster m { s1.raster m with waitFrom := min r.waitFrom s.tq }).setPhase m 2 (s.idealError t (s.firstFrameAt t s.tq) s.tq)
  | .hit _ => s.setRaster m { r with mode := .hit (match r.hitFrom with | some b => max (s.restartAt t b) next | none => next) }
  | .unstarted k =>
    let k' := match r.hitFrom with
      | some b => max (s.restartAt t b) next
      | none => if s.startReached t k then (s.firstFrameAfter t s.tq - 1) / max 1 t.sub * max 1 t.sub else next
    s.setRaster m { r with mode := .unstarted k' }
  | _ => s

/-- A waiting raster starts (R127). -/
def rasterWaitEnd (s : State) (m : Nat) : State :=
  match s.waitFrame m with
  | none => s
  | some k =>
    match (s.raster m).mode with
    | .wait => s.startFrameOf m k false
    | .hit _ => if hitWaits (s.raster m) then s.startFrameOf m k true else s
    | _ => s

/-- The frame that raster m starts in this FCLK, if it starts one (R125, R127). -/
def startsNow (s : State) (m : Nat) : Option Nat :=
  let t := s.liveTiming m
  match (s.raster m).mode with
  | .ready k => if s.startReached t k then some k else none
  | .unstarted k => if (s.raster m).notBefore ≤ s.fclk ∧ s.startReached t k then some k else none
  | .hit k =>
    if s.startReached (s.startTiming m) k then some k else none
  | .wait => s.waitFrame m
  | .run => if s.atFrameEnd m then (s.frameNear t s.tq).filter (s.startReached t) else none
  | .off => none

/-! ### The Shadow Transfer Point (R29, R89, R190, R298–R300, R421) -/

/-- Does raster m stand at its STP: has it reached the line FETCH_LEAD before its next frame, with the STP still to be
taken (R29, R155)? -/
def atStp (s : State) (m : Nat) : Bool :=
  let r := s.raster m
  s.rasterRuns m && !r.stpDone && decide ((r.tim.vTotal - r.tim.fetchLead) * r.tim.hTotal ≤ r.pos)

/-- Does the STP of the frame in progress on raster m precede sub-frame 0 of a reference frame (R89, R155)? -/
def wholeStp (s : State) (m : Nat) : Bool := ((s.raster m).frame + 1) % max 1 (s.raster m).tim.sub == 0

/-- The hitless change that a pending swap has for raster x lands (R89). -/
def landSwap (s : State) (x : Nat) : State :=
  match Tab.find s.swap x with
  | some (.land reload) =>
    let old := s.liveTiming x
    let s1 := (s.swapDone x).soil x
    if reload then
      let s2 := s1.loadTiming s.slot x
      if modeChanged old (s2.liveTiming x) then s2.modeFrames x else s2
    else s1
  | _ => s

/-- The hitless changes that land at this STP of raster m (R89): its own, and those of the members of its lock group that
stand at the same STP. -/
def landStructure (s : State) (m : Nat) : State :=
  ((s.groupOf s.slot m).filter fun x => x == m || (s.atStp x && s.wholeStp x)).foldl landSwap s

/-- The complete surface of flow f with the highest P not after F; the later completed of two (R421). -/
def dueSurface (s : State) (f F : Nat) : Option Nat :=
  ((Tab.get s.flows f {}).surfs.filter fun x => x.2.mode == 2 && decide (x.2.p ≤ F) && decide (x.2.doneAt < s.fclk)).foldl
    (fun (best : Option (Nat × RingSurface)) x =>
      match best with
      | none => some x
      | some b => if b.2.p < x.2.p ∨ (b.2.p = x.2.p ∧ b.2.order < x.2.order) then some x else some b) none |>.map Prod.fst

/-- Each engine that raster m governs takes the surface due for reference frame F (R421). -/
def bindSurfaces (s : State) (m F : Nat) : State :=
  forN 32 (fun n t =>
    if t.governor n = some m ∧ t.lfb (Reg.LE_SOURCE_SRC n) then
      let f := t.lf (Reg.LE_SOURCE_FLOW n)
      match t.dueSurface f F with
      | none => t
      | some k =>
        let x := t.ringSurf f k
        let h : HeldSurface := ⟨f, k, x.base, x.stride, x.width, x.height, x.fmt⟩
        if (t.engine n).held = some h then t else (t.setEngine n { t.engine n with held := some h }).dirtyEngine n
    else t) s

/-- Sample and clear the dirty state of raster m in every engine (R190). -/
def sampleDirty (s : State) (m : Nat) : Bool × State :=
  let any := (List.range 32).any fun n => s.serves n m && (s.engine n).dirty.contains m
  (any, forN 32 (fun n t =>
    if (t.engine n).dirty.contains m then t.setEngine n { t.engine n with dirty := (t.engine n).dirty.filter (· != m) } else t) s)

/-- The Idle Hold decision (R300); the raster's next frame, sent or not, and in Idle Hold or not. In Thermal Hold no frame
that an STP decides is sent, and the first decision after it is dirty (R297, R592). -/
def decideIdle (s : State) (m : Nat) (dirty : Bool) : State :=
  let r := s.raster m
  if dirty ∨ s.lfb (Reg.ORS_HOLD_CFG_HOLD_EN m) = false then
    let s1 := s.setF (Reg.ORS_IDLE_CLEAN m) 0
    let s2 := if 0 < r.holdJ then s1.orsRaise m [Flag.ORS_IDLE_LEFT] else s1
    s2.setRaster m { r with holdJ := 0, sentNext := !s.thermalHold, heldNext := false, forceDirty := s.thermalHold }
  else
    let clean := min 65535 (s.f (Reg.ORS_IDLE_CLEAN m) + 1)
    let s1 := s.setF (Reg.ORS_IDLE_CLEAN m) clean
    if s.lf (Reg.ORS_HOLD_CFG_HOLD_AFTER m) ≤ clean then
      let j := r.holdJ + 1
      let s2 := if j = 1 then s1.orsRaise m [Flag.ORS_IDLE_ENTERED] else s1
      s2.setRaster m { r with holdJ := j, heldNext := true, forceDirty := s.thermalHold,
                              sentNext := !s.thermalHold && j % max 1 (s.lf (Reg.ORS_HOLD_CFG_REFRESH_DIVISOR m)) == 0 }
    else s1.setRaster m { r with sentNext := !s.thermalHold, heldNext := false, forceDirty := s.thermalHold }

/-- Fetch of the frame that the STP of frame k begins. -/
def beginFetch (s : State) (m k : Nat) : State :=
  let r := s.raster m
  let s1 := s.setRaster m { r with plansNext := s.takePlans m, entNext := s.liveEntries.filter fun e => e.raster == m }
  s1.openPass m (s1.planTaken m (k + 1)) r.sentNext

/-- The Shadow Transfer Point of the frame in progress on raster m, up to the cues at its position (R29). -/
def stp (s : State) (m : Nat) : State :=
  let r := s.raster m
  if s.atStp m then
    let k := r.frame
    let whole := s.wholeStp m
    let s0 := s.setRaster m { r with stpDone := true }
    let s1 := (if whole then s0.landStructure m else s0).landAt m k whole
    let s2 := if whole then s1.bindSurfaces m ((k + 1) / max 1 r.tim.sub) else s1
    let (dirty, s3) := s2.sampleDirty m
    let s4 := (s3.decideIdle m (dirty || (s3.raster m).forceDirty)).beginFetch m k
    (s4.sendTolerances m).swapLanded
  else s

/-! ### The restart of a hit raster (R90, R94) -/

/-- The hit rasters that restart together with raster m, and what is loaded into them. -/
def restartStructure (s : State) (m : Nat) : State :=
  ((s.groupOf s.slot m).filter fun x => (s.raster x).mode == (s.raster m).mode).foldl (fun t x =>
    match Tab.find t.swap x with
    | some (.restart reload) =>
      let t1 := t.swapDone x
      if reload then t1.loadTiming t.slot x else t1
    | _ => t) s

/-- A hit raster restarts under the new structure, once Device Time has reached the ideal start of its frame (R90): its
engines' fetch begins with it. -/
def hitRasterRestart (s : State) (m : Nat) : State :=
  match (s.raster m).mode with
  | .hit k =>
    if s.startReached (s.startTiming m) k then
      let old := (s.raster m).tim
      let s1 := s.restartStructure m
      let s2 := s1.landAt m (k - 1) true
      let s3 := if modeChanged (s1.liveTiming m) (s2.liveTiming m) = false ∧ modeChanged old (s2.liveTiming m) then s2.modeFrames m else s2
      let r := s3.raster m
      let s4 := s3.setRaster m { r with sentNext := true, heldNext := false, settling := false, plansNext := s3.takePlans m,
                                        entNext := s3.liveEntries.filter fun e => e.raster == m, frame := k }
      let s5 := ((s4.openPass m (s4.planTaken m k) true).startFrameOf m k false).soil m
      ((s5.setPhase m 1 0).sendTolerances m).swapLanded
    else s
  | _ => s

end State
end Sys2Proof.Machine
end

