-- ==== Sys2Proof/Machine/Chain.lean ====
section
/-! DEFINITION. The Photor Chain (R430–R461): links and their training, chain frames, time exchanges, heartbeats, status
and takeover. -/

namespace Sys2Proof.Machine
namespace State

/-- Set the chain's record. -/
def setChain (s : State) (c : Chain) : State := { s with chain := c }

/-- Set flags of the CHAIN status. -/
def chainRaise (s : State) (flags : List Nat) : State := s.raiseAll Reg.CHAIN_BLOCK_STATUS flags

/-- This part's device index. -/
def myIndex (s : State) : Nat := s.f Reg.CHAIN_STATE_INDEX

/-- CHAIN_STATE.ROLE (R431). -/
def chainRole (s : State) : Nat := s.f Reg.CHAIN_STATE_ROLE

/-! ### Topology (R78, R432) -/

/-- PRESENT, PARENT and STANDBY of device n in the active image. -/
def present (s : State) (n : Nat) : Bool := s.hasIngot && s.img s.slot 8 (4 * n) 1 == 1
def parentOf (s : State) (n : Nat) : Nat := s.img s.slot 8 (4 * n + 1) 1
def isStandby (s : State) (n : Nat) : Bool := bit (s.img s.slot 8 (4 * n + 2) 1) 0

/-- PEER of local link k; 0xFF for an unused link. -/
def linkPeer (s : State) (k : Nat) : Nat := if s.hasIngot then s.img s.slot 8 (64 + 4 * k) 1 else 0xFF

/-- The manager of the topology. -/
def managerIndex (s : State) : Nat := ((List.range 16).find? fun n => s.present n && s.parentOf n == 0xFF).getD 0xFF

/-- The active manager as this part knows it (R437, R449): the topology's manager runs epoch 1; a later epoch is that of
the standby manager, which has taken over. 0xFF while no Ingot names one. -/
def activeManager (s : State) : Nat :=
  if s.chainRole = 1 then s.myIndex
  else if 2 ≤ s.f Reg.CHAIN_STATE_EPOCH then ((List.range 16).find? fun n => s.present n && s.isStandby n).getD s.managerIndex
  else s.managerIndex

/-- The kind that the topology gives local link k: 0 uplink, 1 downlink, 2 standby link; none where it fits none. -/
def topoKind (s : State) (k : Nat) : Option Nat :=
  let p := s.linkPeer k
  let me := s.myIndex
  if 16 ≤ p then none
  else if p = s.parentOf me then some 0
  else if s.parentOf p = me then some 1
  else if s.isStandby me ∧ s.parentOf p = s.managerIndex then some 2
  else if s.isStandby p ∧ s.parentOf me = s.managerIndex then some 2
  else none

/-- The ports of local link k, by rank; a boot link is link 0 (log entry 26). -/
def linkPorts (s : State) (k : Nat) : List Nat :=
  match s.chain.boot with
  | some p => if k = 0 ∧ s.hasIngot = false then [p] else []
  | none => if s.hasIngot then (List.range 128).filter fun p => s.role p == 3 && s.portLink s.slot p == k else []

/-- The local link of chain port p; none where p carries no chain traffic. -/
def linkOf (s : State) (p : Nat) : Option Nat := (List.range 16).find? fun k => (s.linkPorts k).contains p

/-- The joined ports of link k, by rank. -/
def joinedPorts (s : State) (k : Nat) : List Nat := (s.linkPorts k).filter s.chain.joined.contains

/-- Is link k UP (R434)? -/
def linkIsUp (s : State) (k : Nat) : Bool := !(s.joinedPorts k).isEmpty

/-- The kind of link k as it stands (R449, R450). -/
def kindOf (s : State) (k : Nat) : Nat := s.f (Reg.CHAIN_LINK_KIND k)

/-- The UP links of a kind. -/
def upLinks (s : State) (kind : Nat) : List Nat := (List.range 16).filter fun k => s.linkIsUp k && s.kindOf k == kind

/-! ### Sending (R435, R437) -/

/-- The queue of a chain frame's type. -/
def chainQueue (type : Nat) : Nat := if type ≤ 5 then 7 else if type ≤ 7 then 6 else if type = 8 then 5 else 0

/-- Does link k carry frames of a type: is the type among those of a boot link, where it is one (R436)? -/
def carries (s : State) (k type : Nat) : Bool :=
  type != 5 && decide (type < 8) || !(s.chain.bootEnds.contains k || s.kindOf k == 3)

/-- Queue a chain frame of part src on port p; a boot link holds no Billets (R436). -/
def chainSendOn (s : State) (p type src dst : Nat) (payload : List Byte) : State :=
  let x : Frame := { kind := .chain type, body := s.chainBody type src dst payload }
  if s.chain.boot = some p ∧ s.hasIngot = false then s.pushFrame p (chainQueue type) { x with since := s.tq } false
  else s.enqueue p (chainQueue type) x

/-- Queue a chain frame of part src on link k: on its lead member (R435); nothing where the link is not UP. -/
def chainSend (s : State) (k type src dst : Nat) (payload : List Byte) : State :=
  match s.joinedPorts k with
  | p :: _ => if s.carries k type then s.chainSendOn p type src dst payload else s
  | [] => s

/-- Queue a chain frame from part src to part dst on every link of a list. -/
def chainSendTo (s : State) (ks : List Nat) (type src dst : Nat) (payload : List Byte) : State :=
  ks.foldl (fun t k => t.chainSend k type src dst payload) s

/-- Queue a link-local chain frame on every link of a list. -/
def chainSendAll (s : State) (ks : List Nat) (type : Nat) (payload : List Byte) : State :=
  s.chainSendTo ks type s.myIndex 0xFF payload

/-- A step for a chain frame takes the oldest frame that stands on port p. -/
def chainTake (s : State) (p : Nat) : State :=
  match (s.port p).rx with
  | x :: _ => s.takeRx p x.bytes
  | [] => s

/-- A frame of part src goes up toward the active manager: on the uplink, or on the boot link (R436, R437). -/
def sendUp (s : State) (type src : Nat) (payload : List Byte) : State :=
  s.chainSendTo (s.upLinks 0 ++ s.upLinks 3) type src s.activeManager payload

/-! ### Roles (R431, R459) -/

/-- CHAIN_PEER of every part as a part becomes active manager: present parts not yet reached, with the link toward each. -/
def resetPeers (s : State) : State :=
  forN 16 (fun n t =>
    let there := t.present n && n != t.myIndex && t.chainRole == 1
    let via (d : Nat) : Option Nat := (List.range 16).find? fun k => t.linkPeer k == d
    let k := ((via n).orElse fun _ => via (t.parentOf n)).getD 0
    t.setReg (Reg.CHAIN_PEER n) (BitVec.ofNat 64 (if there then 2 ^ 30 + k * 2 ^ 16 else 0))) s

/-- Local link k begins: it trains if the image uses it, and is UNUSED otherwise. -/
def linkInit (s : State) (k : Nat) : State :=
  let used := !(s.linkPorts k).isEmpty && s.linkPeer k != 0xFF
  s.setReg (Reg.CHAIN_LINK k) (BitVec.ofNat 64
    (if used then 2 ^ 61 + ((s.topoKind k).getD 0) * 2 ^ 59 + (s.linkPeer k % 16) * 2 ^ 48 else 0))

/-- A selected source that the part's role rules out is given up, as one that is lost (R116, log entry 121). -/
def leaveSources (s : State) : State :=
  let cur := s.f Reg.TB_STATE_SOURCE
  if (s.f Reg.TB_STATE_STATE = 1 ∨ s.f Reg.TB_STATE_STATE = 2) ∧ ∀ x ∈ [TimeSource.ptp, .refsync, .pps, .chain],
      sourceNum x = cur → (s.sourceRank x).isNone then s.selectedLost
  else s

/-- An Ingot becomes active: the part takes its role in the chain, and its links begin to train (R431, R461). -/
def chainActivate (s : State) : State :=
  let strap := s.f Reg.CHAIN_STATE_STRAP_ROLE
  let s1 := (s.setF Reg.CHAIN_STATE_ROLE (strap + 1)).setChain
    { s.chain with boot := none, bootEnds := [], joined := [], failed := [], heard := false, silent := 0 }
  let s2 := if strap = 0 then s1.setF Reg.CHAIN_STATE_EPOCH (max 1 (s1.f Reg.CHAIN_STATE_EPOCH)) else s1
  ((forN 16 (fun k t => t.linkInit k) s2).resetPeers).leaveSources

/-- The part learns of a higher epoch than its own as manager or standby (R451). -/
def depose (s : State) (epoch : Nat) : State :=
  ((s.setF Reg.CHAIN_STATE_ROLE 4).setF Reg.CHAIN_STATE_EPOCH epoch).resetPeers.chainRaise [Flag.CHAIN_DEPOSED]

/-- Does an epoch depose this part? A standby that has obeyed no epoch yet takes its first (log entry 27). -/
def deposes (s : State) (epoch : Nat) : Bool :=
  decide (s.f Reg.CHAIN_STATE_EPOCH < epoch) &&
    (s.chainRole == 1 || (s.chainRole == 2 && s.f Reg.CHAIN_STATE_EPOCH != 0))

/-! ### Training (R434–R436) -/

/-- MEMBERS and STATE of link k follow its joined ports. -/
def showLink (s : State) (k : Nat) (down : Nat) : State :=
  let ps := s.linkPorts k
  let bitsOf := ((List.range ps.length).map fun r => if s.chain.joined.contains (ps.getD r 0) then 2 ^ r else 0).sum
  (s.setF (Reg.CHAIN_LINK_MEMBERS k) bitsOf).setF (Reg.CHAIN_LINK_STATE k) (if bitsOf = 0 then down else 2)

/-- The first failing check of R434 for a TRAIN on port p of link k; 0 where all pass. -/
def trainCause (s : State) (p k : Nat) (t : Train) : Nat :=
  let boot := s.chain.boot = some p ∧ s.hasIngot = false
  let ps := s.linkPorts k
  let kind := s.topoKind k
  let pairs (x : Option Nat) : Bool := match x, t.kind with
    | some 0, some .downlink => true
    | some 1, some .uplink => true
    | some 2, some .standby => true
    | _, _ => false
  -- after a takeover the ends may name the kind of the topology or the one that the link has now (log entry 27)
  -- a boot link's parent end is a downlink of one port, as the link is now (R436, R449)
  let fromBoot := s.kindOf k == 1 && t.kind == some .boot
  let pair := kind.isSome && (pairs kind || pairs (some (s.kindOf k)) || (fromBoot && ps.length == 1))
  let crc := crc32c (s.section s.slot 8 64)
  if ¬ boot ∧ t.index.val ≠ s.linkPeer k then 1
  else if t.names.val ≠ s.myIndex then 2
  else if ¬ boot ∧ fromBoot = false ∧ t.topology.toNat ≠ crc then 3
  else if t.width.val ≠ ps.length then 4
  else if t.rank.val ≠ ps.idxOf p then 5
  else if ¬ boot ∧ pair = false then 6
  else 0

/-- The slots that forwarded cues use (R136). -/
def chainSlots : List Nat := (List.range 512).map (7680 + ·)

/-- The payload of a CUE frame: a slot, and the contents of an arm. -/
def cuePayload (slot : Nat) (arm : Option (List Byte)) : List Byte :=
  leBytes 2 slot ++ (match arm with | some c => 1 :: c | none => [0])

/-- The contents of a slot with the position at which it was armed made absolute (R141, R445). -/
def absoluteSlot (s : State) (i : Nat) : List Byte :=
  let c := s.bytes (0xE800E00000 + 32 * i) 32
  match Tab.find s.cues i with
  | some a => leBytes 4 (putBits (leAt c 0 4) 28 28 0) ++ leBytes 2 a.l ++ leBytes 2 a.t ++ leBytes 6 a.first ++ c.drop 14
  | none => c

/-- A downlink has become UP: the manager sends the state of every chain slot (R445). -/
def cueResync (s : State) (k : Nat) : State :=
  chainSlots.foldl (fun t i =>
    t.chainSendAll [k] 5 (cuePayload i (if t.cueState i = 1 then some (t.absoluteSlot i) else none))) s

/-- The far end of link k trains as a boot link no longer: the link now carries every type, and a manager sends what it
could not send before (R436, R445, log entry 107). -/
def bootEndOver (s : State) (k : Nat) : State :=
  if s.chain.bootEnds.contains k then
    let t := s.setChain { s.chain with bootEnds := s.chain.bootEnds.filter (· != k) }
    if t.chainRole = 1 ∧ t.kindOf k = 1 then t.cueResync k else t
  else s

/-- A TRAIN frame is received (R434, R451). -/
def trainReceived (s0 : State) (p : Nat) (t : Train) : State :=
  let s := s0.chainTake p
  match s.linkOf p with
  | none => s
  | some k =>
    let s0 := if s.deposes t.epoch.toNat then s.depose t.epoch.toNat else s
    let s1 := if s0.chain.boot = some p ∧ s0.hasIngot = false then s0.setF (Reg.CHAIN_LINK_PEER k) t.index.val else s0
    -- an uplink that a takeover has ended is UNUSED: its ports join no more (R449)
    if s1.f (Reg.CHAIN_LINK_STATE k) = 0 then s1
    else if s1.chain.joined.contains p then (if t.kind = some .boot then s1 else s1.bootEndOver k)
    else
      let c := s1.trainCause p k t
      if c = 0 then
        let was := s1.linkIsUp k
        let ends := s1.chain.bootEnds.filter (· != k)
        let s2 := (s1.setChain { s1.chain with
          joined := setAdd s1.chain.joined p, failed := s1.chain.failed.filter (· != p),
          bootEnds := if t.kind = some .boot then setAdd ends k else ends }).showLink k 1
        if was then s2
        else
          let s3 := s2.chainRaise [Flag.CHAIN_LINK_CHANGE]
          if s3.chainRole = 1 ∧ s3.kindOf k = 1 then s3.cueResync k else s3
      else
        let s2 := s1.setF (Reg.CHAIN_LINK_CAUSE k) c
        let s3 := if s2.linkIsUp k then s2 else s2.setF (Reg.CHAIN_LINK_STATE k) 3
        if s3.chain.failed.contains p then s3
        else (s3.setChain { s3.chain with failed := setAdd s3.chain.failed p }).chainRaise [Flag.CHAIN_LINK_MISMATCH]

/-- CHAIN time is lost (R439): where it had qualified, with its flag and what follows for the timebase; else the exchanges
that count toward it begin again. -/
def chainTimeLost (s : State) : State :=
  let t := s.setChain { s.chain with delays := [] }
  if s.time.sources.any fun q => q.src == .chain then (t.chainRaise [Flag.CHAIN_CHAIN_TIME_LOST]).sourceLost .chain else t

/-- n replicas of link k are lost (R446). -/
def replLost (s : State) (k n : Nat) : State :=
  if n = 0 then s else (s.satF (Reg.CHAIN_LINK_STATS_REPL_DROPS k) n).chainRaise [Flag.CHAIN_REPL_DROP]

/-- A received frame (R376): a REPLICA that the Crucible refuses as it comes in on a joined chain port is lost (R446). The MAC has
counted it, and it does not stand on the port. -/
def portReceive (s : State) (p : Nat) (frame : List Byte) (fcsOk : Bool) (billet : Ecc) : State :=
  let t := s.portRxFrame p frame fcsOk billet
  let replica := beAt frame 12 2 = s.f Reg.CHAIN_CFG_ETHERTYPE ∧ beAt frame 14 1 = 9
  let refused := (s.takeOneByOne p (billetsOf (min frame.length 9216))).1 < billetsOf (min frame.length 9216)
  match s.linkOf p with
  | some k =>
    if s.role p = 3 ∧ s.chain.joined.contains p ∧ replica ∧ refused ∧
        t.f (Reg.PORT_MAC_RX_RX_FRAMES p) ≠ s.f (Reg.PORT_MAC_RX_RX_FRAMES p) then t.replLost k 1 else t
  | none => t

/-- The replicas that wait in the queues of port p. -/
def replicasOn (s : State) (p : Nat) : Nat :=
  ((s.port p).queues.flatten.filter fun x => match x.kind with | .chain 9 => true | _ => false).length

/-- Port p leaves its link: what is queued on it is discarded, replicas counted as lost (R434, R435, R446). -/
def portLeaves (s : State) (p : Nat) : State :=
  match s.linkOf p with
  | none => s
  | some k =>
    let s0 := s.setChain { s.chain with joined := s.chain.joined.filter (· != p), failed := s.chain.failed.filter (· != p) }
    if s.chain.joined.contains p = false then s0
    else
      let qs := (s0.port p).queues
      let isChain (x : Frame) : Bool := match x.kind with | .chain _ | .host => true | _ => false
      let gone := (qs.flatten.filter isChain)
      let repl := s0.replicasOn p
      let s1 := ((s0.setPort p { s0.port p with queues := qs.map fun q => q.filter fun x => !isChain x }).freeBillets p
        ((gone.map fun x => billetsOf x.length).sum)).judgeHeads p
      let s2 := forN 8 (fun q t =>
        let n := ((qs.getD q []).filter isChain).length
        if n = 0 then t else (t.satF (Reg.QUEUE_DROPS_LINK_DOWN p q) n).portRaise p [Flag.PORT_STATUS_LINK_DOWN_DROP]) s1
      let s4 := (s2.replLost k repl).showLink k 1
      if s4.linkIsUp k then s4
      else
        let s5 := (s4.satF (Reg.CHAIN_LINK_STATS_DOWNS k) 1).chainRaise [Flag.CHAIN_LINK_CHANGE]
        if s5.kindOf k = 0 ∨ s5.kindOf k = 3 then s5.chainTimeLost else s5

/-- Ports whose PCS link is down leave their links, or end their training attempt (R434). -/
def chainFollow (s : State) : State :=
  (s.chain.joined ++ s.chain.failed).foldl (fun t p => if t.linkUp p then t else t.portLeaves p) s

/-- A write of PQ_LANE_CFG, with what a dropped link does to the chain. -/
def laneCfgThen : WriteEffect := fun r x new d mask s => (laneCfgWrite r x new d mask s).chainFollow

/-- Each chain port with link up sends a TRAIN frame every 1 ms (R434). A boot link names the parent that it has heard
(log entry 26). -/
def trainTx (s : State) (p : Nat) : State :=
  match s.linkOf p with
  | some k =>
    if s.linkUp p then
      let peer := if s.hasIngot then s.linkPeer k else s.f (Reg.CHAIN_LINK_PEER k)
      s.chainSendOn p 1 s.myIndex 0xFF ([BitVec.ofNat 8 s.myIndex, BitVec.ofNat 8 peer, BitVec.ofNat 8 ((s.linkPorts k).idxOf p),
        BitVec.ofNat 8 (s.linkPorts k).length, BitVec.ofNat 8 (s.kindOf k)] ++ leBytes 4 (crc32c (s.section s.slot 8 64)))
    else s
  | none => s

/-! ### Time (R438, R439) -/

/-- Does a frame of an epoch belong to an epoch that this part no longer obeys (R450)? -/
def oldEpoch (s : State) (e : Nat) : Bool := decide (e < s.f Reg.CHAIN_STATE_EPOCH)

/-- A TIME, CUE or TUNNEL frame of a higher epoch has been seen: the part obeys it from now on (R450). One that would depose the
part leaves that to a TRAIN or HEARTBEAT (R451, log entry 134). -/
def seeEpoch (s : State) (e : Nat) : State :=
  if s.f Reg.CHAIN_STATE_EPOCH < e ∧ s.deposes e = false then s.setF Reg.CHAIN_STATE_EPOCH e else s

/-- A child starts an exchange on an UP uplink or boot link; t1 is put into the request as it leaves. -/
def timeExchangeStart (s : State) (k : Nat) : State :=
  if s.linkIsUp k ∧ (s.kindOf k = 0 ∨ s.kindOf k = 3) ∧ s.chainRole ≠ 4 then s.chainSendAll [k] 2 (leBytes 8 s.tq) else s

/-- A parent returns a TIME request with its stamps: t2 of its reception; t3 is put into the reply as it leaves. -/
def timeRequestReceived (s0 : State) (p epoch t1 : Nat) : State :=
  let t2 := match (s0.port p).rx with | x :: _ => x.tq | [] => s0.tq
  let s := s0.chainTake p
  if s.chain.joined.contains p ∧ s.oldEpoch epoch = false ∧ s.chainRole ≠ 4 then
    (s.seeEpoch epoch).chainSendOn p 2 s.myIndex 0xFF (leBytes 8 t1 ++ leBytes 8 t2 ++ leBytes 8 s.tq)
  else s

/-- A child takes a TIME reply: stamps in ps. -/
def timeReplyReceived (s0 : State) (k epoch : Nat) (t1 t2 t3 t4 : Int) : State :=
  match s0.joinedPorts k with
  | [] => s0
  | p :: _ =>
    let z := s0.chainTake p
    if (z.kindOf k = 0 ∨ z.kindOf k = 3) ∧ z.oldEpoch epoch = false then
      let s := z.seeEpoch epoch
      let r := (s.linkPorts k).idxOf p
      let a := 16 * sgn 8 (bits (s.reg (Reg.CHAIN_LINK_ASYM k)).toNat (8 * r + 7) (8 * r))
      let delay := roundDiv ((t4 - t1) - (t3 - t2)) 2
      let offset := (t4 - t3) - delay - roundDiv a 2
      let d := (clampI delay 0 0xFFFFFFFF).toNat
      let s1 := ((s.setF Reg.CHAIN_TIME_DELAY d).setF Reg.CHAIN_TIME_OFFSET
        (unsgn 32 (clampI offset (-2147483648) 2147483647))).setF (Reg.CHAIN_LINK_DELAY k) d
      let near := s1.chain.delays.takeWhile fun x => decide ((x - delay).natAbs ≤ 2000)
      let ds := (delay :: near).take 16
      let s2 := s1.setChain { s1.chain with delays := ds }
      let ns := roundDiv offset 1000
      if s2.time.sources.any fun q => q.src == .chain then
        (if s2.f Reg.TB_STATE_SOURCE = 4 then s2.measurement ns (roundDiv delay 1000).toNat else s2)
      else if ds.length = 16 ∧ (ds.all fun x => ds.all fun y => decide ((x - y).natAbs ≤ 2000)) then
        s2.sourceQualified ⟨.chain, 0, 0, ns⟩
      else s2
    else z

/-! ### Heartbeat and status (R440, R447, R450) -/

/-- The payload of a HEARTBEAT. -/
def beatPayload (n d l : Nat) : List Byte := leBytes 4 n ++ leBytes 4 d ++ leBytes 2 l

/-- What the chain does at a reference line start (R447, R448, R459). -/
def chainLineStart (s : State) : State :=
  match s.chainRole with
  | 1 =>
    let s1 := forN 16 (fun n t => if t.f (Reg.CHAIN_PEER_STATE n) = 0 then t else t.satF (Reg.CHAIN_PEER_LAG n) 1) s
    s1.chainSendAll (s1.upLinks 1 ++ s1.upLinks 2) 3 (beatPayload s.time.n s.time.d s.time.l)
  | 2 => (s.setChain { s.chain with silent := s.chain.silent + 1 }).sendUp 4 s.myIndex [BitVec.ofNat 8 s.myIndex]
  | 3 => s.sendUp 4 s.myIndex [BitVec.ofNat 8 s.myIndex]
  | _ => if s.chain.boot.isSome then s.sendUp 4 s.myIndex [BitVec.ofNat 8 s.myIndex] else s

/-- The rate and line count of a HEARTBEAT are compared with the live ones (R440). -/
def compareRate (s : State) (h : Heartbeat) : State :=
  if (h.n, h.d, h.lRef) ≠ (s.time.n, s.time.d, s.time.l) then
    (s.satF Reg.CHAIN_STATS_REF_MISMATCHES 1).chainRaise [Flag.CHAIN_REF_MISMATCH]
  else s

/-- A HEARTBEAT is received. -/
def heartbeatReceived (s0 : State) (p : Nat) (h : Heartbeat) : State :=
  let s := s0.chainTake p
  let e := h.epoch.toNat
  match s.linkOf p with
  | none => s
  | some k =>
    if s.chain.joined.contains p = false ∨ s.oldEpoch e then s
    else if s.deposes e then (s.compareRate h).depose e
    else
      let higher := decide (s.f Reg.CHAIN_STATE_EPOCH < e)
      let s1 := s.setF Reg.CHAIN_STATE_EPOCH e
      -- a higher epoch on a standby link: that link becomes the uplink
      let s2 := if higher ∧ s1.kindOf k = 2 then
          let t := (forN 16 (fun j t => if t.kindOf j = 0 ∧ t.f (Reg.CHAIN_LINK_STATE j) ≠ 0 then t.setF (Reg.CHAIN_LINK_KIND j) 2 else t) s1).setF
            (Reg.CHAIN_LINK_KIND k) 0
          t.setChain { t.chain with delays := [] }
        else s1
      let s3 := s2.setChain { s2.chain with heard := true, silent := 0 }
      let s4 := s3.compareRate h
      -- a deposed part sends no HEARTBEAT (R451)
      if s4.kindOf k = 0 ∧ s4.chainRole ≠ 4 then
        s4.chainSendAll (s4.upLinks 1 ++ s4.upLinks 2) 3 (beatPayload h.n h.d h.lRef)
      else s4

/-- A STATUS of a part is received. -/
def statusReceived (s0 : State) (p src : Nat) : State :=
  let s := s0.chainTake p
  if s.chain.joined.contains p = false then s
  else if s.chainRole = 1 then
    (if s.f (Reg.CHAIN_PEER_STATE src) = 0 then s
     else (s.setF (Reg.CHAIN_PEER_STATE src) 2).setF (Reg.CHAIN_PEER_LAG src) 0)
  else if s.chainRole = 2 ∨ s.chainRole = 3 then s.sendUp 4 src [BitVec.ofNat 8 src]
  else s

/-- Three reference frames have passed without a STATUS of part n, as CHAIN_PEER counts them: Keeper firmware, where it
runs, marks the part LOST (R447, R525, R526, log entry 108). -/
def peerLost (s : State) (n : Nat) : State :=
  if s.chainRole = 1 ∧ s.f (Reg.CHAIN_PEER_STATE n) = 2 ∧ min (3 * s.time.l) 0xFFFF ≤ s.f (Reg.CHAIN_PEER_LAG n) ∧ s.aon.keeperUp then
    (s.setF (Reg.CHAIN_PEER_STATE n) 3).chainRaise [Flag.CHAIN_PEER_LOST]
  else s

/-! ### Takeover (R448, R449) -/

/-- A write of CHAIN_TAKEOVER. -/
def chainTakeoverWrite : WriteEffect := fun _ _ _ d _ s =>
  if bits d 15 0 = 0x7E11 ∧ s.chainRole = 2 then s.setChain { s.chain with forced := some s.fclk } else s

/-- May the standby take over (R448), at a reference line start, where a write of CHAIN_TAKEOVER in an earlier FCLK forces
it or the conditions hold? -/
def mayTakeOver (s : State) : Bool :=
  s.chainRole == 2 && s.time.lineStart && (s.chain.forced.any (· != s.fclk) ||
    (s.fb Reg.CHAIN_CFG_AUTO_TAKEOVER && s.chain.heard && decide (3 * s.time.l ≤ s.chain.silent)))

/-- The standby takes over at a reference line start. -/
def takeover (s : State) : State :=
  if s.mayTakeOver then
    let s1 := ((s.setF Reg.CHAIN_STATE_EPOCH (min 0xFFFF (s.f Reg.CHAIN_STATE_EPOCH + 1))).setF Reg.CHAIN_STATE_ROLE 1).satF
      Reg.CHAIN_STATS_TAKEOVERS 1
    let s2 := forN 16 (fun k t =>
      if t.f (Reg.CHAIN_LINK_STATE k) = 0 then t
      else match t.kindOf k with
        | 2 => t.setF (Reg.CHAIN_LINK_KIND k) 1
        | 0 => ((t.linkPorts k).foldl portLeaves t).setReg (Reg.CHAIN_LINK k) 0
        | _ => t) s1
    let s3 := (s2.setChain { s2.chain with forced := none, silent := 0, heard := false, delays := [] }).resetPeers
    let s4 := (s3.sourceLost .chain).reselect.chainRaise [Flag.CHAIN_TAKEOVER]
    s4.chainSendAll ((List.range 16).filter s4.linkIsUp) 3 (beatPayload s.time.n s.time.d s.time.l)
  else s

/-! ### Doorbells (R444) -/

/-- A mailbox event whose doorbell target is identity 15. -/
def doorbell15 (s : State) : State := if s.chainRole = 1 then s else s.sendUp 7 s.myIndex [BitVec.ofNat 8 s.myIndex]

/-- A DOORBELL frame is received. -/
def doorbellReceived (s0 : State) (p src : Nat) : State :=
  let s := s0.chainTake p
  if s.chain.joined.contains p = false then s
  else if s.chainRole = 1 then (s.raise Reg.CHAIN_DOORBELL src).chainRaise [Flag.CHAIN_DOORBELL]
  else s.sendUp 7 src [BitVec.ofNat 8 src]

/-! ### The host transmit ring (R383, R398, R437) -/

/-- The port in whose Q5 the frames of port p's host transmit ring go: p itself; for a CHAIN port the lead member of its
link, where the link is UP and carries HOST frames (R435, R437). -/
def htxPort (s : State) (p : Nat) : Option Nat :=
  if s.role p = 0 then none
  else if s.role p = 3 then (s.linkOf p).bind fun k => if s.carries k 8 then (s.joinedPorts k).head? else none
  else some p

/-- The slots of port p's host transmit ring that are not yet taken. -/
def htxLeft (s : State) (p : Nat) : Nat := (s.f (Reg.HTX_PROD_INDEX p) + 2 ^ 32 - s.f (Reg.HTX_CONS_INDEX p)) % 2 ^ 32

/-- The slot at HTX_CONS: it is skipped, queued, or waits where the Crucible refuses it or no port takes it (R378, R383). A
ring that is not in use skips every slot (R398, log entry 105). -/
def htxSlot (s : State) (p : Nat) : State :=
  let (a, s1) := s.ringSlot (s.f (Reg.HTX_BASE_BASE p)) (s.f (Reg.HTX_CFG_SLOTS p)) (s.f (Reg.HTX_CONS_INDEX p))
  let len := if s.capacity < a + 9472 then 0 else s.rd a 2
  let slotFrame := s.bytes (a + 16) len
  -- on a CHAIN port the frame travels in a HOST chain frame, which no more than 9,216 bytes may hold (R437)
  let frame := if s.role p = 3 then s.chainBody 8 s.myIndex 0xFF slotFrame else slotFrame
  if s.fb (Reg.HTX_CFG_EN p) = false ∨ len < 14 ∨ 9212 < len ∨ 9212 < frame.length ∨ s.hostIsBtl p slotFrame then
    ((s1.satF (Reg.HTX_BAD_COUNT p) 1).portRaise p [Flag.PORT_STATUS_HTX_BAD]).addF (Reg.HTX_CONS_INDEX p) 1
  else
    match s.htxPort p with
    | none => s
    | some t =>
      let x : Frame := { kind := .host, body := frame }
      if s.cruAdmits t (billetsOf x.length) false then
        ((s1.request .ingest 14 a (16 + len)).enqueue t 5 x).addF (Reg.HTX_CONS_INDEX p) 1
      else s.cruRefused t

/-- The ring's slots are taken in order, at most n of them, until one waits (R383). -/
def htxDrain (s : State) (p n : Nat) : State :=
  match n with
  | 0 => s
  | k + 1 =>
    if s.sourceStalled 14 then s
    else
      let t := s.htxSlot p
      if t.htxLeft p = s.htxLeft p then t else t.htxDrain p k

/-- A write of HTX_PROD: the part queues the new slots in order, behind one that waits (R383). -/
def htxProdWrite : WriteEffect := fun _ x new _ _ s =>
  let p := portOf x
  let s1 := s.setReg x.addr (BitVec.ofNat 64 new)
  if s.htxLeft p = 0 then s1.htxDrain p (s1.htxLeft p) else s1

/-- What the Crucible has refused on port p is judged again (R378). -/
def crucibleRetry (s : State) (p : Nat) : State :=
  let t := if (s.port p).retry.isEmpty then s else s.retryFrames p
  t.htxDrain p (t.htxLeft p)

/-- The oldest frame on port p goes to its host receive ring, as these bytes; a frame that none on the port stands for holds no
Billets. -/
def hostTake (s : State) (p : Nat) (frame : List Byte) : State :=
  let (x, t) := s.rxTakeOut p (match (s.port p).rx with | y :: _ => y.bytes | [] => frame)
  t.hostReceive p 0 { x with bytes := frame }

/-- A HOST frame is delivered to the peer's host receive ring (R437). -/
def chainHostFrame (s : State) (p : Nat) (frame : List Byte) : State :=
  if s.chain.joined.contains p ∧ (s.linkOf p).any fun k => s.carries k 8 then s.hostTake p frame
  else s.chainTake p

/-- A bad or unknown chain frame is discarded (R437). -/
def chainFrameDiscard (s : State) (p : Nat) : State :=
  match s.linkOf p with
  | some k => (s.chainTake p).satF (Reg.CHAIN_LINK_STATS_RX_BAD k) 1
  | none => s

end State
end Sys2Proof.Machine
end

