-- ==== Sys2Proof/Machine/Cue.lean ====
section
/-! DEFINITION. Cues (R136–R150, R445): the judgement of an arm, lateness, disarming, coming due, running, and cues that
the chain forwards. The actions themselves stand with the commands of their names. -/

namespace Sys2Proof.Machine
namespace State

/-! ### Slots and status entries (R136–R139) -/

/-- The address of slot i, and of its status entry. -/
def cueSlot (i : Nat) : Nat := 0xE800E00000 + 32 * i
def cueEntry (i : Nat) : Nat := 0xE800E40000 + 16 * i

/-- Set flags of the CUE status. -/
def cueRaise (s : State) (flags : List Nat) : State := s.raiseAll Reg.CUE_BLOCK_STATUS flags

/-- Write one word of the status entry of slot i: word 0 or 1. -/
def cueStatus (s : State) (i word v : Nat) : State :=
  (s.wr (cueEntry i + 8 * word) 8 v).clearPoison (cueEntry i + 8 * word) 8

/-- Set bits hi..lo of word 0 of the status entry. -/
def cueBits (s : State) (i hi lo v : Nat) : State := s.cueStatus i 0 (putBits (s.rd (cueEntry i) 8) hi lo v)

/-- Set STATE and CODE of slot i. -/
def cueEnd (s : State) (i st code : Nat) : State := (s.cueBits i 63 60 st).cueBits i 59 52 code

/-- Slot i is no longer ARMED. -/
def cueUnarm (s : State) (i : Nat) : State :=
  ({ s with cues := Tab.del s.cues i }).setF Reg.CUE_ARMED_COUNT (s.f Reg.CUE_ARMED_COUNT - 1)

/-- A field of slot i. -/
def cueNum (s : State) (i o n : Nat) : Nat := s.rd (cueSlot i + o) n

/-- ACTION, LATE_POLICY, CHAIN, RASTER and PERIOD of slot i. -/
def cueAction (s : State) (i : Nat) : Nat := bits (s.cueNum i 0 4) 31 29
def cueDiscards (s : State) (i : Nat) : Bool := bit (s.cueNum i 0 4) 27
def cueChain (s : State) (i : Nat) : Bool := bit (s.cueNum i 0 4) 26
def cueRaster (s : State) (i : Nat) : Nat := bits (s.cueNum i 0 4) 25 21
def cuePeriod (s : State) (i : Nat) : Nat := bits (s.cueNum i 0 4) 15 0

/-- The words of slot i hold an uncorrectable error: it is recorded, and the slot becomes IDLE (R514). -/
def cueSpoiled (s : State) (i : Nat) : State :=
  let s1 := s.slabUe 3 (0xE00000 + 32 * i)
  (if s.cueState i = 1 then s1.cueUnarm i else s1).cueBits i 63 60 0

/-! ### Positions (R141, R147) -/

/-- The live line count of a cue's raster. -/
def cueLines (s : State) (ras : Nat) : Nat := if ras < 16 then (s.liveTiming ras).vTotal else s.time.l

/-- The position from which a relative cue counts. -/
def cueBase (s : State) (ras : Nat) : RP :=
  match s.cuePos ras with
  | some p => p
  | none => match (s.raster ras).mode with | .unstarted k | .hit k => ⟨k, 0, 0⟩ | _ => ⟨0, 0, 0⟩

/-- The position of the cue in slot i, were it armed now (R141). -/
def cueTarget (s : State) (i : Nat) : RP :=
  let l := s.cueNum i 4 2
  let t := s.cueNum i 6 2
  let f := s.cueNum i 8 6
  if bit (s.cueNum i 0 4) 28 then
    let b := s.cueBase (s.cueRaster i)
    let n := max 1 (s.cueLines (s.cueRaster i))
    let t2 := b.t + t
    let l2 := b.l + l + t2 / 65536
    ⟨b.f + f + l2 / n, l2 % n, t2 % 65536⟩
  else ⟨f, l, t⟩

/-- Does the position lie at least two reference lines and 20 µs ahead (R140 step 10), under the live timing and the ideal
starts of R125? Compared as exact fractions of T_Q. -/
def cueFarOff (s : State) (ras : Nat) (p : RP) : Bool :=
  let (num, den) : Int × Nat :=
    if ras < 16 then
      let x := s.liveTiming ras
      let v := max 1 x.vTotal
      (s.idealNum x p.f * (v * 65536 : Nat) + ((p.l * 65536 + p.t) * 3 * s.time.d * secQ : Nat), s.idealDen x * v * 65536)
    else (((p.f * s.time.l * 65536 + p.l * 65536 + p.t) * s.time.d * secQ : Nat), s.time.n * s.time.l * 65536)
  let gap : Int := num - (s.tq * den : Nat)
  decide ((20000 * 65536 * den : Nat) ≤ gap) && decide ((2 * s.time.d * secQ * den : Nat) ≤ gap * (s.time.n * s.time.l : Nat))

/-! ### The judgement of an arm (R140) -/

/-- Step 3: a reserved field is not zero. -/
def cueReserved (s : State) (i : Nat) : Bool :=
  let op (o n : Nat) : Bool := s.cueNum i o n != 0
  bits (s.cueNum i 0 4) 20 16 != 0 || op 0x0E 2 ||
  match s.cueAction i with
  | 1 => op 0x17 1 || op 0x18 8
  | 2 => op 0x15 3 || op 0x1C 4
  | 3 => op 0x11 7 || op 0x18 8
  | 4 | 5 => op 0x11 1 || op 0x14 4 || op 0x18 8
  | 6 => op 0x11 7
  | _ => false

/-- Step 7: the operand is not valid. -/
def cueBadOperand (s : State) (i : Nat) : Bool :=
  let b := s.cueNum i 0x10 1
  match s.cueAction i with
  | 1 => s.cueNum i 0x10 8 == 0
  | 2 => s.cueNum i 0x10 5 / 2 ^ 28 != 0xF00 || s.cueNum i 0x10 5 % 4 != 0
  | 3 => decide (1 < b)
  | 4 => decide (3 < b)
  | 5 => decide (63 < b)
  | _ => decide (19 < b)

/-- The first failing step of 2–8, as a code; 0 where all pass. -/
def cueRefusal (s : State) (i : Nat) : Nat :=
  let a := s.cueAction i
  let ras := s.cueRaster i
  let ch := s.cueNum i 0x10 1
  if s.hasIngot = false then 2
  else if s.cueReserved i then 3
  else if a = 0 ∨ a = 7 then 4
  else if 16 < ras ∨ (ras < 16 ∧ s.enabled ras = false) then 5
  else if s.cueLines ras ≤ s.cueNum i 4 2 then 6
  else if s.cueBadOperand i then 7
  else if a = 5 ∧ (s.fb (Reg.MB_BIND_EN ch) = false ∨ s.f (Reg.MB_BIND_SENDER ch) ≠ 9) then 8
  else 0

/-- Steps 9 and 10, for an arm that is not a forwarded one. -/
def cueChainRefusal (s : State) (i : Nat) : Nat :=
  if s.cueChain i = false then 0
  else if s.chainRole ≠ 1 ∨ i < 7680 then 9
  else if s.cueFarOff (s.cueRaster i) (s.cueTarget i) = false then 10
  else 0

/-- A refused arm (R140, R160). -/
def cueRefuse (s : State) (i code : Nat) : State :=
  let s1 := ((s.setF Reg.CUE_ARM_LOG_SLOT i).setF Reg.CUE_ARM_LOG_CODE code).cueRaise [Flag.CUE_ARM_REFUSED]
  if code = 1 then s1 else s1.cueEnd i 6 code

/-- The first frame f + m·p, m ≥ 1, whose position on line l, tick t is later than cur (R142, R146). -/
def nextFrame (p : RP) (period : Nat) (cur : RP) : Nat :=
  let least := if RP.le ⟨cur.f, p.l, p.t⟩ cur then cur.f + 1 else cur.f
  p.f + period * max 1 (ceilDiv (least - p.f) (max 1 period))

/-- Slot i is ARMED, and found late or not (R141, R142). -/
def cueArmed (s : State) (i : Nat) : State :=
  let ras := s.cueRaster i
  let p := s.cueTarget i
  let per := s.cuePeriod i
  let x : ArmedCue := { raster := ras, first := p.f, f := p.f, l := p.l, t := p.t, period := per }
  let s1 := ((s.cueEnd i 1 0).cueBits i 31 0 0).setF Reg.CUE_ARMED_COUNT (s.f Reg.CUE_ARMED_COUNT + 1)
  let put (y : ArmedCue) (t : State) : State := { t with cues := Tab.put t.cues i y }
  match s.cuePos ras with
  | some cur =>
    if RP.le p cur then
      if s.cueDiscards i then
        let s2 := (s1.satF Reg.CUE_STATS_LATE_DISCARDS 1).cueRaise [Flag.CUE_LATE_DISCARD]
        if per = 0 then ((put x s2).cueUnarm i).cueEnd i 4 0x0B
        else (put { x with f := nextFrame p per cur } s2).cueBits i 59 52 0x0B
      else put { x with due := some s.fclk, late := true } s1
    else put x s1
  | none => put x s1

/-- Forward an arm or a disarm of slot i over every downlink (R149, R445). -/
def cueForward (s : State) (i : Nat) (arm : Bool) : State :=
  (List.range 16).foldl (fun t k =>
    if t.kindOf k = 1 ∧ t.linkPeer k ≠ 0xFF ∧ t.linkPorts k ≠ [] then
      if t.linkIsUp k ∧ t.carries k 5 then t.chainSendAll [k] 5 (cuePayload i (if arm then some (t.absoluteSlot i) else none))
      else t.satF (Reg.CHAIN_LINK_STATS_CUE_UNSENT k) 1
    else t) s

/-- An arm of slot i (R140). -/
def cueArm (s : State) (i : Nat) : State :=
  if s.cueState i = 1 then s.cueRefuse i 1
  else if s.poisoned (cueSlot i) 32 then s.cueSpoiled i
  else if s.cueRefusal i ≠ 0 then s.cueRefuse i (s.cueRefusal i)
  else if s.cueChainRefusal i ≠ 0 then s.cueRefuse i (s.cueChainRefusal i)
  else if s.cueChain i then (s.cueArmed i).cueForward i true
  else s.cueArmed i

/-! ### Disarming (R143) -/

/-- Has an armed cue come due, or does it in this FCLK with the frame that its raster starts (R144, R147)? -/
def comesDue (s : State) (x : ArmedCue) : Bool :=
  x.due.isSome || (decide (x.raster < 16) &&
    match s.startsNow x.raster with | some k => RP.le ⟨x.f, x.l, x.t⟩ ⟨k, 0, 0⟩ | none => false)

/-- A disarm of slot i on this part alone: a cue that has come due runs first; a periodic one that has just run ends as
its run left it (R143). -/
def cueDisarmHere (s : State) (i : Nat) : State :=
  match Tab.find s.cues i with
  | none => s
  | some x =>
    if s.comesDue x then
      { s with cues := Tab.put s.cues i { x with once := true, due := some (x.due.getD s.fclk) } }
    else
      let st := match x.ranIn with | some (d, st) => if d = s.fclk then st else 0 | none => 0
      (s.cueUnarm i).cueBits i 63 60 st

/-- A disarm of slot i; a chain-flagged one is forwarded (R149). -/
def cueDisarm (s : State) (i : Nat) : State :=
  let s1 := s.cueDisarmHere i
  if s.cueState i = 1 ∧ s.cueChain i ∧ s.chainRole = 1 ∧ 7680 ≤ i then s1.cueForward i false else s1

/-- A write of CUE_ARM. -/
def cueArmWrite : WriteEffect := fun _ _ _ d _ s => if bit d 31 then s.cueDisarm (bits d 12 0) else s.cueArm (bits d 12 0)

/-! ### The order of runs (R144) -/

/-- No cue that has come due stands before slot i with due FCLK d (R144). -/
def cueFirst (s : State) (i d : Nat) : Bool :=
  s.cues.all fun c => match c.2.due with | some e => c.1 == i || decide (d < e) || (d == e && decide (i < c.1)) | none => true

/-! ### Running (R144–R146) -/

/-- What a cue's action answers: the code of its failure, 0 for none; a commit's sequence number; the state. -/
structure CueRun where
  code : Nat
  seq : Nat
  state : State

/-- Record the run of the cue x of slot i (R139, R142, R144, R146): crowded, failed with a code, or well. A cue that is both
crowded and failed shows the failure's code (log entry 122); a periodic one whose action fails stays ARMED, and counts and flags
the failure (log entry 123). -/
def cueRan (s : State) (i : Nat) (x : ArmedCue) (cur : RP) (crowded : Bool) (seq code : Nat) : State :=
  let s1 := ((s.cueBits i 31 0 (satAdd 32 (bits (s.rd (cueEntry i) 8) 31 0) 1)).cueBits i 47 32 seq).cueStatus i 1
    (cur.l % 2 ^ 16 * 2 ^ 48 + cur.f % 2 ^ 48)
  let s2 := if x.late then (s1.satF Reg.CUE_STATS_LATE_RUNS 1).cueRaise [Flag.CUE_LATE_RUN] else s1
  let s3 := if crowded then (s2.satF Reg.CUE_STATS_CROWDED 1).cueRaise [Flag.CUE_CROWDED] else s2
  let s4 := if code = 0 then s3 else (s3.satF Reg.CUE_STATS_FAILED 1).cueRaise [Flag.CUE_CUE_FAILED]
  let shown := if code = 0 ∧ crowded then 0x10 else code
  let st := if code ≠ 0 then 5 else if x.late then 3 else 2
  if x.period = 0 ∨ x.once then (s4.cueUnarm i).cueEnd i st shown
  else
    let y : ArmedCue := { x with f := nextFrame ⟨x.f, x.l, x.t⟩ x.period cur, due := none, late := false, ranIn := some (s.fclk, st) }
    { s4.cueBits i 59 52 shown with cues := Tab.put s4.cues i y }

/-! ### A raster that a swap disables (R148) -/

/-- The cues on raster m end FAILED with code RASTER_GONE. -/
def rasterGone (s : State) (m : Nat) : State :=
  (s.cues.filter fun c => c.2.raster == m).foldl (fun t c =>
    (((t.cueUnarm c.1).cueEnd c.1 5 0x0C).satF Reg.CUE_STATS_FAILED 1).cueRaise [Flag.CUE_RASTER_GONE]) s

/-! ### The run -/

/-- May the cue of slot i run now as one with an action of the given number? It has come due, no cue due before it waits,
fewer than 32 have run in this FCLK (R144), and every STP of the FCLK has been taken (R29). -/
def cueRuns (s : State) (i kind : Nat) (x : ArmedCue) : Bool :=
  (match x.due with | some d => s.cueFirst i d | none => false) && s.cueAction i == kind && decide (s.ran < 32) &&
    (List.range 16).all fun m => !s.atStp m

/-- The cue of slot i, with an action of the given number, runs in this FCLK (R144, R145). A late cue is not crowded, however
long others hold it back (log entry 124). Where its raster has gone back behind the cue's position while it waited, the position
recorded is the cue's own (log entry 126). -/
def runCue (s : State) (i kind : Nat) (act : State → CueRun) : State :=
  match Tab.find s.cues i with
  | none => s
  | some x =>
    if s.cueRuns i kind x then
      if s.poisoned (cueSlot i) 32 then s.cueSpoiled i
      else
        let p : RP := ⟨x.f, x.l, x.t⟩
        let cur := match s.cuePos x.raster with | some c => if RP.le c p then p else c | none => p
        let r := act { s with ran := s.ran + 1, cues := Tab.del s.cues i }
        let s1 := r.state.cueRan i x cur (decide (x.due.getD s.fclk < s.fclk) && !x.late) r.seq r.code
        -- a periodic swap cue may have taken its own raster away (R148)
        if x.raster < 16 ∧ s1.enabled x.raster = false then s1.rasterGone x.raster else s1
    else s

/-- The operands of the actions (R138). -/
def cueMask (s : State) (i : Nat) : Nat := s.cueNum i 0x10 8
def cueWriteAddr (s : State) (i : Nat) : Nat := s.cueNum i 0x10 5
def cueData (s : State) (i : Nat) : Nat := s.cueNum i 0x18 4
def cueByte (s : State) (i : Nat) : Nat := s.cueNum i 0x10 1
def cueHalf (s : State) (i : Nat) : Nat := s.cueNum i 0x12 2
def cueValue (s : State) (i : Nat) : Nat := s.cueNum i 0x18 8

/-- COMMIT: a commit is registered for the units of MASK. -/
def actCommit (i : Nat) (s : State) : CueRun :=
  let (seq, t) := s.registerCommit (s.cueMask i)
  ⟨0, seq, t⟩

/-- LOAD_EXPECT. -/
def actLoadExpect (i : Nat) (s : State) : CueRun := ⟨0, 0, s.loadExpect (s.cueByte i) (s.cueValue i)⟩

/-! ### Forwarded cues (R149, R150, R445) -/

/-- A CUE frame is received on link k. -/
def chainCueFrame (s0 : State) (k : Nat) (f : CueFrame) : State :=
  match s0.joinedPorts k with
  | [] => s0
  | p :: _ =>
    let y := s0.chainTake p
    let i := f.slot.val
    if (y.chainRole = 2 ∨ y.chainRole = 3) ∧ y.kindOf k = 0 ∧ y.oldEpoch f.epoch.toNat = false ∧ 7680 ≤ i then
      let s := y.seeEpoch f.epoch.toNat
      let was := s.cueState i == 1
      let s1 := match f.contents with
        | none => s.cueDisarmHere i
        | some c =>
          let t1 := if was then ((s.cueUnarm i).satF Reg.CHAIN_STATS_CUE_REPLACED 1).chainRaise [Flag.CHAIN_CUE_REPLACED] else s
          let t2 := (t1.store (cueSlot i) (c.take 32)).clearPoison (cueSlot i) 32
          if t2.cueRefusal i ≠ 0 then t2.cueRefuse i (t2.cueRefusal i) else t2.cueArmed i
      s1.chainSendAll (s1.upLinks 1) 5 (cuePayload i f.contents)
    else y

end State
end Sys2Proof.Machine
end

