-- ==== Sys2Proof/Machine/Validate.lean ====
section
/-! DEFINITION. The validation of an Ingot structure image (R66–R81): the checks in the order of R81's table, each with
the record and the entry that it reports. -/

namespace Sys2Proof.Machine

/-- What a validation finds (R81, R99): the code, ERR_SECTION, ERR_ENTRY and SIG. -/
structure ImageResult where
  code : Nat
  sec : Nat := 0xFF
  ent : Nat := 0xFF
  sig : Nat := 0
  deriving DecidableEq, Repr

/-- The payload bytes of the required types 1 to 9, and the bytes of their entries (R70). -/
def payloadSize (ty : Nat) : Nat := [0, 16, 128, 128, 512, 128, 1024, 256, 128, 256].getD ty 0
def entrySize (ty : Nat) : Nat := [1, 16, 4, 16, 32, 4, 8, 8, 4, 4].getD ty 1

/-- Is a reserved field of entry e of a record of type ty not zero (R71–R79)? g reads the entry. -/
def entryReserved (ty e : Nat) (g : Nat → Nat → Nat) : Bool :=
  match ty with
  | 1 => g 3 1 != 0 || g 14 2 != 0
  | 2 => decide (1 < g 1 1) || g 2 2 != 0
  | 3 => decide (3 < g 8 1) || g 9 7 != 0
  | 4 => decide (3 < g 2 1) || g 22 2 != 0 || g 28 4 != 0
  | 5 => g 1 3 != 0
  | 6 => g 2 2 != 0 || g 6 2 != 0
  | 8 => if e < 16 then g 3 1 != 0 else g 1 3 != 0
  | 9 => decide (1 < g 2 1) || g 3 1 != 0
  | _ => false

/-- A raster entry's timing breaks TIMING under a reference rate (R81). -/
def entryTimingBad (n d : Nat) (x : Timing) : Bool :=
  x.hActive == 0 || decide (16384 < x.hActive) || x.vActive == 0 || decide (16384 < x.vActive) ||
  decide (32767 < x.hTotal) || decide (32767 < x.vTotal) || x.sub == 0 || decide (8 < x.sub) ||
  x.fetchLead == 0 || decide (x.vFp + x.vSync + x.vBp < x.fetchLead) || State.overFast n d x.sub

namespace State

/-! ### The image's own form: checks 0x01–0x0A -/

/-- Is the image signed; where its records end (R66, R67). -/
def imageSigned (s : State) (i : Nat) : Bool := bit (s.slotNum i 6 2) 0
def imageEnd (s : State) (i : Nat) : Nat := s.slotNum i 8 4 - (if s.imageSigned i then 128 else 0)

/-- BAD_LENGTH: the length lies outside R66, or the records do not fill the space exactly. -/
def imageLengthBad (s : State) (i : Nat) : Bool :=
  let len := s.slotNum i 8 4
  let count := s.slotNum i 0x0C 2
  let e := s.imageEnd i
  let rs := recordsFrom (s.slotNum i) e count 0x20
  len % 4 != 0 || decide (len < 32) || decide (65536 < len) || decide (count < 9) || decide (64 < count) ||
  rs.length != count || (match rs.getLast? with | some r => r.pos + r.len != e | none => true)

/-- The records of the image in slot i that lie within it. -/
def imageRecords (s : State) (i : Nat) : List Record := recordsFrom (s.slotNum i) (s.imageEnd i) (s.slotNum i 0x0C 2) 0x20

/-- The bytes of the image that IMAGE_CRC and the signature cover; zeroed: with bytes 0x18–0x1B taken as zero. -/
def imageBody (s : State) (i : Nat) (zeroed : Bool) : List Byte :=
  (List.range (s.imageEnd i)).map fun p => if zeroed ∧ 0x18 ≤ p ∧ p < 0x1C then 0 else Mem.read s.mem (slotBase i + p)

/-- The first reserved field that is not zero (0x04): the image header, then record by record, each record's header before its
entries (log entry 118). -/
def imageReserved (s : State) (i : Nat) (rs : List Record) : Option ImageResult :=
  if 1 < s.slotNum i 6 2 ∨ s.slotNum i 0x0E 2 ≠ 0 ∨ s.slotNum i 0x1C 4 ≠ 0 then some { code := 4 }
  else (List.range rs.length).findSome? fun k =>
    match rs[k]? with
    | none => none
    | some r =>
      if 1 < r.flags then some { code := 4, sec := k }
      else if 1 ≤ r.type ∧ r.type ≤ 9 ∧ r.version = 1 ∧ r.len = payloadSize r.type then
        let n := entrySize r.type
        ((List.range (r.len / n)).find? fun e => entryReserved r.type e fun o w => s.slotNum i (r.pos + n * e + o) w).map
          fun e => { code := 4, sec := k, ent := e }
      else none

/-- A record's length, version or OPTIONAL flag is wrong (0x0A). R81 does not say whether VERSION of an unknown OPTIONAL
record must be 1: it is not checked (log entry 101). -/
def recordBad (r : Record) : Bool :=
  r.len == 0 || r.len % 4 != 0 || (decide (1 ≤ r.type) && decide (r.type ≤ 9) && (r.version != 1 || r.len != payloadSize r.type)) ||
  (r.type == 0xF0 && (r.version != 1 || decide (4096 < r.len) || !bit r.flags 0))

/-- The first failing check among 0x01–0x0A. -/
def imageForm (s : State) (i : Nat) : Option ImageResult :=
  let rs := s.imageRecords i
  let at' (code : Nat) (bad : Nat → Record → Bool) : Option ImageResult :=
    ((List.range rs.length).find? fun k => match rs[k]? with | some r => bad k r | none => false).map
      fun k => { code := code, sec := k }
  if s.slotNum i 0 4 ≠ 0x544F4749 then some { code := 1 }
  else if s.slotNum i 4 1 ≠ 1 then some { code := 2 }
  else if s.imageLengthBad i then some { code := 3 }
  else ((s.imageReserved i rs).orElse fun _ =>
    if s.poisoned (slotBase i) (s.slotNum i 8 4) ∨ crc32c (s.imageBody i true) ≠ s.slotNum i 0x18 4 then some { code := 5 }
    else (at' 6 fun _ r => crc32c (s.bytes (slotBase i + r.pos) r.len) != r.crc).orElse fun _ =>
      (at' 7 fun k r => decide (0 < k) && decide (r.type ≤ (rs.getD (k - 1) r).type)).orElse fun _ =>
        (((List.range 9).find? fun t => !(rs.any fun r => r.type == t + 1)).map fun t => { code := 8, sec := t + 1 }).orElse
          fun _ => (at' 9 fun _ r => decide (9 < r.type) && r.type != 0xF0 && !bit r.flags 0 || (r.type == 0 && !bit r.flags 0)).orElse
            fun _ => at' 10 fun _ r => recordBad r)

/-! ### The signature: 0x0B–0x0D (R80) -/

/-- Does a 128-byte trailer pass against the written key hash, for the digest of bs? The code that fails, 0 for none. -/
def signatureCode (hash bs trailer : List Byte) : Nat :=
  if sha256 (trailer.take 64) ≠ hash then 0x0C
  else if ecdsaVerify (sha256 bs) (leAt trailer 0 32) (leAt trailer 32 32) (leAt trailer 64 32) (leAt trailer 96 32) = false then 0x0D
  else 0

/-- Does an error lie in n bytes of NVM from a sector on? -/
def nvmSpoiled (s : State) (sector n : Nat) : Bool :=
  s.nvm.bad.any fun b => decide (sector * 65536 ≤ b) && decide (b < sector * 65536 + n)

/-- A byte of NVM: an uncorrectable error reads zero (R568; log entry 127). -/
def nvmByte (s : State) (sector o : Nat) : Byte :=
  if s.nvm.bad.contains (sector * 65536 + o) then 0 else Mem.read s.nvm.cells (sector * 65536 + o)

/-- The key hash, where the region counts as written (R569). -/
def keyHash (s : State) : Option (List Byte) :=
  if s.nvm.stored.contains 20 then some ((List.range 32).map (s.nvmByte 20)) else none

/-- The part reads the key hash, to judge a signature: an error in it is recorded (R568). -/
def noteKeyRead (s : State) (judged : Bool) : State :=
  if judged ∧ s.nvm.stored.contains 20 ∧ s.nvmSpoiled 20 32 then s.slowRaise Reg.NVM_BLOCK_STATUS [Flag.NVM_READ_ERROR] else s

/-- The outcome of R80's table: a failing code, 0 for none, and SIG. -/
def signatureOutcome (s : State) (signed : Bool) (bs trailer : List Byte) : Nat × Nat :=
  match s.keyHash with
  | none => (0, if signed then 2 else 0)
  | some h => if signed then (signatureCode h bs trailer, 1) else (0x0B, 0)

/-! ### The contents: checks 0x0E–0x1A -/

/-- Entry e of a section breaks a check: the code. One function per section, entry by entry; rules between entries
compare an entry with those before it. -/
def deviceCode (s : State) (i : Nat) : Nat :=
  if !rateInRange (s.img i 1 4 4) (s.img i 1 8 4) (s.img i 1 12 2) then 0x14 else 0

/-- R72. -/
def engineBindCode (s : State) (i e : Nat) : Nat :=
  let c := s.engCluster i e
  if c = 0xFF then 0
  else if s.clusterEnabled i c = false ∨ 16 ≤ ((List.range e).filter fun n => s.engCluster i n == c).length then 0x11
  else 0

/-- The region of cluster c: X0, Y0, X_LAST, Y_LAST. -/
def clusterRegion (s : State) (i c : Nat) : Nat × Nat × Nat × Nat :=
  (s.img i 3 (16 * c) 2, s.img i 3 (16 * c + 2) 2, s.img i 3 (16 * c + 4) 2, s.img i 3 (16 * c + 6) 2)

/-- R73. -/
def canvasCode (s : State) (i e : Nat) : Nat :=
  let (x0, y0, x1, y1) := s.clusterRegion i e
  if s.clusterEnabled i e = false then 0
  else if x1 < x0 ∨ y1 < y0 then 0x15
  else if (List.range e).any fun c =>
      let (u0, v0, u1, v1) := s.clusterRegion i c
      s.clusterEnabled i c && decide (x0 ≤ u1) && decide (u0 ≤ x1) && decide (y0 ≤ v1) && decide (v0 ≤ y1) then 0x15
  else 0

/-- R74, R23 and the timing limits. -/
def rasterCode81 (s : State) (i e : Nat) : Nat :=
  let n := s.img i 1 4 4
  let d := s.img i 1 8 4
  let c := s.rasterCluster i e
  let g := s.img i 4 (32 * e + 1) 1
  let raw (m : Nat) : List Nat := (List.range 25).map fun o => s.img i 4 (32 * m + 3 + o) 1
  let before := (List.range e).filter (s.rasterEnabled i)
  let rate := (((before ++ [e]).filter fun m => s.rasterCluster i m == c).map fun m =>
    let x := s.entryTiming i m
    x.hTotal * x.vTotal * x.sub).sum
  if s.rasterEnabled i e = false then 0
  else if s.clusterEnabled i c = false ∨ (15 < g ∧ g ≠ 0xFF) ∨ (g ≠ 0xFF ∧ before.any fun m => s.lockGroup i m == g && raw m != raw e)
    then 0x12
  else if 3000000000 * d < rate * n then 0x13
  else if entryTimingBad n d (s.entryTiming i e) then 0x14
  else 0

/-- R76 for the port's reservation and role. A ROLE above 3 is reported as 0x18, after the RESERVE rules (log entry 117). -/
def portCode (s : State) (i e : Nat) : Nat :=
  let role := s.portRole i e
  let res := s.portReserve i e
  let mode := s.quadMode i (e / 4)
  let link := s.portLink i e
  if (role = 0 ∧ res ≠ 0) ∨ (role ≠ 0 ∧ res < 5) ∨ 24576 < ((List.range (e + 1)).map (s.portReserve i)).sum then 0x17
  else if 3 < role ∨ (role ≠ 0 ∧ mode = 0) ∨ (role = 3 ∧ mode ≠ 3 ∧ mode ≠ 4) ∨ (role = 3 ∧ 15 < link) ∨
    (role ≠ 3 ∧ link ≠ 0xFF) then 0x18
  else 0

/-- BASE and COUNT of the Mesh Table partition of engine e. -/
def meshPart (s : State) (i e : Nat) : Nat × Nat := (s.img i 7 (8 * e) 4, s.img i 7 (8 * e + 4) 4)

/-- R77. -/
def meshPartCode (s : State) (i e : Nat) : Nat :=
  let (b, c) := s.meshPart i e
  if c = 0 then 0
  else if b % 16 ≠ 0 ∨ 16777216 < b + c ∨
      (List.range e).any (fun n => let (b', c') := s.meshPart i n; c' != 0 && decide (b < b' + c') && decide (b' < b + c)) then 0x16
  else 0

/-- R78: entries 0–15 the topology, 16–31 the local links. R78 does not say whether TFLAGS bits 7:1, and PARENT or STANDBY
of a device that is not present, are judged: they are not (log entry 102). -/
def chainEntryCode (s : State) (i e : Nat) : Nat :=
  let t (d o : Nat) : Nat := s.img i 8 (4 * d + o) 1
  let here (d : Nat) : Bool := decide (d < 16) && t d 0 == 1
  let mgrs := (List.range 16).filter fun d => here d && t d 1 == 0xFF
  let mgr := mgrs.headD 0xFF
  if e < 16 then
    if 1 < t e 0 then 0x19
    else if t e 0 = 0 then 0
    else if t e 1 = 0xFF then (if e ≠ mgr ∨ bit (t e 2) 0 then 0x19 else 0)
    else if bit (t e 2) 0 ∧ (t e 1 ≠ mgr ∨ (List.range e).any (fun d => here d && bit (t d 2) 0)) then 0x19
    else if here (t e 1) = false ∨ mgr = 0xFF ∨ (t e 1 ≠ mgr ∧ t (t e 1) 1 ≠ mgr) then 0x19
    else 0
  else
    let k := e - 16
    let peer := s.img i 8 (64 + 4 * k) 1
    let ps := (List.range 128).filter fun p => s.portRole i p == 3 && s.portLink i p == k
    if peer ≠ 0xFF ∧ here peer = false then 0x19
    else if (ps ≠ [] ∧ peer = 0xFF) ∨ 4 < ps.length then 0x19
    else 0

/-- R79. -/
def mailboxCode (s : State) (i e : Nat) : Nat :=
  let a := s.img i 9 (4 * e) 1
  let b := s.img i 9 (4 * e + 1) 1
  if bit (s.img i 9 (4 * e + 2) 1) 0 ∧ (17 < a ∨ 17 < b ∨ a = b) then 0x1A else 0

/-- The code of entry e of a section. -/
def entryCode (s : State) (i ty e : Nat) : Nat :=
  match ty with
  | 1 => s.deviceCode i
  | 2 => s.engineBindCode i e
  | 3 => s.canvasCode i e
  | 4 => s.rasterCode81 i e
  | 5 => if 4 < s.quadMode i e then 0x18 else 0
  | 6 => s.portCode i e
  | 7 => s.meshPartCode i e
  | 8 => s.chainEntryCode i e
  | 9 => s.mailboxCode i e
  | _ => 0

/-- The first content check that fails, record by record and entry by entry. -/
def contentResult (s : State) (i : Nat) : Option ImageResult :=
  let rs := s.imageRecords i
  (List.range rs.length).findSome? fun k =>
    match rs[k]? with
    | none => none
    | some r =>
      if 1 ≤ r.type ∧ r.type ≤ 9 then
        match (List.range (r.len / entrySize r.type)).find? fun e => s.entryCode i r.type e != 0 with
        | some e => some { code := s.entryCode i r.type e, sec := k, ent := e }
        | none =>
          -- a topology without a manager breaks R78 as a whole
          if r.type = 8 ∧ (List.range 16).all (fun d => s.img i 8 (4 * d) 1 == 0 || s.img i 8 (4 * d + 1) 1 != 0xFF) then
            some { code := 0x19, sec := k }
          else none
      else none

/-- The checks of the DEVICE record against this part (0x0E–0x10). -/
def partCode (s : State) (i : Nat) : Nat :=
  let v := s.f Reg.SYS_DEVICE_ID_VARIANT
  let role := s.img i 1 1 1
  let idx := s.img i 1 2 1
  if s.img i 1 0 1 ≠ 3 ∧ s.img i 1 0 1 ≠ v then 0x0E
  else if role ≠ s.f Reg.CHAIN_STATE_STRAP_ROLE ∨ (v = 2 ∧ role ≠ 2) then 0x0F
  else if idx ≠ 0xFF ∧ idx ≠ s.myIndex then 0x10
  else 0

/-- The result of validating the image in slot i (R81). R80 gives no SIG for an image that fails before its signature is
judged, or in that check: it is 0 (log entry 100). -/
def imageResult (s : State) (i : Nat) : ImageResult :=
  match s.imageForm i with
  | some r => r
  | none =>
    let (c, sig) := s.signatureOutcome (s.imageSigned i) (s.imageBody i false) (s.bytes (slotBase i + s.imageEnd i) 128)
    if c ≠ 0 then { code := c }
    else if s.partCode i ≠ 0 then { code := s.partCode i, sec := 0, ent := 0, sig := sig }
    else match s.contentResult i with
      | some r => { r with sig := sig }
      | none => { code := 0, sig := sig }

end State
end Sys2Proof.Machine
end

