-- ==== Sys2Proof/Machine/Ingot.lean ====
section
/-! DEFINITION. Ingot slots, their commands, activation and the swap at a cue (R35, R71, R82–R97, R360). -/

namespace Sys2Proof.Machine
namespace State

/-! ### Slots (R82–R85) -/

/-- Set flags of the INGOT status. -/
def ingotRaise (s : State) (flags : List Nat) : State := s.raiseAll Reg.INGOT_BLOCK_STATUS flags

/-- STATE of slot i (R84). -/
def slotState (s : State) (i : Nat) : Nat := s.f (Reg.INGOT_SLOT_STATE_STATE i)

/-- Slot i enters a state: ID and GEN read zero outside VALID, ACTIVE and RETIRING (R100); SWAPPABLE follows (R85). -/
def slotTo (s : State) (i st : Nat) : State :=
  let s1 := s.setF (Reg.INGOT_SLOT_STATE_STATE i) st
  let s2 := if st = 3 ∨ st = 5 ∨ st = 6 then s1
    else (s1.setReg (Reg.INGOT_SLOT_ID i) 0).setReg (Reg.INGOT_SLOT_GEN i) 0
  s2.setSwappable

/-- The NVM sector of Ingot slot i (R561). -/
def slotSector (i : Nat) : Nat := 16 + i

/-- A write into the window of slot i has been accepted (R82). A LOAD_NVM copy in progress goes on, and overwrites it as it
ends (log entry 119). -/
def slotWritten (s : State) (i : Nat) : State := s.slotTo i 1

/-- Memory whose contents are undefined from here on: open values (log entry 14). -/
def scramble (s : State) (a n : Nat) : State :=
  let (v, t) := s.takeFree
  (t.store a (leBytes n v)).clearPoison a n

/-- A refused command (R83). -/
def cmdRefused (s : State) (code : Nat) : State :=
  ((s.setF Reg.INGOT_SWAP_LOG_FRAME s.refPos.f).setF Reg.INGOT_SWAP_LOG_CODE code).ingotRaise [Flag.INGOT_CMD_REFUSED]

/-- The code that refuses operation op on slot i; 0 where it is accepted (R83). -/
def cmdCode (s : State) (op i : Nat) : Nat :=
  let st := s.slotState i
  if op = 0 ∨ 4 < op then 0x20
  else if st = 2 ∨ st = 6 then 0x1B
  else if op = 4 ∧ s.hasIngot then 0x1E
  else if op ≠ 4 ∧ st = 5 then 0x1E
  else if op = 4 ∧ st ≠ 3 then 0x1D
  else if op = 1 ∧ st = 0 then 0x1F
  else 0

/-- VALIDATE, LOAD_NVM and CLEAR. A VALIDATE or CLEAR ends a copy in progress (log entry 15). -/
def validateCmd (s : State) (i : Nat) : State := { s.slotTo i 2 with copying := s.copying.filter (· != i) }
def loadNvmCmd (s : State) (i : Nat) : State :=
  let waits := if s.nvm.storing = some (slotSector i) then setAdd s.copyWaits i else s.copyWaits.filter (· != i)
  { s.slotTo i 1 with copying := setAdd s.copying i, copyWaits := waits }
def clearCmd (s : State) (i : Nat) : State :=
  let s1 := s.scramble (slotBase i) 65536
  { s1.slotTo i 0 with copying := s.copying.filter (· != i) }

/-- Validation of slot i ends (R81). -/
def validationDone (s : State) (i : Nat) : State :=
  if s.slotState i = 2 then
    let r := s.imageResult i
    let s0 := (if s.poisoned (slotBase i) (s.slotNum i 8 4) then s.slabUe 3 (0xF00000 + 0x10000 * i) else s).noteKeyRead
      (s.imageForm i).isNone
    let s1 := (((s0.setF (Reg.INGOT_SLOT_STATE_ERR_CODE i) r.code).setF (Reg.INGOT_SLOT_STATE_ERR_SECTION i) r.sec).setF
      (Reg.INGOT_SLOT_STATE_ERR_ENTRY i) r.ent).setF (Reg.INGOT_SLOT_STATE_SIG i) r.sig
    if r.code = 0 then
      (((s1.setF (Reg.INGOT_SLOT_ID_ID i) (s.slotNum i 0x10 4)).setF (Reg.INGOT_SLOT_GEN_GEN i) (s.slotNum i 0x14 4)).slotTo
        i 3).ingotRaise [Flag.INGOT_VALIDATED]
    else (s1.slotTo i 4).ingotRaise [Flag.INGOT_INVALID]
  else s

/-- Copy an NVM sector to memory at address a; errors read zero and set READ_ERROR (R568). -/
def copySector (s : State) (sector a : Nat) : State :=
  let lo := sector * 65536
  let good := s.nvm.cells.filter fun c => decide (lo ≤ c.1) && decide (c.1 < lo + 65536) && !s.nvm.bad.contains c.1
  let kept := s.mem.filter fun c => decide (c.1 < a) || decide (a + 65536 ≤ c.1)
  let s1 := { s with mem := good.foldl (fun (m : List Host.Cell) (c : Host.Cell) => Mem.write m (a + (c.1 - lo)) c.2) kept }
  let s2 := s1.clearPoison a 65536
  if s.nvm.bad.any fun b => decide (lo ≤ b) && decide (b < lo + 65536) then
    s2.slowRaise Reg.NVM_BLOCK_STATUS [Flag.NVM_READ_ERROR] else s2

/-- The copy of a LOAD_NVM has finished (R83, R84). One that began while its sector was being stored waits for the end of the
store; one that began before it takes the old contents (R568). -/
def nvmCopyDone (s : State) (i : Nat) : State :=
  if s.copying.contains i ∧ s.slotState i = 1 ∧ s.copyWaits.contains i = false then
    { (s.copySector (slotSector i) (slotBase i)).slotTo i 2 with copying := s.copying.filter (· != i) }
  else s

/-! ### The registers that report the active Ingot (R193, R224, R245, R308, R389, R400) -/

/-- The reservations of the active image; SZ and SH follow (R93, R377). -/
def setReserves (s : State) (i : Nat) : State :=
  let res (p : Nat) : Nat := s.portReserve i p
  let s1 := forN 128 (fun p t => t.setF (Reg.CRU_PORT_RESERVE p) (res p)) s
  let ps := List.range 128
  let sh := (ps.map fun p => s.f (Reg.CRU_PORT_HELD p) - res p).sum
  let y := s.f Reg.CRU_CFG_YELLOW_THRESHOLD
  let s2 := (s1.setF Reg.CRU_SHARED_SIZE (24576 - (ps.map res).sum)).setF Reg.CRU_SHARED_IN_USE sh
  if y ≤ sh ∧ s.f Reg.CRU_SHARED_IN_USE < y then s2.cruRaise [Flag.CRUCIBLE_YELLOW_LIMIT] else s2

/-- Every register that reports the active Ingot shows the image in slot i. -/
def reportIngot (s : State) (i : Nat) : State :=
  let s1 := forN 32 (fun n t =>
    let part := s.meshPart i n
    (t.setReg (Reg.LE_BIND n) (BitVec.ofNat 64
      (s.engCluster i n + 2 ^ 8 * (s.img i 2 (4 * n + 1) 1 % 2) + (if part.2 = 0 then 0 else 2 ^ 9)))).setReg
      (Reg.MESH_PART n) (BitVec.ofNat 64 (part.2 * 2 ^ 32 + part.1))) s
  let s2 := forN 8 (fun c t =>
    ((t.setReg (Reg.BC_BIND c) (BitVec.ofNat 64 ((if s.clusterEnabled i c then 1 else 0) +
        2 ^ 16 * maskOf (s.clusterRasters i c)))).setReg (Reg.BC_ENGINES c) (BitVec.ofNat 64 (maskOf (s.clusterEngines i c)))).setReg
      (Reg.BC_REGION c) (BitVec.ofNat 64 (s.img i 3 (16 * c) 8))) s1
  let s3 := forN 16 (fun m t =>
    let on := s.rasterEnabled i m
    t.setReg (Reg.ORS_BIND m) (BitVec.ofNat 64 ((if on then s.rasterCluster i m else 0xFF) + (if on then 2 ^ 8 else 0) +
      2 ^ 9 * (s.img i 4 (32 * m + 2) 1 % 2) + 2 ^ 16 * s.lockGroup i m))) s2
  let s4 := forN 32 (fun q t =>
    t.setReg (Reg.PQ_MODE q) (BitVec.ofNat 64 (s.quadMode i q + 2 ^ 8 * ((List.range 4).map fun l => 4 ^ l * s.portRole i (4 * q + l)).sum))) s3
  s4.setReserves i

/-! ### Activation (R35, R71, R283, R360) -/

/-- Raster m starts from nothing, first with frame k, in a later FCLK than this one. -/
def rasterFrom (s : State) (m k : Nat) : State := s.setRaster m { mode := .unstarted k, notBefore := s.fclk + 1 }

/-- The state as the live reference rate, which may still be to take force, will have it (R71). -/
def underLiveRate (s : State) : State :=
  let (n, d, l) := s.liveRate
  s.setTime { s.time with n := n, d := d, l := l }

/-- The first frame with sub-frame index 0 whose ideal start lies after this FCLK, under the live rate (R35). -/
def firstStart (s : State) (x : Timing) : Nat := wholeFrame x (s.underLiveRate.firstFrameAfter x s.tq)

/-- The boot link ends: its port leaves it, the port's frames are gone and its quad retrains (R434, R436). -/
def endBootLink (s : State) : State :=
  match s.chain.boot with
  | some p =>
    let s1 := s.portLeaves p
    forN 4 (fun l t => t.dropLink (4 * (p / 4) + l))
      (s1.setPort p { s1.port p with queues := List.replicate 8 [], rx := [], tx := none })
  | none => s

/-- The image in slot i becomes active from the no-Ingot state. TB_REF_RATE and TB_REF_LINES show the new values from this
FCLK on (log entry 116). -/
def activate (s : State) (i : Nat) : State :=
  let s0 := s.endBootLink
  let s1 := ((s0.setF Reg.INGOT_ACTIVE_NONE 0).setF Reg.INGOT_ACTIVE_SLOT i).slotTo i 5
  -- the reference rate and line count, from the next FCLK; an armed change is cancelled (R71)
  let s2 := (s1.setTime { s1.time with
    rateNext := some (s.img i 1 4 4, s.img i 1 8 4, s.img i 1 12 2), armed := false }).refRegsLive
  let s3 := s2.reportIngot i
  let s4 := (List.range 16).foldl (fun t m =>
    if s.rasterEnabled i m then
      let t1 := t.loadTiming i m
      t1.rasterFrom m (t1.firstStart (t1.liveTiming m))
    else t) s3
  let s5 := s4.chainActivate
  -- NO_INGOT and WAIT_CHAIN clear, and with them the cause of ALERT_N (R576)
  if s5.sf Reg.BOOT_STATUS_CODE = 4 ∨ s5.sf Reg.BOOT_STATUS_CODE = 7 then
    (s5.setSf Reg.BOOT_STATUS_CODE 0).setSf Reg.PWR_ALERT_BOOT 0
  else s5

/-- An INGOT_CMD (R83). -/
def ingotCmd (s : State) (op i : Nat) : State :=
  let c := s.cmdCode op i
  if c ≠ 0 then s.cmdRefused c
  else match op with
    | 1 => s.validateCmd i
    | 2 => s.loadNvmCmd i
    | 3 => s.clearCmd i
    | _ => s.activate i

/-! ### The swap at a cue (R87–R95) -/

/-- Do the n bytes at offset o of section ty differ between two slots' images? -/
def entryDiffers (s : State) (i j ty o n : Nat) : Bool := (List.range n).any fun k => s.img i ty (o + k) 1 != s.img j ty (o + k) 1

/-- Is the RASTER entry of raster m changed? -/
def rasterDiffers (s : State) (i j m : Nat) : Bool := s.entryDiffers i j 4 (32 * m) 32

/-- RATE or TIMING fails for a RASTER entry that the swap from slot j to slot i applies (R87). R87 does not say which of
the two is recorded where changed entries fail both: RATE is judged over every entry before TIMING of any (log entry 98). -/
def swapRate (s : State) (i j : Nat) : Nat :=
  let n := s.liveRate.1
  let d := s.liveRate.2.1
  let tim (m : Nat) : Timing := if s.rasterDiffers i j m then s.entryTiming i m else s.liveTiming m
  let changed := (List.range 16).filter fun m => s.rasterEnabled i m && s.rasterDiffers i j m
  if changed.any fun m => s.overRate i (s.rasterCluster i m) n d tim then 0x13
  else if changed.any fun m => entryTimingBad n d (s.entryTiming i m) then 0x14
  else 0

/-- The code that refuses a swap to slot i; 0 where it takes place (R87). -/
def swapCode (s : State) (i : Nat) : Nat :=
  if s.fb Reg.INGOT_ACTIVE_SWAP_PENDING ∨ s.slotState i = 2 ∨ s.slotState i = 6 then 0x1B
  else if s.hasIngot ∧ s.slot = i then 0x1E
  else if s.slotState i ≠ 3 then 0x1D
  else if s.fb (Reg.INGOT_SLOT_STATE_SWAPPABLE i) = false then 0x1C
  else s.swapRate i s.slot

/-- The changes from slot j to slot i that touch raster m (R88): for each, whether its flag makes it hitless. R88 does not
say in which image the rasters of an engine's old and new cluster are looked up: in either (log entry 99). -/
def touches (s : State) (i j m : Nat) : List Bool :=
  let inCluster (c : Nat) : Bool := (s.clusterRasters i c).contains m || (s.clusterRasters j c).contains m
  let engines := (List.range 32).flatMap fun n =>
    let flag := bit (s.img i 2 (4 * n + 1) 1) 0
    (if s.entryDiffers i j 2 (4 * n) 4 ∧ (inCluster (s.engCluster i n) ∨ inCluster (s.engCluster j n)) then [flag] else []) ++
    (if s.entryDiffers i j 7 (8 * n) 8 ∧ ((s.clusterRasters i (s.engCluster i n)).contains m ∨
        (s.clusterRasters j (s.engCluster j n)).contains m) then [flag] else [])
  let clusters := (List.range 8).flatMap fun c =>
    if s.entryDiffers i j 3 (16 * c) 16 ∧ inCluster c then [bit (s.img i 3 (16 * c + 8) 1) 1] else []
  let rasters := (List.range 16).flatMap fun r =>
    if s.rasterDiffers i j r ∧ ((s.groupOf i r).contains m ∨ (s.groupOf j r).contains m) then [bit (s.img i 4 (32 * r + 2) 1) 0]
    else []
  engines ++ clusters ++ rasters

/-- The rasters that a swap hits (R88). -/
def hitRasters (s : State) (i j : Nat) : List Nat :=
  (List.range 16).filter fun m => s.rasterEnabled i m && s.rasterEnabled j m && (s.touches i j m).any fun b => !b

/-- The restart of a hit raster at a swap point: its first frame at or after the instant of R90. -/
def restartFrame (s : State) (i j m : Nat) : Nat :=
  s.restartAt (if s.rasterDiffers i j m then s.entryTiming i m else s.liveTiming m) s.restartBound

/-- What the swap from slot j to slot i does to raster m at the swap point. A hit raster that has not started yet starts
under the new structure at its restart (log entry 16). -/
def swapRaster (s : State) (i j m : Nat) : State :=
  let was := s.rasterEnabled j m
  let now := s.rasterEnabled i m
  let changed := s.rasterDiffers i j m
  let need (t : State) (x : SwapNeed) : State := { t with swap := Tab.put t.swap m x }
  if was && !now then ((((s.rasterGone m).sigAbandon m).endPass m).setRaster m {}).setPhase m 0 0
  else if !was && now then
    let s1 := s.loadTiming i m
    need (s1.rasterFrom m (s1.firstStart (s1.liveTiming m))) .start
  else if !was then s
  else if (s.touches i j m).isEmpty then s
  else if (s.touches i j m).any fun b => !b then
    let k := s.restartFrame i j m
    let r := s.raster m
    if r.passed = false then
      let s1 := (if changed then s.loadTiming i m else s).rasterFrom m k
      need (s1.setRaster m { s1.raster m with hitFrom := some s.restartBound }) .start
    else
      let p := s.rasterPos m
      let h : Raster := { r with mode := .hit k, hitFrom := some s.restartBound, hitAt := (p.f, p.l, p.t), sentCur := false, heldCur := false, settling := decide (r.mode = .wait) }
      need (((s.sigAbandon m).setRaster m h).endPass m) (.restart changed)
  else need s (.land changed)

/-- Port p is flushed at a swap point (R91, R92): its queues, the frames in reception and its packets that wait for the
ingest writer; then it leaves its chain link. leaves: its role leaves EGRESS, which ends its transactions (R358). -/
def swapFlush (s : State) (p : Nat) (leaves cut : Bool) : State :=
  let n := (s.flows.map fun x => (x.2.waiting.filter fun y => y.port == p).length).sum
  let keep (x : Nat × Flow) : Nat × Flow := (x.1, { x.2 with waiting := x.2.waiting.filter fun y => y.port != p })
  let s1 := { s with flows := s.flows.map keep }
  -- the replicas among what is flushed are lost (R446)
  let s0 := match s1.linkOf p with
    | some k => if s1.chain.joined.contains p then s1.replLost k (s1.replicasOn p) else s1
    | none => s1
  let s2 := ((s0.satF (Reg.PORT_SWAP_FLUSH_FRAMES p) n).flushPort p cut).portLeaves p
  if leaves then s2.endBtl p else s2

/-- Ports and quads at the swap point. -/
def swapPorts (s : State) (i j : Nat) : State :=
  let leaves (p : Nat) : Bool := s.portRole j p == 1 && s.portRole i p != 1
  forN 32 (fun q t =>
    if s.quadMode i q ≠ s.quadMode j q then
      { forN 4 (fun l u => (u.swapFlush (4 * q + l) (leaves (4 * q + l)) true).dropLink (4 * q + l)) t with
        quadIdle := setAdd t.quadIdle q }
    else forN 4 (fun l u =>
      if s.portRole i (4 * q + l) ≠ s.portRole j (4 * q + l) then u.swapFlush (4 * q + l) (leaves (4 * q + l)) false else u) t) s

/-- The swap to slot i: its code, and the state (R87). -/
def swapIngot (s : State) (i : Nat) : Nat × State :=
  let log (t : State) (code : Nat) : State := (t.setF Reg.INGOT_SWAP_LOG_FRAME s.refPos.f).setF Reg.INGOT_SWAP_LOG_CODE code
  let c := s.swapCode i
  if c ≠ 0 then (c, (log s c).ingotRaise [Flag.INGOT_SWAP_REFUSED])
  else
    let j := s.slot
    let hit := s.hitRasters i j
    let quads := (List.range 32).filter fun q => s.quadMode i q != s.quadMode j q
    let s1 := (List.range 16).foldl (fun t m => t.swapRaster i j m) s
    let s2 := s1.swapPorts i j
    let s3 := ((s2.setF Reg.INGOT_ACTIVE_SLOT i).setF Reg.INGOT_ACTIVE_SWAP_PENDING 1)
    let s4 := ((s3.slotTo j 6).slotTo i 5).reportIngot i
    let s5 := forN 16 (fun k t =>
      let used := !(t.linkPorts k).isEmpty && t.linkPeer k != 0xFF
      if used == (t.f (Reg.CHAIN_LINK_STATE k) != 0) then t else t.linkInit k) s4
    let s6 := ((log s5 0).satF Reg.INGOT_SWAP_LOG_COUNT 1).setReg Reg.INGOT_SWAP_HIT (BitVec.ofNat 64 (maskOf hit))
    (0, (s6.setReg Reg.INGOT_SWAP_QUADS (BitVec.ofNat 64 (maskOf quads))).swapLanded)

/-- SWAP_INGOT, as the action of the cue in slot c. -/
def actSwap (c : Nat) (s : State) : CueRun :=
  let (code, t) := s.swapIngot (s.cueByte c)
  ⟨if code = 0 then 0 else 0x0F, 0, t⟩

/-- The electrical idle of quad q ends: its links follow what the PCS reports (R92). -/
def quadIdleEnd (s : State) (q : Nat) : State :=
  forN 4 (fun l t => t.relink (4 * q + l)) { s with quadIdle := s.quadIdle.filter (· != q) }

end State
end Sys2Proof.Machine
end

