-- ==== Sys2Proof/Machine/Ingest.lean ====
section
/-! DEFINITION. Video ingest (R380–R382, R403–R429, R446): from a received frame to a flow, the sequence window, frames and
their surfaces, samples, presentation, replication. -/

namespace Sys2Proof.Machine

/-- An n-bit sample as m bits (R411). -/
def sampleTo (n m v : Nat) : Nat :=
  if n < m then
    let r := ceilDiv m n
    ((List.range r).map fun i => v * 2 ^ (n * i)).sum / 2 ^ (n * r - m)
  else if m < n then min (2 ^ m - 1) ((v + 2 ^ (n - m - 1)) / 2 ^ (n - m))
  else v

/-- The pixel word of a target format from three samples of n bits: R, G, B, or Cr, Y, Cb in their places (R412). -/
def targetWord (fmt n r g b : Nat) : Nat :=
  let c (m v : Nat) : Nat := sampleTo n m v
  match fmt with
  | 4 => c 8 r * 2 ^ 16 + c 8 g * 2 ^ 8 + c 8 b
  | 5 => c 8 r * 2 ^ 16 + c 8 b * 2 ^ 8 + c 8 g     -- Y [7:0], Cb [15:8], Cr [23:16]
  | 6 => 0xFF000000 + c 8 r * 2 ^ 16 + c 8 g * 2 ^ 8 + c 8 b
  | 7 => 0xC0000000 + c 10 r * 2 ^ 20 + c 10 g * 2 ^ 10 + c 10 b
  | _ => 0xFFFF000000000000 + c 16 r * 2 ^ 32 + c 16 g * 2 ^ 16 + c 16 b

/-- The word of format 0x08 without its key. -/
def word422 (n y c : Nat) : Nat := sampleTo n 10 y + sampleTo n 10 c * 2 ^ 10

/-- Bits per sample of a DEPTH (R427). -/
def ingDepth (d : Nat) : Nat := match d with | 0 => 8 | 1 => 10 | _ => 12

/-- Pixels in a pgroup, and its bytes (R410). -/
def pgPixels (sampling n : Nat) : Nat := if sampling = 0 then 2 else if n = 8 then 1 else if n = 10 then 4 else 2
def pgBytes (sampling n : Nat) : Nat := (if sampling = 0 then 4 else 3 * pgPixels sampling n) * n / 8

/-- Sample i of a pgroup, most significant bit first. -/
def pgSample (n total : Nat) (pg : List Byte) (i : Nat) : Nat := ofBe pg / 2 ^ (total - n * (i + 1)) % 2 ^ n

/-- A sample row data header with its data (R403, R410). -/
structure Srd where
  field : Bool
  row : Nat
  offset : Nat
  data : List Byte
  whole : Bool        -- its data lies within the packet
  deriving DecidableEq, Repr

/-- The SRD headers at the start of a payload, at most n of them. -/
def srdHeaders (n : Nat) (bs : List Byte) : List (Nat × Nat × Nat) :=
  match n with
  | 0 => []
  | k + 1 =>
    if bs.length < 6 then []
    else
      let c := beAt bs 4 2
      (beAt bs 0 2, beAt bs 2 2, c) :: (if bit c 15 then srdHeaders k (bs.drop 6) else [])

/-- Each header takes its data in turn. -/
def srdTake (hs : List (Nat × Nat × Nat)) (bs : List Byte) : List Srd :=
  match hs with
  | [] => []
  | (len, row, off) :: r =>
    ⟨bit row 15, row % 2 ^ 15, off % 2 ^ 15, bs.take len, decide (len ≤ bs.length)⟩ :: srdTake r (bs.drop len)

/-- The SRDs of a payload. -/
def srdsOf (bs : List Byte) : List Srd :=
  let hs := srdHeaders 3 bs
  srdTake hs (bs.drop (6 * hs.length))

/-- What an RTP packet carries (R403): marker, sequence number, timestamp, SSRC, and the payload after CSRC list, header
extension and padding. -/
structure Rtp where
  version : Nat
  pt : Nat
  marker : Bool
  seq : Nat
  ts : Nat
  ssrc : Nat
  payload : List Byte
  deriving DecidableEq, Repr

/-- Read an RTP packet, laid out as its standard has it (log entry 114). -/
def rtpOf (bs : List Byte) : Rtp :=
  let b0 := beAt bs 0 1
  let b1 := beAt bs 1 1
  let cc := 12 + 4 * (b0 % 16)
  let start := if bit b0 4 then cc + 4 + 4 * beAt bs (cc + 2) 2 else cc
  let stop := if bit b0 5 then bs.length - beAt bs (bs.length - 1) 1 else bs.length
  let pay := (bs.take stop).drop start
  { version := b0 / 64, pt := b1 % 128, marker := bit b1 7, seq := beAt pay 0 2 * 65536 + beAt bs 2 2,
    ts := beAt bs 4 4, ssrc := beAt bs 8 4, payload := pay.drop 2 }

/-- A 32-bit difference a − b as a signed number. -/
def diff32 (a b : Nat) : Int := sgn 32 (unsgn 32 ((a : Int) - b))

namespace State

/-- The record of flow f. -/
def flow (s : State) (f : Nat) : Flow := Tab.get s.flows f {}

/-- Set the record of flow f. -/
def setFlow (s : State) (f : Nat) (x : Flow) : State := { s with flows := Tab.put s.flows f x }

/-- Set flags of the INGEST status. -/
def ingRaise (s : State) (flags : List Nat) : State := s.raiseAll Reg.INGEST_BLOCK_STATUS flags

/-- Is flow f enabled; its ROLE and PARTNER (R407). -/
def flowOn (s : State) (f : Nat) : Bool := s.fb (Reg.ING_FLOW_CTRL_EN f)
def flowRole (s : State) (f : Nat) : Nat := s.f (Reg.ING_FLOW_CTRL_ROLE f)
def partner (s : State) (f : Nat) : Nat := s.f (Reg.ING_FLOW_CTRL_PARTNER f)

/-- The flow whose window and writer queue a packet of flow f joins; the VIDEO flow whose frames it fills. -/
def ownerOf (s : State) (f : Nat) : Nat := if s.flowRole f = 1 then s.partner f else f
def videoOf (s : State) (f : Nat) : Nat := if s.flowRole (s.ownerOf f) = 2 then s.partner (s.ownerOf f) else s.ownerOf f

/-- The enabled KEY flow of VIDEO flow v. -/
def keyOf (s : State) (v : Nat) : Option Nat :=
  (List.range 512).find? fun f => s.flowOn f && s.flowRole f == 2 && s.partner f == v

/-! ### Policing (R380–R382) -/

/-- One byte in the unit of the token counts. -/
def tokenUnit : Nat := 24000000000

/-- Token counts grow in an FCLK. -/
def flowTick (x : Flow) : Flow :=
  if x.polEn then { x with tc := min (x.cbs * tokenUnit) (x.tc + 1000 * x.cir), tp := min (x.pbs * tokenUnit) (x.tp + 1000 * x.pir) }
  else x

/-- Meter a frame of n bytes of flow f: 0 GREEN, 1 YELLOW, 2 RED. -/
def meter (s : State) (f n : Nat) : Nat × State :=
  let x := s.flow f
  let b := n * tokenUnit
  if x.polEn = false then (0, s)
  else if x.tp < b then (2, s)
  else if x.tc < b then (1, s.setFlow f { x with tp := x.tp - b })
  else (0, s.setFlow f { x with tp := x.tp - b, tc := x.tc - b })

/-- A write of POL_CBS applies the four policer values (R382). -/
def polCbsWrite : WriteEffect := fun _ x new _ _ s =>
  let f := x.idx.headD 0
  let en := bit new 31
  let cir := s.f (Reg.POL_CIR_CIR f)
  let pir := s.f (Reg.POL_PIR_PIR f)
  let pbs := s.f (Reg.POL_PBS_PBS f)
  let cbs := bits new 23 0
  if en ∧ (pir = 0 ∨ pir < cir ∨ cbs = 0 ∨ pbs = 0) then s.ingRaise [Flag.INGEST_POLICER_REFUSED]
  else
    let y := s.flow f
    let full := en && !y.polEn
    let z : Flow := { y with cir := cir, pir := pir, pbs := pbs, cbs := cbs, polEn := en,
                             tc := if full then cbs * tokenUnit else min y.tc (cbs * tokenUnit),
                             tp := if full then pbs * tokenUnit else min y.tp (pbs * tokenUnit) }
    (s.setReg x.addr (BitVec.ofNat 64 new)).setFlow f z

/-! ### Surfaces (R417, R420–R422) -/

/-- Does an enabled engine with SRC 1 take flow v? -/
def takesFlow (s : State) (n v : Nat) : Bool :=
  s.lfb (Reg.LE_CTRL_EN n) && s.lfb (Reg.LE_SOURCE_SRC n) && s.lf (Reg.LE_SOURCE_FLOW n) == v

/-- Does an engine hold surface k of flow v: does LE_LIVE_SURF name its address? -/
def surfHeld (s : State) (v k : Nat) : Bool :=
  (List.range 32).any fun n => match s.liveSurf n with | some x => x.base == (s.ringSurf v k).base | none => false

/-- Has the deadline of presentation frame P of flow v passed (R420)? -/
def deadlinePassed (s : State) (v P : Nat) : Bool :=
  let ms := ((List.range 32).filter fun n => s.takesFlow n v).filterMap s.governor
  if ms.isEmpty then decide (P ≤ s.refPos.f)
  else ms.any fun m =>
    let r := s.raster m
    let k := P * max 1 r.tim.sub
    r.passed && (decide (k ≤ r.frame) || (r.frame + 1 == k && r.stpDone))

/-- Does presentation frame P of flow v complete too late now: has its deadline passed, or is it the STP of this very FCLK
(R30, R420)? -/
def deadlineMet (s : State) (v P : Nat) : Bool :=
  s.deadlinePassed v P || (List.range 32).any fun n => s.takesFlow n v && match s.governor n with
    | some m => (s.raster m).passed && (s.raster m).frame + 1 == P * max 1 (s.raster m).tim.sub && s.atStp m
    | none => false

/-- Complete surfaces of flow v that an engine holds have been seen (R422). -/
def noteSeen (s : State) (v : Nat) : State :=
  (s.flow v).surfs.foldl (fun t y =>
    if y.2.mode = 2 ∧ y.2.seen = false ∧ s.surfHeld v y.1 then
      t.setFlow v { t.flow v with surfs := Tab.put (t.flow v).surfs y.1 { y.2 with seen := true } }
    else t) s

/-- Complete surfaces of flow v that R422 frees. -/
def freeSurfaces (s0 : State) (v : Nat) : State :=
  let s := s0.noteSeen v
  let done := (s.flow v).surfs.filter fun y => y.2.mode == 2
  done.foldl (fun t y =>
    if s.surfHeld v y.1 = false ∧ done.any (fun z => decide (y.2.p < z.2.p) && decide (z.2.p ≤ s.refPos.f)) then
      let t1 := t.setFlow v { t.flow v with surfs := Tab.del (t.flow v).surfs y.1 }
      if y.2.seen = false ∧ (List.range 32).any fun n => s.takesFlow n v then t1.satF (Reg.ING_FLOW_LOSS_SKIPPED v) 1 else t1
    else t) s

/-- The presentation frame of an RTP timestamp (R419). -/
def presentationOf (s : State) (v ts : Nat) : Int :=
  let now := s.tq * 90000 / secQ
  let t : Int := now + diff32 ts now + sgn 32 (s.f (Reg.ING_FLOW_TS_ADJ_TS_ADJ v))
  (2 * t * (s.time.n : Int) + (s.time.d * 90000 : Nat)) / (2 * s.time.d * 90000 : Nat) + (s.f (Reg.ING_FLOW_CTRL_PRESENT_LATENCY v) : Int)

/-- A frame of flow v counts as late. -/
def countLate (s : State) (v : Nat) : State := (s.satF (Reg.ING_FLOW_FRAMES_LATE v) 1).ingRaise [Flag.INGEST_LATE]

/-! ### Ending a frame (R413, R418, R420) -/

/-- Store bytes in DDR4 for the ingest writer, through its queues (R424, R502). -/
def ingestStore (s : State) (a : Nat) (bs : List Byte) : State :=
  ((s.putDdr a bs).request .ingest 14 a bs.length true).setReg Reg.ING_WRITER (s.reg Reg.ING_WRITER + BitVec.ofNat 64 bs.length)

/-- Write row j of the staging window with what it holds. -/
def writeStaged (s : State) (v : Nat) (x : VideoFrame) (j : Nat) : State :=
  let row := Tab.get x.rows j {}
  let surf := s.ringSurf v x.surf
  let bs := (List.range surf.width).flatMap fun i => leBytes 4 (Tab.get row.fill i 0 + Tab.get row.key i 0 * 2 ^ 20)
  let s1 := s.ingestStore (surf.at' 0 j) bs
  match (s1.flow v).frame with
  | some y => s1.setFlow v { s1.flow v with frame := some { y with rows := Tab.del y.rows j, doneRows := setAdd y.doneRows j } }
  | none => s1

/-- A row is written before both flows have delivered it (R413). -/
def writeSkewed (s : State) (v j : Nat) : State :=
  match (s.flow v).frame with
  | some x =>
    let s1 := s.writeStaged v x j
    match (s1.flow v).frame with
    | some y =>
      let s2 := s1.setFlow v { s1.flow v with frame := some { y with skew := true } }
      if x.skew then s2 else (s2.satF (Reg.ING_FLOW_LOSS_KEY_SKEW v) 1).ingRaise [Flag.INGEST_KEY_SKEW]
    | none => s1
  | none => s

/-- Write every row that still stands in the window. -/
def writeAllStaged (s : State) (v : Nat) : State :=
  match (s.flow v).frame with
  | some x => x.rows.foldl (fun t r => t.writeSkewed v r.1) s
  | none => s

/-- Drop the packets of timestamp ts that wait for the writer, and free their Billets. -/
def dropWaiting (s : State) (o ts : Nat) : State :=
  let x := s.flow o
  let gone := x.waiting.filter fun y => y.ts == ts
  gone.foldl (fun t y => t.freeBillets y.port y.billets) (s.setFlow o { x with waiting := x.waiting.filter fun y => y.ts != ts })

/-- Surface k of flow v becomes FREE. -/
def freeSurface (s : State) (v k : Nat) : State := s.setFlow v { s.flow v with surfs := Tab.del (s.flow v).surfs k }

/-- Has the frame been filled with fewer pixels than it needs, or skewed? -/
def frameShort (s : State) (v : Nat) (x : VideoFrame) : Bool :=
  let n := s.f (Reg.ING_FLOW_SIZE_WIDTH v) * s.f (Reg.ING_FLOW_SIZE_HEIGHT v)
  x.skew || decide (x.pixels < n) || ((s.keyOf v).isSome && decide (x.keyPixels < n))

/-- The frame of flow v ends (R418, R420). abandoned: without its markers; shown: it may be presented. -/
def endFrame (s0 : State) (v : Nat) (abandoned shown : Bool) : State :=
  let s := s0.writeAllStaged v
  match (s.flow v).frame with
  | none => s
  | some x =>
    let s1 := s.setFlow v { s.flow v with frame := none }
    let short := abandoned || s.frameShort v x
    let s2 := if short then (s1.satF (Reg.ING_FLOW_LOSS_INCOMPLETE v) 1).ingRaise [Flag.INGEST_INCOMPLETE] else s1
    if shown = false ∨ (short ∧ s.fb (Reg.ING_FLOW_CTRL_INCOMPLETE_POLICY v)) then s2.freeSurface v x.surf
    else
      let s3 := ((s2.addF (Reg.ING_FLOW_FRAMES_COMPLETED v) 1).setF (Reg.ING_FLOW_STATE_LAST_TS v) x.ts).setF
        (Reg.ING_FLOW_LAST_P_P v) x.p
      let past := s.deadlineMet v x.p
      let s4 := if past && !x.late then s3.countLate v else s3
      if past && !s.fb (Reg.ING_FLOW_CTRL_LATE_POLICY v) then s4.freeSurface v x.surf
      else
        let y := s4.flow v
        let z : RingSurface := { mode := 2, p := x.p, order := y.order + 1, doneAt := s.fclk }
        s4.setFlow v { y with surfs := Tab.put y.surfs x.surf z, order := y.order + 1 }

/-- The frame of flow v is abandoned; what waits for it is dropped. -/
def abandon (s : State) (v : Nat) (shown : Bool) : State :=
  match (s.flow v).frame with
  | none => s
  | some x =>
    let s1 := s.dropWaiting v x.ts
    let s2 := match s.keyOf v with | some k => s1.dropWaiting k x.ts | none => s1
    s2.endFrame v true shown

/-! ### A new frame (R417, R419, R420) -/

/-- The refused timestamps of a flow with one more; those behind it by 2^30 ticks, about 3.3 hours, and more are forgotten
before they recur. -/
def refuseTs (l : List Nat) (ts : Nat) : List Nat :=
  ts :: l.filter fun t => t != ts && decide (diff32 ts t < 2 ^ 30)

/-- Judge and open a frame of timestamp ts on flow v. -/
def openFrame (s0 : State) (v ts : Nat) : State :=
  let s := s0.freeSurfaces v
  let refuse (t : State) : State := t.setFlow v { t.flow v with dropTs := refuseTs (t.flow v).dropTs ts }
  let P := s.presentationOf v ts
  let lat : Int := (s.f (Reg.ING_FLOW_CTRL_PRESENT_LATENCY v) : Int)
  if (s.refPos.f : Int) + lat + 1 < P then refuse ((s.satF (Reg.ING_FLOW_FRAMES_EARLY v) 1).ingRaise [Flag.INGEST_EARLY])
  else
    let late := s.deadlinePassed v P.toNat
    let s1 := if late then s.countLate v else s
    if late ∧ s.fb (Reg.ING_FLOW_CTRL_LATE_POLICY v) = false then refuse s1
    else
      let x := s1.flow v
      match (List.range (s.f (Reg.ING_FLOW_CTRL_RING v))).find? fun k => (Tab.find x.surfs k).isNone && !s.surfHeld v k with
      | none => refuse ((s1.satF (Reg.ING_FLOW_LOSS_NO_SURFACE v) 1).ingRaise [Flag.INGEST_NO_SURFACE])
      | some k =>
        let z : RingSurface := { mode := 1, p := P.toNat }
        let w : VideoFrame := { ts := ts, surf := k, p := P.toNat, late := late }
        s1.setFlow v { x with surfs := Tab.put x.surfs k z, frame := some w }

/-- Assign an accepted packet to a frame (R417); the packet waits for the writer, or is dropped. -/
def assign (s : State) (f : Nat) (r : Rtp) (p billets : Nat) : State :=
  let o := s.ownerOf f
  let v := s.videoOf f
  let drop (t : State) : State := t.freeBillets p billets
  let wait (t : State) : State :=
    let x := t.flow o
    t.setFlow o { x with waiting := x.waiting ++ [⟨o, r.ts, r.marker, r.payload, Fin.ofNat 128 p, billets⟩] }
  let open' (t : State) : State :=
    if (t.flow v).dropTs.contains r.ts then drop t
    else
      let t1 := t.openFrame v r.ts
      if (t1.flow v).frame.isSome then wait t1 else drop t1
  match (s.flow v).frame with
  | some x =>
    if x.ts = r.ts then wait s
    else if diff32 r.ts x.ts < 0 then drop (s.satF (Reg.ING_FLOW_PKT_ERR_STALE f) 1)
    else open' (s.abandon v true)
  | none => open' s

/-! ### The sequence window (R414–R416) and replication (R423, R446) -/

/-- Queue a replica toward every direct child, on the member that its flow has there; the flow's index stands in the per-type fields
of its header (R435, R437, R446). -/
def replicate (s : State) (f : Nat) (rtp : List Byte) : State :=
  (s.upLinks 1).foldl (fun t k =>
    let ps := t.joinedPorts k
    match if t.carries k 9 then ps[f % max 1 ps.length]? else none with
    | some p =>
      let x : Frame := { kind := .chain 9, body := t.chainBodyWith 9 t.myIndex 0xFF f rtp }
      let t1 := t.enqueue p 0 x
      if t.cruAdmits p (billetsOf x.length) false then t1
      else (t1.satF (Reg.CHAIN_LINK_STATS_REPL_DROPS k) 1).chainRaise [Flag.CHAIN_REPL_DROP]
    | none => t) s

/-- A packet of flow f reaches the sequence window; p: the port whose Billets it holds. -/
def sequence (s0 : State) (f : Nat) (rtp : List Byte) (p billets : Nat) : State :=
  let s := s0.setF (Reg.ING_FLOW_PATH_DOWN f) 0
  let r := rtpOf rtp
  let o := s.ownerOf f
  let x := s.flow o
  let drop (t : State) : State := t.freeBillets p billets
  let accept (y : Flow) (gaps : Nat) : State :=
    let s1 := ((s.setFlow o y).satF (Reg.ING_FLOW_PKTS_SEQ_GAPS o) gaps).addF (Reg.ING_FLOW_PKTS_ACCEPTED o) 1
    let s2 := s1.addF (Reg.ING_FLOW_PATH_FIRST f) 1
    let s3 := if s.fb (Reg.ING_FLOW_CTRL_REPLICATE o) ∧ s.chainRole = 1 then s2.replicate o rtp else s2
    s3.assign f r p billets
  match x.top with
  | none => accept { x with top := some r.seq, low := r.seq, got := [r.seq] } 0
  | some top =>
    if x.got.contains r.seq then drop (s.satF (Reg.ING_FLOW_PKT_ERR_DUP f) 1)
    else if diff32 r.seq x.low < 0 ∧ diff32 r.seq top ≤ 0 then drop (s.satF (Reg.ING_FLOW_PKT_ERR_STALE f) 1)
    else if diff32 r.seq top ≤ 0 then accept { x with got := setAdd x.got r.seq } 0
    else
      -- the window moves up: numbers below its new bottom leave it
      let span := unsgn 32 ((top : Int) - x.low) + (diff32 r.seq top).toNat
      let leave := span - 4095
      let low := (x.low + leave) % 2 ^ 32
      let isBelow (g : Nat) : Bool := decide (diff32 g low < 0)
      accept { x with top := some r.seq, low := low, got := setAdd (x.got.filter fun g => !isBelow g) r.seq }
        (leave - (x.got.filter isBelow).length)

/-! ### From port to flow (R404–R406) -/

/-- Discard a received frame that stands on port p. -/
def rxDone (s : State) (p : Nat) (frame : List Byte) : State := s.takeRx p frame

/-- Did the Crucible refuse a frame that stands on port p (R378)? -/
def rxRefused (s : State) (p : Nat) (frame : List Byte) : Bool := match s.rxFind p frame with | some x => x.refused | none => false

/-- The host tunnel (R406). -/
def tunnelToHost (s : State) (p : Nat) (frame : List Byte) : State :=
  match s.rxFind p frame with
  | none => s
  | some x =>
    if x.refused then s.rxRemove p x
    else ((s.rxRemove p x).hostReceive p 0 { x with bytes := frame.take (frame.length - 4) }).addF Reg.ING_RX_STATS_TUNNELED 1

/-- The one's-complement sum of a header's 16-bit words. -/
def ipSum (bs : List Byte) : Nat :=
  let n := ((List.range (bs.length / 2)).map fun i => beAt bs (2 * i) 2).sum
  let m := n / 65536 + n % 65536
  m / 65536 + m % 65536

/-- A Delay_Req of IEEE 1588 in UDP and IPv4, or in IEEE 802.3 (Annex F) where l2, to the group address, or to the master that the
Sync came from. The manual gives no addresses, port identity, sequence number or TTL: open values, and TTL 1 (log entry 103). -/
def delayReqFrame (s : State) (v : Nat) (sync : Option (List Byte)) (l2 : Bool) : List Byte :=
  let da := match sync with
    | some x => (x.drop 6).take 6
    | none => if l2 then [0x01, 0x1B, 0x19, 0, 0, 0] else [0x01, 0x00, 0x5E, 0x00, 0x01, 0x81]
  let ip := match sync with
    | some x => (x.drop (if beAt x 12 2 = 0x8100 then 30 else 26)).take 4
    | none => [224, 0, 1, 129]
  let head (sum : Nat) : List Byte :=
    [0x45, 0] ++ beBytes 2 72 ++ [0, 0, 0, 0, 1, 17] ++ beBytes 2 sum ++ leBytes 4 (v / 2 ^ 64) ++ ip
  let ptp : List Byte := [0x01, 0x02] ++ beBytes 2 44 ++ [BitVec.ofNat 8 (s.f Reg.TB_PTP_CFG_DOMAIN), 0, if sync.isSome then 4 else 0, 0] ++
    List.replicate 12 0 ++ leBytes 10 (v / 2 ^ 96) ++ leBytes 2 (v / 2 ^ 176) ++ [1, 0x7F] ++ List.replicate 10 0
  let eth := da ++ leBytes 6 (v / 2)
  if l2 then eth ++ beBytes 2 0x88F7 ++ ptp
  else eth ++ beBytes 2 0x0800 ++ head (65535 - ipSum (head 0)) ++ beBytes 2 319 ++ beBytes 2 319 ++ beBytes 2 52 ++ [0, 0] ++ ptp

/-- The port identity of the selected master on the PTP port of entry a: that of the last Announce of the selected grandmaster
there, in bytes 20–29 of the message (R109, log entry 17). -/
def selectedMaster (s : State) (a : Nat) : Option (List Byte) :=
  (s.time.ptpIn.find? fun x =>
    x.entry == a && beAt x.msg 0 1 % 16 == 11 && beAt x.msg 53 8 == (s.reg Reg.TB_GM_ID).toNat).map fun x => (x.msg.drop 20).take 10

/-- Keeper firmware may answer a Sync of the selected master with a Delay_Req (R109, R111): when, within the interval of IEEE
1588, is open (log entry 103). It goes into the port's Q5, or waits for the management MAC to send it; unicast under ST 2059-2
where UNICAST_DREQ is set. -/
def delayReq (s : State) (a p : Nat) (frame msg : List Byte) : State :=
  if s.f Reg.TB_STATE_SOURCE = 1 ∧ s.f Reg.TB_STATE_PTP_PORT = a ∧ s.selectedMaster a = some ((msg.drop 20).take 10) then
    let (v, s1) := s.takeFree
    if v % 2 = 0 then s1
    else
      let x := s1.delayReqFrame v (if s.fb Reg.TB_PTP_CFG_UNICAST_DREQ ∧ s.fb Reg.TB_PTP_CFG_PROFILE then some frame else none)
        (decide (128 ≤ p) && s.fb (Reg.TB_PTP_PORT_L2 a))
      if p < 128 then s1.enqueue p 5 { kind := .delayReq, body := x }
      else { s1 with serv := { s1.serv with mmacReq := Tab.put s1.serv.mmacReq (p - 128) x } }
  else s

/-- Is a PTP message one that the part supports: no Pdelay, management or security message (R109)? -/
def ptpTaken (msg : List Byte) : Bool := [0, 8, 9, 11].contains (beAt msg 0 1 % 16)

/-- A PTP message of the domain goes to Keeper firmware with the timestamp of its reception at T_Q q, less the board's latency (R110, R111). An
Announce of the selected grandmaster tells of UTC (R112): currentUtcOffset lies at bytes 44–45 of the message, the
grandmaster's identity at bytes 53–60 (log entry 17). -/
def ptpToKeeper (s : State) (p q : Nat) (frame msg : List Byte) : State :=
  match s.ptpEntry p with
  | some a =>
    if ptpTaken msg then
      let x : PtpStamp := { entry := a, tq := (q : Int) - (65536 * s.f (Reg.TB_PTP_PORT_RX_LAT a) : Nat), msg := msg }
      let s1 := s.setTime { s.time with ptpIn := x :: s.time.ptpIn }
      if beAt msg 0 1 % 16 = 11 then
        if s.f Reg.TB_STATE_SOURCE = 1 ∧ s.f Reg.TB_STATE_PTP_PORT = a ∧ beAt msg 53 8 = (s.reg Reg.TB_GM_ID).toNat then
          (s1.setF Reg.TB_UTC_VALID 1).setF Reg.TB_UTC_UTC_OFFSET (beAt msg 44 2)
        else s1
      else if beAt msg 0 1 % 16 = 0 then s1.delayReq a p frame msg
      else s1
    else s
  | none => s

/-- Was flow f enabled as a packet of FCLK k arrived? One that arrives in the FCLK of the enabling write meets the old state
(R409). -/
def flowOnFor (s : State) (f k : Nat) : Bool := s.flowOn f && (match (s.flow f).onAt with | some e => decide (e < k) | none => true)

/-- The flow that matches a packet that arrived on port p in FCLK k (R405). -/
def flowMatch (s : State) (p k ip udp ssrc : Nat) : Option Nat :=
  (List.range 512).find? fun f => s.flowOnFor f k && !s.fb (Reg.ING_FLOW_CTRL_SRC_CHAIN f) && s.f (Reg.ING_FLOW_PORT_PORT f) == p &&
    s.f (Reg.ING_FLOW_DST_DST_IP f) == ip && s.f (Reg.ING_FLOW_PORT_UDP_PORT f) == udp && s.f (Reg.ING_FLOW_SSRC_SSRC f) == ssrc

/-- A packet that the meter has kept: its last Billet is asked for, and a frame that the Crucible has refused is gone; else it
reaches the window (steps 8 and 9 of R404). -/
def admitted (s : State) (p f : Nat) (frame rtp : List Byte) (colour : Nat) : State :=
  let s1 := s.askLastBillet p frame
  match s1.rxFind p frame with
  | none => s1
  | some x =>
    if x.refused then s1.rxRemove p x
    else ((s1.addF (if colour = 1 then Reg.POL_PASS_YELLOW f else Reg.POL_PASS_GREEN f) 1).rxRemove p x).sequence f rtp p x.billets

/-- A matched packet: payload header, policer, window (steps 7–10 of R404). The meter runs before the last Billet is asked for, and
sees SH with the others (R380, R381). -/
def matched (s0 : State) (p f : Nat) (frame rtp : List Byte) : State :=
  let s := s0.setF (Reg.ING_FLOW_PATH_DOWN f) 0
  let r := rtpOf rtp
  if r.version ≠ 2 ∨ (s.fb (Reg.ING_FLOW_PORT_PT_ANY f) = false ∧ r.pt ≠ s.f (Reg.ING_FLOW_PORT_PT f)) ∨ r.payload.length < 6 then
    (((s.askLastBillet p frame).rxDone p frame).satF (Reg.ING_FLOW_PKT_ERR_BAD_RTP f) 1).ingRaise [Flag.INGEST_BAD_PACKET]
  else
    let (colour, s1) := s.meter f frame.length
    if colour = 2 then (s1.rxDone p frame).addF (Reg.POL_DROP_DROP_RED f) 1
    else if colour = 1 ∧ (s.f Reg.CRU_CFG_YELLOW_THRESHOLD ≤ s.f Reg.CRU_SHARED_IN_USE ∨ s.sf Reg.PWR_STATE_GOV_STEP = 3) then
      (s1.rxDone p frame).addF (Reg.POL_DROP_DROP_YELLOW f) 1
    else s1.admitted p f frame rtp colour

/-- A frame that stands on an INGEST port is handled (R404). Each frame but one that a flow matches asks for its last Billet
first. -/
def ingestFrame (s : State) (p : Nat) (frame : List Byte) : State :=
  match s.rxFind p frame with
  | none => s
  | some x =>
    if s.role p ≠ 2 then s
    else
      let t := s.askLastBillet p frame
      let body := frame.take (frame.length - 4)
      if bit (beAt body 0 1) 0 = false ∧ leAt body 0 6 ≠ s.f (Reg.ING_PORT_MAC_MAC p) ∧ s.fb (Reg.ING_PORT_MAC_ACCEPT_ALL p) = false then
        (t.rxDone p frame).satF Reg.ING_RX_STATS_NOT_OURS 1
      else
        let o := if beAt body 12 2 = 0x8100 then 18 else 14
        let ip := body.drop o
        let ihl := 4 * (beAt ip 0 1 % 16)
        if beAt body (o - 2) 2 ≠ 0x0800 ∨ beAt ip 9 1 ≠ 17 ∨ beAt ip 6 2 % 2 ^ 14 ≠ 0 then t.tunnelToHost p frame
        else if beAt ip 0 1 / 16 ≠ 4 ∨ ihl < 20 ∨ ip.length < ihl ∨ ipSum (ip.take ihl) ≠ 0xFFFF then
          (t.rxDone p frame).satF Reg.ING_RX_STATS_IP_ERR 1
        else
          let udp := (ip.take (beAt ip 2 2)).drop ihl
          let dst := beAt udp 2 2
          let msg := (udp.take (beAt udp 4 2)).drop 8
          if (dst = 319 ∨ dst = 320) ∧ (s.ptpEntry p).isSome ∧ beAt msg 4 1 = s.f Reg.TB_PTP_CFG_DOMAIN then
            (if t.rxRefused p frame then t.rxDone p frame else (t.rxDone p frame).ptpToKeeper p x.tq frame msg)
          else
            match s.flowMatch p x.fclk (beAt ip 16 4) dst (beAt msg 8 4) with
            | none => t.tunnelToHost p frame
            | some f => s.matched p f frame msg

/-- A REPLICA is received on chain port p for flow f (R423, R446). -/
def replicaReceived (s : State) (p f : Nat) (rtp : List Byte) : State :=
  match s.chain.joined.contains p, (s.port p).rx with
  | true, x :: r =>
    let s1 := s.replicate f rtp
    if s.flowOnFor f x.fclk ∧ s.fb (Reg.ING_FLOW_CTRL_SRC_CHAIN f) ∧ 6 ≤ (rtpOf rtp).payload.length then
      (s1.setPort p { s1.port p with rx := r }).sequence f rtp p x.billets
    else s1.chainTake p
  | _, _ => s.chainTake p

/-! ### The writer (R410–R413, R418, R424) -/

/-- Is the SRD dropped (R410)? -/
def srdBad (s : State) (f : Nat) (x : Srd) : Bool :=
  let sm := s.f (Reg.ING_FLOW_FMT_SAMPLING f)
  let n := ingDepth (s.f (Reg.ING_FLOW_FMT_DEPTH f))
  let w := s.f (Reg.ING_FLOW_SIZE_WIDTH f)
  let h := s.f (Reg.ING_FLOW_SIZE_HEIGHT f)
  let block := s.fb (Reg.ING_FLOW_FMT_PACKING f)
  let px := x.data.length / pgBytes sm n * pgPixels sm n
  -- the bytes of a final partial block beyond the frame's last pgroup are ignored
  let past := (x.offset + px - w) / pgPixels sm n * pgBytes sm n
  let tail := block && x.row + 1 == h && decide (past < 180)
  !x.whole || decide (h ≤ x.row) || x.data.length % pgBytes sm n != 0 || (block && x.data.length % 180 != 0) ||
  decide (w ≤ x.offset) || (decide (w < x.offset + px) && !tail)

/-- The pixels of an SRD as the target's words, or, for a KEY flow, its K values. -/
def srdWords (s : State) (f v : Nat) (x : Srd) : List Nat :=
  let sm := s.f (Reg.ING_FLOW_FMT_SAMPLING f)
  let n := ingDepth (s.f (Reg.ING_FLOW_FMT_DEPTH f))
  let b := pgBytes sm n
  let tgt := s.f (Reg.ING_FLOW_FMT_TARGET v)
  let key := s.flowRole f == 2
  let all := (List.range (x.data.length / b)).flatMap fun g =>
    let pg := (x.data.drop (b * g)).take b
    let y (i : Nat) : Nat := pgSample n (8 * b) pg i
    if sm = 0 then
      if key then [sampleTo n 10 (y 1), sampleTo n 10 (y 3)]
      else if tgt = 8 then [word422 n (y 1) (y 0), word422 n (y 3) (y 2)]
      else [targetWord tgt n (y 2) (y 1) (y 0), targetWord tgt n (y 2) (y 3) (y 0)]
    else (List.range (pgPixels sm n)).map fun q =>
      if sm = 1 then targetWord tgt n (y (3 * q + 2)) (y (3 * q + 1)) (y (3 * q))
      else targetWord tgt n (y (3 * q)) (y (3 * q + 1)) (y (3 * q + 2))
  all.take (s.f (Reg.ING_FLOW_SIZE_WIDTH f) - x.offset)

/-- Count pixels of the frame of flow v. -/
def countFramePixels (s : State) (v n : Nat) (key : Bool) : State :=
  match (s.flow v).frame with
  | some x =>
    let y : VideoFrame := if key then { x with keyPixels := x.keyPixels + n } else { x with pixels := x.pixels + n }
    s.setFlow v { s.flow v with frame := some y }
  | none => s

/-- Stage pixels of a fill-plus-key pair, and write the rows that are due (R413). -/
def stage (s : State) (v j off : Nat) (ws : List Nat) (key : Bool) : State :=
  match (s.flow v).frame with
  | none => s
  | some x =>
    if x.doneRows.contains j then s
    else
      let old := Tab.get x.rows j {}
      let put (t : Tab Nat) : Tab Nat := (List.range ws.length).foldl (fun u i => Tab.put u (off + i) (ws.getD i 0)) t
      let row : StagedRow := if key then { old with key := put old.key } else { old with fill := put old.fill }
      let y : VideoFrame := { x with rows := Tab.put x.rows j row }
      let s1 := s.setFlow v { s.flow v with frame := some y }
      let w := s.f (Reg.ING_FLOW_SIZE_WIDTH v)
      let s2 := if row.fill.length = w ∧ row.key.length = w then s1.writeStaged v y j else s1
      -- rows that this flow has left 64 rows behind
      (y.rows.filter fun z => decide (z.1 + 64 ≤ j)).foldl (fun t z => t.writeSkewed v z.1) s2

/-- Write one SRD of flow f into the frame of VIDEO flow v. -/
def writeSrd (s : State) (f v : Nat) (x : Srd) : State :=
  if s.srdBad f x then (s.satF (Reg.ING_FLOW_PKT_ERR_BAD_SRD f) 1).ingRaise [Flag.INGEST_BAD_PACKET]
  else
    match (s.flow v).frame with
    | none => s
    | some fr =>
      let ws := s.srdWords f v x
      let key := s.flowRole f == 2
      let s1 := s.countFramePixels v ws.length key
      if (s.keyOf v).isSome then s1.stage v x.row x.offset ws key
      else
        let surf := s.ringSurf v fr.surf
        let pad := if surf.fmt = 8 then 1023 * 2 ^ 20 else 0
        s1.ingestStore (surf.at' x.offset x.row) (ws.flatMap fun w => leBytes (bppOf surf.fmt) (w + pad))

/-- The writer finishes the oldest waiting packet of flow f (R376, R418). -/
def packetWritten (s : State) (f : Nat) : State :=
  match (s.flow f).waiting with
  | [] => s
  | x :: rest =>
    if s.sourceStalled 14 then s
    else
    let v := s.videoOf f
    let s1 := (s.setFlow f { s.flow f with waiting := rest }).freeBillets x.port x.billets
    match (s1.flow v).frame with
    | none => s1
    | some fr =>
      if fr.ts ≠ x.ts then s1
      else
        let srds := srdsOf x.srd
        let s2 := if srds.any (·.field) then
            (s1.satF (Reg.ING_FLOW_PKT_ERR_BAD_SRD f) srds.length).ingRaise [Flag.INGEST_BAD_PACKET]
          else srds.foldl (fun t y => t.writeSrd f v y) s1
        if x.marker then
          match (s2.flow v).frame with
          | some y =>
            let z : VideoFrame := if s.flowRole f = 2 then { y with keyMark := true } else { y with mark := true }
            s2.setFlow v { s2.flow v with frame := some z }
          | none => s2
        else s2

/-- The frame of VIDEO flow v completes: its markers have been written (R418). -/
def frameComplete (s : State) (v : Nat) : State :=
  match (s.flow v).frame with
  | some x => if x.mark ∧ ((s.keyOf v).isNone ∨ x.keyMark) then s.endFrame v false true else s
  | none => s

/-- A path has been silent for 10 ms (R416). -/
def pathDown (s : State) (f : Nat) : State :=
  if s.flowOn f then (s.setF (Reg.ING_FLOW_PATH_DOWN f) 1).ingRaise [Flag.INGEST_PATH_DOWN] else s

/-! ### Enabling and disabling (R408, R409) -/

/-- The target formats of a sampling (R412). -/
def targetOk (sampling tgt : Nat) : Bool :=
  match sampling with
  | 0 => [8, 7, 9].contains tgt
  | 1 => [5, 7, 9].contains tgt
  | 2 => [4, 6, 7, 9].contains tgt
  | _ => false

/-- The first failing check of R408 for flow f under its written fields; 0 where all pass. -/
def flowCode (s : State) (f : Nat) : Nat :=
  let role := s.flowRole f
  let q := s.partner f
  let chain := s.fb (Reg.ING_FLOW_CTRL_SRC_CHAIN f)
  let port := s.f (Reg.ING_FLOW_PORT_PORT f)
  let sm := s.f (Reg.ING_FLOW_FMT_SAMPLING f)
  let w := s.f (Reg.ING_FLOW_SIZE_WIDTH f)
  let h := s.f (Reg.ING_FLOW_SIZE_HEIGHT f)
  let ring := s.f (Reg.ING_FLOW_CTRL_RING f)
  let surf := s.ringSurf f 0
  let others := (List.range 512).filter fun g => g != f && s.flowOn g
  if role = 3 ∨ (role ≠ 0 ∧ (s.flowOn q = false ∨ (s.flowRole q ≠ 0 ∧ ¬ (role = 1 ∧ s.flowRole q = 2)) ∨
      others.any fun g => s.flowRole g == role && s.partner g == q)) then 1
  else if chain = false ∧ s.role port ≠ 2 then 2
  else if chain = false ∧ others.any (fun g => s.f (Reg.ING_FLOW_PORT_PORT g) == port &&
      s.f (Reg.ING_FLOW_DST_DST_IP g) == s.f (Reg.ING_FLOW_DST_DST_IP f) &&
      s.f (Reg.ING_FLOW_PORT_UDP_PORT g) == s.f (Reg.ING_FLOW_PORT_UDP_PORT f) &&
      s.f (Reg.ING_FLOW_SSRC_SSRC g) == s.f (Reg.ING_FLOW_SSRC_SSRC f)) then 3
  else if chain = false ∧ role = 1 ∧ s.f (Reg.ING_FLOW_PORT_PORT q) = port then 4
  else if role ≠ 1 ∧ (sm = 3 ∨ s.f (Reg.ING_FLOW_FMT_DEPTH f) = 3 ∨ (role = 0 ∧ targetOk sm surf.fmt = false) ∨
      (role = 2 ∧ (sm ≠ 0 ∨ s.f (Reg.ING_FLOW_FMT_TARGET q) ≠ 8))) then 5
  else if role ≠ 1 ∧ (w = 0 ∨ h = 0 ∨ (sm = 0 ∧ w % 2 = 1) ∨
      (role = 2 ∧ (w ≠ s.f (Reg.ING_FLOW_SIZE_WIDTH q) ∨ h ≠ s.f (Reg.ING_FLOW_SIZE_HEIGHT q)))) then 6
  else if role = 0 ∧ (ring < 2 ∨ 8 < ring ∨ surf.stride < w * bppOf surf.fmt ∨
      256 * s.f (Reg.ING_RING_SPACING_SPACING f) < surf.stride * (h - 1) + surf.rowBytes ∨
      s.capacity < (s.ringSurf f (ring - 1)).limit) then 7
  else if role = 0 ∧ s.f (Reg.ING_FLOW_CTRL_PRESENT_LATENCY f) = 0 then 8
  else if (chain ∧ s.chainRole ≠ 2 ∧ s.chainRole ≠ 3) ∨ (s.fb (Reg.ING_FLOW_CTRL_REPLICATE f) ∧ s.chainRole ≠ 1) ∨
      (chain ∧ role ≠ 0) then 9
  else 0

/-- Flow f is disabled: the frame it fills is abandoned without presentation. -/
def flowOff (s : State) (f : Nat) : State :=
  if s.flowOn f then
    let s1 := if s.flowRole f = 1 then s else s.abandon (s.videoOf f) false
    let x := s1.flow f
    let s2 := x.waiting.foldl (fun t y => t.freeBillets y.port y.billets)
      (s1.setFlow f { x with waiting := [], top := none, low := 0, got := [], dropTs := [] })
    (s2.setF (Reg.ING_FLOW_CTRL_EN f) 0).setF Reg.ING_FLOWS_ON_COUNT (s2.f Reg.ING_FLOWS_ON_COUNT - 1)
  else s

/-- Flow f and its members, and theirs, are disabled. -/
def flowAllOff (s : State) (f : Nat) : State :=
  let of' (q : Nat) : List Nat := (List.range 512).filter fun g => s.flowOn g && s.flowRole g != 0 && s.partner g == q
  let ms := of' f
  ((ms.flatMap of' ++ ms) ++ [f]).foldl flowOff s

/-- A write of ING_FLOW_CTRL (R408, R409). -/
def ingFlowCtrlWrite : WriteEffect := fun _ x new _ _ s =>
  let f := x.idx.headD 0
  if s.flowOn f then
    if bit new 31 then s.ingRaise [Flag.INGEST_CFG_REFUSED]
    else (s.flowAllOff f).setReg x.addr (BitVec.ofNat 64 new)
  else
    let s1 := s.setReg x.addr (BitVec.ofNat 64 (putBits new 31 31 0))
    if bit new 31 = false then s1
    else if s1.flowCode f ≠ 0 then (s1.setF (Reg.ING_FLOW_REJECT_CODE f) (s1.flowCode f)).ingRaise [Flag.INGEST_FLOW_REFUSED]
    else
      -- its ring starts FREE (log entry 18)
      let y := s1.flow f
      ((s1.setFlow f { y with onAt := some s.fclk, surfs := [], order := 0, top := none, low := 0, got := [], frame := none, dropTs := [], waiting := [] }).setF
        (Reg.ING_FLOW_CTRL_EN f) 1).setF Reg.ING_FLOWS_ON_COUNT (s.f Reg.ING_FLOWS_ON_COUNT + 1)

/-- A write of a flow's configuration: ignored while the flow is enabled (R409). -/
def ingFlowCfgWrite : WriteEffect := fun r x new d mask s =>
  if s.flowOn (x.idx.headD 0) then s.ingRaise [Flag.INGEST_CFG_REFUSED] else plainWrite r x new d mask s

/-- ING_FLOW_STATE as it stands (R429); a flow that is not enabled has no ring, and a member owns none (R407). -/
def flowState (s : State) (f : Nat) : Nat :=
  let x := s.flow f
  let ks := if s.flowRole f = 0 then List.range (s.f (Reg.ING_FLOW_CTRL_RING f)) else []
  let mode (k : Nat) : Nat := (Tab.get x.surfs k {}).mode
  s.f (Reg.ING_FLOW_STATE_LAST_TS f) * 2 ^ 32 + maskOf (ks.filter fun k => mode k == 1) * 2 ^ 24 +
    maskOf (ks.filter fun k => mode k == 2) * 2 ^ 16 + maskOf (ks.filter (s.surfHeld f)) * 2 ^ 8 +
    (if s.flowOn f then maskOf (ks.filter fun k => mode k == 0) else 0)

end State
end Sys2Proof.Machine
end

