-- ==== Sys2Proof/Machine/Ddr.lean ====
section
/-! DEFINITION. DDR4 channels and the Slab (R499–R520): low-power states, refresh, integrity, training. -/

namespace Sys2Proof.Machine
namespace State

/-- STATE of channel c: 0 UNTRAINED, 1 READY, 2 POWER_DOWN, 3 SELF_REFRESH, 4 FAULT (R516). -/
def mcState (s : State) (c : Nat) : Nat := s.f (Reg.MC_STATE_STATE c)

/-- Set STATE of channel c. -/
def setMcState (s : State) (c st : Nat) : State := s.setF (Reg.MC_STATE_STATE c) st

/-- tRFC in ns for a component density (R505, R509). -/
def tRfc (density : Nat) : Nat := if density = 0 then 350 else 550

/-- T_REQ in ns: three times the transfer of 256 bytes at a speed bin, rounded (R505). -/
def tReq (speed : Nat) : Nat := match speed with | 0 => 40 | 1 => 36 | 2 => 33 | _ => 30

/-- Channel c has been trained (R500, R505, R507). -/
def trainChannel (s : State) (speed density ranks c : Nat) : State :=
  let s1 := (((s.setF (Reg.MC_STATE_SPEED c) speed).setF (Reg.MC_STATE_DENSITY c) density).setF (Reg.MC_STATE_RANKS c)
    (ranks - 1)).setMcState c 1
  (((s1.setF (Reg.MC_TIMING_SR_EXIT_NS c) (640 + tRfc density)).setF (Reg.MC_TIMING_PD_EXIT_NS c) 24).setF
    (Reg.MC_STALL_STALL_NS c) (tRfc density + 64 * tReq speed)).setF (Reg.MC_STALL_T_REQ_NS c) (tReq speed)

/-- WORK of channel c in ns: the requests in its four queues, T_REQ each (R505). -/
def mcWork (s : State) (c : Nat) : Nat := (s.chan c).count * s.f (Reg.MC_STALL_T_REQ_NS c)

/-- The minimum tolerance of channel c allows a state whose exit takes the given ns, over the work that waits (R505). -/
def mayWait (s : State) (c exit : Nat) : Bool :=
  decide (exit + s.mcWork c + s.f (Reg.MC_PWR_CFG_MARGIN_NS c) ≤ s.f (Reg.MC_TOL_NS c))

/-- Has channel c held no request for the given FCLKs (R505)? -/
def idleFor (s : State) (c n : Nat) : Bool := !s.chanBusy c && decide ((s.chan c).busy + n ≤ s.fclk)

/-- The FCLKs of a channel's stays in power-down and self-refresh, the present one included (R518). -/
def residency (s : State) (c : Nat) : Nat × Nat :=
  let x := s.chan c
  let now := s.fclk - x.since
  (x.pd + (if s.mcState c = 2 then now else 0), x.sr + (if s.mcState c = 3 then now else 0))

/-- MC_RESIDENCY as it reads: µs, 3,000 FCLK each, wrapping. -/
def residencyWord (s : State) (c : Nat) : Nat :=
  (s.residency c).2 / 3000 % 2 ^ 32 * 2 ^ 32 + (s.residency c).1 / 3000 % 2 ^ 32

/-- Channel c goes from one state to another, with its stay counted. -/
def enterMc (s : State) (c st : Nat) : State :=
  let r := s.residency c
  (s.setChan c { s.chan c with pd := r.1, sr := r.2, since := s.fclk }).setMcState c st

/-- The exit latency of channel c from power-down or self-refresh (R505). -/
def exitNs (s : State) (c st : Nat) : Nat := if st = 2 then s.f (Reg.MC_TIMING_PD_EXIT_NS c) else s.f (Reg.MC_TIMING_SR_EXIT_NS c)

/-- May channel c enter precharge power-down (R505)? -/
def mayPowerDown (s : State) (c : Nat) : Bool :=
  s.mcState c == 1 && s.fb (Reg.MC_PWR_CFG_PD_EN c) && s.idleFor c (3 * s.f (Reg.MC_PWR_CFG_PD_IDLE_NS c)) &&
    s.mayWait c (s.exitNs c 2)

/-- May channel c enter self-refresh (R505), from READY or from power-down? -/
def maySelfRefresh (s : State) (c : Nat) : Bool :=
  (s.mcState c == 1 || s.mcState c == 2) && s.fb (Reg.MC_PWR_CFG_SR_EN c) &&
    s.idleFor c (3000 * s.f (Reg.MC_PWR_CFG_SR_IDLE_US c)) && s.mayWait c (s.exitNs c 3)

/-- Does channel c leave its low-power state: a request has come, or tolerance has fallen below the entry condition (R506)? -/
def mustWake (s : State) (c : Nat) : Bool :=
  (s.mcState c == 2 || s.mcState c == 3) && (s.chanBusy c || !s.mayWait c (s.exitNs c (s.mcState c)))

/-- Precharge power-down (R505). -/
def powerDownEntry (s : State) (c : Nat) : State := if s.mayPowerDown c then s.enterMc c 2 else s

/-- Self-refresh (R505). -/
def selfRefreshEntry (s : State) (c : Nat) : State := if s.maySelfRefresh c then s.enterMc c 3 else s

/-- The channel leaves its low-power state (R506). -/
def lowPowerExit (s : State) (c : Nat) : State := if s.mustWake c then s.enterMc c 1 else s

/-- A refresh interval expires (R507): the refresh is issued with the postponed ones, or postponed, or issued alone once
eight are postponed. A channel in self-refresh refreshes itself. -/
def refreshDue (s : State) (c : Nat) : State :=
  if s.mcState c = 1 ∨ s.mcState c = 2 then
    let x := s.chan c
    if s.mayWait c (tRfc (s.f (Reg.MC_STATE_DENSITY c))) then s.setChan c { x with postponed := 0, caTries := 0 }
    else if x.postponed < 8 then s.setChan c { x with postponed := x.postponed + 1 }
    else s.setChan c { x with caTries := 0 }
  else s

/-- Channel c gives up (R510). -/
def mcFault (s : State) (c : Nat) : State := (s.enterMc c 4).mcRaise c [Flag.MC_FAULT]

/-- Is channel c trained and not in FAULT? -/
def mcLives (s : State) (c : Nat) : Bool := s.mcState c != 0 && s.mcState c != 4

/-- The DRAM signals a command/address parity error (R510). -/
def caAlert (s : State) (c : Nat) : State :=
  if s.mcLives c then
    let x := s.chan c
    let s1 := s.mcRaise c [Flag.MC_CA_PARITY]
    if x.caTries < 3 then (s1.setChan c { x with caTries := x.caTries + 1 }).satF (Reg.MC_ECC_COUNTS_CA_RETRY c) 1
    else s1.mcFault c
  else s

/-- The DRAM signals a write CRC error (R510). -/
def crcAlert (s : State) (c : Nat) : State :=
  if s.mcLives c then
    let x := s.chan c
    let s1 := s.mcRaise c [Flag.MC_WR_CRC]
    if x.crcTries < 3 then (s1.setChan c { x with crcTries := x.crcTries + 1 }).satF (Reg.MC_ECC_COUNTS_WR_RETRY c) 1
    else s1.mcFault c
  else s

/-- Region and offset of a word in a Slab window (R512, R519). -/
def slabWord (a : Nat) : Option (Nat × Nat) :=
  if bits a 39 32 = 0xE0 ∧ bits a 31 0 < 0x8000000 then some (0, bits a 31 3 * 8)
  else if bits a 39 32 = 0xE8 ∧ bits a 31 0 < 0x1000000 ∧ clusterStore (bits a 31 0) then some (3, bits a 31 3 * 8)
  else none

/-- A Slab word has been read (R514, R515). The table's rows have no other event that brings an error of a Slab word: an
address in a Slab window names it, and no channel is looked at (log entry 106). -/
def slabRead (s : State) (a : Nat) (e : Ecc) (w : Nat × Nat) (scrub : Bool) : State :=
  -- the scrubber starts once the channels have been trained (R520)
  if scrub = true ∧ (s.fb Reg.SLAB_SCRUB_EN = false ∨ s.ddrReady = false) then s
  else if e = .uncorrectable ∨ s.poison.contains (a / 8 * 8) then (s.addPoison a 1).slabUe w.1 w.2
  else if e = .correctable then s.slabCe
  else s

/-- A word of the line buffer of an engine has been read with an error (R514): it is recorded as region 2, and the bytes of an
uncorrectable one are zero from then on, as R186 has it. The manual maps no line buffer: MC_READ_COMPLETE names the word at
byte o of the region as address 0xE2_0000_0000 + o, and the k-th of the bursts that an engine holds lies at 256 · k of its 512 KiB
(log entry 106). -/
def lineBufferRead (s : State) (o : Nat) (e : Ecc) (scrub : Bool) : State :=
  let n := o / 0x80000
  let eng := s.engine n
  if scrub = true ∧ (s.fb Reg.SLAB_SCRUB_EN = false ∨ s.ddrReady = false) then s
  else match e with
    | .clean => s
    | .correctable => s.slabCe
    | .uncorrectable =>
      let s1 := s.slabUe 2 (o / 8 * 8)
      match eng.buf[o % 0x80000 / 256]? with
      | none => s1
      | some x =>
        let i := o % 256 / 8 * 8
        let bs := x.2.take i ++ List.replicate 8 (0 : Byte) ++ x.2.drop (i + 8)
        ((s1.setEngine n { s1.engine n with buf := Tab.put eng.buf x.1 bs }).satF (Reg.LE_EVENTS_POISON_BURSTS n) 1).raise
          (Reg.LE_BLOCK_STATUS n) Flag.LE_POISON

/-- The source of channel c's patrol scrub in its blit queue (R511). -/
def scrubSource (c : Nat) : Nat := 192 + c

/-- The word at address a has been read from channel c (R510, R511), or from the Slab. A word known to be uncorrectable
stays so. A read of the patrol scrub stands in the blit queue for its slot. -/
def readComplete (s : State) (c a : Nat) (e : Ecc) (scrub : Bool) : State :=
  match slabWord a with
  | some w => s.slabRead a e w scrub
  | none =>
  if bits a 39 24 = 0xE200 then s.lineBufferRead (a % 2 ^ 24) e scrub
  else if s.mcState c = 1 ∧ a / 256 % 16 = c ∧ a < s.capacity ∧
      (scrub = false ∨ (s.fb (Reg.MC_SCRUB_EN c) ∧ s.sourceStalled (scrubSource c) = false)) then
    let s0 := s.setChan c { s.chan c with caTries := 0 }
    let s1 := if scrub then s0.request .blit (scrubSource c) (a / 256 * 256) 256 else s0
    if e = .uncorrectable ∨ s.poison.contains (a / 8 * 8) then (s1.addPoison a 1).mcUe c a scrub
    else if e = .correctable then
      (((s1.satF (Reg.MC_ECC_COUNTS_CE c) 1).mcLog c a false scrub).mcRaise c [Flag.MC_CE])
    else s1
  else s

/-- A pass of the patrol scrub ends (R511, R520). -/
def scrubPassDone (s : State) (c : Nat) : State :=
  if s.ddrReady ∧ s.fb (Reg.MC_SCRUB_EN c) ∧ (s.mcState c = 1 ∨ s.mcState c = 2) then s.mcRaise c [Flag.MC_SCRUB_DONE] else s

/-- A write of MC_REFRESH (R509). -/
def mcRefreshWrite : WriteEffect := fun _ x new _ _ s =>
  let was := s.fb (Reg.MC_REFRESH_DOUBLE x.inst)
  let s1 := (s.setReg x.addr (BitVec.ofNat 64 new)).setF (Reg.MC_STATE_DERATED x.inst) (bits new 0 0)
  if was = false ∧ bit new 0 then s1.mcRaise x.inst [Flag.MC_DERATED] else s1

/-- A pass of the Slab scrubber ends (R515, R520). -/
def slabPassDone (s : State) : State :=
  if s.ddrReady ∧ s.fb Reg.SLAB_SCRUB_EN then s.raiseAll Reg.SLAB_BLOCK_STATUS [Flag.SLAB_SCRUB_DONE] else s

/-! ### What a channel does in an FCLK (R502, R503) -/

/-- Does channel c serve requests: trained and awake; in FAULT it answers at once that they fail (R506, R510)? -/
def answers (s : State) (c : Nat) : Bool := s.mcState c == 1 || s.mcState c == 4

/-- Channel c in an FCLK: a slot of its data bus, the time of 256 bytes, ends every T_REQ_NS FCLKs (R503, R505). -/
def chanTick (s : State) (c : Nat) : State :=
  let s1 := if s.chanBusy c then s.setChan c { s.chan c with busy := s.fclk } else s
  if s1.answers c ∧ s1.fclk % max 1 (s1.f (Reg.MC_STALL_T_REQ_NS c)) = 0 then
    match s1.slotPasses c with
    | (some r, s2) => s2.fetchGranted r
    | (none, s2) => s2
  else s1

/-- Every channel that holds a request record, then every layer engine with spans to fetch, and the engines' plans. -/
def memTick (s : State) : State :=
  let s1 := s.chans.foldl (fun (t : State) x => t.chanTick x.1) s
  forN 16 (fun m t => t.planAhead m) (s1.engines.foldl (fun (t : State) x => t.issueFetch x.1) s1)

/-- A Slab bank drops to retention voltage: no value and no timing that software sees changes (R515). -/
def slabRetention (s : State) : State := s

end State
end Sys2Proof.Machine
end

