-- ==== Sys2Proof/Machine/Blit.lean ====
section
/-! DEFINITION. Blit engines (R462–R481): rings, the checks of a descriptor, FILL, COPY and CONVERT, completion. -/

namespace Sys2Proof.Machine

/-- A descriptor's fields (R465). -/
structure BltDesc where
  op : Nat
  notify : Bool
  full : Bool
  matrix : Nat
  src : Surf
  sx : Nat
  sy : Nat
  w : Nat
  h : Nat
  dst : Surf
  dx : Nat
  dy : Nat
  fill : Nat
  ctrlRsv : Nat
  srcRsv : Nat
  dstRsv : Nat
  deriving DecidableEq, Repr

/-- The descriptor in 64 bytes. -/
def bltDesc (bs : List Byte) : BltDesc :=
  let c := leAt bs 0 4
  { op := bits c 31 28, notify := bit c 27, full := bit c 26, matrix := bits c 25 24,
    src := { base := bits (leAt bs 8 8) 39 0, stride := leAt bs 0x10 4, width := leAt bs 0x14 2, height := leAt bs 0x16 2, fmt := bits c 7 0 },
    sx := leAt bs 0x18 2, sy := leAt bs 0x1A 2, w := leAt bs 0x1C 2, h := leAt bs 0x1E 2,
    dst := { base := bits (leAt bs 0x20 8) 39 0, stride := leAt bs 0x28 4, width := leAt bs 0x2C 2, height := leAt bs 0x2E 2, fmt := bits c 15 8 },
    dx := leAt bs 0x30 2, dy := leAt bs 0x32 2, fill := leAt bs 0x38 8,
    ctrlRsv := bits c 23 16, srcRsv := bits (leAt bs 8 8) 63 40, dstRsv := bits (leAt bs 0x20 8) 63 40 }

namespace BltDesc

/-- The used surfaces with the rectangle's corner in each: for FILL the destination alone (R465). -/
def used (d : BltDesc) : List (Surf × Nat × Nat) :=
  if d.op = 1 then [(d.dst, d.dx, d.dy)] else [(d.src, d.sx, d.sy), (d.dst, d.dx, d.dy)]

/-- First and last byte of the rectangle's span in a surface (R468). -/
def span (d : BltDesc) (x : Surf) (ox oy : Nat) : Nat × Nat :=
  (x.at' ox oy, x.at' ox oy + (d.h - 1) * x.stride + d.w * bppOf x.fmt - 1)

/-- The spans share a byte. -/
def overlaps (d : BltDesc) : Bool :=
  let a := d.span d.src d.sx d.sy
  let b := d.span d.dst d.dx d.dy
  decide (a.1 ≤ b.2) && decide (b.1 ≤ a.2)

/-- A format outside what CONVERT reads or writes (R471). -/
def convertBad (d : BltDesc) : Bool :=
  d.src.fmt == 10 || d.dst.fmt == 10 || d.dst.fmt == 5 || d.dst.fmt == 8 ||
  ((d.matrix == 1 || d.matrix == 2) && d.src.fmt != 5 && d.src.fmt != 8)

/-- The first check of R467 that fails; 0 where all pass. -/
def check (d : BltDesc) (capacity : Nat) : Nat :=
  let us := d.used
  if d.op = 0 ∨ 3 < d.op then 0x01
  else if d.ctrlRsv ≠ 0 ∨ (d.op ≠ 1 ∧ d.srcRsv ≠ 0) ∨ d.dstRsv ≠ 0 ∨
      (d.op = 1 ∧ bppOf d.dst.fmt ≠ 0 ∧ d.fill / 256 ^ bppOf d.dst.fmt ≠ 0) then 0x02
  else if (us.any fun u => bppOf u.1.fmt == 0) ∨ (d.op = 2 ∧ d.src.fmt ≠ d.dst.fmt) ∨ d.matrix = 3 ∨
      (d.op = 3 ∧ d.convertBad) then 0x03
  else if (us.any fun u => u.1.width == 0 || u.1.height == 0) ∨ d.w = 0 ∨ d.h = 0 then 0x04
  else if us.any fun u => u.1.base % 256 != 0 || u.1.stride % 64 != 0 then 0x05
  else if us.any fun u => decide (u.1.stride < u.1.width * bppOf u.1.fmt) then 0x06
  else if us.any fun u => decide (capacity < u.1.limit) then 0x07
  else if us.any fun u => decide (u.1.width < u.2.1 + d.w) || decide (u.1.height < u.2.2 + d.h) then 0x08
  else if us.any fun u => u.1.fmt == 8 && (u.2.1 % 2 == 1 || d.w % 2 == 1) then 0x09
  else if d.op ≠ 1 ∧ d.overlaps ∧ (d.src.stride ≠ d.dst.stride ∨ bppOf d.src.fmt ≠ bppOf d.dst.fmt) then 0x0A
  else 0

/-- Does the engine go from last to first (R468)? A FILL reads no source and goes forward. -/
def backward (d : BltDesc) : Bool := d.op != 1 && decide (d.src.at' d.sx d.sy < d.dst.at' d.dx d.dy)

/-- First byte of row j of the rectangle in a surface with the rectangle's corner at (ox, oy), and its bytes. -/
def rowStart (x : Surf) (ox oy j : Nat) : Nat := x.at' ox (oy + j)
def rowLen (d : BltDesc) (x : Surf) : Nat := d.w * bppOf x.fmt

/-- The aligned 256-byte spans that n bytes from a on touch, rising (R462). -/
def spansOf (a n : Nat) : List Nat := (List.range ((a % 256 + n + 255) / 256)).map fun i => a / 256 * 256 + 256 * i

/-- The first byte of row j of the destination that span a holds, and the byte after the last. -/
def cut (d : BltDesc) (j a : Nat) : Nat × Nat :=
  let r := rowStart d.dst d.dx d.dy j
  (max a r, min (a + 256) (r + d.rowLen d.dst))

/-- The pixels of row j that span a of the destination holds in whole or in part: the first, and how many. -/
def cutPixels (d : BltDesc) (j a : Nat) : Nat × Nat :=
  let r := rowStart d.dst d.dx d.dy j
  let (lo, hi) := d.cut j a
  let b := max 1 (bppOf d.dst.fmt)
  ((lo - r) / b, (hi - 1 - r) / b + 1 - (lo - r) / b)

/-- The source spans, rising, that the pixels of span a of row j of the destination need: their own bytes and, for chroma of format
0x08, those of the neighbours within the row (R176, R471). -/
def needs (d : BltDesc) (j a : Nat) : List Nat :=
  let (i, n) := d.cutPixels j a
  let m := if d.src.fmt = 8 then 2 else 0
  let first := i - m
  let last := min (d.w - 1) (i + n - 1 + m)
  let b := bppOf d.src.fmt
  spansOf (rowStart d.src d.sx d.sy j + first * b) ((last + 1 - first) * b)

/-- The bursts of row j in the order of traversal (R462, R468): each span of the destination, after the spans of the source that it
needs and that have not been read. -/
def rowBursts (d : BltDesc) (j : Nat) : List BltBurst :=
  let turn (l : List Nat) : List Nat := if d.backward then l.reverse else l
  ((turn (spansOf (rowStart d.dst d.dx d.dy j) (d.rowLen d.dst))).flatMap fun a =>
    (if d.op = 1 then [] else (turn (d.needs j a)).map fun x => ⟨false, j, x⟩) ++ [⟨true, j, a⟩]).eraseDups

/-- The bursts of the operation, rows in the order of traversal. -/
def bursts (d : BltDesc) : List BltBurst :=
  let rows := List.range d.h
  (if d.backward then rows.reverse else rows).flatMap d.rowBursts

end BltDesc

/-- Alpha of a pixel word as a 16-bit code (R471): all ones without alpha. -/
def alpha16 (fmt w : Nat) : Nat :=
  match fmt with
  | 2 => expandBits 1 (bits w 15 15)
  | 3 => expandBits 4 (bits w 15 12)
  | 6 => expandBits 8 (bits w 31 24)
  | 7 => expandBits 2 (bits w 31 30)
  | 8 => expandBits 10 (bits w 29 20)
  | 9 => bits w 63 48
  | _ => 0xFFFF

/-- A 16-bit code as an n-bit destination channel (R471). -/
def narrowCode (n v : Nat) : Nat := (roundDiv ((v * (2 ^ n - 1) : Nat) : Int) 65535).toNat

/-- The pixel word of an RGB destination format (R172, R471). -/
def packWord (fmt r g b a : Nat) : Nat :=
  let q := narrowCode
  match fmt with
  | 1 => q 5 r * 2 ^ 11 + q 6 g * 2 ^ 5 + q 5 b
  | 2 => q 1 a * 2 ^ 15 + q 5 r * 2 ^ 10 + q 5 g * 2 ^ 5 + q 5 b
  | 3 => q 4 a * 2 ^ 12 + q 4 r * 2 ^ 8 + q 4 g * 2 ^ 4 + q 4 b
  | 4 => q 8 r * 2 ^ 16 + q 8 g * 2 ^ 8 + q 8 b
  | 6 => q 8 a * 2 ^ 24 + q 8 r * 2 ^ 16 + q 8 g * 2 ^ 8 + q 8 b
  | 7 => q 2 a * 2 ^ 30 + q 10 r * 2 ^ 20 + q 10 g * 2 ^ 10 + q 10 b
  | _ => q 16 a * 2 ^ 48 + q 16 r * 2 ^ 32 + q 16 g * 2 ^ 16 + q 16 b

/-- RGB codes of an unpacked source pixel (R471): the preset of R255, or G = Y, B = Cb and R = Cr. -/
def convertCodes (d : BltDesc) (p : Px) : Nat × Nat × Nat :=
  if d.matrix = 1 ∨ d.matrix = 2 then
    let m := State.cscPreset d.matrix (d.src.fmt == 8) d.full
    let code : List Int := [p.c0, p.c1, p.c2]
    (State.cscRow m code 0, State.cscRow m code 1, State.cscRow m code 2)
  else if d.src.fmt = 5 ∨ d.src.fmt = 8 then (p.c2, p.c0, p.c1)
  else (p.c0, p.c1, p.c2)

namespace State

/-- Set flags of the status of engine b. -/
def bltRaise (s : State) (b : Nat) (flags : List Nat) : State := s.raiseAll (Reg.BLT_BLOCK_STATUS b) flags

/-- STATE of engine b: 0 OFF, 1 WAITING, 2 RUNNING, 3 DRAINING, 4 HALTED (R479). -/
def bltState (s : State) (b : Nat) : Nat := s.f (Reg.BLT_STATE_STATE b)

/-- Set STATE of engine b. -/
def setBltState (s : State) (b st : Nat) : State := s.setF (Reg.BLT_STATE_STATE b) st

/-- The dead time in use (R472). -/
def effDeadTime (s : State) (b : Nat) : Nat :=
  let d := s.f (Reg.BLT_DEAD_TIME_DEAD_TIME b)
  if 1 ≤ s.sf Reg.PWR_STATE_GOV_STEP then min 0xFFFF (max (4 * d) 16) else d

/-- BLT_STATE as it reads. -/
def bltStateWord (s : State) (b : Nat) : Nat := s.effDeadTime b * 65536 + s.bltState b

/-- Slots of the ring of engine b, and where it ends. -/
def bltSlots (s : State) (b : Nat) : Nat := 2 ^ s.f (Reg.BLT_RING_CFG_LOG2 b)
def bltBase (s : State) (b : Nat) : Nat := 256 * s.f (Reg.BLT_RING_BASE_BASE b)

/-- EN of engine b as it acts: a write of EN 0 takes effect once the descriptor in progress has completed (R474, log entry 30). -/
def bltEnabled (s : State) (b : Nat) : Bool := s.fb (Reg.BLT_CTRL_EN b) || s.bltState b == 3

/-- A change of PROD to p (R464): whether it is accepted, and the state. -/
def bltProd (s : State) (b p : Nat) : Bool × State :=
  let cons := s.f (Reg.BLT_CONS_CONS b)
  let ahead (x : Nat) : Nat := (x + 65536 - cons) % 65536
  if s.bltEnabled b ∧ ahead (s.f (Reg.BLT_PROD_PROD b)) ≤ ahead p ∧ ahead p ≤ s.bltSlots b then
    (true, s.setF (Reg.BLT_PROD_PROD b) p)
  else (false, s.bltRaise b [Flag.BLT_PROD_REFUSED])

/-- A write of BLT_PROD. -/
def bltProdWrite : WriteEffect := fun _ x new _ _ s => (s.bltProd x.inst (bits new 15 0)).2

/-- START_BLIT, as the action of the cue in slot c (R145, R464). -/
def actBlit (c : Nat) (s : State) : CueRun :=
  let (ok, t) := s.bltProd (s.cueByte c % 4) (s.cueHalf c)
  ⟨if ok then 0 else 0x0F, 0, t⟩

/-- A write of BLT_RESUME (R474). -/
def bltResumeWrite : WriteEffect := fun _ x _ _ _ s => if s.bltState x.inst = 4 then s.setBltState x.inst 1 else s

/-- A write of BLT_CTRL (R474). -/
def bltCtrlWrite : WriteEffect := fun _ x new _ _ s =>
  let b := x.inst
  let st := s.bltState b
  if bit new 31 then
    if s.capacity < s.bltBase b + 64 * s.bltSlots b then s.bltRaise b [Flag.BLT_CFG_REFUSED]
    else
      let s1 := s.setReg x.addr (BitVec.ofNat 64 new)
      if st = 0 then s1.setBltState b 1 else if st = 3 then s1.setBltState b 2 else s1
  else
    let s1 := s.setReg x.addr (BitVec.ofNat 64 new)
    if st = 2 ∨ st = 3 then s1.setBltState b 3 else s1.setBltState b 0

/-- A write of BLT_RING_BASE or BLT_RING_CFG (R474, R478). -/
def bltRingWrite (base : Bool) : WriteEffect := fun _ x new _ _ s =>
  let b := x.inst
  if s.bltEnabled b ∨ (base = false ∧ (bits new 3 0 = 0 ∨ 12 < bits new 3 0)) then
    s.bltRaise b [Flag.BLT_CFG_REFUSED]
  else ((s.setReg x.addr (BitVec.ofNat 64 new)).setF (Reg.BLT_PROD_PROD b) 0).setF (Reg.BLT_CONS_CONS b) 0

/-- Has the blit queue of its channel room for a request of n bytes at address a (R462, R502)? An engine whose request finds none
stands still. -/
def bltRoom (s : State) (a n : Nat) : Bool := s.queueRoom .blit a n

/-- Engine b requests n bytes from a on, as identity 10 + b (R462, R502). -/
def bltRequest (s : State) (b a n : Nat) (write : Bool) : State := s.request .blit (10 + b) a n write

/-- The address of the descriptor at CONS of engine b (R463). -/
def bltNext (s : State) (b : Nat) : Nat := s.bltBase b + 64 * (s.f (Reg.BLT_CONS_CONS b) % s.bltSlots b)

/-- Engine b reads and checks the descriptor at CONS (R466, R467, R473). -/
def descriptorRead (s0 : State) (b : Nat) : State :=
  let cons := s0.f (Reg.BLT_CONS_CONS b)
  let a := s0.bltNext b
  if s0.bltState b = 1 ∧ cons ≠ s0.f (Reg.BLT_PROD_PROD b) ∧ s0.bltRoom a 64 then
    let s := s0.bltRequest b a 64 false
    let bs := s.bytes a 64
    let bad := s.poisoned a 64
    let code := if bad then 0x0B else (bltDesc bs).check s.capacity
    let s1 := { s with blits := Tab.put s.blits b { desc := bs, addr := a, index := cons, code := code } }
    (when bad (fun t => t.bltRaise b [Flag.BLT_POISON]) s1).setBltState b 2
  else s0

/-- The descriptor that engine b is about to execute, where its operation is op. -/
def bltToRun (s : State) (b op : Nat) : Option (Blit × BltDesc) :=
  match Tab.find s.blits b with
  | some x => if x.code = 0 ∧ x.ran = false ∧ (bltDesc x.desc).op = op then some (x, bltDesc x.desc) else none
  | none => none

/-- The operation of engine b begins: its bursts follow, one by one, in FCLKs (R462, R472). -/
def bltBegin (s : State) (b : Nat) (x : Blit) (d : BltDesc) : State :=
  { s with blits := Tab.put s.blits b { x with ran := true, todo := d.bursts } }

/-- FILL (R469). -/
def bltFill (s : State) (b : Nat) : State := match s.bltToRun b 1 with | none => s | some (x, d) => s.bltBegin b x d

/-- COPY (R470). -/
def bltCopy (s : State) (b : Nat) : State := match s.bltToRun b 2 with | none => s | some (x, d) => s.bltBegin b x d

/-- CONVERT (R471). -/
def bltConvert (s : State) (b : Nat) : State := match s.bltToRun b 3 with | none => s | some (x, d) => s.bltBegin b x d

end State

namespace Blit

/-- n bytes of the source from address a on, as its bursts have read them. -/
def got (x : Blit) (a n : Nat) : List Byte :=
  (List.range n).map fun k => byteAt (Tab.get x.buf ((a + k) / 256 * 256) []) ((a + k) % 256)

/-- The bytes of pixel i of row j in the destination: the word of a FILL (R469), the source's bytes (R470), or those of the
converted pixel (R471). -/
def pixel (x : Blit) (j i : Nat) : List Byte :=
  let d := bltDesc x.desc
  let n := bppOf d.src.fmt
  let at' (k : Nat) : Nat := d.src.at' (d.sx + k) (d.sy + j)
  let word (k : Nat) : Option Nat := some (ofLe (x.got (at' k) n))
  match d.op with
  | 1 => leBytes (bppOf d.dst.fmt) d.fill
  | 2 => x.got (at' i) n
  | _ =>
    match unpackPx d.src.fmt d.w word i with
    | some p =>
      let c := convertCodes d p
      leBytes (bppOf d.dst.fmt) (packWord d.dst.fmt c.1 c.2.1 c.2.2 (alpha16 d.src.fmt (ofLe (x.got (at' i) n))))
    | none => List.replicate (bppOf d.dst.fmt) 0

/-- The bytes that the burst of span a writes of row j. -/
def cutBytes (x : Blit) (j a : Nat) : List Byte :=
  let d := bltDesc x.desc
  let (i, n) := d.cutPixels j a
  let (lo, hi) := d.cut j a
  (((List.range n).flatMap fun k => x.pixel j (i + k)).drop (lo - BltDesc.rowStart d.dst d.dx d.dy j - i * bppOf d.dst.fmt)).take (hi - lo)

end Blit

namespace State

/-- A burst of engine b moves as its request enters its queue (R503): a write stores its bytes; a read keeps them, but one that
returns poisoned ends the descriptor with POISON, and nothing further is written (R473). -/
def bltMove (s : State) (b : Nat) (x : Blit) (u : BltBurst) (rest : List BltBurst) : State :=
  if u.write then
    { s with blits := Tab.put s.blits b { x with todo := rest, wrote := true } }.putDdr ((bltDesc x.desc).cut u.row u.addr).1
      (x.cutBytes u.row u.addr)
  else if s.poisoned u.addr 256 then
    { s with blits := Tab.put s.blits b { x with code := 0x0B, todo := [] } }.bltRaise b [Flag.BLT_POISON]
  else
    { s with blits := Tab.put s.blits b { x with todo := rest, buf := Tab.put x.buf u.addr (s.bytes u.addr 256) } }

/-- Engine b in an FCLK: at most one burst per 4 + EFF_DEAD_TIME, in order, of one descriptor after another (R462, R472). -/
def bltTick (s : State) (b : Nat) : State :=
  let w := Tab.get s.bltWait b 0
  if 0 < w then { s with bltWait := Tab.put s.bltWait b (w - 1) }
  else
    match Tab.find s.blits b with
    | none => s
    | some x =>
      match x.todo with
      | [] => s
      | u :: rest =>
        if s.bltRoom u.addr 256 then
          let s1 := { s with bltWait := Tab.put s.bltWait b (3 + s.effDeadTime b) }
          ((s1.bltMove b x u rest).bltRequest b u.addr 256 u.write).addF (Reg.BLT_BURSTS_BURSTS b) 1
        else s

/-- Do the destination's bytes overlap the live surface of engine n (R475)? -/
def bltSoils (s : State) (d : BltDesc) (n : Nat) : Bool :=
  match s.liveSurf n with
  | some x => let p := d.span d.dst d.dx d.dy; decide (p.1 < x.limit) && decide (x.base ≤ p.2)
  | none => false

/-- The descriptor of engine b completes, once its bursts have moved (R466, R474, R475). -/
def descriptorComplete (s : State) (b : Nat) : State :=
  match Tab.find s.blits b with
  | none => s
  | some x =>
    if (x.code = 0 ∧ x.ran = false) ∨ x.todo ≠ [] ∨ s.bltRoom (x.addr + 0x34) 4 = false then s
    else
      let d := bltDesc x.desc
      let s0 := { s with blits := Tab.del s.blits b }.bltRequest b (x.addr + 0x34) 4 true
      let s1 := s0.putDdr (x.addr + 0x34) (leBytes 4 (2 ^ 31 + x.code * 65536 + x.index))
      let s2 := if x.wrote then (List.range 32).foldl (fun t n => if t.bltSoils d n then t.dirtyEngine n else t) s1 else s1
      let s3 := s2.addF (Reg.BLT_CONS_CONS b) 1
      let draining := s.bltState b == 3
      if x.code = 0 then
        let s4 := (s3.addF (Reg.BLT_COUNTS_DONE b) 1).setBltState b (if draining then 0 else 1)
        if d.notify then s4.bltRaise b [Flag.BLT_DESC_DONE] else s4
      else
        let s4 := ((s3.setF (Reg.BLT_LAST_ERR_INDEX b) x.index).setF (Reg.BLT_LAST_ERR_CODE b) x.code).satF (Reg.BLT_COUNTS_FAILED b) 1
        -- a write of EN 0 that waits takes effect over HALTED, whose flag is set all the same (R474)
        let halt := s.fb (Reg.BLT_CTRL_HALT_ON_ERROR b)
        (s4.setBltState b (if draining then 0 else if halt then 4 else 1)).bltRaise b
          (Flag.BLT_DESC_ERROR :: if halt then [Flag.BLT_HALTED] else [])

end State
end Sys2Proof.Machine
end

