-- ==== Sys2Proof/Machine/Cores.lean ====
section
/-! DEFINITION. Interrupt controller, core control, mailboxes and the DEBUG block (R521–R542, R558–R560). -/

namespace Sys2Proof.Machine
namespace State

/-- Set the service record. -/
def setServ (s : State) (x : Serv) : State := { s with serv := x }

/-! ### Interrupt sources (R528) -/

/-- Any flag of a status register. -/
def anyFlag (s : State) (a : Nat) : Bool := bits (s.reg a).toNat 15 0 != 0

/-- Identity i has a doorbell (R536). -/
def hasDoorbell (s : State) (i : Nat) : Bool := s.f (Reg.MB_RX_PEND_CHANNELS i) != 0 || s.f (Reg.MB_ACK_PEND_CHANNELS i) != 0

/-- The condition of UART_EVENT (R550). -/
def uartEvent (s : State) : Bool :=
  s.anyFlag Reg.UART_STATUS ||
  (s.fb Reg.UART_CFG_RX_IE && decide (max 1 (s.f Reg.UART_CFG_RX_THRESHOLD) ≤ s.serv.uartRx.length)) ||
  (s.fb Reg.UART_CFG_TX_IE && s.serv.uartTx.isEmpty)

/-- Is source n asserted (R528)? -/
def asserted (s : State) (n : Nat) : Bool :=
  let on (a b : Nat) : Bool := s.flagSet a b
  match n with
  | 1 => s.anyFlag Reg.MASTERS_BLOCK_STATUS
  | 2 => s.anyFlag Reg.INGOT_BLOCK_STATUS
  | 3 => s.anyFlag Reg.TIMEBASE_BLOCK_STATUS
  | 4 => s.anyFlag Reg.CUE_BLOCK_STATUS
  | 5 => s.anyFlag Reg.CRUCIBLE_BLOCK_STATUS
  | 6 => s.anyFlag Reg.INGEST_BLOCK_STATUS
  | 7 => s.anyFlag Reg.CHAIN_BLOCK_STATUS
  | 8 => on Reg.CHECK_BLOCK_STATUS Flag.CHECK_SIG_ALARM || on Reg.CHECK_BLOCK_STATUS Flag.CHECK_MEM_ALARM ||
         on Reg.CHECK_BLOCK_STATUS Flag.CHECK_POISON
  | 9 => on Reg.SLAB_BLOCK_STATUS Flag.SLAB_UE
  | 10 => bits (s.slowReg Reg.NVM_BLOCK_STATUS).toNat 15 0 != 0
  | 11 => bits (s.slowReg Reg.POWER_BLOCK_STATUS).toNat 15 0 != 0
  | 12 => s.anyFlag Reg.MAILBOX_BLOCK_STATUS
  | 13 => s.anyFlag (Reg.MMAC_STATUS 0)
  | 14 => s.anyFlag (Reg.MMAC_STATUS 1)
  | 15 => s.uartEvent
  | 20 => s.f Reg.GPIO_INT_PEND_PEND != 0
  | 21 => on (Reg.I2C_FLAGS 0) Flag.I2C_FLAGS_DONE || on (Reg.I2C_FLAGS 0) Flag.I2C_FLAGS_ERROR
  | 22 => on (Reg.I2C_FLAGS 1) Flag.I2C_FLAGS_DONE || on (Reg.I2C_FLAGS 1) Flag.I2C_FLAGS_ERROR
  | 23 => s.anyFlag Reg.SPI_FLAGS
  | _ =>
    if 16 ≤ n ∧ n < 20 then s.anyFlag (Reg.BLT_BLOCK_STATUS (n - 16))
    else if 32 ≤ n ∧ n < 48 then
      let a := Reg.MC_BLOCK_STATUS (n - 32)
      on a Flag.MC_UE || on a Flag.MC_FAULT || on a Flag.MC_DERATED
    else if 48 ≤ n ∧ n < 56 then s.hasDoorbell (n - 47)
    else if n = 56 then s.hasDoorbell 0
    else if 64 ≤ n ∧ n < 96 then
      on (Reg.PQ_BLOCK_STATUS (n - 64)) Flag.PQ_REFCLK_LOST ||
      (List.range 4).any fun l => s.anyFlag (Reg.PORT_STATUS (4 * (n - 64) + l)) || s.anyFlag (Reg.BTL_STATUS (4 * (n - 64) + l))
    else false

/-! ### The controller (R527) -/

/-- Is source n pending: asserted and not claimed (log entry 32)? -/
def pendingSrc (s : State) (n : Nat) : Bool := decide (n ≠ 0) && s.asserted n && !s.serv.claimed.contains n

/-- PLIC_PENDING[w] as it reads. -/
def plicPending (s : State) (w : Nat) : Nat :=
  ((List.range 32).map fun j => if s.pendingSrc (32 * w + j) then 2 ^ j else 0).sum

/-- The enable bit of source n in context c, and the threshold. -/
def plicEnabled (s : State) (c n : Nat) : Bool :=
  bit (s.reg (if c < 16 then Reg.PLIC_ENABLE c (n / 32) else Reg.PLIC_ENABLE_K (n / 32))).toNat (n % 32)
def plicThreshold (s : State) (c : Nat) : Nat :=
  if c < 16 then s.f (Reg.PLIC_THRESHOLD_THRESHOLD c) else s.f Reg.PLIC_THRESHOLD_K_THRESHOLD

/-- PRIO of source n ≥ 1. -/
def plicPrio (s : State) (n : Nat) : Nat := s.f (Reg.PLIC_PRIO_PRIO (n - 1))

/-- The source that context c would claim; 0 for none: highest priority above the threshold, then lowest number. -/
def plicBest (s : State) (c : Nat) : Nat :=
  ((List.range 256).foldl (fun (best : Nat × Nat) n =>
    if s.pendingSrc n ∧ s.plicEnabled c n ∧ best.2 < s.plicPrio n then (n, s.plicPrio n) else best)
    (0, s.plicThreshold c)).1

/-- Context c belongs to a master. -/
def plicOwner (c : Nat) (r : Req) : Bool := if c < 16 then r.master.val == c / 2 + 1 else r.master.val == 0

/-- A read of PLIC_CLAIM of context c. -/
def plicClaim (c : Nat) (r : Req) (s : State) : Nat × State :=
  if plicOwner c r then
    let n := s.plicBest c
    (n, if n = 0 then s else s.setServ { s.serv with claimed := setAdd s.serv.claimed n })
  else (0, s)

/-- The context whose claim register a found register is. -/
def plicCtx (x : Found) : Nat := if x.row.eff == .plicClaimK then 16 else x.idx.headD 0

/-- The read and the write of PLIC_CLAIM. -/
def plicClaimRead : ReadEffect := fun r x s => plicClaim (plicCtx x) r s
def plicCompleteWrite : WriteEffect := fun _ _ new _ _ s =>
  s.setServ { s.serv with claimed := s.serv.claimed.filter (· != bits new 7 0) }

/-! ### Cores (R521–R524, R538) -/

/-- Free every semaphore that a master holds (R64). -/
def freeSems (s : State) (master : Nat) : State :=
  let keep (x : Nat × Nat) : Bool := x.2 != master
  s.setBus { s.bus with semOwner := s.bus.semOwner.filter keep }

/-- HALTED of core k, in both registers that show it. -/
def setHalted (s : State) (v : Nat) : State := (s.setF Reg.APPCX_CORE_STATE_HALTED v).setF Reg.DBG_STATE_HALTED v

/-- A core's machine timer interrupt: taken while time has reached its APPCX_MTIMECMP (R524). -/
def machineTimer (s : State) (k : Nat) : State :=
  if bit (s.f Reg.APPCX_CORE_STATE_RUNNING) k ∧ s.f (Reg.APPCX_MTIMECMP_CMP k) ≤ s.tq / 65536 then
    s.setServ { s.serv with timer := setAdd s.serv.timer k }
  else s.setServ { s.serv with timer := s.serv.timer.filter (· != k) }

/-- Every core's machine timer interrupt follows time, which steps and sets move (R524). -/
def machineTimers (s : State) : State := forN 8 (fun k t => t.machineTimer k) s

/-- A write of APPCX_MTIMECMP (R524). -/
def mtimecmpWrite : WriteEffect := fun _ x new _ _ s => (s.setReg x.addr (BitVec.ofNat 64 new)).machineTimer (x.idx.headD 0)

/-- RELEASE takes the value v (R3, R538): a core whose bit is 0 is reset. -/
def setRelease (s : State) (v : Nat) : State :=
  if s.isM then
    let s1 := (s.setF Reg.APPCX_CORE_CTRL_RELEASE v).setF Reg.APPCX_CORE_STATE_RUNNING v
    let s2 := s1.setHalted (s.f Reg.APPCX_CORE_STATE_HALTED &&& v)
    forN 8 (fun k t => if bit v k then t else t.freeSems (k + 1)) s2.machineTimers
  else s

/-- A write of APPCX_CORE_CTRL. -/
def coreCtrlWrite : WriteEffect := fun _ _ new _ _ s => s.setRelease (bits new 7 0)

/-- APPCX_CORE_CLK as it reads: step 2 of the governor lowers it (R589, R598). -/
def coreMhz (s : State) : Nat := if 2 ≤ s.sf Reg.PWR_STATE_GOV_STEP then min 2400 (max 100 (s.sf Reg.GOV_CFG_DOWN_MHZ)) else 2400

/-! ### Mailboxes (R529–R536) -/

/-- Set or clear bit n of the pending register at address a. -/
def pendBit (s : State) (a n : Nat) (on : Bool) : State :=
  let v := (s.reg a).toNat
  s.setReg a (BitVec.ofNat 64 (putBits v n n (if on then 1 else 0)))

/-- Bit n of MB_RX_PEND and of MB_ACK_PEND of identity i; identities above 17 have neither (R536). -/
def rxPend (s : State) (i n : Nat) (on : Bool) : State := if i < 18 then s.pendBit (Reg.MB_RX_PEND i) n on else s
def ackPend (s : State) (i n : Nat) (on : Bool) : State := if i < 18 then s.pendBit (Reg.MB_ACK_PEND i) n on else s

/-- SENDER, RECEIVER and STATE of channel n. -/
def mbSender (s : State) (n : Nat) : Nat := s.f (Reg.MB_BIND_SENDER n)
def mbReceiver (s : State) (n : Nat) : Nat := s.f (Reg.MB_BIND_RECEIVER n)
def mbState (s : State) (n : Nat) : Nat := s.f (Reg.MB_STATE_STATE n)

/-- A refused write to channel n (R530): its reason and flag. -/
def mbRefuse (s : State) (n master reason flag : Nat) : State :=
  (((s.setF Reg.MB_REFUSED_LOG_REASON reason).setF Reg.MB_REFUSED_LOG_MASTER master).setF Reg.MB_REFUSED_LOG_CHANNEL n).raiseAll
    Reg.MAILBOX_BLOCK_STATUS [flag]

/-- A write of MB_MSG (R530). -/
def mbMsgWrite : WriteEffect := fun r x new _ _ s =>
  let n := x.idx.headD 0
  if r.master.val ≠ s.mbSender n then s.mbRefuse n r.master.val 2 Flag.MAILBOX_WRITE_REFUSED
  else if s.mbState n = 1 then s.mbRefuse n r.master.val 4 Flag.MAILBOX_WRITE_REFUSED
  else s.setReg x.addr (BitVec.ofNat 64 new)

/-- The reason that refuses a SEND of a length by master m; 0 where it is accepted. -/
def sendCode (s : State) (n m len : Nat) : Nat :=
  if s.fb (Reg.MB_BIND_EN n) = false ∨ s.fb Reg.MB_BIND_LOCK_LOCKED = false then 1
  else if m ≠ s.mbSender n then 2
  else if s.mbState n = 1 then 4
  else if len = 0 ∨ 16 < len then 5
  else 0

/-- An accepted SEND of channel n. -/
def mbSent (s : State) (n len tag : Nat) : State :=
  let s1 := ((s.setF (Reg.MB_STATE_STATE n) 1).setF (Reg.MB_STATE_TIMED_OUT n) 0).setF (Reg.MB_STATE_LEN n) len
  let s2 := (s1.setF (Reg.MB_TAG_TAG n) tag).addF (Reg.MB_TAG_SENDS n) 1
  let s3 := (s2.rxPend (s.mbReceiver n) n true).ackPend (s.mbSender n) n false
  if s.mbReceiver n = 15 then s3.doorbell15 else s3

/-- A write of MB_SEND (R530). -/
def mbSendWrite : WriteEffect := fun r x _ d _ s =>
  let n := x.idx.headD 0
  let c := s.sendCode n r.master.val (bits d 20 16)
  if c ≠ 0 then s.mbRefuse n r.master.val c Flag.MAILBOX_SEND_REFUSED else s.mbSent n (bits d 20 16) (bits d 15 0)

/-- Channel n goes ACKED with a reply (R530, R532). -/
def mbAcked (s : State) (n status code : Nat) : State :=
  let s1 := ((s.setF (Reg.MB_STATE_STATE n) 2).setF (Reg.MB_REPLY_STATUS n) status).setF (Reg.MB_REPLY_CODE n) code
  let s2 := (s1.rxPend (s.mbReceiver n) n false).ackPend (s.mbSender n) n true
  if s.mbSender n = 15 then s2.doorbell15 else s2

/-- A write of MB_ACK (R530). -/
def mbAckWrite : WriteEffect := fun r x _ d _ s =>
  let n := x.idx.headD 0
  let c := if r.master.val ≠ s.mbReceiver n then 3 else if s.mbState n ≠ 1 then 6 else if bits d 15 0 = 0xFFFF then 7 else 0
  if c ≠ 0 then s.mbRefuse n r.master.val c Flag.MAILBOX_ACK_REFUSED else s.mbAcked n (bits d 31 16) (bits d 15 0)

/-- A write of MB_DONE (R530). -/
def mbDoneWrite : WriteEffect := fun r x _ _ _ s =>
  let n := x.idx.headD 0
  let c := if r.master.val ≠ s.mbSender n then 2 else if s.mbState n ≠ 2 then 8 else 0
  if c ≠ 0 then s.mbRefuse n r.master.val c Flag.MAILBOX_WRITE_REFUSED
  else (s.setF (Reg.MB_STATE_STATE n) 0).ackPend (s.mbSender n) n false

/-- The acknowledgement of channel n times out (R532). -/
def mbTimeout (s : State) (n : Nat) : State :=
  if s.mbState n = 1 ∧ s.f (Reg.MB_BIND_ACK_TIMEOUT_US n) ≠ 0 then
    ((s.mbAcked n 0 0xFFFF).setF (Reg.MB_STATE_TIMED_OUT n) 1).raiseAll Reg.MAILBOX_BLOCK_STATUS [Flag.MAILBOX_TIMEOUT]
  else s

/-- MB_BIND[n] takes a value, which MB_STATE shows (R529, R541). -/
def setBind (s : State) (n v : Nat) : State :=
  (((s.setReg (Reg.MB_BIND n) (BitVec.ofNat 64 v)).setF (Reg.MB_STATE_EN n) (bits v 15 15)).setF (Reg.MB_STATE_SENDER n)
    (bits v 4 0)).setF (Reg.MB_STATE_RECEIVER n) (bits v 12 8)

/-- A write of MB_BIND. -/
def mbBindWrite : WriteEffect := fun _ x new _ _ s => s.setBind (x.idx.headD 0) new

/-- SIGNAL, as the action of the cue in slot c (R145, R535): MSG[0..2] and SEND as identity 9, each judged as any write. -/
def actSignal (c : Nat) (s : State) : CueRun :=
  let n := s.cueByte c % 64
  if s.mbState n = 1 then ⟨0x0E, 0, s⟩
  else
    let r : Req := ⟨9, .machine⟩
    let p := (s.cuePos (s.cueRaster c)).getD ⟨0, 0, 0⟩
    let s1 := s.writeReg r (Reg.MB_MSG n 0) .w32 c mbMsgWrite
    let s2 := s1.writeReg r (Reg.MB_MSG n 1) .w32 (p.f % 2 ^ 32) mbMsgWrite
    let s3 := s2.writeReg r (Reg.MB_MSG n 2) .w32 (p.l % 65536 * 65536 + p.t % 65536) mbMsgWrite
    ⟨0, 0, s3.writeReg r (Reg.MB_SEND n) .w32 (3 * 65536 + s.cueHalf c) mbSendWrite⟩

/-! ### Debug (R558, R559) -/

/-- A debugger activates the debug module. -/
def dmActivated (s : State) : State :=
  if s.fb Reg.DBG_CTRL_DM_EN then
    (s.setF Reg.DBG_STATE_ATTACHED 1).raiseAll Reg.DEBUG_BLOCK_STATUS [Flag.DEBUG_DM_ACTIVATED]
  else s

/-- A debugger deactivates it. -/
def dmDeactivated (s : State) : State := if s.fb Reg.DBG_CTRL_DM_EN then s.setF Reg.DBG_STATE_ATTACHED 0 else s

/-- The debug module is active. -/
def dmActive (s : State) : Bool := s.fb Reg.DBG_CTRL_DM_EN && s.fb Reg.DBG_STATE_ATTACHED

/-- A halt request for core k. -/
def debugHalt (s : State) (k : Nat) : State :=
  if s.dmActive then
    if bit (s.f Reg.DBG_CTRL_HALT_EN) k then
      (if bit (s.f Reg.APPCX_CORE_STATE_RUNNING) k then s.setHalted (s.f Reg.DBG_STATE_HALTED ||| 2 ^ k) else s)
    else s.raiseAll Reg.DEBUG_BLOCK_STATUS [Flag.DEBUG_HALT_REFUSED]
  else s

/-- A resume request for core k. -/
def debugResume (s : State) (k : Nat) : State :=
  if s.dmActive then s.setHalted (putBits (s.f Reg.DBG_STATE_HALTED) k k 0) else s

end State
end Sys2Proof.Machine
end

