-- ==== Sys2Proof/Machine/Service.lean ====
section
/-! DEFINITION. Service interfaces (R543–R557): management MACs, MDIO, UART, GPIO, I²C, SPI NOR. -/

namespace Sys2Proof.Machine
namespace State

/-! ### Management MACs (R544–R547) -/

/-- Set flags of MMAC_STATUS of MAC m. -/
def mmacRaise (s : State) (m : Nat) (flags : List Nat) : State := s.raiseAll (Reg.MMAC_STATUS m) flags

/-- The frame that MAC m sends, once it is there, is not finished (R546): its slot stays in the ring. -/
def mmacAbort (s : State) (m : Nat) : State := s.setServ { s.serv with mmacTx := Tab.del s.serv.mmacTx m }

/-- Slots ready in the transmit ring of MAC m. -/
def mmacTodo (s : State) (m : Nat) : Nat := (s.f (Reg.MMAC_TX_PROD_INDEX m) + 2 ^ 32 - s.f (Reg.MMAC_TX_CONS_INDEX m)) % 2 ^ 32

/-- The slot at the consumer index of MAC m. -/
def mmacSlot (s : State) (m : Nat) : Nat :=
  256 * s.f (Reg.MMAC_TX_BASE_BASE m) + 9472 * (s.f (Reg.MMAC_TX_CONS_INDEX m) % max 1 (s.f (Reg.MMAC_TX_CFG_SLOTS m)))

/-- A frame as it leaves, with pad and FCS. -/
def mmacWire (frame : List Byte) : List Byte :=
  let f := frame ++ List.replicate (60 - frame.length) 0
  f ++ leBytes 4 (crc32 f)

/-- May MAC m start a frame: it runs, its link is up, and it sends none? -/
def mmacFree (s : State) (m : Nat) : Bool :=
  s.fb (Reg.MMAC_CFG_EN m) && s.fb (Reg.MMAC_LINK_LINK_UP m) && (Tab.find s.serv.mmacTx m).isNone

/-- MAC m starts the next slot, past one bad slot, where it is free to (R546); no slot is read while a full queue stalls identity
17 (R502). -/
def mmacStep (s : State) (m : Nat) : State :=
  if s.mmacFree m ∧ s.fb (Reg.MMAC_TX_CFG_EN m) ∧ s.mmacTodo m ≠ 0 ∧ s.sourceStalled 17 = false then
    let a := s.mmacSlot m
    let n := s.rd a 2
    if n < 14 ∨ 9212 < n then
      ((s.satF (Reg.MMAC_DROPS_TX_BAD m) 1).mmacRaise m [Flag.MMAC_STATUS_TX_BAD]).addF (Reg.MMAC_TX_CONS_INDEX m) 1
    else (s.request .core 17 a (16 + n)).setServ { s.serv with mmacTx := Tab.put s.serv.mmacTx m (mmacWire (s.bytes (a + 16) n)) }
  else s

/-- MAC m sends the Delay_Req that waits for it, which is timestamped as it leaves (R110, R111). It takes no slot of the ring and goes
before them (log entry 103). -/
def mmacDelayReq (s : State) (m : Nat) : State :=
  match Tab.find s.serv.mmacReq m with
  | none => s
  | some x =>
    if s.mmacFree m then
      ((s.setServ { s.serv with mmacReq := Tab.del s.serv.mmacReq m, mmacSent := Tab.put s.serv.mmacSent m (mmacWire x) }).addF
        (Reg.MMAC_TX_COUNTS_FRAMES m) 1).stampOut (0x80 + m) (x.drop (if beAt x 12 2 = 0x88F7 then 14 else 42))
    else s

/-- MAC m goes on with what it has to send. -/
def mmacNext (s : State) (m : Nat) : State :=
  let t := s.mmacDelayReq m
  forN (min (t.mmacTodo m) 1024) (fun _ u => u.mmacStep m) t

/-- A write of MMAC_CFG (R544): a change of mode, rate or polarity drops the link, and so does switching the MAC off (log
entry 110). -/
def mmacCfgWrite : WriteEffect := fun _ x new _ _ s =>
  let m := x.idx.headD 0
  let old := (s.reg x.addr).toNat
  let s1 := s.setReg x.addr (BitVec.ofNat 64 new)
  if bits old 30 27 ≠ bits new 30 27 ∨ bits old 24 23 ≠ bits new 24 23 ∨ (bit old 31 = true ∧ bit new 31 = false) then
    let s2 := ((s1.setF (Reg.MMAC_LINK_LINK_UP m) 0).setF (Reg.MMAC_LINK_AN_DONE m) 0).mmacAbort m
    if s.fb (Reg.MMAC_LINK_LINK_UP m) then s2.mmacRaise m [Flag.MMAC_STATUS_LINK_CHANGE] else s2
  else s1.mmacNext m

/-- The link of MAC m changes, or its link word arrives (R544, R547). -/
def mmacLinkChange (s : State) (m : Nat) (up anDone : Bool) (rate : Nat) : State :=
  if s.fb (Reg.MMAC_CFG_EN m) then
    let base := s.fb (Reg.MMAC_CFG_MODE m)
    let an := s.fb (Reg.MMAC_CFG_AN_EN m) && !base
    let r := if base then 3 else if an then min rate 2 else min (s.f (Reg.MMAC_CFG_SPEED m)) 2
    let s1 := ((s.setF (Reg.MMAC_LINK_LINK_UP m) (if up then 1 else 0)).setF (Reg.MMAC_LINK_AN_DONE m)
      (if an && anDone then 1 else 0)).setF (Reg.MMAC_LINK_RATE m) r
    ((if up then s1 else s1.mmacAbort m).mmacRaise m [Flag.MMAC_STATUS_LINK_CHANGE]).mmacNext m
  else s

/-- A write of a ring register of MAC m (R383, R546, R547). -/
def mmacRingWrite : WriteEffect := fun _ x new _ _ s =>
  let m := x.idx.headD 0
  let s1 := s.setReg x.addr (BitVec.ofNat 64 new)
  let bad (en slots base : Nat) : Bool :=
    en != 0 && (decide (slots < 2) || decide (1024 < slots) || decide (s.capacity < 256 * base + 9472 * slots))
  if ((x.addr = Reg.MMAC_RX_BASE m ∨ x.addr = Reg.MMAC_TX_BASE m) ∧ s.capacity ≤ 256 * bits new 39 8) ∨
      bad (s1.f (Reg.MMAC_RX_CFG_EN m)) (s1.f (Reg.MMAC_RX_CFG_SLOTS m)) (s1.f (Reg.MMAC_RX_BASE_BASE m)) ∨
      bad (s1.f (Reg.MMAC_TX_CFG_EN m)) (s1.f (Reg.MMAC_TX_CFG_SLOTS m)) (s1.f (Reg.MMAC_TX_BASE_BASE m)) then
    s.mmacRaise m [Flag.MMAC_STATUS_CFG_REFUSED]
  else if x.addr = Reg.MMAC_RX_CFG m then (s1.setReg (Reg.MMAC_RX_PROD m) 0).setReg (Reg.MMAC_RX_CONS m) 0
  else if x.addr = Reg.MMAC_TX_CFG m then ((s1.setReg (Reg.MMAC_TX_PROD m) 0).setReg (Reg.MMAC_TX_CONS m) 0).mmacAbort m
  else s1

/-- A write of MMAC_TX_PROD. -/
def mmacTxProdWrite : WriteEffect := fun _ x new _ _ s =>
  (s.setReg x.addr (BitVec.ofNat 64 new)).mmacNext (x.idx.headD 0)

/-- The slot that MAC m is sending has left (R546); none leaves while a full queue stalls identity 17 (R502). -/
def mmacTxSlotSent (s : State) (m : Nat) : State :=
  match Tab.find s.serv.mmacTx m with
  | none => s
  | some w =>
    if s.sourceStalled 17 then s
    else
    let s1 := (s.putDdr (s.mmacSlot m + 8) (leBytes 8 (s.tq / 65536))).request .core 17 (s.mmacSlot m + 8) 8 true
    let s2 := s1.setServ { s1.serv with mmacTx := Tab.del s1.serv.mmacTx m, mmacSent := Tab.put s1.serv.mmacSent m w }
    (((s2.addF (Reg.MMAC_TX_CONS_INDEX m) 1).addF (Reg.MMAC_TX_COUNTS_FRAMES m) 1).mmacRaise m
      [Flag.MMAC_STATUS_TX_DONE]).mmacNext m

/-- A PTP message of the configured domain on MAC m, where TB_PTP_PORT names it: the message (R111). -/
def mmacPtp (s : State) (m : Nat) (frame : List Byte) : Option (List Byte) :=
  let named (a : Nat) (l2 : Bool) : Bool :=
    s.f (Reg.TB_PTP_PORT_PORT a) == 0x80 + m && s.fb (Reg.TB_PTP_PORT_L2 a) == l2
  let o := if beAt frame 12 2 = 0x8100 then 18 else 14
  let ty := beAt frame (o - 2) 2
  let dom (msg : List Byte) : Option (List Byte) := if beAt msg 4 1 = s.f Reg.TB_PTP_CFG_DOMAIN then some msg else none
  let body := frame.drop o
  if ty = 0x88F7 ∧ (named 0 true ∨ named 1 true) then dom body
  else if ty = 0x0800 ∧ (named 0 false ∨ named 1 false) then
    let udp := body.drop (4 * (beAt body 0 1 % 16))
    if beAt body 9 1 = 17 ∧ (beAt udp 2 2 = 319 ∨ beAt udp 2 2 = 320) then dom ((udp.take (beAt udp 4 2)).drop 8) else none
  else none

/-- Does MAC m accept a frame's destination (R545)? -/
def mmacAccepts (s : State) (m : Nat) (frame : List Byte) : Bool :=
  let da := leAt frame 0 6
  da == s.f (Reg.MMAC_ADDR_MAC m) || da == 2 ^ 48 - 1 || (s.fb (Reg.MMAC_CFG_MCAST m) && bit da 0) || s.fb (Reg.MMAC_CFG_PROMISC m)

/-- Is a frame an IEEE 802.3 pause frame? -/
def isPause (frame : List Byte) : Bool := beAt frame 12 2 == 0x8808 && beAt frame 14 2 == 1

/-- Place a frame that arrived at T_Q q in the receive ring of MAC m (R546). -/
def mmacPlace (s : State) (m q : Nat) (frame : List Byte) : State :=
  let slots := s.f (Reg.MMAC_RX_CFG_SLOTS m)
  let prod := s.f (Reg.MMAC_RX_PROD_INDEX m)
  if s.fb (Reg.MMAC_RX_CFG_EN m) = false ∨ (prod + 2 ^ 32 - s.f (Reg.MMAC_RX_CONS_INDEX m)) % 2 ^ 32 = slots then
    (s.satF (Reg.MMAC_DROPS_RX_DROPS m) 1).mmacRaise m [Flag.MMAC_STATUS_RX_DROP]
  else
    let a := 256 * s.f (Reg.MMAC_RX_BASE_BASE m) + 9472 * (prod % slots)
    let data := frame.take (frame.length - 4)
    let s1 := ((((s.noteMerged a 4).put a (leBytes 2 data.length)).put (a + 3) [2]).putDdr (a + 8) (leBytes 8 (q / 65536) ++ data)).request
      .core 17 a (16 + data.length) true
    ((s1.addF (Reg.MMAC_RX_PROD_INDEX m) 1).addF (Reg.MMAC_RX_COUNTS_FRAMES m) 1).mmacRaise m [Flag.MMAC_STATUS_RX_FRAME]

/-- Place the received frames that wait, oldest first, while no full queue stalls identity 17 (R502). -/
def mmacDrain (s : State) : State :=
  forN s.serv.mmacWait.length (fun _ t =>
    match t.serv.mmacWait with
    | [] => t
    | x :: rest => if t.sourceStalled 17 then t else (t.setServ { t.serv with mmacWait := rest }).mmacPlace x.1 x.2.1 x.2.2) s

/-- MAC m has received a frame of bytes DA through FCS (R544–R546). -/
def mmacRxFrame (s : State) (m : Nat) (frame : List Byte) (fcsOk : Bool) : State :=
  if s.fb (Reg.MMAC_CFG_EN m) = false then s
  else if fcsOk = false ∨ frame.length < 64 ∨ 9216 < frame.length then s.satF (Reg.MMAC_RX_COUNTS_ERRORS m) 1
  else if isPause frame then s
  else match s.mmacPtp m frame with
    | some msg => (s.ptpToKeeper (0x80 + m) s.tq frame msg).mmacDelayReq m
    | none =>
      if s.mmacAccepts m frame = false then s.satF (Reg.MMAC_RX_COUNTS_FILTERED m) 1
      else (s.setServ { s.serv with mmacWait := s.serv.mmacWait ++ [(m, s.tq, frame)] }).mmacDrain

/-- In an FCLK the management MACs go on with what a full queue held back (R502). -/
def mmacTick (s : State) : State :=
  if s.serv.mmacWait = [] ∧ s.mmacTodo 0 = 0 ∧ s.mmacTodo 1 = 0 then s else forN 2 (fun m t => t.mmacNext m) s.mmacDrain

/-! ### MDIO (R548) -/

/-- The data word of an MDIO_CMD write. -/
def mdioWord (op : Nat) (c45 : Bool) (phy reg d : Nat) : Nat :=
  op * 2 ^ 30 + (if c45 then 2 ^ 29 else 0) + phy * 2 ^ 24 + reg * 2 ^ 19 + d

/-- A write of MDIO_CMD. -/
def mdioCmdWrite : WriteEffect := fun _ _ _ d _ s =>
  let op := bits d 31 30
  if s.fb Reg.MDIO_STATUS_BUSY ∨ (bit d 29 = false ∧ (op = 0 ∨ op = 2)) then s.setF Reg.MDIO_STATUS_CMD_REFUSED 1
  else ((s.setF Reg.MDIO_STATUS_BUSY 1).setF Reg.MDIO_STATUS_CMD_REFUSED 0).setServ { s.serv with mdio := some (bits d 31 0) }

/-- The frame in progress ends; a read from a PHY that does not answer gives 0xFFFF. -/
def mdioDone (s : State) (answer : Option (BitVec 16)) : State :=
  match s.serv.mdio with
  | none => s
  | some w =>
    let s1 := (s.setServ { s.serv with mdio := none }).setF Reg.MDIO_STATUS_BUSY 0
    if 2 ≤ bits w 31 30 then s1.setF Reg.MDIO_STATUS_DATA (match answer with | some v => v.toNat | none => 0xFFFF) else s1

/-! ### UART (R550) -/

/-- The FIFO levels, as UART_LEVEL shows them. -/
def uartLevels (s : State) : State :=
  (s.setF Reg.UART_LEVEL_TX_COUNT s.serv.uartTx.length).setF Reg.UART_LEVEL_RX_COUNT s.serv.uartRx.length

/-- A write of UART_TX. -/
def uartTxWrite : WriteEffect := fun _ _ _ d _ s =>
  if 64 ≤ s.serv.uartTx.length then s.raiseAll Reg.UART_STATUS [Flag.UART_STATUS_TX_OVERFLOW]
  else (s.setServ { s.serv with uartTx := s.serv.uartTx ++ [BitVec.ofNat 8 d] }).uartLevels

/-- A read of UART_RX. -/
def uartRxRead : ReadEffect := fun _ _ s =>
  match s.serv.uartRx with
  | [] => (0, s)
  | b :: r => (2 ^ 31 + b.toNat, (s.setServ { s.serv with uartRx := r }).uartLevels)

/-- A byte arrives. -/
def uartRxByte (s : State) (b : Byte) (stopBit : Bool) : State :=
  if 64 ≤ s.serv.uartRx.length then s.raiseAll Reg.UART_STATUS [Flag.UART_STATUS_RX_OVERRUN]
  else
    let s1 := (s.setServ { s.serv with uartRx := s.serv.uartRx ++ [b] }).uartLevels
    if stopBit then s1 else s1.raiseAll Reg.UART_STATUS [Flag.UART_STATUS_FRAMING]

/-- A byte has been sent. -/
def uartByteSent (s : State) : State := (s.setServ { s.serv with uartTx := s.serv.uartTx.drop 1 }).uartLevels

/-! ### GPIO (R552) -/

/-- The balls in level mode whose input holds the level that INT_POL names. -/
def gpioLevels (s : State) : BitVec 32 :=
  let r (a : Nat) : BitVec 32 := (s.reg a).setWidth 32
  r Reg.GPIO_INT_EN &&& r Reg.GPIO_INT_MODE &&& ~~~(s.serv.gpio ^^^ r Reg.GPIO_INT_POL)

/-- Set PEND bits. -/
def gpioPend (s : State) (v : BitVec 32) : State := s.setReg Reg.GPIO_INT_PEND (s.reg Reg.GPIO_INT_PEND ||| v.setWidth 64)

/-- The levels of the balls: one whose OE bit is 1 drives its OUT bit, whatever the board drives. -/
def gpioBalls (s : State) : BitVec 32 :=
  let r (a : Nat) : BitVec 32 := (s.reg a).setWidth 32
  (r Reg.GPIO_OE &&& r Reg.GPIO_OUT) ||| (~~~(r Reg.GPIO_OE) &&& s.serv.gpioBoard)

/-- The synchronised inputs sample the balls: edges and levels set PEND bits. -/
def gpioSample (s : State) : State :=
  let r (a : Nat) : BitVec 32 := (s.reg a).setWidth 32
  let levels := s.gpioBalls
  let edges := (levels ^^^ s.serv.gpio) &&& ~~~(levels ^^^ r Reg.GPIO_INT_POL) &&& r Reg.GPIO_INT_EN &&& ~~~(r Reg.GPIO_INT_MODE)
  let s1 := (s.setServ { s.serv with gpio := levels }).setReg Reg.GPIO_IN (levels.setWidth 64)
  s1.gpioPend (edges ||| s1.gpioLevels)

/-- The board drives new levels, as synchronised. -/
def gpioChange (s : State) (levels : BitVec 32) : State := (s.setServ { s.serv with gpioBoard := levels }).gpioSample

/-- In every FCLK the synchronised inputs follow the balls that the part drives, and levels set their PEND bits (log entry 135). -/
def gpioTick (s : State) : State := if s.gpioBalls = s.serv.gpio ∧ s.gpioLevels = 0 then s else s.gpioSample

/-- A write of GPIO_INT_ACK. -/
def gpioAckWrite : WriteEffect := fun _ _ _ d _ s =>
  s.setReg Reg.GPIO_INT_PEND (s.reg Reg.GPIO_INT_PEND &&& ~~~(BitVec.ofNat 64 d))

/-! ### I²C (R554) -/

/-- The first n bytes of a buffer of 32-bit words from address a on. -/
def bufBytes (s : State) (a n : Nat) : List Byte :=
  (List.range n).map fun i => BitVec.ofNat 8 ((s.reg (a + i / 4 * 4)).toNat / 2 ^ (8 * (i % 4)))

/-- A write of I2C_XFER: the transaction starts, with its address, the bytes it writes and the number it reads. -/
def i2cXferWrite : WriteEffect := fun _ x _ d _ s =>
  let b := x.idx.headD 0
  let rd := bits d 24 20
  let wr := bits d 19 15
  if s.fb (Reg.I2C_STATUS_BUSY b) ∨ (rd = 0 ∧ wr = 0) ∨ 16 < rd ∨ 16 < wr then
    s.raiseAll (Reg.I2C_FLAGS b) [Flag.I2C_FLAGS_CMD_REFUSED]
  else (s.setF (Reg.I2C_STATUS_BUSY b) 1).setServ { s.serv with i2c := Tab.put s.serv.i2c b ⟨bits d 6 0, s.bufBytes (Reg.I2C_BUF b 0) wr, rd⟩ }

/-- Put bytes into consecutive 32-bit buffer words from address a on, from byte 0. -/
def fillWords (s : State) (a : Nat) (bs : List Byte) : State :=
  forN bs.length (fun i t => t.setReg (a + i / 4 * 4)
    (BitVec.ofNat 64 (putBits (t.reg (a + i / 4 * 4)).toNat (8 * (i % 4) + 7) (8 * (i % 4)) (byteAt bs i).toNat))) s

/-- The transaction on bus b ends. -/
def i2cEnd (s : State) (b result acked : Nat) (bs : List Byte) : State :=
  let s1 := s.setServ { s.serv with i2c := Tab.del s.serv.i2c b }
  let s2 := ((s1.setF (Reg.I2C_STATUS_BUSY b) 0).setF (Reg.I2C_STATUS_RESULT b) result).setF (Reg.I2C_STATUS_BYTES b) acked
  (s2.fillWords (Reg.I2C_BUF b 0) (bs.take 16)).raiseAll (Reg.I2C_FLAGS b)
    (Flag.I2C_FLAGS_DONE :: if result = 0 then [] else [Flag.I2C_FLAGS_ERROR])

/-- The number of a result (R555). -/
def i2cCode (r : I2cResult) : Nat := match r with | .ok => 0 | .nackAddr => 1 | .nackData => 2 | .busStuck => 4

/-- The data bytes that had been transferred with ACK when a transaction ended (R554), of which acked is what the bus counted:
all but the last byte read where it ran whole, a part of the written ones where one got no ACK, those of the write where the
repeated START's address got none. -/
def i2cBytes (x : I2cRun) (res : I2cResult) (acked : Nat) : Nat :=
  match res with
  | .ok => x.out.length + (x.rd - 1)
  | .nackAddr => if x.out ≠ [] ∧ x.rd ≠ 0 ∧ x.out.length ≤ acked then x.out.length else 0
  | .nackData => min acked (x.out.length - 1)
  | .busStuck => 0

/-- A transaction ends with a result, its count of acknowledged bytes and the bytes read. -/
def i2cDone (s : State) (b : Nat) (res : I2cResult) (acked : Nat) (bs : List Byte) : State :=
  match Tab.find s.serv.i2c b with
  | none => s
  | some x => s.i2cEnd b (i2cCode res) (i2cBytes x res acked) (if res = .ok then bs.take x.rd else [])

/-- SCL is held low too long. How many bytes had been transferred, and what had been read, is open (log entry 33). -/
def i2cTimeout (s : State) (b : Nat) : State :=
  match Tab.find s.serv.i2c b with
  | none => s
  | some x =>
    let (n, s1) := s.takeFree
    let (v, s2) := s1.takeFree
    let wr := x.out.length
    let acked := n % (wr + (x.rd - 1) + 1)
    s2.i2cEnd b 3 acked (leBytes (acked - wr) v)

/-! ### SPI NOR (R556) -/

/-- The command that a word written to SPI_CMD starts: address bytes most significant first, and the data to send. -/
def spiRun (s : State) (d : Nat) : SpiRun :=
  let n := match bits d 27 26 with | 1 => 3 | 2 => 4 | _ => 0
  { opcode := bits d 7 0, addr := beBytes n (s.reg Reg.SPI_ADDR).toNat, addrQuad := bit d 29, dummy := bits d 25 21,
    dataQuad := bit d 30, write := bit d 31, out := if bit d 31 then s.bufBytes (Reg.SPI_BUF 0) (bits d 16 8) else [],
    len := bits d 16 8 }

/-- A write of SPI_CMD. -/
def spiCmdWrite : WriteEffect := fun _ _ _ d _ s =>
  if s.fb Reg.SPI_STATE_BUSY ∨ bits d 27 26 = 3 ∨ 256 < bits d 16 8 then
    s.raiseAll Reg.SPI_FLAGS [Flag.SPI_FLAGS_CMD_REFUSED]
  else (s.setF Reg.SPI_STATE_BUSY 1).setServ { s.serv with spi := some (s.spiRun d) }

/-- The command ends with the bytes that the flash sent. -/
def spiDone (s : State) (bs : List Byte) : State :=
  match s.serv.spi with
  | none => s
  | some x =>
    let s1 := (s.setServ { s.serv with spi := none }).setF Reg.SPI_STATE_BUSY 0
    (if x.write then s1 else s1.fillWords (Reg.SPI_BUF 0) (bs.take (min x.len 256))).raiseAll Reg.SPI_FLAGS [Flag.SPI_FLAGS_DONE]

end State
end Sys2Proof.Machine
end

