-- ==== Sys2Proof/Machine/Boot.lean ====
section
/-! DEFINITION. NVM, resets, boot, power and thermal limits (R561–R601, R611, R612). -/

namespace Sys2Proof.Machine
namespace State

/-- Set the always-on record. -/
def setAon (s : State) (x : Aon) : State := { s with aon := x }

/-! ### ALERT_N (R576, R594) -/

/-- The causes of ALERT_N follow what they stand for; BOOT, 1 at reset, stands with every code but OK, and clears when boot
completes with OK or an Ingot clears its code (State.activate; log entry 48). -/
def alerts (s : State) : State :=
  let b (x : Bool) : Nat := if x then 1 else 0
  let boot := if s.sf Reg.BOOT_STATUS_CODE ≠ 0 then 1 else if s.sf Reg.BOOT_STATUS_STEP = 8 then 0 else s.sf Reg.PWR_ALERT_BOOT
  ((((s.setSf Reg.PWR_ALERT_SUPPLY (b (s.sf Reg.PWR_SUPPLY_OUT != 0))).setSf Reg.PWR_ALERT_GOV_EXHAUSTED
    (s.sf Reg.PWR_STATE_GOV_EXHAUSTED)).setSf Reg.PWR_ALERT_THERMAL_HOLD
    (b (s.sf Reg.PWR_STATE_THERMAL_HOLD != 0 || s.aon.hold == .trip))).setSf Reg.PWR_ALERT_KEEPER_RESET
    (b s.aon.saved.isSome)).setSf Reg.PWR_ALERT_BOOT boot

/-- ALERT_N is low. -/
def alertLow (s : State) : Bool := bits (s.slowReg Reg.PWR_ALERT).toNat 4 0 != 0

/-! ### NVM stores (R564–R569) -/

/-- STATE of NVM_STORE_STATE follows the key and the store. -/
def storeState (s : State) : State :=
  s.setSf Reg.NVM_STORE_STATE_STATE (if s.nvm.storing.isSome then 2 else if s.nvm.key = 2 then 1 else 0)

/-- The key takes a value. -/
def setKey (s : State) (k : Nat) : State := (s.setNvm { s.nvm with key := k }).storeState

/-- An NVM_KEY write is applied (R564). -/
def applyKey (s : State) (v : Nat) : State :=
  s.setKey (if v = 0x5A17 then 1 else if v = 0xC0DE ∧ s.nvm.key = 1 then 2 else 0)

/-- The code of an NVM_STORE of a sector (R565). -/
def storeCode (s : State) (k : Nat) : Nat :=
  if s.nvm.key ≠ 2 then 1
  else if s.nvm.storing.isSome then 2
  else if k < 128 ∧ 100000 ≤ s.sf (Reg.NVM_WEAR_COUNT k) then 3
  else if k = 20 ∧ s.nvm.stored.contains 20 then 4
  else if 127 < k then 5
  else 0

/-- The staging buffer in the register space (R582). -/
def stagingBase : Nat := 0xF000210000

/-- What the staging buffer holds, by offset. -/
def stagingCells (s : State) : List Host.Cell :=
  (s.mem.filter fun c => decide (stagingBase ≤ c.1) && decide (c.1 < stagingBase + 65536)).map fun c => (c.1 - stagingBase, c.2)

/-- An NVM_STORE write is applied; the store takes the staging data with it, and no reset of the fast domain reaches them
(R566). -/
def applyStore (s : State) (k : Nat) : State :=
  let c := s.storeCode k
  let s1 := s.setSf Reg.NVM_STORE_STATE_SECTOR k
  if c ≠ 0 then ((s1.setSf Reg.NVM_STORE_STATE_RESULT c).setKey 0).slowRaise Reg.NVM_BLOCK_STATUS [Flag.NVM_STORE_REFUSED]
  else
    let w := min 100000 (s.sf (Reg.NVM_WEAR_COUNT k) + 1)
    let s2 := (s1.setSf (Reg.NVM_WEAR_COUNT k) w).setNvm { s.nvm with key := 0, storing := some k, staged := s.stagingCells }
    (if w = 90000 then s2.slowRaise Reg.NVM_BLOCK_STATUS [Flag.NVM_WEAR_WARN] else s2).storeState

/-- The cells of NVM with the sector at lo replaced by data given by offset. -/
def withSector (cells : List Host.Cell) (lo : Nat) (data : List Host.Cell) : List Host.Cell :=
  let inside := data.filter fun c => decide (c.1 < 65536)
  (cells.filter fun c => decide (c.1 < lo)) ++ (inside.map fun c => (lo + c.1, c.2)) ++
    cells.filter fun c => decide (lo + 65536 ≤ c.1)

/-- The store in progress ends (R566). -/
def storeDone (s : State) (verified : Bool) : State :=
  match s.nvm.storing with
  | none => s
  | some k =>
    let lo := k * 65536
    let n : Nvm := if verified then
        { s.nvm with cells := withSector s.nvm.cells lo s.nvm.staged, stored := setAdd s.nvm.stored k,
                     bad := s.nvm.bad.filter (fun b => decide (b < lo) || decide (lo + 65536 ≤ b)), storing := none, staged := [] }
      else { s.nvm with storing := none, staged := [] }
    let s1 := { s with copyWaits := s.copyWaits.filter fun i => slotSector i != k }
    ((s1.setNvm n).setSf Reg.NVM_STORE_STATE_RESULT (if verified then 0 else 7)).storeState.slowRaise Reg.NVM_BLOCK_STATUS
      [Flag.NVM_STORE_DONE]

/-- A write of NVM_READ_SEL: it lies in the fast domain (R568). -/
def nvmReadSelWrite : WriteEffect := fun _ x new _ _ s =>
  (s.setReg x.addr (BitVec.ofNat 64 new)).setNvm { s.nvm with readSel := bits new 6 0 }

/-! ### Resets (R571, R572) -/

/-- Entries of a register table whose address passes a test. -/
def keepRegs (t : Tab Word) (p : Nat → Bool) : Tab Word :=
  let q (x : Nat × Word) : Bool := p x.1
  t.filter q

/-- A register that no reset changes: the sampled balls. -/
def fixedReg (a : Nat) : Bool := a == Reg.GPIO_IN

/-- An NVM_WEAR register. -/
def wearReg (a : Nat) : Bool := decide (Reg.NVM_WEAR 0 ≤ a) && decide (a ≤ Reg.NVM_WEAR 127)

/-- A count of mirror refreshes, which only a power-on or trip reset returns to zero (R571, R601). -/
def tickReg (a : Nat) : Bool := a == Reg.NVM_MIRROR_TICK || a == Reg.POWER_MIRROR_TICK

/-- The fuse of the variant stands as in an earlier state: no reset changes it (R5). -/
def sameFuse (s t : State) : State := t.setF Reg.SYS_DEVICE_ID_VARIANT (s.f Reg.SYS_DEVICE_ID_VARIANT)

/-- A register of the always-on domain: a mirror of NVM or POWER. -/
def aonReg (a : Nat) : Bool := (bits a 39 20 == 0xF0002 || bits a 39 20 == 0xF00D0) && a != Reg.NVM_READ_SEL

/-- The part in power-on reset (R571): NVM contents stay, a store in progress is lost. -/
def powerOn (s : State) (h : Hold) : State :=
  s.sameFuse { State.reset with
    pending := s.pending, free := s.free, cycle := s.cycle
    regs := keepRegs s.regs fun a => fixedReg a || wearReg a
    bus := { slow := keepRegs s.bus.slow wearReg }
    nvm := { cells := s.nvm.cells, stored := s.nvm.stored, bad := s.nvm.bad, lost := s.nvm.storing.isSome || s.nvm.lost }
    serv := { gpio := s.serv.gpio, gpioBoard := s.serv.gpioBoard }
    aon := { hold := h, pwrGood := s.aon.pwrGood } }

/-- PWR_GOOD and RESET_N take levels (R612): either of them low holds one power-on reset, which a low PWR_GOOD begins anew. -/
def pinsLow (s : State) (pwrGood resetN : Bool) : State :=
  let t := s.setAon { s.aon with pwrGood := pwrGood }
  if pwrGood && (resetN || s.aon.hold == .pins) then t else t.powerOn .pins

/-- A thermal trip (R593): the sensors and RESET_CAUSE are not reset. -/
def trip (s : State) : State :=
  let sense (a : Nat) : Bool := decide (Reg.THERM_SENSE 0 ≤ a) && decide (a ≤ Reg.THERM_SENSE 15)
  let s1 := s.powerOn .trip
  let s2 := s1.setBus { s1.bus with slow := keepRegs s.bus.slow fun a => wearReg a || sense a || a == Reg.RESET_CAUSE }
  ((s2.setSf Reg.PWR_STATE_TJ_MAX (s.sf Reg.PWR_STATE_TJ_MAX)).setSf Reg.RESET_CAUSE_CAUSE 6).alerts

/-- Power-on reset is released (R430, R566, R573, R612): PWR_GOOD and RESET_N are high, straps are sampled, a lost store is reported, the boot ROM starts. -/
def release (s : State) (role index : Nat) : State :=
  let s1 := (s.setAon { s.aon with hold := .free, pwrGood := true }).setF Reg.CHAIN_STATE_STRAP_ROLE role
  let s2 := (s1.setF Reg.CHAIN_STATE_INDEX index).setSf Reg.BOOT_STATUS_STEP 2
  let s3 := if s.nvm.lost then (s2.setNvm { s2.nvm with lost := false }).setSf Reg.NVM_STORE_STATE_RESULT 6 else s2
  s3.alerts

/-- RESET_RELEASE: 2 ms after PWR_GOOD and RESET_N are high; after a warm reset the end of step 1, which keeps the straps
(R571, R573). -/
def resetRelease (s : State) (role index : Nat) : State :=
  if s.aon.hold = .pins ∨ (s.aon.hold = .free ∧ s.sf Reg.BOOT_STATUS_STEP = 1 ∧ s.sf Reg.RESET_CAUSE_CAUSE ≠ 2) then
    s.release role index
  else if s.aon.hold = .free ∧ s.sf Reg.BOOT_STATUS_STEP = 1 then (s.setSf Reg.BOOT_STATUS_STEP 2).alerts
  else s

/-- TRIP_RELEASE: TJ_MAX has stayed below 100 °C for 1 s, 1,000,000 samples (R593). -/
def tripRelease (s : State) (role index : Nat) : State :=
  if s.aon.hold = .trip ∧ 1000000 ≤ s.aon.cool then s.release role index else s

/-- A warm reset (R571): everything but the always-on domain. -/
def warmReset (s : State) : State :=
  let slow := keepRegs s.bus.slow fun a => aonReg a && a != Reg.BOOT_STATUS
  let mirrors := slow.foldr (fun (x : Nat × Word) (t : Tab Word) => Tab.put t x.1 x.2)
    (keepRegs s.regs fun a => fixedReg a || tickReg a)
  let t : State := s.sameFuse { State.reset with
    pending := s.pending, free := s.free, cycle := s.cycle, regs := mirrors, bus := { slow := slow }
    nvm := { s.nvm with readSel := 0 }, serv := { gpio := s.serv.gpio, gpioBoard := s.serv.gpioBoard }
    aon := { s.aon with keeperUp := false, saved := none, halted := false, stopped := false, params := [], entry := none,
                        held := false, ready := false } }
  ((((t.setF Reg.CHAIN_STATE_STRAP_ROLE (s.f Reg.CHAIN_STATE_STRAP_ROLE)).setF Reg.CHAIN_STATE_INDEX
    (s.f Reg.CHAIN_STATE_INDEX)).setSf Reg.RESET_CAUSE_CAUSE 2).setSf Reg.BOOT_STATUS_STEP 1).alerts

/-- A Keeper reset with a cause (R572): the Keeper, its SRAM and the semaphores it holds. Steps 4 to 7 are not run any more:
the firmware that starts next skips them (log entry 132). -/
def keeperReset (s : State) (cause : Nat) : State :=
  let step := s.sf Reg.BOOT_STATUS_STEP
  let s1 := s.setAon { s.aon with keeperUp := false, saved := some (s.aon.saved.getD step), halted := false, stopped := true,
                                  held := false, ready := false }
  let sram (c : Host.Cell) : Bool := decide (0xFF80000000 ≤ c.1) && decide (c.1 < 0xFF80080000)
  let s2 := { (s1.freeSems 0) with mem := s.mem.filter fun c => !sram c }
  let s3 := (s2.setSf Reg.BOOT_STATUS_STEP 2).setSf Reg.RESET_CAUSE_CAUSE cause
  let s4 := s3.setSf Reg.RESET_CAUSE_KEEPER_RESETS (satAdd 16 (s3.sf Reg.RESET_CAUSE_KEEPER_RESETS) 1)
  (s4.slowRaise Reg.NVM_BLOCK_STATUS [Flag.NVM_KEEPER_RESET]).alerts

/-- The watchdog expires (R572). -/
def watchdogExpiry (s : State) : State :=
  if s.sf Reg.KWDT_CFG_EN = 1 ∧ 1000 * max 1 (s.sf Reg.KWDT_CFG_TIMEOUT_MS) ≤ s.aon.watchdog then
    (s.setSf Reg.KWDT_CFG_EN 0).keeperReset 5
  else s

/-! ### Forwarded writes in the slow domain (R56, R58) -/

/-- A snapshot (R588). -/
def snapshot (s : State) : State :=
  let s1 := (s.setSf Reg.PWR_SNAP_ENERGY_UJ (s.sf Reg.PWR_ENERGY_TOTAL_UJ)).setSf Reg.PWR_SNAP_DELIVERED_PIXELS
    (s.sf Reg.PWR_DELIVERED_PIXELS)
  (s1.setSf Reg.PWR_SNAP_TIME_NS (s.tq / 65536)).setSf Reg.PWR_SNAP_TIME_SEQ (s.sf Reg.PWR_SNAP_TIME_SEQ + 1)

/-- A field of a slow-domain register takes the bits written. -/
def mergeSlow (s : State) (w : Forwarded) (x : Fld) : State :=
  let old := (s.slowReg w.addr).toNat
  let v := (old - (old &&& w.mask.toNat)) + (w.data.toNat &&& w.mask.toNat)
  s.setSf x (bits v x.hi x.lo)

/-- Fields take the bits written, in order. -/
def mergeAll (s : State) (w : Forwarded) (xs : List Fld) : State := xs.foldl (fun t x => t.mergeSlow w x) s

/-- A clear of a mirrored status register is compared against the slow domain's SEQ (R53, R56). -/
def clearSlow (s : State) (w : Forwarded) : State :=
  let v := (s.slowReg w.addr).toNat
  if bits w.data.toNat 31 16 = bits v 31 16 then
    s.setSlow w.addr (BitVec.ofNat 64 (v - (bits v 15 0 &&& bits w.data.toNat 15 0)))
  else s

/-- The fields of a register that a forwarded write of a master sets (R58). -/
def acceptedFields (w : Forwarded) : List Fld :=
  let keeper (xs : List Fld) : List Fld := if w.master = 0 then xs else []
  if w.addr = Reg.KWDT_CFG then [Reg.KWDT_CFG_EN, Reg.KWDT_CFG_TIMEOUT_MS]
  else if w.addr = Reg.GOV_CFG then [Reg.GOV_CFG_DOWN_MHZ, Reg.GOV_CFG_LIMIT_W, Reg.GOV_CFG_RELEASE_W]
  else if w.addr = Reg.GOV_TIME then [Reg.GOV_TIME_BUDGET_MS, Reg.GOV_TIME_HOLD_MS, Reg.GOV_TIME_ACT_MS]
  else if w.addr = Reg.THERM_CFG then [Reg.THERM_CFG_WARN_C, Reg.THERM_CFG_EXIT_C]
  else if w.addr = Reg.BOOT_STATUS then
    keeper [Reg.BOOT_STATUS_STEP, Reg.BOOT_STATUS_CODE, Reg.BOOT_STATUS_FW_SRC, Reg.BOOT_STATUS_FW_SIG, Reg.BOOT_STATUS_PARAMS_SPI,
            Reg.BOOT_STATUS_APP_SIG]
  else if w.addr = Reg.BOOT_FW_VERSION then keeper [Reg.BOOT_FW_VERSION_VERSION]
  else if w.addr = Reg.PWR_STATE then keeper [Reg.PWR_STATE_GOV_STEP, Reg.PWR_STATE_GOV_EXHAUSTED]
  else if w.addr = Reg.PWR_NOW then keeper [Reg.PWR_NOW_EXCESS, Reg.PWR_NOW_POWER]
  else if w.addr = Reg.GOV_STATS then keeper [Reg.GOV_STATS_ENGAGES, Reg.GOV_STATS_EXHAUSTED]
  else []

/-- The slow domain applies one forwarded write; true where it resets the fast domain. -/
def applySlow (s : State) (w : Forwarded) : State × Bool :=
  let d := w.data.toNat
  if w.addr = Reg.NVM_KEY then (s.applyKey (bits d 15 0), false)
  else if w.addr = Reg.NVM_STORE then (s.applyStore (bits d 7 0), false)
  else
    let s1 := if bits w.addr 39 20 = 0xF0002 then s.setKey 0 else s
    if w.addr = Reg.RESET_CTRL then
      (if bits d 31 16 = 0x3A5C ∧ bits d 1 0 = 1 then (s1.warmReset, true)
       else if bits d 31 16 = 0x3A5C ∧ bits d 1 0 = 2 then (s1.keeperReset 3, false)
       else (s1, false))
    else if w.addr = Reg.KWDT_KICK then (s1.setAon { s1.aon with watchdog := 0 }, false)
    else if w.addr = Reg.PWR_SNAP then (s1.snapshot, false)
    else if w.addr = Reg.NVM_BLOCK_STATUS ∨ w.addr = Reg.POWER_BLOCK_STATUS then (s1.clearSlow w, false)
    else
      let s2 := s1.mergeAll w (acceptedFields w)
      let s3 := if w.addr = Reg.KWDT_CFG ∧ s.sf Reg.KWDT_CFG_EN = 0 then s2.setAon { s2.aon with watchdog := 0 } else s2
      -- a step that Keeper firmware engages or releases (R589, R590)
      let s4 := if s3.sf Reg.PWR_STATE_GOV_STEP ≠ s.sf Reg.PWR_STATE_GOV_STEP then
          s3.slowRaise Reg.POWER_BLOCK_STATUS [Flag.POWER_GOV_STEP] else s3
      (s4.alerts, false)

/-- Writes are applied in order; a warm reset drops those behind it. -/
def applyAll (s : State) (ws : List Forwarded) : State :=
  match ws with
  | [] => s
  | w :: r => let x := s.applySlow w; if x.2 then x.1 else applyAll x.1 r

/-- The queue of block NVM, or of POWER, is applied whole. -/
def drainNvm (s : State) : State := (s.setBus { s.bus with nvmQ := [] }).applyAll s.bus.nvmQ
def drainPower (s : State) : State := (s.setBus { s.bus with powerQ := [] }).applyAll s.bus.powerQ


/-! ### Boot images and parameters (R562, R563, R570) -/

/-- What a boot image holds, once found valid. -/
structure BootImage where
  load : Nat
  entry : Nat
  version : Nat
  sig : Nat
  body : List Byte
  deriving DecidableEq, Repr

/-- Do the header and the CRC of a boot image of a kind hold: its magic and the limit of LOAD_OFFSET + LENGTH (R562)? -/
def bootForm (bs : List Byte) (magic limit whole : Nat) : Bool :=
  let g (o n : Nat) : Nat := leAt bs o n
  let len := g 8 4
  let total := 32 + len + (if bit (g 6 2) 0 then 128 else 0)
  let covered := bs.take (32 + len)
  let forCrc := covered.take 0x18 ++ [0, 0, 0, 0] ++ covered.drop 0x1C
  !(decide (g 0 4 ≠ magic ∨ g 4 1 ≠ 1 ∨ g 5 1 ≠ 0 ∨ 1 < g 6 2 ∨ g 0x1C 4 ≠ 0 ∨ len = 0 ∨ len % 4 ≠ 0 ∨ g 0xC 4 % 64 ≠ 0 ∨
      len ≤ g 0x10 4 ∨ limit < g 0xC 4 + len ∨ whole < total ∨ bs.length < total)) && crc32c forCrc == g 0x18 4

/-- A boot image of a kind, signature judged last; none where it is not valid (R562). -/
def bootImage (s : State) (bs : List Byte) (magic limit whole : Nat) : Option BootImage :=
  let g (o n : Nat) : Nat := leAt bs o n
  let len := g 8 4
  let sig := s.signatureOutcome (bit (g 6 2) 0) (bs.take (32 + len)) (bs.drop (32 + len) |>.take 128)
  if bootForm bs magic limit whole = false ∨ sig.1 ≠ 0 then none
  else some ⟨g 0xC 4, g 0x10 4, g 0x14 4, sig.2, (bs.drop 32).take len⟩

/-- The magic numbers of R562, least significant byte first. -/
def firmwareMagic : Nat := 0x3157464B
def appMagic : Nat := 0x31505041

/-- Bytes of NVM from a sector on. -/
def nvmBytes (s : State) (sector n : Nat) : List Byte :=
  (List.range n).map fun o => s.nvmByte (sector + o / 65536) (o % 65536)

/-- The bytes of firmware copy c that its header names, which the ROM reads. -/
def copyExtent (s : State) (c : Nat) : Nat := min 524288 (32 + leAt (s.nvmBytes (8 * c) 32) 8 4 + 128)

/-- Firmware copy c, where it is valid (R563). -/
def firmwareCopy (s : State) (c : Nat) : Option BootImage :=
  let n := s.copyExtent c
  if s.nvmSpoiled (8 * c) n then none else s.bootImage (s.nvmBytes (8 * c) n) firmwareMagic 524288 524288

/-- Is the signature of firmware copy c judged? -/
def copyJudged (s : State) (c : Nat) : Bool :=
  !s.nvmSpoiled (8 * c) (s.copyExtent c) && bootForm (s.nvmBytes (8 * c) (s.copyExtent c)) firmwareMagic 524288 524288

/-- The ROM reads the copies in NVM, the key hash and, where neither copy is valid, the image in SPI NOR: errors in NVM are
recorded (R563, R568). -/
def noteFirmwareReads (s : State) (spi : List Byte) : State :=
  let s1 := if s.nvmSpoiled 0 (s.copyExtent 0) ∨ s.nvmSpoiled 8 (s.copyExtent 1) then
      s.slowRaise Reg.NVM_BLOCK_STATUS [Flag.NVM_READ_ERROR] else s
  s1.noteKeyRead (s.copyJudged 0 || s.copyJudged 1 ||
    ((s.firmwareCopy 0).isNone && (s.firmwareCopy 1).isNone && bootForm spi firmwareMagic 524288 524288))

/-- The firmware that the boot ROM runs, with its source (R563). -/
def chooseFirmware (s : State) (spi : List Byte) : Option (BootImage × Nat) :=
  match s.firmwareCopy 0, s.firmwareCopy 1 with
  | some a, some b => if a.version < b.version then some (b, 1) else some (a, 0)
  | some a, none => some (a, 0)
  | none, some b => some (b, 1)
  | none, none => (s.bootImage spi firmwareMagic 524288 524288).map fun x => (x, 2)

/-- A boot parameter record is valid (R570). -/
def paramsValid (bs : List Byte) : Bool :=
  let g (o n : Nat) : Nat := leAt bs o n
  decide (128 ≤ bs.length) && g 0 4 == 0x4D525042 && g 4 2 == 1 &&
  crc32c (bs.take 8 ++ [0, 0, 0, 0] ++ (bs.take 128).drop 12) == g 8 4 &&
  decide (g 0xC 1 ≤ 1) && decide (g 0xD 1 ≤ 3) && decide (g 0xE 1 ≤ 1) && (g 0xF 1 == 1 || g 0xF 1 == 2) &&
  (g 0x10 1 == 0xFF || (decide (g 0x10 1 ≤ 127) && (g 0x11 1 == 3 || g 0x11 1 == 4))) && g 0x14 4 % 65536 == 0

/-- A field of the boot parameters in use. -/
def param (s : State) (o n : Nat) : Nat := leAt s.aon.params o n

/-! ### The boot steps (R573–R575) -/

/-- Boot stands at a step with a code. -/
def bootAt (s : State) (step code : Nat) : State :=
  ((s.setSf Reg.BOOT_STATUS_STEP step).setSf Reg.BOOT_STATUS_CODE code).alerts

/-- Boot stops at a step with a code: no later step runs (R573). -/
def bootStop (s : State) (step code : Nat) : State := (s.setAon { s.aon with stopped := true }).bootAt step code

/-- The binding of channel n at step 7 (R574). -/
def bindingOf (s : State) (n : Nat) : Nat :=
  -- a read of the word of sector 19, which counts as zeros until it has been stored, and reads zero with an error (R568)
  let word := if s.nvm.stored.contains 19 = false ∨ (List.range 4).any (fun o => s.nvm.bad.contains (19 * 65536 + 4 * n + o)) then 0
    else leAt ((List.range 4).map fun o => s.nvmByte 19 (4 * n + o)) 0 4
  if s.hasIngot then
    let g (o : Nat) : Nat := s.img s.slot 9 (4 * n + o) 1
    bits word 31 16 * 65536 + (if bit (g 2) 0 then 2 ^ 15 + g 1 % 32 * 2 ^ 8 + g 0 % 32 else 0)
  else word

/-- Step 7: class floors, mailbox bindings, their locks; on a GX8128-M the start address and the cores. -/
def bootStep7 (s : State) : State :=
  let s1 := forN 16 (fun k t => t.setReg (Reg.CLASS_FLOOR k) (BitVec.ofNat 64 (s.param (0x40 + 4 * k) 4))) s
  let s2 := forN 64 (fun n t => t.setBind n (s.bindingOf n)) (s1.setF Reg.CLASS_LOCK_LOCKED 1)
  let s3 := s2.setF Reg.MB_BIND_LOCK_LOCKED 1
  let s4 := match s.aon.entry with
    | some a => if s.isM then (s3.setF Reg.APPCX_RESET_VEC_VEC (a / 4)).setRelease (s.param 0x12 1) else s3
    | none => s3
  let s5 := s4.setAon { s4.aon with held := false, ready := false, stopped := true }
  let s6 := if s.nvmSpoiled 19 256 then s5.slowRaise Reg.NVM_BLOCK_STATUS [Flag.NVM_READ_ERROR] else s5
  s6.bootAt 8 (s.sf Reg.BOOT_STATUS_CODE)

/-- Steps 5 and 6 are done: step 7 runs, or waits for an Ingot over the chain (R575). -/
def bootToStep7 (s : State) : State :=
  if s.sf Reg.BOOT_STATUS_CODE = 7 then (s.setAon { s.aon with held := true }).bootAt 7 7 else s.bootStep7

/-- An Ingot has become active: a boot that waits for it goes on, with the Keeper firmware that runs it. -/
def bootResume (s : State) : State :=
  if s.aon.held ∧ s.hasIngot ∧ s.aon.keeperUp then s.alerts.bootStep7 else s.alerts

/-- INGOT_CMD, with what an activation lets boot do (R83, R575, R576). -/
def ingotCmdThen (s : State) (op i : Nat) : State := (s.ingotCmd op i).bootResume

/-- A write of INGOT_CMD. -/
def ingotCmdWrite : WriteEffect := fun _ _ _ d _ s => s.ingotCmdThen (bits d 3 0) (bits d 4 4)

/-- Step 4: an Ingot slot is validated; whether it is VALID. -/
def bootValidate (s : State) (i : Nat) : Bool × State :=
  let t := (s.slotTo i 2).validationDone i
  (t.slotState i == 3, t)

/-- Step 4 ends without an Ingot: the boot link, or none (R436, R575). -/
def bootNoIngot (s : State) : State :=
  let p := s.param 0x10 1
  if s.f Reg.CHAIN_STATE_STRAP_ROLE = 2 ∧ p ≠ 0xFF then
    let s1 := (s.setChain { s.chain with boot := some p }).setReg (Reg.CHAIN_LINK 0) (BitVec.ofNat 64 (2 ^ 61 + 3 * 2 ^ 59))
    (s1.setF (Reg.PQ_MODE_MODE (p / 4)) (s.param 0x11 1)).leaveSources.bootAt 5 7
  else s.bootAt 5 4

/-- Step 4: both NVM slots are copied; BOOT_SLOT is validated, or else the other; a VALID one becomes active (R86). -/
def bootIngot (s : State) : State :=
  let b := s.param 0xC 1
  let s1 := forN 2 (fun i t => (t.copySector (slotSector i) (slotBase i)).slotTo i 1) s
  let (ok, s2) := s1.bootValidate b
  if ok then (s2.activate b).bootAt 5 0
  else
    let (ok', s3) := s2.bootValidate (1 - b)
    if ok' then ((s3.activate (1 - b)).ingotRaise [Flag.INGOT_BOOT_FALLBACK]).bootAt 5 0 else s3.bootNoIngot

/-- Step 4: the boot parameters (R570). -/
def bootParams (s : State) (spi : List Byte) : State :=
  let own := s.nvmBytes 18 128
  let s1 := if s.nvmSpoiled 18 128 then s.slowRaise Reg.NVM_BLOCK_STATUS [Flag.NVM_READ_ERROR] else s
  if paramsValid own then ((s1.setAon { s1.aon with params := own }).setSf Reg.BOOT_STATUS_PARAMS_SPI 0).bootIngot
  else if paramsValid spi then
    ((s1.setAon { s1.aon with params := spi.take 128 }).setSf Reg.BOOT_STATUS_PARAMS_SPI 1).bootIngot
  else s1.bootStop 4 3

/-- The straps forbid the part to run (R4, R430). -/
def roleForbidden (s : State) : Bool :=
  s.f Reg.CHAIN_STATE_STRAP_ROLE == 3 || (!s.isM && s.f Reg.CHAIN_STATE_STRAP_ROLE != 2)

/-- Steps 2 to 4 (R563, R573), which follow the release of reset; after a Keeper reset steps 2 and 3 alone (R572). A Keeper
that found no valid source has halted in the ROM. -/
def firmwareStart (s : State) (spiFirmware spiParams : List Byte) : State :=
  if s.aon.keeperUp ∨ s.aon.halted ∨ s.sf Reg.BOOT_STATUS_STEP ≠ 2 then s
  else
    let s0 := s.noteFirmwareReads spiFirmware
    match s.chooseFirmware spiFirmware with
    | none => (s0.setAon { s0.aon with halted := true }).bootAt 2 1
    | some (f, src) =>
      let s1 := s0.put (0xFF80000000 + f.load) f.body
      let s2 := ((s1.setSf Reg.BOOT_STATUS_FW_SRC src).setSf Reg.BOOT_STATUS_FW_SIG f.sig).setSf Reg.BOOT_FW_VERSION_VERSION f.version
      let s3 := s2.setAon { s2.aon with keeperUp := true, saved := none, gov := {} }
      let code := s.sf Reg.BOOT_STATUS_CODE
      if s.roleForbidden then s3.bootStop 2 2
      else match s.aon.saved with
        | some step => (s3.bootAt step (if code = 1 then 0 else code)).reselect
        | none => (s3.reselect.bootAt 4 0).bootParams spiParams

/-- Step 5 (R500): the channels that failed stay UNTRAINED. -/
def ddrTrainingDone (s : State) (failed : List Nat) : State :=
  if s.aon.keeperUp ∧ s.aon.stopped = false ∧ s.sf Reg.BOOT_STATUS_STEP = 5 then
    let s1 := forN 16 (fun c t =>
      if failed.contains c then t else t.trainChannel (s.param 0xD 1) (s.param 0xE 1) (s.param 0xF 1) c) s
    if failed.isEmpty = false then s1.bootStop 5 5
    else if s.isM then s1.bootAt 6 (s.sf Reg.BOOT_STATUS_CODE)
    else s1.bootToStep7
  else s

/-- Step 6 (R562, R573): the application image. -/
def appImageLoaded (s : State) (image : List Byte) : State :=
  if s.aon.keeperUp ∧ s.aon.stopped = false ∧ s.sf Reg.BOOT_STATUS_STEP = 6 then
    let s0 := s.noteKeyRead (bootForm image appMagic 4194304 (2 ^ 32))
    match s.bootImage image appMagic 4194304 (2 ^ 32) with
    | none => s0.bootStop 6 6
    | some f =>
      let s1 := (s0.put (0xFF00000000 + f.load) f.body).setSf Reg.BOOT_STATUS_APP_SIG f.sig
      (s1.setAon { s1.aon with entry := some (0xFF00000000 + f.load + f.entry) }).bootToStep7
  else s

/-! ### Supplies and heat (R585, R591–R593) -/

/-- Rail r goes out of range, or comes back. -/
def supplyOut (s : State) (r : Nat) : State :=
  ((s.setSf Reg.PWR_SUPPLY_OUT (s.sf Reg.PWR_SUPPLY_OUT ||| 2 ^ r)).slowRaise Reg.POWER_BLOCK_STATUS [Flag.POWER_SUPPLY]).alerts
def supplyBack (s : State) (r : Nat) : State := (s.setSf Reg.PWR_SUPPLY_OUT (putBits (s.sf Reg.PWR_SUPPLY_OUT) r r 0)).alerts

/-- The sensors are sampled: THERM_SENSE and TJ_MAX. -/
def sense (s : State) (tj : List (BitVec 16)) : State :=
  let s1 := forN 16 (fun i t => match tj[i]? with | some v => t.setSf (Reg.THERM_SENSE_TJ i) v.toNat | none => t) s
  let top := (List.range 16).foldl (fun (m : Int) i => max m (sgn 16 (s1.sf (Reg.THERM_SENSE_TJ i)))) (-32768)
  s1.setSf Reg.PWR_STATE_TJ_MAX (unsgn 16 top)

/-- TJ_MAX in 1/16 °C. -/
def tjMax (s : State) : Int := sgn 16 (s.sf Reg.PWR_STATE_TJ_MAX)

/-- Thermal Hold begins (R297, R591, R592): the frame in progress of every raster is not sent. -/
def holdEnter (s : State) : State :=
  let s1 := (s.setSf Reg.PWR_STATE_THERMAL_HOLD 1).setSf Reg.THERM_STATS_HOLDS (satAdd 16 (s.sf Reg.THERM_STATS_HOLDS) 1)
  let s2 := s1.slowRaise Reg.POWER_BLOCK_STATUS [Flag.POWER_HOLD_ENTERED]
  forN 16 (fun m t =>
    if t.enabled m then (t.sigAbandon m).setRaster m { (t.sigAbandon m).raster m with thermal := true, sentNext := false, pass := none } else t)
    { s2 with engines := s2.engines.map fun x => (x.1, { x.2 with todo := [] }) }

/-- TJ_MAX stands at or below EXIT_C (R591). -/
def coolEnough (s : State) : Bool := decide (s.tjMax ≤ (16 * min 110 (max 85 (s.sf Reg.THERM_CFG_EXIT_C)) : Nat))

/-- Consecutive samples that a condition has held. -/
def countCool (s : State) (ok : Bool) : State := s.setAon { s.aon with cool := if ok then s.aon.cool + 1 else 0 }

/-- Thermal Hold ends after 1 s without a break, 1,000,000 samples, at or below EXIT_C (R591, R592): the next frame of every
raster is dirty. -/
def holdExit (s : State) : State :=
  if s.thermalHold ∧ 1000000 ≤ s.aon.cool then
    let s1 := ((s.setAon { s.aon with cool := 0 }).setSf Reg.PWR_STATE_THERMAL_HOLD 0).slowRaise Reg.POWER_BLOCK_STATUS [Flag.POWER_HOLD_LEFT]
    forN 16 (fun m t => if t.enabled m then t.soil m else t) s1.alerts
  else s

/-- The thermal limits act on a sample. -/
def thermalAct (s : State) : State :=
  let s1 := if sgn 16 (s.sf Reg.THERM_STATS_TJ_PEAK) < s.tjMax then
      s.setSf Reg.THERM_STATS_TJ_PEAK (s.sf Reg.PWR_STATE_TJ_MAX) else s
  let s2 := if ((16 * min 114 (s.sf Reg.THERM_CFG_WARN_C) : Nat) : Int) ≤ s.tjMax then
      s1.slowRaise Reg.POWER_BLOCK_STATUS [Flag.POWER_THERMAL_WARN] else s1
  let s3 := if s.thermalHold then
      let c := s2.countCool s.coolEnough
      let e := c.aon.holdEdges + 1
      if e < 1000 then c.setAon { c.aon with holdEdges := e }
      else (c.setAon { c.aon with holdEdges := 0 }).setSf Reg.THERM_STATS_HOLD_MS (satAdd 32 (s2.sf Reg.THERM_STATS_HOLD_MS) 1)
    else s2
  if 2000 ≤ s.tjMax then s3.trip
  else if 1840 ≤ s.tjMax ∧ s.thermalHold = false then (s3.countCool false).holdEnter.alerts else s3

/-! ### Energy (R587) and the slow-clock edge (R55) -/

/-- n nanojoules enter a µJ counter, whose remainder is kept under key r. -/
def addEnergy (s : State) (x : Fld) (r n : Nat) : State :=
  let v := Tab.get s.aon.nanoJ r 0 + n
  (s.setAon { s.aon with nanoJ := Tab.put s.aon.nanoJ r (v % 1000) }).setSf x (s.sf x + v / 1000)

/-- Every rail's energy of one edge, and the sum. -/
def energy (s : State) (nJ : List Nat) : State :=
  (forN 8 (fun r t => t.addEnergy (Reg.PWR_ENERGY_UJ r) r (nJ.getD r 0)) s).addEnergy Reg.PWR_ENERGY_TOTAL_UJ 8 (nJ.take 8).sum

/-- The mirrors take the slow domain's values (R55, R57). -/
def refreshMirrors (s : State) : State :=
  let s1 := s.bus.slow.foldr (fun (x : Nat × Word) (t : State) => t.setReg x.1 x.2) s
  (s1.addF Reg.NVM_MIRROR_TICK_TICK 1).addF Reg.POWER_MIRROR_TICK_TICK 1

/-- A slow-clock edge: samples, the mirrors' refresh, then the forwarded writes that entered before it. Under a trip's
hold the sensors run; under either hold the energy counters run while PWR_GOOD is high (R593, R601). -/
def slowEdge (s : State) (tj : List (BitVec 16)) (nJ : List Nat) : State :=
  match s.aon.hold with
  | .pins => when s.aon.pwrGood (fun t => t.energy nJ) s
  | .trip =>
    let t := when s.aon.pwrGood (fun t => t.energy nJ) (s.sense tj)
    t.countCool (decide (t.tjMax < 1600))
  | .free =>
    let s1 := ((s.sense tj).energy nJ).thermalAct
    if s1.aon.hold = .trip then s1
    else
      let s2 := if s1.sf Reg.KWDT_CFG_EN = 1 then s1.setAon { s1.aon with watchdog := s1.aon.watchdog + 1 } else s1
      s2.refreshMirrors.drainPower.drainNvm

/-! ### The governor (R589, R590) -/

/-- Set the governor's record. -/
def setGov (s : State) (g : Gov) : State := s.setAon { s.aon with gov := g }

/-- GOV_STEP takes a value. -/
def govStep (s : State) (n : Nat) : State :=
  (s.setSf Reg.PWR_STATE_GOV_STEP n).slowRaise Reg.POWER_BLOCK_STATUS [Flag.POWER_GOV_STEP]

/-- Has a number of ms passed since an evaluation? -/
def passed (now : Nat) (since : Option Nat) (ms : Nat) : Bool :=
  match since with | some e => decide (ms ≤ now - e) | none => true

/-- One evaluation with an interval power in 0.1 W. -/
def govEvaluate (s : State) (p : Nat) : State :=
  if s.aon.keeperUp then
    let g := s.aon.gov
    let now := g.evals + 1
    let limit := min 110 (max 40 (s.sf Reg.GOV_CFG_LIMIT_W))
    let exceeded := (if 10 * limit < p then now :: g.exceeded else g.exceeded).filter fun e => decide (now < e + 10000)
    let below := if p < 10 * min limit (s.sf Reg.GOV_CFG_RELEASE_W) then g.below + 1 else 0
    let budget := min 2000 (max 1 (s.sf Reg.GOV_TIME_BUDGET_MS))
    let hold := max 1 (s.sf Reg.GOV_TIME_HOLD_MS)
    let step := s.sf Reg.PWR_STATE_GOV_STEP
    let g1 : Gov := { g with evals := now, exceeded := exceeded, below := below }
    let s1 := ((s.setGov g1).setSf Reg.PWR_NOW_EXCESS exceeded.length).setSf Reg.PWR_NOW_POWER (min 65535 p)
    if (10 * limit < p ∧ budget ≤ exceeded.length) ∨ 1400 < p then
      if step < 3 then
        if passed now g.engaged (max 1 (s.sf Reg.GOV_TIME_ACT_MS)) then
          ((s1.setGov { g1 with engaged := some now, changed := some now }).govStep (step + 1)).setSf Reg.GOV_STATS_ENGAGES
            (satAdd 16 (s.sf Reg.GOV_STATS_ENGAGES) 1)
        else s1
      else
        (((s1.setSf Reg.PWR_STATE_GOV_EXHAUSTED 1).setSf Reg.GOV_STATS_EXHAUSTED
          (satAdd 16 (s.sf Reg.GOV_STATS_EXHAUSTED) 1)).slowRaise Reg.POWER_BLOCK_STATUS [Flag.POWER_GOV_EXHAUSTED]).alerts
    else
      let s2 := (s1.setSf Reg.PWR_STATE_GOV_EXHAUSTED 0).alerts
      if 0 < step ∧ exceeded.length < budget ∧ hold ≤ below ∧ passed now g.changed hold then
        (s2.setGov { g1 with changed := some now }).govStep (step - 1)
      else s2
  else s

end State
end Sys2Proof.Machine
end

