-- ==== Sys2Proof/Machine/Router.lean ====
section
/-! DEFINITION. Every access of every master: which effect a register's write or read has, the registers whose value is
derived, the memory windows, the hardware semaphores, and the windows of the Photor Chain (R36, R42, R62–R64, R441–R443). -/

namespace Sys2Proof.Machine
namespace State

/-! ### Hardware semaphores (R62–R64) -/

/-- What SYS_SEM_ACQ and SYS_SEM_PEEK show of semaphore n. -/
def semWord (s : State) (n : Nat) : Nat :=
  match Tab.find s.bus.semOwner n with
  | some owner => 2 ^ 31 + owner
  | none => 0

/-- Set the owner of semaphore n. -/
def semTake (s : State) (n owner : Nat) : State := s.setBus { s.bus with semOwner := Tab.put s.bus.semOwner n owner }

/-- Free semaphore n. -/
def semFree (s : State) (n : Nat) : State := s.setBus { s.bus with semOwner := Tab.del s.bus.semOwner n }

/-- A read of SYS_SEM_ACQ[n] makes the reader the owner of a free semaphore (R63). -/
def semAcqRead : ReadEffect := fun r x s =>
  let n := x.idx.headD 0
  (s.semWord n, if (Tab.find s.bus.semOwner n).isNone then s.semTake n r.master.val else s)

/-- A read of SYS_SEM_PEEK[n]. -/
def semPeekRead : ReadEffect := fun _ x s => (s.semWord (x.idx.headD 0), s)

/-- A write of SYS_SEM_REL[n] (R63). -/
def semRelWrite : WriteEffect := fun r x _ d _ s =>
  let n := x.idx.headD 0
  if Tab.find s.bus.semOwner n = some (bits d 4 0) ∧ bits d 4 0 = r.master.val then s.semFree n
  else s.raise Reg.SYS_BLOCK_STATUS Flag.SYS_SEM_MISMATCH

/-- A write of SYS_SEM_FORCE (R64). -/
def semForceWrite : WriteEffect := fun _ _ _ d _ s => s.semFree (bits d 5 0)

/-! ### Registers whose value is derived -/

/-- A read of ACCESS_LOG_HEAD restarts the count of unread entries (R621). -/
def logHeadRead : ReadEffect := fun _ x s =>
  ((s.reg x.addr).toNat, s.setBus { s.bus with logUnread := 0 })

/-- LE_LIVE_SURF of engine n (R198). -/
def liveSurfWord (s : State) (n : Nat) : Nat :=
  match s.liveSurf n with
  | some x => 2 ^ 63 + x.base % 2 ^ 40
  | none => 0

/-- LE_DIRTY of engine n (R200). -/
def dirtyWord (s : State) (n : Nat) : Nat :=
  s.f (Reg.LE_DIRTY_TOUCHES n) * 65536 + (if (s.engine n).dirty.isEmpty then 0 else 1)

/-- STATE of raster m (R296). -/
def orsState (s : State) (m : Nat) : Nat :=
  if s.enabled m = false then 0
  else if s.thermalHold then 4
  else if s.isHit m then 3
  else if (s.raster m).heldCur then 2
  else 1

/-- ORS_STATE of raster m (R311). -/
def orsStateWord (s : State) (m : Nat) : Nat :=
  (s.raster m).frame % max 1 (s.raster m).tim.sub % 16 * 65536 +
    (if s.f (Reg.TB_ORS_PHASE_STATE m) = 2 then 256 else 0) + s.orsState m

/-- ORS_NOW of raster m (R312). -/
def orsNowWord (s : State) (m : Nat) : Nat :=
  (s.rasterPos m).l % 65536 * 2 ^ 48 + (s.rasterPos m).f % 2 ^ 48

/-- TB_HOLDOVER_S: whole seconds of the present HOLDOVER (R117). -/
def holdoverSeconds (s : State) : Nat :=
  if s.f Reg.TB_STATE_STATE = 3 then (s.time.steady - s.time.holdFrom) / (10 ^ 9 * 2 ^ 48) % 2 ^ 32 else 0

/-- A register that shows a value of the state. -/
def shown (v : Req → Found → State → Nat) : ReadEffect := fun r x s => (v r x s, s)

/-! ### Which effect a register has -/

/-- What a read of a register returns and does. -/
def readEffect (e : Eff) : ReadEffect :=
  match e with
  | .sysSemAcq => semAcqRead
  | .sysSemPeek => semPeekRead
  | .accessLogHead => logHeadRead
  | .leLiveSurf => shown fun _ x s => s.liveSurfWord x.inst
  | .leDirty => shown fun _ x s => s.dirtyWord x.inst
  | .orsState => shown fun _ x s => s.orsStateWord x.inst
  | .orsNow => shown fun _ x s => s.orsNowWord x.inst
  | .tbHoldoverS => shown fun _ _ s => s.holdoverSeconds
  | .cueCommitTicket => shown fun r _ s => Tab.get s.tickets r.master.val 0 % 65536
  | .queueCredit => shown fun _ x s => s.creditRead (portOf x) (x.idx.getD 1 0)
  | .flowState => shown fun _ x s => s.flowState (x.idx.headD 0)
  | .bltState => shown fun _ x s => s.bltStateWord x.inst
  | .mcResidency => shown fun _ x s => s.residencyWord x.inst
  | .coreClk => shown fun _ _ s => s.coreMhz
  | .plicPending => shown fun _ x s => s.plicPending (x.idx.headD 0)
  | .plicClaim => plicClaimRead
  | .plicClaimK => plicClaimRead
  | .uartRx => uartRxRead
  | _ => plainRead

/-- What a write of a register does. -/
def writeEffect (e : Eff) : WriteEffect :=
  match e with
  | .sysSemRel => semRelWrite
  | .sysSemForce => semForceWrite
  | .ingotCmd => ingotCmdWrite
  | .tbIncr => tbIncrWrite
  | .tbStep => tbStepWrite
  | .tbSetTime => tbSetTimeWrite
  | .tbSetNs => tbSetNsWrite
  | .tbCapture => tbCaptureWrite
  | .tbRefApply => tbRefApplyWrite
  | .tbSyncoutCfg => syncoutWrite
  | .cueArm => cueArmWrite
  | .cueCommit => cueCommitWrite
  | .leTouch => leTouchWrite
  | .leTolMinRestart => leTolMinRestart
  | .leDecodeLoad => decodeLoadWrite
  | .bcEncodeLoad => encodeLoadWrite
  | .orsUnderRestart => underRestart
  | .pqLaneCfg => laneCfgThen
  | .btlCtrlSend => btlCtrlSendWrite
  | .btlEchoReq => btlEchoReqWrite
  | .btlTest => btlTestWrite
  | .queueShapeRate => queueShapeWrite
  | .queueShapeBurst => queueShapeWrite
  | .queueQuantum => queueQuantumWrite
  | .gateSwitch => gateSwitchWrite
  | .gateCtrl => gateCtrlWrite
  | .gateTime => gateTimeWrite
  | .portSampleRestart => portSampleRestart
  | .portSampleCfg => portSampleCfgWrite
  | .hrxBase => ringBaseWrite
  | .htxBase => ringBaseWrite
  | .hrxCfg => ringCfgWrite
  | .htxCfg => ringCfgWrite
  | .htxProd => htxProdWrite
  | .fiCfg => fiCfgWrite
  | .cruRestart => cruRestart
  | .cruCfg => cruCfgWrite
  | .ingFlowCtrl => ingFlowCtrlWrite
  | .ingFlowCfg => ingFlowCfgWrite
  | .polCbs => polCbsWrite
  | .chainTakeover => chainTakeoverWrite
  | .bltProd => bltProdWrite
  | .bltResume => bltResumeWrite
  | .bltCtrl => bltCtrlWrite
  | .bltRingBase => bltRingWrite true
  | .bltRingCfg => bltRingWrite false
  | .sigExpect => sigExpectWrite
  | .mcuExpect => mcuExpectWrite
  | .mcuGo => mcuGoWrite
  | .mcRefresh => mcRefreshWrite
  | .plicClaim => plicCompleteWrite
  | .plicClaimK => plicCompleteWrite
  | .appcxCoreCtrl => coreCtrlWrite
  | .mbMsg => mbMsgWrite
  | .mtimecmp => mtimecmpWrite
  | .mbSend => mbSendWrite
  | .mbAck => mbAckWrite
  | .mbDone => mbDoneWrite
  | .mbBind => mbBindWrite
  | .mmacCfg => mmacCfgWrite
  | .mmacRing => mmacRingWrite
  | .mmacTxProd => mmacTxProdWrite
  | .mdioCmd => mdioCmdWrite
  | .uartTx => uartTxWrite
  | .gpioIntAck => gpioAckWrite
  | .i2cXfer => i2cXferWrite
  | .spiCmd => spiCmdWrite
  | .nvmReadSel => nvmReadSelWrite
  | _ => plainWrite

/-! ### Memory windows (R36, R82, R510, R514, R568, R582) -/

/-- Does address a lie in the register space's NVM read window; the byte it shows. -/
def nvmWindow (a : Nat) : Bool := bits a 39 16 == 0xF00022

/-- A master's read of Slab words with an uncorrectable error is recorded (R514). -/
def noteSlabRead (s : State) (a : Nat) : State :=
  if bits a 39 32 = 0xE0 then s.slabUe 0 (bits a 31 3 * 8)
  else if bits a 39 32 = 0xE8 then s.slabUe 3 (bits a 31 3 * 8)
  else s

/-- Is there room for n bytes from a on in the core queues of their channels (R502)? -/
def coreRoom (s : State) (a n : Nat) : Bool := s.queueRoom .core a n

/-- A read of memory: a bus error that is not logged where a word is uncorrectable. -/
def readNow (s : State) (m a : Nat) (w : Width) : State :=
  let n := widthBytes w
  if nvmWindow a then
    -- an uncorrectable error makes the whole read return zero (R568)
    let o := bits a 15 0
    let spoiled := (List.range n).any fun i => s.nvm.bad.contains (s.nvm.readSel * 65536 + o + i)
    let s1 := if spoiled then s.slowRaise Reg.NVM_BLOCK_STATUS [Flag.NVM_READ_ERROR] else s
    s1.respond m .done
      (if spoiled then 0 else BitVec.ofNat 64 (ofLe ((List.range n).map fun i => s.nvmByte s.nvm.readSel (o + i)))) 0
  else if s.poisoned a n then (s.noteSlabRead a).respond m .busError 0 0
  else s.respond m .done (BitVec.ofNat 64 (s.rd a n)) 0

/-- A write of memory; one in the window of an Ingot slot makes the slot LOADING (R82). -/
def writeNow (s : State) (m a : Nat) (w : Width) (d : Nat) : State :=
  let s1 := s.putDdr a (leBytes (widthBytes w) d)
  let s2 := if bits a 39 17 = 0xE800F00000 / 2 ^ 17 then s1.slotWritten (bits a 16 16) else s1
  s2.respond m .done 0 0

/-- Does a master's access to DDR4 go through the core queues (R502)? -/
def coreSource (m : Nat) : Bool := decide (m ≤ 8) || (decide (15 ≤ m) && decide (m ≤ 17))

/-- A master's access to memory. One to DDR4 is a request in the core queues of its channels, and takes place as it enters;
where a queue is full, its master waits (R502, log entry 29). -/
def accessMem (s : State) (b : Blocked) : State :=
  if coreSource b.master ∧ b.addr < 2 ^ 39 ∧ s.coreRoom b.addr (widthBytes b.width) = false then
    (s.setBus { s.bus with blocked := s.bus.blocked ++ [b] }).respond b.master .waiting 0 0
  else
    let t := if coreSource b.master then s.request .core b.master b.addr (widthBytes b.width) b.write else s
    if b.write then t.writeNow b.master b.addr b.width b.data.toNat else t.readNow b.master b.addr b.width

/-- A master's read and write of memory. -/
def readMem (s : State) (m a : Nat) (w : Width) : State := s.accessMem ⟨m, a, w, false, 0, none⟩
def writeMem (s : State) (m a : Nat) (w : Width) (d : Nat) : State := s.accessMem ⟨m, a, w, true, BitVec.ofNat 64 d, none⟩

/-! ### Chain windows (R441–R443) -/

/-- The address on part n that offset o of its window reaches (R441, R443). -/
def chainAddr (s : State) (n o : Nat) : Nat :=
  if o < 0x10000000 then 0xF000000000 + o
  else if o < 0x18000000 then 0xE000000000 + (o - 0x10000000)
  else if o < 0x19000000 then 0xE800000000 + (o - 0x18000000)
  else s.f (Reg.CHAIN_MEMWIN_BASE n) * 2 ^ 30 + (o - 0x40000000)

/-- The payload of a TUNNEL request, and of a response (log entry 25). -/
def tunnelPayload (x : ChainAccess) : List Byte :=
  leBytes 4 x.id ++ [BitVec.ofNat 8 (if x.write then 1 else 0), BitVec.ofNat 8 (widthBytes x.width), BitVec.ofNat 8 x.part, 0] ++
    leBytes 8 x.reach ++ leBytes 8 x.data.toNat
def responsePayload (id : Nat) (error : Bool) (d : Nat) : List Byte :=
  leBytes 4 id ++ [BitVec.ofNat 8 (if error then 3 else 2), 0, 0, 0] ++ leBytes 8 d

/-- A request leaves for its part. -/
def tunnelSend (s : State) (x : ChainAccess) : State :=
  let s1 := s.setChain { s.chain with out := s.chain.out ++ [x] }
  s1.chainSend (s.f (Reg.CHAIN_PEER_VIA x.part)) 6 s.myIndex x.part (tunnelPayload x)

/-- Requests outstanding to part n. -/
def tunnelsTo (s : State) (n : Nat) : Nat := (s.chain.out.filter fun x => x.part == n).length

/-- A window access: it is sent, or stalls its master behind 32 outstanding requests (R442). It reaches the address that its
offset has as it is issued (R443). -/
def tunnelRequest (s : State) (n : Nat) (r : Req) (a : Nat) (w : Width) (wr : Bool) (d : Word) : State :=
  let x : ChainAccess :=
    { id := s.chain.nextId, part := n, req := r, addr := a, width := w, write := wr, data := d, reach := s.chainAddr n (bits a 31 0) }
  let s1 := (s.setChain { s.chain with nextId := s.chain.nextId + 1 }).respond r.master.val .waiting 0 0
  if s.tunnelsTo n < 32 then s1.tunnelSend x else s1.setChain { s1.chain with stalled := s1.chain.stalled ++ [x] }

/-- Room for part n: the oldest request that waits for it is sent. -/
def tunnelAdmit (s : State) (n : Nat) : State :=
  match s.chain.stalled.find? fun x => x.part == n with
  | some x =>
    if s.tunnelsTo n < 32 then
      (s.setChain { s.chain with stalled := s.chain.stalled.filter fun y => y.id != x.id }).tunnelSend x
    else s
  | none => s

/-- The outstanding request with a number. -/
def tunnelOf (s : State) (id : Nat) : Option ChainAccess := s.chain.out.find? fun x => x.id == id

/-- Does an older request of the same master to the same part still await its end (R442)? -/
def tunnelBehind (s : State) (x : ChainAccess) : Bool :=
  s.chain.out.any fun y => decide (y.id < x.id) && y.part == x.part && y.req.master == x.req.master

/-- Request x is no longer outstanding. -/
def tunnelEnd (s : State) (x : ChainAccess) : State :=
  (s.setChain { s.chain with out := s.chain.out.filter fun y => y.id != x.id }).tunnelAdmit x.part

/-- Request x completes at its master with the response that it has: a bus error carries the cause in its data, 0 for a
poisoned read, which BUS_ERROR_LOG does not hold (R510, log entry 25). R45 does not say whether the manager too records a
bus error that a worker returned: it does, in its own logs (log entry 93). -/
def tunnelComplete (s : State) (x : ChainAccess) (error : Bool) (d : Word) : State :=
  let s1 := if error = false then s.respond x.req.master.val .done (if x.write then 0 else d) 0
    else if bits d.toNat 3 0 = 0 then s.respond x.req.master.val .busError 0 0
    else s.busError x.req x.addr (bits d.toNat 3 0)
  s1.tunnelEnd x

/-- Responses that waited for those of older requests complete in issue order, at most n of them (R442). -/
def tunnelFlush (s : State) (n : Nat) : State :=
  match n with
  | 0 => s
  | k + 1 =>
    match s.chain.out.find? fun x => x.answer.isSome && !s.tunnelBehind x with
    | some x =>
      match x.answer with
      | some (error, d) => (s.tunnelComplete x error d).tunnelFlush k
      | none => s
    | none => s

/-- The response of request x waits for those of older requests. -/
def tunnelKeep (s : State) (x : ChainAccess) (error : Bool) (d : Word) : State :=
  let give (y : ChainAccess) : ChainAccess := if y.id = x.id then { y with answer := some (error, d) } else y
  s.setChain { s.chain with out := s.chain.out.map give }

/-- Request x has its answer: it completes, and then those behind it that have theirs; it waits where an older request of
its master to its part is outstanding (R442). -/
def tunnelAnswer (s : State) (x : ChainAccess) (error : Bool) (d : Word) : State :=
  if s.tunnelBehind x then s.tunnelKeep x error d else (s.tunnelComplete x error d).tunnelFlush s.chain.out.length

/-- A response of part src arrives on port p: on the manager the answer to its request (R442). Any other part passes it on
(R441). One of an epoch that is no longer obeyed is discarded (R450). -/
def tunnelResponse (s0 : State) (p epoch src id : Nat) (error : Bool) (d : Word) : State :=
  let y := s0.chainTake p
  let s := y.seeEpoch epoch
  if y.chain.joined.contains p = false ∨ y.oldEpoch epoch then y
  else if s.chainRole ≠ 1 then s.sendUp 6 src (responsePayload id error d.toNat)
  else
    match s.tunnelOf id with
    | some x => if x.answer.isSome then s else s.tunnelAnswer x error d
    | none => s

/-- No response has come within TUNNEL_TIMEOUT_US: the request's answer is a bus error of cause UNMAPPED (R442). -/
def tunnelTimeout (s : State) (id : Nat) : State :=
  match s.tunnelOf id with
  | some x =>
    if x.answer.isSome then s
    else ((s.satF Reg.CHAIN_STATS_TUNNEL_TIMEOUTS 1).chainRaise [Flag.CHAIN_TUNNEL_TIMEOUT]).tunnelAnswer x true 1
  | none => s

/-! ### Any access -/

/-- A write of d anywhere in the address space. -/
def writeAny (s : State) (r : Req) (a : Nat) (w : Width) (d : Word) : State :=
  s.guarded r a w true fun t s' =>
    match t with
    | .reg x v p => serveRegWrite (writeEffect x.row.eff) r x v p d.toNat s'
    | .mem => s'.writeMem r.master.val a w d.toNat
    | .readOnly => s'.respond r.master.val .done 0 0
    | .chain n => s'.tunnelRequest n r a w true d

/-- A read anywhere in the address space. -/
def readAny (s : State) (r : Req) (a : Nat) (w : Width) : State :=
  s.guarded r a w false fun t s' =>
    match t with
    | .reg x _ p => serveRegRead (readEffect x.row.eff) r x p s'
    | .mem => s'.readMem r.master.val a w
    | .readOnly => s'.readMem r.master.val a w
    | .chain n => s'.tunnelRequest n r a w false 0

/-- A write to a slow-domain register: it enters the queue of its block, and the slow domain applies it at the next edge of
the slow clock (R56, log entry 34). -/
def writeSlow (s : State) (r : Req) (a : Nat) (d : Nat) : State := s.writeReg r a .w32 d plainWrite

/-! ### Requests of the manager on another part (R41, R441, R442) -/

/-- The manager's access on this part, as identity 15; DDR4 takes 32-bit and 64-bit aligned accesses over the chain, judged
after its address (R44, R441). -/
def tunnelServe (s : State) (x : Tunnel) : State :=
  let r : Req := ⟨15, .machine⟩
  let a := x.addr.toNat
  if s.silent r then s
  else if a + widthBytes x.width ≤ s.capacity ∧ widthBytes x.width < 4 then s.busError r a 3
  else if a + widthBytes x.width ≤ s.capacity ∧ a % widthBytes x.width ≠ 0 then s.busError r a 4
  else if x.write then s.writeAny r a x.width x.data else s.readAny r a x.width

/-- Answer a request of link k with the response that identity 15 has. -/
def tunnelReply (s : State) (k id : Nat) : State :=
  let z := s.respOf 15
  s.chainSend k 6 s.myIndex s.activeManager (responsePayload id (z.kind == .busError) (if z.kind = .busError then z.cause else z.data.toNat))

/-- The access of identity 15 that waits is to answer a request of link k. -/
def replyLater (s : State) (k id : Nat) : State :=
  s.setBus { s.bus with
    stalled := s.bus.stalled.map fun w => if w.master = 15 then { w with reply := some (k, id) } else w,
    blocked := s.bus.blocked.map fun w => if w.master = 15 then { w with reply := some (k, id) } else w }

/-- Does an access of a master wait for room (R56, R502)? -/
def masterWaits (s : State) (m : Nat) : Bool :=
  (s.bus.stalled.any fun w => w.master == m) || s.bus.blocked.any fun w => w.master == m

/-- A request for this part: served and answered; one that waits for room in a queue is answered when its access has
entered, and requests behind it wait with it (R56, R61, R502). -/
def tunnelHere (s : State) (k : Nat) (x : Tunnel) : State :=
  if s.masterWaits 15 then s.setChain { s.chain with behind := s.chain.behind ++ [(k, x)] }
  else
    let t := s.tunnelServe x
    if (t.respOf 15).kind = .waiting then t.replyLater k x.id else t.tunnelReply k x.id

/-- One write whose master waited: it enters where there is room and completes at its master; else it waits on (R56). -/
def enterWrite (s : State) (w : Forwarded) : State :=
  if s.roomFor w then
    let t := (s.enqueueSlow { w with reply := none }).respond w.master .done 0 0
    match w.reply with | some (k, id) => t.tunnelReply k id | none => t
  else s.setBus { s.bus with stalled := s.bus.stalled ++ [w] }

/-- Requests of the chain that wait behind another are served. -/
def serveBehind (s : State) : State :=
  s.chain.behind.foldl (fun t x => t.tunnelHere x.1 x.2) (s.setChain { s.chain with behind := [] })

/-- Writes whose masters waited for a free entry enter in order, and requests of the chain behind them are served. -/
def admitStalled (s : State) : State :=
  (s.bus.stalled.foldl (fun t w => t.enterWrite w) (s.setBus { s.bus with stalled := [] })).serveBehind

/-- An access to DDR4 whose master waited: it takes place where there is room, and is answered (R502). -/
def unblock (s : State) (b : Blocked) : State :=
  if s.coreRoom b.addr (widthBytes b.width) then
    let t := s.accessMem b
    match b.reply with | some (k, id) => t.tunnelReply k id | none => t
  else s.setBus { s.bus with blocked := s.bus.blocked ++ [b] }

/-- Accesses to DDR4 whose masters waited are offered to their channels again, oldest first, and then requests of the chain
behind them. -/
def unblockAll (s : State) : State :=
  if s.bus.blocked = [] then s
  else (s.bus.blocked.foldl (fun t b => t.unblock b) (s.setBus { s.bus with blocked := [] })).serveBehind

/-- An edge of the slow clock (R55, R56). -/
def slowClock (s : State) (tj : List (BitVec 16)) (nJ : List Nat) : State :=
  if s.aon.hold = .free then ((s.newCycle true).slowEdge tj nJ).admitStalled else s.slowEdge tj nJ

/-- A TUNNEL request arrives on port p: served and answered, or passed on toward its part (R441, R442). -/
def tunnelRequestReceived (s0 : State) (p : Nat) (x : Tunnel) : State :=
  let y := s0.chainTake p
  match y.linkOf p with
  | none => y
  | some k =>
    let s := y.seeEpoch x.epoch.toNat
    if y.chain.joined.contains p = false ∨ y.oldEpoch x.epoch.toNat then y
    else if x.dst.val ≠ s.myIndex then
      match (s.upLinks 1).find? fun l => s.linkPeer l == x.dst.val with
      | some l => s.chainSend l 6 s.activeManager x.dst.val (tunnelPayload
          { id := x.id, part := x.dst.val, req := ⟨15, .machine⟩, addr := x.addr.toNat, width := x.width, write := x.write,
            data := x.data, reach := x.addr.toNat })
      | none => s
    else s.tunnelHere k x

/-! ### The WRITE cue (R138, R145) -/

/-- WRITE, as the action of the cue in slot i: one 32-bit write as identity 9. -/
def actWrite (i : Nat) (s : State) : CueRun :=
  let t := s.writeAny ⟨9, .machine⟩ (s.cueWriteAddr i % 2 ^ 40) .w32 (BitVec.ofNat 64 (s.cueData i))
  ⟨if (t.respOf 9).kind = .busError then 0x0D else 0, 0, t⟩

end State
end Sys2Proof.Machine
end

