-- ==== Sys2Proof/Machine/Tick.lean ====
section
/-! DEFINITION. What an FCLK, a reference line start and a reference frame start do (R104, R121, R126, R128, R131, R133,
R144, R334, R338, R368, R372, R380, R422, R447). -/

namespace Sys2Proof.Machine
namespace State

/-- FCLKs of a raster's accumulator in this FCLK: one; more where the last line of vertical blanking is shortened, none
while it is lengthened (R128). Answers the number, and the record. -/
def rasterClocks (r : Raster) : Nat × Raster :=
  let inLast := decide ((r.tim.vTotal - 1) * r.tim.hTotal ≤ r.pos)
  if 0 < r.stall then (0, { r with stall := r.stall - 1 })
  else if inLast ∧ 0 < r.shift then (0, { r with stall := r.shift.toNat - 1, shift := 0 })
  else if inLast ∧ r.shift < 0 then (1 + r.shift.natAbs, { r with shift := 0 })
  else (1, r)

/-- Does the raster stand at a frame end that found its ideal start? -/
def isReady (r : Raster) : Bool := match r.mode with | .ready _ => true | _ => false

/-- The position of raster m advances at the rate of its live timing, which a landing changes at once (R126, R302), and
stops at the last one, where the frame end is. -/
def rasterAdvance (s : State) (m : Nat) : State :=
  if s.timingRuns m ∧ isReady (s.raster m) = false then
    let (n, r) := rasterClocks (s.raster m)
    let sum := r.acc + n * s.phi (s.liveTiming m)
    s.setRaster m { r with acc := sum % 2 ^ 48, pos := min (r.pos + sum / 2 ^ 48) (lastPos r.tim) }
  else s

/-- Has port p a shaped queue? -/
def shapes (s : State) (p : Nat) : Bool := (List.range 8).any fun q => s.fb (Reg.QUEUE_SHAPE_BURST_EN p q)

/-- Every policer's tokens grow (R380). -/
def policerTick (s : State) : State :=
  let grow (x : Nat × Flow) : Nat × Flow := (x.1, flowTick x.2)
  { s with flows := s.flows.map grow }

/-- Surfaces that R422 frees, of every flow. -/
def freeAll (s : State) : State := s.flows.foldl (fun (t : State) (x : Nat × Flow) => t.freeSurfaces x.1) s

/-- What has changed in this FCLK, against the reference position of the one before: the line, the frame count (R121). -/
def refStarts (s : State) (old : RP) : State :=
  { s with time := { s.time with newLine := s.refPos.l != old.l, newFrame := s.refPos.f != old.f, lineStart := false } }

/-- The blit engines and the memory check units read and write (R462, R472, R492). -/
def moverTick (s : State) : State := forN 4 (fun m t => t.mcuTick m) (forN 4 (fun b t => t.bltTick b) s)

/-- The start of the next FCLK: Device Time and what follows from it. -/
def fclkTick (s : State) : State :=
  let s1 := ({ (s.newCycle false).timeTick with fclk := s.fclk + 1, ran := 0 }).refStarts s.refPos
  let s2 := forN 16 (fun m t => t.rasterAdvance m) (if s.startsMove then forN 16 (fun m t => t.retime m) s1 else s1)
  let s3 := s2.markDue.syncoutTick s2.time.newLine
  let s4 := forN 128 (fun p t => if t.shapes p then t.shaperTick p else t) s3
  (forN 128 (fun p t => t.portTick p) s4.policerTick.freeAll.gpioTick.machineTimers.moverTick.memTick).mmacTick.unblockAll

/-- Gate cycles aligned to reference line starts (1, and 3 as 1) or frame starts (2) start on every port that has them (R372,
R396). -/
def alignedCycles (s : State) (align : Nat) : State :=
  let is (a : Nat) : Bool := if align = 1 then a == 1 || a == 3 else a == align
  forN 128 (fun p t => if is (t.port p).align ∧ t.fb (Reg.GATE_CTRL_EN p) then t.gateCycleStart p else t) s

/-- A reference line start, in an FCLK in which l has changed (R121): BEACONs (R334), HEARTBEATs and STATUS (R447),
line-aligned gate cycles. -/
def referenceLineStart (s : State) : State :=
  if s.time.newLine then
    let t := { s with time := { s.time with newLine := false, lineStart := true } }
    (forN 128 (fun p t => t.lineBeacons p) t).chainLineStart.alignedCycles 1
  else s

/-- A port's automatic echo rounds count reference frames, and start (R338). -/
def echoFrame (s : State) (p : Nat) : State :=
  if s.fb (Reg.BTL_ECHO_CFG_AUTO p) ∧ s.role p = 1 then
    let n := (s.port p).roundFrames + 1
    let s1 := s.setPort p { s.port p with roundFrames := n }
    if max 1 (s.f (Reg.BTL_ECHO_CFG_PERIOD p)) ≤ n then s1.echoRoundStart p else s1
  else s

/-- A reference frame start, in an FCLK in which f has changed (R121): frame-aligned gate cycles, echo rounds, surfaces
freed. -/
def referenceFrameStart (s : State) : State :=
  if s.time.newFrame then
    let t := { s with time := { s.time with newFrame := false } }
    (forN 128 (fun p t => t.echoFrame p) (t.alignedCycles 2)).freeAll
  else s

end State

/-! ### Taking a command -/

/-- What a command answers: the state that its effect gives; while the part is held in reset nothing acts (R571, R593,
R612). -/
def running (s : State) (f : State → State) : Host.Outcome State Fault Refusal :=
  .next (if s.aon.hold = .free then f s else s)

/-- The same for a command that acts while the part is held in reset, too. -/
def always (s : State) (f : State → State) : Host.Outcome State Fault Refusal := .next (f s)

end Sys2Proof.Machine
end

