-- ==== Sys2Proof/Machine/AccessCmds.lean ====
section
/-! DEFINITION. Register accesses, semaphores and access logs: the meaning of each command, over the shared operations. -/

namespace Sys2Proof.Machine
open State

/-- A write by any master to a register that has no row of its own is judged for address, width, alias, class and lock, then applied (R44). -/
def execRegisterWrite (r : Req) (a : Addr) (w : Width) (d : Word) (s : State) : Host.Outcome State Fault Refusal :=
  running s fun t => t.writeAny r a.toNat w d

/-- A read by any master, of a register or a mapped memory window, that has no row of its own is judged for address, width, class and lock. A denial is logged in ACCESS_LOG, a malformed access draws a bus error, and a high-half read clears the holding tag (R44). -/
def execRegisterRead (r : Req) (a : Addr) (w : Width) (s : State) : Host.Outcome State Fault Refusal :=
  running s fun t => t.readAny r a.toNat w

/-- A 32-bit read of the low half of a 64-bit register returns it and latches the high half in the master's holding register (R48). -/
def execLowHalfRead (r : Req) (a : Addr) (s : State) : Host.Outcome State Fault Refusal :=
  running s fun t => t.readAny r a.toNat .w32

/-- A 32-bit write of the low half of a 64-bit register is staged in the master's staging register until the high half is written (R48). -/
def execLowHalfWrite (r : Req) (a : Addr) (d : Half) (s : State) : Host.Outcome State Fault Refusal :=
  running s fun t => t.writeAny r a.toNat .w32 (d.setWidth 64)

/-- A write at the set alias ORs its data into an RW register in one indivisible step (R51). -/
def execSetAliasWrite (r : Req) (a : Addr) (w : Width) (d : Word) (s : State) : Host.Outcome State Fault Refusal :=
  running s fun t => t.writeAny r (a.toNat + 0x40000) w d

/-- A write at the clear alias clears the bits of its data in an RW register in one indivisible step (R51). -/
def execClearAliasWrite (r : Req) (a : Addr) (w : Width) (d : Word) (s : State) : Host.Outcome State Fault Refusal :=
  running s fun t => t.writeAny r (a.toNat + 0x80000) w d

/-- A write at the toggle alias XORs its data into an RW register in one indivisible step (R51). -/
def execToggleAliasWrite (r : Req) (a : Addr) (w : Width) (d : Word) (s : State) : Host.Outcome State Fault Refusal :=
  running s fun t => t.writeAny r (a.toNat + 0xC0000) w d

/-- A write of SEQ and mask to a sequence-clear status clears the masked flags only if SEQ matches the current count (R53). -/
def execSequenceClear (r : Req) (a : Addr) (seq mask : BitVec 16) (s : State) : Host.Outcome State Fault Refusal :=
  running s fun t => t.writeAny r a.toNat .w32 (BitVec.ofNat 64 (seq.toNat * 65536 + mask.toNat))

/-- A write to a mirrored slow-domain register enters the block's 16-entry forwarding queue, stalling its master while the queue is full (R56). -/
def execMirrorWrite (r : Req) (a : Addr) (w : Width) (d : Word) (s : State) : Host.Outcome State Fault Refusal :=
  running s fun t => t.writeAny r a.toNat w d

/-- A read of SYS_SEM_ACQ makes the reader owner of a free semaphore, or returns the held value and owner without change (R63). -/
def execSemAcquire (r : Req) (n : Fin 64) (s : State) : Host.Outcome State Fault Refusal :=
  running s fun t => t.readReg r (Reg.SYS_SEM_ACQ n) .w32 semAcqRead

/-- A write to SYS_SEM_REL by the owner with its own ID frees the semaphore; any other write sets SEM_MISMATCH (R63). -/
def execSemRelease (r : Req) (n : Fin 64) (d : Half) (s : State) : Host.Outcome State Fault Refusal :=
  running s fun t => t.writeReg r (Reg.SYS_SEM_REL n) .w32 d.toNat semRelWrite

/-- A Keeper write to SYS_SEM_FORCE releases the named semaphore whatever its owner (R64). -/
def execSemForce (r : Req) (d : Half) (s : State) : Host.Outcome State Fault Refusal :=
  running s fun t => t.writeReg r Reg.SYS_SEM_FORCE .w32 d.toNat semForceWrite

/-- The first write to CLASS_LOCK locks every CLASS_FLOOR register until reset (R43). -/
def execClassLock (r : Req) (d : Half) (s : State) : Host.Outcome State Fault Refusal :=
  running s fun t => t.writeReg r Reg.CLASS_LOCK .w32 d.toNat plainWrite

/-- A read of ACCESS_LOG_HEAD returns the log head and restarts the count of entries written since the last such read (R621). -/
def execAccessLogHeadRead (r : Req) (s : State) : Host.Outcome State Fault Refusal :=
  running s fun t => t.readReg r Reg.ACCESS_LOG_HEAD .w32 logHeadRead

end Sys2Proof.Machine
end

