-- ==== Sys2Proof/Machine/BlitCmds.lean ====
section
/-! DEFINITION. The blit engines: the meaning of each command, over the shared operations. -/

namespace Sys2Proof.Machine
open State

/-- A write to BLT_PROD moves the producer index, or is refused with PROD_REFUSED (R464). -/
def execBltProdWrite (r : Req) (b : Fin 4) (d : Half) (s : State) : Host.Outcome State Fault Refusal :=
  running s fun t => t.writeReg r (Reg.BLT_PROD b) .w32 d.toNat bltProdWrite

/-- An enabled engine with work reads and checks the descriptor at CONS (R467). -/
def execDescriptorRead (b : Fin 4) (s : State) : Host.Outcome State Fault Refusal :=
  running s fun t => t.descriptorRead b

/-- A FILL descriptor writes one pixel word to every pixel of the destination rectangle (R469). -/
def execFill (b : Fin 4) (s : State) : Host.Outcome State Fault Refusal :=
  running s fun t => t.bltFill b

/-- A COPY descriptor copies the source rectangle's pixels unchanged to the destination (R470). -/
def execCopy (b : Fin 4) (s : State) : Host.Outcome State Fault Refusal :=
  running s fun t => t.bltCopy b

/-- A CONVERT descriptor unpacks, converts and repacks each pixel into an RGB destination format (R471). -/
def execConvert (b : Fin 4) (s : State) : Host.Outcome State Fault Refusal :=
  running s fun t => t.bltConvert b

/-- A descriptor's RESULT is written, CONS advances, engines may turn dirty, and the engine may halt or finish draining (R466). -/
def execDescriptorComplete (b : Fin 4) (s : State) : Host.Outcome State Fault Refusal :=
  running s fun t => t.descriptorComplete b

/-- A write to BLT_RESUME takes the engine out of HALTED (R474). -/
def execBltResume (r : Req) (b : Fin 4) (d : Half) (s : State) : Host.Outcome State Fault Refusal :=
  running s fun t => t.writeReg r (Reg.BLT_RESUME b) .w32 d.toNat bltResumeWrite

/-- A write to BLT_CTRL enables the ring or starts draining to OFF, refusing a ring beyond capacity (R474). -/
def execBltCtrlWrite (r : Req) (b : Fin 4) (d : Half) (s : State) : Host.Outcome State Fault Refusal :=
  running s fun t => t.writeReg r (Reg.BLT_CTRL b) .w32 d.toNat bltCtrlWrite

/-- A write of BLT_RING_BASE or BLT_RING_CFG while EN is 0 sets the ring and zeroes PROD and CONS (R474). -/
def execBltRingCfgWrite (r : Req) (b : Fin 4) (base : Bool) (d : Word) (s : State) : Host.Outcome State Fault Refusal :=
  running s fun t => if base then t.writeReg r (Reg.BLT_RING_BASE b) .w64 d.toNat (bltRingWrite true) else t.writeReg r (Reg.BLT_RING_CFG b) .w32 d.toNat (bltRingWrite false)

end Sys2Proof.Machine
end

