-- ==== Sys2Proof/Machine/BootCmds.lean ====
section
/-! DEFINITION. NVM, resets and boot: the meaning of each command, over the shared operations. -/

namespace Sys2Proof.Machine
open State

/-- A forwarded NVM_KEY write arms the store key when 0xC0DE follows 0x5A17 (R564). -/
def execNvmKey (r : Req) (d : Half) (s : State) : Host.Outcome State Fault Refusal :=
  running s fun t => t.writeSlow r Reg.NVM_KEY d.toNat

/-- A forwarded NVM_STORE write starts a journalled sector store, or is refused (R565). -/
def execNvmStore (r : Req) (d : Half) (s : State) : Host.Outcome State Fault Refusal :=
  running s fun t => t.writeSlow r Reg.NVM_STORE d.toNat

/-- A sector store ends with its commit record written, or as VERIFY, and the sector's wear counts (R566). -/
def execStoreDone (verified : Bool) (s : State) : Host.Outcome State Fault Refusal :=
  running s fun t => t.storeDone verified

/-- A write to NVM_READ_SEL selects the sector shown in the read window (R568). -/
def execNvmReadSel (r : Req) (d : Half) (s : State) : Host.Outcome State Fault Refusal :=
  running s fun t => t.writeReg r (Reg.NVM_READ_SEL) .w32 d.toNat nvmReadSelWrite

/-- A RESET_CTRL write of TYPE 1 resets everything except the always-on domain (R571). -/
def execWarmReset (r : Req) (s : State) : Host.Outcome State Fault Refusal :=
  running s fun t => t.writeSlow r Reg.RESET_CTRL 0x3A5C0001

/-- A RESET_CTRL write of TYPE 2 resets the Keeper alone while the fabric runs on (R572). -/
def execKeeperReset (r : Req) (s : State) : Host.Outcome State Fault Refusal :=
  running s fun t => t.writeSlow r Reg.RESET_CTRL 0x3A5C0002

/-- The watchdog reaching TIMEOUT_MS without a kick resets the Keeper with cause 5 (R572). -/
def execWatchdogExpiry (s : State) : Host.Outcome State Fault Refusal :=
  running s fun t => t.watchdogExpiry

/-- A write to KWDT_KICK restarts the watchdog count (R572). -/
def execKwdtKick (r : Req) (d : Half) (s : State) : Host.Outcome State Fault Refusal :=
  running s fun t => t.writeSlow r Reg.KWDT_KICK d.toNat

/-- PWR_GOOD or RESET_N low holds the whole part in power-on reset (R612). -/
def execPowerOnReset (pwrGood resetN : Bool) (s : State) : Host.Outcome State Fault Refusal :=
  always s fun t => t.pinsLow pwrGood resetN

/-- 2 ms after the later of PWR_GOOD and RESET_N rises, reset is released, straps are sampled and the boot ROM starts (R573). -/
def execResetRelease (role : Fin 4) (index : Fin 16) (s : State) : Host.Outcome State Fault Refusal :=
  always s fun t => t.resetRelease role index

/-- The boot ROM selects, checks and starts Keeper firmware, which checks straps, reads parameters and activates an Ingot (R563). -/
def execFirmwareStart (spiFirmware spiParams : List Byte) (s : State) : Host.Outcome State Fault Refusal :=
  running s fun t => t.firmwareStart spiFirmware spiParams

/-- DDR training of all sixteen channels completes, setting the fitted capacity, or stops the boot (R500). -/
def execDdrTrainingDone (failed : List (Fin 16)) (s : State) : Host.Outcome State Fault Refusal :=
  running s fun t => t.ddrTrainingDone (failed.map Fin.val)

/-- The application image is read and checked, then class floors and bindings are set and locked and the cores released (R573). -/
def execAppImageLoaded (image : List Byte) (s : State) : Host.Outcome State Fault Refusal :=
  running s fun t => t.appImageLoaded image

end Sys2Proof.Machine
end

