-- ==== Sys2Proof/Machine/ChainCmds.lean ====
section
/-! DEFINITION. The Photor Chain: the meaning of each command, over the shared operations. -/

namespace Sys2Proof.Machine
open State

/-- Every 1 ms each chain port with link up sends a TRAIN frame (R434). -/
def execTrainTx (p : Fin 128) (s : State) : Host.Outcome State Fault Refusal :=
  running s fun t => t.trainTx p

/-- A TRAIN frame is checked and the port joins its link or records a mismatch cause (R434). -/
def execTrainReceived (p : Fin 128) (x : Train) (s : State) : Host.Outcome State Fault Refusal :=
  running s fun t => t.trainReceived p x

/-- A port with no TRAIN for 5 ms leaves its link (R434). -/
def execTrainTimeout (p : Fin 128) (s : State) : Host.Outcome State Fault Refusal :=
  running s fun t => t.portLeaves p

/-- Every 16 µs a child sends a TIME request on its uplink or boot link (R438). -/
def execTimeExchangeStart (link : Fin 16) (s : State) : Host.Outcome State Fault Refusal :=
  running s fun t => t.timeExchangeStart link

/-- A parent stamps a received TIME request and returns a reply (R438). -/
def execTimeRequestReceived (p : Fin 128) (epoch : BitVec 16) (t1 : Nat) (s : State) : Host.Outcome State Fault Refusal :=
  running s fun t => t.timeRequestReceived p epoch.toNat t1

/-- A child computes delay and offset from a TIME reply and steers its Device Time (R438). -/
def execTimeReplyReceived (link : Fin 16) (epoch : BitVec 16) (t1 t2 t3 t4 : Int) (s : State) : Host.Outcome State Fault Refusal :=
  running s fun t => t.timeReplyReceived link epoch.toNat t1 t2 t3 t4

/-- No completed exchange for 100 µs makes chain time lost and the timebase enter HOLDOVER (R439). -/
def execChainTimeLost (s : State) : Host.Outcome State Fault Refusal :=
  running s fun t => t.chainTimeLost

/-- A HEARTBEAT is checked for epoch and reference rate, forwarded, and may change the uplink or depose the part (R447). -/
def execHeartbeatReceived (p : Fin 128) (h : Heartbeat) (s : State) : Host.Outcome State Fault Refusal :=
  running s fun t => t.heartbeatReceived p h

/-- A worker's STATUS makes the manager mark that part REACHED (R447). -/
def execStatusReceived (p : Fin 128) (src : Fin 16) (s : State) : Host.Outcome State Fault Refusal :=
  running s fun t => t.statusReceived p src

/-- Three reference frames without a STATUS mark the part LOST (R447). -/
def execPeerLost (n : Fin 16) (s : State) : Host.Outcome State Fault Refusal :=
  running s fun t => t.peerLost n

/-- A standby takes over at a reference line start, raising the epoch and becoming active manager (R449). -/
def execTakeover (s : State) : Host.Outcome State Fault Refusal :=
  running s fun t => t.takeover

/-- A write of KEY 0x7E11 to CHAIN_TAKEOVER on a STANDBY part forces takeover at its next line start (R448). -/
def execChainTakeover (r : Req) (d : Half) (s : State) : Host.Outcome State Fault Refusal :=
  running s fun t => t.writeReg r (Reg.CHAIN_TAKEOVER) .w32 d.toNat chainTakeoverWrite

/-- An access to a chain window sends a TUNNEL request, stalling its master when 32 are outstanding (R442). -/
def execTunnelRequest (r : Req) (a : Addr) (w : Width) (wr : Bool) (d : Word) (s : State) : Host.Outcome State Fault Refusal :=
  running s fun t => if wr then t.writeAny r a.toNat w d else t.readAny r a.toNat w

/-- A part judges a TUNNEL request as an access by identity 15 and returns a response (R441). -/
def execTunnelRequestReceived (p : Fin 128) (x : Tunnel) (s : State) : Host.Outcome State Fault Refusal :=
  running s fun t => t.tunnelRequestReceived p x

/-- A TUNNEL response completes the master's window access (R442). -/
def execTunnelResponse (x : TunnelReply) (error : Bool) (d : Word) (s : State) : Host.Outcome State Fault Refusal :=
  running s fun t => t.tunnelResponse x.port x.epoch.toNat x.src x.id error d

/-- A request without response within TUNNEL_TIMEOUT_US ends in bus error UNMAPPED (R442). -/
def execTunnelTimeout (id : Nat) (s : State) : Host.Outcome State Fault Refusal :=
  running s fun t => t.tunnelTimeout id

/-- A DOORBELL frame sets the sending part's bit in CHAIN_DOORBELL on the manager (R444). -/
def execDoorbellReceived (p : Fin 128) (src : Fin 16) (s : State) : Host.Outcome State Fault Refusal :=
  running s fun t => t.doorbellReceived p src

/-- A HOST chain frame is delivered to the peer's host receive ring with KIND 0 (R437). -/
def execChainHostFrame (p : Fin 128) (frame : List Byte) (s : State) : Host.Outcome State Fault Refusal :=
  running s fun t => t.chainHostFrame p frame

/-- A received chain frame that fails its check value or carries an unknown TYPE is discarded and counted in CHAIN_LINK_STATS.RX_BAD (R437). -/
def execChainFrameDiscard (p : Fin 128) (s : State) : Host.Outcome State Fault Refusal :=
  running s fun t => t.chainFrameDiscard p

end Sys2Proof.Machine
end

