-- ==== Sys2Proof/Machine/CheckCmds.lean ====
section
/-! DEFINITION. The check-value units: the meaning of each command, over the shared operations. -/

namespace Sys2Proof.Machine
open State

/-- A write to SIG_EXPECT loads the expected value and sets VALID (R490). -/
def execSigExpectWrite (r : Req) (u : Fin 16) (d : Word) (s : State) : Host.Outcome State Fault Refusal :=
  running s fun t => t.writeReg r (Reg.SIG_EXPECT u) .w64 d.toNat sigExpectWrite

/-- A write to MCU_EXPECT loads the expected value and sets EXP_VALID (R493). -/
def execMcuExpectWrite (r : Req) (m : Fin 4) (d : Word) (s : State) : Host.Outcome State Fault Refusal :=
  running s fun t => t.writeReg r (Reg.MCU_EXPECT m) .w64 d.toNat mcuExpectWrite

/-- A write to MCU_GO starts a memory check run, or is refused (R492). -/
def execMcuGo (r : Req) (m : Fin 4) (d : Half) (s : State) : Host.Outcome State Fault Refusal :=
  running s fun t => t.writeReg r (Reg.MCU_GO m) .w32 d.toNat mcuGoWrite

/-- A memory check run ends, writing its result, comparing it and setting MEM_DONE (R493). -/
def execMcuRunEnd (m : Fin 4) (s : State) : Host.Outcome State Fault Refusal :=
  running s fun t => t.mcuRunEnd m

end Sys2Proof.Machine
end

