-- ==== Sys2Proof/Machine/CoreCmds.lean ====
section
/-! DEFINITION. Interrupts, cores, debug and mailboxes: the meaning of each command, over the shared operations. -/

namespace Sys2Proof.Machine
open State

/-- A read of PLIC_CLAIM claims the highest-priority enabled pending source of the context (R527). -/
def execPlicClaim (r : Req) (ctx : Fin 17) (s : State) : Host.Outcome State Fault Refusal :=
  running s fun t => t.readReg r (if ctx.val < 16 then Reg.PLIC_CLAIM ctx else Reg.PLIC_CLAIM_K) .w32 plicClaimRead

/-- A write of a source number to PLIC_CLAIM completes it, re-pending it if still asserted (R527). -/
def execPlicComplete (r : Req) (ctx : Fin 17) (d : Half) (s : State) : Host.Outcome State Fault Refusal :=
  running s fun t => t.writeReg r (if ctx.val < 16 then Reg.PLIC_CLAIM ctx else Reg.PLIC_CLAIM_K) .w32 d.toNat plicCompleteWrite

/-- A core takes a machine timer interrupt while time reaches its APPCX_MTIMECMP (R524). -/
def execMachineTimerInterrupt (k : Fin 8) (s : State) : Host.Outcome State Fault Refusal :=
  running s fun t => t.machineTimer k

/-- Setting a RELEASE bit starts the core at APPCX_RESET_VEC (R538). -/
def execCoreRelease (r : Req) (d : Half) (s : State) : Host.Outcome State Fault Refusal :=
  running s fun t => t.writeReg r (Reg.APPCX_CORE_CTRL) .w32 d.toNat coreCtrlWrite

/-- Writing a RELEASE bit to 0 resets the core and releases its semaphores (R571). -/
def execCoreReset (r : Req) (d : Half) (s : State) : Host.Outcome State Fault Refusal :=
  running s fun t => t.writeReg r (Reg.APPCX_CORE_CTRL) .w32 d.toNat coreCtrlWrite

/-- A mismatch between the Keeper cores resets the Keeper alone and drives ALERT_N low (R526). -/
def execLockstepMismatch (s : State) : Host.Outcome State Fault Refusal :=
  running s fun t => t.keeperReset 4

/-- A debugger activates the debug module through JTAG, where DM_EN allows it (R558). -/
def execDmActivated (s : State) : Host.Outcome State Fault Refusal :=
  running s fun t => t.dmActivated

/-- A debugger deactivates the debug module through JTAG, clearing DBG_STATE.ATTACHED (R559). -/
def execDmDeactivated (s : State) : Host.Outcome State Fault Refusal :=
  running s fun t => t.dmDeactivated

/-- A debug halt request halts a core whose HALT_EN bit is set, or sets HALT_REFUSED (R558). -/
def execDebugHaltRequest (k : Fin 8) (s : State) : Host.Outcome State Fault Refusal :=
  running s fun t => t.debugHalt k

/-- A debugger's resume request through the debug module takes a core out of debug halt, clearing its HALTED bit (R558). -/
def execDebugResume (k : Fin 8) (s : State) : Host.Outcome State Fault Refusal :=
  running s fun t => t.debugResume k

/-- The first write to DBG_LOCK locks DBG_CTRL until reset (R559). -/
def execDbgLock (r : Req) (d : Half) (s : State) : Host.Outcome State Fault Refusal :=
  running s fun t => t.writeReg r (Reg.DBG_LOCK) .w32 d.toNat plainWrite

/-- A write to a message word is stored if by the sender on a channel that is not SENT (R530). -/
def execMbMsgWrite (r : Req) (n : Fin 64) (w : Fin 16) (d : Half) (s : State) : Host.Outcome State Fault Refusal :=
  running s fun t => t.writeReg r (Reg.MB_MSG n w) .w32 d.toNat mbMsgWrite

/-- A write to MB_SEND puts the channel in SENT and raises the receiver's doorbell, or is refused (R530). -/
def execMbSend (r : Req) (n : Fin 64) (d : Half) (s : State) : Host.Outcome State Fault Refusal :=
  running s fun t => t.writeReg r (Reg.MB_SEND n) .w32 d.toNat mbSendWrite

/-- A write to MB_ACK by the receiver puts the channel in ACKED and raises the sender's doorbell, or is refused (R530). -/
def execMbAck (r : Req) (n : Fin 64) (d : Half) (s : State) : Host.Outcome State Fault Refusal :=
  running s fun t => t.writeReg r (Reg.MB_ACK n) .w32 d.toNat mbAckWrite

/-- A write to MB_DONE by the sender returns an ACKED channel to IDLE (R530). -/
def execMbDone (r : Req) (n : Fin 64) (d : Half) (s : State) : Host.Outcome State Fault Refusal :=
  running s fun t => t.writeReg r (Reg.MB_DONE n) .w32 d.toNat mbDoneWrite

/-- A channel SENT for ACK_TIMEOUT_US goes ACKED with CODE 0xFFFF and TIMED_OUT (R532). -/
def execMbAckTimeout (n : Fin 64) (s : State) : Host.Outcome State Fault Refusal :=
  running s fun t => t.mbTimeout n

/-- The first write to MB_BIND_LOCK locks the mailbox binding table until reset (R529). -/
def execMbBindLock (r : Req) (d : Half) (s : State) : Host.Outcome State Fault Refusal :=
  running s fun t => t.writeReg r (Reg.MB_BIND_LOCK) .w32 d.toNat plainWrite

end Sys2Proof.Machine
end

