-- ==== Sys2Proof/Machine/CueCmds.lean ====
section
/-! DEFINITION. Cues and commits: the meaning of each command, over the shared operations. -/

namespace Sys2Proof.Machine
open State

/-- A CUE_ARM write with DISARM 0 judges the slot and arms it, refuses it, or handles it as late (R140). -/
def execCueArm (r : Req) (slot : Fin 8192) (s : State) : Host.Outcome State Fault Refusal :=
  running s fun t => t.writeReg r Reg.CUE_ARM .w32 slot.val cueArmWrite

/-- A CUE_ARM write with DISARM 1 sets an ARMED slot to IDLE unless its cue has come due (R143). -/
def execCueDisarm (r : Req) (slot : Fin 8192) (s : State) : Host.Outcome State Fault Refusal :=
  running s fun t => t.writeReg r Reg.CUE_ARM .w32 (2 ^ 31 + slot.val) cueArmWrite

/-- A COMMIT cue action registers a commit for the units of its mask (R145). -/
def execCommit (cue : Fin 8192) (s : State) : Host.Outcome State Fault Refusal :=
  running s fun t => t.runCue cue 1 (actCommit cue)

/-- A WRITE cue action issues one 32-bit write of DATA to ADDR as identity 9 (R145). -/
def execWrite (cue : Fin 8192) (s : State) : Host.Outcome State Fault Refusal :=
  running s fun t => t.runCue cue 2 (actWrite cue)

/-- A START_BLIT cue action advances a blit engine's producer index to PRODUCER (R145). -/
def execStartBlit (cue : Fin 8192) (s : State) : Host.Outcome State Fault Refusal :=
  running s fun t => t.runCue cue 4 (actBlit cue)

/-- A SIGNAL cue action writes the position to a mailbox channel and sends it, or fails if the channel is SENT (R145). -/
def execSignal (cue : Fin 8192) (s : State) : Host.Outcome State Fault Refusal :=
  running s fun t => t.runCue cue 5 (actSignal cue)

/-- A LOAD_EXPECT cue action loads an expected value into a signature or memory check unit (R145). -/
def execLoadExpect (cue : Fin 8192) (s : State) : Host.Outcome State Fault Refusal :=
  running s fun t => t.runCue cue 6 (actLoadExpect cue)

/-- A CUE_COMMIT write registers a commit, assigns a sequence number and sets the named units pending (R153). -/
def execCueCommit (r : Req) (mask : Word) (s : State) : Host.Outcome State Fault Refusal :=
  running s fun t => t.writeReg r Reg.CUE_COMMIT .w64 mask.toNat cueCommitWrite

/-- A received CUE frame arms, disarms or resyncs a chain slot on the worker, replacing any armed contents (R445). -/
def execChainCueFrame (link : Fin 16) (f : CueFrame) (s : State) : Host.Outcome State Fault Refusal :=
  running s fun t => t.chainCueFrame link f

end Sys2Proof.Machine
end

