-- ==== Sys2Proof/Machine/FetchCmds.lean ====
section
/-! DEFINITION. The layer engines and the fills of lookup tables: the meaning of each command, over the shared operations. -/

namespace Sys2Proof.Machine
open State

/-- A write to LE_TOUCH makes the engine dirty for every raster it serves (R189). -/
def execLeTouch (r : Req) (n : Fin 32) (d : Half) (s : State) : Host.Outcome State Fault Refusal :=
  running s fun t => t.writeReg r (Reg.LE_TOUCH n) .w32 d.toNat leTouchWrite

/-- A write to LE_TOL_MIN_RESTART sets LE_TOL_MIN to unlimited (R197). -/
def execLeTolMinRestart (r : Req) (n : Fin 32) (d : Half) (s : State) : Host.Outcome State Fault Refusal :=
  running s fun t => t.writeReg r (Reg.LE_TOL_MIN_RESTART n) .w32 d.toNat leTolMinRestart

/-- Every 64 FCLK each engine sends its latency tolerance to every memory controller (R182). -/
def execToleranceUpdate (n : Fin 32) (s : State) : Host.Outcome State Fault Refusal :=
  running s fun t => t.toleranceUpdate n

/-- A fetched 256-byte burst arrives in the line buffer, replaced by zeros if poisoned and discarded if late (R186). -/
def execLeBurstArrival (n : Fin 32) (m : Fin 16) (a : Addr) (e : Ecc) (s : State) : Host.Outcome State Fault Refusal :=
  running s fun t => t.burstArrival n m a.toNat e

/-- A write to LE_DECODE_LOAD starts a fill of the engine's decode LUT shadows from a preset, or is refused (R257). -/
def execLeDecodeLoad (r : Req) (n : Fin 32) (d : Half) (s : State) : Host.Outcome State Fault Refusal :=
  running s fun t => t.writeReg r (Reg.LE_DECODE_LOAD n) .w32 d.toNat decodeLoadWrite

/-- A decode LUT fill ends and BUSY clears (R257). -/
def execDecodeFillDone (n : Fin 32) (s : State) : Host.Outcome State Fault Refusal :=
  running s fun t => t.decodeFillDone n

/-- A write to BC_ENCODE_LOAD starts a fill of one set's encode LUT shadows from a preset, or is refused (R266). -/
def execBcEncodeLoad (r : Req) (n : Fin 8) (d : Half) (s : State) : Host.Outcome State Fault Refusal :=
  running s fun t => t.writeReg r (Reg.BC_ENCODE_LOAD n) .w32 d.toNat encodeLoadWrite

/-- An encode LUT fill ends and BUSY clears (R266). -/
def execEncodeFillDone (n : Fin 8) (s : State) : Host.Outcome State Fault Refusal :=
  running s fun t => t.encodeFillDone n

end Sys2Proof.Machine
end

