-- ==== Sys2Proof/Machine/IngestCmds.lean ====
section
/-! DEFINITION. Video ingest: the meaning of each command, over the shared operations. -/

namespace Sys2Proof.Machine
open State

/-- A frame on an INGEST port is sorted, policed, sequenced and written into its flow's frame, or tunnelled or dropped (R404). -/
def execIngestFrame (p : Fin 128) (frame : List Byte) (s : State) : Host.Outcome State Fault Refusal :=
  running s fun t => t.ingestFrame p frame

/-- A write to POL_CBS applies the staged policer values together, or is refused (R382). -/
def execPolicerApply (r : Req) (f : Fin 512) (d : Half) (s : State) : Host.Outcome State Fault Refusal :=
  running s fun t => t.writeReg r (Reg.POL_CBS f) .w32 d.toNat polCbsWrite

/-- A write setting ING_FLOW_CTRL.EN from 0 to 1 judges the flow and enables it or refuses it (R408). -/
def execFlowEnable (r : Req) (f : Fin 512) (d : Half) (s : State) : Host.Outcome State Fault Refusal :=
  running s fun t => t.writeReg r (Reg.ING_FLOW_CTRL f) .w32 d.toNat ingFlowCtrlWrite

/-- A write of EN 0 disables the flow and its members, abandoning the frame being filled (R409). -/
def execFlowDisable (r : Req) (f : Fin 512) (d : Half) (s : State) : Host.Outcome State Fault Refusal :=
  running s fun t => t.writeReg r (Reg.ING_FLOW_CTRL f) .w32 d.toNat ingFlowCtrlWrite

/-- The ingest writer finishes writing an accepted packet's samples to DDR4 after conversion, and frees the packet's Billets (R376). -/
def execIngestPacketWritten (f : Fin 512) (s : State) : Host.Outcome State Fault Refusal :=
  running s fun t => t.packetWritten f

/-- A frame completes when the writer finishes its marker packet's samples, and is kept, marked late, or freed (R418). -/
def execIngestFrameComplete (f : Fin 512) (s : State) : Host.Outcome State Fault Refusal :=
  running s fun t => t.frameComplete f

/-- A frame with no matched packet for one reference frame period is abandoned as incomplete (R418). -/
def execFrameAbandonTimeout (f : Fin 512) (s : State) : Host.Outcome State Fault Refusal :=
  running s fun t => t.abandon f true

/-- A path with no matched packet for 10 ms sets DOWN and PATH_DOWN (R416). -/
def execPathDown (f : Fin 512) (s : State) : Host.Outcome State Fault Refusal :=
  running s fun t => t.pathDown f

/-- A REPLICA frame enters the chain port's Crucible and the receiving flow's sequence and frame rules (R446). -/
def execReplicaReceived (p : Fin 128) (f : Fin 512) (rtp : List Byte) (s : State) : Host.Outcome State Fault Refusal :=
  running s fun t => t.replicaReceived p f rtp

end Sys2Proof.Machine
end

