-- ==== Sys2Proof/Machine/IngotCmds.lean ====
section
/-! DEFINITION. The Ingot: the meaning of each command, over the shared operations. -/

namespace Sys2Proof.Machine
open State

/-- An accepted write into an Ingot slot's Slab window puts that slot in LOADED (R82). -/
def execSlotWindowWrite (r : Req) (slot : Fin 2) (off : Fin 65536) (w : Width) (d : Word) (s : State) : Host.Outcome State Fault Refusal :=
  running s fun t => t.writeAny r (slotBase slot + off) w d

/-- INGOT_CMD VALIDATE puts a LOADED, VALID or INVALID slot in VALIDATING (R83). -/
def execValidate (r : Req) (slot : Fin 2) (s : State) : Host.Outcome State Fault Refusal :=
  running s fun t => t.writeReg r Reg.INGOT_CMD .w32 (1 + 16 * slot.val) ingotCmdWrite

/-- INGOT_CMD LOAD_NVM puts a slot in LOADED and starts copying its NVM copy into the Slab window (R83). -/
def execLoadNvm (r : Req) (slot : Fin 2) (s : State) : Host.Outcome State Fault Refusal :=
  running s fun t => t.writeReg r Reg.INGOT_CMD .w32 (2 + 16 * slot.val) ingotCmdWrite

/-- INGOT_CMD CLEAR puts a slot that is not ACTIVE, VALIDATING or RETIRING in EMPTY (R83). -/
def execClear (r : Req) (slot : Fin 2) (s : State) : Host.Outcome State Fault Refusal :=
  running s fun t => t.writeReg r Reg.INGOT_CMD .w32 (3 + 16 * slot.val) ingotCmdWrite

/-- INGOT_CMD ACTIVATE makes a VALID slot ACTIVE when no Ingot is active, loading timing, ports and quads and ending any boot link (R83). -/
def execActivate (r : Req) (slot : Fin 2) (s : State) : Host.Outcome State Fault Refusal :=
  running s fun t => t.writeReg r Reg.INGOT_CMD .w32 (4 + 16 * slot.val) ingotCmdWrite

/-- An INGOT_CMD with an unlisted OP, or one not accepted in the slot's state, is ignored with CMD_REFUSED and its code in INGOT_SWAP_LOG (R83). -/
def execIngotCmdRefused (r : Req) (d : Half) (s : State) : Host.Outcome State Fault Refusal :=
  running s fun t => t.writeReg r Reg.INGOT_CMD .w32 d.toNat ingotCmdWrite

/-- When the LOAD_NVM copy has finished, after any store of its sector, the slot goes VALIDATING (R84). -/
def execNvmCopyDone (slot : Fin 2) (s : State) : Host.Outcome State Fault Refusal :=
  running s fun t => t.nvmCopyDone slot

/-- Validation of a slot ends within 20 ms, making the slot VALID or INVALID with its error code and updating SWAPPABLE (R81). -/
def execValidationDone (slot : Fin 2) (s : State) : Host.Outcome State Fault Refusal :=
  running s fun t => t.validationDone slot

/-- A SWAP_INGOT cue action is the swap point: the named slot becomes ACTIVE if all checks pass, ports and quads change, and hit rasters start sending HOLD (R87). -/
def execSwapIngot (cue : Fin 8192) (s : State) : Host.Outcome State Fault Refusal :=
  running s fun t => t.runCue cue 3 (actSwap cue)

/-- 1 ms after a swap changes a quad's MODE, its electrical idle ends and the quad starts training in the new mode (R92). -/
def execQuadIdleEnd (q : Fin 32) (s : State) : Host.Outcome State Fault Refusal :=
  running s fun t => t.quadIdleEnd q

/-- A hit raster restarts under the new structure at the first sub-frame-0 ideal start one reference frame period after the swap point (R90). -/
def execHitRasterRestart (m : Fin 16) (s : State) : Host.Outcome State Fault Refusal :=
  running s fun t => t.hitRasterRestart m

end Sys2Proof.Machine
end

