-- ==== Sys2Proof/Machine/LinkCmds.lean ====
section
/-! DEFINITION. Blueri Tile Link: the meaning of each command, over the shared operations. -/

namespace Sys2Proof.Machine
open State

/-- A write to BTL_CTRL_SEND starts a CTRL transaction on channel 0, or is refused (R345). -/
def execBtlCtrlSend (r : Req) (p : Fin 128) (d : Half) (s : State) : Host.Outcome State Fault Refusal :=
  running s fun t => t.writeReg r (Reg.BTL_CTRL_SEND p) .w32 d.toNat btlCtrlSendWrite

/-- With no matching CACK within TIMEOUT_US the port resends the CTRL or fails the transaction with 0xFFFF (R345). -/
def execCtrlTimeout (p : Fin 128) (ch : Fin 2) (s : State) : Host.Outcome State Fault Refusal :=
  running s fun t => t.ctrlTimeout p ch

/-- A CACK matching an outstanding CTRL ends its transaction with its CODE (R345). -/
def execCackReceived (p : Fin 128) (frame : List Byte) (s : State) : Host.Outcome State Fault Refusal :=
  running s fun t => t.cackReceived p frame

/-- A write to BTL_ECHO_REQ sends one echo BEACON to a tile, or is refused (R337). -/
def execBtlEchoReq (r : Req) (p : Fin 128) (d : Half) (s : State) : Host.Outcome State Fault Refusal :=
  running s fun t => t.writeReg r (Reg.BTL_ECHO_REQ p) .w32 d.toNat btlEchoReqWrite

/-- Under AUTO, every PERIOD reference frames the port starts an echo round over its tiles (R338). -/
def execEchoRoundStart (p : Fin 128) (s : State) : Host.Outcome State Fault Refusal :=
  running s fun t => t.echoRoundStart p

/-- A BEACON reply completes the echo, computes the one-way delay and, under AUTO, writes PATH_DELAY (R337). -/
def execEchoReplyReceived (p : Fin 128) (frame : List Byte) (s : State) : Host.Outcome State Fault Refusal :=
  running s fun t => t.echoReplyReceived p frame

/-- An echo without reply within 200 µs sets ECHO_TIMEOUT (R337). -/
def execEchoTimeout (p : Fin 128) (s : State) : Host.Outcome State Fault Refusal :=
  running s fun t => t.echoTimeout p

/-- A valid STAT adds its counts to the port and device totals and goes to the host receive ring (R347). -/
def execStatReceived (p : Fin 128) (frame : List Byte) (s : State) : Host.Outcome State Fault Refusal :=
  running s fun t => t.statReceived p frame

/-- A write to BTL_TEST sends COUNT TEST packets to a tile, or is refused (R349). -/
def execBtlTest (r : Req) (p : Fin 128) (d : Half) (s : State) : Host.Outcome State Fault Refusal :=
  running s fun t => t.writeReg r (Reg.BTL_TEST p) .w32 d.toNat btlTestWrite

/-- A returned TEST packet is compared with the one sent and counted (R349). -/
def execTestReplyReceived (p : Fin 128) (frame : List Byte) (s : State) : Host.Outcome State Fault Refusal :=
  running s fun t => t.testReplyReceived p frame

/-- A test ends 1 ms after its last packet and BUSY clears (R349). -/
def execTestEnd (p : Fin 128) (s : State) : Host.Outcome State Fault Refusal :=
  running s fun t => t.testEnd p

/-- A frame received on an EGRESS port that is bad, foreign or returned is discarded and counted (R348). -/
def execBtlRxDiscard (p : Fin 128) (frame : List Byte) (s : State) : Host.Outcome State Fault Refusal :=
  running s fun t => t.btlRxDiscard p frame

end Sys2Proof.Machine
end

