-- ==== Sys2Proof/Machine/MemoryCmds.lean ====
section
/-! DEFINITION. DDR4 and the Slab: the meaning of each command, over the shared operations. -/

namespace Sys2Proof.Machine
open State

/-- An idle channel whose minimum tolerance allows it enters precharge power-down (R505). -/
def execPrechargePowerDownEntry (c : Fin 16) (s : State) : Host.Outcome State Fault Refusal :=
  running s fun t => t.powerDownEntry c

/-- An idle channel whose minimum tolerance allows it enters self-refresh (R505). -/
def execSelfRefreshEntry (c : Fin 16) (s : State) : Host.Outcome State Fault Refusal :=
  running s fun t => t.selfRefreshEntry c

/-- A request, or tolerance falling below the entry condition, makes a channel leave its low-power state (R506). -/
def execLowPowerExit (c : Fin 16) (s : State) : Host.Outcome State Fault Refusal :=
  running s fun t => t.lowPowerExit c

/-- A refresh interval expires and the channel refreshes or postpones it by tolerance (R507). -/
def execRefresh (c : Fin 16) (s : State) : Host.Outcome State Fault Refusal :=
  running s fun t => t.refreshDue c

/-- A command/address parity error signalled by the DRAM makes the channel re-issue, or enter FAULT after three tries (R510). -/
def execCaParityAlert (c : Fin 16) (s : State) : Host.Outcome State Fault Refusal :=
  running s fun t => t.caAlert c

/-- A signalled write CRC error makes the channel resend the write, or enter FAULT after three tries (R510). -/
def execWrCrcAlert (c : Fin 16) (s : State) : Host.Outcome State Fault Refusal :=
  running s fun t => t.crcAlert c

/-- A DDR4 read returns, corrected and written back on a correctable error or marked poisoned on an uncorrectable one (R510). -/
def execMcReadComplete (c : Fin 16) (a : Addr) (e : Ecc) (scrub : Bool) (s : State) : Host.Outcome State Fault Refusal :=
  running s fun t => t.readComplete c a.toNat e scrub

/-- A channel's patrol scrub completes a pass and sets SCRUB_DONE (R511). -/
def execMcScrubPassDone (c : Fin 16) (s : State) : Host.Outcome State Fault Refusal :=
  running s fun t => t.scrubPassDone c

/-- A write of MC_REFRESH.DOUBLE sets the refresh rate, setting DERATED when it goes from 0 to 1 (R509). -/
def execMcRefreshWrite (r : Req) (c : Fin 16) (d : Half) (s : State) : Host.Outcome State Fault Refusal :=
  running s fun t => t.writeReg r (Reg.MC_REFRESH c) .w32 d.toNat mcRefreshWrite

/-- The Slab scrubber completes a pass and sets SCRUB_DONE (R515). -/
def execSlabScrubPassDone (s : State) : Host.Outcome State Fault Refusal :=
  running s fun t => t.slabPassDone

/-- A Slab bank not accessed for 1 µs drops to retention voltage (R515). -/
def execSlabRetentionEntry (_bank : Nat) (s : State) : Host.Outcome State Fault Refusal :=
  running s fun t => t.slabRetention

end Sys2Proof.Machine
end

