-- ==== Sys2Proof/Machine/PortCmds.lean ====
section
/-! DEFINITION. The ports: the meaning of each command, over the shared operations. -/

namespace Sys2Proof.Machine
open State

/-- A port that is not transmitting starts the next eligible frame by the fixed order, or discards it while the link is down (R365). -/
def execPortTxStart (p : Fin 128) (billet : Ecc) (s : State) : Host.Outcome State Fault Refusal :=
  running s fun t => t.portTxStart p billet

/-- When a frame's last byte leaves the port its Billets are freed (R376). -/
def execPortTxComplete (p : Fin 128) (s : State) : Host.Outcome State Fault Refusal :=
  running s fun t => t.portTxComplete p

/-- A received frame takes Billets as its bytes arrive and is judged by the MAC at its end (R376). -/
def execPortRxFrame (p : Fin 128) (frame : List Byte) (fcsOk : Bool) (billet : Ecc) (s : State) : Host.Outcome State Fault Refusal :=
  running s fun t => t.portReceive p frame fcsOk billet

/-- A refused CTRL, TEST, echo or host transmit frame is judged again for Billets until admitted (R378). -/
def execCrucibleRetry (p : Fin 128) (s : State) : Host.Outcome State Fault Refusal :=
  running s fun t => t.crucibleRetry p

/-- A port's LINK_UP changes, setting LINK_CHANGE and counting falls (R361). -/
def execLinkStateChange (p : Fin 128) (b : LinkBits) (s : State) : Host.Outcome State Fault Refusal :=
  running s fun t => (t.setLink p b).chainFollow

/-- A reference-clock pair's presence changes, updating PRESENT and REFCLK_LOST of both quads (R362). -/
def execRefclkChange (pair : Fin 16) (present : Bool) (s : State) : Host.Outcome State Fault Refusal :=
  running s fun t => (t.refclkChange pair present).chainFollow

/-- A polarity or loopback change in PQ_LANE_CFG drops the lane's link until it retrains (R390). -/
def execLaneCfgWrite (r : Req) (p : Fin 128) (d : Half) (s : State) : Host.Outcome State Fault Refusal :=
  running s fun t => t.writeReg r (Reg.PQ_LANE_CFG (p.val / 4) (p.val % 4)) .w32 d.toNat laneCfgThen

/-- An accepted write of a shaper's rate or burst discards positive credit; an invalid one is refused (R369). -/
def execQueueShapeWrite (r : Req) (p : Fin 128) (q : Fin 8) (burst : Bool) (d : Half) (s : State) : Host.Outcome State Fault Refusal :=
  running s fun t => t.writeReg r (if burst then Reg.QUEUE_SHAPE_BURST p q else Reg.QUEUE_SHAPE_RATE p q) .w32 d.toNat queueShapeWrite

/-- A write of QUEUE_QUANTUM sets the quantum, or is refused when zero (R370). -/
def execQueueQuantumWrite (r : Req) (p : Fin 128) (q : Fin 8) (d : Half) (s : State) : Host.Outcome State Fault Refusal :=
  running s fun t => t.writeReg r (Reg.QUEUE_QUANTUM p q) .w32 d.toNat queueQuantumWrite

/-- At a gate cycle start the bank in force restarts its entries and any pending bank switch takes effect (R372). -/
def execGateCycleStart (p : Fin 128) (s : State) : Host.Outcome State Fault Refusal :=
  running s fun t => t.gateCycleStart p

/-- A gate entry's DURATION expires and the next entry's mask takes force (R371). -/
def execGateEntryEnd (p : Fin 128) (s : State) : Host.Outcome State Fault Refusal :=
  running s fun t => t.gateEntryEnd p

/-- A write to GATE_SWITCH switches the bank at once, arms a switch for the next cycle start, or is refused (R375). -/
def execGateSwitch (r : Req) (p : Fin 128) (d : Half) (s : State) : Host.Outcome State Fault Refusal :=
  running s fun t => t.writeReg r (Reg.GATE_SWITCH p) .w32 d.toNat gateSwitchWrite

/-- A write to GATE_CTRL enables or disables the gate list, refusing a bank that cannot start (R375). -/
def execGateCtrlWrite (r : Req) (p : Fin 128) (d : Half) (s : State) : Host.Outcome State Fault Refusal :=
  running s fun t => t.writeReg r (Reg.GATE_CTRL p) .w32 d.toNat gateCtrlWrite

/-- A write of a host ring CFG register sets its ring and resets its two indices to zero (R398). -/
def execRingCfgWrite (r : Req) (p : Fin 128) (tx : Bool) (d : Half) (s : State) : Host.Outcome State Fault Refusal :=
  running s fun t => t.writeReg r (if tx then Reg.HTX_CFG p else Reg.HRX_CFG p) .w32 d.toNat ringCfgWrite

/-- A write to HTX_PROD makes the part queue the new host transmit slots into Q5, skipping bad ones (R383). -/
def execHtxProd (r : Req) (p : Fin 128) (d : Half) (s : State) : Host.Outcome State Fault Refusal :=
  running s fun t => t.writeReg r (Reg.HTX_PROD p) .w32 d.toNat htxProdWrite

/-- Every PERIOD_US the port samples each queue's depth and head delay and may write trace entries (R384). -/
def execQueueSample (p : Fin 128) (s : State) : Host.Outcome State Fault Refusal :=
  running s fun t => t.queueSample p

/-- A write to PORT_SAMPLE_RESTART zeroes every QUEUE_SAMPLE_MAX of the port (R384). -/
def execPortSampleRestart (r : Req) (p : Fin 128) (d : Half) (s : State) : Host.Outcome State Fault Refusal :=
  running s fun t => t.writeReg r (Reg.PORT_SAMPLE_RESTART p) .w32 d.toNat portSampleRestart

/-- A write of EN 1 to FI_CFG restarts the injector's count and LFSR, or is refused with N 0 (R386). -/
def execFiEnable (r : Req) (p : Fin 128) (dir : Fin 2) (d : Half) (s : State) : Host.Outcome State Fault Refusal :=
  running s fun t => t.writeReg r (Reg.FI_CFG p dir) .w32 d.toNat fiCfgWrite

/-- A received frame held by REORDER is delivered after 100 µs if HOLD frames have not come first (R387). -/
def execFiReorderRelease (p : Fin 128) (s : State) : Host.Outcome State Fault Refusal :=
  running s fun t => t.fiReorderRelease p

/-- A write to CRU_RESTART sets MIN_FREE to FREE and every PEAK to HELD (R400). -/
def execCruRestart (r : Req) (d : Half) (s : State) : Host.Outcome State Fault Refusal :=
  running s fun t => t.writeReg r (Reg.CRU_RESTART) .w32 d.toNat cruRestart

end Sys2Proof.Machine
end

