-- ==== Sys2Proof/Machine/PowerCmds.lean ====
section
/-! DEFINITION. The slow clock, power, heat and supplies: the meaning of each command, over the shared operations. -/

namespace Sys2Proof.Machine
open State

/-- At each 1 MHz slow-clock edge the part refreshes mirrors, applies queued forwarded writes, samples rails and junction temperatures and integrates energy (R55). -/
def execSlowClockEdge (tj : List (BitVec 16)) (nJ : List Nat) (s : State) : Host.Outcome State Fault Refusal :=
  always s fun t => t.slowClock tj nJ

/-- After TJ_MAX has stayed at or below EXIT_C for 1 s in Thermal Hold, the part leaves Thermal Hold and rasters send again from their next STP (R591). -/
def execThermalHoldExit (s : State) : Host.Outcome State Fault Refusal :=
  running s fun t => t.holdExit

/-- After TJ_MAX has stayed below 100 °C for 1 s, the trip hold ends and the part boots as after power-on (R593). -/
def execTripRelease (role : Fin 4) (index : Fin 16) (s : State) : Host.Outcome State Fault Refusal :=
  always s fun t => t.tripRelease role index

/-- A rail outside its range for 10 consecutive samples sets its PWR_SUPPLY bit, the SUPPLY flag and the SUPPLY cause of ALERT_N (R585). -/
def execSupplyOutOfRange (rail : Fin 8) (s : State) : Host.Outcome State Fault Refusal :=
  running s fun t => t.supplyOut rail

/-- A rail back in range for 10 samples clears its PWR_SUPPLY bit and the SUPPLY cause of ALERT_N (R585). -/
def execSupplyRecovered (rail : Fin 8) (s : State) : Host.Outcome State Fault Refusal :=
  running s fun t => t.supplyBack rail

/-- Each millisecond the governor takes the interval power, updates EXCESS, and engages or releases one step as its rules allow (R589). -/
def execGovernorEvaluation (deciWatt : Nat) (s : State) : Host.Outcome State Fault Refusal :=
  running s fun t => t.govEvaluate deciWatt

/-- A write to PWR_SNAP copies total energy, delivered pixels and Device Time into the snapshot registers at one slow-clock edge (R588). -/
def execPwrSnap (r : Req) (d : Half) (s : State) : Host.Outcome State Fault Refusal :=
  running s fun t => t.writeSlow r Reg.PWR_SNAP d.toNat

end Sys2Proof.Machine
end

