-- ==== Sys2Proof/Machine/RasterCmds.lean ====
section
/-! DEFINITION. The output rasters: the meaning of each command, over the shared operations. -/

namespace Sys2Proof.Machine
open State

/-- A raster starts a frame in the first FCLK at or after its ideal start, incrementing its alive counter and applying pending check-unit settings (R125). -/
def execRasterFrameStart (m : Fin 16) (s : State) : Host.Outcome State Fault Refusal :=
  running s fun t => t.rasterFrameStart m

/-- At its frame end a raster starts the next frame if an ideal start is within one FCLK, or begins a wait and sends one WAIT BEACON (R127). -/
def execRasterFrameEnd (m : Fin 16) (s : State) : Host.Outcome State Fault Refusal :=
  running s fun t => t.rasterFrameEnd m

/-- A waiting raster starts at the next ideal start with that frame number and counts earlier positions as passed (R127). -/
def execRasterWaitEnd (m : Fin 16) (s : State) : Host.Outcome State Fault Refusal :=
  running s fun t => t.rasterWaitEnd m

/-- At a Shadow Transfer Point the part lands pending commits, binds ingest surfaces, samples dirty states, decides Idle Hold, and runs cues at that position (R29). -/
def execStp (m : Fin 16) (s : State) : Host.Outcome State Fault Refusal :=
  running s fun t => t.stp m

/-- The cluster composes an active line of a raster and the Tile Map cuts it into runs queued as PIXEL packets (R231). -/
def execComposeLine (m : Fin 16) (s : State) : Host.Outcome State Fault Refusal :=
  running s fun t => t.composeLine m

/-- At a raster frame's send position each port of the raster flushes late PIXEL packets and sends a LATCH or HOLD (R339). -/
def execSendPosition (m : Fin 16) (s : State) : Host.Outcome State Fault Refusal :=
  running s fun t => t.sendPosition m

/-- Units without a governing raster that are pending land together in the FCLK after registration (R152). -/
def execUngovernedLanding (s : State) : Host.Outcome State Fault Refusal :=
  running s fun t => t.ungovernedLanding

/-- At RP(k, V_ACTIVE, 0) a signature unit writes the frame's result and, in compare mode, compares it and may raise an alarm (R486). -/
def execResultPoint (u : Fin 16) (s : State) : Host.Outcome State Fault Refusal :=
  running s fun t => t.resultPoint u

/-- A write to ORS_UNDER_RESTART clears ORS_UNDER_FIRST.VALID (R295). -/
def execOrsUnderRestart (r : Req) (m : Fin 16) (d : Half) (s : State) : Host.Outcome State Fault Refusal :=
  running s fun t => t.writeReg r (Reg.ORS_UNDER_RESTART m) .w32 d.toNat underRestart

end Sys2Proof.Machine
end

