-- ==== Sys2Proof/Machine/ServiceCmds.lean ====
section
/-! DEFINITION. The service interfaces: the meaning of each command, over the shared operations. -/

namespace Sys2Proof.Machine
open State

/-- A write to MMAC_CFG that changes mode, rate or polarity drops the link until it retrains (R544). -/
def execMmacCfgWrite (r : Req) (m : Fin 2) (d : Half) (s : State) : Host.Outcome State Fault Refusal :=
  running s fun t => t.writeReg r (Reg.MMAC_CFG m) .w32 d.toNat mmacCfgWrite

/-- A received management frame is filtered and placed in the receive ring, or discarded and counted (R545). -/
def execMmacRxFrame (m : Fin 2) (frame : List Byte) (fcsOk : Bool) (s : State) : Host.Outcome State Fault Refusal :=
  running s fun t => t.mmacRxFrame m frame fcsOk

/-- A write to MMAC_TX_PROD makes the MAC send the new transmit slots in order (R546). -/
def execMmacTxProd (r : Req) (m : Fin 2) (d : Half) (s : State) : Host.Outcome State Fault Refusal :=
  running s fun t => t.writeReg r (Reg.MMAC_TX_PROD m) .w32 d.toNat mmacTxProdWrite

/-- The MAC writes a sent slot's departure time, advances MMAC_TX_CONS and sets TX_DONE (R546). -/
def execMmacTxSlotSent (m : Fin 2) (s : State) : Host.Outcome State Fault Refusal :=
  running s fun t => t.mmacTxSlotSent m

/-- A management MAC's link comes up or goes down, or the SGMII link word arrives, updating MMAC_LINK and setting LINK_CHANGE (R544). -/
def execMmacLinkChange (m : Fin 2) (up anDone : Bool) (rate : Fin 4) (s : State) : Host.Outcome State Fault Refusal :=
  running s fun t => t.mmacLinkChange m up anDone rate

/-- An MDIO_CMD with OP 0 sends a Clause 45 address frame (R548). -/
def execMdioAddress (r : Req) (c45 : Bool) (phy reg : Fin 32) (d : BitVec 16) (s : State) : Host.Outcome State Fault Refusal :=
  running s fun t => t.writeReg r Reg.MDIO_CMD .w32 (mdioWord 0 c45 phy reg d.toNat) mdioCmdWrite

/-- An MDIO_CMD with OP 1 sends a write frame (R548). -/
def execMdioWrite (r : Req) (c45 : Bool) (phy reg : Fin 32) (d : BitVec 16) (s : State) : Host.Outcome State Fault Refusal :=
  running s fun t => t.writeReg r Reg.MDIO_CMD .w32 (mdioWord 1 c45 phy reg d.toNat) mdioCmdWrite

/-- An MDIO_CMD with OP 2 sends a Clause 45 read with post-increment (R548). -/
def execMdioReadIncrement (r : Req) (c45 : Bool) (phy reg : Fin 32) (s : State) : Host.Outcome State Fault Refusal :=
  running s fun t => t.writeReg r Reg.MDIO_CMD .w32 (mdioWord 2 c45 phy reg 0) mdioCmdWrite

/-- An MDIO_CMD with OP 3 sends a read frame (R548). -/
def execMdioRead (r : Req) (c45 : Bool) (phy reg : Fin 32) (s : State) : Host.Outcome State Fault Refusal :=
  running s fun t => t.writeReg r Reg.MDIO_CMD .w32 (mdioWord 3 c45 phy reg 0) mdioCmdWrite

/-- An MDIO frame ends, BUSY clears and read data is stored (R548). -/
def execMdioFrameDone (answer : Option (BitVec 16)) (s : State) : Host.Outcome State Fault Refusal :=
  running s fun t => t.mdioDone answer

/-- A write to UART_TX queues a byte, or is discarded with TX_OVERFLOW when the FIFO is full (R550). -/
def execUartTxWrite (r : Req) (d : Half) (s : State) : Host.Outcome State Fault Refusal :=
  running s fun t => t.writeReg r (Reg.UART_TX) .w32 d.toNat uartTxWrite

/-- A read of UART_RX takes the oldest received byte from the FIFO (R550). -/
def execUartRxRead (r : Req) (s : State) : Host.Outcome State Fault Refusal :=
  running s fun t => t.readReg r Reg.UART_RX .w32 uartRxRead

/-- A received byte enters the receive FIFO, or is discarded with RX_OVERRUN, flagging FRAMING without a stop bit (R550). -/
def execUartRxByte (b : Byte) (stopBit : Bool) (s : State) : Host.Outcome State Fault Refusal :=
  running s fun t => t.uartRxByte b stopBit

/-- A byte finishes transmission and leaves the transmit FIFO (R550). -/
def execUartTxByteSent (s : State) : Host.Outcome State Fault Refusal :=
  running s fun t => t.uartByteSent

/-- A synchronised GPIO input change or level sets its PEND bit where its interrupt is enabled (R552). -/
def execGpioInputChange (levels : BitVec 32) (s : State) : Host.Outcome State Fault Refusal :=
  running s fun t => t.gpioChange levels

/-- A write of 1 to a GPIO_INT_ACK bit clears that PEND bit (R552). -/
def execGpioIntAck (r : Req) (d : Half) (s : State) : Host.Outcome State Fault Refusal :=
  running s fun t => t.writeReg r (Reg.GPIO_INT_ACK) .w32 d.toNat gpioAckWrite

/-- A write to I2C_XFER starts an I²C transaction, or is refused (R554). -/
def execI2cXfer (r : Req) (b : Fin 2) (d : Half) (s : State) : Host.Outcome State Fault Refusal :=
  running s fun t => t.writeReg r (Reg.I2C_XFER b) .w32 d.toNat i2cXferWrite

/-- An I²C transaction ends with its result, setting DONE and ERROR as it failed (R554). -/
def execI2cDone (b : Fin 2) (res : I2cResult) (acked : Nat) (bytes : List Byte) (s : State) : Host.Outcome State Fault Refusal :=
  running s fun t => t.i2cDone b res acked bytes

/-- SCL held low by a target for 25 ms releases the lines and ends the transaction as TIMEOUT (R554). -/
def execI2cSclTimeout (b : Fin 2) (s : State) : Host.Outcome State Fault Refusal :=
  running s fun t => t.i2cTimeout b

/-- A write to SPI_CMD starts a SPI NOR command, or is refused (R556). -/
def execSpiCmd (r : Req) (d : Half) (s : State) : Host.Outcome State Fault Refusal :=
  running s fun t => t.writeReg r (Reg.SPI_CMD) .w32 d.toNat spiCmdWrite

/-- A SPI NOR command ends and DONE sets (R556). -/
def execSpiDone (bytes : List Byte) (s : State) : Host.Outcome State Fault Refusal :=
  running s fun t => t.spiDone bytes

end Sys2Proof.Machine
end

