-- ==== Sys2Proof/Machine/TimeCmds.lean ====
section
/-! DEFINITION. The timebase: the meaning of each command, over the shared operations. -/

namespace Sys2Proof.Machine
open State

/-- Each FCLK Device Time advances by TB_INCR and the reference and output raster positions, SYNCOUT and PPS_OUT follow from it (R104). -/
def execFclkTick (s : State) : Host.Outcome State Fault Refusal :=
  running s fun t => t.fclkTick

/-- In the FCLK in which the reference line changes, ports send BEACONs, the manager sends HEARTBEATs and workers send STATUS (R121). -/
def execReferenceLineStart (s : State) : Host.Outcome State Fault Refusal :=
  running s fun t => t.referenceLineStart

/-- In the FCLK in which the reference frame count changes, frame-aligned gate cycles and echo rounds count (R121). -/
def execReferenceFrameStart (s : State) : Host.Outcome State Fault Refusal :=
  running s fun t => t.referenceFrameStart

/-- A TB_INCR write is clamped to ±500 ppm of nominal, setting INCR_CLAMPED when clamped, and governs from the next FCLK (R105). -/
def execTbIncrWrite (r : Req) (d : Word) (s : State) : Host.Outcome State Fault Refusal :=
  running s fun t => t.writeReg r Reg.TB_INCR .w64 d.toNat tbIncrWrite

/-- A TB_STEP write adds a signed offset to Device Time at the end of its FCLK and sets STEP_DONE (R106). -/
def execTbStep (r : Req) (d : Word) (s : State) : Host.Outcome State Fault Refusal :=
  running s fun t => t.writeReg r Reg.TB_STEP .w64 d.toNat tbStepWrite

/-- A TB_SET_NS write sets Device Time to the held SEC and FRAC with the written NS at the end of its FCLK (R106). -/
def execTbSetNs (r : Req) (d : Half) (s : State) : Host.Outcome State Fault Refusal :=
  running s fun t => t.writeReg r Reg.TB_SET_NS .w32 d.toNat tbSetNsWrite

/-- A TB_CAPTURE write copies Device Time and the reference raster position of its FCLK into the capture registers (R108). -/
def execTbCapture (r : Req) (d : Half) (s : State) : Host.Outcome State Fault Refusal :=
  running s fun t => t.writeReg r Reg.TB_CAPTURE .w32 d.toNat tbCaptureWrite

/-- A TB_REF_APPLY write arms a reference rate change for AT_FRAME, rejecting it at once if that frame is not later than the current one (R123). -/
def execTbRefApply (r : Req) (d : Word) (s : State) : Host.Outcome State Fault Refusal :=
  running s fun t => t.writeReg r Reg.TB_REF_APPLY .w64 d.toNat tbRefApplyWrite

/-- At the first FCLK at or after RP(AT_FRAME, 0, 0) the part accepts or rejects the armed reference rate change (R123). -/
def execRefChangeJudge (s : State) : Host.Outcome State Fault Refusal :=
  running s fun t => t.refChangeJudge

/-- A time source qualifies and the timebase moves to ACQUIRE on it, stepping or slewing as R118 decides (R117). -/
def execSourceQualified (src : TimeSource) (ptpPort : Fin 2) (gm : Word) (offset : Int) (s : State) : Host.Outcome State Fault Refusal :=
  running s fun t => t.sourceQualified { src := src, ptpPort := ptpPort, gm := gm, offset := offset }

/-- The selected source is lost and the timebase switches source or enters HOLDOVER (R117). -/
def execSourceLost (src : TimeSource) (s : State) : Host.Outcome State Fault Refusal :=
  running s fun t => t.sourceLost src

/-- An offset measurement against the source drives the servo and the ACQUIRE, LOCKED and unlock transitions (R117). -/
def execTimebaseMeasurement (offset : Int) (pathDelay : Nat) (s : State) : Host.Outcome State Fault Refusal :=
  running s fun t => t.measurement offset pathDelay

/-- A higher-priority source qualified for REVERT_S seconds makes the timebase return to ACQUIRE on it (R117). -/
def execSourceRevert (src : TimeSource) (ptpPort : Fin 2) (gm : Word) (offset : Int) (s : State) : Host.Outcome State Fault Refusal :=
  running s fun t => t.sourceRevert { src := src, ptpPort := ptpPort, gm := gm, offset := offset }

/-- An active REFSYNC_F edge is timestamped and measured for qualification and phase steering (R113). -/
def execRefsyncFEdge (s : State) : Host.Outcome State Fault Refusal :=
  running s fun t => t.refsyncFEdge

/-- An active REFSYNC_L edge is timestamped and counted toward the frame's line count (R114). -/
def execRefsyncLEdge (s : State) : Host.Outcome State Fault Refusal :=
  running s fun t => t.refsyncLEdge

/-- An active PPS_IN edge is timestamped against REF10M_IN for qualification and phase steering (R115). -/
def execPpsInEdge (ref10mOk : Bool) (periodNs : Nat) (s : State) : Host.Outcome State Fault Refusal :=
  running s fun t => t.ppsInEdge ref10mOk periodNs

/-- Two missing REFSYNC_F edges make REFSYNC lost (R114). -/
def execRefsyncLost (s : State) : Host.Outcome State Fault Refusal :=
  running s fun t => t.refsyncLost

/-- PPS_IN missing for 2 s, or REF10M_IN missing for 10 µs, makes PPS lost (R115). -/
def execPpsLost (s : State) : Host.Outcome State Fault Refusal :=
  running s fun t => t.ppsLost

/-- A TB_SYNCOUT_CFG write lets any pulse in progress finish and holds the pair inactive until the new source's first V pulse (R132). -/
def execSyncoutCfgWrite (r : Req) (n : Fin 4) (d : Half) (s : State) : Host.Outcome State Fault Refusal :=
  running s fun t => t.writeReg r (Reg.TB_SYNCOUT_CFG n) .w32 d.toNat syncoutWrite

end Sys2Proof.Machine
end

