-- ==== Sys2Proof/Machine/Dispatch.lean ====
section
/-! DEFINITION. The dispatch: one arm for each command, each a direct call of its meaning. -/

namespace Sys2Proof.Machine

/-- What a command does to everything but the queue of waiting commands. -/
def exec (i : Instr) (s : State) : Host.Outcome State Fault Refusal :=
  match i with
  | .registerWrite r a w d => Sys2Proof.Machine.execRegisterWrite r a w d s
  | .lowHalfRead r a => Sys2Proof.Machine.execLowHalfRead r a s
  | .lowHalfWrite r a d => Sys2Proof.Machine.execLowHalfWrite r a d s
  | .setAliasWrite r a w d => Sys2Proof.Machine.execSetAliasWrite r a w d s
  | .clearAliasWrite r a w d => Sys2Proof.Machine.execClearAliasWrite r a w d s
  | .toggleAliasWrite r a w d => Sys2Proof.Machine.execToggleAliasWrite r a w d s
  | .sequenceClear r a seq mask => Sys2Proof.Machine.execSequenceClear r a seq mask s
  | .mirrorWrite r a w d => Sys2Proof.Machine.execMirrorWrite r a w d s
  | .slowClockEdge tj nJ => Sys2Proof.Machine.execSlowClockEdge tj nJ s
  | .thermalHoldExit => Sys2Proof.Machine.execThermalHoldExit s
  | .tripRelease role index => Sys2Proof.Machine.execTripRelease role index s
  | .supplyOutOfRange rail => Sys2Proof.Machine.execSupplyOutOfRange rail s
  | .supplyRecovered rail => Sys2Proof.Machine.execSupplyRecovered rail s
  | .governorEvaluation deciWatt => Sys2Proof.Machine.execGovernorEvaluation deciWatt s
  | .pwrSnap r d => Sys2Proof.Machine.execPwrSnap r d s
  | .semAcquire r n => Sys2Proof.Machine.execSemAcquire r n s
  | .semRelease r n d => Sys2Proof.Machine.execSemRelease r n d s
  | .semForce r d => Sys2Proof.Machine.execSemForce r d s
  | .classLock r d => Sys2Proof.Machine.execClassLock r d s
  | .accessLogHeadRead r => Sys2Proof.Machine.execAccessLogHeadRead r s
  | .slotWindowWrite r slot off w d => Sys2Proof.Machine.execSlotWindowWrite r slot off w d s
  | .validate r slot => Sys2Proof.Machine.execValidate r slot s
  | .loadNvm r slot => Sys2Proof.Machine.execLoadNvm r slot s
  | .nvmCopyDone slot => Sys2Proof.Machine.execNvmCopyDone slot s
  | .clear r slot => Sys2Proof.Machine.execClear r slot s
  | .activate r slot => Sys2Proof.Machine.execActivate r slot s
  | .ingotCmdRefused r d => Sys2Proof.Machine.execIngotCmdRefused r d s
  | .validationDone slot => Sys2Proof.Machine.execValidationDone slot s
  | .swapIngot cue => Sys2Proof.Machine.execSwapIngot cue s
  | .quadIdleEnd q => Sys2Proof.Machine.execQuadIdleEnd q s
  | .hitRasterRestart m => Sys2Proof.Machine.execHitRasterRestart m s
  | .fclkTick => Sys2Proof.Machine.execFclkTick s
  | .referenceLineStart => Sys2Proof.Machine.execReferenceLineStart s
  | .referenceFrameStart => Sys2Proof.Machine.execReferenceFrameStart s
  | .tbIncrWrite r d => Sys2Proof.Machine.execTbIncrWrite r d s
  | .tbStep r d => Sys2Proof.Machine.execTbStep r d s
  | .tbSetNs r d => Sys2Proof.Machine.execTbSetNs r d s
  | .tbCapture r d => Sys2Proof.Machine.execTbCapture r d s
  | .tbRefApply r d => Sys2Proof.Machine.execTbRefApply r d s
  | .refChangeJudge => Sys2Proof.Machine.execRefChangeJudge s
  | .sourceQualified src ptpPort gm offset => Sys2Proof.Machine.execSourceQualified src ptpPort gm offset s
  | .sourceLost src => Sys2Proof.Machine.execSourceLost src s
  | .timebaseMeasurement offset pathDelay => Sys2Proof.Machine.execTimebaseMeasurement offset pathDelay s
  | .sourceRevert src ptpPort gm offset => Sys2Proof.Machine.execSourceRevert src ptpPort gm offset s
  | .refsyncFEdge => Sys2Proof.Machine.execRefsyncFEdge s
  | .refsyncLEdge => Sys2Proof.Machine.execRefsyncLEdge s
  | .ppsInEdge ref10mOk periodNs => Sys2Proof.Machine.execPpsInEdge ref10mOk periodNs s
  | .refsyncLost => Sys2Proof.Machine.execRefsyncLost s
  | .ppsLost => Sys2Proof.Machine.execPpsLost s
  | .syncoutCfgWrite r n d => Sys2Proof.Machine.execSyncoutCfgWrite r n d s
  | .rasterFrameStart m => Sys2Proof.Machine.execRasterFrameStart m s
  | .rasterFrameEnd m => Sys2Proof.Machine.execRasterFrameEnd m s
  | .rasterWaitEnd m => Sys2Proof.Machine.execRasterWaitEnd m s
  | .stp m => Sys2Proof.Machine.execStp m s
  | .ungovernedLanding => Sys2Proof.Machine.execUngovernedLanding s
  | .composeLine m => Sys2Proof.Machine.execComposeLine m s
  | .sendPosition m => Sys2Proof.Machine.execSendPosition m s
  | .resultPoint u => Sys2Proof.Machine.execResultPoint u s
  | .cueArm r slot => Sys2Proof.Machine.execCueArm r slot s
  | .cueDisarm r slot => Sys2Proof.Machine.execCueDisarm r slot s
  | .commit cue => Sys2Proof.Machine.execCommit cue s
  | .write cue => Sys2Proof.Machine.execWrite cue s
  | .startBlit cue => Sys2Proof.Machine.execStartBlit cue s
  | .signal cue => Sys2Proof.Machine.execSignal cue s
  | .loadExpect cue => Sys2Proof.Machine.execLoadExpect cue s
  | .cueCommit r mask => Sys2Proof.Machine.execCueCommit r mask s
  | .chainCueFrame link f => Sys2Proof.Machine.execChainCueFrame link f s
  | .leTouch r n d => Sys2Proof.Machine.execLeTouch r n d s
  | .leTolMinRestart r n d => Sys2Proof.Machine.execLeTolMinRestart r n d s
  | .toleranceUpdate n => Sys2Proof.Machine.execToleranceUpdate n s
  | .leBurstArrival n m a e => Sys2Proof.Machine.execLeBurstArrival n m a e s
  | .leDecodeLoad r n d => Sys2Proof.Machine.execLeDecodeLoad r n d s
  | .decodeFillDone n => Sys2Proof.Machine.execDecodeFillDone n s
  | .bcEncodeLoad r n d => Sys2Proof.Machine.execBcEncodeLoad r n d s
  | .encodeFillDone n => Sys2Proof.Machine.execEncodeFillDone n s
  | .orsUnderRestart r m d => Sys2Proof.Machine.execOrsUnderRestart r m d s
  | .btlCtrlSend r p d => Sys2Proof.Machine.execBtlCtrlSend r p d s
  | .ctrlTimeout p ch => Sys2Proof.Machine.execCtrlTimeout p ch s
  | .cackReceived p frame => Sys2Proof.Machine.execCackReceived p frame s
  | .btlEchoReq r p d => Sys2Proof.Machine.execBtlEchoReq r p d s
  | .echoRoundStart p => Sys2Proof.Machine.execEchoRoundStart p s
  | .echoReplyReceived p frame => Sys2Proof.Machine.execEchoReplyReceived p frame s
  | .echoTimeout p => Sys2Proof.Machine.execEchoTimeout p s
  | .statReceived p frame => Sys2Proof.Machine.execStatReceived p frame s
  | .btlTest r p d => Sys2Proof.Machine.execBtlTest r p d s
  | .testReplyReceived p frame => Sys2Proof.Machine.execTestReplyReceived p frame s
  | .testEnd p => Sys2Proof.Machine.execTestEnd p s
  | .btlRxDiscard p frame => Sys2Proof.Machine.execBtlRxDiscard p frame s
  | .portTxStart p billet => Sys2Proof.Machine.execPortTxStart p billet s
  | .portTxComplete p => Sys2Proof.Machine.execPortTxComplete p s
  | .portRxFrame p frame fcsOk billet => Sys2Proof.Machine.execPortRxFrame p frame fcsOk billet s
  | .crucibleRetry p => Sys2Proof.Machine.execCrucibleRetry p s
  | .linkStateChange p bits => Sys2Proof.Machine.execLinkStateChange p bits s
  | .refclkChange pair present => Sys2Proof.Machine.execRefclkChange pair present s
  | .laneCfgWrite r p d => Sys2Proof.Machine.execLaneCfgWrite r p d s
  | .queueShapeWrite r p q burst d => Sys2Proof.Machine.execQueueShapeWrite r p q burst d s
  | .queueQuantumWrite r p q d => Sys2Proof.Machine.execQueueQuantumWrite r p q d s
  | .gateCycleStart p => Sys2Proof.Machine.execGateCycleStart p s
  | .gateEntryEnd p => Sys2Proof.Machine.execGateEntryEnd p s
  | .gateSwitch r p d => Sys2Proof.Machine.execGateSwitch r p d s
  | .gateCtrlWrite r p d => Sys2Proof.Machine.execGateCtrlWrite r p d s
  | .policerApply r f d => Sys2Proof.Machine.execPolicerApply r f d s
  | .ringCfgWrite r p tx d => Sys2Proof.Machine.execRingCfgWrite r p tx d s
  | .htxProd r p d => Sys2Proof.Machine.execHtxProd r p d s
  | .queueSample p => Sys2Proof.Machine.execQueueSample p s
  | .portSampleRestart r p d => Sys2Proof.Machine.execPortSampleRestart r p d s
  | .fiEnable r p dir d => Sys2Proof.Machine.execFiEnable r p dir d s
  | .fiReorderRelease p => Sys2Proof.Machine.execFiReorderRelease p s
  | .cruRestart r d => Sys2Proof.Machine.execCruRestart r d s
  | .ingestFrame p frame => Sys2Proof.Machine.execIngestFrame p frame s
  | .flowEnable r f d => Sys2Proof.Machine.execFlowEnable r f d s
  | .flowDisable r f d => Sys2Proof.Machine.execFlowDisable r f d s
  | .ingestFrameComplete f => Sys2Proof.Machine.execIngestFrameComplete f s
  | .frameAbandonTimeout f => Sys2Proof.Machine.execFrameAbandonTimeout f s
  | .pathDown f => Sys2Proof.Machine.execPathDown f s
  | .replicaReceived p f rtp => Sys2Proof.Machine.execReplicaReceived p f rtp s
  | .ingestPacketWritten f => Sys2Proof.Machine.execIngestPacketWritten f s
  | .trainTx p => Sys2Proof.Machine.execTrainTx p s
  | .trainReceived p t => Sys2Proof.Machine.execTrainReceived p t s
  | .trainTimeout p => Sys2Proof.Machine.execTrainTimeout p s
  | .timeExchangeStart link => Sys2Proof.Machine.execTimeExchangeStart link s
  | .timeRequestReceived p epoch t1 => Sys2Proof.Machine.execTimeRequestReceived p epoch t1 s
  | .timeReplyReceived link epoch t1 t2 t3 t4 => Sys2Proof.Machine.execTimeReplyReceived link epoch t1 t2 t3 t4 s
  | .chainTimeLost => Sys2Proof.Machine.execChainTimeLost s
  | .heartbeatReceived p h => Sys2Proof.Machine.execHeartbeatReceived p h s
  | .statusReceived p src => Sys2Proof.Machine.execStatusReceived p src s
  | .peerLost n => Sys2Proof.Machine.execPeerLost n s
  | .takeover => Sys2Proof.Machine.execTakeover s
  | .chainTakeover r d => Sys2Proof.Machine.execChainTakeover r d s
  | .tunnelRequest r a w wr d => Sys2Proof.Machine.execTunnelRequest r a w wr d s
  | .tunnelRequestReceived p t => Sys2Proof.Machine.execTunnelRequestReceived p t s
  | .tunnelResponse x error d => Sys2Proof.Machine.execTunnelResponse x error d s
  | .tunnelTimeout id => Sys2Proof.Machine.execTunnelTimeout id s
  | .doorbellReceived p src => Sys2Proof.Machine.execDoorbellReceived p src s
  | .chainHostFrame p frame => Sys2Proof.Machine.execChainHostFrame p frame s
  | .chainFrameDiscard p => Sys2Proof.Machine.execChainFrameDiscard p s
  | .bltProdWrite r b d => Sys2Proof.Machine.execBltProdWrite r b d s
  | .descriptorRead b => Sys2Proof.Machine.execDescriptorRead b s
  | .fill b => Sys2Proof.Machine.execFill b s
  | .copy b => Sys2Proof.Machine.execCopy b s
  | .convert b => Sys2Proof.Machine.execConvert b s
  | .descriptorComplete b => Sys2Proof.Machine.execDescriptorComplete b s
  | .bltResume r b d => Sys2Proof.Machine.execBltResume r b d s
  | .bltCtrlWrite r b d => Sys2Proof.Machine.execBltCtrlWrite r b d s
  | .bltRingCfgWrite r b base d => Sys2Proof.Machine.execBltRingCfgWrite r b base d s
  | .sigExpectWrite r u d => Sys2Proof.Machine.execSigExpectWrite r u d s
  | .mcuExpectWrite r m d => Sys2Proof.Machine.execMcuExpectWrite r m d s
  | .mcuGo r m d => Sys2Proof.Machine.execMcuGo r m d s
  | .mcuRunEnd m => Sys2Proof.Machine.execMcuRunEnd m s
  | .prechargePowerDownEntry c => Sys2Proof.Machine.execPrechargePowerDownEntry c s
  | .selfRefreshEntry c => Sys2Proof.Machine.execSelfRefreshEntry c s
  | .lowPowerExit c => Sys2Proof.Machine.execLowPowerExit c s
  | .refresh c => Sys2Proof.Machine.execRefresh c s
  | .caParityAlert c => Sys2Proof.Machine.execCaParityAlert c s
  | .wrCrcAlert c => Sys2Proof.Machine.execWrCrcAlert c s
  | .mcReadComplete c a e scrub => Sys2Proof.Machine.execMcReadComplete c a e scrub s
  | .mcScrubPassDone c => Sys2Proof.Machine.execMcScrubPassDone c s
  | .mcRefreshWrite r c d => Sys2Proof.Machine.execMcRefreshWrite r c d s
  | .slabScrubPassDone => Sys2Proof.Machine.execSlabScrubPassDone s
  | .slabRetentionEntry bank => Sys2Proof.Machine.execSlabRetentionEntry bank s
  | .plicClaim r ctx => Sys2Proof.Machine.execPlicClaim r ctx s
  | .plicComplete r ctx d => Sys2Proof.Machine.execPlicComplete r ctx d s
  | .machineTimerInterrupt k => Sys2Proof.Machine.execMachineTimerInterrupt k s
  | .coreRelease r d => Sys2Proof.Machine.execCoreRelease r d s
  | .coreReset r d => Sys2Proof.Machine.execCoreReset r d s
  | .lockstepMismatch => Sys2Proof.Machine.execLockstepMismatch s
  | .mbMsgWrite r n w d => Sys2Proof.Machine.execMbMsgWrite r n w d s
  | .mbSend r n d => Sys2Proof.Machine.execMbSend r n d s
  | .mbAck r n d => Sys2Proof.Machine.execMbAck r n d s
  | .mbDone r n d => Sys2Proof.Machine.execMbDone r n d s
  | .mbAckTimeout n => Sys2Proof.Machine.execMbAckTimeout n s
  | .mbBindLock r d => Sys2Proof.Machine.execMbBindLock r d s
  | .mmacCfgWrite r m d => Sys2Proof.Machine.execMmacCfgWrite r m d s
  | .mmacRxFrame m frame fcsOk => Sys2Proof.Machine.execMmacRxFrame m frame fcsOk s
  | .mmacTxProd r m d => Sys2Proof.Machine.execMmacTxProd r m d s
  | .mmacTxSlotSent m => Sys2Proof.Machine.execMmacTxSlotSent m s
  | .mdioAddress r c45 phy reg d => Sys2Proof.Machine.execMdioAddress r c45 phy reg d s
  | .mdioWrite r c45 phy reg d => Sys2Proof.Machine.execMdioWrite r c45 phy reg d s
  | .mdioReadIncrement r c45 phy reg => Sys2Proof.Machine.execMdioReadIncrement r c45 phy reg s
  | .mdioRead r c45 phy reg => Sys2Proof.Machine.execMdioRead r c45 phy reg s
  | .mdioFrameDone answer => Sys2Proof.Machine.execMdioFrameDone answer s
  | .uartTxWrite r d => Sys2Proof.Machine.execUartTxWrite r d s
  | .uartRxRead r => Sys2Proof.Machine.execUartRxRead r s
  | .uartRxByte b stopBit => Sys2Proof.Machine.execUartRxByte b stopBit s
  | .uartTxByteSent => Sys2Proof.Machine.execUartTxByteSent s
  | .gpioInputChange levels => Sys2Proof.Machine.execGpioInputChange levels s
  | .gpioIntAck r d => Sys2Proof.Machine.execGpioIntAck r d s
  | .i2cXfer r b d => Sys2Proof.Machine.execI2cXfer r b d s
  | .i2cDone b res acked bytes => Sys2Proof.Machine.execI2cDone b res acked bytes s
  | .i2cSclTimeout b => Sys2Proof.Machine.execI2cSclTimeout b s
  | .spiCmd r d => Sys2Proof.Machine.execSpiCmd r d s
  | .spiDone bytes => Sys2Proof.Machine.execSpiDone bytes s
  | .dmActivated => Sys2Proof.Machine.execDmActivated s
  | .debugHaltRequest k => Sys2Proof.Machine.execDebugHaltRequest k s
  | .dbgLock r d => Sys2Proof.Machine.execDbgLock r d s
  | .nvmKey r d => Sys2Proof.Machine.execNvmKey r d s
  | .nvmStore r d => Sys2Proof.Machine.execNvmStore r d s
  | .storeDone verified => Sys2Proof.Machine.execStoreDone verified s
  | .nvmReadSel r d => Sys2Proof.Machine.execNvmReadSel r d s
  | .warmReset r => Sys2Proof.Machine.execWarmReset r s
  | .keeperReset r => Sys2Proof.Machine.execKeeperReset r s
  | .watchdogExpiry => Sys2Proof.Machine.execWatchdogExpiry s
  | .kwdtKick r d => Sys2Proof.Machine.execKwdtKick r d s
  | .powerOnReset pwrGood resetN => Sys2Proof.Machine.execPowerOnReset pwrGood resetN s
  | .resetRelease role index => Sys2Proof.Machine.execResetRelease role index s
  | .firmwareStart spiFirmware spiParams => Sys2Proof.Machine.execFirmwareStart spiFirmware spiParams s
  | .ddrTrainingDone failed => Sys2Proof.Machine.execDdrTrainingDone failed s
  | .appImageLoaded image => Sys2Proof.Machine.execAppImageLoaded image s
  | .registerRead r a w => Sys2Proof.Machine.execRegisterRead r a w s
  | .mmacLinkChange m up anDone rate => Sys2Proof.Machine.execMmacLinkChange m up anDone rate s
  | .debugResume k => Sys2Proof.Machine.execDebugResume k s
  | .dmDeactivated => Sys2Proof.Machine.execDmDeactivated s

end Sys2Proof.Machine
end

