-- ==== Sys2Proof/WellFormed.lean ====
section
/-! DEFINITION. Which commands are well formed: operands that the rules bound and that their types do not. The meaning of
a command is total and does not ask for well-formedness; a sender that keeps to the spec sends only these. -/

namespace Sys2Proof

/-- Bytes of an access. -/
def Width.bytes (w : Width) : Nat :=
  match w with | .w8 => 1 | .w16 => 2 | .w32 => 4 | .w64 => 8

/-- Write data has no bit beyond the width of its access. -/
def dataFits (w : Width) (d : Word) : Bool := decide (d.toNat < 256 ^ w.bytes)

/-- The address is one of the register space, in the normal view of its block (R36, R38). -/
def normalView (a : Addr) : Bool := a.toNat / 2 ^ 28 == 0xF00 && a.toNat / 2 ^ 18 % 4 == 0

/-- The length of a frame that a MAC passes on (R364, R544). -/
def frameFits (frame : List Byte) : Bool := decide (64 ≤ frame.length) && decide (frame.length ≤ 9216)

/-- A reference rate and line count that R120 allows. -/
def rateFits (n d l : Nat) : Bool :=
  decide (1 ≤ n) && decide (n ≤ 2 ^ 20) && decide (1 ≤ d) && decide (d ≤ 2 ^ 20) &&
  decide (24000 * d ≤ 1001 * n) && decide (n ≤ 240 * d) && decide (1 ≤ l) && decide (l ≤ 65535)

/-- A forwarded cue (R445): a chain slot, and the 32 bytes of an arm. -/
def CueFrame.wf (f : CueFrame) : Bool :=
  decide (7680 ≤ f.slot.val) && (match f.contents with | some b => b.length == 32 | none => true)

/-- Are a command's operands within the bounds of its rules? -/
def Instr.wf (i : Instr) : Bool :=
  match i with
  | .registerWrite _ _ w d => dataFits w d
  | .mirrorWrite _ a w d => dataFits w d && normalView a
  | .setAliasWrite _ a w d => dataFits w d && normalView a
  | .clearAliasWrite _ a w d => dataFits w d && normalView a
  | .toggleAliasWrite _ a w d => dataFits w d && normalView a
  | .lowHalfRead _ a => normalView a && a.toNat % 8 == 0
  | .lowHalfWrite _ a _ => normalView a && a.toNat % 8 == 0
  | .sequenceClear _ a _ _ => normalView a && a.toNat % 4 == 0
  | .slotWindowWrite _ _ off w d =>
    dataFits w d && (w == .w32 || w == .w64) && off.val % w.bytes == 0
  | .slowClockEdge tj nJ => tj.length == 16 && nJ.length == 8
  | .leBurstArrival _ _ a _ => a.toNat % 256 == 0
  | .mcReadComplete c a _ _ => a.toNat / 256 % 16 == c.val
  | .chainCueFrame _ f => f.wf
  | .heartbeatReceived _ h => rateFits h.n h.d h.lRef
  | .tunnelRequest _ a w _ d => a.toNat / 2 ^ 36 == 0xC && dataFits w d
  | .tunnelRequestReceived _ t => dataFits t.width t.data
  | .cackReceived _ frame => frameFits frame
  | .echoReplyReceived _ frame => frameFits frame
  | .statReceived _ frame => frameFits frame
  | .testReplyReceived _ frame => frameFits frame
  | .btlRxDiscard _ frame => frameFits frame
  | .ingestFrame _ frame => frameFits frame
  | .chainHostFrame _ frame => frameFits frame
  | .i2cDone _ _ acked bytes => decide (acked ≤ 16) && decide (bytes.length ≤ 16)
  | .spiDone bytes => decide (bytes.length ≤ 256)
  | _ => true

end Sys2Proof
end

