-- ==== Sys2Proof/Safety.lean ====
section
/-! DEFINITION. What the statements are said with: the states in which commands act, the canonical form, accesses that
pass, and what a command leaves unchanged. -/

namespace Sys2Proof.Machine
namespace State

/-- The part is not held in reset (R571, R593, R612). -/
def Up (s : State) : Prop := s.aon.hold = .free

/-- The canonical form of a state: memory and the two register tables list their keys in strictly rising order, and
memory lists no zero byte (log entry 5). -/
def canonical (s : State) : Bool := Memory.wf s.mem && Tab.wf s.regs && Tab.wf s.live

/-- Is no access of this requester judged: it issues none (R2, R56, R442, R502, R558), or it is the debug module with SBA_EN
at 0 (R558)? -/
def mute (s : State) (r : Req) : Bool := s.silent r || (r.master.val == 16 && !s.fb Reg.DBG_CTRL_SBA_EN)

/-- Does an access pass R44 and reach the whole register at address a through the normal view? -/
def passes (s : State) (r : Req) (a : Nat) (w : Width) (wr : Bool) : Bool :=
  !s.mute r &&
  match s.judge r a w wr with
  | .ok (.reg x .normal .whole) => x.addr == a
  | _ => false

/-- From s to t the requester r was answered with x, and no other master was answered. -/
def Told (r : Req) (x : Resp) (s t : State) : Prop := t.bus.resp = Tab.put s.bus.resp r.master.val x

/-- From s to t an access of r was served, and answered d. -/
def Answered (r : Req) (d : Nat) (s t : State) : Prop := Told r { kind := .done, data := BitVec.ofNat 64 d, cause := 0 } s t

/-! ### What stays -/

/-- Every byte of memory reads in t as in s. -/
def SameMem (s t : State) : Prop := ∀ a, Mem.read t.mem a = Mem.read s.mem a

/-- Every register but those at the addresses of as reads in t as in s, in the normal view. -/
def RegsBut (as : List Nat) (s t : State) : Prop := ∀ a, a ∉ as → t.reg a = s.reg a

/-- Every slow-domain value but those of the registers at as is in t as in s. -/
def SlowBut (as : List Nat) (s t : State) : Prop := ∀ a, a ∉ as → t.slowReg a = s.slowReg a

/-- Every live value but those of the registers at as is in t as in s. -/
def LiveBut (as : List Nat) (s t : State) : Prop := ∀ a, a ∉ as → t.lreg a = s.lreg a

/-- From s to t nothing changed but the registers at the addresses of as, the answer to the master, and the record of
this cycle's set events. -/
def OnlyRegs (as : List Nat) (s t : State) : Prop :=
  t = { s with regs := t.regs, cycle := t.cycle, bus := { s.bus with resp := t.bus.resp } } ∧
  RegsBut as s t ∧ SameMem s t

/-- The same, where holding and staging registers may be emptied too (R48). -/
def OnlyWide (as : List Nat) (s t : State) : Prop :=
  t = { s with regs := t.regs, cycle := t.cycle,
               bus := { s.bus with resp := t.bus.resp, hold := t.bus.hold, stage := t.bus.stage } } ∧
  RegsBut as s t ∧ SameMem s t

/-- From s to t nothing changed but the registers at the addresses of as and the record of this cycle's set events. -/
def OnlyEvent (as : List Nat) (s t : State) : Prop :=
  t = { s with regs := t.regs, cycle := t.cycle } ∧ RegsBut as s t ∧ SameMem s t

/-- From s to t nothing changed at all. -/
def Nothing (s t : State) : Prop := t = s

/-! ### Set events -/

/-- From s to t the flags fl of the status register at a were set, or none at all where fl is empty: SEQ counts a set event,
one in each cycle of its block however many set flags in it, and every other flag is as it was (R52). -/
def Raised (a : Nat) (fl : List Nat) (s t : State) : Prop :=
  (∀ b, b < 16 → t.flagSet a b = (s.flagSet a b || fl.contains b)) ∧
  bits (t.reg a).toNat 31 16 =
    if fl = [] ∨ s.cycle.contains a = true then bits (s.reg a).toNat 31 16 else (bits (s.reg a).toNat 31 16 + 1) % 65536

/-- The same of a status register of the slow domain. -/
def SlowRaised (a : Nat) (fl : List Nat) (s t : State) : Prop :=
  (∀ b, b < 16 → bit (t.slowReg a).toNat b = (bit (s.slowReg a).toNat b || fl.contains b)) ∧
  bits (t.slowReg a).toNat 31 16 =
    if fl = [] ∨ s.cycle.contains a = true then bits (s.slowReg a).toNat 31 16
    else (bits (s.slowReg a).toNat 31 16 + 1) % 65536

/-! ### Ingot slots -/

/-- From s to t slot i has left VALID, ACTIVE and RETIRING: its ID and GEN read zero, no slot is SWAPPABLE, the other slot
keeps its state, and no other register changed but ALERT_N's causes (R85, R100). -/
def SlotLeft (i : Nat) (s t : State) : Prop :=
  t.reg (Reg.INGOT_SLOT_ID i) = 0 ∧ t.reg (Reg.INGOT_SLOT_GEN i) = 0 ∧
  (∀ k : Fin 2, t.f (Reg.INGOT_SLOT_STATE_SWAPPABLE k) = 0) ∧
  (∀ k : Fin 2, k.val ≠ i → t.slotState k = s.slotState k) ∧
  RegsBut [Reg.INGOT_SLOT_STATE 0, Reg.INGOT_SLOT_STATE 1, Reg.INGOT_SLOT_ID i, Reg.INGOT_SLOT_GEN i] s t ∧
  SlowBut [Reg.PWR_ALERT] s t

/-! ### The timebase -/

/-- From s to t the timebase has entered ACQUIRE on a source (R117, R118), with the flags more beside those of the entry,
and nothing else happened but to the list of qualified sources. -/
def Acquired (q : Qualified) (more : List Nat) (s t : State) : Prop :=
  let old := s.f Reg.TB_STATE_SOURCE
  let moves := s.time.acquired = false ∨
    (s.fb Reg.TB_LOCK_CFG_STEP_EN = true ∧ 1000 * s.f Reg.TB_LOCK_CFG_STEP_US < q.offset.natAbs)
  t.f Reg.TB_STATE_STATE = 1 ∧ t.f Reg.TB_STATE_SOURCE = sourceNum q.src ∧ t.f Reg.TB_HOLDOVER_S_SECONDS = 0 ∧
  (q.src = .ptp → t.f Reg.TB_STATE_PTP_PORT = q.ptpPort ∧ t.reg Reg.TB_GM_ID = q.gm) ∧
  (q.src ≠ .ptp → t.f Reg.TB_STATE_PTP_PORT = s.f Reg.TB_STATE_PTP_PORT ∧ t.reg Reg.TB_GM_ID = s.reg Reg.TB_GM_ID) ∧
  Raised Reg.TIMEBASE_BLOCK_STATUS
    (more ++ [Flag.TIMEBASE_STATE_CHANGE] ++ (if old ≠ 0 ∧ old ≠ sourceNum q.src then [Flag.TIMEBASE_SOURCE_SWITCH] else []) ++
      (if moves then [Flag.TIMEBASE_STEP_DONE] else [])) s t ∧
  t.time.ops = (if moves then addTimeOp s.time.ops 0 (.step (-q.offset * 65536)) else s.time.ops) ∧ t.time.acquired = true ∧
  t.time.slew = (if moves then none else some (s.f Reg.TB_INCR_INCR)) ∧
  t.time.history.head? = some (s.time.followed, s.f Reg.TB_INCR_INCR) ∧ t.time.inRow = 0 ∧
  RegsBut [Reg.TB_STATE, Reg.TB_HOLDOVER_S, Reg.TB_GM_ID, Reg.TIMEBASE_BLOCK_STATUS] s t ∧
  t = { s with regs := t.regs, cycle := t.cycle,
               time := { s.time with sources := t.time.sources, ops := t.time.ops, acquired := t.time.acquired, inRow := 0,
                                     slew := t.time.slew, history := t.time.history } }

/-! ### Raster frames -/

/-- From s to t every armed cue whose raster, as it stands in t, has reached or passed its position has come due in the
FCLK of t, and every other cue is as it was (R144, R147). -/
def CuesCome (s t : State) : Prop :=
  ∀ i x, Tab.find s.cues i = some x →
    (let isDue := x.due = none ∧ t.cuePasses x.raster = true ∧
       ∃ p, t.cuePos x.raster = some p ∧ RP.le ⟨x.f, x.l, x.t⟩ p = true
     (isDue → Tab.find t.cues i = some { x with due := some t.fclk }) ∧ (¬ isDue → Tab.find t.cues i = some x))

/-- From s to t raster m has begun frame k of its sequence (R125, R131, R144, R237, R290, R300, R302, R332): the frame
stands at its first position under the live timing, with the entries, the plan and the decision taken at the last STP, or,
on the first frame since the raster was enabled, with the live entries and plans, sent; nothing of it has been composed, where it is
sent its engines' fetch runs under its plan, anew where that before ran under another (log entry 133), and cues have come due with
it. No other raster, no port and no memory changed. -/
def FrameBegun (m k : Nat) (s t : State) : Prop :=
  let r := s.raster m
  let x := t.raster m
  let plans := match r.mode with | .unstarted _ => s.takePlans m | _ => r.plansNext
  x = { r with
    mode := .run, frame := k, pos := 0, acc := 0, tim := s.liveTiming m, passed := true,
    alive := if r.passed then (r.alive + 1) % 256 else 0, stpDone := false, composed := 0, sendDone := false,
    sentCur := (!r.passed || r.sentNext) && !s.thermalHold, heldCur := r.passed && r.heldNext,
    entCur := if r.passed then r.entNext else s.liveEntries.filter fun e => e.raster == m,
    plansNext := plans, plan := plans.getD (k % max 1 (s.liveTiming m).sub) (0x1000FFFF, 0, 0),
    pass := x.pass, passes := x.passes, underCounted := false, deadRaised := false, thermal := s.thermalHold, seqs := [], blocks := 0,
    vTail := x.vTail, stall := x.stall, shift := x.shift, settling := x.settling, forceDirty := x.forceDirty } ∧
  (r.mode = .run ∨ (∃ j, r.mode = .ready j) → x.vTail = pulseTail r) ∧
  (x.sentCur = true → x.pass.map Pass.plan = some x.plan) ∧
  ((x.pass = r.pass ∧ x.passes = r.passes) ∨ (x.pass = none ∧ x.passes = r.passes) ∨
    (x.passes = r.passes + 1 ∧ ∀ p, x.pass = some p → p.no = x.passes)) ∧
  CuesCome s t ∧ (∀ j, j ≠ m → t.raster j = s.raster j) ∧ t.ports = s.ports ∧ t.mem = s.mem

/-- Does the fetch of raster m in s run under the plan with which it begins a frame in t, or is that frame not sent? -/
def FetchGoesOn (m : Nat) (s t : State) : Prop :=
  (t.raster m).sentCur = false ∨ (s.raster m).pass.map Pass.plan = some (t.raster m).plan

/-! ### Landings -/

/-- The addresses, from the first up to the second, at which commit unit u holds its shadowed registers (R151, R154). -/
def unitSpans (u : Nat) : List (Nat × Nat) :=
  if u < 32 then
    let le := 0xF001000000 + u * 0x100000
    let mesh := 0xF003800000
    [(le + 0x14, le + 0x40), (le + 0x80, le + 0xD0), (le + 0x10000, le + 0x1C000),
     (mesh + 0x100 + 0x40 * u, mesh + 0x128 + 0x40 * u), (mesh + 0x8000 + 0x1C00 * u, mesh + 0x8000 + 0x1C00 * (u + 1))]
  else if u < 40 then
    let bc := 0xF003000000 + (u - 32) * 0x100000
    [(bc + 0x20, bc + 0x600), (bc + 0x800, bc + 0xA10), (bc + 0x10000, bc + 0x28000)]
  else
    let ors := 0xF004000000 + (u - 40) * 0x100000
    [(ors + 0x18, ors + 0x38)]

/-- Is the register at address a one of unit u? -/
def UnitHolds (u a : Nat) : Prop := ∃ x ∈ unitSpans u, x.1 ≤ a ∧ a < x.2

/-- Is a the address of a byte of the live copy of a Tile Map entry that belongs, in s, to the raster of a unit of us (R289)? -/
def EntryHeld (s : State) (us : List Nat) (a : Nat) : Prop :=
  ∃ u ∈ us, 40 ≤ u ∧ ∃ e ∈ s.belongs (u - 40), 0xE800100000 + 16 * e ≤ a ∧ a < 0xE800100000 + 16 * e + 16

/-- From s to t every shadow of the units us has become live, and every Tile Map entry that belongs to a raster of theirs; every
other live value, and every other byte, is as it was (R151, R289). -/
def Transferred (us : List Nat) (s t : State) : Prop :=
  (∀ u ∈ us, ∀ a, UnitHolds u a → t.lreg a = s.reg a) ∧ (∀ a, (∀ u ∈ us, ¬ UnitHolds u a) → t.lreg a = s.lreg a) ∧
  (∀ a, EntryHeld s us a → Mem.read t.mem a = Mem.read s.mem (a - 0x100000)) ∧
  (∀ a, ¬ EntryHeld s us a → Mem.read t.mem a = Mem.read s.mem a)

/-- The cause that rejects a landing of the units us; 0 where none does (R157). -/
def causeOf (s : State) (us : List Nat) (governed : Bool) : Nat :=
  let t := s.transferAll us
  let ms := (us.filter fun u => decide (40 ≤ u)).map (· - 40)
  if s.landCause t governed ms ≠ 0 then s.landCause t governed ms
  else if (s.unitReject t governed us).1 = true then 6 else 0

/-- From s to t the units us came to their landing (R155, R157 to R160). Where no cause rejects it, every shadow of theirs is
transferred; where one does, nothing is, and COMMIT_REJECTED is set. Either way they are no longer pending, unless a commit of the
landing's own FCLK names them. A commit that stands alone, with all its units among them, ends LANDED or REJECTED with the
cause; its RASTER and FRAME are ras and frame. -/
def Landing (us : List Nat) (governed : Bool) (ras frame : Nat) (s t : State) : Prop :=
  let cause := s.causeOf us governed
  (us = [] → t.live = s.live ∧ t.mem = s.mem ∧ t.commits = s.commits ∧
    ∀ k, t.reg (Reg.CUE_COMMIT_STATUS k) = s.reg (Reg.CUE_COMMIT_STATUS k)) ∧
  (us ≠ [] → cause = 0 → Transferred us s t) ∧
  (us ≠ [] → cause ≠ 0 → t.live = s.live ∧ t.mem = s.mem ∧ t.flagSet Reg.CUE_BLOCK_STATUS Flag.CUE_COMMIT_REJECTED = true) ∧
  (∀ u, u < 56 → bit (t.f Reg.CUE_COMMIT_PENDING_MASK) u =
    (bit (s.f Reg.CUE_COMMIT_PENDING_MASK) u &&
      (!us.contains u || s.commits.any fun c => decide (s.fclk ≤ c.fclk) && bit c.units u))) ∧
  (∀ c : Commit, s.commits = [c] → c.landed = false → c.rejected = false → us ≠ [] → (∀ u ∈ unitsOf c.units, u ∈ us) →
    s.f (Reg.CUE_COMMIT_STATUS_SEQ (c.seq % 256)) = c.seq →
    t.commits = [] ∧ t.f (Reg.CUE_COMMIT_STATUS_STATE (c.seq % 256)) = (if cause = 0 then 2 else 4) ∧
    t.f (Reg.CUE_COMMIT_STATUS_RASTER (c.seq % 256)) = ras ∧ t.f (Reg.CUE_COMMIT_STATUS_FRAME (c.seq % 256)) = frame % 2 ^ 32 ∧
    (cause ≠ 0 → t.f (Reg.CUE_COMMIT_STATUS_CAUSE (c.seq % 256)) = cause))

/-! ### Cues -/

/-- Memory reads in t as in s but for the status entry of cue slot i. -/
def EntryBut (i : Nat) (s t : State) : Prop :=
  ∀ a, (a < cueEntry i ∨ cueEntry i + 16 ≤ a) → Mem.read t.mem a = Mem.read s.mem a

/-- The cue x of slot i runs an action of a kind in this FCLK (R29, R144, R145): it has come due, and no cue due before it
waits; fewer than 32 cues have run in this FCLK; no raster stands at an STP that is still to be taken; the slot reads without
an uncorrectable error. -/
def CueRuns (i kind : Nat) (x : ArmedCue) (s : State) : Prop :=
  Tab.find s.cues i = some x ∧ (∃ d, x.due = some d ∧ s.cueFirst i d = true) ∧ s.cueAction i = kind ∧ s.ran < 32 ∧
  (∀ m, m < 16 → s.atStp m = false) ∧ s.poisoned (cueSlot i) 32 = false

/-- From s to t the cue x of slot i has run (R139, R142, R143, R146): it ends FAILED where its action failed, else DONE
LATE where it was late, else DONE; a periodic cue stays armed for a later frame instead. there: its raster is there after
the action; where it is not, R148 ends the cue. -/
def CueDone (i : Nat) (x : ArmedCue) (there failed : Prop) (s t : State) : Prop :=
  t.ran = s.ran + 1 ∧
  (there →
    (x.period = 0 ∨ x.once = true →
      (failed → t.cueState i = 5) ∧ (¬ failed → t.cueState i = if x.late then 3 else 2)) ∧
    (x.period ≠ 0 → x.once = false → ∃ k, 1 ≤ k ∧ ∃ st,
      (failed → st = 5) ∧ (¬ failed → st = if x.late then 3 else 2) ∧
      Tab.find t.cues i = some { x with f := x.f + x.period * k, due := none, late := false, ranIn := some (s.fclk, st) }))

/-! ### Frames -/

/-- The registers that queueing a frame in Q q of port p may change: the Crucible's, and those of a drop (R376 to R378). -/
def queueRegs (p q : Nat) : List Nat :=
  [Reg.CRU_PORT p, Reg.CRU_SHARED, Reg.CRU_FREE, Reg.CRUCIBLE_BLOCK_STATUS, Reg.QUEUE_DROPS p q, Reg.PORT_STATUS p]

/-- The registers that a received frame's leaving the Crucible may change. -/
def billetRegs (p : Nat) : List Nat := [Reg.CRU_PORT p, Reg.CRU_SHARED, Reg.CRU_FREE, Reg.CRUCIBLE_BLOCK_STATUS]

/-- From s to t frame x stands last in Q q of port p; where it goes next there, and is longer than every window of the queue, it is
dropped at once (R374), and frames held by REORDER that would go next then are judged in turn. -/
def Pushed (p q : Nat) (x : Frame) (s t : State) : Prop :=
  let old := (s.port p).queues.getD q []
  if (old.all isHeld && s.oversize p q x) = true then
    (∃ n, (t.port p).queues = (s.port p).queues.set q (old.drop n)) ∧ (old = [] → (t.port p).queues = (s.port p).queues.set q [])
  else (t.port p).queues = (s.port p).queues.set q (old ++ [{ x with since := s.tq }])

/-- From s to t frame x was given to Q q of port p (R376 to R378): it stands last in the queue where the Crucible admits
it; else it waits to be judged again, if its kind does, and the queue is as before. -/
def Queued (p q : Nat) (x : Frame) (s t : State) : Prop :=
  if s.cruAdmits p (billetsOf x.length) (q == 7) = true then
    Pushed p q x s t ∧ (t.port p).retry = (s.port p).retry
  else
    (t.port p).queues = (s.port p).queues ∧
    (t.port p).retry = (s.port p).retry ++ (if waitsForBillets x.kind then [(q, x)] else [])

/-- From s to t the echo request of port p to a tile was given to Q7 (R337, R338). The raster that it carries is that of the
tile's first live entry on the port; of a tile without one it is open (log entry 12). -/
def EchoQueued (p tile seq : Nat) (s t : State) : Prop :=
  ∃ m, (∀ e, (s.liveEntries.find? fun e => e.tile == tile && e.ports.contains p) = some e → m = e.raster) ∧
    Queued p 7 { kind := .echo m tile seq, body := List.replicate 48 0, fold := List.replicate 8 0 } s t

/-- From s to t a TIME, CUE or TUNNEL frame of an epoch that the part obeys was seen: a newer one is the part's from now on, but one
that would depose it (R450, log entry 134). -/
def EpochSeen (e : Nat) (s t : State) : Prop :=
  t.f Reg.CHAIN_STATE_EPOCH = if s.f Reg.CHAIN_STATE_EPOCH < e ∧ s.deposes e = false then e else s.f Reg.CHAIN_STATE_EPOCH

/-- From s to t an echo reply, the frame, under AUTO 1 has brought the delay v of a tile (R338): its write stands behind those
that wait for channel 1, which starts the first of them where it is free, and then the next tile of the round is asked. What is
queued is judged once the reply's Billets are free. -/
def DelayWritten (p : Nat) (frame : List Byte) (tile v : Nat) (s t : State) : Prop :=
  let all := (s.port p).delays ++ [(tile, v)]
  let s0 := s.takeRx p frame
  let c (x : Nat × Nat) : Ctrl :=
    { tile := x.1, seq := 2 ^ 31 + (s.port p).ctrlSeq, addr := 4, payload := leBytes 4 x.2, tries := 1 }
  let free := ((s.port p).ctrl.getD 1 none).isNone
  let asked (u : State) : Prop :=
    ((s.port p).round = [] →
      (t.port p).echo = none ∧ (t.port p).round = [] ∧ (t.port p).queues = (u.port p).queues) ∧
    (∀ y ys, (s.port p).round = y :: ys →
      (t.port p).echo = some { tile := y, seq := (s.port p).echoSeq, t1 := none } ∧ (t.port p).round = ys ∧
      EchoQueued p y (s.port p).echoSeq u t)
  (free = false → (t.port p).delays = all ∧ (t.port p).ctrl = (s.port p).ctrl ∧ asked s0) ∧
  (free = true → ∀ x rest, all = x :: rest →
    (let u := s0.startCtrl p 1 x.1 4 (leBytes 4 x.2)
     (t.port p).delays = rest ∧ (t.port p).ctrl = (s.port p).ctrl.set 1 (some (c x)) ∧
     Queued p 6 (ctrlFrame 1 (c x)) s0 u ∧ asked u))

/-- Does the host receive ring of port p take no frame: it is off, or full (R383)? -/
def ringFull (s : State) (p : Nat) : Bool :=
  !s.fb (Reg.HRX_CFG_EN p) ||
    (s.f (Reg.HRX_PROD_INDEX p) + 2 ^ 32 - s.f (Reg.HRX_CONS_INDEX p)) % 2 ^ 32 == s.f (Reg.HRX_CFG_SLOTS p)

/-! ### The order of R365 to R367 -/

/-- Does a queue of the deficit group start its head after n quanta (R367)? -/
def Fits (s : State) (p j n : Nat) : Prop :=
  s.eligible p j = true ∧
  ∃ x, s.headOf p j = some x ∧ s.txLength p x ≤ min (s.f (Reg.QUEUE_COUNTS_DEFICIT p j) + n * s.quantum p j) 0xFFFFFFFF

/-- The place of a deficit queue's n-th quantum in the order in which quanta are given: in rounds, in ascending order from the
queue in turn on, or from the one behind it where its turn has begun (R367). -/
def place (s : State) (p j n : Nat) : Nat := 5 * n + (j + 10 - (s.turnOf p + if (s.port p).granted then 1 else 0)) % 5

/-- Queue q of port p starts the next frame, after k quanta where it is in the deficit group (R365, R367): the highest eligible of
Q7 to Q5; else the queue whose turn goes on; else the one whose head is the first to fit. -/
def Chosen (s : State) (p q k : Nat) : Prop :=
  (5 ≤ q ∧ q < 8 ∧ k = 0 ∧ s.eligible p q = true ∧ ∀ j, q < j → j < 8 → s.eligible p j = false) ∨
  (q < 5 ∧ (∀ j, 5 ≤ j → j < 8 → s.eligible p j = false) ∧
    (let goesOn := (s.port p).granted = true ∧ s.Fits p (s.turnOf p) 0
     (goesOn ∧ q = s.turnOf p ∧ k = 0) ∨
     (¬ goesOn ∧ 1 ≤ k ∧ s.Fits p q k ∧ ∀ j, j < 5 → ∀ n, 1 ≤ n → s.Fits p j n → s.place p q k ≤ s.place p j n)))

/-- What the transmit injector does to frame x of queue q, which it judges once (R386). -/
def injectedInto (s : State) (p q : Nat) (x : Frame) : Option Nat := if x.judged then none else (s.inject p 0 x.btlType q).1

/-- From s to t queue q of port p became l, a frame that goes next then is judged (R374), and the other queues are as before. -/
def QueueBecame (p q : Nat) (l : List Frame) (s t : State) : Prop :=
  (t.port p).queues = (((s.setPort p { s.port p with queues := (s.port p).queues.set q l }).judgeQueue p q).port p).queues

/-- From s to t frame x of queue q leaves port p now, stamped, with an injected fault and, on an uncorrectable Billet, an
inverted FCS (R365, R379, R387). -/
def Leaves (p q : Nat) (x : Frame) (act : Option Nat) (e : Ecc) (s t : State) : Prop :=
  (∃ y, (t.port p).tx = some y ∧ y.frame = s.stamped x ∧ y.queue = q ∧ y.start = s.tq ∧
    (e ≠ .uncorrectable → y.wire = faultyWire (s.wireBody p y.frame) y.frame.isBtl y.frame.payload act)) ∧
  t.f (Reg.QUEUE_COUNTS_SENT p q) = (s.f (Reg.QUEUE_COUNTS_SENT p q) + 1) % 2 ^ 32 ∧
  (e = .uncorrectable → t.flagSet (Reg.PORT_STATUS p) Flag.PORT_STATUS_POISON = true ∧
    t.flagSet Reg.CRUCIBLE_BLOCK_STATUS Flag.CRUCIBLE_POISON = true)

/-- From s to t a queue of the deficit group has paid for frame x out of its DEF and k quanta; empty, it keeps nothing (R367). -/
def DeficitPaid (p q k : Nat) (x : Frame) (s t : State) : Prop :=
  q < 5 → t.f (Reg.QUEUE_COUNTS_DEFICIT p q) =
    if (t.port p).queues.getD q [] = [] then 0
    else min (s.f (Reg.QUEUE_COUNTS_DEFICIT p q) + k * s.quantum p q) 0xFFFFFFFF - s.txLength p x

/-- From s to t a chain frame of a type was given to its queue of port p (R435, R437); a boot link holds no Billets
(R436). -/
def ChainSent (p type : Nat) (s t : State) : Prop :=
  ∃ x : Frame, x.kind = .chain type ∧
    if s.chain.boot = some p ∧ s.hasIngot = false then Pushed p (chainQueue type) x s t else Queued p (chainQueue type) x s t

/-- From s to t a chain frame of a type went up, on the lead member of the one uplink or boot link that is UP (R435, R437). -/
def SentUp (type : Nat) (s t : State) : Prop :=
  ∀ k, s.upLinks 0 ++ s.upLinks 3 = [k] → ∀ q rest, s.joinedPorts k = q :: rest → ChainSent q type s t

/-- From s to t request x completed at its master with a response: done, with the data of a read, or a bus error with the
cause that its data hold (R442, R510). -/
def Completed (x : ChainAccess) (error : Bool) (d : Word) (s t : State) : Prop :=
  (error = false → Told x.req { kind := .done, data := if x.write then 0 else d, cause := 0 } s t) ∧
  (error = true → Told x.req { kind := .busError, data := 0, cause := bits d.toNat 3 0 } s t)

/-- No outstanding request but that with a number has its response, and none that waits for room has one. -/
def NoAnswers (s : State) (id : Nat) : Prop :=
  (∀ y ∈ s.chain.out, y.id ≠ id → y.answer = none) ∧ ∀ y ∈ s.chain.stalled, y.answer = none

/-- The chain with a response kept at the request of a number. -/
def answered (s : State) (id : Nat) (error : Bool) (d : Word) : Chain :=
  let give (y : ChainAccess) : ChainAccess := if y.id = id then { y with answer := some (error, d) } else y
  { s.chain with out := s.chain.out.map give }

/-- Is the link of port p up, as the PCS reports it in b and with auto-negotiation in use or not (R92, R361, R362)? -/
def linkGood (s : State) (p : Nat) (an : Bool) (b : LinkBits) : Bool :=
  let mode := s.f (Reg.PQ_MODE_MODE (p / 4))
  b.blockLock && !b.hiBer && (!(an && mode == 1) || b.anDone) && (mode != 4 || b.fecLock) && mode != 0 &&
    s.fb (Reg.PQ_REFCLK_PRESENT (p / 4)) && !s.quadIdle.contains (p / 4)

/-- No port but p changed. -/
def OnlyPort (p : Nat) (s t : State) : Prop := ∀ k, k ≠ p → t.port k = s.port k

/-! ### The always-on domain -/

/-- From s to t the write of d by r to the slow-domain register at a entered the queue of its block, and nothing else
happened (R56, log entry 34). -/
def Enqueued (r : Req) (a d : Nat) (s t : State) : Prop :=
  let w : Forwarded := { addr := a, mask := 0xFFFFFFFF, data := BitVec.ofNat 64 d, master := r.master.val }
  Answered r 0 s t ∧
  t = { s with bus := { s.bus with
          resp := t.bus.resp,
          nvmQ := if bits a 27 20 = 2 then s.bus.nvmQ ++ [w] else s.bus.nvmQ,
          powerQ := if bits a 27 20 = 2 then s.bus.powerQ else s.bus.powerQ ++ [w] } }

/-- Is there room in the forwarded-write queue of the block of the register at a (R56)? -/
def hasRoom (s : State) (a : Nat) : Prop := (if bits a 27 20 = 2 then s.bus.nvmQ else s.bus.powerQ).length < 16

/-- From s to t the write of d by r to the slow-domain register at a entered its queue, or, where the queue is full, waits
with its master, and nothing else happened (R56). -/
def SlowWritten (r : Req) (a d : Nat) (s t : State) : Prop :=
  (s.hasRoom a → Enqueued r a d s t) ∧
  (¬ s.hasRoom a →
    (let w : Forwarded := { addr := a, mask := 0xFFFFFFFF, data := BitVec.ofNat 64 d, master := r.master.val }
     Told r { kind := .waiting, data := 0, cause := 0 } s t ∧
     t = { s with bus := { s.bus with resp := t.bus.resp, stalled := s.bus.stalled ++ [w] } }))

/-- No master waits for a queue entry, and no request of the chain waits behind one. -/
def NoneWaits (s : State) : Prop := s.bus.stalled = [] ∧ s.chain.behind = []

/-- The write w is the only one that waits for the slow domain, in the queue of the NVM block, and the samples tj of the next
edge meet no thermal limit. -/
def OneWaits (w : Forwarded) (tj : List (BitVec 16)) (s : State) : Prop :=
  s.Up ∧ s.bus.nvmQ = [w] ∧ s.bus.powerQ = [] ∧ s.NoneWaits ∧ tj.length = 16 ∧ (∀ v ∈ tj, sgn 16 v.toNat < 1840)

/-- At the edge of the slow clock the state s, in which one write waits, becomes t; without that write it would become u
(R56). -/
def EdgeApplies (tj : List (BitVec 16)) (nJ : List Nat) (s u t : State) : Prop :=
  Sys2Proof.Machine.exec (.slowClockEdge tj nJ) s = .next t ∧
  Sys2Proof.Machine.exec (.slowClockEdge tj nJ) { s with bus := { s.bus with nvmQ := [] } } = .next u

/-- From s to t the Keeper was reset with a cause (R572): firmware stops and the step is kept for it, the SRAM reads zero,
the semaphores of identity 0 are free, ALERT_N has a cause, and memory and the fabric are as before. -/
def KeeperWasReset (cause : Nat) (s t : State) : Prop :=
  t.aon.keeperUp = false ∧ t.aon.saved = some (s.aon.saved.getD (s.sf Reg.BOOT_STATUS_STEP)) ∧
  t.sf Reg.BOOT_STATUS_STEP = 2 ∧ t.sf Reg.BOOT_STATUS_CODE = s.sf Reg.BOOT_STATUS_CODE ∧ t.sf Reg.RESET_CAUSE_CAUSE = cause ∧
  t.sf Reg.RESET_CAUSE_KEEPER_RESETS = min (s.sf Reg.RESET_CAUSE_KEEPER_RESETS + 1) 0xFFFF ∧
  SlowRaised Reg.NVM_BLOCK_STATUS [Flag.NVM_KEEPER_RESET] s t ∧ t.sf Reg.PWR_ALERT_KEEPER_RESET = 1 ∧ t.alertLow = true ∧
  (∀ a, Mem.read t.mem a = if 0xFF80000000 ≤ a ∧ a < 0xFF80080000 then 0 else Mem.read s.mem a) ∧
  (∀ x, x ∈ t.bus.semOwner ↔ x ∈ s.bus.semOwner ∧ x.2 ≠ 0) ∧
  SlowBut [Reg.BOOT_STATUS, Reg.RESET_CAUSE, Reg.NVM_BLOCK_STATUS, Reg.PWR_ALERT, Reg.NVM_STORE_STATE, Reg.KWDT_CFG] s t ∧
  t = { s with cycle := t.cycle, mem := t.mem, nvm := t.nvm,
               aon := { s.aon with keeperUp := false, saved := t.aon.saved, halted := false, stopped := true, held := false,
                                   ready := false },
               bus := { s.bus with resp := t.bus.resp, semOwner := t.bus.semOwner, slow := t.bus.slow } }

/-- In t the device identity is that of reset but for the variant's fuse, which is as in s (R5). -/
def FuseKept (s t : State) : Prop :=
  (let x := Reg.SYS_DEVICE_ID_VARIANT
   t.reg Reg.SYS_DEVICE_ID = BitVec.ofNat 64 (putBits (resetAt Reg.SYS_DEVICE_ID).toNat x.hi x.lo (s.f x)))

/-- From s to t step 7 of R573 was done and boot is complete (R43, R574): class floors, bindings and their locks, and on a
GX8128-M with an application image the start address and the released cores. -/
def Step7Done (s t : State) : Prop :=
  (∀ k : Fin 16, t.reg (Reg.CLASS_FLOOR k) = BitVec.ofNat 64 (s.param (0x40 + 4 * k) 4)) ∧ t.f Reg.CLASS_LOCK_LOCKED = 1 ∧
  (∀ n : Fin 64, t.reg (Reg.MB_BIND n) = BitVec.ofNat 64 (s.bindingOf n)) ∧ t.f Reg.MB_BIND_LOCK_LOCKED = 1 ∧
  t.sf Reg.BOOT_STATUS_STEP = 8 ∧ t.sf Reg.BOOT_STATUS_CODE = s.sf Reg.BOOT_STATUS_CODE ∧ t.aon.held = false ∧
  t.aon.stopped = true ∧
  (∀ a, t.aon.entry = some a → s.isM = true →
    t.f Reg.APPCX_RESET_VEC_VEC = a / 4 % 2 ^ 38 ∧ t.f Reg.APPCX_CORE_CTRL_RELEASE = s.param 0x12 1)

/-! ### Check units -/

/-- Has the raster of a unit reached its result point, the first position past its active lines, in a frame that the unit
folds as x has it (R486)? -/
def AtResult (s : State) (x : SigUnit) : Bool :=
  let r := s.raster x.src
  x.folding && decide (r.tim.hTotal * r.tim.vActive ≤ r.pos)

/-- The frame of unit u that stands at its result point, as the unit folds it: one of an old raster first, with its record (R486). -/
def resultOf (s : State) (u : Nat) : Option (SigUnit × Option SigTail) :=
  match (s.sig u).tails.find? fun y => s.AtResult (tailUnit (s.sig u) y) with
  | some y => some (tailUnit (s.sig u) y, some y)
  | none => if s.AtResult (s.sig u) then some (s.sig u, none) else none

/-- The run x is over n bytes from a on under POLY p, and its CRC register has taken the bytes of seen (R491, R492). -/
def Reads (x : McuRun) (a n p : Nat) (seen : List Byte) : Prop :=
  x.start = a ∧ x.len = n ∧ x.poly = p ∧ x.crc = crcTake p (crcStart p) seen

/-! ### Blit engines -/

end State

/-- The byte at address a of the source of a blit, as its bursts have read it (R470). -/
def Blit.source (x : Blit) (a : Nat) : Byte := byteAt (Tab.get x.buf (a / 256 * 256) []) (a % 256)

namespace State

/-- Nothing but the engines that move data in bursts stores to memory in the next FCLK: no access waits for room in a DDR4 queue, and no
received frame or trace entry does. -/
def QuietFclk (s : State) : Prop :=
  s.bus.blocked = [] ∧ s.serv.mmacWait = [] ∧ ∀ p : Fin 128, (s.port p).hostWait = [] ∧ (s.port p).traceWait = []

/-- The registers of their channels in which a partial write of 4 bytes at address a to uncorrectable words is recorded (R510). -/
def mergeRegs (a : Nat) : List Nat :=
  [chanOf a, chanOf (a + 3)].flatMap fun c => [Reg.MC_ECC_COUNTS c, Reg.MC_ECC_LOG c, Reg.MC_BLOCK_STATUS c]

/-! ### Service interfaces -/

/-- From s to t the MDIO command that a word holds was taken, or refused where a frame is in progress or the command is bad (R548), and nothing
else happened. -/
def MdioAsked (word : Nat) (bad : Bool) (s t : State) : Prop :=
  (s.fb Reg.MDIO_STATUS_BUSY = true ∨ bad = true → t.f Reg.MDIO_STATUS_CMD_REFUSED = 1 ∧
    t.f Reg.MDIO_STATUS_BUSY = s.f Reg.MDIO_STATUS_BUSY ∧ t.serv = s.serv) ∧
  (s.fb Reg.MDIO_STATUS_BUSY = false → bad = false → t.f Reg.MDIO_STATUS_CMD_REFUSED = 0 ∧
    t.f Reg.MDIO_STATUS_BUSY = 1 ∧ t.serv = { s.serv with mdio := some word }) ∧
  t.f Reg.MDIO_STATUS_DATA = s.f Reg.MDIO_STATUS_DATA ∧ RegsBut [Reg.MDIO_STATUS] s t ∧
  t = { s with cycle := t.cycle, regs := t.regs, serv := t.serv, bus := { s.bus with resp := t.bus.resp } }

/-- UART_LEVEL shows the lengths of the two FIFOs. -/
def LevelsShown (t : State) : Prop :=
  t.f Reg.UART_LEVEL_TX_COUNT = t.serv.uartTx.length % 128 ∧ t.f Reg.UART_LEVEL_RX_COUNT = t.serv.uartRx.length % 128

/-- Byte i of the buffer words from address a on is b. -/
def BufferByte (a i : Nat) (b : Byte) (t : State) : Prop :=
  bits (t.reg (a + i / 4 * 4)).toNat (8 * (i % 4) + 7) (8 * (i % 4)) = b.toNat

/-- The first n bytes of the buffer words from address a on are bs. -/
def BufferShown (a n : Nat) (bs : List Byte) (s : State) : Prop :=
  bs.length = n ∧ ∀ i, i < n → ∀ v, bs[i]? = some v → BufferByte a i v s

/-! ### Mailboxes -/

/-- From s to t a write of a master to channel n was refused for a reason, with a flag, and nothing else happened (R530). -/
def MailRefused (n master reason flag : Nat) (s t : State) : Prop :=
  t.f Reg.MB_REFUSED_LOG_REASON = reason ∧ t.f Reg.MB_REFUSED_LOG_MASTER = master ∧ t.f Reg.MB_REFUSED_LOG_CHANNEL = n ∧
  Raised Reg.MAILBOX_BLOCK_STATUS [flag] s t ∧ OnlyRegs [Reg.MB_REFUSED_LOG, Reg.MAILBOX_BLOCK_STATUS] s t

/-- Of the pending channels at address a, bit n is on in t, and every other bit as in s. -/
def PendSet (a n : Nat) (on : Bool) (s t : State) : Prop :=
  ∀ b, b < 64 → bit (t.reg a).toNat b = if b = n then on else bit (s.reg a).toNat b

/-! ### Accesses to DDR4 (R502) -/

/-- May an access of r to memory at a take place at once: it does not go through the core queues, or they have room? -/
def CoreServes (s : State) (r : Req) (a : Nat) (w : Width) : Prop :=
  coreSource r.master.val = true → a < 2 ^ 39 → s.coreRoom a (widthBytes w) = true

/-- From s to t the core queues took the request of an access: one to DDR4, within one span of 256 bytes, stands last in the
queue of its channel; an access elsewhere, or of a master without such a queue, leaves them as they are. -/
def CoreRequested (r : Req) (a : Nat) (w : Width) (wr : Bool) (s t : State) : Prop :=
  (coreSource r.master.val = false ∨ 2 ^ 39 ≤ a → t.chans = s.chans) ∧
  (coreSource r.master.val = true → a < 2 ^ 39 → a % 256 + widthBytes w ≤ 256 →
    t.chans = Tab.put s.chans (chanOf a) { s.chan (chanOf a) with
      core := (s.chan (chanOf a)).core ++ [{ src := r.master.val, addr := a / 256 * 256, write := wr }] })

/-- From s to t channel c recorded the uncorrectable word w, which a write replaces in part or a read meets (R510, R518). -/
def WordRecorded (c w : Nat) (s t : State) : Prop :=
  t.f (Reg.MC_ECC_COUNTS_UE c) = min (s.f (Reg.MC_ECC_COUNTS_UE c) + 1) 0xFFFF ∧ t.f (Reg.MC_ECC_LOG_UE c) = 1 ∧
  t.f (Reg.MC_ECC_LOG_SCRUB c) = 0 ∧ t.f (Reg.MC_ECC_LOG_ADDR c) = w ∧ Raised (Reg.MC_BLOCK_STATUS c) [Flag.MC_UE] s t ∧
  RegsBut [Reg.MC_ECC_COUNTS c, Reg.MC_ECC_LOG c, Reg.MC_BLOCK_STATUS c] s t

/-! ### Accesses that do not pass -/

/-- From s to t the denied access of r to a was logged as R42 and R621 say, and nothing else happened. -/
def DenialLogged (r : Req) (a : Nat) (wr : Bool) (need : Nat) (s t : State) : Prop :=
  t.f Reg.ACCESS_LOG_HEAD_TOTAL = min (s.f Reg.ACCESS_LOG_HEAD_TOTAL + 1) (2 ^ 24 - 1) ∧
  t.f Reg.ACCESS_LOG_HEAD_NEXT = (s.f Reg.ACCESS_LOG_HEAD_NEXT + 1) % 32 ∧
  t.reg (Reg.ACCESS_LOG_ENTRY (s.f Reg.ACCESS_LOG_HEAD_NEXT)) =
    BitVec.ofNat 64 (2 ^ 63 + (if wr then 2 ^ 62 else 0) + need * 2 ^ 60 + r.master.val * 2 ^ 52 +
      t.f Reg.ACCESS_LOG_HEAD_TOTAL % 4096 * 2 ^ 40 + a) ∧
  Raised Reg.MASTERS_BLOCK_STATUS
    (Flag.MASTERS_ACCESS_DENIED :: if s.bus.logUnread = 32 then [Flag.MASTERS_LOG_WRAPPED] else []) s t ∧
  t.bus.logUnread = min 32 (s.bus.logUnread + 1) ∧
  t = { s with regs := t.regs, cycle := t.cycle,
               bus := { s.bus with resp := t.bus.resp, logUnread := t.bus.logUnread } } ∧
  RegsBut [Reg.ACCESS_LOG_HEAD, Reg.ACCESS_LOG_ENTRY (s.f Reg.ACCESS_LOG_HEAD_NEXT), Reg.MASTERS_BLOCK_STATUS] s t ∧
  SameMem s t

/-- From s to t the bus error of an access of r to a was recorded as R44, R45 and R59 say, and nothing else happened. -/
def ErrorRecorded (r : Req) (a cause : Nat) (s t : State) : Prop :=
  Told r { kind := .busError, data := 0, cause := cause } s t ∧
  t.f Reg.BUS_ERROR_LOG_COUNT = min (s.f Reg.BUS_ERROR_LOG_COUNT + 1) 0xFFF ∧
  t.f Reg.BUS_ERROR_LOG_CAUSE = cause ∧ t.f Reg.BUS_ERROR_LOG_MASTER = r.master.val ∧ t.f Reg.BUS_ERROR_LOG_ADDR = a ∧
  (if cause = 7 then
    t.f Reg.LOCK_VIOLATION_COUNT = min (s.f Reg.LOCK_VIOLATION_COUNT + 1) 0xFFFF ∧
    t.f Reg.LOCK_VIOLATION_MASTER = r.master.val ∧ t.f Reg.LOCK_VIOLATION_ADDR = a
   else t.reg Reg.LOCK_VIOLATION = s.reg Reg.LOCK_VIOLATION) ∧
  Raised Reg.MASTERS_BLOCK_STATUS
    (Flag.MASTERS_BUS_ERROR :: if cause = 7 then [Flag.MASTERS_LOCK_VIOLATION] else []) s t ∧
  -- the debug module's own error status (R45)
  t.bus.sbError = (s.bus.sbError || r.master.val == 16) ∧
  t = { s with regs := t.regs, cycle := t.cycle,
               bus := { s.bus with resp := t.bus.resp, sbError := t.bus.sbError } } ∧
  RegsBut [Reg.BUS_ERROR_LOG, Reg.LOCK_VIOLATION, Reg.MASTERS_BLOCK_STATUS] s t

end State
end Sys2Proof.Machine
end

