-- ==== Sys2Proof/Certificates/Slice0/Obligations.lean ====
section
/-! DEFINITION. The statements for the provers. Each names the rules that it formalises; one that rests on a choice of the
model says so. A statement about a command says for which states and operands the command answers a next state, what
holds of it, and what is as before. -/

open Sys2Proof Sys2Proof.Machine Sys2Proof.Machine.State

/-! ### The machine -/

/-- A step runs the command at the front of the queue on the state with the rest of the queue. With no command waiting the
part idles: the model's choice, log entry 1. -/
def Obligations.StepRunsFrontCommand : Prop :=
  (∀ (c : Instr) (rest : List Instr) (s : State), s.pending = c :: rest →
     Sys2Proof.Machine.step s = Sys2Proof.Machine.exec c { s with pending := rest }) ∧
  (∀ s : State, s.pending = [] → Sys2Proof.Machine.step s = .next s)

/-- Every command answers a next state in every state, and none touches the queue: the model refuses nothing (R21 to R35
give the commands, log entry 1 the queue). While the part is held in reset only the slow clock, and the events that hold
and release it, act: every other command leaves the state as it is (R571, R593, R612). -/
def Obligations.EveryCommandAnswers : Prop :=
  (∀ (c : Instr) (s : State), ∃ t, Sys2Proof.Machine.exec c s = .next t ∧ t.pending = s.pending) ∧
  (∀ (c : Instr) (s : State), ¬ s.Up →
     (match c with
       | .slowClockEdge _ _ | .tripRelease _ _ | .powerOnReset _ _ | .resetRelease _ _ => True
       | _ => Sys2Proof.Machine.exec c s = .next s))

/-- Every step keeps the canonical form: memory and the register tables list their keys in strictly rising order, and
memory lists no zero byte (log entry 5). -/
def Obligations.StepKeepsCanonical : Prop :=
  ∀ s t : State, s.canonical = true → Sys2Proof.Machine.step s = .next t → t.canonical = true

/-- The state after reset is in canonical form. -/
def Obligations.ResetIsCanonical : Prop := State.reset.canonical = true

/-- R65: at reset every class floor is 0 and CLASS_FLOOR is unlocked, the access log, LOCK_VIOLATION and BUS_ERROR_LOG are
clear, every semaphore is free, every holding and staging register is empty, every write-once field reads 0, and every
BLOCK_STATUS of the fast and of the slow domain is zero. -/
def Obligations.ResetState : Prop :=
  (∀ k : Fin 16, State.reset.reg (Reg.CLASS_FLOOR k) = 0) ∧ State.reset.f Reg.CLASS_LOCK_LOCKED = 0 ∧
  (∀ k : Fin 32, State.reset.reg (Reg.ACCESS_LOG_ENTRY k) = 0) ∧
  State.reset.reg Reg.LOCK_VIOLATION = 0 ∧ State.reset.reg Reg.BUS_ERROR_LOG = 0 ∧
  (∀ n, Tab.find State.reset.bus.semOwner n = none) ∧
  (∀ m, Tab.find State.reset.bus.hold m = none ∧ Tab.find State.reset.bus.stage m = none) ∧
  (∀ a x, findReg a = some x → ∀ y ∈ x.row.fields, y.type = .wo1 → bits (State.reset.reg x.addr).toNat y.hi y.lo = 0) ∧
  (∀ a x, findReg a = some x → x.row.off = 4 → State.reset.reg x.addr = 0 ∧ State.reset.slowReg x.addr = 0)

/-! ### Register access, semaphores and logs -/

/-- R42 and R621: an access without sufficient class to a well-formed address reads zero, or 0x8000_001F at SYS_SEM_ACQ
(R63), its write is ignored, and the denial is logged. -/
def Obligations.DeniedAccessIsLogged : Prop :=
  (∀ (r : Req) (a : Addr) (w : Width) (d : Word) (need : Nat) (s : State), s.Up → s.mute r = false →
    s.judge r a.toNat w true = .denied need →
    ∃ t, Sys2Proof.Machine.exec (.registerWrite r a w d) s = .next t ∧
      Told r { kind := .denied } s t ∧ DenialLogged r a.toNat true need s t) ∧
  (∀ (r : Req) (a : Addr) (w : Width) (need : Nat) (s : State), s.Up → s.mute r = false →
    s.judge r a.toNat w false = .denied need →
    ∃ t, Sys2Proof.Machine.exec (.registerRead r a w) s = .next t ∧
      Told r { kind := .denied,
               data := if 0xF000000400 ≤ a.toNat ∧ a.toNat < 0xF000000500 then 0x8000001F else 0 } s t ∧
      DenialLogged r a.toNat false need s t)

/-- R44, R45 and R59: an access that fails another check than the class check is a bus error, recorded in BUS_ERROR_LOG
and, where a lock was met, in LOCK_VIOLATION; nothing else changes. -/
def Obligations.BusErrorIsLogged : Prop :=
  (∀ (r : Req) (a : Addr) (w : Width) (d : Word) (cause : Nat) (s : State), s.Up → s.mute r = false →
    s.judge r a.toNat w true = .error cause →
    ∃ t, Sys2Proof.Machine.exec (.registerWrite r a w d) s = .next t ∧ ErrorRecorded r a.toNat cause s t) ∧
  (∀ (r : Req) (a : Addr) (w : Width) (cause : Nat) (s : State), s.Up → s.mute r = false →
    s.judge r a.toNat w false = .error cause →
    ∃ t, Sys2Proof.Machine.exec (.registerRead r a w) s = .next t ∧ ErrorRecorded r a.toNat cause s t)

/-- R44: the order of the checks of an access to a register is address, width and alignment, alias type, class, lock, and
the first that fails decides; so an access without rights never reports a bus error for a lock. That MISALIGNED comes before
WIDE is the model's choice, log entry 91. -/
def Obligations.JudgementOrder : Prop :=
  ∀ (s : State) (r : Req) (a : Addr) (w : Width) (wr : Bool), bits a.toNat 39 28 = 0xF00 →
    (findReg a.toNat = none → ¬ (0xF000210000 ≤ a.toNat ∧ a.toNat < 0xF000230000) →
      s.judge r a.toNat w wr = .error 2) ∧
    (∀ x, findReg a.toNat = some x →
      s.judge r a.toNat w wr =
        if widthBytes w < 4 then .error 3
        else if a.toNat % widthBytes w ≠ 0 then .error 4
        else if w = .w64 ∧ x.row.wide = false then .error 5
        else if bits a.toNat 19 18 ≠ 0 ∧ x.row.aliasable = false then .error 6
        else if reachOf (s.actsAs r) < max x.row.cls.num (s.floorOf (bits a.toNat 27 20)) then
          .denied (max x.row.cls.num (s.floorOf (bits a.toNat 27 20)))
        else if wr = true ∧ s.regLocked x = true then .error 7
        else .ok (.reg x (match bits a.toNat 19 18 with | 0 => .normal | 1 => .set | 2 => .clear | _ => .toggle)
          (if x.row.wide = false ∨ w = .w64 then .whole else if a.toNat % 8 = 0 then .low else .high)))

/-- R44, R20, R49: a write to a register that does nothing beside holding its fields, once it passes, sets its RW fields to
the bits written, leaves every other field but flags, reserved fields where they are written with the value they hold, and
answers its master; a read that passes returns the register and
changes nothing. -/
def Obligations.PlainRegisterHoldsItsFields : Prop :=
  (∀ (r : Req) (a : Addr) (w : Width) (d : Word) (x : Found) (s : State), s.Up → findReg a.toNat = some x →
    x.row.eff ∈ [Eff.plain, .classFloor, .dbgCtrl, .gateEntry, .gateLen, .polCir, .polPir, .polPbs] →
    isSlow x = false → s.passes r a.toNat w true = true →
    ∃ t, Sys2Proof.Machine.exec (.registerWrite r a w d) s = .next t ∧
      (∀ y ∈ x.row.fields, y.type = .rw → bits (t.reg a.toNat).toNat y.hi y.lo = bits d.toNat y.hi y.lo) ∧
      (∀ y ∈ x.row.fields, y.type ≠ .rw → y.type ≠ .sq →
        (y.type = .rsv → bits d.toNat y.hi y.lo = bits (s.reg a.toNat).toNat y.hi y.lo) →
        bits (t.reg a.toNat).toNat y.hi y.lo = bits (s.reg a.toNat).toNat y.hi y.lo) ∧
      Answered r 0 s t ∧ OnlyWide [a.toNat] s t) ∧
  (∀ (r : Req) (a : Addr) (w : Width) (x : Found) (s : State), s.Up → findReg a.toNat = some x →
    x.row.eff = .plain → s.passes r a.toNat w false = true →
    ∃ t, Sys2Proof.Machine.exec (.registerRead r a w) s = .next t ∧
      Answered r (s.reg a.toNat).toNat s t ∧ OnlyWide [] s t)

/-- R48: a 32-bit read of a low half returns it and latches the high half for this master, a high-half read under a
matching tag returns the held half and clears the tag, otherwise the live half; a low-half write only stages; a high-half
write under a matching tag writes both halves and clears the tag, otherwise it writes the high half and the low half keeps
its value. Holding and staging registers of other masters stay. -/
def Obligations.HalvesOfWideRegisters : Prop :=
  (∀ (r : Req) (a : Addr) (x : Found) (s : State), s.Up → x.row.wide = true → x.row.eff = .plain → s.mute r = false →
    s.judge r a.toNat .w32 false = .ok (.reg x .normal .low) →
    ∃ t, Sys2Proof.Machine.exec (.lowHalfRead r a) s = .next t ∧
      Answered r (bits (s.reg x.addr).toNat 31 0) s t ∧
      t.bus.hold = Tab.put s.bus.hold r.master.val ⟨x.addr, BitVec.ofNat 32 (bits (s.reg x.addr).toNat 63 32)⟩ ∧
      t = { s with cycle := t.cycle, bus := { s.bus with resp := t.bus.resp, hold := t.bus.hold } }) ∧
  (∀ (r : Req) (a : Addr) (x : Found) (s : State), s.Up → x.row.wide = true → x.row.eff = .plain → s.mute r = false →
    s.judge r a.toNat .w32 false = .ok (.reg x .normal .high) →
    ∃ t, Sys2Proof.Machine.exec (.registerRead r a .w32) s = .next t ∧
      (match Tab.find s.bus.hold r.master.val with
        | some h => if h.addr = x.addr then
            Answered r h.value.toNat s t ∧ t.bus.hold = Tab.del s.bus.hold r.master.val
          else Answered r (bits (s.reg x.addr).toNat 63 32) s t ∧ t.bus.hold = s.bus.hold
        | none => Answered r (bits (s.reg x.addr).toNat 63 32) s t ∧ t.bus.hold = s.bus.hold) ∧
      t = { s with cycle := t.cycle, bus := { s.bus with resp := t.bus.resp, hold := t.bus.hold } }) ∧
  (∀ (r : Req) (a : Addr) (d : Half) (x : Found) (s : State), s.Up → x.row.wide = true → s.mute r = false →
    s.judge r a.toNat .w32 true = .ok (.reg x .normal .low) →
    ∃ t, Sys2Proof.Machine.exec (.lowHalfWrite r a d) s = .next t ∧ Answered r 0 s t ∧
      t.bus.stage = Tab.put s.bus.stage r.master.val ⟨x.addr, d⟩ ∧
      t = { s with cycle := t.cycle, bus := { s.bus with resp := t.bus.resp, stage := t.bus.stage } }) ∧
  (∀ (r : Req) (a : Addr) (d : Half) (x : Found) (s : State), s.Up → x.row.wide = true → x.row.eff = .plain →
    isSlow x = false → s.mute r = false → s.judge r a.toNat .w32 true = .ok (.reg x .normal .high) →
    ∃ t, Sys2Proof.Machine.exec (.registerWrite r a .w32 (d.setWidth 64)) s = .next t ∧ Answered r 0 s t ∧
      (∀ y ∈ x.row.fields, y.type = .rw → bits (t.reg x.addr).toNat y.hi y.lo =
        match Tab.find s.bus.stage r.master.val with
        | some h => if h.addr = x.addr then bits (d.toNat * 2 ^ 32 + h.value.toNat) y.hi y.lo
                    else bits (d.toNat * 2 ^ 32 + bits (s.reg x.addr).toNat 31 0) y.hi y.lo
        | none => bits (d.toNat * 2 ^ 32 + bits (s.reg x.addr).toNat 31 0) y.hi y.lo) ∧
      t.bus.stage = (match Tab.find s.bus.stage r.master.val with
        | some h => if h.addr = x.addr then Tab.del s.bus.stage r.master.val else s.bus.stage
        | none => s.bus.stage) ∧
      OnlyWide [x.addr] s t ∧ t.bus.hold = s.bus.hold)

/-- R53: a write of SEQ and mask to a sequence-clear status clears the masked flags where the written SEQ is the current
one; otherwise nothing changes. SEQ stays. R50, R51: an alias write to a plain register changes its RW fields to v OR d, v
AND NOT d, or v XOR d; every other field and register stays. -/
def Obligations.AliasWritesAndSequenceClear : Prop :=
  (∀ (r : Req) (a : Addr) (seq mask : BitVec 16) (x : Found) (s : State), s.Up → findReg a.toNat = some x →
     x.row.eff ∈ [Eff.plain, .chainDoorbell] → x.row.fields = [⟨31, 16, .sq⟩, ⟨15, 0, .sq⟩] → isSlow x = false →
     s.passes r a.toNat .w32 true = true →
     ∃ t, Sys2Proof.Machine.exec (.sequenceClear r a seq mask) s = .next t ∧
       (∀ b, b < 16 → t.flagSet a.toNat b =
         (s.flagSet a.toNat b && !(decide (seq.toNat = bits (s.reg a.toNat).toNat 31 16) && mask.getLsbD b))) ∧
       bits (t.reg a.toNat).toNat 31 16 = bits (s.reg a.toNat).toNat 31 16 ∧ Answered r 0 s t ∧ OnlyWide [a.toNat] s t) ∧
  (∀ (r : Req) (a : Addr) (w : Width) (d : Word) (x : Found) (s : State), s.Up → x.row.eff = .plain → isSlow x = false →
     s.mute r = false →
     (s.judge r (a.toNat + 0x40000) w true = .ok (.reg x .set .whole) →
       ∃ t, Sys2Proof.Machine.exec (.setAliasWrite r a w d) s = .next t ∧
         (∀ y ∈ x.row.fields, bits (t.reg x.addr).toNat y.hi y.lo =
           if y.type = .rw then bits (s.reg x.addr).toNat y.hi y.lo ||| bits d.toNat y.hi y.lo
           else bits (s.reg x.addr).toNat y.hi y.lo) ∧ Answered r 0 s t ∧ OnlyWide [x.addr] s t) ∧
     (s.judge r (a.toNat + 0x80000) w true = .ok (.reg x .clear .whole) →
       ∃ t, Sys2Proof.Machine.exec (.clearAliasWrite r a w d) s = .next t ∧
         (∀ y ∈ x.row.fields, bits (t.reg x.addr).toNat y.hi y.lo =
           if y.type = .rw then
             bits (s.reg x.addr).toNat y.hi y.lo - (bits (s.reg x.addr).toNat y.hi y.lo &&& bits d.toNat y.hi y.lo)
           else bits (s.reg x.addr).toNat y.hi y.lo) ∧ Answered r 0 s t ∧ OnlyWide [x.addr] s t) ∧
     (s.judge r (a.toNat + 0xC0000) w true = .ok (.reg x .toggle .whole) →
       ∃ t, Sys2Proof.Machine.exec (.toggleAliasWrite r a w d) s = .next t ∧
         (∀ y ∈ x.row.fields, bits (t.reg x.addr).toNat y.hi y.lo =
           if y.type = .rw then bits (s.reg x.addr).toNat y.hi y.lo ^^^ bits d.toNat y.hi y.lo
           else bits (s.reg x.addr).toNat y.hi y.lo) ∧ Answered r 0 s t ∧ OnlyWide [x.addr] s t))

/-- R56: a write to a mirrored register enters the 16-entry queue of its block, in issue order, and completes there; with
the queue full its master waits. The register itself does not change. -/
def Obligations.MirrorWriteQueues : Prop :=
  ∀ (r : Req) (a : Addr) (d : Half) (x : Found) (s : State), s.Up → findReg a.toNat = some x → isSlow x = true →
    x.row.eff ≠ .nvmReadSel → x.row.wide = false → s.passes r a.toNat .w32 true = true →
    ∃ t, Sys2Proof.Machine.exec (.mirrorWrite r a .w32 (d.setWidth 64)) s = .next t ∧
      (let f : Forwarded := { addr := a.toNat, mask := 0xFFFFFFFF, data := d.setWidth 64, master := r.master.val }
       let q := if bits a.toNat 27 20 = 2 then s.bus.nvmQ else s.bus.powerQ
       if q.length < 16 then
         Answered r 0 s t ∧
         t = { s with cycle := t.cycle, bus := { s.bus with
                 resp := t.bus.resp,
                 nvmQ := if bits a.toNat 27 20 = 2 then s.bus.nvmQ ++ [f] else s.bus.nvmQ,
                 powerQ := if bits a.toNat 27 20 = 2 then s.bus.powerQ else s.bus.powerQ ++ [f] } }
       else
         Told r { kind := .waiting } s t ∧
         t = { s with cycle := t.cycle, bus := { s.bus with resp := t.bus.resp, stalled := s.bus.stalled ++ [f] } })

/-- R63, R64: a read of SYS_SEM_ACQ takes a free semaphore and returns 0, and returns the owner of a held one and changes
nothing; a release by the owner with its own identity frees it, any other write sets SEM_MISMATCH and changes nothing
else; SYS_SEM_FORCE frees the semaphore named. R43, R59, R529, R559, R621: the first write to CLASS_LOCK, to MB_BIND_LOCK
and to DBG_LOCK sets its lock whatever is written; a read of ACCESS_LOG_HEAD returns it and restarts the count of entries
written since. -/
def Obligations.SemaphoresLocksAndLogHead : Prop :=
  ((∀ (r : Req) (n : Fin 64) (s : State), s.Up → s.passes r (Reg.SYS_SEM_ACQ n) .w32 false = true →
     ∃ t, Sys2Proof.Machine.exec (.semAcquire r n) s = .next t ∧
       (match Tab.find s.bus.semOwner n with
         | none => Answered r 0 s t ∧ t.bus.semOwner = Tab.put s.bus.semOwner n r.master.val
         | some o => Answered r (2 ^ 31 + o) s t ∧ t.bus.semOwner = s.bus.semOwner) ∧
       t = { s with cycle := t.cycle, bus := { s.bus with resp := t.bus.resp, semOwner := t.bus.semOwner } }) ∧
   (∀ (r : Req) (n : Fin 64) (d : Half) (s : State), s.Up → s.passes r (Reg.SYS_SEM_REL n) .w32 true = true →
     ∃ t, Sys2Proof.Machine.exec (.semRelease r n d) s = .next t ∧ Answered r 0 s t ∧
       (if Tab.find s.bus.semOwner n = some (bits d.toNat 4 0) ∧ bits d.toNat 4 0 = r.master.val then
         t = { s with cycle := t.cycle,
                      bus := { s.bus with resp := t.bus.resp, semOwner := Tab.del s.bus.semOwner n } }
        else Raised Reg.SYS_BLOCK_STATUS [Flag.SYS_SEM_MISMATCH] s t ∧ OnlyRegs [Reg.SYS_BLOCK_STATUS] s t)) ∧
   (∀ (r : Req) (d : Half) (s : State), s.Up → s.passes r Reg.SYS_SEM_FORCE .w32 true = true →
     ∃ t, Sys2Proof.Machine.exec (.semForce r d) s = .next t ∧ Answered r 0 s t ∧
       t = { s with cycle := t.cycle,
                    bus := { s.bus with resp := t.bus.resp, semOwner := Tab.del s.bus.semOwner (bits d.toNat 5 0) } })) ∧
  ((∀ (r : Req) (d : Half) (s : State), s.Up → s.passes r Reg.CLASS_LOCK .w32 true = true →
     ∃ t, Sys2Proof.Machine.exec (.classLock r d) s = .next t ∧ t.f Reg.CLASS_LOCK_LOCKED = 1 ∧ Answered r 0 s t ∧
       OnlyRegs [Reg.CLASS_LOCK] s t) ∧
   (∀ (r : Req) (d : Half) (s : State), s.Up → s.passes r Reg.MB_BIND_LOCK .w32 true = true →
     ∃ t, Sys2Proof.Machine.exec (.mbBindLock r d) s = .next t ∧ t.f Reg.MB_BIND_LOCK_LOCKED = 1 ∧ Answered r 0 s t ∧
       OnlyRegs [Reg.MB_BIND_LOCK] s t) ∧
   (∀ (r : Req) (d : Half) (s : State), s.Up → s.passes r Reg.DBG_LOCK .w32 true = true →
     ∃ t, Sys2Proof.Machine.exec (.dbgLock r d) s = .next t ∧ t.f Reg.DBG_LOCK_LOCKED = 1 ∧ Answered r 0 s t ∧
       OnlyRegs [Reg.DBG_LOCK] s t) ∧
   (∀ (r : Req) (s : State), s.Up → s.passes r Reg.ACCESS_LOG_HEAD .w32 false = true →
     ∃ t, Sys2Proof.Machine.exec (.accessLogHeadRead r) s = .next t ∧ Answered r (s.reg Reg.ACCESS_LOG_HEAD).toNat s t ∧
       t = { s with cycle := t.cycle, bus := { s.bus with resp := t.bus.resp, logUnread := 0 } }))

/-- R36, R82, R502, R510, R514: a read of a memory window returns its bytes, least significant first, or a bus error that is not
logged where a word of DDR4 is uncorrectable or its channel in FAULT; a write stores them, but for those of a channel in FAULT, and
no other byte changes. A word replaced whole loses its error (log entry 81); an uncorrectable one replaced in part keeps it and is
recorded. An access to DDR4 puts a request into the core queue of its channel, and takes place in its own command (log entry 29);
where that queue is full its master waits. An accepted write into the window of an Ingot slot puts the slot in LOADED. -/
def Obligations.MemoryAccess : Prop :=
  (∀ (r : Req) (a : Addr) (w : Width) (s : State), s.Up → s.mute r = false →
    s.judge r a.toNat w false = .ok .mem → s.poisoned a.toNat (widthBytes w) = false → s.CoreServes r a.toNat w →
    ∃ t, Sys2Proof.Machine.exec (.registerRead r a w) s = .next t ∧
      Answered r (s.rd a.toNat (widthBytes w)) s t ∧ CoreRequested r a.toNat w false s t ∧
      t = { s with chans := t.chans, bus := { s.bus with resp := t.bus.resp } }) ∧
  (∀ (r : Req) (a : Addr) (w : Width) (s : State), s.Up → s.mute r = false → a.toNat < 2 ^ 39 →
    s.judge r a.toNat w false = .ok .mem → s.poisoned a.toNat (widthBytes w) = true → s.CoreServes r a.toNat w →
    ∃ t, Sys2Proof.Machine.exec (.registerRead r a w) s = .next t ∧
      Told r { kind := .busError } s t ∧ CoreRequested r a.toNat w false s t ∧
      t = { s with chans := t.chans, bus := { s.bus with resp := t.bus.resp } }) ∧
  (∀ (r : Req) (a : Addr) (w : Width) (d : Word) (s : State), s.Up → s.canonical = true → s.mute r = false →
    s.judge r a.toNat w true = .ok .mem → bits a.toNat 39 17 ≠ 0xE800F00000 / 2 ^ 17 → s.CoreServes r a.toNat w →
    ∃ t, Sys2Proof.Machine.exec (.registerWrite r a w d) s = .next t ∧ Answered r 0 s t ∧
      (∀ i, i < widthBytes w → Mem.read t.mem (a.toNat + i) =
        if s.faulted (a.toNat + i) then Mem.read s.mem (a.toNat + i) else BitVec.ofNat 8 (d.toNat / 256 ^ i)) ∧
      (∀ b, (b < a.toNat ∨ a.toNat + widthBytes w ≤ b) → Mem.read t.mem b = Mem.read s.mem b) ∧
      t.poison = s.poison.filter (fun p => !(decide (a.toNat ≤ p) && decide (p + 8 ≤ a.toNat + widthBytes w))) ∧
      t.regs = (s.noteMerged a.toNat (widthBytes w)).regs ∧ t.cycle = (s.noteMerged a.toNat (widthBytes w)).cycle ∧
      (a.toNat % widthBytes w = 0 →
        (let word := a.toNat / 8 * 8
         let merged := word < 2 ^ 39 ∧ word ∈ s.poison ∧ s.faulted word = false ∧ w ≠ .w64
         (merged → WordRecorded (chanOf word) word s t) ∧ (¬ merged → t.regs = s.regs))) ∧
      CoreRequested r a.toNat w true s t ∧
      t = { s with regs := t.regs, cycle := t.cycle, chans := t.chans, mem := t.mem, poison := t.poison,
                   bus := { s.bus with resp := t.bus.resp } }) ∧
  (∀ (r : Req) (a : Addr) (w : Width) (d : Word) (s : State), s.Up → s.mute r = false → ¬ s.CoreServes r a.toNat w →
    (s.judge r a.toNat w true = .ok .mem →
      ∃ t, Sys2Proof.Machine.exec (.registerWrite r a w d) s = .next t ∧ Told r { kind := .waiting } s t ∧
        t = { s with bus := { s.bus with resp := t.bus.resp,
                                         blocked := s.bus.blocked ++ [⟨r.master.val, a.toNat, w, true, d, none⟩] } }) ∧
    (s.judge r a.toNat w false = .ok .mem →
      ∃ t, Sys2Proof.Machine.exec (.registerRead r a w) s = .next t ∧ Told r { kind := .waiting } s t ∧
        t = { s with bus := { s.bus with resp := t.bus.resp,
                                         blocked := s.bus.blocked ++ [⟨r.master.val, a.toNat, w, false, 0, none⟩] } })) ∧
  (∀ (r : Req) (a : Addr) (w : Width) (d : Word) (s : State), s.Up → s.mute r = false →
    s.judge r a.toNat w true = .ok .readOnly →
    ∃ t, Sys2Proof.Machine.exec (.registerWrite r a w d) s = .next t ∧ Answered r 0 s t ∧
      t = { s with bus := { s.bus with resp := t.bus.resp } }) ∧
  (∀ (r : Req) (slot : Fin 2) (off : Fin 65536) (w : Width) (d : Word) (s : State), s.Up → s.canonical = true →
    s.mute r = false → s.judge r (slotBase slot + off) w true = .ok .mem →
    ∃ t, Sys2Proof.Machine.exec (.slotWindowWrite r slot off w d) s = .next t ∧ Answered r 0 s t ∧
      t.f (Reg.INGOT_SLOT_STATE_STATE slot) = 1 ∧
      (∀ i, i < widthBytes w → Mem.read t.mem (slotBase slot + off + i) = BitVec.ofNat 8 (d.toNat / 256 ^ i)) ∧
      (∀ b, (b < slotBase slot + off ∨ slotBase slot + off + widthBytes w ≤ b) →
        Mem.read t.mem b = Mem.read s.mem b))
/-! ### The slow clock, power and heat -/

/-- R55, R57, R587, R591: at a slow-clock edge at which no write is queued and no thermal limit is met, the sensors and
TJ_MAX take the samples, every energy counter takes the energy of its rail, every mirror takes its slow-domain value, and
MIRROR_TICK of both blocks advances. -/
def Obligations.SlowClockEdgeSamples : Prop :=
  ∀ (tj : List (BitVec 16)) (nJ : List Nat) (s : State), s.Up → tj.length = 16 → nJ.length = 8 →
    (∀ v ∈ tj, sgn 16 v.toNat < 1840) → s.thermalHold = false →
    s.bus.nvmQ = [] → s.bus.powerQ = [] → s.NoneWaits →
    ∃ t, Sys2Proof.Machine.exec (.slowClockEdge tj nJ) s = .next t ∧
      (∀ i : Fin 16, ∀ v, tj[i.val]? = some v → t.sf (Reg.THERM_SENSE_TJ i) = v.toNat) ∧
      (∀ v ∈ tj, sgn 16 v.toNat ≤ sgn 16 (t.sf Reg.PWR_STATE_TJ_MAX)) ∧
      (∃ v ∈ tj, v.toNat = t.sf Reg.PWR_STATE_TJ_MAX) ∧
      (∀ r : Fin 8, t.sf (Reg.PWR_ENERGY_UJ r) =
          (s.sf (Reg.PWR_ENERGY_UJ r) + (Tab.get s.aon.nanoJ r 0 + nJ.getD r 0) / 1000) % 2 ^ 64 ∧
        Tab.get t.aon.nanoJ r 0 = (Tab.get s.aon.nanoJ r 0 + nJ.getD r 0) % 1000) ∧
      t.sf Reg.PWR_ENERGY_TOTAL_UJ =
        (s.sf Reg.PWR_ENERGY_TOTAL_UJ + (Tab.get s.aon.nanoJ 8 0 + nJ.sum) / 1000) % 2 ^ 64 ∧
      SlowRaised Reg.POWER_BLOCK_STATUS
        (if ((16 * min 114 (s.sf Reg.THERM_CFG_WARN_C) : Nat) : Int) ≤ sgn 16 (t.sf Reg.PWR_STATE_TJ_MAX)
         then [Flag.POWER_THERMAL_WARN] else []) (s.newCycle true) t ∧
      t.sf Reg.THERM_STATS_TJ_PEAK =
        (if sgn 16 (s.sf Reg.THERM_STATS_TJ_PEAK) < sgn 16 (t.sf Reg.PWR_STATE_TJ_MAX)
         then t.sf Reg.PWR_STATE_TJ_MAX else s.sf Reg.THERM_STATS_TJ_PEAK) ∧
      t.f Reg.NVM_MIRROR_TICK_TICK = (((match Tab.find t.bus.slow Reg.NVM_MIRROR_TICK with
        | some v => bits v.toNat 31 0 | none => s.f Reg.NVM_MIRROR_TICK_TICK) + 1) % 2 ^ 32) ∧
      t.f Reg.POWER_MIRROR_TICK_TICK = (((match Tab.find t.bus.slow Reg.POWER_MIRROR_TICK with
        | some v => bits v.toNat 31 0 | none => s.f Reg.POWER_MIRROR_TICK_TICK) + 1) % 2 ^ 32) ∧
      (∀ a, a ≠ Reg.NVM_MIRROR_TICK → a ≠ Reg.POWER_MIRROR_TICK →
        t.reg a = (match Tab.find t.bus.slow a with | some v => v | none => s.reg a)) ∧
      (∀ a, a ∉ [Reg.PWR_STATE, Reg.POWER_BLOCK_STATUS, Reg.THERM_STATS, Reg.PWR_ENERGY_TOTAL] →
        (∀ i : Fin 16, a ≠ Reg.THERM_SENSE i) → (∀ r : Fin 8, a ≠ Reg.PWR_ENERGY r) → t.slowReg a = s.slowReg a) ∧
      t = { s with regs := t.regs, cycle := t.cycle, bus := { s.bus with slow := t.bus.slow },
                   aon := { s.aon with nanoJ := t.aon.nanoJ, watchdog := t.aon.watchdog } } ∧
      t.aon.watchdog = (if s.sf Reg.KWDT_CFG_EN = 1 then s.aon.watchdog + 1 else s.aon.watchdog)

/-- R297, R591 to R593: a sample at or above 115 °C enters Thermal Hold, after which the next frame of every raster is
dirty; one at or above 125 °C trips the part into power-on reset with RESET_CAUSE 6. The part leaves Thermal Hold after 1
s at or below EXIT_C, 1,000,000 samples, and the trip hold after 1 s below 100 °C, where the boot ROM starts with the
straps sampled. R589, R590: an evaluation takes the interval power and counts EXCESS over the last 10,000 intervals;
triggered, it engages the next step once ACT_MS has passed since its last engagement, or with all three in force sets
GOV_EXHAUSTED; not triggered, it releases the highest step where EXCESS is below BUDGET_MS, the power has stayed below
RELEASE_W for HOLD_MS, and HOLD_MS has passed since the last change. That its fields of the slow domain change at once,
and not through the queue of R56, is the model's choice, log entry 53. -/
def Obligations.ThermalLimitsAndGovernor : Prop :=
  ((∀ (tj : List (BitVec 16)) (nJ : List Nat) (v : BitVec 16) (s : State), s.Up → tj.length = 16 → v ∈ tj →
     (∀ u ∈ tj, sgn 16 u.toNat ≤ sgn 16 v.toNat) → 1840 ≤ sgn 16 v.toNat → sgn 16 v.toNat < 2000 →
     s.thermalHold = false → s.bus.nvmQ = [] → s.bus.powerQ = [] → s.NoneWaits →
     ∃ t, Sys2Proof.Machine.exec (.slowClockEdge tj nJ) s = .next t ∧
       t.sf Reg.PWR_STATE_THERMAL_HOLD = 1 ∧ t.sf Reg.PWR_STATE_TJ_MAX = v.toNat ∧
       t.sf Reg.THERM_STATS_HOLDS = min (s.sf Reg.THERM_STATS_HOLDS + 1) 65535 ∧
       bit (t.slowReg Reg.POWER_BLOCK_STATUS).toNat Flag.POWER_HOLD_ENTERED = true ∧
       t.sf Reg.PWR_ALERT_THERMAL_HOLD = 1) ∧
   (∀ (tj : List (BitVec 16)) (nJ : List Nat) (v : BitVec 16) (s : State), s.Up → tj.length = 16 → v ∈ tj →
     (∀ u ∈ tj, sgn 16 u.toNat ≤ sgn 16 v.toNat) → 2000 ≤ sgn 16 v.toNat →
     ∃ t, Sys2Proof.Machine.exec (.slowClockEdge tj nJ) s = .next t ∧
       t.aon.hold = .trip ∧ t.sf Reg.RESET_CAUSE_CAUSE = 6 ∧ t.sf Reg.PWR_STATE_TJ_MAX = v.toNat ∧
       t.nvm.cells = s.nvm.cells ∧ t.bus.semOwner = [] ∧ t.pending = s.pending) ∧
   (∀ (tj : List (BitVec 16)) (nJ : List Nat) (v : BitVec 16) (s : State), tj.length = 16 → v ∈ tj →
     (∀ u ∈ tj, sgn 16 u.toNat ≤ sgn 16 v.toNat) → sgn 16 v.toNat < 2000 →
     -- consecutive cool samples are counted, in Thermal Hold and under the trip's hold
     (s.Up → s.thermalHold = true → s.bus.nvmQ = [] → s.bus.powerQ = [] → s.NoneWaits →
       ∃ t, Sys2Proof.Machine.exec (.slowClockEdge tj nJ) s = .next t ∧
         t.aon.cool = (if sgn 16 v.toNat ≤ ((16 * min 110 (max 85 (s.sf Reg.THERM_CFG_EXIT_C)) : Nat) : Int) then s.aon.cool + 1 else 0)) ∧
     (s.aon.hold = .trip →
       ∃ t, Sys2Proof.Machine.exec (.slowClockEdge tj nJ) s = .next t ∧ t.aon.hold = .trip ∧
         t.aon.cool = (if sgn 16 v.toNat < 1600 then s.aon.cool + 1 else 0))) ∧
   (∀ s : State, s.Up → s.thermalHold = false ∨ s.aon.cool < 1000000 →
     ∃ t, Sys2Proof.Machine.exec .thermalHoldExit s = .next t ∧ Nothing s t) ∧
   (∀ s : State, s.Up → s.thermalHold = true → 1000000 ≤ s.aon.cool →
     ∃ t, Sys2Proof.Machine.exec .thermalHoldExit s = .next t ∧ t.sf Reg.PWR_STATE_THERMAL_HOLD = 0 ∧
       SlowRaised Reg.POWER_BLOCK_STATUS [Flag.POWER_HOLD_LEFT] s t ∧
       t.sf Reg.PWR_ALERT_THERMAL_HOLD = 0 ∧
       SlowBut [Reg.PWR_STATE, Reg.POWER_BLOCK_STATUS, Reg.PWR_ALERT] s t ∧
       (∀ m : Fin 16, t.raster m = if s.enabled m then { s.raster m with forceDirty := true } else s.raster m) ∧
       t = { s with cycle := t.cycle, bus := { s.bus with slow := t.bus.slow }, rasters := t.rasters,
                    aon := { s.aon with cool := 0 } }) ∧
   (∀ (role : Fin 4) (index : Fin 16) (s : State), s.aon.hold ≠ .trip ∨ s.aon.cool < 1000000 →
     ∃ t, Sys2Proof.Machine.exec (.tripRelease role index) s = .next t ∧ Nothing s t) ∧
   (∀ (role : Fin 4) (index : Fin 16) (s : State), s.aon.hold = .trip → 1000000 ≤ s.aon.cool →
     ∃ t, Sys2Proof.Machine.exec (.tripRelease role index) s = .next t ∧ t.Up ∧
       t.f Reg.CHAIN_STATE_STRAP_ROLE = role ∧ t.f Reg.CHAIN_STATE_INDEX = index ∧ t.sf Reg.BOOT_STATUS_STEP = 2 ∧
       (s.nvm.lost = true → t.sf Reg.NVM_STORE_STATE_RESULT = 6) ∧ RegsBut [Reg.CHAIN_STATE] s t ∧
       SlowBut [Reg.BOOT_STATUS, Reg.NVM_STORE_STATE, Reg.PWR_ALERT] s t ∧
       t = { s with regs := t.regs, cycle := t.cycle, bus := { s.bus with slow := t.bus.slow },
                    aon := { s.aon with hold := .free, pwrGood := true }, nvm := { s.nvm with lost := false } })) ∧
  (∀ (p : Nat) (s : State), s.Up → s.aon.keeperUp = true →
     ∃ t, Sys2Proof.Machine.exec (.governorEvaluation p) s = .next t ∧
       (let limit := min 110 (max 40 (s.sf Reg.GOV_CFG_LIMIT_W))
        let budget := min 2000 (max 1 (s.sf Reg.GOV_TIME_BUDGET_MS))
        let now := s.aon.gov.evals + 1
        let excess := t.aon.gov.exceeded.length
        let step := s.sf Reg.PWR_STATE_GOV_STEP
        let triggered := (10 * limit < p ∧ budget ≤ excess) ∨ 1400 < p
        let engage := triggered ∧ step < 3 ∧
          (match s.aon.gov.engaged with
           | some e => max 1 (s.sf Reg.GOV_TIME_ACT_MS) ≤ now - e | none => True)
        let release := ¬ triggered ∧ 0 < step ∧ excess < budget ∧ max 1 (s.sf Reg.GOV_TIME_HOLD_MS) ≤ t.aon.gov.below ∧
          (match s.aon.gov.changed with
           | some e => max 1 (s.sf Reg.GOV_TIME_HOLD_MS) ≤ now - e | none => True)
        t.aon.gov.evals = now ∧
        (∀ e, e ∈ t.aon.gov.exceeded ↔ (e ∈ s.aon.gov.exceeded ∨ (e = now ∧ 10 * limit < p)) ∧ now < e + 10000) ∧
        t.aon.gov.below = (if p < 10 * min limit (s.sf Reg.GOV_CFG_RELEASE_W) then s.aon.gov.below + 1 else 0) ∧
        t.sf Reg.PWR_NOW_POWER = min 65535 p ∧ t.sf Reg.PWR_NOW_EXCESS = excess % 65536 ∧
        (engage → t.sf Reg.PWR_STATE_GOV_STEP = step + 1 ∧
          t.sf Reg.GOV_STATS_ENGAGES = min (s.sf Reg.GOV_STATS_ENGAGES + 1) 65535 ∧
          SlowRaised Reg.POWER_BLOCK_STATUS [Flag.POWER_GOV_STEP] s t) ∧
        (release → t.sf Reg.PWR_STATE_GOV_STEP = step - 1 ∧
          SlowRaised Reg.POWER_BLOCK_STATUS [Flag.POWER_GOV_STEP] s t) ∧
        (¬ engage → ¬ release → t.sf Reg.PWR_STATE_GOV_STEP = step) ∧
        (triggered → step = 3 → t.sf Reg.PWR_STATE_GOV_EXHAUSTED = 1 ∧ t.sf Reg.PWR_ALERT_GOV_EXHAUSTED = 1 ∧
          t.sf Reg.GOV_STATS_EXHAUSTED = min (s.sf Reg.GOV_STATS_EXHAUSTED + 1) 65535 ∧
          SlowRaised Reg.POWER_BLOCK_STATUS [Flag.POWER_GOV_EXHAUSTED] s t) ∧
        (¬ triggered → t.sf Reg.PWR_STATE_GOV_EXHAUSTED = 0 ∧ t.sf Reg.PWR_ALERT_GOV_EXHAUSTED = 0)) ∧
       SlowBut [Reg.PWR_NOW, Reg.PWR_STATE, Reg.GOV_STATS, Reg.POWER_BLOCK_STATUS, Reg.PWR_ALERT] s t ∧
       t = { s with cycle := t.cycle, bus := { s.bus with slow := t.bus.slow },
                    aon := { s.aon with gov := t.aon.gov } })

/-- R56, R585, R588, R594: a rail out of its range sets its PWR_SUPPLY bit, the SUPPLY flag and the SUPPLY cause of ALERT_N; a rail
back in range clears its bit, and the cause where no bit is left. A write of PWR_SNAP waits in its queue; the edge of the slow
clock that applies it copies the total energy, the delivered pixels and Device Time into the snapshot registers and counts
SEQ. -/
def Obligations.SupplyRailsAndSnapshot : Prop :=
  (∀ (r : Fin 8) (s : State), s.Up →
    ∃ t, Sys2Proof.Machine.exec (.supplyOutOfRange r) s = .next t ∧
      t.sf Reg.PWR_SUPPLY_OUT = s.sf Reg.PWR_SUPPLY_OUT ||| 2 ^ r.val ∧ t.sf Reg.PWR_ALERT_SUPPLY = 1 ∧
      SlowRaised Reg.POWER_BLOCK_STATUS [Flag.POWER_SUPPLY] s t ∧
      SlowBut [Reg.PWR_SUPPLY, Reg.POWER_BLOCK_STATUS, Reg.PWR_ALERT] s t ∧
      t = { s with cycle := t.cycle, bus := { s.bus with slow := t.bus.slow } }) ∧
  (∀ (r : Fin 8) (s : State), s.Up →
    ∃ t, Sys2Proof.Machine.exec (.supplyRecovered r) s = .next t ∧
      (∀ i : Fin 8, bit (t.sf Reg.PWR_SUPPLY_OUT) i = (bit (s.sf Reg.PWR_SUPPLY_OUT) i && decide (i ≠ r))) ∧
      t.sf Reg.PWR_ALERT_SUPPLY = (if t.sf Reg.PWR_SUPPLY_OUT = 0 then 0 else 1) ∧
      SlowBut [Reg.PWR_SUPPLY, Reg.PWR_ALERT] s t ∧
      t = { s with cycle := t.cycle, bus := { s.bus with slow := t.bus.slow } }) ∧
  (∀ (r : Req) (d : Half) (s : State), s.Up → s.passes r Reg.PWR_SNAP .w32 true = true →
    ∃ t, Sys2Proof.Machine.exec (.pwrSnap r d) s = .next t ∧ SlowWritten r Reg.PWR_SNAP d.toNat s t) ∧
  (∀ (tj : List (BitVec 16)) (nJ : List Nat) (w : Forwarded) (s : State), s.Up → tj.length = 16 →
    (∀ v ∈ tj, sgn 16 v.toNat < 1840) → s.bus.nvmQ = [] → s.bus.powerQ = [w] → w.addr = Reg.PWR_SNAP → s.NoneWaits →
    ∃ t, Sys2Proof.Machine.exec (.slowClockEdge tj nJ) s = .next t ∧ t.bus.powerQ = [] ∧
      t.sf Reg.PWR_SNAP_ENERGY_UJ = t.sf Reg.PWR_ENERGY_TOTAL_UJ ∧
      t.sf Reg.PWR_SNAP_DELIVERED_PIXELS = s.sf Reg.PWR_DELIVERED_PIXELS ∧
      t.sf Reg.PWR_SNAP_TIME_NS = s.tq / 65536 % 2 ^ 56 ∧
      t.sf Reg.PWR_SNAP_TIME_SEQ = (s.sf Reg.PWR_SNAP_TIME_SEQ + 1) % 256)

/-! ### The Ingot -/

/-- R83, R84, R100: VALIDATE puts a LOADED, VALID or INVALID slot in VALIDATING; LOAD_NVM puts a slot in LOADED and starts
the copy, which waits where a store of its NVM sector is in progress (R568); CLEAR puts it in EMPTY, with undefined window
contents (free values, log entry 14). That VALIDATE and CLEAR end a copy in progress is the model's choice, log entry 15.
ID and GEN of the slot read zero, no slot is SWAPPABLE, and the other slot keeps its state. R83: an INGOT_CMD that its
slot's state does not accept is ignored, with CMD_REFUSED, and INGOT_SWAP_LOG shows the code of the first row of the
refusals that applies. -/
def Obligations.IngotSlotCommands : Prop :=
  (∀ (r : Req) (slot : Fin 2) (s : State), s.Up → s.passes r Reg.INGOT_CMD .w32 true = true →
     (s.aon.held = true → s.hasIngot = false) →
     (s.slotState slot = 1 ∨ s.slotState slot = 3 ∨ s.slotState slot = 4 →
       ∃ t, Sys2Proof.Machine.exec (.validate r slot) s = .next t ∧ Answered r 0 s t ∧ t.slotState slot = 2 ∧
         SlotLeft slot s t ∧
         t = { s with regs := t.regs, cycle := t.cycle, copying := s.copying.filter (· != slot.val),
                      bus := { s.bus with resp := t.bus.resp, slow := t.bus.slow } }) ∧
     (s.slotState slot ≠ 2 → s.slotState slot ≠ 5 → s.slotState slot ≠ 6 →
       (∃ t, Sys2Proof.Machine.exec (.loadNvm r slot) s = .next t ∧ Answered r 0 s t ∧ t.slotState slot = 1 ∧
         SlotLeft slot s t ∧
         t = { s with regs := t.regs, cycle := t.cycle, copying := setAdd s.copying slot.val,
                      copyWaits := if s.nvm.storing = some (16 + slot.val) then setAdd s.copyWaits slot.val
                        else s.copyWaits.filter (· != slot.val),
                      bus := { s.bus with resp := t.bus.resp, slow := t.bus.slow } }) ∧
       (∃ t, Sys2Proof.Machine.exec (.clear r slot) s = .next t ∧ Answered r 0 s t ∧ t.slotState slot = 0 ∧
         SlotLeft slot s t ∧
         (∀ a, (a < slotBase slot ∨ slotBase slot + 65536 ≤ a) → Mem.read t.mem a = Mem.read s.mem a) ∧
         t = { s with regs := t.regs, cycle := t.cycle, mem := t.mem, poison := t.poison, free := s.free + 1,
                      copying := s.copying.filter (· != slot.val),
                      bus := { s.bus with resp := t.bus.resp, slow := t.bus.slow } }))) ∧
  (∀ (r : Req) (d : Half) (s : State), s.Up → s.passes r Reg.INGOT_CMD .w32 true = true →
     (s.aon.held = true → s.hasIngot = false) →
     (let op := bits d.toNat 3 0
      let st := s.slotState (bits d.toNat 4 4)
      let code :=
        if op = 0 ∨ 4 < op then 0x20
        else if st = 2 ∨ st = 6 then 0x1B
        else if op = 4 ∧ s.hasIngot = true then 0x1E
        else if op ≠ 4 ∧ st = 5 then 0x1E
        else if op = 4 ∧ st ≠ 3 then 0x1D
        else if op = 1 ∧ st = 0 then 0x1F
        else 0
      code ≠ 0 →
      ∃ t, Sys2Proof.Machine.exec (.ingotCmdRefused r d) s = .next t ∧ Answered r 0 s t ∧
        t.f Reg.INGOT_SWAP_LOG_CODE = code ∧ t.f Reg.INGOT_SWAP_LOG_FRAME = s.refPos.f % 2 ^ 48 ∧
        t.f Reg.INGOT_SWAP_LOG_COUNT = s.f Reg.INGOT_SWAP_LOG_COUNT ∧
        Raised Reg.INGOT_BLOCK_STATUS [Flag.INGOT_CMD_REFUSED] s t ∧
        RegsBut [Reg.INGOT_SWAP_LOG, Reg.INGOT_BLOCK_STATUS] s t ∧ SlowBut [Reg.PWR_ALERT] s t ∧
        t = { s with regs := t.regs, cycle := t.cycle, bus := { s.bus with resp := t.bus.resp, slow := t.bus.slow } }))

/-- R35, R71, R83, R431: ACTIVATE of a VALID slot with no Ingot active makes the slot ACTIVE, takes the image's reference
rate and line count for the FCLKs after this one, cancels an armed rate change, gives the part its strapped role in the chain, and sets every enabled
raster to start in a later FCLK. R529, R574 to R576: where the boot of a worker waits for it, step 7 runs then: the class floors and the
mailbox bindings are set and locked, on a GX8128-M the cores are released, and boot completes with OK. -/
def Obligations.IngotActivate : Prop :=
  ∀ (r : Req) (slot : Fin 2) (s : State), s.Up → s.passes r Reg.INGOT_CMD .w32 true = true → s.hasIngot = false →
    s.slotState slot = 3 →
    (let now (t : State) : Prop := Answered r 0 s t ∧
      t.hasIngot = true ∧ t.slot = slot ∧ t.slotState slot = 5 ∧
      t.time.rateNext = some (s.img slot 1 4 4, s.img slot 1 8 4, s.img slot 1 12 2) ∧ t.time.armed = false ∧
      t.time.n = s.time.n ∧ t.time.d = s.time.d ∧ t.time.l = s.time.l ∧
      t.f Reg.CHAIN_STATE_ROLE = s.f Reg.CHAIN_STATE_STRAP_ROLE + 1 ∧
      (∀ m : Fin 16, s.rasterEnabled slot m = true → ∃ k, t.raster m = { mode := .unstarted k, notBefore := s.fclk + 1 }) ∧
      (∀ m : Fin 16, s.rasterEnabled slot m = false → t.raster m = s.raster m) ∧ SameMem s t
     (s.aon.held = false ∨ s.aon.keeperUp = false →
       ∃ t, Sys2Proof.Machine.exec (.activate r slot) s = .next t ∧ now t) ∧
     (s.aon.held = true → s.aon.keeperUp = true → s.sf Reg.BOOT_STATUS_CODE = 7 →
       ∃ t, Sys2Proof.Machine.exec (.activate r slot) s = .next t ∧ now t ∧
         t.sf Reg.BOOT_STATUS_STEP = 8 ∧ t.sf Reg.BOOT_STATUS_CODE = 0 ∧ t.sf Reg.PWR_ALERT_BOOT = 0 ∧ t.aon.held = false ∧
         (∀ k : Fin 16, t.reg (Reg.CLASS_FLOOR k) = BitVec.ofNat 64 (s.param (0x40 + 4 * k) 4)) ∧ t.f Reg.CLASS_LOCK_LOCKED = 1 ∧
         (∀ n : Fin 64,
           let entry (o : Nat) : Nat := s.img slot 9 (4 * n + o) 1
           let bound := bit (entry 2) 0
           t.f (Reg.MB_BIND_EN n) = (if bound then 1 else 0) ∧
           (bound = true → t.f (Reg.MB_BIND_SENDER n) = entry 0 % 32 ∧ t.f (Reg.MB_BIND_RECEIVER n) = entry 1 % 32)) ∧
         t.f Reg.MB_BIND_LOCK_LOCKED = 1 ∧
         (∀ a, s.isM = true → s.aon.entry = some a →
           t.f Reg.APPCX_RESET_VEC_VEC = a / 4 % 2 ^ 38 ∧ t.f Reg.APPCX_CORE_CTRL_RELEASE = s.param 0x12 1)))

/-- R81, R83, R84, R568: when the copy of LOAD_NVM is done the window holds the NVM sector, bytes with an error read
zero, and the slot goes VALIDATING; a copy that began while its sector was being stored waits for the end of the store. When
validation ends the slot is VALID or INVALID with the result of the checks, and
VALIDATED or INVALID is set. -/
def Obligations.IngotCopyAndValidation : Prop :=
  (∀ (slot : Fin 2) (s : State), s.Up → s.copying.contains slot.val = true → s.slotState slot = 1 →
    s.copyWaits.contains slot.val = false →
    ∃ t, Sys2Proof.Machine.exec (.nvmCopyDone slot) s = .next t ∧ t.slotState slot = 2 ∧
      t.copying = s.copying.filter (· != slot.val) ∧
      (∀ o < 65536, ∀ b : Byte, (∀ c ∈ s.nvm.cells, c.1 = (16 + slot.val) * 65536 + o → c.2 = b) →
        (∃ c ∈ s.nvm.cells, c.1 = (16 + slot.val) * 65536 + o) →
        s.nvm.bad.contains ((16 + slot.val) * 65536 + o) = false → Mem.read t.mem (slotBase slot + o) = b) ∧
      (∀ o < 65536, ((∀ c ∈ s.nvm.cells, c.1 ≠ (16 + slot.val) * 65536 + o) ∨
          s.nvm.bad.contains ((16 + slot.val) * 65536 + o) = true) → Mem.read t.mem (slotBase slot + o) = 0) ∧
      (∀ a, (a < slotBase slot ∨ slotBase slot + 65536 ≤ a) → Mem.read t.mem a = Mem.read s.mem a) ∧
      RegsBut [Reg.INGOT_SLOT_STATE 0, Reg.INGOT_SLOT_STATE 1, Reg.INGOT_SLOT_ID slot, Reg.INGOT_SLOT_GEN slot] s t ∧
      SlowRaised Reg.NVM_BLOCK_STATUS
        (if s.nvm.bad.any (fun b => decide ((16 + slot.val) * 65536 ≤ b) && decide (b < (16 + slot.val) * 65536 + 65536))
         then [Flag.NVM_READ_ERROR] else []) s t) ∧
  (∀ (slot : Fin 2) (s : State), s.Up → s.copyWaits.contains slot.val = true →
    ∃ t, Sys2Proof.Machine.exec (.nvmCopyDone slot) s = .next t ∧ Nothing s t) ∧
  (∀ (slot : Fin 2) (s : State), s.Up → s.slotState slot = 2 → s.poisoned (slotBase slot) (s.slotNum slot 8 4) = false →
    ∃ t, Sys2Proof.Machine.exec (.validationDone slot) s = .next t ∧
      (let x := s.imageResult slot
       t.f (Reg.INGOT_SLOT_STATE_ERR_CODE slot) = x.code % 256 ∧
       t.f (Reg.INGOT_SLOT_STATE_ERR_SECTION slot) = x.sec % 256 ∧
       t.f (Reg.INGOT_SLOT_STATE_ERR_ENTRY slot) = x.ent % 256 ∧ t.f (Reg.INGOT_SLOT_STATE_SIG slot) = x.sig % 4 ∧
       t.slotState slot = (if x.code = 0 then 3 else 4) ∧
       t.f (Reg.INGOT_SLOT_STATE_SWAPPABLE slot) =
         (if x.code = 0 ∧ s.slotState (1 - slot.val) = 5 ∧ s.swapAllowed slot (1 - slot.val) = true then 1 else 0) ∧
       (x.code = 0 → t.f (Reg.INGOT_SLOT_ID_ID slot) = s.slotNum slot 0x10 4 ∧
         t.f (Reg.INGOT_SLOT_GEN_GEN slot) = s.slotNum slot 0x14 4) ∧
       (x.code ≠ 0 → t.reg (Reg.INGOT_SLOT_ID slot) = 0 ∧ t.reg (Reg.INGOT_SLOT_GEN slot) = 0) ∧
       Raised Reg.INGOT_BLOCK_STATUS (if x.code = 0 then [Flag.INGOT_VALIDATED] else [Flag.INGOT_INVALID]) s t) ∧
      SlowRaised Reg.NVM_BLOCK_STATUS
        (if (s.imageForm slot).isNone = true ∧ s.nvm.stored.contains 20 = true ∧ s.nvmSpoiled 20 32 = true
         then [Flag.NVM_READ_ERROR] else []) s t ∧
      SlowBut [Reg.NVM_BLOCK_STATUS] s t ∧
      RegsBut [Reg.INGOT_SLOT_STATE 0, Reg.INGOT_SLOT_STATE 1, Reg.INGOT_SLOT_ID slot, Reg.INGOT_SLOT_GEN slot,
        Reg.INGOT_BLOCK_STATUS] s t ∧
      t = { s with regs := t.regs, cycle := t.cycle, bus := { s.bus with slow := t.bus.slow } })

/-- R87, R88, R95, R101: the SWAP_INGOT cue makes its slot ACTIVE and the old one RETIRING, with SWAP_PENDING, or, where
nothing is left to land, VALID; INGOT_SWAP_LOG and INGOT_SWAP_HIT record the swap. A swap that R87 refuses changes nothing
of the Ingot, sets SWAP_REFUSED, and its code is recorded. R90, R92: a hit raster restarts, once Device Time has reached
the ideal start of the frame of its restart, with that frame under its live timing, and the frame is sent unless Thermal
Hold stops it. As the electrical idle of a quad ends, the LINK_UP of its ports follows what the PCS has reported. -/
def Obligations.IngotSwap : Prop :=
  ((∀ (cue : Fin 8192) (x : ArmedCue) (s : State), s.Up → CueRuns cue 3 x s →
     s.hasIngot = true → s.cueByte cue < 2 → s.swapCode (s.cueByte cue) = 0 →
     ∃ t, Sys2Proof.Machine.exec (.swapIngot cue) s = .next t ∧ t.ran = s.ran + 1 ∧
       t.slot = s.cueByte cue ∧ t.slotState (s.cueByte cue) = 5 ∧
       ((t.swap ≠ [] ∧ t.f Reg.INGOT_ACTIVE_SWAP_PENDING = 1 ∧ t.slotState (1 - s.cueByte cue) = 6) ∨
        (t.swap = [] ∧ t.f Reg.INGOT_ACTIVE_SWAP_PENDING = 0 ∧ t.slotState (1 - s.cueByte cue) = 3 ∧
         t.flagSet Reg.INGOT_BLOCK_STATUS Flag.INGOT_SWAP_LANDED = true)) ∧
       t.f Reg.INGOT_SWAP_LOG_CODE = 0 ∧ t.f Reg.INGOT_SWAP_LOG_FRAME = s.refPos.f % 2 ^ 48 ∧
       t.f Reg.INGOT_SWAP_LOG_COUNT = min (s.f Reg.INGOT_SWAP_LOG_COUNT + 1) 255 ∧
       t.f Reg.INGOT_SWAP_HIT_ORS = maskOf (s.hitRasters (s.cueByte cue) (1 - s.cueByte cue))) ∧
   (∀ (cue : Fin 8192) (x : ArmedCue) (s : State), s.Up → CueRuns cue 3 x s →
     s.swapCode (s.cueByte cue) ≠ 0 →
     ∃ t, Sys2Proof.Machine.exec (.swapIngot cue) s = .next t ∧ t.ran = s.ran + 1 ∧
       t.f Reg.INGOT_SWAP_LOG_CODE = s.swapCode (s.cueByte cue) ∧ t.f Reg.INGOT_SWAP_LOG_FRAME = s.refPos.f % 2 ^ 48 ∧
       Raised Reg.INGOT_BLOCK_STATUS [Flag.INGOT_SWAP_REFUSED] s t ∧
       t.reg Reg.INGOT_ACTIVE = s.reg Reg.INGOT_ACTIVE ∧ t.swap = s.swap ∧ t.rasters = s.rasters ∧ t.ports = s.ports ∧
       (∀ k : Fin 2, t.reg (Reg.INGOT_SLOT_STATE k) = s.reg (Reg.INGOT_SLOT_STATE k)) ∧
       t.flagSet Reg.CUE_BLOCK_STATUS Flag.CUE_CUE_FAILED = true)) ∧
  ((∀ (m : Fin 16) (k : Nat) (s : State), s.Up → (s.raster m).mode = .hit k →
     s.startReached (if Tab.find s.swap m = some (.restart true) then s.entryTiming s.slot m else s.liveTiming m) k = true →
     ∃ t, Sys2Proof.Machine.exec (.hitRasterRestart m) s = .next t ∧
       (t.raster m).mode = .run ∧ (t.raster m).frame = k ∧ (t.raster m).pos = 0 ∧ (t.raster m).tim = t.liveTiming m ∧
       (t.raster m).sentCur = !s.thermalHold ∧ (t.raster m).heldCur = false ∧
       (t.raster m).forceDirty = true ∧ t.f (Reg.TB_ORS_PHASE_STATE m) = 1) ∧
   (∀ (q : Fin 32) (s : State), s.Up →
     ∃ t, Sys2Proof.Machine.exec (.quadIdleEnd q) s = .next t ∧ t.quadIdle = s.quadIdle.filter (· != q.val) ∧
       (∀ l : Fin 4, t.f (Reg.PORT_LINK_LINK_UP (4 * q + l)) = 1 ↔
         s.f (Reg.PORT_LINK_BLOCK_LOCK (4 * q + l)) = 1 ∧ s.f (Reg.PORT_LINK_HI_BER (4 * q + l)) = 0 ∧
         (s.f (Reg.PQ_MODE_MODE q) = 1 → s.f (Reg.PQ_LANE_CFG_AN_EN q l) = 1 →
           s.f (Reg.PORT_LINK_AN_DONE (4 * q + l)) = 1) ∧
         (s.f (Reg.PQ_MODE_MODE q) = 4 → s.f (Reg.PORT_LINK_FEC_LOCK (4 * q + l)) = 1) ∧
         s.f (Reg.PQ_MODE_MODE q) ≠ 0 ∧ s.f (Reg.PQ_REFCLK_PRESENT q) = 1) ∧
       (∀ a, (∀ l : Fin 4, a ≠ Reg.PORT_LINK (4 * q + l) ∧ a ≠ Reg.PORT_PHY_COUNTS (4 * q + l) ∧
         a ≠ Reg.PORT_STATUS (4 * q + l)) → t.reg a = s.reg a) ∧
       t = { s with regs := t.regs, cycle := t.cycle, quadIdle := t.quadIdle }))

/-! ### The timebase -/

/-- R105, R106, R108, R132: a write of TB_INCR is clamped to ±500 ppm of nominal and sets INCR_CLAMPED where it was; a step
and a set wait for the end of the FCLK, in the order of their masters, and set STEP_DONE; a capture copies Device Time and the reference position; a write
of TB_SYNCOUT_CFG keeps a pulse in progress and makes the pair wait for the new source. -/
def Obligations.TimebaseWrites : Prop :=
  (∀ (r : Req) (d : Word) (s : State), s.Up → s.passes r Reg.TB_INCR .w64 true = true →
    ∃ t, Sys2Proof.Machine.exec (.tbIncrWrite r d) s = .next t ∧ Answered r 0 s t ∧
      t.f Reg.TB_INCR_INCR = min 93871904733003 (max 93778079740767 (bits d.toNat 47 0)) ∧
      Raised Reg.TIMEBASE_BLOCK_STATUS
        (if t.f Reg.TB_INCR_INCR = bits d.toNat 47 0 then [] else [Flag.TIMEBASE_INCR_CLAMPED]) s t ∧
      RegsBut [Reg.TB_INCR, Reg.TIMEBASE_BLOCK_STATUS] s t ∧
      t = { s with regs := t.regs, cycle := t.cycle, time := { s.time with history := t.time.history },
                   bus := { s.bus with resp := t.bus.resp, hold := t.bus.hold, stage := t.bus.stage } }) ∧
  (∀ (r : Req) (d : Word) (s : State), s.Up → s.passes r Reg.TB_STEP .w64 true = true →
    ∃ t, Sys2Proof.Machine.exec (.tbStep r d) s = .next t ∧ Answered r 0 s t ∧
      Raised Reg.TIMEBASE_BLOCK_STATUS [Flag.TIMEBASE_STEP_DONE] s t ∧ RegsBut [Reg.TIMEBASE_BLOCK_STATUS] s t ∧
      t = { s with regs := t.regs, cycle := t.cycle,
                   time := { s.time with ops := addTimeOp s.time.ops r.master.val (.step (sgn 64 d.toNat)) },
                   bus := { s.bus with resp := t.bus.resp, hold := t.bus.hold, stage := t.bus.stage } }) ∧
  (∀ (r : Req) (d : Half) (s : State), s.Up → s.passes r Reg.TB_SET_NS .w32 true = true →
    ∃ t, Sys2Proof.Machine.exec (.tbSetNs r d) s = .next t ∧ Answered r 0 s t ∧
      Raised Reg.TIMEBASE_BLOCK_STATUS [Flag.TIMEBASE_STEP_DONE] s t ∧ RegsBut [Reg.TIMEBASE_BLOCK_STATUS] s t ∧
      t.time.ops = addTimeOp s.time.ops r.master.val
        (.set ((s.time.setSec * 1000000000 + min 999999999 (bits d.toNat 29 0)) * 65536 + s.time.setFrac)) ∧
      t = { s with regs := t.regs, cycle := t.cycle, time := { s.time with ops := t.time.ops },
                   bus := { s.bus with resp := t.bus.resp } }) ∧
  (∀ (r : Req) (d : Half) (s : State), s.Up → s.passes r Reg.TB_CAPTURE .w32 true = true →
    ∃ t, Sys2Proof.Machine.exec (.tbCapture r d) s = .next t ∧ Answered r 0 s t ∧
      t.f Reg.TB_CAP_TIME_SEC = s.tq / (65536 * 1000000000) % 2 ^ 48 ∧ t.f Reg.TB_CAP_TIME_FRAC = s.tq % 65536 ∧
      t.f Reg.TB_CAP_NS_NS = s.tq / 65536 % 1000000000 ∧
      t.f Reg.TB_CAP_RPF_F = s.refPos.f % 2 ^ 48 ∧ t.f Reg.TB_CAP_RPLT_L = s.refPos.l % 2 ^ 16 ∧
      t.f Reg.TB_CAP_RPLT_T = s.refPos.t ∧
      OnlyRegs [Reg.TB_CAP_TIME, Reg.TB_CAP_NS, Reg.TB_CAP_RPF, Reg.TB_CAP_RPLT] s t) ∧
  (∀ (r : Req) (n : Fin 4) (d : Half) (s : State), s.Up → s.passes r (Reg.TB_SYNCOUT_CFG n) .w32 true = true →
    ∃ t, Sys2Proof.Machine.exec (.syncoutCfgWrite r n d) s = .next t ∧ Answered r 0 s t ∧
      bits (t.reg (Reg.TB_SYNCOUT_CFG n)).toNat 31 0 = d.toNat ∧ RegsBut [Reg.TB_SYNCOUT_CFG n] s t ∧
      (∀ p, s.time.sync[n.val]? = some p → ∃ b, t.time.sync[n.val]? = some { p with
        oldH := if p.h then some (p.oldH.getD (s.reg (Reg.TB_SYNCOUT_CFG n))) else none,
        oldV := if p.v then some (p.oldV.getD (s.reg (Reg.TB_SYNCOUT_CFG n))) else none,
        waiting := true, vSource := b }) ∧
      (∀ k : Fin 4, k ≠ n → t.time.sync[k.val]? = s.time.sync[k.val]?) ∧
      t = { s with regs := t.regs, cycle := t.cycle, time := { s.time with sync := t.time.sync },
                   bus := { s.bus with resp := t.bus.resp } })

/-- R120, R123: a write of TB_REF_APPLY arms the change for a later frame, and is rejected at once with cause 4 otherwise;
the armed change is judged once, when the reference position has reached its frame, under the limits of R120, R23 and R29:
it is accepted with REF_CHANGE_DONE and governs from the next FCLK, or is rejected with its cause and TB_REF_RATE and
TB_REF_LINES return to their live values. Where several rejections hold the lowest-numbered is reported: the model's
choice, log entry 94. R113 to R115: REFSYNC_F edges are timestamped and judged against the reference frame period and the
line count, and the third consecutive good period qualifies REFSYNC; a bad one, or missing edges, loses it with
REFSYNC_ERROR. REFSYNC_L edges count. The third PPS_IN edge one second apart under a good REF10M_IN qualifies PPS, and
missing edges lose it. REFSYNC_ERROR at missing edges is the model's choice, log entry 69. -/
def Obligations.ReferenceRateAndInputs : Prop :=
  ((∀ (r : Req) (d : Word) (s : State), s.Up → s.passes r Reg.TB_REF_APPLY .w64 true = true →
     s.refPos.f < bits d.toNat 47 0 →
     ∃ t, Sys2Proof.Machine.exec (.tbRefApply r d) s = .next t ∧ Answered r 0 s t ∧
       t.f Reg.TB_REF_APPLY_AT_FRAME = bits d.toNat 47 0 ∧ RegsBut [Reg.TB_REF_APPLY] s t ∧
       t = { s with regs := t.regs, cycle := t.cycle, time := { s.time with armed := true },
                    bus := { s.bus with resp := t.bus.resp, hold := t.bus.hold, stage := t.bus.stage } }) ∧
   (∀ (r : Req) (d : Word) (s : State), s.Up → s.passes r Reg.TB_REF_APPLY .w64 true = true →
     bits d.toNat 47 0 ≤ s.refPos.f →
     ∃ t, Sys2Proof.Machine.exec (.tbRefApply r d) s = .next t ∧ Answered r 0 s t ∧
       t.f Reg.TB_REF_APPLY_REJECT_CAUSE = 4 ∧ t.f Reg.TB_REF_RATE_N = s.liveRate.1 % 2 ^ 21 ∧
       t.f Reg.TB_REF_RATE_D = s.liveRate.2.1 % 2 ^ 21 ∧ t.f Reg.TB_REF_LINES_L_REF = s.liveRate.2.2 % 2 ^ 16 ∧
       Raised Reg.TIMEBASE_BLOCK_STATUS [Flag.TIMEBASE_REF_CHANGE_REJECTED] s t ∧
       RegsBut [Reg.TB_REF_APPLY, Reg.TB_REF_RATE, Reg.TB_REF_LINES, Reg.TIMEBASE_BLOCK_STATUS] s t ∧
       t = { s with regs := t.regs, cycle := t.cycle, time := { s.time with armed := false },
                    bus := { s.bus with resp := t.bus.resp, hold := t.bus.hold, stage := t.bus.stage } }) ∧
   (∀ s : State, s.Up → s.time.armed = true → s.f Reg.TB_REF_APPLY_AT_FRAME ≤ s.refPos.f →
     ∃ t, Sys2Proof.Machine.exec .refChangeJudge s = .next t ∧
       (let n := s.f Reg.TB_REF_RATE_N
        let d := s.f Reg.TB_REF_RATE_D
        let l := s.f Reg.TB_REF_LINES_L_REF
        let cause :=
          if ¬ (1 ≤ n ∧ n ≤ 2 ^ 20 ∧ 1 ≤ d ∧ d ≤ 2 ^ 20 ∧ 24000 * d ≤ 1001 * n ∧ n ≤ 240 * d ∧ 1 ≤ l ∧ l ≤ 65535) then 1
          else if s.hasIngot = true ∧ ∃ c : Fin 8, 3000000000 * d <
              ((s.clusterRasters s.slot c).map fun m =>
                (s.liveTiming m).hTotal * (s.liveTiming m).vTotal * (s.liveTiming m).sub).sum * n then 2
          else if ∃ m : Fin 16, s.enabled m = true ∧ 960 * d < n * (s.liveTiming m).sub then 3
          else 0
        t.f Reg.TB_REF_APPLY_REJECT_CAUSE = cause ∧
        (cause = 0 →
          Raised Reg.TIMEBASE_BLOCK_STATUS [Flag.TIMEBASE_REF_CHANGE_DONE] s t ∧
          RegsBut [Reg.TB_REF_APPLY, Reg.TIMEBASE_BLOCK_STATUS] s t ∧
          t = { s with regs := t.regs, cycle := t.cycle,
                       time := { s.time with armed := false, rateNext := some (n, d, l) } }) ∧
        (cause ≠ 0 →
          Raised Reg.TIMEBASE_BLOCK_STATUS [Flag.TIMEBASE_REF_CHANGE_REJECTED] s t ∧
          t.f Reg.TB_REF_RATE_N = s.liveRate.1 % 2 ^ 21 ∧ t.f Reg.TB_REF_RATE_D = s.liveRate.2.1 % 2 ^ 21 ∧
          t.f Reg.TB_REF_LINES_L_REF = s.liveRate.2.2 % 2 ^ 16 ∧
          RegsBut [Reg.TB_REF_APPLY, Reg.TB_REF_RATE, Reg.TB_REF_LINES, Reg.TIMEBASE_BLOCK_STATUS] s t ∧
          t = { s with regs := t.regs, cycle := t.cycle, time := { s.time with armed := false } }))) ∧
   (∀ s : State, s.Up → s.time.armed = false ∨ s.refPos.f < s.f Reg.TB_REF_APPLY_AT_FRAME →
     ∃ t, Sys2Proof.Machine.exec .refChangeJudge s = .next t ∧ Nothing s t)) ∧
  ((∀ s : State, s.Up → s.time.fEdge = none →
     ∃ t, Sys2Proof.Machine.exec .refsyncFEdge s = .next t ∧
       t = { s with time := { s.time with fEdge := some s.time.steady, lines := 0, fGood := 0 } }) ∧
   (∀ (e : Nat) (s : State), s.Up → s.time.fEdge = some e →
     ∃ t, Sys2Proof.Machine.exec .refsyncFEdge s = .next t ∧
       t.f Reg.TB_REFSYNC_STAT_LINES = s.time.lines % 65536 ∧ t.time.fEdge = some s.time.steady ∧ t.time.lines = 0 ∧
       (let p : Nat := s.time.d * 10 ^ 9 * 2 ^ 48 / s.time.n
        let good := ((s.time.steady : Int) - e - p).natAbs * 10000 ≤ p ∧
          (s.fb Reg.TB_REFSYNC_CFG_LINE_CHECK = false ∨ s.time.lines = s.time.l)
        (good → t.time.fGood = s.time.fGood + 1 ∧
          (s.time.fGood + 1 = 3 → ∃ q ∈ t.time.sources, q.src = .refsync ∧ q.offset = s.refsyncOffset) ∧
          (s.time.fGood + 1 ≠ 3 →
            t.time.sources = (s.noteOffset .refsync s.refsyncOffset).time.sources ∧ RegsBut [Reg.TB_REFSYNC_STAT] s t)) ∧
        (¬ good → t.time.fGood = 0 ∧ (∀ q ∈ t.time.sources, q.src ≠ .refsync) ∧
          t.flagSet Reg.TIMEBASE_BLOCK_STATUS Flag.TIMEBASE_REFSYNC_ERROR = true)) ∧
       SameMem s t ∧ t.time.dt = s.time.dt) ∧
   (∀ s : State, s.Up →
     ∃ t, Sys2Proof.Machine.exec .refsyncLEdge s = .next t ∧
       t = { s with time := { s.time with lEdge := some s.time.steady, lines := s.time.lines + 1 } }) ∧
   (∀ (ok : Bool) (ns : Nat) (s : State), s.Up →
     ∃ t, Sys2Proof.Machine.exec (.ppsInEdge ok ns) s = .next t ∧ t.time.ppsEdge = some s.time.steady ∧
       t.time.ppsGood = (if ok = false then 0 else if s.time.ppsEdge.isSome = true ∧ 999999000 ≤ ns ∧ ns ≤ 1000001000
                         then s.time.ppsGood + 1 else 1) ∧
       (t.time.ppsGood = 3 → ∃ q ∈ t.time.sources, q.src = .pps) ∧
       (t.time.ppsGood ≠ 3 → t = { s with time := { s.time with
           ppsEdge := some s.time.steady, ppsGood := t.time.ppsGood, sources := t.time.sources } } ∧
         t.time.sources.map (fun q => (q.src, q.ptpPort, q.gm)) = s.time.sources.map fun q => (q.src, q.ptpPort, q.gm)) ∧
       SameMem s t) ∧
   (∀ s : State, s.Up →
     ∃ t, Sys2Proof.Machine.exec .refsyncLost s = .next t ∧ t.time.fGood = 0 ∧ t.time.fEdge = none ∧
       t.time.sources = s.time.sources.filter (fun q => q.src != .refsync) ∧
       t.flagSet Reg.TIMEBASE_BLOCK_STATUS Flag.TIMEBASE_REFSYNC_ERROR = true ∧ SameMem s t) ∧
   (∀ s : State, s.Up →
     ∃ t, Sys2Proof.Machine.exec .ppsLost s = .next t ∧ t.time.ppsGood = 0 ∧ t.time.ppsEdge = none ∧
       t.time.sources = s.time.sources.filter (fun q => q.src != .pps) ∧ SameMem s t))

/-- R117, R118: a source of TB_SRC_CFG that qualifies in FREERUN or HOLDOVER is acquired; the selected source lost gives
way to the best other one, or HOLDOVER begins with TB_INCR at the mean of the history; a source of higher priority takes
over where REVERT_S is not 0. Every transition sets STATE_CHANGE, a change of source SOURCE_SWITCH, the loss of the
selected source SOURCE_LOST; the first acquisition steps, and a later one where STEP_EN is 1 and the offset exceeds
STEP_US; else a slew begins. While PTP is followed, a master that BMCA selects anew shows in TB_STATE and TB_GM_ID (R109,
R134). While the Keeper is being reset its firmware takes no source and leaves none (R572, log entry 108). SOURCE 0 in
HOLDOVER and SOURCE_SWITCH between two sources alone are the model's choice, log entry 69; so is the mean over a shorter
history, log entry 86; the offset of a PTP source that takes over is open (log entry 95). R117, R118: a measurement is
shown in TB_SERVO, and in ACQUIRE and LOCKED the servo drives TB_INCR, during a slew within SLEW_PPM of the increment from
which it departs; which increment it takes is open (log entry 56). In ACQUIRE, LOCK_COUNT consecutive ones within LOCK_NS
lead to LOCKED; in LOCKED, four consecutive ones beyond UNLOCK_NS lead back to ACQUIRE. While the Keeper is being reset
its servo pauses, and the CHAIN block's own goes on (R572, log entry 108). -/
def Obligations.TimeSourcesAndMeasurement : Prop :=
  ((∀ (src : TimeSource) (pp : Fin 2) (gm : Word) (o : Int) (s : State), s.Up →
     (s.f Reg.TB_STATE_STATE = 0 ∨ s.f Reg.TB_STATE_STATE = 3) → (s.sourceRank src).isSome = true → s.actsOn src = true →
     ∃ t, Sys2Proof.Machine.exec (.sourceQualified src pp gm o) s = .next t ∧ Acquired ⟨src, pp, gm, o⟩ [] s t ∧
       t.time.sources = addSource s.time.sources ⟨src, pp, gm, o⟩) ∧
   (∀ (src : TimeSource) (pp : Fin 2) (gm : Word) (o : Int) (s : State), s.Up →
     ¬ ((s.f Reg.TB_STATE_STATE = 0 ∨ s.f Reg.TB_STATE_STATE = 3) ∧ (s.sourceRank src).isSome = true ∧ s.actsOn src = true) →
     ¬ (src = .ptp ∧ s.f Reg.TB_STATE_SOURCE = 1 ∧ s.actsOn src = true) →
     ∃ t, Sys2Proof.Machine.exec (.sourceQualified src pp gm o) s = .next t ∧
       t = { s with time := { s.time with sources := addSource s.time.sources ⟨src, pp, gm, o⟩ } }) ∧
   (∀ (pp : Fin 2) (gm : Word) (o : Int) (s : State), s.Up → s.f Reg.TB_STATE_SOURCE = 1 → s.aon.keeperUp = true →
     ¬ ((s.f Reg.TB_STATE_STATE = 0 ∨ s.f Reg.TB_STATE_STATE = 3) ∧ (s.sourceRank .ptp).isSome = true) →
     ∃ t, Sys2Proof.Machine.exec (.sourceQualified .ptp pp gm o) s = .next t ∧
       t.f Reg.TB_STATE_PTP_PORT = pp.val ∧ t.reg Reg.TB_GM_ID = gm ∧ t.f Reg.TB_STATE_SOURCE = 1 ∧
       t.f Reg.TB_STATE_STATE = s.f Reg.TB_STATE_STATE ∧ RegsBut [Reg.TB_STATE, Reg.TB_GM_ID] s t ∧
       t = { s with regs := t.regs, time := { s.time with sources := addSource s.time.sources ⟨.ptp, pp, gm, o⟩ } }) ∧
   (∀ (src : TimeSource) (s : State), s.Up →
     ¬ (s.f Reg.TB_STATE_SOURCE = sourceNum src ∧ (s.f Reg.TB_STATE_STATE = 1 ∨ s.f Reg.TB_STATE_STATE = 2) ∧
       s.actsOn src = true) →
     ∃ t, Sys2Proof.Machine.exec (.sourceLost src) s = .next t ∧
       t = { s with time := { s.time with sources := s.time.sources.filter fun q => q.src != src } }) ∧
   (∀ (src : TimeSource) (s : State), s.Up → s.f Reg.TB_STATE_SOURCE = sourceNum src →
     (s.f Reg.TB_STATE_STATE = 1 ∨ s.f Reg.TB_STATE_STATE = 2) → s.actsOn src = true →
     ∃ t, Sys2Proof.Machine.exec (.sourceLost src) s = .next t ∧
       t.time.sources = s.time.sources.filter (fun q => q.src != src) ∧
       (∀ q, (s.setTime { s.time with sources := t.time.sources }).bestSource = some q →
         (q.src ≠ .ptp → Acquired q [Flag.TIMEBASE_SOURCE_LOST] s t) ∧
         (q.src = .ptp → Acquired ⟨q.src, q.ptpPort, q.gm, sgn 64 s.takeFree.1⟩ [Flag.TIMEBASE_SOURCE_LOST] s.takeFree.2 t)) ∧
       ((s.setTime { s.time with sources := t.time.sources }).bestSource = none →
         t.f Reg.TB_STATE_STATE = 3 ∧ t.f Reg.TB_STATE_SOURCE = 0 ∧
         t.f Reg.TB_INCR_INCR =
           (if s.aon.keeperUp = true then min 93871904733003 (max 93778079740767 s.meanIncr) else s.f Reg.TB_INCR_INCR) ∧
         Raised Reg.TIMEBASE_BLOCK_STATUS [Flag.TIMEBASE_SOURCE_LOST, Flag.TIMEBASE_STATE_CHANGE] s t ∧
         RegsBut [Reg.TB_STATE, Reg.TB_INCR, Reg.TIMEBASE_BLOCK_STATUS] s t ∧
         t = { s with regs := t.regs, cycle := t.cycle,
                      time := { s.time with sources := t.time.sources, holdFrom := s.time.steady, inRow := 0, slew := none } })) ∧
   (∀ (src : TimeSource) (pp : Fin 2) (gm : Word) (o : Int) (k : Nat) (s : State), s.Up → s.sourceRank src = some k →
     s.f Reg.TB_SRC_CFG_REVERT_S ≠ 0 → s.f Reg.TB_STATE_STATE ≠ 0 → s.f Reg.TB_STATE_SOURCE ≠ sourceNum src →
     (∀ y j, sourceNum y = s.f Reg.TB_STATE_SOURCE → s.sourceRank y = some j → k < j) → s.actsOn src = true →
     ∃ t, Sys2Proof.Machine.exec (.sourceRevert src pp gm o) s = .next t ∧ Acquired ⟨src, pp, gm, o⟩ [] s t ∧
       t.time.sources = addSource s.time.sources ⟨src, pp, gm, o⟩) ∧
   (∀ (src : TimeSource) (pp : Fin 2) (gm : Word) (o : Int) (s : State), s.Up →
     s.sourceRank src = none ∨ s.f Reg.TB_SRC_CFG_REVERT_S = 0 ∨ s.f Reg.TB_STATE_STATE = 0 ∨
       s.f Reg.TB_STATE_SOURCE = sourceNum src ∨ s.actsOn src = false ∨
       (∃ y j k, sourceNum y = s.f Reg.TB_STATE_SOURCE ∧ s.sourceRank y = some j ∧ s.sourceRank src = some k ∧ j ≤ k) →
     ∃ t, Sys2Proof.Machine.exec (.sourceRevert src pp gm o) s = .next t ∧
       t = { s with time := { s.time with sources := addSource s.time.sources ⟨src, pp, gm, o⟩ } })) ∧
  ((∀ (o : Int) (delay : Nat) (s : State), s.Up → s.aon.keeperUp = false → s.f Reg.TB_STATE_SOURCE ≠ 4 →
     ∃ t, Sys2Proof.Machine.exec (.timebaseMeasurement o delay) s = .next t ∧ Nothing s t) ∧
   (∀ (o : Int) (delay : Nat) (s : State), s.Up → s.aon.keeperUp = true ∨ s.f Reg.TB_STATE_SOURCE = 4 →
     ∃ t, Sys2Proof.Machine.exec (.timebaseMeasurement o delay) s = .next t ∧
       sgn 32 (t.f Reg.TB_SERVO_OFFSET) = max (-2147483648) (min 2147483647 o) ∧
       t.f Reg.TB_SERVO_PATH_DELAY = min delay 0xFFFFFFFF ∧
       (let within := o.natAbs ≤ 25 * 2 ^ s.f Reg.TB_LOCK_CFG_LOCK_NS
        let beyond := 25 * 2 ^ s.f Reg.TB_LOCK_CFG_UNLOCK_NS < o.natAbs
        let st := s.f Reg.TB_STATE_STATE
        let locks := st = 1 ∧ within ∧ max 1 (s.f Reg.TB_LOCK_CFG_LOCK_COUNT) ≤ s.time.inRow + 1
        let unlocks := st = 2 ∧ beyond ∧ 4 ≤ s.time.inRow + 1
        let moves := s.time.acquired = false ∨
          (s.fb Reg.TB_LOCK_CFG_STEP_EN = true ∧ 1000 * s.f Reg.TB_LOCK_CFG_STEP_US < o.natAbs)
        let slew := if within then none else s.time.slew
        -- the servo's choice, within its range
        (st ≠ 1 → st ≠ 2 → t.f Reg.TB_INCR_INCR = s.f Reg.TB_INCR_INCR ∧ t.time.slew = s.time.slew ∧ t.free = s.free) ∧
        (st = 1 ∨ st = 2 →
          (slew = none → 93778079740767 ≤ t.f Reg.TB_INCR_INCR ∧ t.f Reg.TB_INCR_INCR ≤ 93871904733003) ∧
          (∀ h, slew = some h →
            clampIncr (h - h * s.f Reg.TB_LOCK_CFG_SLEW_PPM / 1000000) ≤ t.f Reg.TB_INCR_INCR ∧
            t.f Reg.TB_INCR_INCR ≤ clampIncr (h + h * s.f Reg.TB_LOCK_CFG_SLEW_PPM / 1000000)) ∧
          t.time.history.head? = some (s.time.followed, t.f Reg.TB_INCR_INCR) ∧ t.free = s.free + 1 ∧
          t.time.slew = (if unlocks then if moves then none else some (t.f Reg.TB_INCR_INCR) else slew)) ∧
        t.f Reg.TB_STATE_STATE = (if locks then 2 else if unlocks then 1 else st) ∧
        t.time.inRow = (if locks ∨ unlocks then 0 else if (st = 1 ∧ within) ∨ (st = 2 ∧ beyond) then s.time.inRow + 1
                        else if st = 1 ∨ st = 2 then 0 else s.time.inRow) ∧
        t.time.ops = (if unlocks ∧ moves then addTimeOp s.time.ops 0 (.step (-o * 65536)) else s.time.ops) ∧
        Raised Reg.TIMEBASE_BLOCK_STATUS
          ((if locks ∨ unlocks then [Flag.TIMEBASE_STATE_CHANGE] else []) ++
           (if unlocks ∧ moves then [Flag.TIMEBASE_STEP_DONE] else [])) s t) ∧
       t.f Reg.TB_STATE_SOURCE = s.f Reg.TB_STATE_SOURCE ∧
       RegsBut [Reg.TB_SERVO, Reg.TB_STATE, Reg.TB_INCR, Reg.TIMEBASE_BLOCK_STATUS] s t ∧
       t = { s with regs := t.regs, cycle := t.cycle, free := t.free,
                    time := { s.time with inRow := t.time.inRow, ops := t.time.ops, acquired := t.time.acquired,
                                          slew := t.time.slew, history := t.time.history } }))

/-- R104, R105, R106, R121, R123, R126, R128, R144, R147, R368: an FCLK advances Device Time by the increment in force,
applies the steps and sets of the FCLK, brings a new TB_INCR and a new reference rate into force, and tells whether the
reference line and frame have changed; every raster whose timing runs advances by the carries of its accumulator; a cue
whose position has been reached or passed is due; a shaped queue's credit grows. Where a step, a set or a new rate moves
the ideal starts, a raster that stands ready for a frame judges its frame end again (R127, R129), and one that is hit or
has not started looks for its start anew, in a way the manual leaves to the part (log entry 130). Each core's machine
timer interrupt follows time (R524), and the GPIO inputs follow the balls, one FCLK later (R552, log entry 135). Accesses
that wait for room in a DDR4 queue are offered to it again at the end of the FCLK (R502). R121, R334, R338, R371, R372,
R448: in an FCLK in which the reference line, or frame, has changed, and once in it, its start comes: the gate cycles
aligned to it start where their instant has come; an EGRESS port queues a BEACON of each raster that has an entry on it
and whose timing runs; the active manager sends a HEARTBEAT on each downlink and standby link, and counts what it has not
heard of a part; every other part sends STATUS upward; a standby counts the line without a HEARTBEAT; automatic echo
rounds count the frame. These frames are queued where the Crucible has room for all of them. That these two commands start
the aligned gate cycles, and count the frames of automatic rounds and start them, is the model's reading and choice, log
entries 36 and 37. -/
def Obligations.FclkTickAndReferenceStarts : Prop :=
  (∀ s : State, s.Up →
     ∃ t : State, Sys2Proof.Machine.exec .fclkTick s = .next t.unblockAll ∧ (s.bus.blocked = [] → t.unblockAll = t) ∧
       t.fclk = s.fclk + 1 ∧ t.ran = 0 ∧ t.bus.blocked = s.bus.blocked ∧
       t.time.ops = [] ∧ t.time.incr = s.f Reg.TB_INCR_INCR ∧ t.time.steady = s.time.steady + s.time.incr ∧
       (t.time.n, t.time.d, t.time.l) = s.time.rateNext.getD (s.time.n, s.time.d, s.time.l) ∧ t.time.rateNext = none ∧
       t.time.newLine = (t.refPos.l != s.refPos.l) ∧ t.time.newFrame = (t.refPos.f != s.refPos.f) ∧ t.time.lineStart = false ∧
       (let top := 2 ^ 48 * 10 ^ 9 * 2 ^ 48
        let dt := (s.time.dt + s.time.incr) % top
        (s.time.ops = [] → t.time.dt = dt) ∧
        (∀ m q, s.time.ops = [(m, .set q)] → t.time.dt = q * 2 ^ 32) ∧
        (∀ (m : Nat) (q : Int), s.time.ops = [(m, .step q)] →
          0 ≤ (dt : Int) + q * (2 ^ 32 : Nat) → (dt : Int) + q * (2 ^ 32 : Nat) < (top : Nat) →
          (t.time.dt : Int) = (dt : Int) + q * (2 ^ 32 : Nat))) ∧
       (∀ m : Fin 16,
         (let (n, r) := rasterClocks (s.raster m)
          let sum := r.acc + n * t.phi (t.liveTiming m)
          let y := s.raster m
          let x := t.raster m
          let tim := t.startTiming m
          let next := wholeFrame tim (t.firstFrameAt tim t.tq)
          -- a hit or unstarted raster's start, where starts move
          let moved : RasterMode := match y.mode with
            | .hit _ => .hit (match y.hitFrom with | some b => max (t.restartAt tim b) next | none => next)
            | .unstarted k => .unstarted (match y.hitFrom with
              | some b => max (t.restartAt tim b) next
              | none =>
                if t.startReached tim k = true then (t.firstFrameAfter tim t.tq - 1) / max 1 tim.sub * max 1 tim.sub else next)
            | other => other
          let mode := if s.startsMove = true then moved else y.mode
          (isReady y = false →
            (s.timingRuns m = true →
              x = { r with acc := sum % 2 ^ 48, pos := min (r.pos + sum / 2 ^ 48) (lastPos r.tim), mode := mode,
                           waitFrom := x.waitFrom, pass := x.pass }) ∧
            (s.timingRuns m = false → x = { y with mode := mode, waitFrom := x.waitFrom, pass := x.pass })) ∧
          (isReady y = true →
            (s.startsMove = false → x = { y with pass := x.pass }) ∧
            (s.startsMove = true →
              (∀ k, t.frameNear tim t.tq = some k →
                x = { y with mode := .ready k, waitFrom := x.waitFrom, pass := x.pass } ∧ t.f (Reg.TB_ORS_PHASE_STATE m) = 1) ∧
              (t.frameNear tim t.tq = none →
                x = { y with mode := .wait, settling := true, pos := lastPos y.tim, waitFrom := x.waitFrom, pass := x.pass } ∧
                t.f (Reg.TB_ORS_PHASE_STATE m) = 2 ∧
                t.flagSet Reg.TIMEBASE_BLOCK_STATUS Flag.TIMEBASE_ORS_SETTLING = true))) ∧
          x.pass.map Pass.plan = y.pass.map Pass.plan ∧ (s.startsMove = false → x.waitFrom = y.waitFrom))) ∧
       CuesCome s t ∧
       (∀ (p : Fin 128) (q : Fin 8),
         (t.port p).credit.getD q 0 =
           (let c := (s.port p).credit.getD q 0
            if s.fb (Reg.QUEUE_SHAPE_BURST_EN p q) = true then
              min (c + s.f (Reg.QUEUE_SHAPE_RATE_RATE p q)) (max c (24000000 * (s.f (Reg.QUEUE_SHAPE_BURST_BURST p q) : Int)))
            else c) ∧
         (s.startsMove = false → (t.port p).queues = (s.port p).queues)) ∧
       (∀ k : Fin 8, k.val ∈ t.serv.timer ↔
         bit (s.f Reg.APPCX_CORE_STATE_RUNNING) k = true ∧ s.f (Reg.APPCX_MTIMECMP_CMP k) ≤ t.tq / 65536) ∧
       t.serv.gpio = s.gpioBalls ∧
       ((∀ x ∈ s.blits, x.2.todo = []) → (∀ p : Fin 128, (s.port p).hostWait = [] ∧ (s.port p).traceWait = []) →
         s.serv.mmacWait = [] → t.mem = s.mem) ∧
       t.live = s.live ∧ t.commits = s.commits ∧ t.pending = s.pending) ∧
  ((∀ s : State, s.Up → s.time.newLine = false → ∃ t, Sys2Proof.Machine.exec .referenceLineStart s = .next t ∧ Nothing s t) ∧
   (∀ s : State, s.Up → s.time.newFrame = false → ∃ t, Sys2Proof.Machine.exec .referenceFrameStart s = .next t ∧ Nothing s t) ∧
   (∀ s : State, s.Up → s.time.newLine = true →
     ∃ t, Sys2Proof.Machine.exec .referenceLineStart s = .next t ∧
       (∀ p : Fin 128, (s.port p).align = 1 ∨ (s.port p).align = 3 → s.fb (Reg.GATE_CTRL_EN p) = true →
         ∀ a, s.cycleDue p = some a →
           (t.port p).started = true ∧ (t.port p).entry = 0 ∧ (t.port p).cycleFrom = a + 1 ∧
           (t.port p).entryAt = s.ranQ - (s.tq - a)) ∧
       (∀ p : Fin 128, ∀ x ∈ (t.port p).queues.getD 7 [], x ∈ (s.port p).queues.getD 7 [] ∨
         (∃ m, x.kind = .beacon m ∧ m ∈ s.portRasters p ∧ s.timingRuns m = true ∧ s.role p = 1) ∨ ∃ ty, x.kind = .chain ty) ∧
       (let beacons (p : Nat) : List Frame :=
          ((s.portRasters p).filter fun m => s.timingRuns m && !hitWaits (s.raster m)).map fun m =>
            { kind := .beacon m, body := List.replicate 48 0, fold := List.replicate 8 0, since := s.tq }
        let beat : Frame :=
          { kind := .chain 3, body := s.chainBody 3 s.myIndex 0xFF (beatPayload s.time.n s.time.d s.time.l), since := s.tq }
        let status : Frame :=
          { kind := .chain 4, body := s.chainBody 4 s.myIndex s.activeManager [BitVec.ofNat 8 s.myIndex], since := s.tq }
        let asked := ((List.range 128).map fun p => if s.role p = 1 then (beacons p).length else 0).sum + 16
        let last (p : Nat) (xs : List Frame) : Prop := (t.port p).queues.getD 7 [] = (s.port p).queues.getD 7 [] ++ xs
        asked ≤ s.f Reg.CRU_FREE_FREE → asked ≤ s.cruSize - s.f Reg.CRU_SHARED_IN_USE →
        ∀ p : Fin 128, s.fb (Reg.GATE_CTRL_EN p) = false → (s.port p).queues.length = 8 →
          (s.role p = 1 → s.chain.boot ≠ some p.val → last p (beacons p)) ∧
          (∀ k rest, s.joinedPorts k = p.val :: rest →
            (s.chain.boot = none → s.chainRole = 1 → k ∈ s.upLinks 1 ++ s.upLinks 2 → last p [beat]) ∧
            (s.chain.boot = none → s.chainRole = 2 ∨ s.chainRole = 3 → k ∈ s.upLinks 0 ++ s.upLinks 3 → last p [status]) ∧
            (s.chain.boot = some p.val → s.hasIngot = false → s.role p ≠ 1 → s.chainRole ≠ 1 → k ∈ s.upLinks 0 ++ s.upLinks 3 →
              last p [status]))) ∧
       (∀ n : Fin 16, t.f (Reg.CHAIN_PEER_LAG n) =
         if s.chainRole = 1 ∧ s.f (Reg.CHAIN_PEER_STATE n) ≠ 0 then min (s.f (Reg.CHAIN_PEER_LAG n) + 1) 0xFFFF
         else s.f (Reg.CHAIN_PEER_LAG n)) ∧
       t.chain = { s.chain with silent := if s.chainRole = 2 then s.chain.silent + 1 else s.chain.silent } ∧
       t.time = { s.time with newLine := false, lineStart := true } ∧ t.rasters = s.rasters ∧ t.cues = s.cues ∧ t.mem = s.mem) ∧
   (∀ s : State, s.Up → s.time.newFrame = true →
     ∃ t, Sys2Proof.Machine.exec .referenceFrameStart s = .next t ∧
       (∀ p : Fin 128, (s.port p).align = 2 → s.fb (Reg.GATE_CTRL_EN p) = true →
         ∀ a, s.cycleDue p = some a →
           (t.port p).started = true ∧ (t.port p).entry = 0 ∧ (t.port p).cycleFrom = a + 1 ∧
           (t.port p).entryAt = s.ranQ - (s.tq - a)) ∧
       (∀ p : Fin 128, s.fb (Reg.BTL_ECHO_CFG_AUTO p) = true → s.role p = 1 →
         (s.port p).roundFrames + 1 < max 1 (s.f (Reg.BTL_ECHO_CFG_PERIOD p)) →
         (t.port p).roundFrames = (s.port p).roundFrames + 1) ∧
       (∀ p : Fin 128, s.fb (Reg.BTL_ECHO_CFG_AUTO p) = true → s.role p = 1 →
         max 1 (s.f (Reg.BTL_ECHO_CFG_PERIOD p)) ≤ (s.port p).roundFrames + 1 →
         (s.port p).echo = none → (s.port p).round = [] →
         (t.port p).roundFrames = 0 ∧
         (t.port p).echo.map Echo.tile = ((s.liveEntries.filter fun e => e.ports.contains p).map MapEntry.tile).head? ∧
         (t.port p).round = (distinct ((s.liveEntries.filter fun e => e.ports.contains p).map MapEntry.tile)).drop 1) ∧
       t.chain = s.chain ∧ t.time = { s.time with newFrame := false } ∧ t.rasters = s.rasters ∧ t.cues = s.cues ∧ t.mem = s.mem))

/-! ### Rasters, layer engines and clusters -/

/-- R35, R90, R125, R127, R129, R332: a raster at a frame end that found an ideal start, and one that an Ingot enabled, begins
its frame once Device Time has reached the ideal start, and nothing happens before. A running raster past its last position
begins the next frame where its ideal start is near and has come, stands ready for it where it is near but has not come, and
waits otherwise, with ORS_SETTLING. A waiting raster begins the frame of the latest ideal start that has come since, and does
nothing while none has. A hit raster's timing goes on in the same way, and none of its frames is sent. Where a wait has skipped frame numbers the
fetch begins anew under the frame's plan (log entry 133). -/
def Obligations.RasterFrames : Prop :=
  (∀ (m : Fin 16) (k : Nat) (s : State), s.Up → (s.raster m).mode = .ready k →
    s.idealNum (s.liveTiming m) k ≤ ((s.tq * s.idealDen (s.liveTiming m) : Nat) : Int) →
    ∃ t, Sys2Proof.Machine.exec (.rasterFrameStart m) s = .next t ∧ FrameBegun m k s t ∧
      (FetchGoesOn m s t → t.engines = s.engines ∧
        ∀ a, a ≠ Reg.CHECK_BLOCK_STATUS → (∀ u : Fin 16, a ≠ Reg.SIG_COUNTS u) → t.reg a = s.reg a) ∧
      t = { s with regs := t.regs, cycle := t.cycle, rasters := t.rasters, engines := t.engines, sigs := t.sigs, cues := t.cues }) ∧
  (∀ (m : Fin 16) (k : Nat) (s : State), s.Up → (s.raster m).mode = .unstarted k → (s.raster m).notBefore ≤ s.fclk →
    s.idealNum (s.liveTiming m) k ≤ ((s.tq * s.idealDen (s.liveTiming m) : Nat) : Int) →
    ∃ t, Sys2Proof.Machine.exec (.rasterFrameStart m) s = .next t ∧ FrameBegun m k s t ∧
      (t.raster m).forceDirty = true ∧ t.f (Reg.TB_ORS_PHASE_STATE m) = 1 ∧ t.f (Reg.TB_ORS_PHASE_ERROR m) = 0 ∧
      t.swap = (if Tab.find s.swap m = some .start then Tab.del s.swap m else s.swap)) ∧
  (∀ (m : Fin 16) (k : Nat) (s : State), s.Up →
    (s.raster m).mode = .ready k ∨ (s.raster m).mode = .unstarted k →
    ((s.tq * s.idealDen (s.liveTiming m) : Nat) : Int) < s.idealNum (s.liveTiming m) k →
    ∃ t, Sys2Proof.Machine.exec (.rasterFrameStart m) s = .next t ∧ Nothing s t) ∧
  (∀ (m : Fin 16) (s : State), s.Up →
    (∀ k, (s.raster m).mode ≠ .ready k ∧ ((s.raster m).mode = .unstarted k → s.fclk < (s.raster m).notBefore)) →
    ∃ t, Sys2Proof.Machine.exec (.rasterFrameStart m) s = .next t ∧ Nothing s t) ∧
  (∀ (m : Fin 16) (s : State), s.Up → (s.raster m).mode = .run → lastPos (s.raster m).tim ≤ (s.raster m).pos →
    ∃ t, Sys2Proof.Machine.exec (.rasterFrameEnd m) s = .next t ∧
      (∀ k, s.frameNear (s.liveTiming m) s.tq = some k →
        t.f (Reg.TB_ORS_PHASE_STATE m) = 1 ∧ (t.raster m).settling = false ∧
        (s.idealNum (s.liveTiming m) k ≤ ((s.tq * s.idealDen (s.liveTiming m) : Nat) : Int) → FrameBegun m k s t) ∧
        (((s.tq * s.idealDen (s.liveTiming m) : Nat) : Int) < s.idealNum (s.liveTiming m) k →
          t.raster m = { s.raster m with mode := .ready k, stall := 0, shift := 0, settling := false, waitFrom := s.tq } ∧
          RegsBut [Reg.TB_ORS_PHASE m] s t ∧
          t = { s with regs := t.regs, cycle := t.cycle, rasters := t.rasters })) ∧
      (s.frameNear (s.liveTiming m) s.tq = none →
        t.f (Reg.TB_ORS_PHASE_STATE m) = 2 ∧
        t.raster m = { s.raster m with mode := .wait, pos := lastPos (s.raster m).tim, stall := 0, shift := 0,
                                       settling := true, waitFrom := s.tq } ∧
        Raised Reg.TIMEBASE_BLOCK_STATUS [Flag.TIMEBASE_ORS_SETTLING] s t ∧
        (∀ p : Fin 128, s.role p ≠ 1 → t.port p = s.port p) ∧ t.mem = s.mem ∧ t.live = s.live) ∧
      (∀ j, j ≠ m.val → t.raster j = s.raster j)) ∧
  (∀ (m : Fin 16) (s : State), s.Up → (s.raster m).mode = .run → (s.raster m).pos < lastPos (s.raster m).tim →
    ∃ t, Sys2Proof.Machine.exec (.rasterFrameEnd m) s = .next t ∧ Nothing s t) ∧
  -- a hit raster, with its timing on the old structure (R90)
  (∀ (m : Fin 16) (j : Nat) (s : State), s.Up → (s.raster m).mode = .hit j → (s.raster m).settling = false →
    lastPos (s.raster m).tim ≤ (s.raster m).pos →
    ∃ t, Sys2Proof.Machine.exec (.rasterFrameEnd m) s = .next t ∧ (t.raster m).mode = .hit j ∧
      (∀ k, s.frameNear (s.liveTiming m) s.tq = some k →
        t.f (Reg.TB_ORS_PHASE_STATE m) = 1 ∧ (t.raster m).settling = false ∧ (t.raster m).frame = k ∧ (t.raster m).pos = 0 ∧
        (t.raster m).sentCur = false) ∧
      (s.frameNear (s.liveTiming m) s.tq = none →
        t.f (Reg.TB_ORS_PHASE_STATE m) = 2 ∧ (t.raster m).settling = true ∧ (t.raster m).pos = lastPos (s.raster m).tim ∧
        Raised Reg.TIMEBASE_BLOCK_STATUS [Flag.TIMEBASE_ORS_SETTLING] s t) ∧
      (∀ i, i ≠ m.val → t.raster i = s.raster i) ∧ t.mem = s.mem) ∧
  (∀ (m : Fin 16) (j k : Nat) (s : State), s.Up → (s.raster m).mode = .hit j → (s.raster m).settling = true →
    lastPos (s.raster m).tim ≤ (s.raster m).pos → s.waitFrame m = some k →
    ∃ t, Sys2Proof.Machine.exec (.rasterWaitEnd m) s = .next t ∧ (t.raster m).mode = .hit j ∧ (t.raster m).frame = k ∧
      (t.raster m).pos = 0 ∧ (t.raster m).sentCur = false ∧ (∀ i, i ≠ m.val → t.raster i = s.raster i) ∧ t.mem = s.mem) ∧
  (∀ (m : Fin 16) (s : State), s.Up →
    s.waitFrame m = none ∨ ((s.raster m).mode ≠ .wait ∧ ∀ j, (s.raster m).mode = .hit j → (s.raster m).settling = false) →
    ∃ t, Sys2Proof.Machine.exec (.rasterWaitEnd m) s = .next t ∧ Nothing s t) ∧
  (∀ (m : Fin 16) (k : Nat) (s : State), s.Up → (s.raster m).mode = .wait → s.waitFrame m = some k →
    ∃ t, Sys2Proof.Machine.exec (.rasterWaitEnd m) s = .next t ∧ FrameBegun m k s t ∧
      (FetchGoesOn m s t → t.engines = s.engines ∧
        ∀ a, a ≠ Reg.CHECK_BLOCK_STATUS → (∀ u : Fin 16, a ≠ Reg.SIG_COUNTS u) → t.reg a = s.reg a) ∧
      t = { s with regs := t.regs, cycle := t.cycle, rasters := t.rasters, engines := t.engines, sigs := t.sigs, cues := t.cues })

/-- R29, R89, R95, R151, R155, R157 to R159, R190, R290, R297, R300, R421: a running raster's STP happens once in a frame, where
the raster reaches the line FETCH_LEAD before the next frame, and takes the live entries and the plans for the next frame; before
that, and once it has happened, nothing happens. The pending units that the raster governs, or a raster of its lock group, land
there: those of commits registered in an earlier FCLK, at reference-frame grain or, with SUBFRAME_GRAIN, in every frame. At the STP
before sub-frame 0 an engine with SRC 1 that the raster governs takes the surface of its flow that is complete since an earlier
FCLK and has the highest P up to the frame, the later completed of two, and a change of surface is dirty; there, too, a pending
swap's change for the raster lands, with its timing, and the swap with the last of them. Of a landing of several governing rasters
the lowest is reported: the model's choice, log entry 125. Where no commit, no swap and no ring surface is at stake, the STP decides
Idle Hold: a dirty decision, or HOLD_EN at 0, clears
CLEAN, sends the next frame, and leaves Idle Hold with IDLE_LEFT; a clean one counts CLEAN, and from HOLD_AFTER on the next
frame is the J-th of Idle Hold, entered with IDLE_ENTERED, and is sent where J is a multiple of REFRESH_DIVISOR. In Thermal
Hold no frame that the STP decides is sent, and the next decision is dirty. -/
def Obligations.ShadowTransferPoint : Prop :=
  (∀ (m : Fin 16) (s : State), s.Up → (s.raster m).stpDone = true ∨ (s.raster m).mode ≠ .run →
    ∃ t, Sys2Proof.Machine.exec (.stp m) s = .next t ∧ Nothing s t) ∧
  (∀ (m : Fin 16) (s : State), s.Up → (s.raster m).mode = .run → (s.raster m).stpDone = false →
    (s.raster m).pos < ((s.raster m).tim.vTotal - (s.raster m).tim.fetchLead) * (s.raster m).tim.hTotal →
    ∃ t, Sys2Proof.Machine.exec (.stp m) s = .next t ∧ Nothing s t) ∧
  (∀ (m : Fin 16) (s : State), s.Up → (s.raster m).mode = .run → (s.raster m).stpDone = false →
    ((s.raster m).tim.vTotal - (s.raster m).tim.fetchLead) * (s.raster m).tim.hTotal ≤ (s.raster m).pos →
    ∃ t, Sys2Proof.Machine.exec (.stp m) s = .next t ∧ (t.raster m).stpDone = true ∧ (t.raster m).mode = .run ∧
      (t.raster m).frame = (s.raster m).frame ∧ (t.raster m).tim = (s.raster m).tim ∧
      (t.raster m).pos = (s.raster m).pos ∧
      (t.raster m).entNext = t.liveEntries.filter (fun e => e.raster == m.val) ∧ (t.raster m).plansNext = t.takePlans m ∧
      (t.raster m).sentCur = (s.raster m).sentCur ∧ (t.raster m).entCur = (s.raster m).entCur ∧
      -- the landing of a commit's units
      (s.swap = [] → s.canonical = true →
        (let r := s.raster m
         let grp := (s.groupOf s.slot m).filter fun x => !s.isHit x
         let us := s.duePending.filter fun u =>
           (match s.governor u with | some g => grp.contains g | none => false) &&
             ((r.frame + 1) % max 1 r.tim.sub == 0 || (decide (u < 40) && bit (s.f Reg.CUE_GRAIN_GRAIN) u))
         ∀ ras, (∀ c, s.commits = [c] → ras = ((unitsOf c.units).map fun u => (s.governor u).getD 31).foldl min 31) →
           Landing us true ras (r.frame + 1) s t)) ∧
      -- the surfaces of rings
      (s.duePending = [] → s.swap = [] →
        (let r := s.raster m
         let whole := (r.frame + 1) % max 1 r.tim.sub = 0
         ∀ n : Fin 32, s.governor n = some m.val → s.lfb (Reg.LE_SOURCE_SRC n) = true →
           (let f := s.lf (Reg.LE_SOURCE_FLOW n)
            let bound := (Tab.get s.flows f {}).surfs.filter fun x =>
              x.2.mode == 2 && decide (x.2.p ≤ (r.frame + 1) / max 1 r.tim.sub) && decide (x.2.doneAt < s.fclk)
            (¬ whole ∨ bound = [] → (t.engine n).held = (s.engine n).held) ∧
            (whole → ∀ x ∈ bound, (∀ y ∈ bound, y = x ∨ y.2.p < x.2.p ∨ (y.2.p = x.2.p ∧ y.2.order < x.2.order)) →
              (let z := s.ringSurf f x.1
               (t.engine n).held = some ⟨f, x.1, z.base, z.stride, z.width, z.height, z.fmt⟩ ∧
               ((t.engine n).held ≠ (s.engine n).held → s.serves n m = true → t.f (Reg.ORS_IDLE_CLEAN m) = 0)))))) ∧
      -- the landing of a swap
      (∀ reload, s.duePending = [] → s.swap = [(m.val, .land reload)] → s.groupOf s.slot m = [m.val] →
        s.f Reg.INGOT_ACTIVE_SWAP_PENDING = 1 →
        (let r := s.raster m
         let whole := (r.frame + 1) % max 1 r.tim.sub = 0
         let e := s.entryTiming s.slot m
         (¬ whole → t.swap = s.swap ∧ t.f Reg.INGOT_ACTIVE_SWAP_PENDING = 1 ∧ t.live = s.live) ∧
         (whole → t.swap = [] ∧ t.f Reg.INGOT_ACTIVE_SWAP_PENDING = 0 ∧ t.slotState (1 - s.slot) = 3 ∧
           t.flagSet Reg.INGOT_BLOCK_STATUS Flag.INGOT_SWAP_LANDED = true ∧
           (reload = true → t.liveTiming m = { e with sub := e.sub % 16, sendLine := e.sendLine % 2 ^ 15 }) ∧
           (reload = false → t.live = s.live)))) ) ∧
  (∀ (m : Fin 16) (s : State), s.Up → (s.raster m).mode = .run → (s.raster m).stpDone = false →
    ((s.raster m).tim.vTotal - (s.raster m).tim.fetchLead) * (s.raster m).tim.hTotal ≤ (s.raster m).pos →
    s.f Reg.CUE_COMMIT_PENDING_MASK = 0 → s.swap = [] → s.f Reg.INGOT_ACTIVE_SWAP_PENDING = 0 →
    (∀ n : Fin 32, s.lf (Reg.LE_SOURCE_SRC n) = 0) →
    ∃ t, Sys2Proof.Machine.exec (.stp m) s = .next t ∧
      (let dirty := (∃ n : Fin 32, s.serves n m = true ∧ m.val ∈ (s.engine n).dirty) ∨ (s.raster m).forceDirty = true ∨
         s.lf (Reg.ORS_HOLD_CFG_HOLD_EN m) = 0
       let clean := min 65535 (s.f (Reg.ORS_IDLE_CLEAN m) + 1)
       let j := (s.raster m).holdJ + 1
       let x := t.raster m
       (dirty → t.f (Reg.ORS_IDLE_CLEAN m) = 0 ∧ x.holdJ = 0 ∧ x.sentNext = !s.thermalHold ∧ x.heldNext = false ∧
         Raised (Reg.ORS_BLOCK_STATUS m) (if 0 < (s.raster m).holdJ then [Flag.ORS_IDLE_LEFT] else []) s t) ∧
       (¬ dirty → clean < s.lf (Reg.ORS_HOLD_CFG_HOLD_AFTER m) →
         t.f (Reg.ORS_IDLE_CLEAN m) = clean ∧ x.holdJ = (s.raster m).holdJ ∧ x.sentNext = !s.thermalHold ∧ x.heldNext = false ∧
         Raised (Reg.ORS_BLOCK_STATUS m) [] s t) ∧
       (¬ dirty → s.lf (Reg.ORS_HOLD_CFG_HOLD_AFTER m) ≤ clean →
         t.f (Reg.ORS_IDLE_CLEAN m) = clean ∧ x.holdJ = j ∧ x.heldNext = true ∧
         x.sentNext = (!s.thermalHold && decide (j % max 1 (s.lf (Reg.ORS_HOLD_CFG_REFRESH_DIVISOR m)) = 0)) ∧
         Raised (Reg.ORS_BLOCK_STATUS m) (if j = 1 then [Flag.ORS_IDLE_ENTERED] else []) s t) ∧
       x.forceDirty = s.thermalHold) ∧
      (∀ n : Fin 32, m.val ∉ (t.engine n).dirty ∧
        ∀ j, j ≠ m.val → (j ∈ (t.engine n).dirty ↔ j ∈ (s.engine n).dirty)) ∧
      (∀ a, a ≠ Reg.ORS_IDLE m → a ≠ Reg.ORS_BLOCK_STATUS m →
        (∀ n : Fin 32, a ≠ Reg.LE_SKIP_BYTES n ∧ a ≠ Reg.LE_TOL n ∧ a ≠ Reg.LE_TOL_MIN n ∧ a ≠ Reg.MESH_EVENTS n) →
        (∀ c : Fin 16, a ≠ Reg.MC_TOL c) →
        a ∉ [Reg.MESH_BLOCK_STATUS, Reg.SLAB_BLOCK_STATUS, Reg.SLAB_ECC_COUNTS, Reg.SLAB_UE_LOG] → t.reg a = s.reg a) ∧
      (∀ j, j ≠ m.val → t.raster j = s.raster j) ∧
      t = { s with regs := t.regs, cycle := t.cycle, rasters := t.rasters, engines := t.engines })

/-- R231, R284, R291, R292, R295, R319, R328, R339, R365, R377, R484: the next active line of a frame that is sent is composed once
its raster has reached it: it enters the signatures of its raster, and the runs that the entries cut from it, as R318 and R328 say
(runFrames), are queued, entries in ascending index, on the ports of the entries alone, but not for an entry that the Slab cannot
correct (R514, log entry 109); where the ports' reservations hold them every packet is queued; a line with a missing
sample counts an underrun. The vertices of its rows of blocks are read by then at latest (log entry 22). At the send position a
frame counts as sent or held, and each port of the raster drops the frame's late PIXEL packets from Q0 to Q4 and takes one LATCH, or
one HOLD, behind those due of rasters up to its own, where the Crucible admits it; a refused one is dropped and counted. Elsewhere
neither command does anything. -/
def Obligations.ScanOut : Prop :=
  (∀ (m : Fin 16) (s : State), s.Up →
    (let r := s.raster m
     let due := r.mode = .run ∧ r.sentCur = true ∧ r.thermal = false ∧ r.composed < r.tim.vActive ∧
       r.composed * r.tim.hTotal ≤ r.pos
     let line := (s.planTo m r.composed).lineOf m r.composed
     (¬ due → ∃ t, Sys2Proof.Machine.exec (.composeLine m) s = .next t ∧ Nothing s t) ∧
     (due → ∃ t, Sys2Proof.Machine.exec (.composeLine m) s = .next t ∧
       (t.raster m).composed = r.composed + 1 ∧ (t.raster m).pos = r.pos ∧
       t.f (Reg.ORS_UNDERRUN_LINES m) =
         (if line.under.isSome then min (s.f (Reg.ORS_UNDERRUN_LINES m) + 1) 0xFFFFFFFF
          else s.f (Reg.ORS_UNDERRUN_LINES m)) ∧
       t.flagSet (Reg.ORS_BLOCK_STATUS m) Flag.ORS_UNDERRUN =
         (s.flagSet (Reg.ORS_BLOCK_STATUS m) Flag.ORS_UNDERRUN || line.under.isSome) ∧
       (∀ u : Fin 16,
         (let x := s.sig u
          let px := if x.window then (line.px.drop x.wx).take x.ww else line.px
          t.sig u =
            if x.folding = true ∧ x.src = m ∧ (x.window = false ∨ (x.wy ≤ r.composed ∧ r.composed < x.wy + x.wh)) then
              { x with crc := crcTake x.poly x.crc (px.flatMap fun p => leBytes 2 p.r ++ leBytes 2 p.g ++ leBytes 2 p.b),
                       tails := (t.sig u).tails }
            else { x with tails := (t.sig u).tails }) ∧
         (t.sig u).tails = (s.sig u).tails.map fun y => { y with crc := sigTake (tailUnit (s.sig u) y) m r.composed line.px }) ∧
       (∀ p : Fin 128, (∀ e ∈ r.entCur, p.val ∉ e.ports ∨ s.poisoned (0xE800100000 + 16 * e.idx) 16 = true) →
         t.port p = s.port p) ∧
       (∀ e ∈ r.entCur, e.y ≤ r.composed → r.composed < e.y + e.h → e.inside r.tim = true →
         (0xE800100000 + 16 * e.idx ∈ s.poison ∨ 0xE800100000 + 16 * e.idx + 8 ∈ s.poison) →
         t.flagSet Reg.SLAB_BLOCK_STATUS Flag.SLAB_UE = true) ∧
       (∀ (p : Fin 128) (q : Fin 8), ∀ x ∈ (t.port p).queues.getD q [],
         x ∈ (s.port p).queues.getD q [] ∨ x.kind = .pixel m r.frame) ∧
       (let v := r.composed
        let run (e : MapEntry) : List Frame :=
          if e.y ≤ v ∧ v < e.y + e.h ∧ e.inside r.tim = true then
            (let seg := (line.px.drop e.x).take e.w
             s.runFrames m e (Tab.get r.seqs e.idx 0) (if runFar e.orient then e.y + e.h - 1 - v else v - e.y)
               (if runReversed e.orient then seg.reverse else seg))
          else []
        let asked (p : Nat) : List (Nat × Frame) := r.entCur.flatMap fun e =>
          (e.ports.filter fun k => k == p && s.role p == 1).flatMap fun _ =>
            (run e).map fun x => (e.queue, { x with since := s.tq })
        let billets (p : Nat) : Nat := ((asked p).map fun x => billetsOf x.2.length).sum
        (r.entCur.map MapEntry.idx).Nodup → (∀ e ∈ r.entCur, s.poisoned (0xE800100000 + 16 * e.idx) 16 = false) →
        (∀ p : Fin 128, s.f (Reg.CRU_PORT_HELD p) + billets p ≤ s.f (Reg.CRU_PORT_RESERVE p)) →
        ((List.range 128).map billets).sum ≤ s.f Reg.CRU_FREE_FREE →
        (∀ e ∈ r.entCur, Tab.get (t.raster m).seqs e.idx 0 = Tab.get r.seqs e.idx 0 + (run e).length) ∧
        ∀ (p : Fin 128) (q : Fin 8), s.fb (Reg.GATE_CTRL_EN p) = false → (s.port p).queues.length = 8 →
          (t.port p).queues.getD q [] =
            (s.port p).queues.getD q [] ++ ((asked p).filter fun x => x.1 == q.val).map Prod.snd) ∧
       (∀ j, j ≠ m.val → t.raster j = s.raster j) ∧
       t = { s with regs := t.regs, cycle := t.cycle, rasters := t.rasters, ports := t.ports, sigs := t.sigs,
                    engines := t.engines }))) ∧
  (∀ (m : Fin 16) (s : State), s.Up →
    (let r := s.raster m
     let due := s.timingRuns m = true ∧ r.sendDone = false ∧ r.tim.sendLine * r.tim.hTotal ≤ r.pos
     let sent := s.rasterRuns m && r.sentCur && !r.thermal && !s.thermalHold
     (¬ due → ∃ t, Sys2Proof.Machine.exec (.sendPosition m) s = .next t ∧ Nothing s t) ∧
     (due → ∃ t, Sys2Proof.Machine.exec (.sendPosition m) s = .next t ∧
       t.raster m = { r with sendDone := true, deadRaised := (t.raster m).deadRaised } ∧
       t.f (Reg.ORS_COUNTS_SENT_FRAMES m) = (s.f (Reg.ORS_COUNTS_SENT_FRAMES m) + (if sent then 1 else 0)) % 2 ^ 32 ∧
       t.f (Reg.ORS_COUNTS_HOLD_FRAMES m) = (s.f (Reg.ORS_COUNTS_HOLD_FRAMES m) + (if sent then 0 else 1)) % 2 ^ 32 ∧
       (∀ p : Fin 128, p.val ∈ s.latchPorts m →
         (∀ q ∈ (t.port p).queues.take 5, ∀ x ∈ q, x.kind ≠ .pixel m r.frame) ∧
         (let d := (s.port p).due
          let x := { s.latchFrame m sent with since := s.tq }
          let taken := d.takeWhile (duesFirst m) ++ x :: d.dropWhile (duesFirst m)
          ((t.port p).due = d ∨ (t.port p).due = taken) ∧
          x.kind = (if sent then .latch m r.frame else .hold m r.frame) ∧
          -- one port: the Crucible, as the late packets leave it, admits the frame or refuses it
          (s.latchPorts m = [p.val] →
            (let u := s.flushLate m r.frame p
             (u.cruAdmits p 1 true = true → (t.port p).due = taken) ∧
             (u.cruAdmits p 1 true = false → (t.port p).due = d ∧
               t.f (Reg.QUEUE_DROPS_CRUCIBLE p 7) = min (s.f (Reg.QUEUE_DROPS_CRUCIBLE p 7) + 1) 0xFFFF ∧
               t.f (Reg.CRU_PORT_REFUSED p) = min (s.f (Reg.CRU_PORT_REFUSED p) + 1) 0xFFFF))) ∧
          -- several ports without late packets, and room for a frame on each
          ((∀ k ∈ s.latchPorts m, ∀ q ∈ (s.port k).queues.take 5, ∀ y ∈ q, y.kind ≠ .pixel m r.frame) →
            (s.latchPorts m).length ≤ s.f Reg.CRU_FREE_FREE →
            (s.latchPorts m).length ≤ s.cruSize - s.f Reg.CRU_SHARED_IN_USE → (t.port p).due = taken))) ∧
       (∀ p : Fin 128, p.val ∉ s.latchPorts m → t.port p = s.port p) ∧
       (∀ j, j ≠ m.val → t.raster j = s.raster j) ∧
       t = { s with regs := t.regs, cycle := t.cycle, rasters := t.rasters, ports := t.ports })))

/-- R181 to R189, R197, R295: a touch makes the engine dirty for every raster it serves; a restart sets LE_TOL_MIN to
unlimited, or clears ORS_UNDER_FIRST.VALID; a tolerance sent stands in LE_TOL, in LE_TOL_MIN where it is lower, and the
least of all engines in MC_TOL of every channel; an arrived burst that the engine requested counts its bytes, which stand
in the line buffer as the request found them in memory, the model's choice, log entry 21; zeros with LE POISON stand for
one that memory reports uncorrectable, or that a channel in FAULT has returned, and one that no remaining line of its
fetch needs is discarded and counts its row as late, once in that fetch. R257, R266: a preset load is refused as busy (1),
with a bad preset (2) or a bad REF_NITS (3), or starts a fill; the fill's end clears BUSY and writes the table of the
preset into every channel's shadow registers, the whole of it at once, the model's choice, log entry 75. -/
def Obligations.LayerEngineAndLutCommands : Prop :=
  ((∀ (r : Req) (n : Fin 32) (d : Half) (s : State), s.Up → s.passes r (Reg.LE_TOUCH n) .w32 true = true →
     ∃ t, Sys2Proof.Machine.exec (.leTouch r n d) s = .next t ∧ Answered r 0 s t ∧
       (∀ m, m ∈ (t.engine n).dirty ↔ m ∈ (s.engine n).dirty ∨ m ∈ s.served n) ∧
       t.f (Reg.LE_DIRTY_TOUCHES n) = min (s.f (Reg.LE_DIRTY_TOUCHES n) + 1) 0xFFFF ∧
       RegsBut [Reg.LE_DIRTY n] s t ∧ (∀ k, k ≠ n.val → t.engine k = s.engine k) ∧
       t = { s with regs := t.regs, cycle := t.cycle, engines := t.engines, bus := { s.bus with resp := t.bus.resp } }) ∧
   (∀ (r : Req) (n : Fin 32) (d : Half) (s : State), s.Up → s.passes r (Reg.LE_TOL_MIN_RESTART n) .w32 true = true →
     ∃ t, Sys2Proof.Machine.exec (.leTolMinRestart r n d) s = .next t ∧ Answered r 0 s t ∧
       t.f (Reg.LE_TOL_MIN_NS n) = 0xFFFFFFFF ∧ OnlyRegs [Reg.LE_TOL_MIN n] s t) ∧
   (∀ (r : Req) (m : Fin 16) (d : Half) (s : State), s.Up → s.passes r (Reg.ORS_UNDER_RESTART m) .w32 true = true →
     ∃ t, Sys2Proof.Machine.exec (.orsUnderRestart r m d) s = .next t ∧ Answered r 0 s t ∧
       t.f (Reg.ORS_UNDER_FIRST_VALID m) = 0 ∧
       bits (t.reg (Reg.ORS_UNDER_FIRST m)).toNat 62 0 = bits (s.reg (Reg.ORS_UNDER_FIRST m)).toNat 62 0 ∧
       OnlyRegs [Reg.ORS_UNDER_FIRST m] s t) ∧
   (∀ (n : Fin 32) (s : State), s.Up →
     ∃ t, Sys2Proof.Machine.exec (.toleranceUpdate n) s = .next t ∧
       t.f (Reg.LE_TOL_NS n) = s.tolerance n % 2 ^ 32 ∧
       (s.tolerance n ≠ 0xFFFFFFFF → t.f (Reg.LE_TOL_MIN_NS n) =
         min (s.f (Reg.LE_TOL_MIN_NS n)) (s.tolerance n)) ∧
       (s.tolerance n = 0xFFFFFFFF → t.f (Reg.LE_TOL_MIN_NS n) = s.f (Reg.LE_TOL_MIN_NS n)) ∧
       (∀ c : Fin 16, t.f (Reg.MC_TOL_NS c) = ((List.range 32).map fun k => t.f (Reg.LE_TOL_NS k)).foldl min 0xFFFFFFFF) ∧
       OnlyEvent ([Reg.LE_TOL n, Reg.LE_TOL_MIN n] ++ (List.range 16).map Reg.MC_TOL) s t) ∧
   (∀ (n : Fin 32) (m : Fin 16) (a : Addr) (e : Ecc) (b : Burst) (s : State), s.Up →
     (s.engine n).asked.find? (fun b => b.span.ras == m.val && b.span.addr == a.toNat / 256 * 256) = some b →
     ∃ t, Sys2Proof.Machine.exec (.leBurstArrival n m a e) s = .next t ∧
       (let bad := e = .uncorrectable ∨ b.bad = true
        let key := (b.span.ras, b.span.pass, b.span.row)
        let late := s.spanWanted n b.span = false ∧ (s.engine n).late.contains key = false
        t.reg (Reg.LE_FETCH_BYTES n) = s.reg (Reg.LE_FETCH_BYTES n) + 256 ∧
        Raised (Reg.LE_BLOCK_STATUS n)
          ((if bad then [Flag.LE_POISON] else []) ++ if late then [Flag.LE_LATE_ROWS] else []) s t ∧
        t.f (Reg.LE_EVENTS_POISON_BURSTS n) =
          (if bad then min (s.f (Reg.LE_EVENTS_POISON_BURSTS n) + 1) 0xFFF else s.f (Reg.LE_EVENTS_POISON_BURSTS n)) ∧
        t.f (Reg.LE_EVENTS_LATE_ROWS n) =
          (if late then min (s.f (Reg.LE_EVENTS_LATE_ROWS n) + 1) 0xFFF else s.f (Reg.LE_EVENTS_LATE_ROWS n)) ∧
        t.engine n = { s.engine n with
          asked := (s.engine n).asked.erase b,
          buf := if s.spanWanted n b.span then
              Tab.put (s.engine n).buf (m.val * 2 ^ 40 + a.toNat / 256 * 256) (if bad then List.replicate 256 0 else b.data)
            else (s.engine n).buf,
          late := if late then key :: (s.engine n).late else (s.engine n).late }) ∧
       (∀ k, k ≠ n.val → t.engine k = s.engine k) ∧ RegsBut [Reg.LE_FETCH_BYTES n, Reg.LE_EVENTS n, Reg.LE_BLOCK_STATUS n] s t ∧
       t = { s with regs := t.regs, cycle := t.cycle, engines := t.engines }) ∧
   (∀ (n : Fin 32) (m : Fin 16) (a : Addr) (e : Ecc) (s : State), s.Up →
     (s.engine n).asked.find? (fun b => b.span.ras == m.val && b.span.addr == a.toNat / 256 * 256) = none →
     ∃ t, Sys2Proof.Machine.exec (.leBurstArrival n m a e) s = .next t ∧ Nothing s t)) ∧
  ((∀ (r : Req) (n : Fin 32) (d : Half) (s : State), s.Up → s.passes r (Reg.LE_DECODE_LOAD n) .w32 true = true →
     ∃ t, Sys2Proof.Machine.exec (.leDecodeLoad r n d) s = .next t ∧ Answered r 0 s t ∧
       (let res := loadResult (s.fb (Reg.LE_DECODE_LOAD_BUSY n)) (bits d.toNat 16 14) (bits d.toNat 13 0)
        t.f (Reg.LE_DECODE_LOAD_RESULT n) = res ∧ RegsBut [Reg.LE_DECODE_LOAD n] s t ∧
        (res = 0 → t.f (Reg.LE_DECODE_LOAD_BUSY n) = 1 ∧
          t.engine n = { s.engine n with fill := some ⟨bits d.toNat 16 14, bits d.toNat 13 0, 0⟩ }) ∧
        (res ≠ 0 → t.f (Reg.LE_DECODE_LOAD_BUSY n) = s.f (Reg.LE_DECODE_LOAD_BUSY n) ∧ t.engine n = s.engine n)) ∧
       (∀ k, k ≠ n.val → t.engine k = s.engine k)) ∧
   (∀ (n : Fin 32) (f : Fill) (s : State), s.Up → (s.engine n).fill = some f →
     ∃ t, Sys2Proof.Machine.exec (.decodeFillDone n) s = .next t ∧ t.f (Reg.LE_DECODE_LOAD_BUSY n) = 0 ∧
       (t.engine n).fill = none ∧
       (∀ (c : Fin 3) (i : Fin 4096), t.reg (Reg.LE_DECODE_LUT n c i) = BitVec.ofNat 64 (decodePreset f.preset f.nits i)) ∧
       (∀ a, a ≠ Reg.LE_DECODE_LOAD n → (a < Reg.LE_DECODE_LUT n 0 0 ∨ Reg.LE_DECODE_LUT n 0 0 + 0xC000 ≤ a) →
         t.reg a = s.reg a) ∧
       t = { s with regs := t.regs, cycle := t.cycle, engines := t.engines }) ∧
   (∀ (r : Req) (c : Fin 8) (d : Half) (s : State), s.Up → s.passes r (Reg.BC_ENCODE_LOAD c) .w32 true = true →
     ∃ t, Sys2Proof.Machine.exec (.bcEncodeLoad r c d) s = .next t ∧ Answered r 0 s t ∧
       (let res := loadResult (s.fb (Reg.BC_ENCODE_LOAD_BUSY c)) (bits d.toNat 16 14) (bits d.toNat 13 0)
        t.f (Reg.BC_ENCODE_LOAD_RESULT c) = res ∧ RegsBut [Reg.BC_ENCODE_LOAD c] s t ∧
        (res = 0 → t.f (Reg.BC_ENCODE_LOAD_BUSY c) = 1 ∧
          t.encFill = Tab.put s.encFill c ⟨bits d.toNat 16 14, bits d.toNat 13 0, bits d.toNat 17 17⟩) ∧
        (res ≠ 0 → t.f (Reg.BC_ENCODE_LOAD_BUSY c) = s.f (Reg.BC_ENCODE_LOAD_BUSY c) ∧ t.encFill = s.encFill))) ∧
   (∀ (c : Fin 8) (f : Fill) (s : State), s.Up → Tab.find s.encFill c = some f → f.set < 2 →
     ∃ t, Sys2Proof.Machine.exec (.encodeFillDone c) s = .next t ∧ t.f (Reg.BC_ENCODE_LOAD_BUSY c) = 0 ∧
       t.encFill = Tab.del s.encFill c ∧
       (∀ (k : Fin 3) (i : Fin 4096), t.reg (Reg.BC_ENC_LUT c f.set k i) = BitVec.ofNat 64 (encodePreset f.preset f.nits i)) ∧
       (∀ a, a ≠ Reg.BC_ENCODE_LOAD c → (a < Reg.BC_ENC_LUT c f.set 0 0 ∨ Reg.BC_ENC_LUT c f.set 0 0 + 0xC000 ≤ a) →
         t.reg a = s.reg a) ∧
       t = { s with regs := t.regs, cycle := t.cycle, encFill := t.encFill }))

/-- R204, R214, R231 to R236, R242, R253, R256, R259 to R267: what a composed pixel is. A line has a pixel for each active position.
Over the background, or the colour override of the frame's plan, the slots that take part are laid from the bottom up: one without
a sample leaves the colour, one with a sample gives, for its mode, its blend under its A and F; the gain of the sub-frame, the gamut
matrix, the 3D LUT where it is enabled, the encode stage and the dither of the output follow. From the first pixel that misses
a sample on, the line shows the background. On a flat mesh both of whose axes copy, the sample is the surface's pixel itself; on a
table mesh the source coordinate is the bilinear mean of the four corners of the cell, rounded, and a cell with a hole or an
invalid corner gives no sample. -/
def Obligations.ComposedPixel : Prop :=
  (∀ (m : Fin 16) (v h : Nat) (s : State), h < (s.raster m).tim.hActive →
    (let r := s.raster m
     let line := s.lineOf m v
     let c := s.rasterCluster (s.imgOf m) m
     let x := (s.viewOf c m).1 + h
     let y := (s.viewOf c m).2 + v
     let ls := s.layersOf m r.plan
     let most := 0xFFFFFF
     let half (n : Nat) : Nat := (n + 16384) / 32768
     let word (w ch : Nat) : Nat := 16 * bits w (59 - 20 * ch) (40 - 20 * ch)
     let bg := (s.lreg (Reg.BC_BG c)).toNat
     let set := bits r.plan.2.1 1 1
     -- channel ch of a slot's sample q laid on the colour d beneath
     let laid (l : Layer) (q : Sample) (d ch : Nat) : Nat :=
       let full := l.opaq || noAlpha l.surf.fmt
       let p := if full then 0x8000 else q.a
       let pw := if full then q.w else q.aw
       let af : Nat × Nat := match l.asrc with
         | 1 => (l.alpha, l.alpha)
         | 2 => (half (p * l.alpha), l.alpha)
         | 3 => (q.w, q.w)
         | 4 => (pw, q.w)
         | 5 => (half (pw * l.alpha), half (q.w * l.alpha))
         | _ => (p, 0x8000)
       let a := if l.mode = 5 then half (af.1 * keyAlpha l q.c0 q.c1 q.c2) else af.1
       let k := if ch = 0 then q.c0 else if ch = 1 then q.c1 else q.c2
       match l.mode with
       | 1 => min most (half (k * af.2) + half (d * (32768 - a)))
       | 2 => min most (d + half (k * a))
       | 3 => min most ((d * half (k * a + 0x100000 * (32768 - a)) + 0x80000) / 0x100000)
       | 4 => k
       | _ => half (k * a + d * (32768 - a))
     -- the link codes p of a composed colour
     let linked (col : Nat → Nat) (p : PixOut) : Prop :=
       let g (ch : Nat) : Nat := min most ((col ch * bits r.plan.1 31 16 + 2048) / 4096)
       let mat (i j : Nat) : Int := sgn 19 (s.lf (Reg.BC_CP_MATRIX_COEF c set (3 * i + j)))
       let gam (i : Nat) : Nat :=
         (clampI ((mat i 0 * g 0 + mat i 1 * g 1 + mat i 2 * g 2 + 32768) / 65536) 0 most).toNat
       let depth := depthBits (s.lf (Reg.BC_OUT_CFG_DEPTH c))
       let dither := s.lf (Reg.BC_OUT_CFG_DITHER c)
       ∃ (z : Acc) (b : Bool), (s.lut3d c set ⟨gam 0, gam 1, gam 2, b⟩).1 = z ∧
         (s.lfb (Reg.BC_CP_CTRL_LUT3D_EN c set) = false → z.r = gam 0 ∧ z.g = gam 1 ∧ z.b = gam 2) ∧
         (let put (ch e : Nat) (code : Nat) : Prop :=
            let out := (s.encode c set ch e).1
            (s.lfb (Reg.BC_CP_CTRL_ENC_MODE c set) = true →
              out = min 0x100000 ((e * s.lf (Reg.BC_CP_LIN_GAIN_GAIN c set) + 32768) / 65536)) ∧
            code = linkCode depth dither h v r.frame ch out ∧
            (dither = 0 → code = (out * (2 ^ depth - 1) + 2 ^ 19) / 2 ^ 20)
          put 0 z.r p.r ∧ put 1 z.g p.g ∧ put 2 z.b p.b)
     let sample (l : Layer) : Got := s.sampleAt (s.engine l.n) m l.mesh l.surf
       (fun j => !l.mesh.table || ((s.lineRows l.n m v).take (bufRows l.surf)).contains j) x y
     line.px.length = r.tim.hActive ∧
     ∃ p, line.px[h]? = some p ∧
       (line.under = none → ∃ col : Nat → Nat → Nat,
         (∀ ch, ch < 3 → col 0 ch = word (if bit r.plan.2.1 0 = true then r.plan.2.2 else bg) ch) ∧
         (∀ i l, ls[i]? = some l → ∀ ch, ch < 3 →
           (∀ q, sample l = .some q → col (i + 1) ch = laid l q (col i ch) ch) ∧
           ((∀ q, sample l ≠ .some q) → col (i + 1) ch = col i ch)) ∧
         linked (col ls.length) p) ∧
       (∀ u, line.under = some u → u.1 ≤ h → linked (word bg) p))) ∧
  (∀ (m : Fin 16) (e : Engine) (g : MeshCfg) (f : Surf) (ok : Nat → Bool) (x y i j : Nat) (px : Px) (s : State),
    g.inside x y = true → g.copyU = true → g.copyV = true →
    (i : Int) = g.u0 / 512 + (x - g.x0 : Nat) → (j : Int) = g.v0 / 512 + (y - g.y0 : Nat) →
    i < f.width → j < f.height → i < 65536 → j < 65536 → bufPx e m f ok i j = some px →
    (let most := if f.fmt = 10 then 0xFFFFFF else 0xFFFF
     let q : Px := ⟨min most px.c0, min most px.c1, min most px.c2, min 0x8000 px.a⟩
     let z := s.layerColour g.n f.fmt q
     s.sampleAt e m g f ok x y = .some ⟨z.1, z.2.1, z.2.2, q.a, 0x8000, q.a⟩ ∧
     (f.fmt = 10 → z = (q.c0, q.c1, q.c2)) ∧
     (f.fmt ≠ 10 → s.lf (Reg.LE_COLOUR_CTRL_CSC g.n) = 0 → s.lfb (Reg.LE_COLOUR_CTRL_DECODE g.n) = false →
       (let lin (n : Nat) : Nat := (2 * n * 2 ^ 20 + 65535) / 131070
        z = (lin q.c0, lin q.c1, lin q.c2))))) ∧
  (∀ (m : Fin 16) (e : Engine) (g : MeshCfg) (f : Surf) (ok : Nat → Bool) (x y : Nat) (s : State),
    g.table = true → g.inside x y = true → 0 < g.g →
    (let v (i j : Nat) : Vertex := s.vertex g.n g.ras (g.index ((x - g.x0) / g.g + i) ((y - g.y0) / g.g + j))
     let ax := (x - g.x0) % g.g
     let ay := (y - g.y0) % g.g
     let mean (z : Vertex → Int) : Int :=
       ((g.g - ax) * (g.g - ay) : Nat) * z (v 0 0) + (ax * (g.g - ay) : Nat) * z (v 1 0) +
         ((g.g - ax) * ay : Nat) * z (v 0 1) + (ax * ay : Nat) * z (v 1 1)
     let good := ∀ i j, i < 2 → j < 2 → (v i j).valid = true ∧ (v i j).hole = false
     (¬ good → s.sampleAt e m g f ok x y = .none) ∧
     (good → (s.coordAt g x y).cut = false ∧
       (2 * ((s.coordAt g x y).u * (g.g * g.g : Nat) - mean Vertex.u)).natAbs ≤ g.g * g.g ∧
       (2 * ((s.coordAt g x y).v * (g.g * g.g : Nat) - mean Vertex.v)).natAbs ≤ g.g * g.g)))

/-! ### Cues and commits -/

/-- R140 to R142: an arm is refused by the first step of the judgement that fails, with the code in CUE_ARM_LOG and, but
for an ARMED slot, in the status entry; else the slot is ARMED at its position, late where that has passed: due at once,
or discarded under LATE_POLICY 1. R143: a disarm sets an ARMED slot to IDLE; a cue that has come due, or does in this
FCLK, still runs once; a periodic cue that has just run ends as its run left it; any other slot is left alone. -/
def Obligations.CueArmingAndDisarming : Prop :=
  ((∀ (r : Req) (i : Fin 8192) (s : State), s.Up → s.canonical = true → s.passes r Reg.CUE_ARM .w32 true = true →
     s.cueState i = 1 →
     ∃ t, Sys2Proof.Machine.exec (.cueArm r i) s = .next t ∧ Answered r 0 s t ∧
       t.f Reg.CUE_ARM_LOG_SLOT = i ∧ t.f Reg.CUE_ARM_LOG_CODE = 1 ∧
       Raised Reg.CUE_BLOCK_STATUS [Flag.CUE_ARM_REFUSED] s t ∧ OnlyRegs [Reg.CUE_ARM_LOG, Reg.CUE_BLOCK_STATUS] s t) ∧
   (∀ (r : Req) (i : Fin 8192) (s : State), s.Up → s.canonical = true → s.passes r Reg.CUE_ARM .w32 true = true →
     s.cueState i ≠ 1 → s.poisoned (cueSlot i) 32 = false →
     ∃ t, Sys2Proof.Machine.exec (.cueArm r i) s = .next t ∧ Answered r 0 s t ∧ EntryBut i s t ∧
       (let code := if s.cueRefusal i ≠ 0 then s.cueRefusal i else s.cueChainRefusal i
        let p := s.cueTarget i
        let x : ArmedCue := { raster := s.cueRaster i, first := p.f, f := p.f, l := p.l, t := p.t, period := s.cuePeriod i }
        let late := ∃ cur, s.cuePos (s.cueRaster i) = some cur ∧ RP.le p cur = true
        (code ≠ 0 → t.f Reg.CUE_ARM_LOG_SLOT = i ∧ t.f Reg.CUE_ARM_LOG_CODE = code ∧ t.cueState i = 6 ∧
          Raised Reg.CUE_BLOCK_STATUS [Flag.CUE_ARM_REFUSED] s t ∧
          RegsBut [Reg.CUE_ARM_LOG, Reg.CUE_BLOCK_STATUS] s t ∧
          t = { s with regs := t.regs, cycle := t.cycle, mem := t.mem, poison := t.poison,
                       bus := { s.bus with resp := t.bus.resp } }) ∧
        (code = 0 → ¬ late → t.cueState i = 1 ∧ t.cues = Tab.put s.cues i x ∧
          t.f Reg.CUE_ARMED_COUNT = (s.f Reg.CUE_ARMED_COUNT + 1) % 2 ^ 14) ∧
        (code = 0 → late → s.cueDiscards i = false → t.cueState i = 1 ∧
          t.cues = Tab.put s.cues i { x with due := some s.fclk, late := true } ∧
          t.f Reg.CUE_ARMED_COUNT = (s.f Reg.CUE_ARMED_COUNT + 1) % 2 ^ 14) ∧
        (code = 0 → late → s.cueDiscards i = true →
          t.f Reg.CUE_STATS_LATE_DISCARDS = min (s.f Reg.CUE_STATS_LATE_DISCARDS + 1) 0xFFFF ∧
          Raised Reg.CUE_BLOCK_STATUS [Flag.CUE_LATE_DISCARD] s t ∧
          (s.cuePeriod i = 0 → t.cueState i = 4 ∧ t.cues = Tab.del (Tab.put s.cues i x) i) ∧
          (s.cuePeriod i ≠ 0 → t.cueState i = 1 ∧ ∃ k, 1 ≤ k ∧
            t.cues = Tab.put s.cues i { x with f := p.f + s.cuePeriod i * k })) ∧
        (code = 0 → s.cueChain i = false →
          RegsBut [Reg.CUE_ARMED, Reg.CUE_STATS, Reg.CUE_BLOCK_STATUS] s t ∧
          t = { s with regs := t.regs, cycle := t.cycle, mem := t.mem, poison := t.poison, cues := t.cues,
                       bus := { s.bus with resp := t.bus.resp } })))) ∧
  (∀ (r : Req) (i : Fin 8192) (s : State), s.Up → s.canonical = true → s.passes r Reg.CUE_ARM .w32 true = true →
     ∃ t, Sys2Proof.Machine.exec (.cueDisarm r i) s = .next t ∧ Answered r 0 s t ∧ EntryBut i s t ∧
       (Tab.find s.cues i = none → t.cues = s.cues ∧ t.mem = s.mem) ∧
       (∀ x, Tab.find s.cues i = some x → s.comesDue x = true →
         t.cues = Tab.put s.cues i { x with once := true, due := some (x.due.getD s.fclk) } ∧ t.mem = s.mem) ∧
       (∀ x, Tab.find s.cues i = some x → s.comesDue x = false →
         t.cues = Tab.del s.cues i ∧ t.f Reg.CUE_ARMED_COUNT = s.f Reg.CUE_ARMED_COUNT - 1 ∧
         t.cueState i = (match x.ranIn with | some (d, st) => if d = s.fclk then st % 16 else 0 | none => 0)) ∧
       (s.cueChain i = false → RegsBut [Reg.CUE_ARMED] s t ∧
         t = { s with regs := t.regs, mem := t.mem, poison := t.poison, cues := t.cues, cycle := t.cycle,
                      bus := { s.bus with resp := t.bus.resp } }))

/-- R41, R144 to R146, R464: each action of a cue that runs. COMMIT registers a commit, whose number the slot's status entry shows; WRITE
is a 32-bit write of DATA to ADDR as identity 9, with all that a write has: a mailbox word that identity 9 sends takes it, or it is
denied and logged and the cue has still run, or it draws the bus error and the cue fails; START_BLIT advances the producer index, or is refused with
PROD_REFUSED and fails; SIGNAL fails on a channel that is SENT, and else writes the slot and the position of its raster to MSG[0] to
MSG[2] and sends them with LEN 3 and TAG; LOAD_EXPECT loads the unit's expected value. That a SIGNAL refused in another way has
still run, and which position it sends, are the model's reading, log entry 43. -/
def Obligations.CueActions : Prop :=
  (∀ (i : Fin 8192) (x : ArmedCue) (s : State), s.Up → s.canonical = true → CueRuns i 1 x s →
    ∃ t, Sys2Proof.Machine.exec (.commit i) s = .next t ∧ CueDone i x (16 ≤ x.raster ∨ s.enabled x.raster = true) False s t ∧
      (let units := s.expandMask (s.cueMask i % 2 ^ 56)
       (s.cueMask i % 2 ^ 56 = 0 → t.commits = s.commits) ∧
       (s.cueMask i % 2 ^ 56 ≠ 0 → t.commits = s.commits ++ [{ seq := s.f Reg.CUE_COMMIT_NEXT_SEQ, units := units, fclk := s.fclk }] ∧
         t.f Reg.CUE_COMMIT_PENDING_MASK = s.f Reg.CUE_COMMIT_PENDING_MASK ||| units) ∧
       (16 ≤ x.raster ∨ s.enabled x.raster = true → bits (t.rd (cueEntry i) 8) 47 32 =
         if s.cueMask i % 2 ^ 56 = 0 then 0 else s.f Reg.CUE_COMMIT_NEXT_SEQ)) ∧
      t.live = s.live ∧ t.ports = s.ports) ∧
  (∀ (i : Fin 8192) (x : ArmedCue) (s : State), s.Up → s.canonical = true → CueRuns i 2 x s →
    (let q : Req := ⟨9, .machine⟩
     let a := BitVec.ofNat 40 (s.cueWriteAddr i)
     let d := s.cueData i
     let cueRegs := [Reg.CUE_ARMED, Reg.CUE_STATS, Reg.CUE_BLOCK_STATUS]
     ∃ t u, Sys2Proof.Machine.exec (.write i) s = .next t ∧
       -- u: the access itself, as any write of identity 9
       Sys2Proof.Machine.exec (.registerWrite q a .w32 (BitVec.ofNat 64 d))
         { s with ran := s.ran + 1, cues := Tab.del s.cues i } = .next u ∧
       t = { u with regs := t.regs, cycle := t.cycle, mem := t.mem, poison := t.poison, cues := t.cues } ∧ RegsBut cueRegs u t ∧
       (16 ≤ x.raster ∨ u.enabled x.raster = true → EntryBut i u t) ∧
       -- the one writable register that identity 9 reaches (R41): a word of a channel that it sends on (R529)
       (∀ (n : Fin 64) (k : Fin 16), a.toNat = Reg.MB_MSG n k → s.passes q (Reg.MB_MSG n k) .w32 true = true →
         s.mbSender n = 9 → s.mbState n ≠ 1 → t.f (Reg.MB_MSG_DATA n k) = d) ∧
       (∀ need, s.mute q = false → s.judge q a.toNat .w32 true = .denied need →
         (t.respOf 9).kind = .denied ∧ (a.toNat ∉ cueRegs → t.reg a.toNat = s.reg a.toNat ∨ a.toNat = Reg.ACCESS_LOG_HEAD ∨
           a.toNat = Reg.MASTERS_BLOCK_STATUS ∨ ∃ k, a.toNat = Reg.ACCESS_LOG_ENTRY k)) ∧
       (∀ cause, s.mute q = false → s.judge q a.toNat .w32 true = .error cause →
         (t.respOf 9).kind = .busError ∧ t.f Reg.BUS_ERROR_LOG_CAUSE = cause ∧ t.f Reg.BUS_ERROR_LOG_MASTER = 9) ∧
       CueDone i x (16 ≤ x.raster ∨ (t.enabled x.raster = true ∧ ∀ c ∈ s.cues, c.1 < 8192))
         ((t.respOf 9).kind = .busError) s t)) ∧
  (∀ (i : Fin 8192) (x : ArmedCue) (s : State), s.Up → s.canonical = true → CueRuns i 4 x s →
    ∃ t, Sys2Proof.Machine.exec (.startBlit i) s = .next t ∧
      (let b := s.cueByte i % 4
       let cons := s.f (Reg.BLT_CONS_CONS b)
       let ahead (k : Nat) : Nat := (k + 65536 - cons) % 65536
       let ok := (s.fb (Reg.BLT_CTRL_EN b) = true ∨ s.f (Reg.BLT_STATE_STATE b) = 3) ∧ ahead (s.f (Reg.BLT_PROD_PROD b)) ≤ ahead (s.cueHalf i) ∧
         ahead (s.cueHalf i) ≤ s.bltSlots b
       CueDone i x (16 ≤ x.raster ∨ s.enabled x.raster = true) (¬ ok) s t ∧
       t.f (Reg.BLT_PROD_PROD b) = (if ok then s.cueHalf i else s.f (Reg.BLT_PROD_PROD b)) ∧
       Raised (Reg.BLT_BLOCK_STATUS b) (if ok then [] else [Flag.BLT_PROD_REFUSED]) s t ∧
       RegsBut [Reg.BLT_PROD b, Reg.BLT_BLOCK_STATUS b, Reg.CUE_ARMED, Reg.CUE_STATS, Reg.CUE_BLOCK_STATUS] s t) ∧
      t.live = s.live ∧ t.ports = s.ports) ∧
  (∀ (i : Fin 8192) (x : ArmedCue) (s : State), s.Up → s.canonical = true → CueRuns i 5 x s →
    ∃ t, Sys2Proof.Machine.exec (.signal i) s = .next t ∧ CueDone i x (16 ≤ x.raster ∨ s.enabled x.raster = true) (s.mbState (s.cueByte i % 64) = 1) s t ∧
      (let n := s.cueByte i % 64
       let pos := (s.cuePos (s.cueRaster i)).getD ⟨0, 0, 0⟩
       s.mbState n ≠ 1 → (∀ k, k < 3 → s.passes ⟨9, .machine⟩ (Reg.MB_MSG n k) .w32 true = true) →
         s.passes ⟨9, .machine⟩ (Reg.MB_SEND n) .w32 true = true → s.fb (Reg.MB_BIND_EN n) = true →
         s.fb Reg.MB_BIND_LOCK_LOCKED = true → s.mbSender n = 9 →
         t.mbState n = 1 ∧ t.f (Reg.MB_MSG_DATA n 0) = i ∧ t.f (Reg.MB_MSG_DATA n 1) = pos.f % 2 ^ 32 ∧
         t.f (Reg.MB_MSG_DATA n 2) = pos.l % 65536 * 65536 + pos.t % 65536 ∧ t.f (Reg.MB_STATE_LEN n) = 3 ∧
         t.f (Reg.MB_TAG_TAG n) = s.cueHalf i ∧ t.f (Reg.MB_TAG_SENDS n) = (s.f (Reg.MB_TAG_SENDS n) + 1) % 65536)) ∧
  (∀ (i : Fin 8192) (x : ArmedCue) (s : State), s.Up → s.canonical = true → CueRuns i 6 x s →
    ∃ t, Sys2Proof.Machine.exec (.loadExpect i) s = .next t ∧ CueDone i x (16 ≤ x.raster ∨ s.enabled x.raster = true) False s t ∧
      (s.cueByte i < 16 → t.f (Reg.SIG_EXPECT_VALUE (s.cueByte i)) = s.cueValue i ∧
        t.f (Reg.SIG_EXP_STATE_VALID (s.cueByte i)) = 1) ∧
      (∀ n, n < 4 → s.cueByte i = 16 + n → t.f (Reg.MCU_EXPECT_VALUE n) = s.cueValue i ∧
        t.f (Reg.MCU_STATE_EXP_VALID n) = 1) ∧
      t.live = s.live ∧ t.ports = s.ports)

/-- R153, R154, R163, R164: a commit gets the next sequence number and makes its units and their lock groups pending; a
mask of zero registers nothing. R445: a chain slot's CUE frame disarms the slot, or stores its contents and arms them or
refuses the arm. R152, R157, R158: the pending units without a governing raster, of commits registered in an earlier FCLK,
land together. Where no cause and no unit check rejects them, every shadow register of theirs becomes live and every entry
of theirs is transferred; where one does, nothing is transferred and COMMIT_REJECTED is set. Either way they are no longer
pending, unless a commit of the landing's own FCLK names them; a commit alone ends LANDED or REJECTED with the cause,
RASTER 31, and in FRAME the reference frame. -/
def Obligations.CommitRegistrationAndUngovernedLanding : Prop :=
  ((∀ (r : Req) (mask : Word) (s : State), s.Up → s.passes r Reg.CUE_COMMIT .w64 true = true →
     ∃ t, Sys2Proof.Machine.exec (.cueCommit r mask) s = .next t ∧ Answered r 0 s t ∧
       (let seq := s.f Reg.CUE_COMMIT_NEXT_SEQ
        let units := s.expandMask (mask.toNat % 2 ^ 56)
        (mask.toNat % 2 ^ 56 = 0 → t.commits = s.commits ∧ t.tickets = s.tickets ∧ RegsBut [] s t) ∧
        (mask.toNat % 2 ^ 56 ≠ 0 → seq ≠ 0 →
          t.f Reg.CUE_COMMIT_NEXT_SEQ = (if seq = 65535 then 1 else seq + 1) ∧
          t.f Reg.CUE_COMMIT_PENDING_MASK = s.f Reg.CUE_COMMIT_PENDING_MASK ||| units ∧
          t.reg (Reg.CUE_COMMIT_STATUS (seq % 256)) = BitVec.ofNat 64 (seq * 2 ^ 48 + 2 ^ 44) ∧
          t.commits = s.commits ++ [{ seq := seq, units := units, fclk := s.fclk }] ∧
          t.tickets = Tab.put s.tickets r.master.val seq ∧
          RegsBut [Reg.CUE_COMMIT_NEXT, Reg.CUE_COMMIT_PENDING, Reg.CUE_COMMIT_STATUS (seq % 256)] s t)) ∧
       t = { s with regs := t.regs, cycle := t.cycle, commits := t.commits, tickets := t.tickets,
                    bus := { s.bus with resp := t.bus.resp, hold := t.bus.hold, stage := t.bus.stage } }) ∧
   (∀ (k : Fin 16) (f : CueFrame) (p : Fin 128) (rest : List Nat) (s : State), s.Up → s.canonical = true →
     s.joinedPorts k = p.val :: rest →
     (s.chainRole = 2 ∨ s.chainRole = 3) → s.kindOf k = 0 → s.oldEpoch f.epoch.toNat = false → f.wf = true →
     ∃ t, Sys2Proof.Machine.exec (.chainCueFrame k f) s = .next t ∧
       (s.chainRole = 3 → t.f Reg.CHAIN_STATE_EPOCH = f.epoch.toNat) ∧
       (let i := f.slot.val
        (f.contents = none → ∀ x, Tab.find s.cues i = some x → s.comesDue x = false → x.ranIn = none →
          t.cues = Tab.del s.cues i ∧ t.cueState i = 0) ∧
        (∀ c, f.contents = some c → (∀ j, j < 32 → Mem.read t.mem (cueSlot i + j) = byteAt c j) ∧
          (t.cueRefusal i ≠ 0 → t.cueState i = 6 ∧ t.f Reg.CUE_ARM_LOG_SLOT = i ∧
            t.f Reg.CUE_ARM_LOG_CODE = t.cueRefusal i) ∧
          (t.cueRefusal i = 0 → t.cueState i = 1 ∨ t.cueState i = 4))) ∧
       t.live = s.live ∧ t.rasters = s.rasters) ∧
   (∀ (k : Fin 16) (f : CueFrame) (s : State), s.Up → s.joinedPorts k = [] →
     ∃ t, Sys2Proof.Machine.exec (.chainCueFrame k f) s = .next t ∧ Nothing s t)) ∧
  (∀ s : State, s.Up →
     ∃ t, Sys2Proof.Machine.exec .ungovernedLanding s = .next t ∧
       (let us := s.duePending.filter fun u => (s.governor u).isNone
        (us = [] → Nothing s t) ∧ (s.canonical = true → Landing us false 31 s.refPos.f s t) ∧
        (us ≠ [] → s.causeOf us false ≠ 0 → t.rasters = s.rasters ∧ t.engines = s.engines)) ∧
       t = { s with regs := t.regs, cycle := t.cycle, live := t.live, mem := t.mem, poison := t.poison,
                    rasters := t.rasters, engines := t.engines, commits := t.commits })
/-! ### Blueri Tile Link -/

/-- R344, R345: a CTRL transaction starts on channel 0 with the next SEQ, or is refused; without CACK it is sent again up
to RETRIES times and then fails with code 0xFFFF; a matching CACK ends it with its CODE. That CTRL_DONE and RESULT follow channel 0
alone, and a refusal on a port that is not EGRESS, are the model's choices, log entry 68; that a frame of another kind does
nothing here is log entry 74. -/
def Obligations.ControlTransactions : Prop :=
  (∀ (r : Req) (p : Fin 128) (d : Half) (s : State), s.Up → s.passes r (Reg.BTL_CTRL_SEND p) .w32 true = true →
    ∃ t, Sys2Proof.Machine.exec (.btlCtrlSend r p d) s = .next t ∧ Answered r 0 s t ∧
      (let words := bits d.toNat 20 16
       let tile := bits d.toNat 15 0
       let refused := ((s.port p).ctrl.getD 0 none).isSome = true ∨ words = 0 ∨ 16 < words ∨ tile = 0xFFFF ∨ s.role p ≠ 1
       let c : Ctrl := { tile := tile, seq := (s.port p).ctrlSeq, addr := s.f (Reg.BTL_CTRL_ADDR_ADDR p) / 4 * 4, tries := 1,
                         payload := (List.range words).flatMap fun w => leBytes 4 (s.f (Reg.BTL_CTRL_DATA_DATA p w)) }
       (refused → Raised (Reg.BTL_STATUS p) [Flag.BTL_STATUS_CTRL_REFUSED] s t ∧ OnlyRegs [Reg.BTL_STATUS p] s t) ∧
       (¬ refused → t.f (Reg.BTL_CTRL_RESULT_STATE p) = 1 ∧ t.f (Reg.BTL_CTRL_RESULT_TRIES p) = 1 ∧
         t.f (Reg.BTL_CTRL_RESULT_CODE p) = 0 ∧ (t.port p).ctrl = (s.port p).ctrl.set 0 (some c) ∧
         (t.port p).ctrlSeq = (if c.seq = 0x7FFFFFFF then 1 else c.seq + 1) ∧ Queued p 6 (ctrlFrame 0 c) s t ∧
         RegsBut (Reg.BTL_CTRL_RESULT p :: queueRegs p 6) s t)) ∧
      OnlyPort p s t ∧ t = { s with regs := t.regs, cycle := t.cycle, ports := t.ports, bus := { s.bus with resp := t.bus.resp } }) ∧
  (∀ (p : Fin 128) (ch : Fin 2) (s : State), s.Up →
    ∃ t, Sys2Proof.Machine.exec (.ctrlTimeout p ch) s = .next t ∧
      ((s.port p).ctrl.getD ch none = none → Nothing s t) ∧
      (∀ c, (s.port p).ctrl.getD ch none = some c → c.tries ≤ s.f (Reg.BTL_CTRL_CFG_RETRIES p) →
        (t.port p).ctrl = (s.port p).ctrl.set ch (some { c with tries := c.tries + 1 }) ∧
        t.f (Reg.BTL_CTRL_STATS_RETRIES p) = min (s.f (Reg.BTL_CTRL_STATS_RETRIES p) + 1) 0xFFFF ∧
        (ch = 0 → t.f (Reg.BTL_CTRL_RESULT_TRIES p) = min 15 (c.tries + 1)) ∧ Queued p 6 (ctrlFrame ch c) s t ∧
        RegsBut (Reg.BTL_CTRL_RESULT p :: Reg.BTL_CTRL_STATS p :: queueRegs p 6) s t) ∧
      (∀ c, (s.port p).ctrl.getD ch none = some c → s.f (Reg.BTL_CTRL_CFG_RETRIES p) < c.tries →
        t.f (Reg.BTL_CTRL_STATS_FAILED p) = min (s.f (Reg.BTL_CTRL_STATS_FAILED p) + 1) 0xFFFF ∧
        t.flagSet (Reg.BTL_STATUS p) Flag.BTL_STATUS_CTRL_FAILED = true ∧
        (ch = 0 → t.f (Reg.BTL_CTRL_RESULT_STATE p) = 3 ∧ t.f (Reg.BTL_CTRL_RESULT_CODE p) = 0xFFFF) ∧
        (ch = 0 ∨ (s.port p).delays = [] →
          (t.port p).ctrl = (s.port p).ctrl.set ch none ∧ (t.port p).queues = (s.port p).queues)) ∧
      OnlyPort p s t ∧ t = { s with regs := t.regs, cycle := t.cycle, ports := t.ports }) ∧
  (∀ (p : Fin 128) (frame : List Byte) (s : State), s.Up →
    ∃ t, Sys2Proof.Machine.exec (.cackReceived p frame) s = .next t ∧
      (let hit (ch : Nat) : Prop := ∃ c, (s.port p).ctrl.getD ch none = some c ∧ c.tile = leAt frame 16 2 ∧ c.seq = leAt frame 22 4
       (s.classify p frame ≠ .cack → Nothing s t) ∧
       (s.classify p frame = .cack → hit 0 → t.f (Reg.BTL_CTRL_RESULT_STATE p) = 2 ∧
         t.f (Reg.BTL_CTRL_RESULT_CODE p) = leAt frame 20 2 ∧
         Raised (Reg.BTL_STATUS p) [Flag.BTL_STATUS_CTRL_DONE] s t ∧ (t.port p).ctrl = (s.port p).ctrl.set 0 none ∧
         RegsBut (Reg.BTL_CTRL_RESULT p :: Reg.BTL_STATUS p :: billetRegs p) s t) ∧
       (s.classify p frame = .cack → ¬ hit 0 → hit 1 → (s.port p).delays = [] →
         (t.port p).ctrl = (s.port p).ctrl.set 1 none ∧ RegsBut (billetRegs p) s t) ∧
       (s.classify p frame = .cack → ¬ hit 0 → ¬ hit 1 →
         (t.port p).ctrl = (s.port p).ctrl ∧ RegsBut (billetRegs p) s t)) ∧
      OnlyPort p s t ∧ t = { s with regs := t.regs, cycle := t.cycle, ports := t.ports })

/-- R337, R338, R344, R345: an echo BEACON is given to Q7 on request, unless AUTO, an echo outstanding or the role refuses it; an
automatic round begins with the first tile of the port's live entries; a reply gives the one-way delay, and under AUTO 1 a delay
write to the tile, which channel 1 starts where it is free, and the echo of the round's next tile; no reply in time sets
ECHO_TIMEOUT, and the round goes on while AUTO is 1. The model's choices: DELAY is truncated to U24.8, log entry 13; the raster of
a tile without a live entry is open, log entry 12; the refusal on a port that is not EGRESS is log entry 68, and that a frame of
another kind does nothing is log entry 74. -/
def Obligations.Echoes : Prop :=
  (∀ (r : Req) (p : Fin 128) (d : Half) (s : State), s.Up → s.passes r (Reg.BTL_ECHO_REQ p) .w32 true = true →
    ∃ t, Sys2Proof.Machine.exec (.btlEchoReq r p d) s = .next t ∧ Answered r 0 s t ∧
      (let refused := s.fb (Reg.BTL_ECHO_CFG_AUTO p) = true ∨ (s.port p).echo.isSome = true ∨ s.role p ≠ 1
       (refused → Raised (Reg.BTL_STATUS p) [Flag.BTL_STATUS_ECHO_REFUSED] s t ∧ OnlyRegs [Reg.BTL_STATUS p] s t) ∧
       (¬ refused → (t.port p).echo = some { tile := bits d.toNat 15 0, seq := (s.port p).echoSeq, t1 := none } ∧
         (t.port p).echoSeq = ((s.port p).echoSeq + 1) % 2 ^ 32 ∧
         EchoQueued p (bits d.toNat 15 0) (s.port p).echoSeq s t ∧ RegsBut (queueRegs p 7) s t)) ∧
      OnlyPort p s t ∧ SameMem s t) ∧
  (∀ (p : Fin 128) (s : State), s.Up →
    ∃ t, Sys2Proof.Machine.exec (.echoRoundStart p) s = .next t ∧
      (let starts := s.fb (Reg.BTL_ECHO_CFG_AUTO p) = true ∧ s.role p = 1 ∧ (s.port p).echo = none ∧ (s.port p).round = []
       let tiles := distinct ((s.liveEntries.filter fun e => e.ports.contains p).map MapEntry.tile)
       (¬ starts → Nothing s t) ∧
       (starts → (t.port p).roundFrames = 0 ∧ (t.port p).round = tiles.tail ∧
         ((t.port p).echo = tiles.head?.map fun x => { tile := x, seq := (s.port p).echoSeq, t1 := none }) ∧
         (∀ x, tiles.head? = some x → EchoQueued p x (s.port p).echoSeq s t) ∧
         (tiles = [] → (t.port p).queues = (s.port p).queues))) ∧
      OnlyPort p s t ∧ RegsBut (queueRegs p 7) s t ∧ SameMem s t) ∧
  (∀ (p : Fin 128) (frame : List Byte) (s : State), s.Up →
    ∃ t, Sys2Proof.Machine.exec (.echoReplyReceived p frame) s = .next t ∧
      (s.classify p frame ≠ .reply → Nothing s t) ∧
      (∀ e t1, s.classify p frame = .reply → (s.port p).echo = some e → e.t1 = some t1 → leAt frame 22 4 = e.seq →
        (let d := echoTwice t1 (s.rxTq p frame) frame / 512
         t.f (Reg.BTL_ECHO_RESULT_VALID p) = 1 ∧ t.f (Reg.BTL_ECHO_RESULT_TIMEOUT p) = 0 ∧
         t.f (Reg.BTL_ECHO_RESULT_TILE p) = e.tile % 65536 ∧
         (0 ≤ d → d < 2 ^ 32 → (t.f (Reg.BTL_ECHO_RESULT_DELAY p) : Int) = d) ∧
         t.flagSet (Reg.BTL_STATUS p) Flag.BTL_STATUS_ECHO_DONE = true ∧
         (s.fb (Reg.BTL_ECHO_CFG_AUTO p) = false →
           (t.port p).echo = none ∧ (t.port p).round = [] ∧ (t.port p).queues = (s.port p).queues) ∧
         (s.fb (Reg.BTL_ECHO_CFG_AUTO p) = true → DelayWritten p frame e.tile (t.f (Reg.BTL_ECHO_RESULT_DELAY p)) s t))) ∧
      OnlyPort p s t ∧ SameMem s t) ∧
  (∀ (p : Fin 128) (s : State), s.Up →
    ∃ t, Sys2Proof.Machine.exec (.echoTimeout p) s = .next t ∧
      ((s.port p).echo = none → Nothing s t) ∧
      (∀ e, (s.port p).echo = some e → t.f (Reg.BTL_ECHO_RESULT_VALID p) = 0 ∧ t.f (Reg.BTL_ECHO_RESULT_TIMEOUT p) = 1 ∧
        t.f (Reg.BTL_ECHO_RESULT_TILE p) = e.tile % 65536 ∧
        t.flagSet (Reg.BTL_STATUS p) Flag.BTL_STATUS_ECHO_TIMEOUT = true ∧
        (t.port p).round = (if s.fb (Reg.BTL_ECHO_CFG_AUTO p) = true then (s.port p).round.tail else []) ∧
        ((s.port p).round = [] ∨ s.fb (Reg.BTL_ECHO_CFG_AUTO p) = false → (t.port p).echo = none) ∧
        (∀ x rest, (s.port p).round = x :: rest → s.fb (Reg.BTL_ECHO_CFG_AUTO p) = true →
          (t.port p).echo = some { tile := x, seq := (s.port p).echoSeq, t1 := none } ∧
          EchoQueued p x (s.port p).echoSeq s t)) ∧
      OnlyPort p s t ∧ RegsBut (Reg.BTL_ECHO_RESULT p :: Reg.BTL_STATUS p :: queueRegs p 7) s t ∧ SameMem s t)

/-- R347 to R349: a STAT adds its counts and goes, without its FCS, to the host receive ring behind what waits for it; a test of
COUNT packets is refused or begins, its returned packets are counted and compared, and its end clears BUSY; a frame that the port
discards is counted as foreign, bad or its own. The test's SEQs that run from 1 and its refusal on a port that is not EGRESS are
the model's choices, log entry 68; that a frame of another kind does nothing is log entry 74. -/
def Obligations.TileReports : Prop :=
  (∀ (p : Fin 128) (frame : List Byte) (s : State), s.Up →
    ∃ t, Sys2Proof.Machine.exec (.statReceived p frame) s = .next t ∧
      (s.classify p frame ≠ .stat → Nothing s t) ∧
      (s.classify p frame = .stat →
        t.reg (Reg.BTL_DELIVERED p) = s.reg (Reg.BTL_DELIVERED p) + BitVec.ofNat 64 (leAt frame 30 4) ∧
        t.slowReg Reg.PWR_DELIVERED = s.slowReg Reg.PWR_DELIVERED + BitVec.ofNat 64 (leAt frame 30 4) ∧
        t.f (Reg.BTL_TILE_EVENTS_CHECK_FAIL p) = min (s.f (Reg.BTL_TILE_EVENTS_CHECK_FAIL p) + leAt frame 34 2) 0xFFFFFFFF ∧
        t.f (Reg.BTL_TILE_EVENTS_LATE_LATCH p) = min (s.f (Reg.BTL_TILE_EVENTS_LATE_LATCH p) + leAt frame 36 2) 0xFFFFFFFF ∧
        t.f (Reg.BTL_RX_COUNTS_RX_STAT p) = (s.f (Reg.BTL_RX_COUNTS_RX_STAT p) + 1) % 65536 ∧
        Raised (Reg.BTL_STATUS p) (if leAt frame 36 2 = 0 then [] else [Flag.BTL_STATUS_TILE_LATE_LATCH]) s t ∧
        (s.sourceStalled 14 = true → t.mem = s.mem ∧
          ∃ x : RxFrame, x.bytes = frame.take (frame.length - 4) ∧ (t.port p).hostWait = (s.port p).hostWait ++ [(1, x)]) ∧
        (s.sourceStalled 14 = false → (s.port p).hostWait = [] → (t.port p).hostWait = [] ∧
          t.f (Reg.HRX_PROD_INDEX p) = (if s.ringFull p = true then s.f (Reg.HRX_PROD_INDEX p)
            else (s.f (Reg.HRX_PROD_INDEX p) + 1) % 2 ^ 32) ∧
          t.f (Reg.HRX_DROPS_COUNT p) = (if s.ringFull p = true then min (s.f (Reg.HRX_DROPS_COUNT p) + 1) 0xFFFFFFFF
            else s.f (Reg.HRX_DROPS_COUNT p)))) ∧
      OnlyPort p s t ∧ SlowBut [Reg.PWR_DELIVERED] s t) ∧
  (∀ (r : Req) (p : Fin 128) (d : Half) (s : State), s.Up → s.passes r (Reg.BTL_TEST p) .w32 true = true →
    ∃ t, Sys2Proof.Machine.exec (.btlTest r p d) s = .next t ∧ Answered r 0 s t ∧
      (let count := bits d.toNat 31 24
       let len := 64 * bits d.toNat 23 16
       let refused := count = 0 ∨ len = 0 ∨ 8192 < len ∨ (s.port p).test.isSome = true ∨ s.role p ≠ 1
       (refused → Raised (Reg.BTL_STATUS p) [Flag.BTL_STATUS_TEST_REFUSED] s t ∧ OnlyRegs [Reg.BTL_STATUS p] s t) ∧
       (¬ refused → t.reg (Reg.BTL_TEST_RESULT p) = 1 ∧ RegsBut (Reg.BTL_TEST_RESULT p :: queueRegs p 6) s t ∧
         (t.port p).test = some { tile := bits d.toNat 15 0, count := count, len := len,
                                  seqs := (List.range count).map (· + 1) })) ∧
      OnlyPort p s t ∧ SameMem s t) ∧
  (∀ (p : Fin 128) (frame : List Byte) (s : State), s.Up →
    ∃ t, Sys2Proof.Machine.exec (.testReplyReceived p frame) s = .next t ∧
      (s.classify p frame ≠ .test → Nothing s t) ∧
      (∀ x, s.classify p frame = .test → (s.port p).test = some x → leAt frame 22 4 ∈ x.seqs → leAt frame 16 2 = x.tile →
        t.f (Reg.BTL_TEST_RESULT_RETURNED p) = min (s.f (Reg.BTL_TEST_RESULT_RETURNED p) + 1) 255 ∧
        t.f (Reg.BTL_TEST_RESULT_MISMATCH p) =
          (if (frame.drop 30).take (leAt frame 18 2) = testPayload (leAt frame 22 4) x.len
           then s.f (Reg.BTL_TEST_RESULT_MISMATCH p) else min (s.f (Reg.BTL_TEST_RESULT_MISMATCH p) + 1) 255)) ∧
      OnlyPort p s t ∧ RegsBut (Reg.BTL_TEST_RESULT p :: billetRegs p) s t ∧ SameMem s t) ∧
  (∀ (p : Fin 128) (s : State), s.Up →
    ∃ t, Sys2Proof.Machine.exec (.testEnd p) s = .next t ∧ t.f (Reg.BTL_TEST_RESULT_BUSY p) = 0 ∧
      t.port p = { s.port p with test := none } ∧ OnlyPort p s t ∧
      bits (t.reg (Reg.BTL_TEST_RESULT p)).toNat 31 1 = bits (s.reg (Reg.BTL_TEST_RESULT p)).toNat 31 1 ∧
      RegsBut [Reg.BTL_TEST_RESULT p] s t ∧ t = { s with regs := t.regs, cycle := t.cycle, ports := t.ports }) ∧
  (∀ (p : Fin 128) (frame : List Byte) (s : State), s.Up →
    ∃ t, Sys2Proof.Machine.exec (.btlRxDiscard p frame) s = .next t ∧
      (let n (k : RxClass) (old : Nat) : Nat := if s.classify p frame = k then (old + 1) % 65536 else old
       t.f (Reg.BTL_RX_COUNTS_RX_OTHER p) = n .other (s.f (Reg.BTL_RX_COUNTS_RX_OTHER p)) ∧
       t.f (Reg.BTL_RX_COUNTS_RX_BAD p) = n .bad (s.f (Reg.BTL_RX_COUNTS_RX_BAD p)) ∧
       t.f (Reg.BTL_RX_COUNTS_RX_OWN p) = n .own (s.f (Reg.BTL_RX_COUNTS_RX_OWN p)) ∧
       Raised (Reg.BTL_STATUS p) (if s.classify p frame = .bad then [Flag.BTL_STATUS_RX_BAD] else []) s t) ∧
      OnlyPort p s t ∧ RegsBut (Reg.BTL_RX_COUNTS p :: Reg.BTL_STATUS p :: billetRegs p) s t ∧ SameMem s t)

/-! ### Ports -/

/-- R361, R365 to R368, R374, R376, R379, R386, R387: a port that sends nothing starts a due LATCH or HOLD, else the head of the
highest eligible queue of Q7 to Q5, else of the deficit group the one whose head is first to fit its DEF as quanta come in rounds;
it never idles while a queue is eligible. What an injected fault selects is dropped, held, or leaves with the fault; with the
link down the frame is dropped and counted in place of its start. Frames held by REORDER count each frame of their queue that
goes before them, and frames that the gate list never fits are dropped first. The last byte frees the frame's Billets. A refused
frame is judged again. -/
def Obligations.PortTransmission : Prop :=
  (∀ (p : Fin 128) (e : Ecc) (s : State), s.Up → (s.port p).tx.isSome = true →
    ∃ t, Sys2Proof.Machine.exec (.portTxStart p e) s = .next t ∧ Nothing s t) ∧
  (∀ (p : Fin 128) (e : Ecc) (x : Frame) (rest : List Frame) (s : State), s.Up → (s.port p).tx = none →
    s.linkUp p = true → (s.port p).due = x :: rest →
    ∃ t, Sys2Proof.Machine.exec (.portTxStart p e) s = .next t ∧ (t.port p).due = rest ∧
      (let s0 := s.judgeHeads p
       let act := s0.injectedInto p 7 x
       (act = some 0 → (t.port p).tx = none ∧ (t.port p).queues = (s0.port p).queues ∧
         t.f (Reg.QUEUE_DROPS_INJECTED p 7) = min (s0.f (Reg.QUEUE_DROPS_INJECTED p 7) + 1) 0xFFFF) ∧
       (act = some 4 → (t.port p).tx = none) ∧
       (act ≠ some 0 → act ≠ some 4 →
         (t.port p).queues = (s0.port p).queues.set 7 (passHeld ((s0.port p).queues.getD 7 [])) ∧
         Leaves p 7 x act e s t)) ∧
      OnlyPort p s t ∧ SameMem s t) ∧
  (∀ (p : Fin 128) (q k : Nat) (e : Ecc) (x : Frame) (s : State), s.Up → (s.port p).tx = none →
    s.linkUp p = true → (s.port p).due = [] → ((s.judgeHeads p).Chosen p q k) → (s.judgeHeads p).headOf p q = some x →
    ∃ t, Sys2Proof.Machine.exec (.portTxStart p e) s = .next t ∧
      (let s0 := s.judgeHeads p
       let l := (s0.port p).queues.getD q []
       let act := s0.injectedInto p q x
       (act = some 0 → (t.port p).tx = none ∧ QueueBecame p q (l.eraseIdx (nextIndex l)) s0 t ∧
         t.f (Reg.QUEUE_DROPS_INJECTED p q) = min (s0.f (Reg.QUEUE_DROPS_INJECTED p q) + 1) 0xFFFF) ∧
       (act = some 4 → (t.port p).tx = none ∧ (t.port p).queues = (s0.port p).queues.set q
         (l.set (nextIndex l) { x with reorder := some (max 1 (s.f (Reg.FI_CFG_HOLD p 0))), judged := true })) ∧
       (act ≠ some 0 → act ≠ some 4 →
         QueueBecame p q (passHeld (l.take (nextIndex l)) ++ l.drop (nextIndex l + 1)) s0 t ∧
         Leaves p q x act e s t ∧ DeficitPaid p q k x s0 t)) ∧
      OnlyPort p s t ∧ SameMem s t) ∧
  (∀ (p : Fin 128) (s : State), (∀ j : Fin 5, ∀ x, s.headOf p j = some x → s.txLength p x < 2 ^ 32) →
    (∃ j : Fin 8, s.eligible p j = true) → ∃ q k, s.Chosen p q k) ∧
  (∀ (p : Fin 128) (e : Ecc) (s : State), s.Up → (s.port p).tx = none → (s.port p).due = [] →
    (∀ j : Fin 8, (s.judgeHeads p).eligible p j = false) →
    ∃ t, Sys2Proof.Machine.exec (.portTxStart p e) s = .next t ∧
      (t.port p).tx = none ∧ (t.port p).queues = ((s.judgeHeads p).port p).queues ∧ OnlyPort p s t ∧ SameMem s t) ∧
  (∀ (p : Fin 128) (e : Ecc) (x : Frame) (rest : List Frame) (s : State), s.Up → (s.port p).tx = none →
    s.linkUp p = false → (s.port p).due = x :: rest →
    ∃ t, Sys2Proof.Machine.exec (.portTxStart p e) s = .next t ∧ (t.port p).due = rest ∧ (t.port p).tx = none ∧
      (t.port p).queues = ((s.judgeHeads p).port p).queues ∧
      t.f (Reg.QUEUE_DROPS_LINK_DOWN p 7) = min (s.f (Reg.QUEUE_DROPS_LINK_DOWN p 7) + 1) 0xFFFF ∧
      Raised (Reg.PORT_STATUS p) [Flag.PORT_STATUS_LINK_DOWN_DROP] (s.judgeHeads p) t ∧ OnlyPort p s t ∧ SameMem s t) ∧
  (∀ (p : Fin 128) (q k : Nat) (e : Ecc) (x : Frame) (s : State), s.Up → (s.port p).tx = none →
    s.linkUp p = false → (s.port p).due = [] → ((s.judgeHeads p).Chosen p q k) → (s.judgeHeads p).headOf p q = some x →
    ∃ t, Sys2Proof.Machine.exec (.portTxStart p e) s = .next t ∧ (t.port p).tx = none ∧
      (let s0 := s.judgeHeads p
       let l := (s0.port p).queues.getD q []
       QueueBecame p q (l.eraseIdx (nextIndex l)) s0 t ∧ DeficitPaid p q k x s0 t) ∧
      t.f (Reg.QUEUE_DROPS_LINK_DOWN p q) = min (s.f (Reg.QUEUE_DROPS_LINK_DOWN p q) + 1) 0xFFFF ∧
      Raised (Reg.PORT_STATUS p) [Flag.PORT_STATUS_LINK_DOWN_DROP]
        (((s.judgeHeads p).popFrame p q (nextIndex (((s.judgeHeads p).port p).queues.getD q [])))) t ∧
      OnlyPort p s t ∧ SameMem s t) ∧
  (∀ (p : Fin 128) (s : State), s.Up →
    ∃ t, Sys2Proof.Machine.exec (.portTxComplete p) s = .next t ∧
      ((s.port p).tx = none → Nothing s t) ∧
      (∀ x, (s.port p).tx = some x → t.port p = { s.port p with tx := none, lastSent := x.wire } ∧
        t.f (Reg.PORT_MAC_TX_TX_FRAMES p) = (s.f (Reg.PORT_MAC_TX_TX_FRAMES p) + 1) % 2 ^ 64 ∧
        t.f (Reg.CRU_PORT_HELD p) = s.f (Reg.CRU_PORT_HELD p) - billetsOf x.frame.length ∧
        RegsBut (Reg.PORT_MAC_TX p :: Reg.BTL_TEST_RESULT p :: billetRegs p) s t) ∧
      OnlyPort p s t ∧ t = { s with regs := t.regs, cycle := t.cycle, ports := t.ports }) ∧
  (∀ (p : Fin 128) (s : State), s.Up →
    ∃ t, Sys2Proof.Machine.exec (.crucibleRetry p) s = .next t ∧
      ((s.port p).retry = [] → s.htxLeft p = 0 → Nothing s t) ∧
      (∀ y ∈ (t.port p).retry, y ∈ (s.port p).retry) ∧
      (∀ q x, (s.port p).retry = [(q, x)] → waitsForBillets x.kind = true → s.htxLeft p = 0 →
        OnlyPort p s t ∧ RegsBut (queueRegs p q) s t ∧
        (if s.cruAdmits p (billetsOf x.length) (q == 7) = true then Pushed p q x s t ∧ (t.port p).retry = []
         else t.port p = s.port p ∧ t.f (Reg.CRU_PORT_REFUSED p) = min (s.f (Reg.CRU_PORT_REFUSED p) + 1) 0xFFFF ∧
           Raised Reg.CRUCIBLE_BLOCK_STATUS [Flag.CRUCIBLE_REFUSED] s t)) ∧
      t.mem = s.mem ∧ t.live = s.live ∧ t.rasters = s.rasters)

/-- R361, R362, R364, R376, R379, R386, R387, R390, R446: a received frame is counted and stands in the Crucible for its role's
step, with the time of its reception; one too long, too short, with a bad FCS, or refused Billets is dropped and counted, but that
a port of role INGEST still sorts and meters a refused one, without Billets, and asks for a frame's last Billet after the meter;
a refused REPLICA is lost. What the receive injector selects is dropped, held or altered, and a released frame is delivered. A link
is up as its PCS, negotiation, FEC and clock say, and FEC codewords count; a lost clock drops the links of its two quads; a write of
polarity or loopback drops the lane's link. The model's choices: codeword counts come with LINK_STATE_CHANGE, log entry 55; a
frame stands on the port until its role's step, log entry 74; the Billets of a frame are taken in one command, and those of one that
the MAC rejects stand to the end of the FCLK, log entry 104. -/
def Obligations.PortReceptionAndLinks : Prop :=
  (∀ (p : Fin 128) (frame : List Byte) (ok : Bool) (e : Ecc) (s : State), s.Up → s.role p = 0 →
    ∃ t, Sys2Proof.Machine.exec (.portRxFrame p frame ok e) s = .next t ∧ Nothing s t) ∧
  (∀ (p : Fin 128) (frame : List Byte) (ok : Bool) (e : Ecc) (s : State), s.Up → s.role p ≠ 0 →
    ∃ t, Sys2Proof.Machine.exec (.portRxFrame p frame ok e) s = .next t ∧
      (let inj := s.inject p 1 (s.rxType p frame) 0
       let act := inj.1
       let s0 := inj.2
       let good := 64 ≤ frame.length ∧ frame.length ≤ 9216 ∧ ok = true ∧ act ≠ some 3
       let ask := decide good && s.role p == 2
       let n := billetsOf (min frame.length 9216) - if ask then 1 else 0
       let got := (s0.takeOneByOne p n).1
       let x : RxFrame := { bytes := frame, billets := n, askLast := ask, tq := s.tq, fclk := s.fclk }
       (9216 < frame.length → t.f (Reg.PORT_MAC_RX_OVERSIZE p) = min (s.f (Reg.PORT_MAC_RX_OVERSIZE p) + 1) 0xFFFF) ∧
       (frame.length ≤ 9216 → ¬ good →
         t.f (Reg.PORT_MAC_RX_FCS_ERR p) = min (s.f (Reg.PORT_MAC_RX_FCS_ERR p) + 1) 0xFFFF) ∧
       t.f (Reg.PORT_MAC_RX_RX_FRAMES p) =
         (if good then (s.f (Reg.PORT_MAC_RX_RX_FRAMES p) + 1) % 2 ^ 32 else s.f (Reg.PORT_MAC_RX_RX_FRAMES p)) ∧
       (got < n → t.f (Reg.CRU_PORT_REFUSED p) = min (s.f (Reg.CRU_PORT_REFUSED p) + 1) 0xFFFF ∧
         t.flagSet Reg.CRUCIBLE_BLOCK_STATUS Flag.CRUCIBLE_REFUSED = true) ∧
       -- what stands on the port
       (¬ good → got = n → t.port p = { s0.port p with rxBad := (s0.port p).rxBad + n }) ∧
       (got < n → ¬ good ∨ s.role p ≠ 2 ∨ act = some 0 → t.port p = s0.port p) ∧
       (good → got < n → s.role p = 2 → act ≠ some 0 →
         t.port p = { s0.port p with rx := (s0.port p).rx ++ [{ x with billets := 0, refused := true, askLast := false }] }) ∧
       (good → got = n → e = .uncorrectable ∨ act = some 0 → t.port p = s0.port p) ∧
       (good → got = n → e = .uncorrectable → t.flagSet (Reg.PORT_STATUS p) Flag.PORT_STATUS_POISON = true) ∧
       (good → got = n → e ≠ .uncorrectable → act = some 4 → t.port p = { s0.port p with
         fiRx := { (s0.port p).fiRx with held := (s0.port p).fiRx.held ++ [(x, max 1 (s.f (Reg.FI_CFG_HOLD p 1)))] } }) ∧
       (good → got = n → e ≠ .uncorrectable → act ≠ some 0 → act ≠ some 4 →
         (let left := (s0.port p).fiRx.held.map fun y => (y.1, y.2 - 1)
          let btl := s.rxType p frame != 0
          let bytes := match act with
            | some 1 => flipAt frame (flipPos btl (leAt frame 18 2) (frame.length - 4))
            | some 2 => flipAt frame (30 + leAt frame 18 2)
            | _ => frame
          t.port p = { s0.port p with
            fiRx := { (s0.port p).fiRx with held := left.filter fun y => y.2 != 0 },
            rx := (s0.port p).rx ++ [{ x with bytes := bytes }] ++ (left.filter fun y => y.2 == 0).map Prod.fst })) ∧
       -- a refused REPLICA of the chain
       (∀ k, s.linkOf p = some k → s.role p = 3 → s.chain.joined.contains p.val = true → good → got < n →
         beAt frame 12 2 = s.f Reg.CHAIN_CFG_ETHERTYPE → beAt frame 14 1 = 9 →
         t.f (Reg.CHAIN_LINK_STATS_REPL_DROPS k) = min (s.f (Reg.CHAIN_LINK_STATS_REPL_DROPS k) + 1) 0xFFFF ∧
         t.flagSet Reg.CHAIN_BLOCK_STATUS Flag.CHAIN_REPL_DROP = true)) ∧
      OnlyPort p s t ∧ SameMem s t) ∧
  (∀ (p : Fin 128) (s : State), s.Up →
    ∃ t, Sys2Proof.Machine.exec (.fiReorderRelease p) s = .next t ∧
      ((s.port p).fiRx.held = [] → Nothing s t) ∧
      (∀ x rest, (s.port p).fiRx.held = x :: rest →
        t.port p = { s.port p with fiRx := { (s.port p).fiRx with held := rest },
                                   rx := (s.port p).rx ++ [x.1] }) ∧
      OnlyPort p s t ∧ t = { s with ports := t.ports }) ∧
  (∀ (p : Fin 128) (b : LinkBits) (s : State), s.Up →
    ∃ t, Sys2Proof.Machine.exec (.linkStateChange p b) s = .next t ∧
      (let up := s.linkGood p (s.fb (Reg.PQ_LANE_CFG_AN_EN (p.val / 4) (p.val % 4))) b
       let fec := s.f (Reg.PQ_MODE_MODE (p.val / 4)) = 4
       t.linkUp p = up ∧ t.fb (Reg.PORT_LINK_BLOCK_LOCK p) = b.blockLock ∧ t.fb (Reg.PORT_LINK_HI_BER p) = b.hiBer ∧
       t.fb (Reg.PORT_LINK_FEC_LOCK p) = b.fecLock ∧ t.fb (Reg.PORT_LINK_AN_DONE p) = b.anDone ∧
       t.fb (Reg.PORT_LINK_REMOTE_FAULT p) = b.remoteFault ∧
       t.f (Reg.PORT_PHY_COUNTS_LINK_DOWNS p) =
         (if s.linkUp p = true ∧ up = false then min (s.f (Reg.PORT_PHY_COUNTS_LINK_DOWNS p) + 1) 0xFFFF
          else s.f (Reg.PORT_PHY_COUNTS_LINK_DOWNS p)) ∧
       t.f (Reg.PORT_PHY_COUNTS_FEC_CORRECTED p) =
         (if fec then min (s.f (Reg.PORT_PHY_COUNTS_FEC_CORRECTED p) + b.corrected) 0xFFFFFFFF
          else s.f (Reg.PORT_PHY_COUNTS_FEC_CORRECTED p)) ∧
       t.f (Reg.PORT_PHY_COUNTS_FEC_UNCORRECTABLE p) =
         (if fec then min (s.f (Reg.PORT_PHY_COUNTS_FEC_UNCORRECTABLE p) + b.uncorrectable) 0xFFFF
          else s.f (Reg.PORT_PHY_COUNTS_FEC_UNCORRECTABLE p)) ∧
       (s.linkUp p ≠ up → t.flagSet (Reg.PORT_STATUS p) Flag.PORT_STATUS_LINK_CHANGE = true)) ∧
      (∀ k : Fin 128, k ≠ p → t.reg (Reg.PORT_LINK k) = s.reg (Reg.PORT_LINK k)) ∧ SameMem s t) ∧
  (∀ (i : Fin 16) (present : Bool) (s : State), s.Up →
    ∃ t, Sys2Proof.Machine.exec (.refclkChange i present) s = .next t ∧
      (∀ q : Fin 32, q.val / 2 = i.val → t.fb (Reg.PQ_REFCLK_PRESENT q) = present) ∧
      (present = false → ∀ q : Fin 32, q.val / 2 = i.val →
        Raised (Reg.PQ_BLOCK_STATUS q) [Flag.PQ_REFCLK_LOST] s t ∧ ∀ l : Fin 4, t.linkUp (4 * q.val + l.val) = false) ∧
      (present = true → ∀ p : Fin 128, t.linkUp p = s.linkUp p) ∧
      (∀ q : Fin 32, q.val / 2 ≠ i.val → t.reg (Reg.PQ_REFCLK q) = s.reg (Reg.PQ_REFCLK q)) ∧ SameMem s t) ∧
  (∀ (r : Req) (p : Fin 128) (d : Half) (s : State), s.Up → s.passes r (Reg.PQ_LANE_CFG (p.val / 4) (p.val % 4)) .w32 true = true →
    ∃ t, Sys2Proof.Machine.exec (.laneCfgWrite r p d) s = .next t ∧ Answered r 0 s t ∧
      (let old := (s.reg (Reg.PQ_LANE_CFG (p.val / 4) (p.val % 4))).toNat
       let new := (t.reg (Reg.PQ_LANE_CFG (p.val / 4) (p.val % 4))).toNat
       bits new 31 28 = bits d.toNat 31 28 ∧ bits new 21 16 = bits d.toNat 21 16 ∧ bits new 13 8 = bits d.toNat 13 8 ∧
       bits new 5 0 = bits d.toNat 5 0 ∧
       (bits old 31 30 ≠ bits new 31 30 ∨ bit old 28 ≠ bit new 28 → t.linkUp p = false) ∧
       (bits old 31 30 = bits new 31 30 → bit old 28 = bit new 28 →
         t.linkUp p = s.linkGood p (t.fb (Reg.PQ_LANE_CFG_AN_EN (p.val / 4) (p.val % 4)))
           { blockLock := s.fb (Reg.PORT_LINK_BLOCK_LOCK p), hiBer := s.fb (Reg.PORT_LINK_HI_BER p),
             fecLock := s.fb (Reg.PORT_LINK_FEC_LOCK p), anDone := s.fb (Reg.PORT_LINK_AN_DONE p),
             remoteFault := s.fb (Reg.PORT_LINK_REMOTE_FAULT p) })) ∧ SameMem s t)

/-- R367 to R375, R388: a shaper's write is refused where it leaves a shaped queue without rate or burst, and keeps debt
otherwise; a quantum of zero is refused. A gate cycle starts once its instant has come, with the pending bank in force; an
entry's end brings the next into force once its DURATION has passed; a switch is pending until the cycle start, immediate with EN 0, or refused; EN starts and stops the
list. -/
def Obligations.ShapersAndGates : Prop :=
  (∀ (r : Req) (p : Fin 128) (q : Fin 8) (burst : Bool) (d : Half) (s : State), s.Up →
    s.passes r (if burst then Reg.QUEUE_SHAPE_BURST p q else Reg.QUEUE_SHAPE_RATE p q) .w32 true = true →
    ∃ t, Sys2Proof.Machine.exec (.queueShapeWrite r p q burst d) s = .next t ∧ Answered r 0 s t ∧
      (let en := if burst then bit d.toNat 31 else s.fb (Reg.QUEUE_SHAPE_BURST_EN p q)
       let rate := if burst then s.f (Reg.QUEUE_SHAPE_RATE_RATE p q) else d.toNat
       let most := if burst then bits d.toNat 23 0 else s.f (Reg.QUEUE_SHAPE_BURST_BURST p q)
       let refused := en = true ∧ (rate = 0 ∨ most = 0)
       (refused → Raised (Reg.PORT_STATUS p) [Flag.PORT_STATUS_CFG_REFUSED] s t ∧ OnlyRegs [Reg.PORT_STATUS p] s t) ∧
       (¬ refused → t.fb (Reg.QUEUE_SHAPE_BURST_EN p q) = en ∧ t.f (Reg.QUEUE_SHAPE_RATE_RATE p q) = rate ∧
         t.f (Reg.QUEUE_SHAPE_BURST_BURST p q) = most ∧
         t.port p = { s.port p with credit := (s.port p).credit.set q (min ((s.port p).credit.getD q 0) 0) } ∧
         RegsBut [Reg.QUEUE_SHAPE_BURST p q, Reg.QUEUE_SHAPE_RATE p q] s t)) ∧ OnlyPort p s t ∧ SameMem s t) ∧
  (∀ (r : Req) (p : Fin 128) (q : Fin 8) (d : Half) (s : State), s.Up → s.passes r (Reg.QUEUE_QUANTUM p q) .w32 true = true →
    ∃ t, Sys2Proof.Machine.exec (.queueQuantumWrite r p q d) s = .next t ∧ Answered r 0 s t ∧
      (bits d.toNat 15 0 = 0 → Raised (Reg.PORT_STATUS p) [Flag.PORT_STATUS_CFG_REFUSED] s t ∧
        OnlyRegs [Reg.PORT_STATUS p] s t) ∧
      (bits d.toNat 15 0 ≠ 0 → t.f (Reg.QUEUE_QUANTUM_QUANTUM p q) = bits d.toNat 15 0 ∧
        OnlyRegs [Reg.QUEUE_QUANTUM p q] s t)) ∧
  (∀ (p : Fin 128) (s : State), s.Up →
    ∃ t, Sys2Proof.Machine.exec (.gateCycleStart p) s = .next t ∧
      (s.cycleDue p = none → Nothing s t) ∧
      (s.fb (Reg.GATE_CTRL_EN p) = false → s.cycleDue p = none) ∧
      (∀ a, s.cycleDue p = some a → (t.port p).started = true ∧ (t.port p).entry = 0 ∧ (t.port p).cycleFrom = a + 1 ∧
        (t.port p).entryAt = s.ranQ - (s.tq - a) ∧ t.f (Reg.GATE_STATE_ENTRY p) = 0 ∧ (t.port p).nextBank = none ∧
        ((s.port p).nextBank = none → (t.port p).bank = (s.port p).bank ∧
          t.f (Reg.GATE_STATE_SWITCHES p) = s.f (Reg.GATE_STATE_SWITCHES p)) ∧
        (∀ b, (s.port p).nextBank = some b → (t.port p).bank = b ∧ t.f (Reg.GATE_STATE_ACTIVE p) = b % 2 ∧
          t.f (Reg.GATE_STATE_PENDING p) = 0 ∧
          t.f (Reg.GATE_STATE_SWITCHES p) = (s.f (Reg.GATE_STATE_SWITCHES p) + 1) % 65536 ∧
          t.flagSet (Reg.PORT_STATUS p) Flag.PORT_STATUS_GATE_SWITCHED = true)) ∧ OnlyPort p s t ∧ SameMem s t) ∧
  (∀ (p : Fin 128) (s : State), s.Up →
    ∃ t, Sys2Proof.Machine.exec (.gateEntryEnd p) s = .next t ∧
      (let ends := (s.port p).entryAt + 65536 * s.f (Reg.GATE_ENTRY_DURATION p (s.port p).bank (s.port p).entry)
       let goes := s.gated p = true ∧ (s.port p).entry + 1 < s.f (Reg.GATE_LEN_LEN p (s.port p).bank) ∧ ends ≤ s.ranQ
       (¬ goes → Nothing s t) ∧
       (goes → t.port p = { s.port p with entry := (s.port p).entry + 1, entryAt := ends } ∧
         t.f (Reg.GATE_STATE_ENTRY p) = ((s.port p).entry + 1) % 64)) ∧ OnlyPort p s t ∧
      RegsBut [Reg.GATE_STATE p] s t ∧ t = { s with regs := t.regs, cycle := t.cycle, ports := t.ports }) ∧
  (∀ (r : Req) (p : Fin 128) (d : Half) (s : State), s.Up → s.passes r (Reg.GATE_SWITCH p) .w32 true = true →
    ∃ t, Sys2Proof.Machine.exec (.gateSwitch r p d) s = .next t ∧ Answered r 0 s t ∧
      (let b := bits d.toNat 0 0
       let refused := b = (s.port p).bank ∨ (s.port p).nextBank.isSome = true ∨ s.bankBad p b = true
       (s.fb (Reg.GATE_CTRL_EN p) = true → refused →
         Raised (Reg.PORT_STATUS p) [Flag.PORT_STATUS_GATE_REFUSED] s t ∧ OnlyRegs [Reg.PORT_STATUS p] s t) ∧
       (s.fb (Reg.GATE_CTRL_EN p) = true → ¬ refused → t.port p = { s.port p with nextBank := some b } ∧
         t.f (Reg.GATE_STATE_PENDING p) = 1 ∧ RegsBut [Reg.GATE_STATE p] s t) ∧
       (s.fb (Reg.GATE_CTRL_EN p) = false → (t.port p).bank = b ∧ (t.port p).nextBank = none ∧
         t.f (Reg.GATE_STATE_ACTIVE p) = b ∧ t.f (Reg.GATE_STATE_PENDING p) = 0 ∧
         t.f (Reg.GATE_STATE_SWITCHES p) = (s.f (Reg.GATE_STATE_SWITCHES p) + 1) % 65536 ∧
         RegsBut [Reg.GATE_STATE p] s t)) ∧ OnlyPort p s t ∧ SameMem s t) ∧
  (∀ (r : Req) (p : Fin 128) (d : Half) (s : State), s.Up → s.passes r (Reg.GATE_CTRL p) .w32 true = true →
    ∃ t, Sys2Proof.Machine.exec (.gateCtrlWrite r p d) s = .next t ∧ Answered r 0 s t ∧
      (let was := s.fb (Reg.GATE_CTRL_EN p)
       let en := bit d.toNat 31
       t.f (Reg.GATE_CTRL_ALIGN p) = bits d.toNat 1 0 ∧
       (was = true → en = true → t.fb (Reg.GATE_CTRL_EN p) = true ∧ t.port p = s.port p) ∧
       (was = true → en = false → t.fb (Reg.GATE_CTRL_EN p) = false ∧ (t.port p).started = false ∧
         (t.port p).nextBank = none ∧ (t.port p).bank = (s.port p).nextBank.getD (s.port p).bank ∧
         t.f (Reg.GATE_STATE_ENTRY p) = 0) ∧
       (was = false → en = true → s.bankBad p (s.port p).bank = true → t.fb (Reg.GATE_CTRL_EN p) = false ∧
         Raised (Reg.PORT_STATUS p) [Flag.PORT_STATUS_GATE_REFUSED] s t) ∧
       (was = false → en = true → s.bankBad p (s.port p).bank = false → t.fb (Reg.GATE_CTRL_EN p) = true ∧
         (t.port p).started = false ∧ (t.port p).cycleFrom = s.tq + 1 ∧ (t.port p).align = bits d.toNat 1 0) ∧
       (was = false → en = false → t.fb (Reg.GATE_CTRL_EN p) = false ∧ (t.port p).align = bits d.toNat 1 0)) ∧
      OnlyPort p s t ∧ SameMem s t)

/-- R383 to R386, R398 to R400, R502: a ring's CFG is refused with SLOTS outside 2 to 1,024 and else clears both indices; a write
of HTX_PROD queues the new slot, which waits where the Crucible refuses it or no port takes it, or, where it is bad or the
ring is not in use, counts and skips it (log entry 105), and so a frame too long for a HOST frame of the chain (log entry 65); a
sample shows each queue's depth and head delay and keeps their largest values, until a restart, and with TRACE_EN writes eight
entries to the trace ring, or keeps those that find a queue full, and flags the ring's first wrap since TRACE_EN was set (log
entry 131); an injector starts its pattern afresh, or is refused with N 0; a restart
of the Crucible's extremes takes the present values. -/
def Obligations.RingsSamplesInjectors : Prop :=
  (∀ (r : Req) (p : Fin 128) (tx : Bool) (d : Half) (s : State), s.Up →
    s.passes r (if tx then Reg.HTX_CFG p else Reg.HRX_CFG p) .w32 true = true →
    ∃ t, Sys2Proof.Machine.exec (.ringCfgWrite r p tx d) s = .next t ∧ Answered r 0 s t ∧
      (let n := bits d.toNat 10 0
       (n < 2 ∨ 1024 < n → Raised (Reg.PORT_STATUS p) [Flag.PORT_STATUS_CFG_REFUSED] s t ∧
         OnlyRegs [Reg.PORT_STATUS p] s t) ∧
       (2 ≤ n → n ≤ 1024 → tx = false → t.f (Reg.HRX_CFG_SLOTS p) = n ∧ t.fb (Reg.HRX_CFG_EN p) = bit d.toNat 31 ∧
         t.reg (Reg.HRX_PROD p) = 0 ∧ t.reg (Reg.HRX_CONS p) = 0 ∧
         OnlyRegs [Reg.HRX_CFG p, Reg.HRX_PROD p, Reg.HRX_CONS p] s t) ∧
       (2 ≤ n → n ≤ 1024 → tx = true → t.f (Reg.HTX_CFG_SLOTS p) = n ∧ t.fb (Reg.HTX_CFG_EN p) = bit d.toNat 31 ∧
         t.reg (Reg.HTX_PROD p) = 0 ∧ t.reg (Reg.HTX_CONS p) = 0 ∧
         OnlyRegs [Reg.HTX_CFG p, Reg.HTX_PROD p, Reg.HTX_CONS p] s t))) ∧
  (∀ (r : Req) (p : Fin 128) (d : Half) (s : State), s.Up → s.passes r (Reg.HTX_PROD p) .w32 true = true →
    ∃ t, Sys2Proof.Machine.exec (.htxProd r p d) s = .next t ∧ Answered r 0 s t ∧ t.f (Reg.HTX_PROD_INDEX p) = d.toNat ∧
      (s.htxLeft p ≠ 0 ∨ s.sourceStalled 14 = true → OnlyRegs [Reg.HTX_PROD p] s t) ∧
      (s.htxLeft p = 0 → s.sourceStalled 14 = false → (s.f (Reg.HTX_CONS_INDEX p) + 1) % 2 ^ 32 = d.toNat →
        (let a := 256 * s.f (Reg.HTX_BASE_BASE p) + 9472 * (s.f (Reg.HTX_CONS_INDEX p) % max 1 (s.f (Reg.HTX_CFG_SLOTS p)))
         let len := if s.capacity < a + 9472 then 0 else s.rd a 2
         let slot := s.bytes (a + 16) len
         let body := if s.role p = 3 then s.chainBody 8 s.myIndex 0xFF slot else slot
         let bad := s.fb (Reg.HTX_CFG_EN p) = false ∨ len < 14 ∨ 9212 < len ∨ 9212 < body.length ∨ s.hostIsBtl p slot = true
         (bad → t.f (Reg.HTX_BAD_COUNT p) = min (s.f (Reg.HTX_BAD_COUNT p) + 1) 0xFFFFFFFF ∧
           Raised (Reg.PORT_STATUS p) [Flag.PORT_STATUS_HTX_BAD] s t ∧
           t.f (Reg.HTX_CONS_INDEX p) = (s.f (Reg.HTX_CONS_INDEX p) + 1) % 2 ^ 32 ∧ t.ports = s.ports) ∧
         (¬ bad → s.htxPort p = none → OnlyRegs [Reg.HTX_PROD p] s t) ∧
         (¬ bad → ∀ k, s.htxPort p = some k →
           Queued k 5 { kind := .host, body := body } s t ∧ OnlyPort k s t ∧
           t.f (Reg.HTX_CONS_INDEX p) =
             if s.cruAdmits k (billetsOf (Frame.length { kind := .host, body := body })) false = true then
               (s.f (Reg.HTX_CONS_INDEX p) + 1) % 2 ^ 32
             else s.f (Reg.HTX_CONS_INDEX p)))) ∧ t.mem = s.mem) ∧
  (∀ (p : Fin 128) (s : State), s.Up →
    ∃ t, Sys2Proof.Machine.exec (.queueSample p) s = .next t ∧
      (∀ q : Fin 8, t.f (Reg.QUEUE_SAMPLE_DEPTH p q) = (s.queueDepth p q).1 ∧
        t.f (Reg.QUEUE_SAMPLE_HEAD_DELAY p q) = (s.queueDepth p q).2 ∧
        t.f (Reg.QUEUE_SAMPLE_MAX_DEPTH p q) = max (s.f (Reg.QUEUE_SAMPLE_MAX_DEPTH p q)) (s.queueDepth p q).1 ∧
        t.f (Reg.QUEUE_SAMPLE_MAX_HEAD_DELAY p q) = max (s.f (Reg.QUEUE_SAMPLE_MAX_HEAD_DELAY p q)) (s.queueDepth p q).2) ∧
      t.f (Reg.PORT_TRACE_WPTR_WPTR p) =
        (s.f (Reg.PORT_TRACE_WPTR_WPTR p) + (if s.fb (Reg.PORT_SAMPLE_CFG_TRACE_EN p) then 8 else 0)) % 2 ^ 32 ∧
      (s.fb (Reg.PORT_SAMPLE_CFG_TRACE_EN p) = false → SameMem s t ∧ t.chans = s.chans ∧ t.port p = s.port p) ∧
      (s.fb (Reg.PORT_SAMPLE_CFG_TRACE_EN p) = true →
        (let size := 2 ^ s.f (Reg.PORT_TRACE_CFG_LOG2 p)
         let w := s.f (Reg.PORT_TRACE_WPTR_WPTR p)
         let entry (q : Nat) : Nat × List Byte :=
           (256 * s.f (Reg.PORT_TRACE_BASE_BASE p) + 16 * ((w + q) % 2 ^ 32 % size),
            leBytes 8 (s.tq / 65536) ++ leBytes 4 (q * 2 ^ 29 + min (s.queueDepth p q).1 (2 ^ 29 - 1)) ++
              leBytes 4 (s.queueDepth p q).2)
         let all := (s.port p).traceWait ++ (List.range 8).map entry
         let wraps := (s.port p).traceWrapped = false ∧ ∃ q, q < 8 ∧ 0 < w + q ∧ (w + q) % size = 0
         (∃ n, (t.port p).traceWait = all.drop n ∧ ∀ x, all[n]? = some x → t.queueRoom .core x.1 16 = false) ∧
         (∀ a, (∀ x ∈ all, ¬ (x.1 ≤ a ∧ a < x.1 + 16)) → Mem.read t.mem a = Mem.read s.mem a) ∧
         ((t.port p).traceWait = [] → 8 ≤ size → ∀ q, q < 8 → t.bytes (entry q).1 16 = (entry q).2) ∧
         (wraps → Raised (Reg.PORT_STATUS p) [Flag.PORT_STATUS_TRACE_WRAP] s t ∧ (t.port p).traceWrapped = true) ∧
         (¬ wraps → t.reg (Reg.PORT_STATUS p) = s.reg (Reg.PORT_STATUS p) ∧
           (t.port p).traceWrapped = (s.port p).traceWrapped))) ∧
      OnlyPort p s t ∧
      t = { s with regs := t.regs, cycle := t.cycle, mem := t.mem, poison := t.poison, chans := t.chans, ports := t.ports }) ∧
  (∀ (r : Req) (p : Fin 128) (d : Half) (s : State), s.Up → s.passes r (Reg.PORT_SAMPLE_RESTART p) .w32 true = true →
    ∃ t, Sys2Proof.Machine.exec (.portSampleRestart r p d) s = .next t ∧ Answered r 0 s t ∧
      (∀ q : Fin 8, t.reg (Reg.QUEUE_SAMPLE_MAX p q) = 0) ∧
      OnlyRegs ((List.range 8).map (Reg.QUEUE_SAMPLE_MAX p)) s t) ∧
  (∀ (r : Req) (p : Fin 128) (i : Fin 2) (d : Half) (s : State), s.Up → s.passes r (Reg.FI_CFG p i) .w32 true = true →
    ∃ t, Sys2Proof.Machine.exec (.fiEnable r p i d) s = .next t ∧ Answered r 0 s t ∧
      (let refused := bit d.toNat 31 = true ∧ s.f (Reg.FI_N_N p i) = 0
       let fresh (j : Injector) : Injector := { j with count := 0, lfsr := max 1 (s.f (Reg.FI_SEED_SEED p i)) }
       (refused → Raised (Reg.PORT_STATUS p) [Flag.PORT_STATUS_CFG_REFUSED] s t ∧ OnlyRegs [Reg.PORT_STATUS p] s t) ∧
       (¬ refused → bits (t.reg (Reg.FI_CFG p i)).toNat 31 24 = bits d.toNat 31 24 ∧ RegsBut [Reg.FI_CFG p i] s t) ∧
       (bit d.toNat 31 = false → t.port p = s.port p) ∧
       (bit d.toNat 31 = true → ¬ refused → t.port p =
         if i = 0 then { s.port p with fiTx := fresh (s.port p).fiTx } else { s.port p with fiRx := fresh (s.port p).fiRx })) ∧
      OnlyPort p s t ∧ SameMem s t) ∧
  (∀ (r : Req) (d : Half) (s : State), s.Up → s.passes r Reg.CRU_RESTART .w32 true = true →
    ∃ t, Sys2Proof.Machine.exec (.cruRestart r d) s = .next t ∧ Answered r 0 s t ∧
      t.f Reg.CRU_FREE_MIN_FREE = s.f Reg.CRU_FREE_FREE ∧
      (∀ p : Fin 128, t.f (Reg.CRU_PORT_PEAK p) = s.f (Reg.CRU_PORT_HELD p) ∧
        t.f (Reg.CRU_PORT_HELD p) = s.f (Reg.CRU_PORT_HELD p)) ∧
      OnlyRegs (Reg.CRU_FREE :: (List.range 128).map Reg.CRU_PORT) s t)

/-! ### Ingest -/

/-- R382, R408, R409: a write of POL_CBS applies the policer's four values with full buckets where it starts policing, or is
refused. A write of ING_FLOW_CTRL to an enabled flow is refused with EN 1 and disables the flow and its members with EN 0;
to a disabled flow it is plain with EN 0, and with EN 1 starts the flow or is refused with the first code of R408. That an
enabled flow's ring starts FREE is the model's choice, log entry 18. -/
def Obligations.FlowControl : Prop :=
  (∀ (r : Req) (f : Fin 512) (d : Half) (s : State), s.Up → s.passes r (Reg.POL_CBS f) .w32 true = true →
    ∃ t, Sys2Proof.Machine.exec (.policerApply r f d) s = .next t ∧ Answered r 0 s t ∧
      (let en := bit d.toNat 31
       let cbs := bits d.toNat 23 0
       let cir := s.f (Reg.POL_CIR_CIR f)
       let pir := s.f (Reg.POL_PIR_PIR f)
       let pbs := s.f (Reg.POL_PBS_PBS f)
       let refused := en = true ∧ (pir = 0 ∨ pir < cir ∨ cbs = 0 ∨ pbs = 0)
       let x := s.flow f
       let y := t.flow f
       (refused → Raised Reg.INGEST_BLOCK_STATUS [Flag.INGEST_POLICER_REFUSED] s t ∧
         OnlyRegs [Reg.INGEST_BLOCK_STATUS] s t) ∧
       (¬ refused → t.fb (Reg.POL_CBS_EN f) = en ∧ t.f (Reg.POL_CBS_CBS f) = cbs ∧ RegsBut [Reg.POL_CBS f] s t ∧
         y = { x with cir := cir, pir := pir, pbs := pbs, cbs := cbs, polEn := en, tc := y.tc, tp := y.tp } ∧
         (en = true → x.polEn = false → y.tc = cbs * tokenUnit ∧ y.tp = pbs * tokenUnit) ∧
         (¬ (en = true ∧ x.polEn = false) → y.tc = min x.tc (cbs * tokenUnit) ∧ y.tp = min x.tp (pbs * tokenUnit)))) ∧
      (∀ g, g ≠ f.val → t.flow g = s.flow g) ∧ SameMem s t) ∧
  (∀ (r : Req) (f : Fin 512) (d : Half) (s : State), s.Up → s.passes r (Reg.ING_FLOW_CTRL f) .w32 true = true →
    ∃ t, Sys2Proof.Machine.exec (.flowEnable r f d) s = .next t ∧
      Sys2Proof.Machine.exec (.flowDisable r f d) s = .next t ∧ Answered r 0 s t ∧
      (s.flowOn f = true → bit d.toNat 31 = true →
        Raised Reg.INGEST_BLOCK_STATUS [Flag.INGEST_CFG_REFUSED] s t ∧ OnlyRegs [Reg.INGEST_BLOCK_STATUS] s t) ∧
      (s.flowOn f = true → bit d.toNat 31 = false → t.flowOn f = false ∧ (t.flow f).waiting = [] ∧ (t.flow f).top = none ∧
        (∀ g : Fin 512, g ≠ f → s.flowOn g = true → s.flowRole g ≠ 0 → s.partner g = f → t.flowOn g = false)) ∧
      (s.flowOn f = false → bit d.toNat 31 = false → t.flowOn f = false ∧ OnlyRegs [Reg.ING_FLOW_CTRL f] s t) ∧
      (s.flowOn f = false → bit d.toNat 31 = true →
        (let s1 := s.setReg (Reg.ING_FLOW_CTRL f) (BitVec.ofNat 64 (putBits (t.reg (Reg.ING_FLOW_CTRL f)).toNat 31 31 0))
         (s1.flowCode f ≠ 0 → t.flowOn f = false ∧ t.f (Reg.ING_FLOW_REJECT_CODE f) = s1.flowCode f ∧
           Raised Reg.INGEST_BLOCK_STATUS [Flag.INGEST_FLOW_REFUSED] s t ∧
           OnlyRegs [Reg.ING_FLOW_CTRL f, Reg.ING_FLOW_REJECT f, Reg.INGEST_BLOCK_STATUS] s t) ∧
         (s1.flowCode f = 0 → t.flowOn f = true ∧ (t.flow f).onAt = some s.fclk ∧ (t.flow f).frame = none ∧ (t.flow f).surfs = [] ∧
           (t.flow f).waiting = [] ∧ (t.flow f).top = none ∧
           t.f Reg.ING_FLOWS_ON_COUNT = (s.f Reg.ING_FLOWS_ON_COUNT + 1) % 1024 ∧
           RegsBut [Reg.ING_FLOW_CTRL f, Reg.ING_FLOWS_ON] s t ∧ SameMem s t))) ∧
      (s.flowOn f = false → bits (t.reg (Reg.ING_FLOW_CTRL f)).toNat 30 25 = bits d.toNat 30 25 ∧
        bits (t.reg (Reg.ING_FLOW_CTRL f)).toNat 23 16 = bits d.toNat 23 16 ∧
        bits (t.reg (Reg.ING_FLOW_CTRL f)).toNat 8 0 = bits d.toNat 8 0))

/-- R110, R111, R380, R404 to R406, R414, R415: a frame on an INGEST port is discarded where it is not the port's, tunnelled
to the host where it is no UDP over IPv4 or matches no flow, discarded with a bad header, goes to Keeper firmware with its
timestamp where it is PTP of the domain on a port of TB_PTP_PORT, and else reaches its flow, as the flows stood before the FCLK of its
reception (R409): one beyond the peak rate is dropped as RED; the first packet of an enabled, unpoliced flow is accepted and opens
the sequence window; a replica likewise. A frame that the Crucible refuses, its last Billet being asked for after the meter, is
sorted and metered in the same way and then discarded. A frame that does not stand on the port does nothing: the model's choice, log
entry 74. -/
def Obligations.IngestFrames : Prop :=
  (∀ (p : Fin 128) (frame : List Byte) (s : State), s.Up →
    s.role p ≠ 2 ∨ s.rxFind p frame = none →
    ∃ t, Sys2Proof.Machine.exec (.ingestFrame p frame) s = .next t ∧ Nothing s t) ∧
  (∀ (p : Fin 128) (frame : List Byte) (x : RxFrame) (s : State), s.Up → s.role p = 2 → s.rxFind p frame = some x →
    ∃ t, Sys2Proof.Machine.exec (.ingestFrame p frame) s = .next t ∧
      (let body := frame.take (frame.length - 4)
       let foreign := bit (beAt body 0 1) 0 = false ∧ leAt body 0 6 ≠ s.f (Reg.ING_PORT_MAC_MAC p) ∧
         s.fb (Reg.ING_PORT_MAC_ACCEPT_ALL p) = false
       let o := if beAt body 12 2 = 0x8100 then 18 else 14
       let ip := body.drop o
       let ihl := 4 * (beAt ip 0 1 % 16)
       let other := beAt body (o - 2) 2 ≠ 0x0800 ∨ beAt ip 9 1 ≠ 17 ∨ beAt ip 6 2 % 2 ^ 14 ≠ 0
       let badIp := beAt ip 0 1 / 16 ≠ 4 ∨ ihl < 20 ∨ ip.length < ihl ∨ ipSum (ip.take ihl) ≠ 0xFFFF
       let udp := (ip.take (beAt ip 2 2)).drop ihl
       let dst := beAt udp 2 2
       let msg := (udp.take (beAt udp 4 2)).drop 8
       let ptp := (dst = 319 ∨ dst = 320) ∧ (s.ptpEntry p).isSome = true ∧ beAt msg 4 1 = s.f Reg.TB_PTP_CFG_DOMAIN
       let kept := x.refused = false ∧ (x.askLast = false ∨ s.cruAdmits p 1 false = true)
       let got := s.flowMatch p x.fclk (beAt ip 16 4) dst (beAt msg 8 4)
       let pkt := rtpOf msg
       (foreign → t.f Reg.ING_RX_STATS_NOT_OURS = min (s.f Reg.ING_RX_STATS_NOT_OURS + 1) 0xFFFF ∧
         RegsBut (Reg.ING_RX_STATS :: billetRegs p) s t ∧ SameMem s t) ∧
       (¬ foreign → other → t.f Reg.ING_RX_STATS_TUNNELED =
         if kept then (s.f Reg.ING_RX_STATS_TUNNELED + 1) % 2 ^ 32 else s.f Reg.ING_RX_STATS_TUNNELED) ∧
       (¬ foreign → ¬ other → badIp → t.f Reg.ING_RX_STATS_IP_ERR = min (s.f Reg.ING_RX_STATS_IP_ERR + 1) 0xFFFF ∧
         RegsBut (Reg.ING_RX_STATS :: billetRegs p) s t ∧ SameMem s t) ∧
       (∀ a, ¬ foreign → ¬ other → ¬ badIp → ptp → s.ptpEntry p = some a → ptpTaken msg = true → kept →
         t.time.ptpIn = { entry := a, tq := (x.tq : Int) - (65536 * s.f (Reg.TB_PTP_PORT_RX_LAT a) : Nat), msg := msg } ::
           s.time.ptpIn) ∧
       (¬ foreign → ¬ other → ¬ badIp → ¬ ptp → got = none → t.f Reg.ING_RX_STATS_TUNNELED =
         if kept then (s.f Reg.ING_RX_STATS_TUNNELED + 1) % 2 ^ 32 else s.f Reg.ING_RX_STATS_TUNNELED) ∧
       (∀ f, ¬ foreign → ¬ other → ¬ badIp → ¬ ptp → got = some f →
         (let badRtp := pkt.version ≠ 2 ∨ (s.fb (Reg.ING_FLOW_PORT_PT_ANY f) = false ∧ pkt.pt ≠ s.f (Reg.ING_FLOW_PORT_PT f)) ∨
            pkt.payload.length < 6
          (badRtp → t.f (Reg.ING_FLOW_PKT_ERR_BAD_RTP f) = min (s.f (Reg.ING_FLOW_PKT_ERR_BAD_RTP f) + 1) 0xFFFF ∧
            Raised Reg.INGEST_BLOCK_STATUS [Flag.INGEST_BAD_PACKET] s t ∧ t.flows = s.flows) ∧
          (¬ badRtp → (s.flow f).polEn = true → (s.flow f).tp < frame.length * tokenUnit →
            t.f (Reg.POL_DROP_DROP_RED f) = (s.f (Reg.POL_DROP_DROP_RED f) + 1) % 2 ^ 32 ∧ t.flows = s.flows) ∧
          (¬ badRtp → (s.flow f).polEn = false → ¬ kept → t.flows = s.flows) ∧
          (¬ badRtp → (s.flow f).polEn = false → kept → (s.flow (s.ownerOf f)).top = none →
            t.f (Reg.POL_PASS_GREEN f) = (s.f (Reg.POL_PASS_GREEN f) + 1) % 2 ^ 32 ∧
            t.f (Reg.ING_FLOW_PKTS_ACCEPTED (s.ownerOf f)) = (s.f (Reg.ING_FLOW_PKTS_ACCEPTED (s.ownerOf f)) + 1) % 2 ^ 32 ∧
            (t.flow (s.ownerOf f)).top = some pkt.seq ∧ (t.flow (s.ownerOf f)).got = [pkt.seq])))) ∧
      (t.port p).rx.length + 1 = (s.port p).rx.length) ∧
  (∀ (p : Fin 128) (f : Fin 512) (rtp : List Byte) (s : State), s.Up →
    ∃ t, Sys2Proof.Machine.exec (.replicaReceived p f rtp) s = .next t ∧
      (p.val ∉ s.chain.joined ∨ s.flowOn f = false ∨ s.fb (Reg.ING_FLOW_CTRL_SRC_CHAIN f) = false → t.flows = s.flows) ∧
      (∀ x rest, (s.port p).rx = x :: rest → s.flowOnFor f x.fclk = false → t.flows = s.flows) ∧
      (∀ x rest, p.val ∈ s.chain.joined → (s.port p).rx = x :: rest → s.flowOnFor f x.fclk = true →
        s.fb (Reg.ING_FLOW_CTRL_SRC_CHAIN f) = true →
        6 ≤ (rtpOf rtp).payload.length → (s.flow (s.ownerOf f)).top = none →
        t.f (Reg.ING_FLOW_PKTS_ACCEPTED (s.ownerOf f)) = (s.f (Reg.ING_FLOW_PKTS_ACCEPTED (s.ownerOf f)) + 1) % 2 ^ 32 ∧
        (t.flow (s.ownerOf f)).top = some (rtpOf rtp).seq) ∧
      t.live = s.live ∧ t.rasters = s.rasters)

/-- R410 to R418, R420, R502: the writer, unless a full DDR4 queue stalls it, takes a flow's oldest packet and writes the pixels
of a good row segment into the frame's surface; a frame whose markers are written ends, complete and presented where it is whole
and in time; an abandoned frame counts as incomplete, and its packets are dropped (log entry 63); a silent path is down. -/
def Obligations.FrameFilling : Prop :=
  (∀ (f : Fin 512) (s : State), s.Up →
    ∃ t, Sys2Proof.Machine.exec (.ingestPacketWritten f) s = .next t ∧
      ((s.flow f).waiting = [] ∨ s.sourceStalled 14 = true → Nothing s t) ∧
      (∀ x rest, (s.flow f).waiting = x :: rest → s.sourceStalled 14 = false → (t.flow f).waiting = rest ∧
        (let v := s.videoOf f
         let idle := ∀ fr, (s.flow v).frame = some fr → fr.ts ≠ x.ts
         (idle → SameMem s t ∧ RegsBut (billetRegs x.port) s t) ∧
         (∀ fr y, (s.flow v).frame = some fr → fr.ts = x.ts → srdsOf x.srd = [y] → y.field = true →
           t.f (Reg.ING_FLOW_PKT_ERR_BAD_SRD f) = min (s.f (Reg.ING_FLOW_PKT_ERR_BAD_SRD f) + 1) 0xFFFF ∧ SameMem s t) ∧
         (∀ fr y, (s.flow v).frame = some fr → fr.ts = x.ts → srdsOf x.srd = [y] → y.field = false → s.srdBad f y = false →
           s.keyOf v = none → s.flowRole f ≠ 2 →
           (let surf := s.ringSurf v fr.surf
            let ws := s.srdWords f v y
            let pad := if surf.fmt = 8 then 1023 * 2 ^ 20 else 0
            t.mem = (s.ingestStore (surf.at' y.offset y.row) (ws.flatMap fun w => leBytes (bppOf surf.fmt) (w + pad))).mem ∧
            (t.flow v).frame = some { fr with pixels := fr.pixels + ws.length, mark := fr.mark || x.marker })))) ∧
      t.live = s.live ∧ t.rasters = s.rasters) ∧
  (∀ (v : Fin 512) (s : State), s.Up →
    ∃ t, Sys2Proof.Machine.exec (.ingestFrameComplete v) s = .next t ∧
      (let ends (x : VideoFrame) : Prop := x.mark = true ∧ (s.keyOf v = none ∨ x.keyMark = true)
       ((∀ x, (s.flow v).frame = some x → ¬ ends x) → Nothing s t) ∧
       (∀ x, (s.flow v).frame = some x → ends x → (t.flow v).frame = none ∧
         (x.rows = [] → s.frameShort v x = false → s.deadlineMet v x.p = false →
           t.f (Reg.ING_FLOW_FRAMES_COMPLETED v) = (s.f (Reg.ING_FLOW_FRAMES_COMPLETED v) + 1) % 2 ^ 32 ∧
           t.f (Reg.ING_FLOW_STATE_LAST_TS v) = x.ts % 2 ^ 32 ∧ t.f (Reg.ING_FLOW_LAST_P_P v) = x.p % 2 ^ 48 ∧
           Tab.find (t.flow v).surfs x.surf = some { mode := 2, p := x.p, order := (s.flow v).order + 1, doneAt := s.fclk } ∧
           RegsBut [Reg.ING_FLOW_FRAMES v, Reg.ING_FLOW_STATE v, Reg.ING_FLOW_LAST_P v] s t ∧ SameMem s t))) ∧
      t.live = s.live ∧ t.rasters = s.rasters ∧ t.ports = s.ports) ∧
  (∀ (v : Fin 512) (s : State), s.Up →
    ∃ t, Sys2Proof.Machine.exec (.frameAbandonTimeout v) s = .next t ∧
      ((s.flow v).frame = none → Nothing s t) ∧
      (∀ x, (s.flow v).frame = some x → (t.flow v).frame = none ∧
        t.f (Reg.ING_FLOW_LOSS_INCOMPLETE v) = min (s.f (Reg.ING_FLOW_LOSS_INCOMPLETE v) + 1) 0xFFFF ∧
        t.flagSet Reg.INGEST_BLOCK_STATUS Flag.INGEST_INCOMPLETE = true ∧
        (s.fb (Reg.ING_FLOW_CTRL_INCOMPLETE_POLICY v) = true →
          t.f (Reg.ING_FLOW_FRAMES_COMPLETED v) = s.f (Reg.ING_FLOW_FRAMES_COMPLETED v))) ∧
      t.live = s.live ∧ t.rasters = s.rasters ∧ t.ports = s.ports) ∧
  (∀ (f : Fin 512) (s : State), s.Up →
    ∃ t, Sys2Proof.Machine.exec (.pathDown f) s = .next t ∧
      (s.flowOn f = false → Nothing s t) ∧
      (s.flowOn f = true → t.f (Reg.ING_FLOW_PATH_DOWN f) = 1 ∧
        Raised Reg.INGEST_BLOCK_STATUS [Flag.INGEST_PATH_DOWN] s t ∧
        t.f (Reg.ING_FLOW_PATH_FIRST f) = s.f (Reg.ING_FLOW_PATH_FIRST f) ∧
        OnlyEvent [Reg.ING_FLOW_PATH f, Reg.INGEST_BLOCK_STATUS] s t))

/-! ### The Photor Chain -/

/-- R434 to R436, R451: a chain port with its link up sends TRAIN; a TRAIN of a higher epoch deposes a manager or standby;
one that passes the checks joins the port to its link, and another leaves the cause of the first check that fails. A port that
hears none leaves its link, and its queued chain frames are discarded, replicas among them counted as lost (R446). The model's
choices: the frames are discarded at once, log entry 67; a TRAIN of another kind ends a boot link's limits, log entry 107. -/
def Obligations.ChainTraining : Prop :=
  (∀ (p : Fin 128) (s : State), s.Up →
    ∃ t, Sys2Proof.Machine.exec (.trainTx p) s = .next t ∧
      (s.linkOf p = none ∨ s.linkUp p = false → Nothing s t) ∧
      (s.linkOf p ≠ none → s.linkUp p = true → ChainSent p 1 s t) ∧
      OnlyPort p s t ∧ RegsBut (queueRegs p 7) s t ∧ t.chain = s.chain ∧ SameMem s t) ∧
  (∀ (p : Fin 128) (x : Train) (s : State), s.Up →
    ∃ t, Sys2Proof.Machine.exec (.trainReceived p x) s = .next t ∧
      (s.linkOf p = none → t.chain = s.chain ∧ RegsBut (billetRegs p) s t) ∧
      (∀ k, s.linkOf p = some k →
        (s.deposes x.epoch.toNat = true → t.chainRole = 4 ∧ t.f Reg.CHAIN_STATE_EPOCH = x.epoch.toNat ∧
          t.flagSet Reg.CHAIN_BLOCK_STATUS Flag.CHAIN_DEPOSED = true) ∧
        (s.f (Reg.CHAIN_LINK_STATE k) = 0 ∨ (p.val ∈ s.chain.joined ∧ x.kind = some .boot) → t.chain = s.chain) ∧
        (p.val ∈ s.chain.joined → s.f (Reg.CHAIN_LINK_STATE k) ≠ 0 → x.kind ≠ some .boot →
          t.chain = { s.chain with bootEnds := s.chain.bootEnds.filter (· != k) }) ∧
        (p.val ∉ s.chain.joined → s.f (Reg.CHAIN_LINK_STATE k) ≠ 0 → s.trainCause p k x = 0 →
          (let ends := s.chain.bootEnds.filter (· != k)
           t.chain = { s.chain with
             joined := setAdd s.chain.joined p, failed := s.chain.failed.filter (· != p.val),
             bootEnds := if x.kind = some .boot then setAdd ends k else ends }) ∧
          t.f (Reg.CHAIN_LINK_STATE k) = 2 ∧
          (s.linkIsUp k = false → t.flagSet Reg.CHAIN_BLOCK_STATUS Flag.CHAIN_LINK_CHANGE = true)) ∧
        (p.val ∉ s.chain.joined → s.f (Reg.CHAIN_LINK_STATE k) ≠ 0 → s.trainCause p k x ≠ 0 →
          t.chain = { s.chain with failed := setAdd s.chain.failed p } ∧ t.f (Reg.CHAIN_LINK_CAUSE k) = s.trainCause p k x ∧
          (s.linkIsUp k = false → t.f (Reg.CHAIN_LINK_STATE k) = 3) ∧
          (p.val ∉ s.chain.failed → t.flagSet Reg.CHAIN_BLOCK_STATUS Flag.CHAIN_LINK_MISMATCH = true))) ∧
      t.live = s.live ∧ SameMem s t) ∧
  (∀ (p : Fin 128) (s : State), s.Up →
    ∃ t, Sys2Proof.Machine.exec (.trainTimeout p) s = .next t ∧
      (s.linkOf p = none → Nothing s t) ∧
      (∀ k, s.linkOf p = some k →
        t.chain.joined = s.chain.joined.filter (· != p.val) ∧ t.chain.failed = s.chain.failed.filter (· != p.val) ∧
        (p.val ∉ s.chain.joined → t = { s with chain := t.chain } ∧ t.chain.delays = s.chain.delays) ∧
        (p.val ∈ s.chain.joined →
          (∀ q ∈ (t.port p).queues, ∀ y ∈ q, y.kind ≠ .host ∧ ∀ ty, y.kind ≠ .chain ty) ∧
          t.f (Reg.CHAIN_LINK_STATS_REPL_DROPS k) = min (s.f (Reg.CHAIN_LINK_STATS_REPL_DROPS k) + s.replicasOn p) 0xFFFF ∧
          (s.replicasOn p ≠ 0 → t.flagSet Reg.CHAIN_BLOCK_STATUS Flag.CHAIN_REPL_DROP = true) ∧
          (s.joinedPorts k = [p.val] → t.f (Reg.CHAIN_LINK_STATE k) = 1 ∧
            t.f (Reg.CHAIN_LINK_STATS_DOWNS k) = min (s.f (Reg.CHAIN_LINK_STATS_DOWNS k) + 1) 0xFFFF ∧
            t.flagSet Reg.CHAIN_BLOCK_STATUS Flag.CHAIN_LINK_CHANGE = true ∧
            (s.kindOf k = 0 ∨ s.kindOf k = 3 → t.chain.delays = [] ∧
              ((s.time.sources.any fun q => q.src == .chain) = true →
                t.flagSet Reg.CHAIN_BLOCK_STATUS Flag.CHAIN_CHAIN_TIME_LOST = true))))) ∧
      OnlyPort p s t ∧ t.live = s.live ∧ SameMem s t)

/-- R438, R439, R450: a child asks its parent on an UP uplink or boot link, a parent answers, and a reply gives the delay and the
offset of the child; a frame of an older epoch is discarded, and one of a newer epoch brings it; chain time that is lost leaves no
delays and no chain source, with its flag where it had qualified. That an epoch which would depose the part is left to a TRAIN or
HEARTBEAT is the model's choice, log entry 134. -/
def Obligations.ChainTime : Prop :=
  (∀ (k : Fin 16) (s : State), s.Up →
    ∃ t, Sys2Proof.Machine.exec (.timeExchangeStart k) s = .next t ∧
      (let asks := s.linkIsUp k = true ∧ (s.kindOf k = 0 ∨ s.kindOf k = 3) ∧ s.chainRole ≠ 4
       (¬ asks → Nothing s t) ∧
       (asks → ∀ p rest, s.joinedPorts k = p :: rest →
         ChainSent p 2 s t ∧ OnlyPort p s t ∧ RegsBut (queueRegs p 7) s t)) ∧
      t.chain = s.chain ∧ t.time = s.time ∧ SameMem s t) ∧
  (∀ (p : Fin 128) (epoch : BitVec 16) (t1 : Nat) (s : State), s.Up →
    ∃ t, Sys2Proof.Machine.exec (.timeRequestReceived p epoch t1) s = .next t ∧
      (let answers := p.val ∈ s.chain.joined ∧ s.oldEpoch epoch.toNat = false ∧ s.chainRole ≠ 4
       (¬ answers → RegsBut (billetRegs p) s t ∧ (t.port p).queues = (s.port p).queues) ∧
       (answers → ChainSent p 2 (s.chainTake p) t ∧ EpochSeen epoch.toNat s t)) ∧
      OnlyPort p s t ∧ t.chain = s.chain ∧ t.time = s.time ∧ SameMem s t) ∧
  (∀ (k : Fin 16) (epoch : BitVec 16) (t1 t2 t3 t4 : Int) (s : State), s.Up →
    ∃ t, Sys2Proof.Machine.exec (.timeReplyReceived k epoch t1 t2 t3 t4) s = .next t ∧
      (s.joinedPorts k = [] → Nothing s t) ∧
      (∀ (p : Fin 128) (rest : List Nat), s.joinedPorts k = p.val :: rest → (s.kindOf k = 0 ∨ s.kindOf k = 3) → s.oldEpoch epoch.toNat = false →
        (let r := (s.linkPorts k).idxOf p.val
         let a := 16 * sgn 8 (bits (s.reg (Reg.CHAIN_LINK_ASYM k)).toNat (8 * r + 7) (8 * r))
         let delay := roundDiv ((t4 - t1) - (t3 - t2)) 2
         let offset := (t4 - t3) - delay - roundDiv a 2
         (t.f Reg.CHAIN_TIME_DELAY : Int) = max 0 (min 0xFFFFFFFF delay) ∧
         t.f (Reg.CHAIN_LINK_DELAY k) = t.f Reg.CHAIN_TIME_DELAY ∧
         sgn 32 (t.f Reg.CHAIN_TIME_OFFSET) = max (-2147483648) (min 2147483647 offset) ∧
         t.chain = { s.chain with
           delays := (delay :: s.chain.delays.takeWhile fun x => decide ((x - delay).natAbs ≤ 2000)).take 16 } ∧
         EpochSeen epoch.toNat s t ∧
         ((s.time.sources.any fun q => q.src == .chain) = true → s.f Reg.TB_STATE_SOURCE ≠ 4 → t.time = s.time))) ∧
      t.time.dt = s.time.dt ∧ SameMem s t) ∧
  (∀ s : State, s.Up →
    ∃ t, Sys2Proof.Machine.exec .chainTimeLost s = .next t ∧ t.chain = { s.chain with delays := [] } ∧
      ((s.time.sources.any fun q => q.src == .chain) = true →
        t.flagSet Reg.CHAIN_BLOCK_STATUS Flag.CHAIN_CHAIN_TIME_LOST = true) ∧
      ((s.time.sources.any fun q => q.src == .chain) = false → t = { s with chain := t.chain }) ∧
      t.time.sources = s.time.sources.filter (fun q => q.src != .chain) ∧
      (s.f Reg.TB_STATE_SOURCE ≠ 4 →
        OnlyEvent [Reg.CHAIN_BLOCK_STATUS] { s with chain := t.chain, time := t.time } t) ∧ SameMem s t)

/-- R440, R447 to R451, R459: a HEARTBEAT of a newer epoch brings that epoch, deposing a manager or a standby with one of its own;
it shows a reference mismatch; on a standby link a newer one makes the link the uplink. A STATUS makes a part REACHED, its
absence LOST. A standby that may take over, at a reference line start, becomes active manager in the next epoch, its standby links
downlinks and its uplink UNUSED, and follows the best source that qualifies under TB_SRC_CFG; the key forces a takeover. That no
part is found LOST while the Keeper is down is the model's choice, log entry 108. -/
def Obligations.ChainSupervision : Prop :=
  (∀ (p : Fin 128) (h : Heartbeat) (s : State), s.Up →
    ∃ t, Sys2Proof.Machine.exec (.heartbeatReceived p h) s = .next t ∧
      (let e := h.epoch.toNat
       (s.linkOf p = none ∨ p.val ∉ s.chain.joined ∨ s.oldEpoch e = true →
         t.chain = s.chain ∧ RegsBut (billetRegs p) s t) ∧
       (∀ k, s.linkOf p = some k → p.val ∈ s.chain.joined → s.oldEpoch e = false →
         t.f Reg.CHAIN_STATE_EPOCH = e ∧
         (let same := (h.n, h.d, h.lRef) = (s.time.n, s.time.d, s.time.l)
          t.f Reg.CHAIN_STATS_REF_MISMATCHES =
            (if same then s.f Reg.CHAIN_STATS_REF_MISMATCHES else min (s.f Reg.CHAIN_STATS_REF_MISMATCHES + 1) 0xFFFF) ∧
          (¬ same → t.flagSet Reg.CHAIN_BLOCK_STATUS Flag.CHAIN_REF_MISMATCH = true)) ∧
         (s.deposes e = true → t.chainRole = 4 ∧ t.flagSet Reg.CHAIN_BLOCK_STATUS Flag.CHAIN_DEPOSED = true) ∧
         (s.deposes e = false → t.chainRole = s.chainRole ∧ t.chain.heard = true ∧ t.chain.silent = 0 ∧
           (let turns := s.f Reg.CHAIN_STATE_EPOCH < e ∧ s.kindOf k = 2
            t.kindOf k = (if turns then 0 else s.kindOf k) ∧ (turns → t.chain.delays = []) ∧
            (turns → ∀ j : Fin 16, j.val ≠ k → s.kindOf j = 0 → s.f (Reg.CHAIN_LINK_STATE j) ≠ 0 → t.kindOf j = 2))))) ∧
      t.time = s.time ∧ SameMem s t) ∧
  (∀ (p : Fin 128) (src : Fin 16) (s : State), s.Up →
    ∃ t, Sys2Proof.Machine.exec (.statusReceived p src) s = .next t ∧
      (p.val ∈ s.chain.joined → s.chainRole = 1 → s.f (Reg.CHAIN_PEER_STATE src) ≠ 0 →
        t.f (Reg.CHAIN_PEER_STATE src) = 2 ∧ t.f (Reg.CHAIN_PEER_LAG src) = 0) ∧
      (p.val ∉ s.chain.joined ∨ s.chainRole ≠ 1 ∨ s.f (Reg.CHAIN_PEER_STATE src) = 0 →
        t.reg (Reg.CHAIN_PEER src) = s.reg (Reg.CHAIN_PEER src)) ∧
      (p.val ∈ s.chain.joined → s.chainRole = 2 ∨ s.chainRole = 3 → SentUp 4 (s.chainTake p) t) ∧
      (∀ n : Fin 16, n ≠ src → t.reg (Reg.CHAIN_PEER n) = s.reg (Reg.CHAIN_PEER n)) ∧ t.chain = s.chain ∧ SameMem s t) ∧
  (∀ (n : Fin 16) (s : State), s.Up →
    ∃ t, Sys2Proof.Machine.exec (.peerLost n) s = .next t ∧
      (let lost := s.chainRole = 1 ∧ s.f (Reg.CHAIN_PEER_STATE n) = 2 ∧ min (3 * s.time.l) 0xFFFF ≤ s.f (Reg.CHAIN_PEER_LAG n) ∧
         s.aon.keeperUp = true
       (lost → t.f (Reg.CHAIN_PEER_STATE n) = 3 ∧ Raised Reg.CHAIN_BLOCK_STATUS [Flag.CHAIN_PEER_LOST] s t) ∧
       (¬ lost → Nothing s t)) ∧
      OnlyEvent [Reg.CHAIN_PEER n, Reg.CHAIN_BLOCK_STATUS] s t) ∧
  (∀ s : State, s.Up →
    ∃ t, Sys2Proof.Machine.exec .takeover s = .next t ∧
      (s.mayTakeOver = false → Nothing s t) ∧
      (s.mayTakeOver = true → t.f Reg.CHAIN_STATE_EPOCH = min 0xFFFF (s.f Reg.CHAIN_STATE_EPOCH + 1) ∧ t.chainRole = 1 ∧
        t.flagSet Reg.CHAIN_BLOCK_STATUS Flag.CHAIN_TAKEOVER = true ∧ t.chain.forced = none ∧ t.chain.heard = false ∧
        t.chain.delays = [] ∧ t.f Reg.CHAIN_STATS_TAKEOVERS = min (s.f Reg.CHAIN_STATS_TAKEOVERS + 1) 0xFFFF ∧
        (∀ k : Fin 16, s.f (Reg.CHAIN_LINK_STATE k) ≠ 0 → s.kindOf k = 0 → ∀ p ∈ s.linkPorts k, p ∉ t.chain.joined) ∧
        (∀ k : Fin 16, s.f (Reg.CHAIN_LINK_STATE k) ≠ 0 → s.kindOf k = 2 → t.kindOf k = 1) ∧
        (∀ k : Fin 16, s.f (Reg.CHAIN_LINK_STATE k) ≠ 0 → s.kindOf k = 0 → t.reg (Reg.CHAIN_LINK k) = 0) ∧
        (let u := (s.setF Reg.CHAIN_STATE_ROLE 1).setTime { s.time with sources := s.time.sources.filter fun q => q.src != .chain }
         s.following = false ∨ s.f Reg.TB_STATE_SOURCE = 4 → ∀ q, u.bestSource = some q →
           t.f Reg.TB_STATE_STATE = 1 ∧ t.f Reg.TB_STATE_SOURCE = sourceNum q.src)) ∧
      t.live = s.live ∧ SameMem s t) ∧
  (∀ (r : Req) (d : Half) (s : State), s.Up → s.passes r Reg.CHAIN_TAKEOVER .w32 true = true →
    ∃ t, Sys2Proof.Machine.exec (.chainTakeover r d) s = .next t ∧ Answered r 0 s t ∧
      t = { s with cycle := t.cycle, bus := { s.bus with resp := t.bus.resp },
                   chain := if bits d.toNat 15 0 = 0x7E11 ∧ s.chainRole = 2 then { s.chain with forced := some s.fclk } else s.chain })

/-- R437, R441, R442, R444, R450: a window access waits for its response, or for room behind 32 requests; a request for this part
is served as an access of identity 15, and its response goes back on the link, at once or when an access that waits for
room has entered; a request for another part goes on to it. A response or a timeout ends its request, the latter in
UNMAPPED; behind an older request of its master to the same part it waits for that one's end. A request or a response of an older
epoch is discarded, and one of a newer epoch brings it. A DOORBELL sets the sender's bit on the manager. What is for the manager
goes up on any other part. A HOST frame goes to the host ring behind what waits for it, a bad frame is counted. The model's choices:
the order behind older requests, log entry 40; the manager records the bus error of a worker's refusal, log entry 93; an epoch that
would depose the part, log entry 134. -/
def Obligations.ChainTraffic : Prop :=
  (∀ (r : Req) (a : Addr) (w : Width) (wr : Bool) (d : Word) (n : Nat) (s : State), s.Up → s.mute r = false →
    s.judge r a.toNat w wr = .ok (.chain n) →
    ∃ t, Sys2Proof.Machine.exec (.tunnelRequest r a w wr d) s = .next t ∧
      Told r { kind := .waiting, data := 0, cause := 0 } s t ∧
      (let x : ChainAccess := { id := s.chain.nextId, part := n, req := r, addr := a.toNat, width := w, write := wr,
                                data := if wr then d else 0, reach := s.chainAddr n (bits a.toNat 31 0) }
       t.chain = (if s.tunnelsTo n < 32 then { s.chain with nextId := s.chain.nextId + 1, out := s.chain.out ++ [x] }
                  else { s.chain with nextId := s.chain.nextId + 1, stalled := s.chain.stalled ++ [x] }) ∧
       (∀ q rest, s.tunnelsTo n < 32 → s.joinedPorts (s.f (Reg.CHAIN_PEER_VIA n)) = q :: rest → ChainSent q 6 s t)) ∧
      SameMem s t) ∧
  (∀ (p : Fin 128) (x : Tunnel) (s : State), s.Up →
    ∃ t, Sys2Proof.Machine.exec (.tunnelRequestReceived p x) s = .next t ∧
      (s.linkOf p = none ∨ p.val ∉ s.chain.joined ∨ s.oldEpoch x.epoch.toNat = true ∨ x.dst.val ≠ s.myIndex →
        t.bus = s.bus ∧ t.chain = s.chain ∧ SameMem s t) ∧
      (∀ k, s.linkOf p = some k → p.val ∈ s.chain.joined → s.oldEpoch x.epoch.toNat = false →
        (x.dst.val ≠ s.myIndex ∨ s.masterWaits 15 = true → EpochSeen x.epoch.toNat s t) ∧
        (x.dst.val ≠ s.myIndex → ∀ l q rest, (s.upLinks 1).find? (fun l => s.linkPeer l == x.dst.val) = some l →
          s.joinedPorts l = q :: rest → ChainSent q 6 (s.chainTake p) t) ∧
        (x.dst.val = s.myIndex → s.masterWaits 15 = true →
          t.chain = { s.chain with behind := s.chain.behind ++ [(k, x)] } ∧ t.bus = s.bus ∧ SameMem s t) ∧
        (x.dst.val = s.myIndex → s.masterWaits 15 = false →
          (let u := ((s.chainTake p).seeEpoch x.epoch.toNat).tunnelServe x
           t.mem = u.mem ∧ ((u.respOf 15).kind = .waiting → t = u.replyLater k x.id) ∧
           ((u.respOf 15).kind ≠ .waiting → t.bus = u.bus ∧
             ∀ q rest, u.joinedPorts k = q :: rest → ChainSent q 6 u t))))) ∧
  (∀ (p : Fin 128) (epoch : BitVec 16) (src : Fin 16) (id : Nat) (error : Bool) (d : Word) (s : State), s.Up →
    ∃ t, Sys2Proof.Machine.exec (.tunnelResponse ⟨p, epoch, src, id⟩ error d) s = .next t ∧
      (let takes := p.val ∈ s.chain.joined ∧ s.oldEpoch epoch.toNat = false
       let u := (s.chainTake p).seeEpoch epoch.toNat
       (¬ takes → t = s.chainTake p) ∧
       (takes → EpochSeen epoch.toNat s t) ∧
       (takes → s.chainRole = 1 → (s.tunnelOf id).all (fun x => x.answer.isSome) = true → t = u) ∧
       (takes → s.chainRole ≠ 1 → t.bus = s.bus ∧ t.chain = s.chain ∧ SentUp 6 (s.chainTake p) t) ∧
       (∀ x, takes → s.chainRole = 1 → s.tunnelOf id = some x → x.answer = none →
        (s.tunnelBehind x = true → t = { u with chain := s.answered x.id error d }) ∧
        (s.tunnelBehind x = false →
          (s.NoAnswers x.id → Completed x error d s t ∧
            (bits d.toNat 3 0 = 0 ∨ error = false → t.reg Reg.BUS_ERROR_LOG = s.reg Reg.BUS_ERROR_LOG) ∧
            (error = true → bits d.toNat 3 0 ≠ 0 → t.f Reg.BUS_ERROR_LOG_CAUSE = bits d.toNat 3 0 ∧
              t.f Reg.BUS_ERROR_LOG_MASTER = x.req.master.val ∧ t.f Reg.BUS_ERROR_LOG_ADDR = x.addr % 2 ^ 40 ∧
              t.flagSet Reg.MASTERS_BLOCK_STATUS Flag.MASTERS_BUS_ERROR = true) ∧
            (s.chain.stalled = [] → t.chain = { s.chain with out := s.chain.out.filter fun y => y.id != x.id })) ∧
          (∀ z e v, s.chain.out = [x, z] → s.chain.stalled = [] → z.answer = some (e, v) → z.id ≠ x.id →
            t.chain = { s.chain with out := [] } ∧ (z.req.master = x.req.master → Completed z e v s t))))) ∧ SameMem s t) ∧
  (∀ (id : Nat) (s : State), s.Up →
    ∃ t, Sys2Proof.Machine.exec (.tunnelTimeout id) s = .next t ∧
      ((s.tunnelOf id).all (fun x => x.answer.isSome) = true → Nothing s t) ∧
      (∀ x, s.tunnelOf id = some x → x.answer = none →
        t.f Reg.CHAIN_STATS_TUNNEL_TIMEOUTS = min (s.f Reg.CHAIN_STATS_TUNNEL_TIMEOUTS + 1) 0xFFFF ∧
        t.flagSet Reg.CHAIN_BLOCK_STATUS Flag.CHAIN_TUNNEL_TIMEOUT = true ∧
        (s.tunnelBehind x = true → t.chain = s.answered x.id true 1 ∧ t.bus = s.bus) ∧
        (s.tunnelBehind x = false → s.NoAnswers x.id → Completed x true 1 s t ∧
          t.f Reg.BUS_ERROR_LOG_CAUSE = 1 ∧ t.f Reg.BUS_ERROR_LOG_ADDR = x.addr % 2 ^ 40 ∧
          (s.chain.stalled = [] → t.chain = { s.chain with out := s.chain.out.filter fun y => y.id != x.id }))) ∧ SameMem s t) ∧
  (∀ (p : Fin 128) (src : Fin 16) (s : State), s.Up →
    ∃ t, Sys2Proof.Machine.exec (.doorbellReceived p src) s = .next t ∧
      (p.val ∈ s.chain.joined → s.chainRole = 1 → t.flagSet Reg.CHAIN_DOORBELL src = true ∧
        (∀ b : Fin 16, b ≠ src → t.flagSet Reg.CHAIN_DOORBELL b = s.flagSet Reg.CHAIN_DOORBELL b) ∧
        Raised Reg.CHAIN_BLOCK_STATUS [Flag.CHAIN_DOORBELL] s t) ∧
      (p.val ∉ s.chain.joined ∨ s.chainRole ≠ 1 → t.reg Reg.CHAIN_DOORBELL = s.reg Reg.CHAIN_DOORBELL) ∧
      (p.val ∈ s.chain.joined → s.chainRole ≠ 1 → SentUp 7 (s.chainTake p) t) ∧
      t.chain = s.chain ∧ SameMem s t) ∧
  (∀ (p : Fin 128) (frame : List Byte) (s : State), s.Up →
    ∃ t, Sys2Proof.Machine.exec (.chainHostFrame p frame) s = .next t ∧
      (let takes := p.val ∈ s.chain.joined ∧ ∃ k, s.linkOf p = some k ∧ s.carries k 8 = true
       let waits := s.sourceStalled 14 = true
       (takes → waits → SameMem s t ∧ ∃ x : RxFrame, x.bytes = frame ∧ (t.port p).hostWait = (s.port p).hostWait ++ [(0, x)]) ∧
       (takes → ¬ waits → (s.port p).hostWait = [] → s.ringFull p = true →
         t.f (Reg.HRX_DROPS_COUNT p) = min (s.f (Reg.HRX_DROPS_COUNT p) + 1) 0xFFFFFFFF ∧ SameMem s t) ∧
       (takes → ¬ waits → (s.port p).hostWait = [] → s.ringFull p = false →
         t.f (Reg.HRX_PROD_INDEX p) = (s.f (Reg.HRX_PROD_INDEX p) + 1) % 2 ^ 32) ∧
       (¬ takes → t = s.chainTake p)) ∧
      OnlyPort p s t ∧ t.chain = s.chain) ∧
  (∀ (p : Fin 128) (s : State), s.Up →
    ∃ t, Sys2Proof.Machine.exec (.chainFrameDiscard p) s = .next t ∧
      (s.linkOf p = none → Nothing s t) ∧
      (∀ k, s.linkOf p = some k →
        t.f (Reg.CHAIN_LINK_STATS_RX_BAD k) = min (s.f (Reg.CHAIN_LINK_STATS_RX_BAD k) + 1) 0xFFFF ∧
        RegsBut (Reg.CHAIN_LINK_STATS k :: billetRegs p) s t) ∧
      OnlyPort p s t ∧ t.chain = s.chain ∧ SameMem s t)

/-! ### Blit engines -/

/-- R464, R474, R478: BLT_PROD moves only forward by at most the ring's slots and only while EN is 1, else PROD_REFUSED;
BLT_RESUME takes a halted engine to WAITING; BLT_CTRL enables a ring that lies within the capacity, or drains and stops the
engine; a ring register is written only with EN 0, which zeroes PROD and CONS. While the engine drains, its EN counts as 1: the
model's reading, log entry 30. -/
def Obligations.BlitRegisters : Prop :=
  (∀ (r : Req) (b : Fin 4) (d : Half) (s : State), s.Up → s.passes r (Reg.BLT_PROD b) .w32 true = true →
    ∃ t, Sys2Proof.Machine.exec (.bltProdWrite r b d) s = .next t ∧ Answered r 0 s t ∧
      (let ahead (x : Nat) : Nat := (x + 65536 - s.f (Reg.BLT_CONS_CONS b)) % 65536
       let ok := (s.fb (Reg.BLT_CTRL_EN b) = true ∨ s.bltState b = 3) ∧ ahead (s.f (Reg.BLT_PROD_PROD b)) ≤ ahead (bits d.toNat 15 0) ∧
         ahead (bits d.toNat 15 0) ≤ 2 ^ s.f (Reg.BLT_RING_CFG_LOG2 b)
       (ok → t.f (Reg.BLT_PROD_PROD b) = bits d.toNat 15 0 ∧ OnlyRegs [Reg.BLT_PROD b] s t) ∧
       (¬ ok → Raised (Reg.BLT_BLOCK_STATUS b) [Flag.BLT_PROD_REFUSED] s t ∧ OnlyRegs [Reg.BLT_BLOCK_STATUS b] s t))) ∧
  (∀ (r : Req) (b : Fin 4) (d : Half) (s : State), s.Up → s.passes r (Reg.BLT_RESUME b) .w32 true = true →
    ∃ t, Sys2Proof.Machine.exec (.bltResume r b d) s = .next t ∧ Answered r 0 s t ∧
      t.bltState b = (if s.bltState b = 4 then 1 else s.bltState b) ∧ OnlyRegs [Reg.BLT_STATE b] s t) ∧
  (∀ (r : Req) (b : Fin 4) (d : Half) (s : State), s.Up → s.passes r (Reg.BLT_CTRL b) .w32 true = true →
    ∃ t, Sys2Proof.Machine.exec (.bltCtrlWrite r b d) s = .next t ∧ Answered r 0 s t ∧
      (let beyond := s.capacity < 256 * s.f (Reg.BLT_RING_BASE_BASE b) + 64 * 2 ^ s.f (Reg.BLT_RING_CFG_LOG2 b)
       let st := s.bltState b
       (bit d.toNat 31 = true → beyond →
         Raised (Reg.BLT_BLOCK_STATUS b) [Flag.BLT_CFG_REFUSED] s t ∧ OnlyRegs [Reg.BLT_BLOCK_STATUS b] s t) ∧
       (bit d.toNat 31 = true → ¬ beyond →
         t.f (Reg.BLT_CTRL_EN b) = 1 ∧ t.f (Reg.BLT_CTRL_HALT_ON_ERROR b) = bits d.toNat 30 30 ∧
         t.bltState b = (if st = 0 then 1 else if st = 3 then 2 else st) ∧
         OnlyRegs [Reg.BLT_CTRL b, Reg.BLT_STATE b] s t) ∧
       (bit d.toNat 31 = false →
         t.f (Reg.BLT_CTRL_EN b) = 0 ∧ t.f (Reg.BLT_CTRL_HALT_ON_ERROR b) = bits d.toNat 30 30 ∧
         t.bltState b = (if st = 2 ∨ st = 3 then 3 else 0) ∧ OnlyRegs [Reg.BLT_CTRL b, Reg.BLT_STATE b] s t))) ∧
  (∀ (r : Req) (b : Fin 4) (d : Word) (s : State), s.Up → s.passes r (Reg.BLT_RING_BASE b) .w64 true = true →
    ∃ t, Sys2Proof.Machine.exec (.bltRingCfgWrite r b true d) s = .next t ∧ Answered r 0 s t ∧
      (let refused := s.fb (Reg.BLT_CTRL_EN b) = true ∨ s.bltState b = 3
       (refused → Raised (Reg.BLT_BLOCK_STATUS b) [Flag.BLT_CFG_REFUSED] s t ∧ OnlyWide [Reg.BLT_BLOCK_STATUS b] s t) ∧
       (¬ refused → t.f (Reg.BLT_RING_BASE_BASE b) = bits d.toNat 39 8 ∧ t.f (Reg.BLT_PROD_PROD b) = 0 ∧
         t.f (Reg.BLT_CONS_CONS b) = 0 ∧ OnlyWide [Reg.BLT_RING_BASE b, Reg.BLT_PROD b, Reg.BLT_CONS b] s t))) ∧
  (∀ (r : Req) (b : Fin 4) (d : Word) (s : State), s.Up → s.passes r (Reg.BLT_RING_CFG b) .w32 true = true →
    ∃ t, Sys2Proof.Machine.exec (.bltRingCfgWrite r b false d) s = .next t ∧ Answered r 0 s t ∧
      (let refused := s.fb (Reg.BLT_CTRL_EN b) = true ∨ s.bltState b = 3 ∨ bits d.toNat 3 0 = 0 ∨ 12 < bits d.toNat 3 0
       (refused → Raised (Reg.BLT_BLOCK_STATUS b) [Flag.BLT_CFG_REFUSED] s t ∧ OnlyRegs [Reg.BLT_BLOCK_STATUS b] s t) ∧
       (¬ refused → t.f (Reg.BLT_RING_CFG_LOG2 b) = bits d.toNat 3 0 ∧ t.f (Reg.BLT_PROD_PROD b) = 0 ∧
         t.f (Reg.BLT_CONS_CONS b) = 0 ∧ OnlyRegs [Reg.BLT_RING_CFG b, Reg.BLT_PROD b, Reg.BLT_CONS b] s t)))

/-- R462, R466 to R471, R473 to R475, R503: a waiting engine with work reads and checks the descriptor at CONS. An operation moves
in bursts of 256 bytes, at most one per 4 + EFF_DEAD_TIME FCLK, of one descriptor after another, each through the blit queue of its
channel (R472, R502); an engine whose request finds a full queue stands still. The bursts write each pixel of the rectangle once,
after the source that it needs, and no burst writes source bytes that a later one reads: a FILL writes its word, a COPY the
source's pixels as they stood, a CONVERT each converted pixel, and no other byte. A poisoned source ends the descriptor. On
completion RESULT is written with the code and CONS advances; a failure is counted and may halt the engine. The model's choices: a
burst reads or writes as it enters its queue, log entry 29; the division into bursts, log entry 31. -/
def Obligations.BlitExecution : Prop :=
  (∀ (b : Fin 4) (s : State), s.Up →
    ∃ t, Sys2Proof.Machine.exec (.descriptorRead b) s = .next t ∧
      (let cons := s.f (Reg.BLT_CONS_CONS b)
       let a := 256 * s.f (Reg.BLT_RING_BASE_BASE b) + 64 * (cons % 2 ^ s.f (Reg.BLT_RING_CFG_LOG2 b))
       let reads := s.bltState b = 1 ∧ cons ≠ s.f (Reg.BLT_PROD_PROD b) ∧ s.bltRoom a 64 = true
       (¬ reads → Nothing s t) ∧
       (reads → t.bltState b = 2 ∧
         (let code := if s.poisoned a 64 = true then 0x0B else (bltDesc (s.bytes a 64)).check s.capacity
          Tab.find t.blits b = some { desc := s.bytes a 64, addr := a, index := cons, code := code }) ∧
         (∀ k : Fin 4, k ≠ b → Tab.find t.blits k = Tab.find s.blits k) ∧
         Raised (Reg.BLT_BLOCK_STATUS b) (if s.poisoned a 64 = true then [Flag.BLT_POISON] else []) s t ∧
         RegsBut [Reg.BLT_STATE b, Reg.BLT_BLOCK_STATUS b] s t ∧
         t = { s with blits := t.blits, regs := t.regs, cycle := t.cycle, chans := (s.bltRequest b a 64 false).chans }))) ∧
  (∀ (b : Fin 4) (s : State), s.Up →
    (s.bltToRun b 1 = none → ∃ t, Sys2Proof.Machine.exec (.fill b) s = .next t ∧ Nothing s t) ∧
    (s.bltToRun b 2 = none → ∃ t, Sys2Proof.Machine.exec (.copy b) s = .next t ∧ Nothing s t) ∧
    (s.bltToRun b 3 = none → ∃ t, Sys2Proof.Machine.exec (.convert b) s = .next t ∧ Nothing s t)) ∧
  (∀ (b : Fin 4) (op : Fin 3) (x : Blit) (d : BltDesc) (s : State), s.Up → s.bltToRun b (op + 1) = some (x, d) →
    ∃ t, Sys2Proof.Machine.exec (match op with | 0 => .fill b | 1 => .copy b | 2 => .convert b) s = .next t ∧
      Tab.find t.blits b = some { x with ran := true, todo := d.bursts } ∧
      (∀ k : Fin 4, k ≠ b → Tab.find t.blits k = Tab.find s.blits k) ∧ t = { s with blits := t.blits }) ∧
  -- the bursts of an operation
  (∀ (d : BltDesc) (c : Nat), d.check c = 0 →
    d.bursts.Nodup ∧
    (∀ i j k, i < d.w → j < d.h → k < bppOf d.dst.fmt →
      ⟨true, j, (d.dst.at' (d.dx + i) (d.dy + j) + k) / 256 * 256⟩ ∈ d.bursts) ∧
    (∀ l r j a, d.bursts = l ++ ⟨true, j, a⟩ :: r →
      (d.op ≠ 1 → ∀ y ∈ d.needs j a, ⟨false, j, y⟩ ∈ l) ∧
      (∀ z ∈ r, z.write = false → ∀ i k i' k', i < d.w → k < bppOf d.src.fmt → i' < d.w → k' < bppOf d.dst.fmt →
        z.addr ≤ d.src.at' (d.sx + i) (d.sy + z.row) + k → d.src.at' (d.sx + i) (d.sy + z.row) + k < z.addr + 256 →
        a ≤ d.dst.at' (d.dx + i') (d.dy + j) + k' → d.dst.at' (d.dx + i') (d.dy + j) + k' < a + 256 →
        d.src.at' (d.sx + i) (d.sy + z.row) + k ≠ d.dst.at' (d.dx + i') (d.dy + j) + k'))) ∧
  -- the bursts in an FCLK
  (∀ (b : Fin 4) (s : State), s.Up → s.QuietFclk →
    (Tab.get s.bltWait b 0 ≠ 0 ∨ ∀ x, Tab.find s.blits b = some x → x.todo = [] ∨
      ∃ u rest, x.todo = u :: rest ∧ s.bltRoom u.addr 256 = false) →
    (∀ k y, k ≠ b.val → Tab.find s.blits k = some y → y.todo = []) →
    ∃ t, Sys2Proof.Machine.exec .fclkTick s = .next t ∧ Tab.find t.blits b = Tab.find s.blits b ∧
      Tab.get t.bltWait b 0 = Tab.get s.bltWait b 0 - 1 ∧
      t.f (Reg.BLT_BURSTS_BURSTS b) = s.f (Reg.BLT_BURSTS_BURSTS b) ∧ t.mem = s.mem) ∧
  (∀ (b : Fin 4) (x : Blit) (u : BltBurst) (rest : List BltBurst) (s : State), s.Up → s.QuietFclk →
    Tab.find s.blits b = some x → x.todo = u :: rest → Tab.get s.bltWait b 0 = 0 → s.bltRoom u.addr 256 = true →
    (∀ k y, k ≠ b.val → Tab.find s.blits k = some y → y.todo = []) →
    ∃ t, Sys2Proof.Machine.exec .fclkTick s = .next t ∧
      Tab.get t.bltWait b 0 = 3 + s.effDeadTime b ∧
      t.f (Reg.BLT_BURSTS_BURSTS b) = (s.f (Reg.BLT_BURSTS_BURSTS b) + 1) % 2 ^ 64 ∧
      (let d := bltDesc x.desc
       let bad := u.write = false ∧ s.poisoned u.addr 256 = true
       let at' (i : Nat) : Nat := d.dst.at' (d.dx + i) (d.dy + u.row)
       let mine (a : Nat) : Prop := u.addr ≤ a ∧ a < u.addr + 256 ∧ ∃ i k, i < d.w ∧ k < bppOf d.dst.fmt ∧ a = at' i + k
       (u.write = true → Tab.find t.blits b = some { x with todo := rest, wrote := true }) ∧
       (bad → Tab.find t.blits b = some { x with code := 0x0B, todo := [] } ∧
         t.flagSet (Reg.BLT_BLOCK_STATUS b) Flag.BLT_POISON = true) ∧
       (u.write = false → ¬ bad → Tab.find t.blits b =
         some { x with todo := rest, buf := Tab.put x.buf u.addr (s.bytes u.addr 256) }) ∧
       (u.write = false → t.mem = s.mem) ∧
       (∀ a, ¬ mine a → Mem.read t.mem a = Mem.read s.mem a) ∧
       (u.write = true → s.canonical = true → d.check s.capacity = 0 → ∀ i k, i < d.w → k < bppOf d.dst.fmt →
         u.addr ≤ at' i + k → at' i + k < u.addr + 256 → s.faulted (at' i + k) = false →
         some (Mem.read t.mem (at' i + k)) = (x.pixel u.row i)[k]? ∧
         (d.op = 1 → (Mem.read t.mem (at' i + k)).toNat = bits d.fill (8 * k + 7) (8 * k)) ∧
         (d.op = 2 → Mem.read t.mem (at' i + k) = x.source (d.src.at' (d.sx + i) (d.sy + u.row) + k))))) ∧
  (∀ (b : Fin 4) (s : State), s.Up →
    (∀ x, Tab.find s.blits b = some x →
      x.todo ≠ [] ∨ (x.code = 0 ∧ x.ran = false) ∨ s.bltRoom (x.addr + 0x34) 4 = false) →
    ∃ t, Sys2Proof.Machine.exec (.descriptorComplete b) s = .next t ∧ Nothing s t) ∧
  (∀ (b : Fin 4) (x : Blit) (s : State), s.Up → s.bltRoom (x.addr + 0x34) 4 = true →
    Tab.find s.blits b = some x → (x.code ≠ 0 ∨ x.ran = true) → x.todo = [] →
    ∃ t, Sys2Proof.Machine.exec (.descriptorComplete b) s = .next t ∧
      (let n := 2 ^ 31 + x.code * 65536 + x.index
       let draining := s.bltState b = 3
       let halt := x.code ≠ 0 ∧ s.fb (Reg.BLT_CTRL_HALT_ON_ERROR b) = true
       (∀ a, (a < x.addr + 0x34 ∨ x.addr + 0x38 ≤ a) → Mem.read t.mem a = Mem.read s.mem a) ∧
       (s.canonical = true → ∀ k, k < 4 → s.faulted (x.addr + 0x34 + k) = false →
         (Mem.read t.mem (x.addr + 0x34 + k)).toNat = bits n (8 * k + 7) (8 * k)) ∧
       t.f (Reg.BLT_CONS_CONS b) = (s.f (Reg.BLT_CONS_CONS b) + 1) % 65536 ∧
       t.f (Reg.BLT_COUNTS_DONE b) = (if x.code = 0 then (s.f (Reg.BLT_COUNTS_DONE b) + 1) % 2 ^ 32 else s.f (Reg.BLT_COUNTS_DONE b)) ∧
       t.f (Reg.BLT_COUNTS_FAILED b) =
         (if x.code = 0 then s.f (Reg.BLT_COUNTS_FAILED b) else min (s.f (Reg.BLT_COUNTS_FAILED b) + 1) (2 ^ 32 - 1)) ∧
       (x.code ≠ 0 → t.f (Reg.BLT_LAST_ERR_INDEX b) = x.index % 65536 ∧ t.f (Reg.BLT_LAST_ERR_CODE b) = x.code % 256) ∧
       t.bltState b = (if draining then 0 else if halt then 4 else 1) ∧
       Raised (Reg.BLT_BLOCK_STATUS b)
         (if x.code = 0 then (if (bltDesc x.desc).notify = true then [Flag.BLT_DESC_DONE] else [])
          else if halt then [Flag.BLT_DESC_ERROR, Flag.BLT_HALTED] else [Flag.BLT_DESC_ERROR]) s t ∧
       (∀ k : Fin 32, x.wrote = true → s.bltSoils (bltDesc x.desc) k = true →
         ∀ m ∈ t.served k, m ∈ (t.engine k).dirty) ∧
       (x.wrote = false → t.engines = s.engines) ∧ Tab.find t.blits b = none ∧
       RegsBut ([Reg.BLT_CONS b, Reg.BLT_COUNTS b, Reg.BLT_LAST_ERR b, Reg.BLT_STATE b, Reg.BLT_BLOCK_STATUS b] ++
         mergeRegs (x.addr + 0x34)) s t ∧
       (s.mergedUe (x.addr + 0x34) 4 = [] →
         RegsBut [Reg.BLT_CONS b, Reg.BLT_COUNTS b, Reg.BLT_LAST_ERR b, Reg.BLT_STATE b, Reg.BLT_BLOCK_STATUS b] s t) ∧
       t = { s with blits := t.blits, regs := t.regs, cycle := t.cycle, mem := t.mem, poison := t.poison, engines := t.engines,
                    chans := (s.bltRequest b (x.addr + 0x34) 4 true).chans }))

/-! ### Check units -/

/-- R486 to R488: at the result point of a folded frame the unit writes the result and the frame and counts CHECKED; a frame of its
old raster, which it still folds after new settings came into force, ends under the old ones. In MODE 2 the unit then becomes OFF; in COMPARE an expected value is compared, a missing one counted in SKIPPED; RUN events in a row, and each
further one, raise an alarm that keeps both values and the frame; EXP_ONCE clears VALID at a comparison. A load in the same
FCLK governs later result points only (R490). -/
def Obligations.ResultPoint : Prop :=
  (∀ (u : Fin 16) (s : State), s.Up → s.resultOf u = none →
    ∃ t, Sys2Proof.Machine.exec (.resultPoint u) s = .next t ∧ Nothing s t) ∧
  (∀ (u : Fin 16) (x : SigUnit) (old : Option SigTail) (s : State), s.Up → s.resultOf u = some (x, old) →
    ∃ t, Sys2Proof.Machine.exec (.resultPoint u) s = .next t ∧
      (let got := crcEnd x.poly x.crc
       let frame := (s.raster x.src).frame % 2 ^ 48
       let loads := s.sigLoaded u = true
       -- SIG_EXPECT and VALID as they stood at the start of this FCLK
       let stood : Nat × Bool := s.sigWant u
       let want : Option Nat := if x.expSrc = true then x.prev
         else if stood.2 = true then some (stood.1 % 2 ^ polyWidth x.poly) else none
       (¬ loads → stood = (s.f (Reg.SIG_EXPECT_VALUE u), s.fb (Reg.SIG_EXP_STATE_VALID u))) ∧
       t.f (Reg.SIG_RESULT_VALUE u) = got % 2 ^ 64 ∧ t.f (Reg.SIG_RESULT_FRAME_VALID u) = 1 ∧
       t.f (Reg.SIG_RESULT_FRAME_FRAME u) = frame ∧
       t.f (Reg.SIG_COUNTS_CHECKED u) = (s.f (Reg.SIG_COUNTS_CHECKED u) + 1) % 2 ^ 32 ∧
       (old = none → (t.sig u).folding = false ∧ (t.sig u).prev = some got ∧ (t.sig u).tails = (s.sig u).tails) ∧
       (∀ y, old = some y → (t.sig u).folding = (s.sig u).folding ∧ (t.sig u).prev = (s.sig u).prev ∧
         (t.sig u).tails = (s.sig u).tails.erase y ∧ (t.sig u).crc = (s.sig u).crc) ∧
       (old = none → x.mode = 2 → t.f (Reg.SIG_CFG_MODE u) = 0 ∧ (t.sig u).mode = 0) ∧
       (old ≠ none ∨ x.mode ≠ 2 → t.reg (Reg.SIG_CFG u) = s.reg (Reg.SIG_CFG u) ∧ (t.sig u).cfg = (s.sig u).cfg) ∧
       t.f (Reg.SIG_COUNTS_SKIPPED u) =
         (if x.mode = 3 ∧ want = none then min (s.f (Reg.SIG_COUNTS_SKIPPED u) + 1) 0xFFFF else s.f (Reg.SIG_COUNTS_SKIPPED u)) ∧
       (x.mode ≠ 3 ∨ want = none → (t.sig u).run = x.run) ∧
       (∀ w, x.mode = 3 → want = some w →
         (let event := (got == w) = x.sense
          let alarm := event ∧ x.alarmRun ≤ x.run + 1
          (t.sig u).run = (if event then x.run + 1 else 0) ∧
          (alarm → t.f (Reg.SIG_FAIL_GOT_VALUE u) = got % 2 ^ 64 ∧ t.f (Reg.SIG_FAIL_EXP_VALUE u) = w % 2 ^ 64 ∧
            t.f (Reg.SIG_FAIL_INFO_VALID u) = 1 ∧ t.f (Reg.SIG_FAIL_INFO_FRAME u) = frame ∧
            t.f (Reg.SIG_COUNTS_ALARMS u) = min (s.f (Reg.SIG_COUNTS_ALARMS u) + 1) 0xFFFF ∧
            Raised Reg.CHECK_BLOCK_STATUS [Flag.CHECK_SIG_ALARM] s t) ∧
          (¬ alarm → t.f (Reg.SIG_COUNTS_ALARMS u) = s.f (Reg.SIG_COUNTS_ALARMS u) ∧
            RegsBut [Reg.SIG_RESULT u, Reg.SIG_RESULT_FRAME u, Reg.SIG_COUNTS u, Reg.SIG_EXP_STATE u] s t) ∧
          t.f (Reg.SIG_EXP_STATE_VALID u) =
            (if x.expSrc = false ∧ x.once = true ∧ ¬ loads then 0 else s.f (Reg.SIG_EXP_STATE_VALID u)))) ∧
       (x.mode ≠ 3 ∨ want = none →
         RegsBut [Reg.SIG_RESULT u, Reg.SIG_RESULT_FRAME u, Reg.SIG_COUNTS u, Reg.SIG_CFG u] s t) ∧
       RegsBut [Reg.SIG_RESULT u, Reg.SIG_RESULT_FRAME u, Reg.SIG_COUNTS u, Reg.SIG_CFG u, Reg.SIG_FAIL_GOT u, Reg.SIG_FAIL_EXP u,
         Reg.SIG_FAIL_INFO u, Reg.SIG_EXP_STATE u, Reg.CHECK_BLOCK_STATUS] s t ∧
       (∀ k : Fin 16, k ≠ u → t.sig k = s.sig k) ∧
       t = { s with regs := t.regs, cycle := t.cycle, sigs := t.sigs }))

/-- R490 to R493, R497: a write of SIG_EXPECT or MCU_EXPECT loads the expected value and sets its valid bit. MCU_GO starts a
run, or is refused while one runs, with no length, or beyond the capacity. The unit folds its start address and then what
memory holds, a burst per 4 + PACE FCLK, each as its request finds room in the blit queue of its channel (R502). The end of a run writes MCU_RESULT, compares it
where COMPARE and EXP_VALID are 1, records the outcome in LAST and sets MEM_DONE; a poisoned burst ends it as POISON. That the
run ends at that burst, with MEM_DONE beside POISON, and that MCU_GO refuses a length of 0, are log entry 71. -/
def Obligations.ExpectedValuesAndMemoryRuns : Prop :=
  (∀ (r : Req) (u : Fin 16) (d : Word) (s : State), s.Up → s.passes r (Reg.SIG_EXPECT u) .w64 true = true →
    ∃ t, Sys2Proof.Machine.exec (.sigExpectWrite r u d) s = .next t ∧ Answered r 0 s t ∧
      t.f (Reg.SIG_EXPECT_VALUE u) = d.toNat ∧ t.f (Reg.SIG_EXP_STATE_VALID u) = 1 ∧
      t.sigWant u = s.sigWant u ∧ t.sigLoaded u = true ∧
      (∃ b, t.sig u = { s.sig u with before := b }) ∧ (∀ k : Fin 16, k ≠ u → t.sig k = s.sig k) ∧
      OnlyWide [Reg.SIG_EXPECT u, Reg.SIG_EXP_STATE u] { s with sigs := t.sigs } t) ∧
  (∀ (r : Req) (m : Fin 4) (d : Word) (s : State), s.Up → s.passes r (Reg.MCU_EXPECT m) .w64 true = true →
    ∃ t, Sys2Proof.Machine.exec (.mcuExpectWrite r m d) s = .next t ∧ Answered r 0 s t ∧
      t.f (Reg.MCU_EXPECT_VALUE m) = d.toNat ∧ t.f (Reg.MCU_STATE_EXP_VALID m) = 1 ∧
      t.f (Reg.MCU_STATE_STATE m) = s.f (Reg.MCU_STATE_STATE m) ∧ t.f (Reg.MCU_STATE_LAST m) = s.f (Reg.MCU_STATE_LAST m) ∧
      OnlyWide [Reg.MCU_EXPECT m, Reg.MCU_STATE m] s t) ∧
  (∀ (r : Req) (m : Fin 4) (d : Half) (s : State), s.Up → s.passes r (Reg.MCU_GO m) .w32 true = true →
    ∃ t, Sys2Proof.Machine.exec (.mcuGo r m d) s = .next t ∧ Answered r 0 s t ∧
      (let a := 64 * s.f (Reg.MCU_START_ADDR m)
       let n := 64 * s.f (Reg.MCU_LEN_LEN m)
       let refused := s.f (Reg.MCU_STATE_STATE m) = 1 ∨ n = 0 ∨ s.capacity < a + n
       (refused → Raised Reg.CHECK_BLOCK_STATUS [Flag.CHECK_CFG_REFUSED] s t ∧ OnlyRegs [Reg.CHECK_BLOCK_STATUS] s t) ∧
       (¬ refused → t.f (Reg.MCU_STATE_STATE m) = 1 ∧ t.f (Reg.MCU_STATE_EXP_VALID m) = s.f (Reg.MCU_STATE_EXP_VALID m) ∧
         (∃ r, Tab.find t.mcus m = some r ∧ Reads r a n (s.f (Reg.MCU_CFG_POLY m)) (leBytes 8 a) ∧ r.done = 0 ∧ r.wait = 0 ∧
           r.spoiled = false) ∧
         (∀ k : Fin 4, k ≠ m → Tab.find t.mcus k = Tab.find s.mcus k) ∧ RegsBut [Reg.MCU_STATE m] s t ∧
         t = { s with regs := t.regs, cycle := t.cycle, mcus := t.mcus, bus := { s.bus with resp := t.bus.resp } }))) ∧
  -- a burst in an FCLK
  (∀ (m : Fin 4) (x : McuRun) (seen : List Byte) (s : State), s.Up → s.bus.blocked = [] → Tab.find s.mcus m = some x →
    Reads x x.start x.len x.poly seen → x.spoiled = false → x.done < x.len →
    (∀ k y, Tab.find s.blits k = some y → y.todo = []) → (∀ k y, k ≠ m.val → Tab.find s.mcus k = some y → mcuRead y = true) →
    ∃ t, Sys2Proof.Machine.exec .fclkTick s = .next t ∧
      (let a := x.start + x.done
       let n := min (256 - a % 256) (x.len - x.done)
       (0 < x.wait → Tab.find t.mcus m = some { x with wait := x.wait - 1 }) ∧
       (x.wait = 0 → s.queueRoom .blit a 1 = false → Tab.find t.mcus m = some x) ∧
       (x.wait = 0 → s.queueRoom .blit a 1 = true →
         ∃ r, Tab.find t.mcus m = some r ∧ r.done = x.done + n ∧ r.wait = 3 + s.f (Reg.MCU_CFG_PACE m) ∧
           (s.poisoned a n = true → r.spoiled = true) ∧
           (s.poisoned a n = false → r.spoiled = false ∧ Reads r x.start x.len x.poly (seen ++ s.bytes a n))))) ∧
  (∀ (m : Fin 4) (s : State), s.Up → (∀ x, Tab.find s.mcus m = some x → x.spoiled = false ∧ x.done < x.len) →
    ∃ t, Sys2Proof.Machine.exec (.mcuRunEnd m) s = .next t ∧ Nothing s t) ∧
  (∀ (m : Fin 4) (x : McuRun) (seen : List Byte) (s : State), s.Up → Tab.find s.mcus m = some x →
    Reads x x.start x.len x.poly seen → x.spoiled = true ∨ x.len ≤ x.done →
    ∃ t, Sys2Proof.Machine.exec (.mcuRunEnd m) s = .next t ∧
      (let bad := x.spoiled = true
       let got := crcOf x.poly seen
       let compares := s.fb (Reg.MCU_CFG_COMPARE m) = true ∧ s.fb (Reg.MCU_STATE_EXP_VALID m) = true
       let equal := got = s.f (Reg.MCU_EXPECT_VALUE m) % 2 ^ polyWidth x.poly
       let last := if bad then 3 else if compares then (if equal then 1 else 2) else 4
       t.f (Reg.MCU_STATE_STATE m) = 0 ∧ t.f (Reg.MCU_STATE_RUNS m) = (s.f (Reg.MCU_STATE_RUNS m) + 1) % 65536 ∧
       t.f (Reg.MCU_STATE_LAST m) = last ∧
       t.f (Reg.MCU_STATE_EXP_VALID m) = (if ¬ bad ∧ compares then 0 else s.f (Reg.MCU_STATE_EXP_VALID m)) ∧
       t.f (Reg.MCU_RESULT_VALUE m) = (if bad then s.f (Reg.MCU_RESULT_VALUE m) else got % 2 ^ 64) ∧
       Raised Reg.CHECK_BLOCK_STATUS (if bad then [Flag.CHECK_POISON, Flag.CHECK_MEM_DONE]
         else if compares ∧ ¬ equal then [Flag.CHECK_MEM_ALARM, Flag.CHECK_MEM_DONE] else [Flag.CHECK_MEM_DONE]) s t ∧
       RegsBut [Reg.MCU_STATE m, Reg.MCU_RESULT m, Reg.CHECK_BLOCK_STATUS] s t ∧
       (∀ k : Fin 4, k ≠ m → Tab.find t.mcus k = Tab.find s.mcus k) ∧
       t = { s with regs := t.regs, cycle := t.cycle, mcus := t.mcus }))

/-! ### DDR4 and the Slab -/

/-- R505 to R507, R510, R518: a channel enters power-down or self-refresh where that is enabled, no request has been there
for the idle time, and the tolerance covers the exit, the work that waits and the margin; it leaves to READY where a
request has come or the tolerance no longer covers them. Its stays are counted. A due refresh is postponed, up to eight,
while the tolerance does not cover it. A command parity or write CRC alert re-issues three times, then the channel enters
FAULT; a refresh that is issued ends a run of command alerts (log entry 41). Which refreshes are postponed is log entry
42. R509 to R511, R515: a read of a READY channel that met a correctable error counts and logs it and returns good data;
an uncorrectable one poisons its word, and is counted, logged and flagged; a read of the patrol scrub takes its slot in
the blit queue, and none starts while its last one waits (log entry 97). A completed read ends a run of command alerts
(log entry 41). So is an error of a Slab word counted, logged and flagged, which no channel holds (R514), and of a line
buffer, where the bytes of an uncorrectable word are zero from then on, with LE_EVENTS and POISON of its engine (R186);
how the command names such words is log entry 106. The Slab scrubber reads nothing before the channels are READY (R520). A
pass of the patrol scrub or of the Slab scrubber sets SCRUB_DONE. A write of MC_REFRESH sets the refresh rate, with
DERATED where it goes from 0 to 1. A Slab bank in retention shows software nothing. -/
def Obligations.DdrChannelsAndSlab : Prop :=
  ((∀ (c : Fin 16) (s : State), s.Up →
     ∃ t, Sys2Proof.Machine.exec (.prechargePowerDownEntry c) s = .next t ∧
       (let work := (s.chan c).count * s.f (Reg.MC_STALL_T_REQ_NS c)
        let idle := s.chanBusy c = false ∧ (s.chan c).busy + 3 * s.f (Reg.MC_PWR_CFG_PD_IDLE_NS c) ≤ s.fclk
        let enters := s.mcState c = 1 ∧ s.fb (Reg.MC_PWR_CFG_PD_EN c) = true ∧ idle ∧
          s.f (Reg.MC_TIMING_PD_EXIT_NS c) + work + s.f (Reg.MC_PWR_CFG_MARGIN_NS c) ≤ s.f (Reg.MC_TOL_NS c)
        (¬ enters → Nothing s t) ∧
        (enters → t.mcState c = 2 ∧ t.chan c = { s.chan c with since := s.fclk } ∧ RegsBut [Reg.MC_STATE c] s t ∧
          t = { s with cycle := t.cycle, regs := t.regs, chans := t.chans }))) ∧
   (∀ (c : Fin 16) (s : State), s.Up →
     ∃ t, Sys2Proof.Machine.exec (.selfRefreshEntry c) s = .next t ∧
       (let work := (s.chan c).count * s.f (Reg.MC_STALL_T_REQ_NS c)
        let idle := s.chanBusy c = false ∧ (s.chan c).busy + 3000 * s.f (Reg.MC_PWR_CFG_SR_IDLE_US c) ≤ s.fclk
        let enters := (s.mcState c = 1 ∨ s.mcState c = 2) ∧ s.fb (Reg.MC_PWR_CFG_SR_EN c) = true ∧ idle ∧
          s.f (Reg.MC_TIMING_SR_EXIT_NS c) + work + s.f (Reg.MC_PWR_CFG_MARGIN_NS c) ≤ s.f (Reg.MC_TOL_NS c)
        (¬ enters → Nothing s t) ∧
        (enters → t.mcState c = 3 ∧
          t.chan c = { s.chan c with since := s.fclk, pd := (s.chan c).pd + if s.mcState c = 2 then s.fclk - (s.chan c).since else 0 } ∧
          RegsBut [Reg.MC_STATE c] s t ∧ t = { s with cycle := t.cycle, regs := t.regs, chans := t.chans }))) ∧
   (∀ (c : Fin 16) (s : State), s.Up →
     ∃ t, Sys2Proof.Machine.exec (.lowPowerExit c) s = .next t ∧
       (let exit := if s.mcState c = 2 then s.f (Reg.MC_TIMING_PD_EXIT_NS c) else s.f (Reg.MC_TIMING_SR_EXIT_NS c)
        let work := (s.chan c).count * s.f (Reg.MC_STALL_T_REQ_NS c)
        let wakes := (s.mcState c = 2 ∨ s.mcState c = 3) ∧
          (s.chanBusy c = true ∨ s.f (Reg.MC_TOL_NS c) < exit + work + s.f (Reg.MC_PWR_CFG_MARGIN_NS c))
        let stay := s.fclk - (s.chan c).since
        (¬ wakes → Nothing s t) ∧
        (wakes → t.mcState c = 1 ∧
          t.chan c = { s.chan c with since := s.fclk, pd := (s.chan c).pd + (if s.mcState c = 2 then stay else 0),
                                     sr := (s.chan c).sr + (if s.mcState c = 3 then stay else 0) } ∧
          RegsBut [Reg.MC_STATE c] s t ∧ t = { s with cycle := t.cycle, regs := t.regs, chans := t.chans }))) ∧
   (∀ (c : Fin 16) (s : State), s.Up →
     ∃ t, Sys2Proof.Machine.exec (.refresh c) s = .next t ∧
       (let open_ := s.mcState c = 1 ∨ s.mcState c = 2
        let work := (s.chan c).count * s.f (Reg.MC_STALL_T_REQ_NS c)
        let covered := (if s.f (Reg.MC_STATE_DENSITY c) = 0 then 350 else 550) + work + s.f (Reg.MC_PWR_CFG_MARGIN_NS c) ≤ s.f (Reg.MC_TOL_NS c)
        let n := (s.chan c).postponed
        (¬ open_ → Nothing s t) ∧
        (open_ → t.chan c = { s.chan c with postponed := if covered then 0 else if n < 8 then n + 1 else n,
                                            caTries := if covered ∨ 8 ≤ n then 0 else (s.chan c).caTries })) ∧
       (∀ k : Fin 16, k ≠ c → t.chan k = s.chan k) ∧ t = { s with cycle := t.cycle, chans := t.chans }) ∧
   (∀ (c : Fin 16) (s : State), s.Up →
     ∃ t, Sys2Proof.Machine.exec (.caParityAlert c) s = .next t ∧
       (let lives := s.mcState c ≠ 0 ∧ s.mcState c ≠ 4
        let again := (s.chan c).caTries < 3
        (¬ lives → Nothing s t) ∧
        (lives → again → (t.chan c).caTries = (s.chan c).caTries + 1 ∧ t.mcState c = s.mcState c ∧
          t.f (Reg.MC_ECC_COUNTS_CA_RETRY c) = min (s.f (Reg.MC_ECC_COUNTS_CA_RETRY c) + 1) 255 ∧
          Raised (Reg.MC_BLOCK_STATUS c) [Flag.MC_CA_PARITY] s t) ∧
        (lives → ¬ again → t.mcState c = 4 ∧ Raised (Reg.MC_BLOCK_STATUS c) [Flag.MC_CA_PARITY, Flag.MC_FAULT] s t)) ∧
       (∀ k : Fin 16, k ≠ c → t.chan k = s.chan k) ∧
       RegsBut [Reg.MC_STATE c, Reg.MC_ECC_COUNTS c, Reg.MC_BLOCK_STATUS c] s t ∧
       t = { s with cycle := t.cycle, regs := t.regs, chans := t.chans }) ∧
   (∀ (c : Fin 16) (s : State), s.Up →
     ∃ t, Sys2Proof.Machine.exec (.wrCrcAlert c) s = .next t ∧
       (let lives := s.mcState c ≠ 0 ∧ s.mcState c ≠ 4
        let again := (s.chan c).crcTries < 3
        (¬ lives → Nothing s t) ∧
        (lives → again → (t.chan c).crcTries = (s.chan c).crcTries + 1 ∧ t.mcState c = s.mcState c ∧
          t.f (Reg.MC_ECC_COUNTS_WR_RETRY c) = min (s.f (Reg.MC_ECC_COUNTS_WR_RETRY c) + 1) 255 ∧
          Raised (Reg.MC_BLOCK_STATUS c) [Flag.MC_WR_CRC] s t) ∧
        (lives → ¬ again → t.mcState c = 4 ∧ Raised (Reg.MC_BLOCK_STATUS c) [Flag.MC_WR_CRC, Flag.MC_FAULT] s t)) ∧
       (∀ k : Fin 16, k ≠ c → t.chan k = s.chan k) ∧
       RegsBut [Reg.MC_STATE c, Reg.MC_ECC_COUNTS c, Reg.MC_BLOCK_STATUS c] s t ∧
       t = { s with cycle := t.cycle, regs := t.regs, chans := t.chans })) ∧
  ((∀ (c : Fin 16) (a : Addr) (e : Ecc) (scrub : Bool) (w : Nat × Nat) (s : State), s.Up → slabWord a.toNat = some w →
     ∃ t, Sys2Proof.Machine.exec (.mcReadComplete c a e scrub) s = .next t ∧
       (let word := a.toNat / 8 * 8
        let served := scrub = false ∨ (s.fb Reg.SLAB_SCRUB_EN = true ∧ s.ddrReady = true)
        let bad := e = .uncorrectable ∨ word ∈ s.poison
        (¬ served ∨ (¬ bad ∧ e ≠ .correctable) → Nothing s t) ∧
        (served → bad → word ∈ t.poison ∧ (∀ x ∈ t.poison, x ∈ s.poison ∨ x = word) ∧ (∀ x ∈ s.poison, x ∈ t.poison) ∧
          t.f Reg.SLAB_ECC_COUNTS_UE = min (s.f Reg.SLAB_ECC_COUNTS_UE + 1) 0xFFFF ∧
          t.reg Reg.SLAB_UE_LOG = BitVec.ofNat 64 (2 ^ 63 + w.1 * 2 ^ 60 + w.2 % 2 ^ 28) ∧
          Raised Reg.SLAB_BLOCK_STATUS [Flag.SLAB_UE] s t) ∧
        (served → ¬ bad → e = .correctable → t.poison = s.poison ∧
          t.f Reg.SLAB_ECC_COUNTS_CE = min (s.f Reg.SLAB_ECC_COUNTS_CE + 1) 0xFFFFFFFF ∧
          Raised Reg.SLAB_BLOCK_STATUS [Flag.SLAB_CE] s t)) ∧
       RegsBut [Reg.SLAB_ECC_COUNTS, Reg.SLAB_UE_LOG, Reg.SLAB_BLOCK_STATUS] s t ∧
       t = { s with cycle := t.cycle, regs := t.regs, poison := t.poison }) ∧
   (∀ (c : Fin 16) (a : Addr) (e : Ecc) (scrub : Bool) (s : State), s.Up → bits a.toNat 39 24 = 0xE200 →
     ∃ t, Sys2Proof.Machine.exec (.mcReadComplete c a e scrub) s = .next t ∧
       (let o := a.toNat % 2 ^ 24
        let n := o / 0x80000
        let i := o % 256 / 8 * 8
        let held := (s.engine n).buf[o % 0x80000 / 256]?
        let served := scrub = false ∨ (s.fb Reg.SLAB_SCRUB_EN = true ∧ s.ddrReady = true)
        (¬ served ∨ e = .clean → Nothing s t) ∧
        (served → e = .correctable → t.f Reg.SLAB_ECC_COUNTS_CE = min (s.f Reg.SLAB_ECC_COUNTS_CE + 1) 0xFFFFFFFF ∧
          Raised Reg.SLAB_BLOCK_STATUS [Flag.SLAB_CE] s t ∧ RegsBut [Reg.SLAB_ECC_COUNTS, Reg.SLAB_BLOCK_STATUS] s t ∧
          t.engines = s.engines) ∧
        (served → e = .uncorrectable →
          t.f Reg.SLAB_ECC_COUNTS_UE = min (s.f Reg.SLAB_ECC_COUNTS_UE + 1) 0xFFFF ∧
          t.reg Reg.SLAB_UE_LOG = BitVec.ofNat 64 (2 ^ 63 + 2 * 2 ^ 60 + o / 8 * 8) ∧
          Raised Reg.SLAB_BLOCK_STATUS [Flag.SLAB_UE] s t ∧
          (∀ x, held = some x →
            t.f (Reg.LE_EVENTS_POISON_BURSTS n) = min (s.f (Reg.LE_EVENTS_POISON_BURSTS n) + 1) 0xFFF ∧
            Raised (Reg.LE_BLOCK_STATUS n) [Flag.LE_POISON] s t ∧
            (t.engine n).buf = Tab.put (s.engine n).buf x.1 (x.2.take i ++ List.replicate 8 0 ++ x.2.drop (i + 8)) ∧
            t.engine n = { s.engine n with buf := (t.engine n).buf } ∧ (∀ k, k ≠ n → t.engine k = s.engine k)) ∧
          (held = none → t.engines = s.engines ∧ RegsBut [Reg.SLAB_ECC_COUNTS, Reg.SLAB_UE_LOG, Reg.SLAB_BLOCK_STATUS] s t)) ∧
        RegsBut [Reg.SLAB_ECC_COUNTS, Reg.SLAB_UE_LOG, Reg.SLAB_BLOCK_STATUS, Reg.LE_EVENTS n, Reg.LE_BLOCK_STATUS n] s t) ∧
       t = { s with cycle := t.cycle, regs := t.regs, engines := t.engines }) ∧
   (∀ (c : Fin 16) (a : Addr) (e : Ecc) (scrub : Bool) (s : State), s.Up → slabWord a.toNat = none → bits a.toNat 39 24 ≠ 0xE200 →
     ∃ t, Sys2Proof.Machine.exec (.mcReadComplete c a e scrub) s = .next t ∧
       (let word := a.toNat / 8 * 8
        let served := s.mcState c = 1 ∧ a.toNat / 256 % 16 = c ∧ a.toNat < s.capacity ∧
          (scrub = false ∨ (s.fb (Reg.MC_SCRUB_EN c) = true ∧ s.sourceStalled (192 + c) = false))
        let told := { s.chan c with caTries := 0 }
        (served → t.chan c = if scrub = true then told.add .blit { src := 192 + c, addr := a.toNat / 256 * 256 } else told) ∧
        let bad := e = .uncorrectable ∨ word ∈ s.poison
        (¬ served → Nothing s t) ∧
        (served → bad → word ∈ t.poison ∧ (∀ w ∈ t.poison, w ∈ s.poison ∨ w = word) ∧ (∀ w ∈ s.poison, w ∈ t.poison) ∧
          t.f (Reg.MC_ECC_COUNTS_UE c) = min (s.f (Reg.MC_ECC_COUNTS_UE c) + 1) 0xFFFF ∧
          t.f (Reg.MC_ECC_LOG_UE c) = 1 ∧ t.f (Reg.MC_ECC_LOG_SCRUB c) = (if scrub = true then 1 else 0) ∧
          t.f (Reg.MC_ECC_LOG_ADDR c) = word ∧ Raised (Reg.MC_BLOCK_STATUS c) [Flag.MC_UE] s t) ∧
        (served → ¬ bad → t.poison = s.poison) ∧
        (served → ¬ bad → e = .correctable →
          t.f (Reg.MC_ECC_COUNTS_CE c) = min (s.f (Reg.MC_ECC_COUNTS_CE c) + 1) (2 ^ 32 - 1) ∧
          t.f (Reg.MC_ECC_LOG_UE c) = 0 ∧ t.f (Reg.MC_ECC_LOG_SCRUB c) = (if scrub = true then 1 else 0) ∧
          t.f (Reg.MC_ECC_LOG_ADDR c) = word ∧ Raised (Reg.MC_BLOCK_STATUS c) [Flag.MC_CE] s t) ∧
        (served → ¬ bad → e ≠ .correctable → RegsBut [] s t)) ∧
        (∀ k : Fin 16, k ≠ c → t.chan k = s.chan k) ∧
       RegsBut [Reg.MC_ECC_COUNTS c, Reg.MC_ECC_LOG c, Reg.MC_BLOCK_STATUS c] s t ∧
       t = { s with cycle := t.cycle, regs := t.regs, chans := t.chans, poison := t.poison }) ∧
   (∀ (c : Fin 16) (s : State), s.Up →
     ∃ t, Sys2Proof.Machine.exec (.mcScrubPassDone c) s = .next t ∧
       (let scrubs := s.ddrReady = true ∧ s.fb (Reg.MC_SCRUB_EN c) = true ∧ (s.mcState c = 1 ∨ s.mcState c = 2)
        Raised (Reg.MC_BLOCK_STATUS c) (if scrubs then [Flag.MC_SCRUB_DONE] else []) s t) ∧
       OnlyEvent [Reg.MC_BLOCK_STATUS c] s t) ∧
   (∀ s : State, s.Up →
     ∃ t, Sys2Proof.Machine.exec .slabScrubPassDone s = .next t ∧
       Raised Reg.SLAB_BLOCK_STATUS (if s.ddrReady = true ∧ s.fb Reg.SLAB_SCRUB_EN = true then [Flag.SLAB_SCRUB_DONE] else []) s t ∧
       OnlyEvent [Reg.SLAB_BLOCK_STATUS] s t) ∧
   (∀ (bank : Nat) (s : State), s.Up →
     ∃ t, Sys2Proof.Machine.exec (.slabRetentionEntry bank) s = .next t ∧ Nothing s t) ∧
   (∀ (r : Req) (c : Fin 16) (d : Half) (s : State), s.Up → s.passes r (Reg.MC_REFRESH c) .w32 true = true →
     ∃ t, Sys2Proof.Machine.exec (.mcRefreshWrite r c d) s = .next t ∧ Answered r 0 s t ∧
       t.f (Reg.MC_REFRESH_DOUBLE c) = bits d.toNat 0 0 ∧ t.f (Reg.MC_STATE_DERATED c) = bits d.toNat 0 0 ∧
       t.mcState c = s.mcState c ∧
       Raised (Reg.MC_BLOCK_STATUS c)
         (if s.f (Reg.MC_REFRESH_DOUBLE c) = 0 ∧ bit d.toNat 0 = true then [Flag.MC_DERATED] else []) s t ∧
       OnlyRegs [Reg.MC_REFRESH c, Reg.MC_STATE c, Reg.MC_BLOCK_STATUS c] s t))

/-! ### Interrupts and cores -/

/-- R524, R527: a claim by its owner answers the pending enabled source of highest priority above the threshold, of lowest
number among equals, and the source is no longer pending; 0 where none; a completion makes it pending again while
asserted. A running core takes its machine timer interrupt while Device Time has reached its APPCX_MTIMECMP, a write of
which counts at once. R521, R538, R571: on a GX8128-M a write of APPCX_CORE_CTRL runs the cores whose bits are 1 and
resets those whose bits are 0, which ends their halts and frees the semaphores they hold; the running ones take their
machine timer interrupts where time has reached their APPCX_MTIMECMP (R524). On a GX8128-W, which has no application
cores, it does nothing. R558, R559: with DM_EN 1 a debugger activates the debug module, which sets ATTACHED and
DM_ACTIVATED, and deactivates it; an active module halts a running core whose HALT_EN bit is 1, sets HALT_REFUSED for one
whose bit is 0, and takes a core out of its halt; a halt request for an allowed core that is not released does nothing
(log entry 44). -/
def Obligations.CoresInterruptsAndDebug : Prop :=
  ((∀ (r : Req) (ctx : Fin 17) (s : State), s.Up →
     s.passes r (if ctx.val < 16 then Reg.PLIC_CLAIM ctx else Reg.PLIC_CLAIM_K) .w32 false = true →
     ∃ t n, Sys2Proof.Machine.exec (.plicClaim r ctx) s = .next t ∧ Answered r n s t ∧
       (let may (k : Nat) : Prop := k < 256 ∧ s.pendingSrc k = true ∧ s.plicEnabled ctx k = true ∧ s.plicThreshold ctx < s.plicPrio k
        (plicOwner ctx r = false → n = 0) ∧
        (plicOwner ctx r = true → n = 0 → ∀ k, ¬ may k) ∧
        (n ≠ 0 → plicOwner ctx r = true ∧ may n ∧
          (∀ k, may k → s.plicPrio k < s.plicPrio n ∨ (s.plicPrio k = s.plicPrio n ∧ n ≤ k)) ∧ t.pendingSrc n = false) ∧
        (∀ k, k ≠ n → t.pendingSrc k = s.pendingSrc k)) ∧
       t = { s with cycle := t.cycle, bus := { s.bus with resp := t.bus.resp },
                    serv := { s.serv with claimed := if n = 0 then s.serv.claimed else setAdd s.serv.claimed n } }) ∧
   (∀ (r : Req) (ctx : Fin 17) (d : Half) (s : State), s.Up →
     s.passes r (if ctx.val < 16 then Reg.PLIC_CLAIM ctx else Reg.PLIC_CLAIM_K) .w32 true = true →
     ∃ t, Sys2Proof.Machine.exec (.plicComplete r ctx d) s = .next t ∧ Answered r 0 s t ∧
       (let n := bits d.toNat 7 0
        t.pendingSrc n = (decide (n ≠ 0) && s.asserted n) ∧
        (∀ k, k ≠ n → t.pendingSrc k = s.pendingSrc k) ∧
        t = { s with cycle := t.cycle, bus := { s.bus with resp := t.bus.resp },
                     serv := { s.serv with claimed := s.serv.claimed.filter (· != n) } })) ∧
   (∀ (k : Fin 8) (s : State), s.Up →
     ∃ t, Sys2Proof.Machine.exec (.machineTimerInterrupt k) s = .next t ∧
       (k.val ∈ t.serv.timer ↔ bit (s.f Reg.APPCX_CORE_STATE_RUNNING) k = true ∧ s.f (Reg.APPCX_MTIMECMP_CMP k) ≤ s.tq / 65536) ∧
       (∀ j, j ≠ k.val → (j ∈ t.serv.timer ↔ j ∈ s.serv.timer)) ∧
       t = { s with cycle := t.cycle, serv := { s.serv with timer := t.serv.timer } }) ∧
   (∀ (r : Req) (k : Fin 8) (d : Word) (s : State), s.Up → s.passes r (Reg.APPCX_MTIMECMP k) .w64 true = true →
     ∃ t, Sys2Proof.Machine.exec (.registerWrite r (BitVec.ofNat 40 (Reg.APPCX_MTIMECMP k)) .w64 d) s = .next t ∧ Answered r 0 s t ∧
       t.f (Reg.APPCX_MTIMECMP_CMP k) = d.toNat ∧
       (k.val ∈ t.serv.timer ↔ bit (s.f Reg.APPCX_CORE_STATE_RUNNING) k = true ∧ d.toNat ≤ s.tq / 65536) ∧
       (∀ j, j ≠ k.val → (j ∈ t.serv.timer ↔ j ∈ s.serv.timer)) ∧ RegsBut [Reg.APPCX_MTIMECMP k] s t ∧
       t = { s with regs := t.regs, cycle := t.cycle, serv := { s.serv with timer := t.serv.timer },
                    bus := { s.bus with resp := t.bus.resp, hold := t.bus.hold, stage := t.bus.stage } })) ∧
  ((∀ (r : Req) (d : Half) (s : State), s.Up → s.passes r Reg.APPCX_CORE_CTRL .w32 true = true → s.isM = true →
     ∃ t, Sys2Proof.Machine.exec (.coreRelease r d) s = .next t ∧ Sys2Proof.Machine.exec (.coreReset r d) s = .next t ∧
       Answered r 0 s t ∧
       (let v := bits d.toNat 7 0
        t.f Reg.APPCX_CORE_CTRL_RELEASE = v ∧ t.f Reg.APPCX_CORE_STATE_RUNNING = v ∧
        (∀ k : Fin 8, bit (t.f Reg.APPCX_CORE_STATE_HALTED) k = (bit (s.f Reg.APPCX_CORE_STATE_HALTED) k && bit v k)) ∧
        t.f Reg.DBG_STATE_HALTED = t.f Reg.APPCX_CORE_STATE_HALTED ∧ t.f Reg.DBG_STATE_ATTACHED = s.f Reg.DBG_STATE_ATTACHED ∧
        (∀ k : Fin 8, k.val ∈ t.serv.timer ↔ bit v k = true ∧ s.f (Reg.APPCX_MTIMECMP_CMP k) ≤ s.tq / 65536) ∧
        (∀ k, 8 ≤ k → (k ∈ t.serv.timer ↔ k ∈ s.serv.timer)) ∧
        (∀ x, x ∈ t.bus.semOwner ↔ x ∈ s.bus.semOwner ∧ ∀ k : Fin 8, bit v k = false → x.2 ≠ k.val + 1)) ∧
       RegsBut [Reg.APPCX_CORE_CTRL, Reg.APPCX_CORE_STATE, Reg.DBG_STATE] s t ∧
       t = { s with cycle := t.cycle, regs := t.regs, serv := { s.serv with timer := t.serv.timer },
                    bus := { s.bus with resp := t.bus.resp, semOwner := t.bus.semOwner } }) ∧
   (∀ (r : Req) (d : Half) (s : State), s.Up → s.passes r Reg.APPCX_CORE_CTRL .w32 true = true → s.isM = false →
     ∃ t, Sys2Proof.Machine.exec (.coreRelease r d) s = .next t ∧ Sys2Proof.Machine.exec (.coreReset r d) s = .next t ∧
       Answered r 0 s t ∧ OnlyRegs [] s t)) ∧
  ((∀ s : State, s.Up →
     ∃ t, Sys2Proof.Machine.exec .dmActivated s = .next t ∧
       (s.fb Reg.DBG_CTRL_DM_EN = false → Nothing s t) ∧
       (s.fb Reg.DBG_CTRL_DM_EN = true → t.f Reg.DBG_STATE_ATTACHED = 1 ∧ t.f Reg.DBG_STATE_HALTED = s.f Reg.DBG_STATE_HALTED ∧
         Raised Reg.DEBUG_BLOCK_STATUS [Flag.DEBUG_DM_ACTIVATED] s t) ∧
       OnlyEvent [Reg.DBG_STATE, Reg.DEBUG_BLOCK_STATUS] s t) ∧
   (∀ s : State, s.Up →
     ∃ t, Sys2Proof.Machine.exec .dmDeactivated s = .next t ∧
       (s.fb Reg.DBG_CTRL_DM_EN = false → Nothing s t) ∧
       (s.fb Reg.DBG_CTRL_DM_EN = true → t.f Reg.DBG_STATE_ATTACHED = 0 ∧ t.f Reg.DBG_STATE_HALTED = s.f Reg.DBG_STATE_HALTED) ∧
       OnlyEvent [Reg.DBG_STATE] s t) ∧
   (∀ (k : Fin 8) (s : State), s.Up →
     ∃ t, Sys2Proof.Machine.exec (.debugHaltRequest k) s = .next t ∧
       (let active := s.fb Reg.DBG_CTRL_DM_EN = true ∧ s.fb Reg.DBG_STATE_ATTACHED = true
        let allowed := bit (s.f Reg.DBG_CTRL_HALT_EN) k = true
        let runs := bit (s.f Reg.APPCX_CORE_STATE_RUNNING) k = true
        (active → allowed → runs →
          (∀ j : Fin 8, bit (t.f Reg.DBG_STATE_HALTED) j = (bit (s.f Reg.DBG_STATE_HALTED) j || decide (j = k))) ∧
          t.f Reg.APPCX_CORE_STATE_HALTED = t.f Reg.DBG_STATE_HALTED ∧
          t.f Reg.APPCX_CORE_STATE_RUNNING = s.f Reg.APPCX_CORE_STATE_RUNNING ∧
          t.f Reg.DBG_STATE_ATTACHED = s.f Reg.DBG_STATE_ATTACHED ∧
          OnlyEvent [Reg.DBG_STATE, Reg.APPCX_CORE_STATE] s t) ∧
        (active → ¬ allowed →
          Raised Reg.DEBUG_BLOCK_STATUS [Flag.DEBUG_HALT_REFUSED] s t ∧ OnlyEvent [Reg.DEBUG_BLOCK_STATUS] s t) ∧
        (¬ active ∨ (allowed ∧ ¬ runs) → Nothing s t))) ∧
   (∀ (k : Fin 8) (s : State), s.Up →
     ∃ t, Sys2Proof.Machine.exec (.debugResume k) s = .next t ∧
       (let active := s.fb Reg.DBG_CTRL_DM_EN = true ∧ s.fb Reg.DBG_STATE_ATTACHED = true
        (¬ active → Nothing s t) ∧
        (active →
          (∀ j : Fin 8, bit (t.f Reg.DBG_STATE_HALTED) j = (bit (s.f Reg.DBG_STATE_HALTED) j && decide (j ≠ k))) ∧
          t.f Reg.APPCX_CORE_STATE_HALTED = t.f Reg.DBG_STATE_HALTED ∧
          t.f Reg.APPCX_CORE_STATE_RUNNING = s.f Reg.APPCX_CORE_STATE_RUNNING ∧
          t.f Reg.DBG_STATE_ATTACHED = s.f Reg.DBG_STATE_ATTACHED)) ∧
       OnlyEvent [Reg.DBG_STATE, Reg.APPCX_CORE_STATE] s t))

/-! ### Mailboxes and management Ethernet -/

/-- R529, R530, R532, R536: the sender writes message words on a channel that is not SENT; its SEND on an enabled, locked
binding takes the channel to SENT and sets the receiver's pending bit, the receiver's ACK takes it to ACKED and sets the
sender's, the sender's DONE takes it to IDLE. Another write is refused for the first reason that applies: the order of the
reasons is log entry 112. A channel left SENT times out to ACKED with CODE 0xFFFF. -/
def Obligations.Mailboxes : Prop :=
  (∀ (r : Req) (n : Fin 64) (w : Fin 16) (d : Half) (s : State), s.Up → s.passes r (Reg.MB_MSG n w) .w32 true = true →
    ∃ t, Sys2Proof.Machine.exec (.mbMsgWrite r n w d) s = .next t ∧ Answered r 0 s t ∧
      (let code := if r.master.val ≠ s.mbSender n then 2 else if s.mbState n = 1 then 4 else 0
       (code = 0 → bits (t.reg (Reg.MB_MSG n w)).toNat 31 0 = d.toNat ∧ OnlyRegs [Reg.MB_MSG n w] s t) ∧
       (code ≠ 0 → MailRefused n r.master code Flag.MAILBOX_WRITE_REFUSED s t))) ∧
  (∀ (r : Req) (n : Fin 64) (d : Half) (s : State), s.Up → s.passes r (Reg.MB_SEND n) .w32 true = true →
    ∃ t, Sys2Proof.Machine.exec (.mbSend r n d) s = .next t ∧ Answered r 0 s t ∧
      (let len := bits d.toNat 20 16
       let code := if s.fb (Reg.MB_BIND_EN n) = false ∨ s.fb Reg.MB_BIND_LOCK_LOCKED = false then 1
         else if r.master.val ≠ s.mbSender n then 2 else if s.mbState n = 1 then 4 else if len = 0 ∨ 16 < len then 5 else 0
       (code ≠ 0 → MailRefused n r.master code Flag.MAILBOX_SEND_REFUSED s t) ∧
       (code = 0 → t.mbState n = 1 ∧ t.f (Reg.MB_STATE_TIMED_OUT n) = 0 ∧ t.f (Reg.MB_STATE_LEN n) = len ∧
         t.f (Reg.MB_TAG_TAG n) = bits d.toNat 15 0 ∧ t.f (Reg.MB_TAG_SENDS n) = (s.f (Reg.MB_TAG_SENDS n) + 1) % 65536 ∧
         (s.mbReceiver n < 18 → PendSet (Reg.MB_RX_PEND (s.mbReceiver n)) n true s t) ∧
         (s.mbSender n < 18 → PendSet (Reg.MB_ACK_PEND (s.mbSender n)) n false s t) ∧
         (s.mbReceiver n ≠ 15 → OnlyRegs [Reg.MB_STATE n, Reg.MB_TAG n, Reg.MB_RX_PEND (s.mbReceiver n),
           Reg.MB_ACK_PEND (s.mbSender n)] s t)))) ∧
  (∀ (r : Req) (n : Fin 64) (d : Half) (s : State), s.Up → s.passes r (Reg.MB_ACK n) .w32 true = true →
    ∃ t, Sys2Proof.Machine.exec (.mbAck r n d) s = .next t ∧ Answered r 0 s t ∧
      (let code := if r.master.val ≠ s.mbReceiver n then 3 else if s.mbState n ≠ 1 then 6
         else if bits d.toNat 15 0 = 0xFFFF then 7 else 0
       (code ≠ 0 → MailRefused n r.master code Flag.MAILBOX_ACK_REFUSED s t) ∧
       (code = 0 → t.mbState n = 2 ∧ t.f (Reg.MB_REPLY_STATUS n) = bits d.toNat 31 16 ∧
         t.f (Reg.MB_REPLY_CODE n) = bits d.toNat 15 0 ∧
         (s.mbReceiver n < 18 → PendSet (Reg.MB_RX_PEND (s.mbReceiver n)) n false s t) ∧
         (s.mbSender n < 18 → PendSet (Reg.MB_ACK_PEND (s.mbSender n)) n true s t) ∧
         (s.mbSender n ≠ 15 → OnlyRegs [Reg.MB_STATE n, Reg.MB_REPLY n, Reg.MB_RX_PEND (s.mbReceiver n),
           Reg.MB_ACK_PEND (s.mbSender n)] s t)))) ∧
  (∀ (r : Req) (n : Fin 64) (d : Half) (s : State), s.Up → s.passes r (Reg.MB_DONE n) .w32 true = true →
    ∃ t, Sys2Proof.Machine.exec (.mbDone r n d) s = .next t ∧ Answered r 0 s t ∧
      (let code := if r.master.val ≠ s.mbSender n then 2 else if s.mbState n ≠ 2 then 8 else 0
       (code ≠ 0 → MailRefused n r.master code Flag.MAILBOX_WRITE_REFUSED s t) ∧
       (code = 0 → t.mbState n = 0 ∧ (s.mbSender n < 18 → PendSet (Reg.MB_ACK_PEND (s.mbSender n)) n false s t) ∧
         OnlyRegs [Reg.MB_STATE n, Reg.MB_ACK_PEND (s.mbSender n)] s t))) ∧
  (∀ (n : Fin 64) (s : State), s.Up →
    ∃ t, Sys2Proof.Machine.exec (.mbAckTimeout n) s = .next t ∧
      (let ends := s.mbState n = 1 ∧ s.f (Reg.MB_BIND_ACK_TIMEOUT_US n) ≠ 0
       (¬ ends → Nothing s t) ∧
       (ends → t.mbState n = 2 ∧ t.f (Reg.MB_STATE_TIMED_OUT n) = 1 ∧ t.f (Reg.MB_REPLY_CODE n) = 0xFFFF ∧
         t.f (Reg.MB_REPLY_STATUS n) = 0 ∧
         (s.mbReceiver n < 18 → PendSet (Reg.MB_RX_PEND (s.mbReceiver n)) n false s t) ∧
         (s.mbSender n < 18 → PendSet (Reg.MB_ACK_PEND (s.mbSender n)) n true s t) ∧
         Raised Reg.MAILBOX_BLOCK_STATUS [Flag.MAILBOX_TIMEOUT] s t ∧
         (s.mbSender n ≠ 15 → OnlyEvent [Reg.MB_STATE n, Reg.MB_REPLY n, Reg.MB_RX_PEND (s.mbReceiver n),
           Reg.MB_ACK_PEND (s.mbSender n), Reg.MAILBOX_BLOCK_STATUS] s t))))

/-- R544 to R547: a write of MMAC_CFG that changes the mode, the rate or a polarity drops the link (and so does EN 0, log entry
110); a link change is shown
and flagged. A received frame is counted as bad, given to the Keeper as PTP, filtered, dropped for want of a slot, or
written with its length and arrival time; while a full queue stalls identity 17 it waits, in order (R502, log entry 45). Slots up to
MMAC_TX_PROD are sent in order, one of a bad length is skipped, and a sent one takes its departure time. The Delay_Req that
answers a Sync of the selected master goes before them, takes no slot and is timestamped (R109 to R111, log entry 103). -/
def Obligations.ManagementEthernet : Prop :=
  (∀ (r : Req) (m : Fin 2) (d : Half) (s : State), s.Up → s.passes r (Reg.MMAC_CFG m) .w32 true = true →
    ∃ t, Sys2Proof.Machine.exec (.mmacCfgWrite r m d) s = .next t ∧ Answered r 0 s t ∧
      (∀ b, 23 ≤ b → b < 32 → bit (t.reg (Reg.MMAC_CFG m)).toNat b = bit d.toNat b) ∧ SameMem s t ∧
      (let old := (s.reg (Reg.MMAC_CFG m)).toNat
       let drops := bits old 30 27 ≠ bits d.toNat 30 27 ∨ bits old 24 23 ≠ bits d.toNat 24 23 ∨
         (bit old 31 = true ∧ bit d.toNat 31 = false)
       (drops → t.f (Reg.MMAC_LINK_LINK_UP m) = 0 ∧ t.f (Reg.MMAC_LINK_AN_DONE m) = 0 ∧
         t.f (Reg.MMAC_LINK_RATE m) = s.f (Reg.MMAC_LINK_RATE m) ∧
         t.serv = { s.serv with mmacTx := Tab.del s.serv.mmacTx m } ∧
         Raised (Reg.MMAC_STATUS m)
           (if s.fb (Reg.MMAC_LINK_LINK_UP m) = true then [Flag.MMAC_STATUS_LINK_CHANGE] else []) s t ∧
         RegsBut [Reg.MMAC_CFG m, Reg.MMAC_LINK m, Reg.MMAC_STATUS m] s t) ∧
       (¬ drops → t.reg (Reg.MMAC_LINK m) = s.reg (Reg.MMAC_LINK m)))) ∧
  (∀ (m : Fin 2) (up anDone : Bool) (rate : Fin 4) (s : State), s.Up →
    ∃ t, Sys2Proof.Machine.exec (.mmacLinkChange m up anDone rate) s = .next t ∧ SameMem s t ∧
      (s.fb (Reg.MMAC_CFG_EN m) = false → Nothing s t) ∧
      (s.fb (Reg.MMAC_CFG_EN m) = true →
        (let base := s.fb (Reg.MMAC_CFG_MODE m) = true
         let an := s.fb (Reg.MMAC_CFG_AN_EN m) = true ∧ ¬ base
         t.f (Reg.MMAC_LINK_LINK_UP m) = (if up = true then 1 else 0) ∧
         t.f (Reg.MMAC_LINK_AN_DONE m) = (if an ∧ anDone = true then 1 else 0) ∧
         t.f (Reg.MMAC_LINK_RATE m) =
           (if base then 3 else if an then min rate.val 2 else min (s.f (Reg.MMAC_CFG_SPEED m)) 2) ∧
         t.flagSet (Reg.MMAC_STATUS m) Flag.MMAC_STATUS_LINK_CHANGE = true ∧
         (up = false → t.serv = { s.serv with mmacTx := Tab.del s.serv.mmacTx m } ∧
           Raised (Reg.MMAC_STATUS m) [Flag.MMAC_STATUS_LINK_CHANGE] s t ∧
           RegsBut [Reg.MMAC_LINK m, Reg.MMAC_STATUS m] s t)))) ∧
  (∀ (m : Fin 2) (frame : List Byte) (fcsOk : Bool) (s : State), s.Up →
    ∃ t, Sys2Proof.Machine.exec (.mmacRxFrame m frame fcsOk) s = .next t ∧
      (let on := s.fb (Reg.MMAC_CFG_EN m) = true
       let bad := fcsOk = false ∨ frame.length < 64 ∨ 9216 < frame.length
       let slots := s.f (Reg.MMAC_RX_CFG_SLOTS m)
       let prod := s.f (Reg.MMAC_RX_PROD_INDEX m)
       let full := s.fb (Reg.MMAC_RX_CFG_EN m) = false ∨ (prod + 2 ^ 32 - s.f (Reg.MMAC_RX_CONS_INDEX m)) % 2 ^ 32 = slots
       let a := 256 * s.f (Reg.MMAC_RX_BASE_BASE m) + 9472 * (prod % slots)
       let n := frame.length - 4
       (¬ on ∨ (¬ bad ∧ isPause frame = true) → Nothing s t) ∧
       (on → bad → t.f (Reg.MMAC_RX_COUNTS_ERRORS m) = min (s.f (Reg.MMAC_RX_COUNTS_ERRORS m) + 1) 0xFFFF ∧
         OnlyEvent [Reg.MMAC_RX_COUNTS m] s t) ∧
       (∀ msg, on → ¬ bad → isPause frame = false → s.mmacPtp m frame = some msg →
         (ptpTaken msg = false → Tab.find s.serv.mmacReq m = none → Nothing s t) ∧
         (∀ e, ptpTaken msg = true → s.ptpEntry (0x80 + m) = some e →
           t.time.ptpIn = { entry := e, tq := (s.tq : Int) - (65536 * s.f (Reg.TB_PTP_PORT_RX_LAT e) : Nat), msg := msg } ::
             s.time.ptpIn) ∧
         (Tab.find s.serv.mmacReq m = none → beAt msg 0 1 % 16 ≠ 0 → t.serv = s.serv) ∧
         ((t.f (Reg.MMAC_TX_COUNTS_FRAMES m) = s.f (Reg.MMAC_TX_COUNTS_FRAMES m) ∧ t.serv.mmacSent = s.serv.mmacSent ∧
            t.time.ptpOut = s.time.ptpOut) ∨
          (s.mmacFree m = true ∧ t.f (Reg.MMAC_TX_COUNTS_FRAMES m) = (s.f (Reg.MMAC_TX_COUNTS_FRAMES m) + 1) % 2 ^ 64 ∧
            Tab.find t.serv.mmacReq m = none ∧
            ∃ x, t.serv.mmacSent = Tab.put s.serv.mmacSent m (mmacWire x) ∧
              ∀ e, s.ptpEntry (0x80 + m) = some e →
                t.time.ptpOut = { entry := e, tq := s.tq + 65536 * s.f (Reg.TB_PTP_PORT_TX_LAT e),
                                  msg := x.drop (if beAt x 12 2 = 0x88F7 then 14 else 42) } :: s.time.ptpOut)) ∧
         (∀ k, k ≠ m.val → Tab.find t.serv.mmacReq k = Tab.find s.serv.mmacReq k) ∧
         t.serv = { s.serv with mmacReq := t.serv.mmacReq, mmacSent := t.serv.mmacSent } ∧
         t.ports = s.ports ∧ RegsBut [Reg.TB_UTC, Reg.MMAC_TX_COUNTS m] s t ∧ SameMem s t) ∧
       (on → ¬ bad → isPause frame = false → s.mmacPtp m frame = none → s.mmacAccepts m frame = false →
         t.f (Reg.MMAC_RX_COUNTS_FILTERED m) = min (s.f (Reg.MMAC_RX_COUNTS_FILTERED m) + 1) 0xFFFF ∧
         OnlyEvent [Reg.MMAC_RX_COUNTS m] s t) ∧
       (on → ¬ bad → isPause frame = false → s.mmacPtp m frame = none → s.mmacAccepts m frame = true →
         s.sourceStalled 17 = true →
         t = { s with cycle := t.cycle, serv := { s.serv with mmacWait := s.serv.mmacWait ++ [(m.val, s.tq, frame)] } }) ∧
       (on → ¬ bad → isPause frame = false → s.mmacPtp m frame = none → s.mmacAccepts m frame = true →
         s.sourceStalled 17 = false → s.serv.mmacWait = [] → full →
         t.f (Reg.MMAC_DROPS_RX_DROPS m) = min (s.f (Reg.MMAC_DROPS_RX_DROPS m) + 1) 0xFFFF ∧
         Raised (Reg.MMAC_STATUS m) [Flag.MMAC_STATUS_RX_DROP] s t ∧ OnlyEvent [Reg.MMAC_DROPS m, Reg.MMAC_STATUS m] s t) ∧
       (on → ¬ bad → isPause frame = false → s.mmacPtp m frame = none → s.mmacAccepts m frame = true →
         s.sourceStalled 17 = false → s.serv.mmacWait = [] → ¬ full →
         t.f (Reg.MMAC_RX_PROD_INDEX m) = (prod + 1) % 2 ^ 32 ∧
         t.f (Reg.MMAC_RX_COUNTS_FRAMES m) = (s.f (Reg.MMAC_RX_COUNTS_FRAMES m) + 1) % 2 ^ 32 ∧
         Raised (Reg.MMAC_STATUS m) [Flag.MMAC_STATUS_RX_FRAME] s t ∧
         RegsBut ([Reg.MMAC_RX_PROD m, Reg.MMAC_RX_COUNTS m, Reg.MMAC_STATUS m] ++ mergeRegs a ++ mergeRegs (a + 12 + n)) s t ∧
         (∀ b, (b < a ∨ a + 16 + n ≤ b) → Mem.read t.mem b = Mem.read s.mem b) ∧
         (s.canonical = true → (∀ b, s.faulted b = false) →
           t.rd a 2 = n ∧ t.rd (a + 8) 8 = s.tq / 65536 % 2 ^ 64 ∧ t.bytes (a + 16) n = frame.take n) ∧
         t = { s with regs := t.regs, cycle := t.cycle, mem := t.mem, poison := t.poison,
                      chans := (s.request .core 17 a (16 + n) true).chans }))) ∧
  (∀ (r : Req) (m : Fin 2) (d : Half) (s : State), s.Up → s.passes r (Reg.MMAC_TX_PROD m) .w32 true = true →
    ∃ t, Sys2Proof.Machine.exec (.mmacTxProd r m d) s = .next t ∧ Answered r 0 s t ∧
      t.f (Reg.MMAC_TX_PROD_INDEX m) = d.toNat ∧ SameMem s t ∧
      (∀ x, Tab.find s.serv.mmacReq m = some x → s.mmacFree m = true → Tab.find t.serv.mmacReq m = none ∧
        t.serv.mmacSent = Tab.put s.serv.mmacSent m (mmacWire x) ∧
        t.f (Reg.MMAC_TX_COUNTS_FRAMES m) = (s.f (Reg.MMAC_TX_COUNTS_FRAMES m) + 1) % 2 ^ 64) ∧
      (let todo := (d.toNat + 2 ^ 32 - s.f (Reg.MMAC_TX_CONS_INDEX m)) % 2 ^ 32
       let starts := s.fb (Reg.MMAC_CFG_EN m) = true ∧ s.fb (Reg.MMAC_LINK_LINK_UP m) = true ∧
         s.fb (Reg.MMAC_TX_CFG_EN m) = true ∧ todo ≠ 0 ∧ Tab.find s.serv.mmacTx m = none ∧ s.sourceStalled 17 = false
       let alone := Tab.find s.serv.mmacReq m = none ∨ s.mmacFree m = false
       let a := s.mmacSlot m
       let good := 14 ≤ s.rd a 2 ∧ s.rd a 2 ≤ 9212
       (¬ starts → alone → OnlyRegs [Reg.MMAC_TX_PROD m] s t) ∧
       (starts → good → Tab.find t.serv.mmacTx m = some (mmacWire (s.bytes (a + 16) (s.rd a 2))) ∧
         RegsBut (Reg.MMAC_TX_PROD m :: if Tab.find s.serv.mmacReq m = none then [] else [Reg.MMAC_TX_COUNTS m]) s t) ∧
       (starts → alone → ¬ good → todo = 1 →
         t.f (Reg.MMAC_TX_CONS_INDEX m) = (s.f (Reg.MMAC_TX_CONS_INDEX m) + 1) % 2 ^ 32 ∧
         t.f (Reg.MMAC_DROPS_TX_BAD m) = min (s.f (Reg.MMAC_DROPS_TX_BAD m) + 1) 0xFFFF ∧
         Raised (Reg.MMAC_STATUS m) [Flag.MMAC_STATUS_TX_BAD] s t ∧
         OnlyRegs [Reg.MMAC_TX_PROD m, Reg.MMAC_TX_CONS m, Reg.MMAC_DROPS m, Reg.MMAC_STATUS m] s t))) ∧
  (∀ (m : Fin 2) (s : State), s.Up → Tab.find s.serv.mmacTx m = none ∨ s.sourceStalled 17 = true →
    ∃ t, Sys2Proof.Machine.exec (.mmacTxSlotSent m) s = .next t ∧ Nothing s t) ∧
  (∀ (m : Fin 2) (w : List Byte) (s : State), s.Up → Tab.find s.serv.mmacTx m = some w → s.sourceStalled 17 = false →
    ∃ t, Sys2Proof.Machine.exec (.mmacTxSlotSent m) s = .next t ∧
      (let a := s.mmacSlot m + 8
       let runs := s.fb (Reg.MMAC_CFG_EN m) = true ∧ s.fb (Reg.MMAC_LINK_LINK_UP m) = true
       let sent := Tab.put s.serv.mmacSent m w
       (Tab.find s.serv.mmacReq m = none ∨ ¬ runs → t.serv.mmacSent = sent ∧ t.time = s.time ∧
         t.f (Reg.MMAC_TX_COUNTS_FRAMES m) = (s.f (Reg.MMAC_TX_COUNTS_FRAMES m) + 1) % 2 ^ 64) ∧
       (∀ x, Tab.find s.serv.mmacReq m = some x → runs → t.serv.mmacSent = Tab.put sent m (mmacWire x) ∧
         t.f (Reg.MMAC_TX_COUNTS_FRAMES m) = (s.f (Reg.MMAC_TX_COUNTS_FRAMES m) + 2) % 2 ^ 64) ∧
       t.flagSet (Reg.MMAC_STATUS m) Flag.MMAC_STATUS_TX_DONE = true ∧
       (s.mmacTodo m = 1 → t.f (Reg.MMAC_TX_CONS_INDEX m) = (s.f (Reg.MMAC_TX_CONS_INDEX m) + 1) % 2 ^ 32 ∧
         t.serv.mmacTx = Tab.del s.serv.mmacTx m ∧ Raised (Reg.MMAC_STATUS m) [Flag.MMAC_STATUS_TX_DONE] s t) ∧
       (∀ b, (b < a ∨ a + 8 ≤ b) → Mem.read t.mem b = Mem.read s.mem b) ∧
       (s.canonical = true → (∀ b, s.faulted b = false) → t.rd a 8 = s.tq / 65536 % 2 ^ 64) ∧
       RegsBut [Reg.MMAC_TX_CONS m, Reg.MMAC_TX_COUNTS m, Reg.MMAC_STATUS m, Reg.MMAC_DROPS m] s t))

/-! ### Serial interfaces and GPIO -/

/-- R548: an MDIO command starts its frame, or is refused while one is in progress or where Clause 22 has no such frame;
the end of a frame clears BUSY and shows what was read, 0xFFFF where no PHY answered. R550, R552: a byte written to
UART_TX or received enters its FIFO, or with 64 bytes there is discarded with TX_OVERFLOW or RX_OVERRUN; a byte sent or
read leaves it, and an empty one reads 0. A ball whose OE bit is 1 is driven to its OUT bit, another follows the board; a
change of the GPIO inputs sets the PEND bit of each enabled ball whose edge or level INT_POL names; GPIO_INT_ACK clears
the bits written as 1. That a byte which finds the FIFO full sets RX_OVERRUN only is log entry 46. -/
def Obligations.MdioUartGpio : Prop :=
  ((∀ (r : Req) (c45 : Bool) (phy reg : Fin 32) (d : BitVec 16) (s : State), s.Up → s.passes r Reg.MDIO_CMD .w32 true = true →
     (∃ t, Sys2Proof.Machine.exec (.mdioAddress r c45 phy reg d) s = .next t ∧ Answered r 0 s t ∧
       MdioAsked (0 * 2 ^ 30 + (if c45 = true then 2 ^ 29 else 0) + phy * 2 ^ 24 + reg * 2 ^ 19 + d.toNat) (!c45) s t) ∧
     (∃ t, Sys2Proof.Machine.exec (.mdioWrite r c45 phy reg d) s = .next t ∧ Answered r 0 s t ∧
       MdioAsked (1 * 2 ^ 30 + (if c45 = true then 2 ^ 29 else 0) + phy * 2 ^ 24 + reg * 2 ^ 19 + d.toNat) false s t) ∧
     (∃ t, Sys2Proof.Machine.exec (.mdioReadIncrement r c45 phy reg) s = .next t ∧ Answered r 0 s t ∧
       MdioAsked (2 * 2 ^ 30 + (if c45 = true then 2 ^ 29 else 0) + phy * 2 ^ 24 + reg * 2 ^ 19) (!c45) s t) ∧
     (∃ t, Sys2Proof.Machine.exec (.mdioRead r c45 phy reg) s = .next t ∧ Answered r 0 s t ∧
       MdioAsked (3 * 2 ^ 30 + (if c45 = true then 2 ^ 29 else 0) + phy * 2 ^ 24 + reg * 2 ^ 19) false s t)) ∧
   (∀ (answer : Option (BitVec 16)) (s : State), s.Up → s.serv.mdio = none →
     ∃ t, Sys2Proof.Machine.exec (.mdioFrameDone answer) s = .next t ∧ Nothing s t) ∧
   (∀ (answer : Option (BitVec 16)) (word : Nat) (s : State), s.Up → s.serv.mdio = some word →
     ∃ t, Sys2Proof.Machine.exec (.mdioFrameDone answer) s = .next t ∧ t.f Reg.MDIO_STATUS_BUSY = 0 ∧
       t.f Reg.MDIO_STATUS_CMD_REFUSED = s.f Reg.MDIO_STATUS_CMD_REFUSED ∧
       t.f Reg.MDIO_STATUS_DATA = (if 2 ≤ bits word 31 30 then (match answer with | some v => v.toNat | none => 0xFFFF)
         else s.f Reg.MDIO_STATUS_DATA) ∧
       RegsBut [Reg.MDIO_STATUS] s t ∧
       t = { s with cycle := t.cycle, regs := t.regs, serv := { s.serv with mdio := none } })) ∧
  ((∀ (r : Req) (d : Half) (s : State), s.Up → s.passes r Reg.UART_TX .w32 true = true →
     ∃ t, Sys2Proof.Machine.exec (.uartTxWrite r d) s = .next t ∧ Answered r 0 s t ∧
       (64 ≤ s.serv.uartTx.length →
         Raised Reg.UART_STATUS [Flag.UART_STATUS_TX_OVERFLOW] s t ∧ OnlyRegs [Reg.UART_STATUS] s t) ∧
       (s.serv.uartTx.length < 64 → LevelsShown t ∧ RegsBut [Reg.UART_LEVEL] s t ∧
         t = { s with cycle := t.cycle, regs := t.regs, bus := { s.bus with resp := t.bus.resp },
                      serv := { s.serv with uartTx := s.serv.uartTx ++ [BitVec.ofNat 8 d.toNat] } })) ∧
   (∀ (r : Req) (s : State), s.Up → s.passes r Reg.UART_RX .w32 false = true →
     ∃ t, Sys2Proof.Machine.exec (.uartRxRead r) s = .next t ∧
       (s.serv.uartRx = [] → Answered r 0 s t ∧ OnlyRegs [] s t) ∧
       (∀ b rest, s.serv.uartRx = b :: rest → Answered r (2 ^ 31 + b.toNat) s t ∧ LevelsShown t ∧ RegsBut [Reg.UART_LEVEL] s t ∧
         t = { s with cycle := t.cycle, regs := t.regs, bus := { s.bus with resp := t.bus.resp },
                      serv := { s.serv with uartRx := rest } })) ∧
   (∀ (b : Byte) (stopBit : Bool) (s : State), s.Up →
     ∃ t, Sys2Proof.Machine.exec (.uartRxByte b stopBit) s = .next t ∧
       (64 ≤ s.serv.uartRx.length →
         Raised Reg.UART_STATUS [Flag.UART_STATUS_RX_OVERRUN] s t ∧ OnlyEvent [Reg.UART_STATUS] s t) ∧
       (s.serv.uartRx.length < 64 → LevelsShown t ∧
         Raised Reg.UART_STATUS (if stopBit = true then [] else [Flag.UART_STATUS_FRAMING]) s t ∧
         RegsBut [Reg.UART_LEVEL, Reg.UART_STATUS] s t ∧
         t = { s with cycle := t.cycle, regs := t.regs, serv := { s.serv with uartRx := s.serv.uartRx ++ [b] } })) ∧
   (∀ s : State, s.Up →
     ∃ t, Sys2Proof.Machine.exec .uartTxByteSent s = .next t ∧ LevelsShown t ∧ RegsBut [Reg.UART_LEVEL] s t ∧
       t = { s with cycle := t.cycle, regs := t.regs, serv := { s.serv with uartTx := s.serv.uartTx.drop 1 } }) ∧
   (∀ (levels : BitVec 32) (s : State), s.Up →
     ∃ t, Sys2Proof.Machine.exec (.gpioInputChange levels) s = .next t ∧
       t.serv = { s.serv with gpioBoard := levels, gpio := t.serv.gpio } ∧
       (∀ b, b < 32 →
         (let on (a : Nat) : Bool := bit (s.reg a).toNat b
          let ball : Bool := if on Reg.GPIO_OE = true then on Reg.GPIO_OUT else bit levels.toNat b
          let named : Bool := ball == on Reg.GPIO_INT_POL
          let moved : Bool := ball != bit s.serv.gpio.toNat b
          bit (t.reg Reg.GPIO_IN).toNat b = ball ∧ bit t.serv.gpio.toNat b = ball ∧
          bit (t.reg Reg.GPIO_INT_PEND).toNat b =
            (on Reg.GPIO_INT_PEND || (on Reg.GPIO_INT_EN && named && (on Reg.GPIO_INT_MODE || moved))))) ∧
       RegsBut [Reg.GPIO_IN, Reg.GPIO_INT_PEND] s t ∧ t = { s with cycle := t.cycle, regs := t.regs, serv := t.serv }) ∧
   (∀ (r : Req) (d : Half) (s : State), s.Up → s.passes r Reg.GPIO_INT_ACK .w32 true = true →
     ∃ t, Sys2Proof.Machine.exec (.gpioIntAck r d) s = .next t ∧ Answered r 0 s t ∧
       (∀ b, b < 32 → bit (t.reg Reg.GPIO_INT_PEND).toNat b = (bit (s.reg Reg.GPIO_INT_PEND).toNat b && !bit d.toNat b)) ∧
       OnlyRegs [Reg.GPIO_INT_PEND] s t))

/-- R554 to R557: an I²C transaction or a SPI command starts, or is refused while one runs or where its lengths or its
address size are not allowed; its end clears BUSY, shows the result and the acknowledged bytes, fills the buffer with the
bytes read, and sets DONE and, where it failed, ERROR. What a transaction that timed out had transferred is open (log entry
33); which bytes I2C_STATUS.BYTES counts is log entry 72. -/
def Obligations.I2cAndSpi : Prop :=
  (∀ (r : Req) (b : Fin 2) (d : Half) (s : State), s.Up → s.passes r (Reg.I2C_XFER b) .w32 true = true →
    ∃ t, Sys2Proof.Machine.exec (.i2cXfer r b d) s = .next t ∧ Answered r 0 s t ∧
      (let rd := bits d.toNat 24 20
       let wr := bits d.toNat 19 15
       let refused := s.fb (Reg.I2C_STATUS_BUSY b) = true ∨ (rd = 0 ∧ wr = 0) ∨ 16 < rd ∨ 16 < wr
       (refused → Raised (Reg.I2C_FLAGS b) [Flag.I2C_FLAGS_CMD_REFUSED] s t ∧ OnlyRegs [Reg.I2C_FLAGS b] s t) ∧
       (¬ refused → t.f (Reg.I2C_STATUS_BUSY b) = 1 ∧
         RegsBut [Reg.I2C_STATUS b] s t ∧
         (∃ x : I2cRun, x.target = bits d.toNat 6 0 ∧ x.rd = rd ∧ BufferShown (Reg.I2C_BUF b 0) wr x.out s ∧
           t = { s with cycle := t.cycle, regs := t.regs, bus := { s.bus with resp := t.bus.resp },
                        serv := { s.serv with i2c := Tab.put s.serv.i2c b x } })))) ∧
  (∀ (b : Fin 2) (res : I2cResult) (acked : Nat) (bytes : List Byte) (s : State), s.Up →
    (Tab.find s.serv.i2c b = none →
      (∃ t, Sys2Proof.Machine.exec (.i2cDone b res acked bytes) s = .next t ∧ Nothing s t) ∧
      (∃ t, Sys2Proof.Machine.exec (.i2cSclTimeout b) s = .next t ∧ Nothing s t)) ∧
    (∀ x, Tab.find s.serv.i2c b = some x →
      (∃ t, Sys2Proof.Machine.exec (.i2cDone b res acked bytes) s = .next t ∧
        t.f (Reg.I2C_STATUS_BUSY b) = 0 ∧
        t.f (Reg.I2C_STATUS_RESULT b) = (match res with | .ok => 0 | .nackAddr => 1 | .nackData => 2 | .busStuck => 4) ∧
        t.f (Reg.I2C_STATUS_BYTES b) = (match res with
          | .ok => x.out.length + (x.rd - 1)
          | .nackAddr => if x.out ≠ [] ∧ x.rd ≠ 0 ∧ x.out.length ≤ acked then x.out.length else 0
          | .nackData => min acked (x.out.length - 1)
          | .busStuck => 0) % 32 ∧
        (res = .ok → ∀ i, i < min 16 x.rd → ∀ v, bytes[i]? = some v → BufferByte (Reg.I2C_BUF b 0) i v t) ∧
        (res ≠ .ok → ∀ w : Fin 4, t.reg (Reg.I2C_BUF b w) = s.reg (Reg.I2C_BUF b w)) ∧
        Raised (Reg.I2C_FLAGS b)
          (if res = .ok then [Flag.I2C_FLAGS_DONE] else [Flag.I2C_FLAGS_DONE, Flag.I2C_FLAGS_ERROR]) s t ∧
        RegsBut [Reg.I2C_STATUS b, Reg.I2C_FLAGS b, Reg.I2C_BUF b 0, Reg.I2C_BUF b 1, Reg.I2C_BUF b 2, Reg.I2C_BUF b 3] s t ∧
        t = { s with cycle := t.cycle, regs := t.regs, serv := { s.serv with i2c := Tab.del s.serv.i2c b } }) ∧
      (∃ t, Sys2Proof.Machine.exec (.i2cSclTimeout b) s = .next t ∧
        t.f (Reg.I2C_STATUS_BUSY b) = 0 ∧ t.f (Reg.I2C_STATUS_RESULT b) = 3 ∧
        Raised (Reg.I2C_FLAGS b) [Flag.I2C_FLAGS_DONE, Flag.I2C_FLAGS_ERROR] s t ∧
        RegsBut [Reg.I2C_STATUS b, Reg.I2C_FLAGS b, Reg.I2C_BUF b 0, Reg.I2C_BUF b 1, Reg.I2C_BUF b 2, Reg.I2C_BUF b 3] s t ∧
        t = { s with cycle := t.cycle, regs := t.regs, free := s.free + 2,
                     serv := { s.serv with i2c := Tab.del s.serv.i2c b } }))) ∧
  (∀ (r : Req) (d : Half) (s : State), s.Up → s.passes r Reg.SPI_CMD .w32 true = true →
    ∃ t, Sys2Proof.Machine.exec (.spiCmd r d) s = .next t ∧ Answered r 0 s t ∧
      (let refused := s.fb Reg.SPI_STATE_BUSY = true ∨ bits d.toNat 27 26 = 3 ∨ 256 < bits d.toNat 16 8
       (refused → Raised Reg.SPI_FLAGS [Flag.SPI_FLAGS_CMD_REFUSED] s t ∧ OnlyRegs [Reg.SPI_FLAGS] s t) ∧
       (¬ refused → t.f Reg.SPI_STATE_BUSY = 1 ∧ RegsBut [Reg.SPI_STATE] s t ∧
         (∃ x : SpiRun, x.opcode = bits d.toNat 7 0 ∧ x.addrQuad = bit d.toNat 29 ∧ x.dummy = bits d.toNat 25 21 ∧
           x.dataQuad = bit d.toNat 30 ∧ x.write = bit d.toNat 31 ∧ x.len = bits d.toNat 16 8 ∧
           x.addr.length = (if bits d.toNat 27 26 = 0 then 0 else bits d.toNat 27 26 + 2) ∧
           (∀ i, i < x.addr.length → ∀ v, x.addr[x.addr.length - 1 - i]? = some v →
             v.toNat = bits (s.reg Reg.SPI_ADDR).toNat (8 * i + 7) (8 * i)) ∧
           (bit d.toNat 31 = true → BufferShown (Reg.SPI_BUF 0) (bits d.toNat 16 8) x.out s) ∧
           t = { s with cycle := t.cycle, regs := t.regs, bus := { s.bus with resp := t.bus.resp },
                        serv := { s.serv with spi := some x } })))) ∧
  (∀ (bytes : List Byte) (s : State), s.Up → s.serv.spi = none →
    ∃ t, Sys2Proof.Machine.exec (.spiDone bytes) s = .next t ∧ Nothing s t) ∧
  (∀ (bytes : List Byte) (x : SpiRun) (s : State), s.Up → s.serv.spi = some x →
    ∃ t, Sys2Proof.Machine.exec (.spiDone bytes) s = .next t ∧ t.f Reg.SPI_STATE_BUSY = 0 ∧
      (x.write = false → ∀ i, i < min x.len 256 → ∀ v, bytes[i]? = some v → BufferByte (Reg.SPI_BUF 0) i v t) ∧
      (x.write = true → ∀ i : Fin 64, t.reg (Reg.SPI_BUF i) = s.reg (Reg.SPI_BUF i)) ∧
      Raised Reg.SPI_FLAGS [Flag.SPI_FLAGS_DONE] s t ∧
      (∀ a, a ≠ Reg.SPI_STATE → a ≠ Reg.SPI_FLAGS → (∀ i : Fin 64, a ≠ Reg.SPI_BUF i) → t.reg a = s.reg a) ∧
      t = { s with cycle := t.cycle, regs := t.regs, serv := { s.serv with spi := none } })

/-! ### NVM, resets and boot -/

/-- R56, R564 to R569: a write of NVM_KEY or NVM_STORE waits in its queue until the edge of the slow clock that applies it.
0x5A17 and then 0xC0DE arm a store; NVM_STORE starts one of its sector with what the staging buffer holds, counts its wear
and disarms, or is refused with the first code that applies. A store that ends verified makes those data the sector's contents, else the sector keeps
its own. NVM_READ_SEL selects the sector of the read window. -/
def Obligations.NvmStores : Prop :=
  (∀ (r : Req) (d : Half) (s : State), s.Up → s.passes r Reg.NVM_KEY .w32 true = true →
    ∃ t, Sys2Proof.Machine.exec (.nvmKey r d) s = .next t ∧ SlowWritten r Reg.NVM_KEY d.toNat s t) ∧
  (∀ (r : Req) (d : Half) (s : State), s.Up → s.passes r Reg.NVM_STORE .w32 true = true →
    ∃ t, Sys2Proof.Machine.exec (.nvmStore r d) s = .next t ∧ SlowWritten r Reg.NVM_STORE d.toNat s t) ∧
  (∀ (tj : List (BitVec 16)) (nJ : List Nat) (w : Forwarded) (s : State), OneWaits w tj s → w.addr = Reg.NVM_KEY →
    ∃ u t, EdgeApplies tj nJ s u t ∧
      (let v := bits w.data.toNat 15 0
       t.nvm = { s.nvm with key := if v = 0x5A17 then 1 else if v = 0xC0DE ∧ s.nvm.key = 1 then 2 else 0 }) ∧
      t.sf Reg.NVM_STORE_STATE_STATE = (if s.nvm.storing.isSome then 2 else if t.nvm.key = 2 then 1 else 0) ∧
      t.sf Reg.NVM_STORE_STATE_RESULT = s.sf Reg.NVM_STORE_STATE_RESULT ∧ SlowBut [Reg.NVM_STORE_STATE] u t ∧
      t = { u with cycle := t.cycle, nvm := t.nvm, bus := { u.bus with slow := t.bus.slow } }) ∧
  (∀ (tj : List (BitVec 16)) (nJ : List Nat) (w : Forwarded) (s : State), OneWaits w tj s → w.addr = Reg.NVM_STORE →
    ∃ u t, EdgeApplies tj nJ s u t ∧
      (let k := bits w.data.toNat 7 0
       let code := if s.nvm.key ≠ 2 then 1 else if s.nvm.storing.isSome then 2
         else if k < 128 ∧ 100000 ≤ s.sf (Reg.NVM_WEAR_COUNT k) then 3
         else if k = 20 ∧ 20 ∈ s.nvm.stored then 4 else if 127 < k then 5 else 0
       t.sf Reg.NVM_STORE_STATE_SECTOR = k ∧
       (code ≠ 0 → t.nvm = { s.nvm with key := 0 } ∧ t.sf Reg.NVM_STORE_STATE_RESULT = code ∧
         SlowRaised Reg.NVM_BLOCK_STATUS [Flag.NVM_STORE_REFUSED] u t ∧
         SlowBut [Reg.NVM_STORE_STATE, Reg.NVM_BLOCK_STATUS] u t) ∧
       (code = 0 → t.nvm = { s.nvm with key := 0, storing := some k, staged := t.nvm.staged } ∧
         (∀ o, o < 65536 → Mem.read t.nvm.staged o = Mem.read s.mem (stagingBase + o)) ∧ t.sf Reg.NVM_STORE_STATE_STATE = 2 ∧
         t.sf (Reg.NVM_WEAR_COUNT k) = s.sf (Reg.NVM_WEAR_COUNT k) + 1 ∧
         SlowRaised Reg.NVM_BLOCK_STATUS (if t.sf (Reg.NVM_WEAR_COUNT k) = 90000 then [Flag.NVM_WEAR_WARN] else []) u t ∧
         SlowBut [Reg.NVM_STORE_STATE, Reg.NVM_BLOCK_STATUS, Reg.NVM_WEAR k] u t)) ∧
      t = { u with cycle := t.cycle, nvm := t.nvm, bus := { u.bus with slow := t.bus.slow } }) ∧
  (∀ (verified : Bool) (s : State), s.Up →
    ∃ t, Sys2Proof.Machine.exec (.storeDone verified) s = .next t ∧
      (s.nvm.storing = none → Nothing s t) ∧
      (∀ k, s.nvm.storing = some k →
        t.nvm.storing = none ∧ t.sf Reg.NVM_STORE_STATE_RESULT = (if verified = true then 0 else 7) ∧
        t.sf Reg.NVM_STORE_STATE_STATE = (if s.nvm.key = 2 then 1 else 0) ∧
        SlowRaised Reg.NVM_BLOCK_STATUS [Flag.NVM_STORE_DONE] s t ∧
        (∀ j o, j ≠ k → o < 65536 → t.nvmByte j o = s.nvmByte j o) ∧
        (verified = true → k ∈ t.nvm.stored ∧
          ∀ o, o < 65536 → t.nvmByte k o = Mem.read s.nvm.staged o) ∧
        (verified = false → t.nvm = { s.nvm with storing := none, staged := [] }) ∧
        t.copyWaits = s.copyWaits.filter fun i => slotSector i != k) ∧
      SlowBut [Reg.NVM_STORE_STATE, Reg.NVM_BLOCK_STATUS] s t ∧
      t = { s with cycle := t.cycle, nvm := t.nvm, copyWaits := t.copyWaits, bus := { s.bus with slow := t.bus.slow } }) ∧
  (∀ (r : Req) (d : Half) (s : State), s.Up → s.passes r Reg.NVM_READ_SEL .w32 true = true →
    ∃ t, Sys2Proof.Machine.exec (.nvmReadSel r d) s = .next t ∧ Answered r 0 s t ∧
      t.f Reg.NVM_READ_SEL_SECTOR = bits d.toNat 6 0 ∧ RegsBut [Reg.NVM_READ_SEL] s t ∧
      t = { s with cycle := t.cycle, regs := t.regs, bus := { s.bus with resp := t.bus.resp },
                   nvm := { s.nvm with readSel := bits d.toNat 6 0 } })

/-- R56, R571, R573, R612: a warm reset, applied at an edge of the slow clock, resets everything but the always-on domain,
the straps and the fuses, and leaves the counts of mirror refreshes (R601); what else it leaves is log entry 51. PWR_GOOD
or RESET_N low holds the part in power-on reset, in which only the NVM contents stay. Its release samples the straps,
reports a lost store and starts the boot ROM; after a warm reset it ends step 1 alone. R56, R526, R571, R572: a RESET_CTRL
write of TYPE 2 (cause 3), applied at an edge of the slow clock, a lockstep mismatch (4) and the watchdog at its limit (5)
reset the Keeper alone; a kick restarts the watchdog's count at the edge that applies it. What a Keeper reset leaves is
log entry 52; that the boot steps it cut off never run is log entry 132. -/
def Obligations.Resets : Prop :=
  ((∀ (r : Req) (s : State), s.Up → s.passes r Reg.RESET_CTRL .w32 true = true →
     ∃ t, Sys2Proof.Machine.exec (.warmReset r) s = .next t ∧ SlowWritten r Reg.RESET_CTRL 0x3A5C0001 s t) ∧
   (∀ (tj : List (BitVec 16)) (nJ : List Nat) (w : Forwarded) (s : State), OneWaits w tj s → w.addr = Reg.RESET_CTRL →
     bits w.data.toNat 31 16 = 0x3A5C → bits w.data.toNat 1 0 = 1 →
     ∃ u t, EdgeApplies tj nJ s u t ∧
       t.sf Reg.BOOT_STATUS_STEP = 1 ∧ t.sf Reg.BOOT_STATUS_CODE = 0 ∧ t.sf Reg.RESET_CAUSE_CAUSE = 2 ∧
       t.sf Reg.RESET_CAUSE_KEEPER_RESETS = u.sf Reg.RESET_CAUSE_KEEPER_RESETS ∧
       t.sf Reg.NVM_STORE_STATE_RESULT = u.sf Reg.NVM_STORE_STATE_RESULT ∧
       (∀ a, aonReg a = true → a ∉ [Reg.BOOT_STATUS, Reg.RESET_CAUSE, Reg.PWR_ALERT, Reg.NVM_STORE_STATE] →
         t.slowReg a = u.slowReg a) ∧
       FuseKept u t ∧ t.reg Reg.GPIO_IN = u.reg Reg.GPIO_IN ∧ (∀ a, tickReg a = true → t.reg a = u.reg a) ∧
       t.f Reg.CHAIN_STATE_STRAP_ROLE = u.f Reg.CHAIN_STATE_STRAP_ROLE ∧ t.f Reg.CHAIN_STATE_INDEX = u.f Reg.CHAIN_STATE_INDEX ∧
       t.chainRole = 0 ∧ t.f Reg.CHAIN_STATE_EPOCH = 0 ∧
       (∀ a, aonReg a = false → a ∉ [Reg.SYS_DEVICE_ID, Reg.GPIO_IN, Reg.CHAIN_STATE] → t.reg a = resetAt a) ∧
       t = { State.reset with
         pending := u.pending, free := u.free, cycle := t.cycle, regs := t.regs, bus := { slow := t.bus.slow },
         nvm := { u.nvm with key := 0, readSel := 0 }, serv := { gpio := u.serv.gpio, gpioBoard := u.serv.gpioBoard },
         aon := { u.aon with keeperUp := false, saved := none, halted := false, stopped := false, params := [], entry := none,
                             held := false, ready := false } }) ∧
   (∀ (pwrGood resetN : Bool) (s : State),
     ∃ t, Sys2Proof.Machine.exec (.powerOnReset pwrGood resetN) s = .next t ∧
       (pwrGood = true → resetN = true ∨ s.aon.hold = .pins → t = { s with cycle := t.cycle, aon := { s.aon with pwrGood := true } }) ∧
       (pwrGood = false ∨ (resetN = false ∧ s.aon.hold ≠ .pins) → ¬ t.Up ∧
         (∀ a, fixedReg a = false → wearReg a = false → a ≠ Reg.SYS_DEVICE_ID → t.reg a = resetAt a) ∧ FuseKept s t ∧
         (∀ a, fixedReg a = true ∨ wearReg a = true → t.reg a = s.reg a) ∧
         (∀ a, wearReg a = true → t.slowReg a = s.slowReg a) ∧ (∀ a, wearReg a = false → t.slowReg a = resetAt a) ∧
         t = { State.reset with
           pending := s.pending, free := s.free, cycle := t.cycle, regs := t.regs, bus := { slow := t.bus.slow },
           nvm := { cells := s.nvm.cells, stored := s.nvm.stored, bad := s.nvm.bad, lost := t.nvm.lost },
           serv := { gpio := s.serv.gpio, gpioBoard := s.serv.gpioBoard }, aon := { hold := .pins, pwrGood := pwrGood } } ∧
         (t.nvm.lost = true ↔ s.nvm.storing ≠ none ∨ s.nvm.lost = true))) ∧
   (∀ (role : Fin 4) (index : Fin 16) (s : State),
     ∃ t, Sys2Proof.Machine.exec (.resetRelease role index) s = .next t ∧
       (let releases := s.aon.hold = .pins ∨
          (s.aon.hold = .free ∧ s.sf Reg.BOOT_STATUS_STEP = 1 ∧ s.sf Reg.RESET_CAUSE_CAUSE ≠ 2)
        let warm := s.aon.hold = .free ∧ s.sf Reg.BOOT_STATUS_STEP = 1 ∧ s.sf Reg.RESET_CAUSE_CAUSE = 2
        (¬ releases → ¬ warm → Nothing s t) ∧
        (warm → t.sf Reg.BOOT_STATUS_STEP = 2 ∧ t.sf Reg.BOOT_STATUS_CODE = s.sf Reg.BOOT_STATUS_CODE ∧
          SlowBut [Reg.BOOT_STATUS, Reg.PWR_ALERT] s t ∧
          t = { s with cycle := t.cycle, bus := { s.bus with slow := t.bus.slow } }) ∧
        (releases → t.Up ∧ t.f Reg.CHAIN_STATE_STRAP_ROLE = role ∧ t.f Reg.CHAIN_STATE_INDEX = index ∧
          t.sf Reg.BOOT_STATUS_STEP = 2 ∧
          t.sf Reg.NVM_STORE_STATE_RESULT = (if s.nvm.lost = true then 6 else s.sf Reg.NVM_STORE_STATE_RESULT) ∧
          RegsBut [Reg.CHAIN_STATE] s t ∧ SlowBut [Reg.BOOT_STATUS, Reg.NVM_STORE_STATE, Reg.PWR_ALERT] s t ∧
          t = { s with cycle := t.cycle, regs := t.regs, nvm := { s.nvm with lost := false },
                       aon := { s.aon with hold := .free, pwrGood := true }, bus := { s.bus with slow := t.bus.slow } })))) ∧
  ((∀ (r : Req) (s : State), s.Up → s.passes r Reg.RESET_CTRL .w32 true = true →
     ∃ t, Sys2Proof.Machine.exec (.keeperReset r) s = .next t ∧ SlowWritten r Reg.RESET_CTRL 0x3A5C0002 s t) ∧
   (∀ (tj : List (BitVec 16)) (nJ : List Nat) (w : Forwarded) (s : State), OneWaits w tj s → w.addr = Reg.RESET_CTRL →
     bits w.data.toNat 31 16 = 0x3A5C → bits w.data.toNat 1 0 = 2 →
     ∃ u t, EdgeApplies tj nJ s u t ∧ KeeperWasReset 3 u t ∧ t.nvm = { s.nvm with key := 0 }) ∧
   (∀ s : State, s.Up →
     ∃ t, Sys2Proof.Machine.exec .lockstepMismatch s = .next t ∧ KeeperWasReset 4 s t ∧ t.nvm = s.nvm ∧
       SlowBut [Reg.BOOT_STATUS, Reg.RESET_CAUSE, Reg.NVM_BLOCK_STATUS, Reg.PWR_ALERT] s t) ∧
   (∀ s : State, s.Up →
     ∃ t, Sys2Proof.Machine.exec .watchdogExpiry s = .next t ∧
       (let expires := s.sf Reg.KWDT_CFG_EN = 1 ∧ 1000 * max 1 (s.sf Reg.KWDT_CFG_TIMEOUT_MS) ≤ s.aon.watchdog
        (expires → KeeperWasReset 5 s t ∧ t.sf Reg.KWDT_CFG_EN = 0 ∧ t.nvm = s.nvm) ∧
        (¬ expires → Nothing s t))) ∧
   (∀ (r : Req) (d : Half) (s : State), s.Up → s.passes r Reg.KWDT_KICK .w32 true = true →
     ∃ t, Sys2Proof.Machine.exec (.kwdtKick r d) s = .next t ∧ SlowWritten r Reg.KWDT_KICK d.toNat s t) ∧
   (∀ (tj : List (BitVec 16)) (nJ : List Nat) (w : Forwarded) (s : State), OneWaits w tj s → w.addr = Reg.KWDT_KICK →
     ∃ u t, EdgeApplies tj nJ s u t ∧ SlowBut [Reg.NVM_STORE_STATE] u t ∧
       t = { u with cycle := t.cycle, nvm := { s.nvm with key := 0 }, aon := { u.aon with watchdog := 0 },
                    bus := { u.bus with slow := t.bus.slow } }))

/-- R500, R562, R563, R570, R573 to R575: the boot ROM starts the firmware it chooses, or stops with FW_NONE for
good; forbidden straps
stop with ROLE_FORBIDDEN; after a Keeper reset the saved step comes back; without valid parameters boot stops with
PARAMS_BAD, else step 4 ends with an Ingot, or without. DDR training makes its channels READY or stops with DDR_FAIL. The
application image stops with APP_BAD or is placed and step 7 runs, or waits for the chain. Where boot has stopped no later step
runs. Which reserved bits the parameters' check reads and which reads set READ_ERROR is log entry 54; that a command does several
steps at once is log entry 82. -/
def Obligations.BootSteps : Prop :=
  (∀ (spiFw spiPar : List Byte) (s : State), s.Up →
    ∃ t, Sys2Proof.Machine.exec (.firmwareStart spiFw spiPar) s = .next t ∧
      (let goes := s.aon.keeperUp = false ∧ s.aon.halted = false ∧ s.sf Reg.BOOT_STATUS_STEP = 2
       let own := s.nvmBytes 18 128
       (¬ goes → Nothing s t) ∧
       (goes → s.chooseFirmware spiFw = none →
         t.sf Reg.BOOT_STATUS_STEP = 2 ∧ t.sf Reg.BOOT_STATUS_CODE = 1 ∧ t.aon = { s.aon with halted := true } ∧ SameMem s t) ∧
       (∀ f src, goes → s.chooseFirmware spiFw = some (f, src) →
         t.aon.keeperUp = true ∧ t.aon.saved = none ∧
         t.sf Reg.BOOT_STATUS_FW_SRC = src % 4 ∧ t.sf Reg.BOOT_STATUS_FW_SIG = f.sig % 4 ∧
         t.sf Reg.BOOT_FW_VERSION_VERSION = f.version % 2 ^ 32 ∧
         (s.roleForbidden = true → t.sf Reg.BOOT_STATUS_STEP = 2 ∧ t.sf Reg.BOOT_STATUS_CODE = 2 ∧ t.aon.stopped = true) ∧
         (∀ step, s.roleForbidden = false → s.aon.saved = some step →
           t.sf Reg.BOOT_STATUS_STEP = step % 16 ∧
           t.sf Reg.BOOT_STATUS_CODE = (if s.sf Reg.BOOT_STATUS_CODE = 1 then 0 else s.sf Reg.BOOT_STATUS_CODE)) ∧
         (s.roleForbidden = true ∨ s.aon.saved ≠ none → s.canonical = true →
           t.bytes (0xFF80000000 + f.load) f.body.length = f.body) ∧
         (s.roleForbidden = false → s.aon.saved = none → paramsValid own = false → paramsValid spiPar = false →
           t.sf Reg.BOOT_STATUS_STEP = 4 ∧ t.sf Reg.BOOT_STATUS_CODE = 3 ∧ t.aon.stopped = true) ∧
         (s.roleForbidden = false → s.aon.saved = none → paramsValid own = true ∨ paramsValid spiPar = true →
           t.aon.params = (if paramsValid own = true then own else spiPar.take 128) ∧
           t.sf Reg.BOOT_STATUS_PARAMS_SPI = (if paramsValid own = true then 0 else 1) ∧
           t.sf Reg.BOOT_STATUS_STEP = 5 ∧
           (t.sf Reg.BOOT_STATUS_CODE = 0 ∨ t.sf Reg.BOOT_STATUS_CODE = 4 ∨ t.sf Reg.BOOT_STATUS_CODE = 7) ∧
           (t.sf Reg.BOOT_STATUS_CODE = 0 → t.hasIngot = true))))) ∧
  (∀ (failed : List (Fin 16)) (s : State), s.Up →
    ∃ t, Sys2Proof.Machine.exec (.ddrTrainingDone failed) s = .next t ∧
      (let runs := s.aon.keeperUp = true ∧ s.aon.stopped = false ∧ s.sf Reg.BOOT_STATUS_STEP = 5
       (¬ runs → Nothing s t) ∧
       (runs →
         (∀ c : Fin 16, c ∉ failed → t.mcState c = 1 ∧ t.f (Reg.MC_STATE_SPEED c) = s.param 0xD 1 % 4 ∧
           t.f (Reg.MC_STATE_DENSITY c) = s.param 0xE 1 % 2 ∧ t.f (Reg.MC_STATE_RANKS c) = (s.param 0xF 1 - 1) % 2 ∧
           t.f (Reg.MC_TIMING_PD_EXIT_NS c) = 24 ∧ t.f (Reg.MC_TIMING_SR_EXIT_NS c) = 640 + tRfc (s.param 0xE 1) ∧
           t.f (Reg.MC_STALL_T_REQ_NS c) = tReq (s.param 0xD 1) ∧
           t.f (Reg.MC_STALL_STALL_NS c) = tRfc (s.param 0xE 1) + 64 * tReq (s.param 0xD 1)) ∧
         (∀ c : Fin 16, c ∈ failed → t.reg (Reg.MC_STATE c) = s.reg (Reg.MC_STATE c)) ∧
         (failed ≠ [] → t.sf Reg.BOOT_STATUS_STEP = 5 ∧ t.sf Reg.BOOT_STATUS_CODE = 5 ∧ t.aon.stopped = true) ∧
         (failed = [] → s.isM = true → t.sf Reg.BOOT_STATUS_STEP = 6 ∧
           t.sf Reg.BOOT_STATUS_CODE = s.sf Reg.BOOT_STATUS_CODE) ∧
         (failed = [] → s.isM = false → s.sf Reg.BOOT_STATUS_CODE ≠ 7 → Step7Done s t) ∧
         (failed = [] → s.isM = false → s.sf Reg.BOOT_STATUS_CODE = 7 →
           t.aon.held = true ∧ t.sf Reg.BOOT_STATUS_STEP = 7 ∧ t.sf Reg.BOOT_STATUS_CODE = 7))) ∧ SameMem s t) ∧
  (∀ (image : List Byte) (s : State), s.Up →
    ∃ t, Sys2Proof.Machine.exec (.appImageLoaded image) s = .next t ∧
      (let runs := s.aon.keeperUp = true ∧ s.aon.stopped = false ∧ s.sf Reg.BOOT_STATUS_STEP = 6
       let parsed := s.bootImage image appMagic 4194304 (2 ^ 32)
       (¬ runs → Nothing s t) ∧
       (runs → parsed = none → t.sf Reg.BOOT_STATUS_STEP = 6 ∧ t.sf Reg.BOOT_STATUS_CODE = 6 ∧ t.aon.stopped = true ∧ SameMem s t) ∧
       (∀ f, runs → parsed = some f →
         t.sf Reg.BOOT_STATUS_APP_SIG = f.sig % 4 ∧ t.aon.entry = some (0xFF00000000 + f.load + f.entry) ∧
         (∀ a, (a < 0xFF00000000 + f.load ∨ 0xFF00000000 + f.load + f.body.length ≤ a) → Mem.read t.mem a = Mem.read s.mem a) ∧
         (s.canonical = true → t.bytes (0xFF00000000 + f.load) f.body.length = f.body) ∧
         (s.sf Reg.BOOT_STATUS_CODE ≠ 7 → Step7Done s t) ∧
         (s.sf Reg.BOOT_STATUS_CODE = 7 →
           t.aon.held = true ∧ t.sf Reg.BOOT_STATUS_STEP = 7 ∧ t.sf Reg.BOOT_STATUS_CODE = 7))))
end

