-- ==== Sys2Proof/Laws/Tab.lean ====
section
/-! SUPPORT. Tables by key: what reading gives after a write, and that every operation keeps the keys strictly rising;
memory: the same, and that no listed byte is zero. -/

namespace Sys2Proof.Machine

/-- Every key of the table is above k. -/
def Tab.above {α : Type} (t : Tab α) (k : Nat) : Prop := ∀ p ∈ t, k < p.1

/-- The keys rise strictly, as a proposition. -/
def Tab.Rising {α : Type} (t : Tab α) : Prop := t.Pairwise fun p q => p.1 < q.1

theorem Tab.rising_cons {α : Type} {j : Nat} {a : α} {t : Tab α} :
    Tab.Rising ((j, a) :: t) ↔ Tab.above t j ∧ Tab.Rising t := by
  simp [Tab.Rising, Tab.above, List.pairwise_cons]

/-- The check of the keys says that they rise strictly. -/
theorem Tab.wf_iff {α : Type} (t : Tab α) : Tab.wf t = true ↔ Tab.Rising t := by
  induction t with
  | nil => simp [Tab.wf, Tab.Rising]
  | cons p r ih =>
    obtain ⟨j, a⟩ := p
    cases r with
    | nil => simp [Tab.wf, Tab.Rising]
    | cons q r =>
      obtain ⟨k, b⟩ := q
      rw [Tab.rising_cons]
      have hw : Tab.wf ((j, a) :: (k, b) :: r) = (decide (j < k) && Tab.wf ((k, b) :: r)) := rfl
      rw [hw, Bool.and_eq_true, ih, decide_eq_true_eq]
      constructor
      · rintro ⟨h, hr⟩
        refine ⟨?_, hr⟩
        intro p hp
        rcases List.mem_cons.mp hp with rfl | hp
        · exact h
        · exact Nat.lt_trans h ((Tab.rising_cons.mp hr).1 p hp)
      · rintro ⟨h, hr⟩
        exact ⟨h (k, b) (List.mem_cons_self ..), hr⟩

@[simp] theorem Tab.find_nil {α : Type} (k : Nat) : Tab.find ([] : Tab α) k = none := rfl

theorem Tab.find_cons {α : Type} (j : Nat) (a : α) (t : Tab α) (k : Nat) :
    Tab.find ((j, a) :: t) k = if j = k then some a else Tab.find t k := rfl

/-- A key below every key of the table has no entry. -/
theorem Tab.find_above {α : Type} {t : Tab α} {k : Nat} (h : Tab.above t k) : Tab.find t k = none := by
  induction t with
  | nil => rfl
  | cons p r ih =>
    obtain ⟨j, a⟩ := p
    have h1 : k < j := h (j, a) (List.mem_cons_self ..)
    rw [Tab.find_cons, if_neg (by omega)]
    exact ih fun p hp => h p (List.mem_cons_of_mem _ hp)

/-- An entry that has just been put reads back. -/
@[simp] theorem Tab.find_put_same {α : Type} (t : Tab α) (k : Nat) (a : α) : Tab.find (Tab.put t k a) k = some a := by
  induction t with
  | nil => simp [Tab.put, Tab.find_cons]
  | cons p r ih =>
    obtain ⟨j, b⟩ := p
    unfold Tab.put
    split
    · simp [Tab.find_cons]
    · split
      · simp [Tab.find_cons]
      · rw [Tab.find_cons, if_neg (by omega), ih]

/-- Putting an entry changes no other. -/
theorem Tab.find_put_other {α : Type} (t : Tab α) {k j : Nat} (a : α) (h : j ≠ k) :
    Tab.find (Tab.put t k a) j = Tab.find t j := by
  induction t with
  | nil => simp [Tab.put, Tab.find_cons, Ne.symm h]
  | cons p r ih =>
    obtain ⟨i, b⟩ := p
    unfold Tab.put
    split
    · rw [Tab.find_cons, if_neg (Ne.symm h)]
    · split
      · next h1 h2 =>
        rw [Tab.find_cons, Tab.find_cons, if_neg (Ne.symm h), if_neg (by omega)]
      · rw [Tab.find_cons, Tab.find_cons, ih]

/-- Removing an entry changes no other. -/
theorem Tab.find_del_other {α : Type} (t : Tab α) {k j : Nat} (h : j ≠ k) :
    Tab.find (Tab.del t k) j = Tab.find t j := by
  induction t with
  | nil => rfl
  | cons p r ih =>
    obtain ⟨i, b⟩ := p
    unfold Tab.del
    split
    · next h1 => rw [Tab.find_cons, if_neg (by omega)]
    · rw [Tab.find_cons, Tab.find_cons, ih]

theorem Tab.above_put {α : Type} {t : Tab α} {k j : Nat} {a : α} (h : Tab.above t j) (hk : j < k) :
    Tab.above (Tab.put t k a) j := by
  induction t with
  | nil => intro p hp; simp [Tab.put] at hp; subst hp; exact hk
  | cons q r ih =>
    obtain ⟨i, b⟩ := q
    have hr : Tab.above r j := fun p hp => h p (List.mem_cons_of_mem _ hp)
    unfold Tab.put
    intro p hp
    split at hp
    · rcases List.mem_cons.mp hp with rfl | hp
      · exact hk
      · exact h p hp
    · split at hp
      · rcases List.mem_cons.mp hp with rfl | hp
        · exact hk
        · exact hr p hp
      · rcases List.mem_cons.mp hp with rfl | hp
        · exact h _ (List.mem_cons_self ..)
        · exact ih hr p hp

/-- Putting an entry keeps the keys strictly rising. -/
theorem Tab.rising_put {α : Type} {t : Tab α} (k : Nat) (a : α) (h : Tab.Rising t) : Tab.Rising (Tab.put t k a) := by
  induction t with
  | nil => simp [Tab.put, Tab.Rising]
  | cons q r ih =>
    obtain ⟨i, b⟩ := q
    have hc := Tab.rising_cons.mp h
    unfold Tab.put
    split
    · next hk =>
      refine Tab.rising_cons.mpr ⟨?_, h⟩
      intro p hp
      rcases List.mem_cons.mp hp with rfl | hp
      · exact hk
      · exact Nat.lt_trans hk (hc.1 p hp)
    · split
      · next h1 h2 =>
        refine Tab.rising_cons.mpr ⟨?_, hc.2⟩
        intro p hp
        exact h2 ▸ hc.1 p hp
      · next h1 h2 => exact Tab.rising_cons.mpr ⟨Tab.above_put hc.1 (by omega), ih hc.2⟩

/-- A part of a table in order has strictly rising keys. -/
theorem Tab.rising_sub {α : Type} {t u : Tab α} (h : List.Sublist u t) (ht : Tab.Rising t) : Tab.Rising u :=
  List.Pairwise.sublist h ht

theorem Tab.del_sub {α : Type} (t : Tab α) (k : Nat) : List.Sublist (Tab.del t k) t := by
  induction t with
  | nil => exact List.Sublist.slnil
  | cons q r ih =>
    obtain ⟨i, b⟩ := q
    unfold Tab.del
    split
    · exact List.sublist_cons_self ..
    · exact ih.cons_cons _

/-- Removing an entry keeps the keys strictly rising. -/
theorem Tab.rising_del {α : Type} {t : Tab α} (k : Nat) (h : Tab.Rising t) : Tab.Rising (Tab.del t k) :=
  Tab.rising_sub (Tab.del_sub t k) h

/-- With strictly rising keys, a removed entry is gone. -/
theorem Tab.find_del_same {α : Type} {t : Tab α} (k : Nat) (h : Tab.Rising t) : Tab.find (Tab.del t k) k = none := by
  induction t with
  | nil => rfl
  | cons q r ih =>
    obtain ⟨i, b⟩ := q
    have hc := Tab.rising_cons.mp h
    unfold Tab.del
    split
    · next h1 => exact Tab.find_above (h1 ▸ hc.1)
    · next h1 => rw [Tab.find_cons, if_neg h1, ih hc.2]

/-! ### Memory -/

/-- The canonical form of memory, as a proposition. -/
def Memory.Ok (m : List Host.Cell) : Prop := Tab.Rising m ∧ ∀ c ∈ m, c.2 ≠ 0

theorem Memory.wf_iff (m : List Host.Cell) : Memory.wf m = true ↔ Memory.Ok m := by
  simp [Memory.wf, Memory.Ok, Tab.wf_iff]

theorem Tab.mem_put {α : Type} {t : Tab α} {k : Nat} {a : α} {p : Nat × α} (h : p ∈ Tab.put t k a) :
    p = (k, a) ∨ p ∈ t := by
  induction t with
  | nil => simp [Tab.put] at h; exact Or.inl h
  | cons q r ih =>
    obtain ⟨i, b⟩ := q
    unfold Tab.put at h
    split at h
    · rcases List.mem_cons.mp h with rfl | h
      · exact Or.inl rfl
      · exact Or.inr h
    · split at h
      · rcases List.mem_cons.mp h with rfl | h
        · exact Or.inl rfl
        · exact Or.inr (List.mem_cons_of_mem _ h)
      · rcases List.mem_cons.mp h with rfl | h
        · exact Or.inr (List.mem_cons_self ..)
        · exact (ih h).imp id (List.mem_cons_of_mem _)

/-- Writing one byte keeps memory in its canonical form. -/
theorem Memory.ok_write {m : List Host.Cell} (a : Nat) (b : Byte) (h : Memory.Ok m) : Memory.Ok (Mem.write m a b) := by
  unfold Mem.write
  split
  · exact ⟨Tab.rising_del a h.1, fun c hc => h.2 c ((Tab.del_sub m a).subset hc)⟩
  · next hb =>
    refine ⟨Tab.rising_put a b h.1, fun c hc => ?_⟩
    rcases Tab.mem_put hc with rfl | hc
    · exact hb
    · exact h.2 c hc

/-- Writing bytes keeps memory in its canonical form. -/
theorem Memory.ok_writes (takes : Nat → Bool) {m : List Host.Cell} (a : Nat) (bs : List Byte) (h : Memory.Ok m) :
    Memory.Ok (Mem.writes takes m a bs) := by
  induction bs generalizing m a with
  | nil => exact h
  | cons b r ih =>
    unfold Mem.writes
    apply ih
    split
    · exact Memory.ok_write a b h
    · exact h

/-- A part of memory in order keeps the canonical form. -/
theorem Memory.ok_sub {m u : List Host.Cell} (h : List.Sublist u m) (hm : Memory.Ok m) : Memory.Ok u :=
  ⟨Tab.rising_sub h hm.1, fun c hc => hm.2 c (h.subset hc)⟩

/-- A byte that has just been written reads back. -/
theorem Memory.read_write_same {m : List Host.Cell} (a : Nat) (b : Byte) (h : Memory.Ok m) :
    Mem.read (Mem.write m a b) a = b := by
  unfold Mem.read Mem.write Tab.get
  split
  · next hb => rw [Tab.find_del_same a h.1]; exact hb.symm
  · rw [Tab.find_put_same]; rfl

/-- Writing a byte leaves every other byte. -/
theorem Memory.read_write_other (m : List Host.Cell) {a j : Nat} (b : Byte) (h : j ≠ a) :
    Mem.read (Mem.write m a b) j = Mem.read m j := by
  unfold Mem.read Mem.write Tab.get
  split
  · rw [Tab.find_del_other _ h]
  · rw [Tab.find_put_other _ _ h]

/-- Writing bytes leaves every byte outside them. -/
theorem Memory.read_writes_other (takes : Nat → Bool) (m : List Host.Cell) (a : Nat) (bs : List Byte) {j : Nat}
    (h : j < a ∨ a + bs.length ≤ j) : Mem.read (Mem.writes takes m a bs) j = Mem.read m j := by
  induction bs generalizing m a with
  | nil => rfl
  | cons b r ih =>
    simp only [List.length_cons] at h
    unfold Mem.writes
    rw [ih _ _ (by omega)]
    split
    · exact Memory.read_write_other m b (by omega)
    · rfl

end Sys2Proof.Machine
end

