-- ==== Sys2Proof/Laws/State.lean ====
section
/-! SUPPORT. One lemma for each field of State under each plain update, and for each plain reading under each update that
does not reach it: no later proof unfolds a record update. -/

namespace Sys2Proof.Machine.State

variable (s : State)

/-! ### setBus -/

@[simp] theorem setBus_pending (b : Bus) : (s.setBus b).pending = s.pending := rfl
@[simp] theorem setBus_free (b : Bus) : (s.setBus b).free = s.free := rfl
@[simp] theorem setBus_cycle (b : Bus) : (s.setBus b).cycle = s.cycle := rfl
@[simp] theorem setBus_regs (b : Bus) : (s.setBus b).regs = s.regs := rfl
@[simp] theorem setBus_live (b : Bus) : (s.setBus b).live = s.live := rfl
@[simp] theorem setBus_mem (b : Bus) : (s.setBus b).mem = s.mem := rfl
@[simp] theorem setBus_poison (b : Bus) : (s.setBus b).poison = s.poison := rfl
@[simp] theorem setBus_nvm (b : Bus) : (s.setBus b).nvm = s.nvm := rfl
@[simp] theorem setBus_time (b : Bus) : (s.setBus b).time = s.time := rfl
@[simp] theorem setBus_rasters (b : Bus) : (s.setBus b).rasters = s.rasters := rfl
@[simp] theorem setBus_ports (b : Bus) : (s.setBus b).ports = s.ports := rfl
@[simp] theorem setBus_fclk (b : Bus) : (s.setBus b).fclk = s.fclk := rfl
@[simp] theorem setBus_ran (b : Bus) : (s.setBus b).ran = s.ran := rfl
@[simp] theorem setBus_cues (b : Bus) : (s.setBus b).cues = s.cues := rfl
@[simp] theorem setBus_commits (b : Bus) : (s.setBus b).commits = s.commits := rfl
@[simp] theorem setBus_tickets (b : Bus) : (s.setBus b).tickets = s.tickets := rfl
@[simp] theorem setBus_engines (b : Bus) : (s.setBus b).engines = s.engines := rfl
@[simp] theorem setBus_flows (b : Bus) : (s.setBus b).flows = s.flows := rfl
@[simp] theorem setBus_chain (b : Bus) : (s.setBus b).chain = s.chain := rfl
@[simp] theorem setBus_encFill (b : Bus) : (s.setBus b).encFill = s.encFill := rfl
@[simp] theorem setBus_sigs (b : Bus) : (s.setBus b).sigs = s.sigs := rfl
@[simp] theorem setBus_mcus (b : Bus) : (s.setBus b).mcus = s.mcus := rfl
@[simp] theorem setBus_swap (b : Bus) : (s.setBus b).swap = s.swap := rfl
@[simp] theorem setBus_copying (b : Bus) : (s.setBus b).copying = s.copying := rfl
@[simp] theorem setBus_copyWaits (b : Bus) : (s.setBus b).copyWaits = s.copyWaits := rfl
@[simp] theorem setBus_chans (b : Bus) : (s.setBus b).chans = s.chans := rfl
@[simp] theorem setBus_blits (b : Bus) : (s.setBus b).blits = s.blits := rfl
@[simp] theorem setBus_bltWait (b : Bus) : (s.setBus b).bltWait = s.bltWait := rfl
@[simp] theorem setBus_serv (b : Bus) : (s.setBus b).serv = s.serv := rfl
@[simp] theorem setBus_aon (b : Bus) : (s.setBus b).aon = s.aon := rfl
@[simp] theorem setBus_quadIdle (b : Bus) : (s.setBus b).quadIdle = s.quadIdle := rfl
@[simp] theorem setBus_read_reg (b : Bus) (i : Nat) : (s.setBus b).reg i = s.reg i := rfl
@[simp] theorem setBus_read_lreg (b : Bus) (i : Nat) : (s.setBus b).lreg i = s.lreg i := rfl
@[simp] theorem setBus_read_f (b : Bus) (y : Fld) : (s.setBus b).f y = s.f y := rfl
@[simp] theorem setBus_read_fb (b : Bus) (y : Fld) : (s.setBus b).fb y = s.fb y := rfl
@[simp] theorem setBus_read_lf (b : Bus) (y : Fld) : (s.setBus b).lf y = s.lf y := rfl
@[simp] theorem setBus_read_lfb (b : Bus) (y : Fld) : (s.setBus b).lfb y = s.lfb y := rfl
@[simp] theorem setBus_read_raster (b : Bus) (i : Nat) : (s.setBus b).raster i = s.raster i := rfl
@[simp] theorem setBus_read_port (b : Bus) (i : Nat) : (s.setBus b).port i = s.port i := rfl
@[simp] theorem setBus_read_tq (b : Bus) : (s.setBus b).tq = s.tq := rfl
@[simp] theorem setBus_read_sig (b : Bus) (i : Nat) : (s.setBus b).sig i = s.sig i := rfl
@[simp] theorem setBus_read_engine (b : Bus) (i : Nat) : (s.setBus b).engine i = s.engine i := rfl
@[simp] theorem setBus_read_flow (b : Bus) (i : Nat) : (s.setBus b).flow i = s.flow i := rfl
@[simp] theorem setBus_read_chan (b : Bus) (i : Nat) : (s.setBus b).chan i = s.chan i := rfl
@[simp] theorem setBus_read_flagSet (b : Bus) (i j : Nat) : (s.setBus b).flagSet i j = s.flagSet i j := rfl
@[simp] theorem setBus_read_bytes (b : Bus) (i j : Nat) : (s.setBus b).bytes i j = s.bytes i j := rfl
@[simp] theorem setBus_read_rd (b : Bus) (i j : Nat) : (s.setBus b).rd i j = s.rd i j := rfl

/-! ### setTime -/

@[simp] theorem setTime_pending (t : Time) : (s.setTime t).pending = s.pending := rfl
@[simp] theorem setTime_free (t : Time) : (s.setTime t).free = s.free := rfl
@[simp] theorem setTime_cycle (t : Time) : (s.setTime t).cycle = s.cycle := rfl
@[simp] theorem setTime_regs (t : Time) : (s.setTime t).regs = s.regs := rfl
@[simp] theorem setTime_live (t : Time) : (s.setTime t).live = s.live := rfl
@[simp] theorem setTime_mem (t : Time) : (s.setTime t).mem = s.mem := rfl
@[simp] theorem setTime_poison (t : Time) : (s.setTime t).poison = s.poison := rfl
@[simp] theorem setTime_bus (t : Time) : (s.setTime t).bus = s.bus := rfl
@[simp] theorem setTime_nvm (t : Time) : (s.setTime t).nvm = s.nvm := rfl
@[simp] theorem setTime_rasters (t : Time) : (s.setTime t).rasters = s.rasters := rfl
@[simp] theorem setTime_ports (t : Time) : (s.setTime t).ports = s.ports := rfl
@[simp] theorem setTime_fclk (t : Time) : (s.setTime t).fclk = s.fclk := rfl
@[simp] theorem setTime_ran (t : Time) : (s.setTime t).ran = s.ran := rfl
@[simp] theorem setTime_cues (t : Time) : (s.setTime t).cues = s.cues := rfl
@[simp] theorem setTime_commits (t : Time) : (s.setTime t).commits = s.commits := rfl
@[simp] theorem setTime_tickets (t : Time) : (s.setTime t).tickets = s.tickets := rfl
@[simp] theorem setTime_engines (t : Time) : (s.setTime t).engines = s.engines := rfl
@[simp] theorem setTime_flows (t : Time) : (s.setTime t).flows = s.flows := rfl
@[simp] theorem setTime_chain (t : Time) : (s.setTime t).chain = s.chain := rfl
@[simp] theorem setTime_encFill (t : Time) : (s.setTime t).encFill = s.encFill := rfl
@[simp] theorem setTime_sigs (t : Time) : (s.setTime t).sigs = s.sigs := rfl
@[simp] theorem setTime_mcus (t : Time) : (s.setTime t).mcus = s.mcus := rfl
@[simp] theorem setTime_swap (t : Time) : (s.setTime t).swap = s.swap := rfl
@[simp] theorem setTime_copying (t : Time) : (s.setTime t).copying = s.copying := rfl
@[simp] theorem setTime_copyWaits (t : Time) : (s.setTime t).copyWaits = s.copyWaits := rfl
@[simp] theorem setTime_chans (t : Time) : (s.setTime t).chans = s.chans := rfl
@[simp] theorem setTime_blits (t : Time) : (s.setTime t).blits = s.blits := rfl
@[simp] theorem setTime_bltWait (t : Time) : (s.setTime t).bltWait = s.bltWait := rfl
@[simp] theorem setTime_serv (t : Time) : (s.setTime t).serv = s.serv := rfl
@[simp] theorem setTime_aon (t : Time) : (s.setTime t).aon = s.aon := rfl
@[simp] theorem setTime_quadIdle (t : Time) : (s.setTime t).quadIdle = s.quadIdle := rfl
@[simp] theorem setTime_read_reg (t : Time) (i : Nat) : (s.setTime t).reg i = s.reg i := rfl
@[simp] theorem setTime_read_lreg (t : Time) (i : Nat) : (s.setTime t).lreg i = s.lreg i := rfl
@[simp] theorem setTime_read_f (t : Time) (y : Fld) : (s.setTime t).f y = s.f y := rfl
@[simp] theorem setTime_read_fb (t : Time) (y : Fld) : (s.setTime t).fb y = s.fb y := rfl
@[simp] theorem setTime_read_lf (t : Time) (y : Fld) : (s.setTime t).lf y = s.lf y := rfl
@[simp] theorem setTime_read_lfb (t : Time) (y : Fld) : (s.setTime t).lfb y = s.lfb y := rfl
@[simp] theorem setTime_read_slowReg (t : Time) (i : Nat) : (s.setTime t).slowReg i = s.slowReg i := rfl
@[simp] theorem setTime_read_sf (t : Time) (y : Fld) : (s.setTime t).sf y = s.sf y := rfl
@[simp] theorem setTime_read_raster (t : Time) (i : Nat) : (s.setTime t).raster i = s.raster i := rfl
@[simp] theorem setTime_read_port (t : Time) (i : Nat) : (s.setTime t).port i = s.port i := rfl
@[simp] theorem setTime_read_sig (t : Time) (i : Nat) : (s.setTime t).sig i = s.sig i := rfl
@[simp] theorem setTime_read_engine (t : Time) (i : Nat) : (s.setTime t).engine i = s.engine i := rfl
@[simp] theorem setTime_read_flow (t : Time) (i : Nat) : (s.setTime t).flow i = s.flow i := rfl
@[simp] theorem setTime_read_chan (t : Time) (i : Nat) : (s.setTime t).chan i = s.chan i := rfl
@[simp] theorem setTime_read_flagSet (t : Time) (i j : Nat) : (s.setTime t).flagSet i j = s.flagSet i j := rfl
@[simp] theorem setTime_read_bytes (t : Time) (i j : Nat) : (s.setTime t).bytes i j = s.bytes i j := rfl
@[simp] theorem setTime_read_rd (t : Time) (i j : Nat) : (s.setTime t).rd i j = s.rd i j := rfl

/-! ### setNvm -/

@[simp] theorem setNvm_pending (n : Nvm) : (s.setNvm n).pending = s.pending := rfl
@[simp] theorem setNvm_free (n : Nvm) : (s.setNvm n).free = s.free := rfl
@[simp] theorem setNvm_cycle (n : Nvm) : (s.setNvm n).cycle = s.cycle := rfl
@[simp] theorem setNvm_regs (n : Nvm) : (s.setNvm n).regs = s.regs := rfl
@[simp] theorem setNvm_live (n : Nvm) : (s.setNvm n).live = s.live := rfl
@[simp] theorem setNvm_mem (n : Nvm) : (s.setNvm n).mem = s.mem := rfl
@[simp] theorem setNvm_poison (n : Nvm) : (s.setNvm n).poison = s.poison := rfl
@[simp] theorem setNvm_bus (n : Nvm) : (s.setNvm n).bus = s.bus := rfl
@[simp] theorem setNvm_time (n : Nvm) : (s.setNvm n).time = s.time := rfl
@[simp] theorem setNvm_rasters (n : Nvm) : (s.setNvm n).rasters = s.rasters := rfl
@[simp] theorem setNvm_ports (n : Nvm) : (s.setNvm n).ports = s.ports := rfl
@[simp] theorem setNvm_fclk (n : Nvm) : (s.setNvm n).fclk = s.fclk := rfl
@[simp] theorem setNvm_ran (n : Nvm) : (s.setNvm n).ran = s.ran := rfl
@[simp] theorem setNvm_cues (n : Nvm) : (s.setNvm n).cues = s.cues := rfl
@[simp] theorem setNvm_commits (n : Nvm) : (s.setNvm n).commits = s.commits := rfl
@[simp] theorem setNvm_tickets (n : Nvm) : (s.setNvm n).tickets = s.tickets := rfl
@[simp] theorem setNvm_engines (n : Nvm) : (s.setNvm n).engines = s.engines := rfl
@[simp] theorem setNvm_flows (n : Nvm) : (s.setNvm n).flows = s.flows := rfl
@[simp] theorem setNvm_chain (n : Nvm) : (s.setNvm n).chain = s.chain := rfl
@[simp] theorem setNvm_encFill (n : Nvm) : (s.setNvm n).encFill = s.encFill := rfl
@[simp] theorem setNvm_sigs (n : Nvm) : (s.setNvm n).sigs = s.sigs := rfl
@[simp] theorem setNvm_mcus (n : Nvm) : (s.setNvm n).mcus = s.mcus := rfl
@[simp] theorem setNvm_swap (n : Nvm) : (s.setNvm n).swap = s.swap := rfl
@[simp] theorem setNvm_copying (n : Nvm) : (s.setNvm n).copying = s.copying := rfl
@[simp] theorem setNvm_copyWaits (n : Nvm) : (s.setNvm n).copyWaits = s.copyWaits := rfl
@[simp] theorem setNvm_chans (n : Nvm) : (s.setNvm n).chans = s.chans := rfl
@[simp] theorem setNvm_blits (n : Nvm) : (s.setNvm n).blits = s.blits := rfl
@[simp] theorem setNvm_bltWait (n : Nvm) : (s.setNvm n).bltWait = s.bltWait := rfl
@[simp] theorem setNvm_serv (n : Nvm) : (s.setNvm n).serv = s.serv := rfl
@[simp] theorem setNvm_aon (n : Nvm) : (s.setNvm n).aon = s.aon := rfl
@[simp] theorem setNvm_quadIdle (n : Nvm) : (s.setNvm n).quadIdle = s.quadIdle := rfl
@[simp] theorem setNvm_read_reg (n : Nvm) (i : Nat) : (s.setNvm n).reg i = s.reg i := rfl
@[simp] theorem setNvm_read_lreg (n : Nvm) (i : Nat) : (s.setNvm n).lreg i = s.lreg i := rfl
@[simp] theorem setNvm_read_f (n : Nvm) (y : Fld) : (s.setNvm n).f y = s.f y := rfl
@[simp] theorem setNvm_read_fb (n : Nvm) (y : Fld) : (s.setNvm n).fb y = s.fb y := rfl
@[simp] theorem setNvm_read_lf (n : Nvm) (y : Fld) : (s.setNvm n).lf y = s.lf y := rfl
@[simp] theorem setNvm_read_lfb (n : Nvm) (y : Fld) : (s.setNvm n).lfb y = s.lfb y := rfl
@[simp] theorem setNvm_read_slowReg (n : Nvm) (i : Nat) : (s.setNvm n).slowReg i = s.slowReg i := rfl
@[simp] theorem setNvm_read_sf (n : Nvm) (y : Fld) : (s.setNvm n).sf y = s.sf y := rfl
@[simp] theorem setNvm_read_raster (n : Nvm) (i : Nat) : (s.setNvm n).raster i = s.raster i := rfl
@[simp] theorem setNvm_read_port (n : Nvm) (i : Nat) : (s.setNvm n).port i = s.port i := rfl
@[simp] theorem setNvm_read_tq (n : Nvm) : (s.setNvm n).tq = s.tq := rfl
@[simp] theorem setNvm_read_sig (n : Nvm) (i : Nat) : (s.setNvm n).sig i = s.sig i := rfl
@[simp] theorem setNvm_read_engine (n : Nvm) (i : Nat) : (s.setNvm n).engine i = s.engine i := rfl
@[simp] theorem setNvm_read_flow (n : Nvm) (i : Nat) : (s.setNvm n).flow i = s.flow i := rfl
@[simp] theorem setNvm_read_chan (n : Nvm) (i : Nat) : (s.setNvm n).chan i = s.chan i := rfl
@[simp] theorem setNvm_read_flagSet (n : Nvm) (i j : Nat) : (s.setNvm n).flagSet i j = s.flagSet i j := rfl
@[simp] theorem setNvm_read_bytes (n : Nvm) (i j : Nat) : (s.setNvm n).bytes i j = s.bytes i j := rfl
@[simp] theorem setNvm_read_rd (n : Nvm) (i j : Nat) : (s.setNvm n).rd i j = s.rd i j := rfl

/-! ### setReg -/

@[simp] theorem setReg_pending (a : Nat) (v : Word) : (s.setReg a v).pending = s.pending := rfl
@[simp] theorem setReg_free (a : Nat) (v : Word) : (s.setReg a v).free = s.free := rfl
@[simp] theorem setReg_cycle (a : Nat) (v : Word) : (s.setReg a v).cycle = s.cycle := rfl
@[simp] theorem setReg_live (a : Nat) (v : Word) : (s.setReg a v).live = s.live := rfl
@[simp] theorem setReg_mem (a : Nat) (v : Word) : (s.setReg a v).mem = s.mem := rfl
@[simp] theorem setReg_poison (a : Nat) (v : Word) : (s.setReg a v).poison = s.poison := rfl
@[simp] theorem setReg_bus (a : Nat) (v : Word) : (s.setReg a v).bus = s.bus := rfl
@[simp] theorem setReg_nvm (a : Nat) (v : Word) : (s.setReg a v).nvm = s.nvm := rfl
@[simp] theorem setReg_time (a : Nat) (v : Word) : (s.setReg a v).time = s.time := rfl
@[simp] theorem setReg_rasters (a : Nat) (v : Word) : (s.setReg a v).rasters = s.rasters := rfl
@[simp] theorem setReg_ports (a : Nat) (v : Word) : (s.setReg a v).ports = s.ports := rfl
@[simp] theorem setReg_fclk (a : Nat) (v : Word) : (s.setReg a v).fclk = s.fclk := rfl
@[simp] theorem setReg_ran (a : Nat) (v : Word) : (s.setReg a v).ran = s.ran := rfl
@[simp] theorem setReg_cues (a : Nat) (v : Word) : (s.setReg a v).cues = s.cues := rfl
@[simp] theorem setReg_commits (a : Nat) (v : Word) : (s.setReg a v).commits = s.commits := rfl
@[simp] theorem setReg_tickets (a : Nat) (v : Word) : (s.setReg a v).tickets = s.tickets := rfl
@[simp] theorem setReg_engines (a : Nat) (v : Word) : (s.setReg a v).engines = s.engines := rfl
@[simp] theorem setReg_flows (a : Nat) (v : Word) : (s.setReg a v).flows = s.flows := rfl
@[simp] theorem setReg_chain (a : Nat) (v : Word) : (s.setReg a v).chain = s.chain := rfl
@[simp] theorem setReg_encFill (a : Nat) (v : Word) : (s.setReg a v).encFill = s.encFill := rfl
@[simp] theorem setReg_sigs (a : Nat) (v : Word) : (s.setReg a v).sigs = s.sigs := rfl
@[simp] theorem setReg_mcus (a : Nat) (v : Word) : (s.setReg a v).mcus = s.mcus := rfl
@[simp] theorem setReg_swap (a : Nat) (v : Word) : (s.setReg a v).swap = s.swap := rfl
@[simp] theorem setReg_copying (a : Nat) (v : Word) : (s.setReg a v).copying = s.copying := rfl
@[simp] theorem setReg_copyWaits (a : Nat) (v : Word) : (s.setReg a v).copyWaits = s.copyWaits := rfl
@[simp] theorem setReg_chans (a : Nat) (v : Word) : (s.setReg a v).chans = s.chans := rfl
@[simp] theorem setReg_blits (a : Nat) (v : Word) : (s.setReg a v).blits = s.blits := rfl
@[simp] theorem setReg_bltWait (a : Nat) (v : Word) : (s.setReg a v).bltWait = s.bltWait := rfl
@[simp] theorem setReg_serv (a : Nat) (v : Word) : (s.setReg a v).serv = s.serv := rfl
@[simp] theorem setReg_aon (a : Nat) (v : Word) : (s.setReg a v).aon = s.aon := rfl
@[simp] theorem setReg_quadIdle (a : Nat) (v : Word) : (s.setReg a v).quadIdle = s.quadIdle := rfl
@[simp] theorem setReg_read_lreg (a : Nat) (v : Word) (i : Nat) : (s.setReg a v).lreg i = s.lreg i := rfl
@[simp] theorem setReg_read_lf (a : Nat) (v : Word) (y : Fld) : (s.setReg a v).lf y = s.lf y := rfl
@[simp] theorem setReg_read_lfb (a : Nat) (v : Word) (y : Fld) : (s.setReg a v).lfb y = s.lfb y := rfl
@[simp] theorem setReg_read_slowReg (a : Nat) (v : Word) (i : Nat) : (s.setReg a v).slowReg i = s.slowReg i := rfl
@[simp] theorem setReg_read_sf (a : Nat) (v : Word) (y : Fld) : (s.setReg a v).sf y = s.sf y := rfl
@[simp] theorem setReg_read_raster (a : Nat) (v : Word) (i : Nat) : (s.setReg a v).raster i = s.raster i := rfl
@[simp] theorem setReg_read_port (a : Nat) (v : Word) (i : Nat) : (s.setReg a v).port i = s.port i := rfl
@[simp] theorem setReg_read_tq (a : Nat) (v : Word) : (s.setReg a v).tq = s.tq := rfl
@[simp] theorem setReg_read_sig (a : Nat) (v : Word) (i : Nat) : (s.setReg a v).sig i = s.sig i := rfl
@[simp] theorem setReg_read_engine (a : Nat) (v : Word) (i : Nat) : (s.setReg a v).engine i = s.engine i := rfl
@[simp] theorem setReg_read_flow (a : Nat) (v : Word) (i : Nat) : (s.setReg a v).flow i = s.flow i := rfl
@[simp] theorem setReg_read_chan (a : Nat) (v : Word) (i : Nat) : (s.setReg a v).chan i = s.chan i := rfl
@[simp] theorem setReg_read_bytes (a : Nat) (v : Word) (i j : Nat) : (s.setReg a v).bytes i j = s.bytes i j := rfl
@[simp] theorem setReg_read_rd (a : Nat) (v : Word) (i j : Nat) : (s.setReg a v).rd i j = s.rd i j := rfl

/-! ### setLreg -/

@[simp] theorem setLreg_pending (a : Nat) (v : Word) : (s.setLreg a v).pending = s.pending := rfl
@[simp] theorem setLreg_free (a : Nat) (v : Word) : (s.setLreg a v).free = s.free := rfl
@[simp] theorem setLreg_cycle (a : Nat) (v : Word) : (s.setLreg a v).cycle = s.cycle := rfl
@[simp] theorem setLreg_regs (a : Nat) (v : Word) : (s.setLreg a v).regs = s.regs := rfl
@[simp] theorem setLreg_mem (a : Nat) (v : Word) : (s.setLreg a v).mem = s.mem := rfl
@[simp] theorem setLreg_poison (a : Nat) (v : Word) : (s.setLreg a v).poison = s.poison := rfl
@[simp] theorem setLreg_bus (a : Nat) (v : Word) : (s.setLreg a v).bus = s.bus := rfl
@[simp] theorem setLreg_nvm (a : Nat) (v : Word) : (s.setLreg a v).nvm = s.nvm := rfl
@[simp] theorem setLreg_time (a : Nat) (v : Word) : (s.setLreg a v).time = s.time := rfl
@[simp] theorem setLreg_rasters (a : Nat) (v : Word) : (s.setLreg a v).rasters = s.rasters := rfl
@[simp] theorem setLreg_ports (a : Nat) (v : Word) : (s.setLreg a v).ports = s.ports := rfl
@[simp] theorem setLreg_fclk (a : Nat) (v : Word) : (s.setLreg a v).fclk = s.fclk := rfl
@[simp] theorem setLreg_ran (a : Nat) (v : Word) : (s.setLreg a v).ran = s.ran := rfl
@[simp] theorem setLreg_cues (a : Nat) (v : Word) : (s.setLreg a v).cues = s.cues := rfl
@[simp] theorem setLreg_commits (a : Nat) (v : Word) : (s.setLreg a v).commits = s.commits := rfl
@[simp] theorem setLreg_tickets (a : Nat) (v : Word) : (s.setLreg a v).tickets = s.tickets := rfl
@[simp] theorem setLreg_engines (a : Nat) (v : Word) : (s.setLreg a v).engines = s.engines := rfl
@[simp] theorem setLreg_flows (a : Nat) (v : Word) : (s.setLreg a v).flows = s.flows := rfl
@[simp] theorem setLreg_chain (a : Nat) (v : Word) : (s.setLreg a v).chain = s.chain := rfl
@[simp] theorem setLreg_encFill (a : Nat) (v : Word) : (s.setLreg a v).encFill = s.encFill := rfl
@[simp] theorem setLreg_sigs (a : Nat) (v : Word) : (s.setLreg a v).sigs = s.sigs := rfl
@[simp] theorem setLreg_mcus (a : Nat) (v : Word) : (s.setLreg a v).mcus = s.mcus := rfl
@[simp] theorem setLreg_swap (a : Nat) (v : Word) : (s.setLreg a v).swap = s.swap := rfl
@[simp] theorem setLreg_copying (a : Nat) (v : Word) : (s.setLreg a v).copying = s.copying := rfl
@[simp] theorem setLreg_copyWaits (a : Nat) (v : Word) : (s.setLreg a v).copyWaits = s.copyWaits := rfl
@[simp] theorem setLreg_chans (a : Nat) (v : Word) : (s.setLreg a v).chans = s.chans := rfl
@[simp] theorem setLreg_blits (a : Nat) (v : Word) : (s.setLreg a v).blits = s.blits := rfl
@[simp] theorem setLreg_bltWait (a : Nat) (v : Word) : (s.setLreg a v).bltWait = s.bltWait := rfl
@[simp] theorem setLreg_serv (a : Nat) (v : Word) : (s.setLreg a v).serv = s.serv := rfl
@[simp] theorem setLreg_aon (a : Nat) (v : Word) : (s.setLreg a v).aon = s.aon := rfl
@[simp] theorem setLreg_quadIdle (a : Nat) (v : Word) : (s.setLreg a v).quadIdle = s.quadIdle := rfl
@[simp] theorem setLreg_read_reg (a : Nat) (v : Word) (i : Nat) : (s.setLreg a v).reg i = s.reg i := rfl
@[simp] theorem setLreg_read_f (a : Nat) (v : Word) (y : Fld) : (s.setLreg a v).f y = s.f y := rfl
@[simp] theorem setLreg_read_fb (a : Nat) (v : Word) (y : Fld) : (s.setLreg a v).fb y = s.fb y := rfl
@[simp] theorem setLreg_read_slowReg (a : Nat) (v : Word) (i : Nat) : (s.setLreg a v).slowReg i = s.slowReg i := rfl
@[simp] theorem setLreg_read_sf (a : Nat) (v : Word) (y : Fld) : (s.setLreg a v).sf y = s.sf y := rfl
@[simp] theorem setLreg_read_raster (a : Nat) (v : Word) (i : Nat) : (s.setLreg a v).raster i = s.raster i := rfl
@[simp] theorem setLreg_read_port (a : Nat) (v : Word) (i : Nat) : (s.setLreg a v).port i = s.port i := rfl
@[simp] theorem setLreg_read_tq (a : Nat) (v : Word) : (s.setLreg a v).tq = s.tq := rfl
@[simp] theorem setLreg_read_sig (a : Nat) (v : Word) (i : Nat) : (s.setLreg a v).sig i = s.sig i := rfl
@[simp] theorem setLreg_read_engine (a : Nat) (v : Word) (i : Nat) : (s.setLreg a v).engine i = s.engine i := rfl
@[simp] theorem setLreg_read_flow (a : Nat) (v : Word) (i : Nat) : (s.setLreg a v).flow i = s.flow i := rfl
@[simp] theorem setLreg_read_chan (a : Nat) (v : Word) (i : Nat) : (s.setLreg a v).chan i = s.chan i := rfl
@[simp] theorem setLreg_read_flagSet (a : Nat) (v : Word) (i j : Nat) : (s.setLreg a v).flagSet i j = s.flagSet i j := rfl
@[simp] theorem setLreg_read_bytes (a : Nat) (v : Word) (i j : Nat) : (s.setLreg a v).bytes i j = s.bytes i j := rfl
@[simp] theorem setLreg_read_rd (a : Nat) (v : Word) (i j : Nat) : (s.setLreg a v).rd i j = s.rd i j := rfl

/-! ### setF -/

@[simp] theorem setF_pending (x : Fld) (n : Nat) : (s.setF x n).pending = s.pending := rfl
@[simp] theorem setF_free (x : Fld) (n : Nat) : (s.setF x n).free = s.free := rfl
@[simp] theorem setF_cycle (x : Fld) (n : Nat) : (s.setF x n).cycle = s.cycle := rfl
@[simp] theorem setF_live (x : Fld) (n : Nat) : (s.setF x n).live = s.live := rfl
@[simp] theorem setF_mem (x : Fld) (n : Nat) : (s.setF x n).mem = s.mem := rfl
@[simp] theorem setF_poison (x : Fld) (n : Nat) : (s.setF x n).poison = s.poison := rfl
@[simp] theorem setF_bus (x : Fld) (n : Nat) : (s.setF x n).bus = s.bus := rfl
@[simp] theorem setF_nvm (x : Fld) (n : Nat) : (s.setF x n).nvm = s.nvm := rfl
@[simp] theorem setF_time (x : Fld) (n : Nat) : (s.setF x n).time = s.time := rfl
@[simp] theorem setF_rasters (x : Fld) (n : Nat) : (s.setF x n).rasters = s.rasters := rfl
@[simp] theorem setF_ports (x : Fld) (n : Nat) : (s.setF x n).ports = s.ports := rfl
@[simp] theorem setF_fclk (x : Fld) (n : Nat) : (s.setF x n).fclk = s.fclk := rfl
@[simp] theorem setF_ran (x : Fld) (n : Nat) : (s.setF x n).ran = s.ran := rfl
@[simp] theorem setF_cues (x : Fld) (n : Nat) : (s.setF x n).cues = s.cues := rfl
@[simp] theorem setF_commits (x : Fld) (n : Nat) : (s.setF x n).commits = s.commits := rfl
@[simp] theorem setF_tickets (x : Fld) (n : Nat) : (s.setF x n).tickets = s.tickets := rfl
@[simp] theorem setF_engines (x : Fld) (n : Nat) : (s.setF x n).engines = s.engines := rfl
@[simp] theorem setF_flows (x : Fld) (n : Nat) : (s.setF x n).flows = s.flows := rfl
@[simp] theorem setF_chain (x : Fld) (n : Nat) : (s.setF x n).chain = s.chain := rfl
@[simp] theorem setF_encFill (x : Fld) (n : Nat) : (s.setF x n).encFill = s.encFill := rfl
@[simp] theorem setF_sigs (x : Fld) (n : Nat) : (s.setF x n).sigs = s.sigs := rfl
@[simp] theorem setF_mcus (x : Fld) (n : Nat) : (s.setF x n).mcus = s.mcus := rfl
@[simp] theorem setF_swap (x : Fld) (n : Nat) : (s.setF x n).swap = s.swap := rfl
@[simp] theorem setF_copying (x : Fld) (n : Nat) : (s.setF x n).copying = s.copying := rfl
@[simp] theorem setF_copyWaits (x : Fld) (n : Nat) : (s.setF x n).copyWaits = s.copyWaits := rfl
@[simp] theorem setF_chans (x : Fld) (n : Nat) : (s.setF x n).chans = s.chans := rfl
@[simp] theorem setF_blits (x : Fld) (n : Nat) : (s.setF x n).blits = s.blits := rfl
@[simp] theorem setF_bltWait (x : Fld) (n : Nat) : (s.setF x n).bltWait = s.bltWait := rfl
@[simp] theorem setF_serv (x : Fld) (n : Nat) : (s.setF x n).serv = s.serv := rfl
@[simp] theorem setF_aon (x : Fld) (n : Nat) : (s.setF x n).aon = s.aon := rfl
@[simp] theorem setF_quadIdle (x : Fld) (n : Nat) : (s.setF x n).quadIdle = s.quadIdle := rfl
@[simp] theorem setF_read_lreg (x : Fld) (n : Nat) (i : Nat) : (s.setF x n).lreg i = s.lreg i := rfl
@[simp] theorem setF_read_lf (x : Fld) (n : Nat) (y : Fld) : (s.setF x n).lf y = s.lf y := rfl
@[simp] theorem setF_read_lfb (x : Fld) (n : Nat) (y : Fld) : (s.setF x n).lfb y = s.lfb y := rfl
@[simp] theorem setF_read_slowReg (x : Fld) (n : Nat) (i : Nat) : (s.setF x n).slowReg i = s.slowReg i := rfl
@[simp] theorem setF_read_sf (x : Fld) (n : Nat) (y : Fld) : (s.setF x n).sf y = s.sf y := rfl
@[simp] theorem setF_read_raster (x : Fld) (n : Nat) (i : Nat) : (s.setF x n).raster i = s.raster i := rfl
@[simp] theorem setF_read_port (x : Fld) (n : Nat) (i : Nat) : (s.setF x n).port i = s.port i := rfl
@[simp] theorem setF_read_tq (x : Fld) (n : Nat) : (s.setF x n).tq = s.tq := rfl
@[simp] theorem setF_read_sig (x : Fld) (n : Nat) (i : Nat) : (s.setF x n).sig i = s.sig i := rfl
@[simp] theorem setF_read_engine (x : Fld) (n : Nat) (i : Nat) : (s.setF x n).engine i = s.engine i := rfl
@[simp] theorem setF_read_flow (x : Fld) (n : Nat) (i : Nat) : (s.setF x n).flow i = s.flow i := rfl
@[simp] theorem setF_read_chan (x : Fld) (n : Nat) (i : Nat) : (s.setF x n).chan i = s.chan i := rfl
@[simp] theorem setF_read_bytes (x : Fld) (n : Nat) (i j : Nat) : (s.setF x n).bytes i j = s.bytes i j := rfl
@[simp] theorem setF_read_rd (x : Fld) (n : Nat) (i j : Nat) : (s.setF x n).rd i j = s.rd i j := rfl

/-! ### setLf -/

@[simp] theorem setLf_pending (x : Fld) (n : Nat) : (s.setLf x n).pending = s.pending := rfl
@[simp] theorem setLf_free (x : Fld) (n : Nat) : (s.setLf x n).free = s.free := rfl
@[simp] theorem setLf_cycle (x : Fld) (n : Nat) : (s.setLf x n).cycle = s.cycle := rfl
@[simp] theorem setLf_regs (x : Fld) (n : Nat) : (s.setLf x n).regs = s.regs := rfl
@[simp] theorem setLf_mem (x : Fld) (n : Nat) : (s.setLf x n).mem = s.mem := rfl
@[simp] theorem setLf_poison (x : Fld) (n : Nat) : (s.setLf x n).poison = s.poison := rfl
@[simp] theorem setLf_bus (x : Fld) (n : Nat) : (s.setLf x n).bus = s.bus := rfl
@[simp] theorem setLf_nvm (x : Fld) (n : Nat) : (s.setLf x n).nvm = s.nvm := rfl
@[simp] theorem setLf_time (x : Fld) (n : Nat) : (s.setLf x n).time = s.time := rfl
@[simp] theorem setLf_rasters (x : Fld) (n : Nat) : (s.setLf x n).rasters = s.rasters := rfl
@[simp] theorem setLf_ports (x : Fld) (n : Nat) : (s.setLf x n).ports = s.ports := rfl
@[simp] theorem setLf_fclk (x : Fld) (n : Nat) : (s.setLf x n).fclk = s.fclk := rfl
@[simp] theorem setLf_ran (x : Fld) (n : Nat) : (s.setLf x n).ran = s.ran := rfl
@[simp] theorem setLf_cues (x : Fld) (n : Nat) : (s.setLf x n).cues = s.cues := rfl
@[simp] theorem setLf_commits (x : Fld) (n : Nat) : (s.setLf x n).commits = s.commits := rfl
@[simp] theorem setLf_tickets (x : Fld) (n : Nat) : (s.setLf x n).tickets = s.tickets := rfl
@[simp] theorem setLf_engines (x : Fld) (n : Nat) : (s.setLf x n).engines = s.engines := rfl
@[simp] theorem setLf_flows (x : Fld) (n : Nat) : (s.setLf x n).flows = s.flows := rfl
@[simp] theorem setLf_chain (x : Fld) (n : Nat) : (s.setLf x n).chain = s.chain := rfl
@[simp] theorem setLf_encFill (x : Fld) (n : Nat) : (s.setLf x n).encFill = s.encFill := rfl
@[simp] theorem setLf_sigs (x : Fld) (n : Nat) : (s.setLf x n).sigs = s.sigs := rfl
@[simp] theorem setLf_mcus (x : Fld) (n : Nat) : (s.setLf x n).mcus = s.mcus := rfl
@[simp] theorem setLf_swap (x : Fld) (n : Nat) : (s.setLf x n).swap = s.swap := rfl
@[simp] theorem setLf_copying (x : Fld) (n : Nat) : (s.setLf x n).copying = s.copying := rfl
@[simp] theorem setLf_copyWaits (x : Fld) (n : Nat) : (s.setLf x n).copyWaits = s.copyWaits := rfl
@[simp] theorem setLf_chans (x : Fld) (n : Nat) : (s.setLf x n).chans = s.chans := rfl
@[simp] theorem setLf_blits (x : Fld) (n : Nat) : (s.setLf x n).blits = s.blits := rfl
@[simp] theorem setLf_bltWait (x : Fld) (n : Nat) : (s.setLf x n).bltWait = s.bltWait := rfl
@[simp] theorem setLf_serv (x : Fld) (n : Nat) : (s.setLf x n).serv = s.serv := rfl
@[simp] theorem setLf_aon (x : Fld) (n : Nat) : (s.setLf x n).aon = s.aon := rfl
@[simp] theorem setLf_quadIdle (x : Fld) (n : Nat) : (s.setLf x n).quadIdle = s.quadIdle := rfl
@[simp] theorem setLf_read_reg (x : Fld) (n : Nat) (i : Nat) : (s.setLf x n).reg i = s.reg i := rfl
@[simp] theorem setLf_read_f (x : Fld) (n : Nat) (y : Fld) : (s.setLf x n).f y = s.f y := rfl
@[simp] theorem setLf_read_fb (x : Fld) (n : Nat) (y : Fld) : (s.setLf x n).fb y = s.fb y := rfl
@[simp] theorem setLf_read_slowReg (x : Fld) (n : Nat) (i : Nat) : (s.setLf x n).slowReg i = s.slowReg i := rfl
@[simp] theorem setLf_read_sf (x : Fld) (n : Nat) (y : Fld) : (s.setLf x n).sf y = s.sf y := rfl
@[simp] theorem setLf_read_raster (x : Fld) (n : Nat) (i : Nat) : (s.setLf x n).raster i = s.raster i := rfl
@[simp] theorem setLf_read_port (x : Fld) (n : Nat) (i : Nat) : (s.setLf x n).port i = s.port i := rfl
@[simp] theorem setLf_read_tq (x : Fld) (n : Nat) : (s.setLf x n).tq = s.tq := rfl
@[simp] theorem setLf_read_sig (x : Fld) (n : Nat) (i : Nat) : (s.setLf x n).sig i = s.sig i := rfl
@[simp] theorem setLf_read_engine (x : Fld) (n : Nat) (i : Nat) : (s.setLf x n).engine i = s.engine i := rfl
@[simp] theorem setLf_read_flow (x : Fld) (n : Nat) (i : Nat) : (s.setLf x n).flow i = s.flow i := rfl
@[simp] theorem setLf_read_chan (x : Fld) (n : Nat) (i : Nat) : (s.setLf x n).chan i = s.chan i := rfl
@[simp] theorem setLf_read_flagSet (x : Fld) (n : Nat) (i j : Nat) : (s.setLf x n).flagSet i j = s.flagSet i j := rfl
@[simp] theorem setLf_read_bytes (x : Fld) (n : Nat) (i j : Nat) : (s.setLf x n).bytes i j = s.bytes i j := rfl
@[simp] theorem setLf_read_rd (x : Fld) (n : Nat) (i j : Nat) : (s.setLf x n).rd i j = s.rd i j := rfl

/-! ### store -/

@[simp] theorem store_pending (a : Nat) (bs : List Byte) : (s.store a bs).pending = s.pending := rfl
@[simp] theorem store_free (a : Nat) (bs : List Byte) : (s.store a bs).free = s.free := rfl
@[simp] theorem store_cycle (a : Nat) (bs : List Byte) : (s.store a bs).cycle = s.cycle := rfl
@[simp] theorem store_regs (a : Nat) (bs : List Byte) : (s.store a bs).regs = s.regs := rfl
@[simp] theorem store_live (a : Nat) (bs : List Byte) : (s.store a bs).live = s.live := rfl
@[simp] theorem store_poison (a : Nat) (bs : List Byte) : (s.store a bs).poison = s.poison := rfl
@[simp] theorem store_bus (a : Nat) (bs : List Byte) : (s.store a bs).bus = s.bus := rfl
@[simp] theorem store_nvm (a : Nat) (bs : List Byte) : (s.store a bs).nvm = s.nvm := rfl
@[simp] theorem store_time (a : Nat) (bs : List Byte) : (s.store a bs).time = s.time := rfl
@[simp] theorem store_rasters (a : Nat) (bs : List Byte) : (s.store a bs).rasters = s.rasters := rfl
@[simp] theorem store_ports (a : Nat) (bs : List Byte) : (s.store a bs).ports = s.ports := rfl
@[simp] theorem store_fclk (a : Nat) (bs : List Byte) : (s.store a bs).fclk = s.fclk := rfl
@[simp] theorem store_ran (a : Nat) (bs : List Byte) : (s.store a bs).ran = s.ran := rfl
@[simp] theorem store_cues (a : Nat) (bs : List Byte) : (s.store a bs).cues = s.cues := rfl
@[simp] theorem store_commits (a : Nat) (bs : List Byte) : (s.store a bs).commits = s.commits := rfl
@[simp] theorem store_tickets (a : Nat) (bs : List Byte) : (s.store a bs).tickets = s.tickets := rfl
@[simp] theorem store_engines (a : Nat) (bs : List Byte) : (s.store a bs).engines = s.engines := rfl
@[simp] theorem store_flows (a : Nat) (bs : List Byte) : (s.store a bs).flows = s.flows := rfl
@[simp] theorem store_chain (a : Nat) (bs : List Byte) : (s.store a bs).chain = s.chain := rfl
@[simp] theorem store_encFill (a : Nat) (bs : List Byte) : (s.store a bs).encFill = s.encFill := rfl
@[simp] theorem store_sigs (a : Nat) (bs : List Byte) : (s.store a bs).sigs = s.sigs := rfl
@[simp] theorem store_mcus (a : Nat) (bs : List Byte) : (s.store a bs).mcus = s.mcus := rfl
@[simp] theorem store_swap (a : Nat) (bs : List Byte) : (s.store a bs).swap = s.swap := rfl
@[simp] theorem store_copying (a : Nat) (bs : List Byte) : (s.store a bs).copying = s.copying := rfl
@[simp] theorem store_copyWaits (a : Nat) (bs : List Byte) : (s.store a bs).copyWaits = s.copyWaits := rfl
@[simp] theorem store_chans (a : Nat) (bs : List Byte) : (s.store a bs).chans = s.chans := rfl
@[simp] theorem store_blits (a : Nat) (bs : List Byte) : (s.store a bs).blits = s.blits := rfl
@[simp] theorem store_bltWait (a : Nat) (bs : List Byte) : (s.store a bs).bltWait = s.bltWait := rfl
@[simp] theorem store_serv (a : Nat) (bs : List Byte) : (s.store a bs).serv = s.serv := rfl
@[simp] theorem store_aon (a : Nat) (bs : List Byte) : (s.store a bs).aon = s.aon := rfl
@[simp] theorem store_quadIdle (a : Nat) (bs : List Byte) : (s.store a bs).quadIdle = s.quadIdle := rfl
@[simp] theorem store_read_reg (a : Nat) (bs : List Byte) (i : Nat) : (s.store a bs).reg i = s.reg i := rfl
@[simp] theorem store_read_lreg (a : Nat) (bs : List Byte) (i : Nat) : (s.store a bs).lreg i = s.lreg i := rfl
@[simp] theorem store_read_f (a : Nat) (bs : List Byte) (y : Fld) : (s.store a bs).f y = s.f y := rfl
@[simp] theorem store_read_fb (a : Nat) (bs : List Byte) (y : Fld) : (s.store a bs).fb y = s.fb y := rfl
@[simp] theorem store_read_lf (a : Nat) (bs : List Byte) (y : Fld) : (s.store a bs).lf y = s.lf y := rfl
@[simp] theorem store_read_lfb (a : Nat) (bs : List Byte) (y : Fld) : (s.store a bs).lfb y = s.lfb y := rfl
@[simp] theorem store_read_slowReg (a : Nat) (bs : List Byte) (i : Nat) : (s.store a bs).slowReg i = s.slowReg i := rfl
@[simp] theorem store_read_sf (a : Nat) (bs : List Byte) (y : Fld) : (s.store a bs).sf y = s.sf y := rfl
@[simp] theorem store_read_raster (a : Nat) (bs : List Byte) (i : Nat) : (s.store a bs).raster i = s.raster i := rfl
@[simp] theorem store_read_port (a : Nat) (bs : List Byte) (i : Nat) : (s.store a bs).port i = s.port i := rfl
@[simp] theorem store_read_tq (a : Nat) (bs : List Byte) : (s.store a bs).tq = s.tq := rfl
@[simp] theorem store_read_sig (a : Nat) (bs : List Byte) (i : Nat) : (s.store a bs).sig i = s.sig i := rfl
@[simp] theorem store_read_engine (a : Nat) (bs : List Byte) (i : Nat) : (s.store a bs).engine i = s.engine i := rfl
@[simp] theorem store_read_flow (a : Nat) (bs : List Byte) (i : Nat) : (s.store a bs).flow i = s.flow i := rfl
@[simp] theorem store_read_chan (a : Nat) (bs : List Byte) (i : Nat) : (s.store a bs).chan i = s.chan i := rfl
@[simp] theorem store_read_flagSet (a : Nat) (bs : List Byte) (i j : Nat) : (s.store a bs).flagSet i j = s.flagSet i j := rfl

/-! ### addPoison -/

@[simp] theorem addPoison_pending (a n : Nat) : (s.addPoison a n).pending = s.pending := rfl
@[simp] theorem addPoison_free (a n : Nat) : (s.addPoison a n).free = s.free := rfl
@[simp] theorem addPoison_cycle (a n : Nat) : (s.addPoison a n).cycle = s.cycle := rfl
@[simp] theorem addPoison_regs (a n : Nat) : (s.addPoison a n).regs = s.regs := rfl
@[simp] theorem addPoison_live (a n : Nat) : (s.addPoison a n).live = s.live := rfl
@[simp] theorem addPoison_mem (a n : Nat) : (s.addPoison a n).mem = s.mem := rfl
@[simp] theorem addPoison_bus (a n : Nat) : (s.addPoison a n).bus = s.bus := rfl
@[simp] theorem addPoison_nvm (a n : Nat) : (s.addPoison a n).nvm = s.nvm := rfl
@[simp] theorem addPoison_time (a n : Nat) : (s.addPoison a n).time = s.time := rfl
@[simp] theorem addPoison_rasters (a n : Nat) : (s.addPoison a n).rasters = s.rasters := rfl
@[simp] theorem addPoison_ports (a n : Nat) : (s.addPoison a n).ports = s.ports := rfl
@[simp] theorem addPoison_fclk (a n : Nat) : (s.addPoison a n).fclk = s.fclk := rfl
@[simp] theorem addPoison_ran (a n : Nat) : (s.addPoison a n).ran = s.ran := rfl
@[simp] theorem addPoison_cues (a n : Nat) : (s.addPoison a n).cues = s.cues := rfl
@[simp] theorem addPoison_commits (a n : Nat) : (s.addPoison a n).commits = s.commits := rfl
@[simp] theorem addPoison_tickets (a n : Nat) : (s.addPoison a n).tickets = s.tickets := rfl
@[simp] theorem addPoison_engines (a n : Nat) : (s.addPoison a n).engines = s.engines := rfl
@[simp] theorem addPoison_flows (a n : Nat) : (s.addPoison a n).flows = s.flows := rfl
@[simp] theorem addPoison_chain (a n : Nat) : (s.addPoison a n).chain = s.chain := rfl
@[simp] theorem addPoison_encFill (a n : Nat) : (s.addPoison a n).encFill = s.encFill := rfl
@[simp] theorem addPoison_sigs (a n : Nat) : (s.addPoison a n).sigs = s.sigs := rfl
@[simp] theorem addPoison_mcus (a n : Nat) : (s.addPoison a n).mcus = s.mcus := rfl
@[simp] theorem addPoison_swap (a n : Nat) : (s.addPoison a n).swap = s.swap := rfl
@[simp] theorem addPoison_copying (a n : Nat) : (s.addPoison a n).copying = s.copying := rfl
@[simp] theorem addPoison_copyWaits (a n : Nat) : (s.addPoison a n).copyWaits = s.copyWaits := rfl
@[simp] theorem addPoison_chans (a n : Nat) : (s.addPoison a n).chans = s.chans := rfl
@[simp] theorem addPoison_blits (a n : Nat) : (s.addPoison a n).blits = s.blits := rfl
@[simp] theorem addPoison_bltWait (a n : Nat) : (s.addPoison a n).bltWait = s.bltWait := rfl
@[simp] theorem addPoison_serv (a n : Nat) : (s.addPoison a n).serv = s.serv := rfl
@[simp] theorem addPoison_aon (a n : Nat) : (s.addPoison a n).aon = s.aon := rfl
@[simp] theorem addPoison_quadIdle (a n : Nat) : (s.addPoison a n).quadIdle = s.quadIdle := rfl
@[simp] theorem addPoison_read_reg (a n : Nat) (i : Nat) : (s.addPoison a n).reg i = s.reg i := rfl
@[simp] theorem addPoison_read_lreg (a n : Nat) (i : Nat) : (s.addPoison a n).lreg i = s.lreg i := rfl
@[simp] theorem addPoison_read_f (a n : Nat) (y : Fld) : (s.addPoison a n).f y = s.f y := rfl
@[simp] theorem addPoison_read_fb (a n : Nat) (y : Fld) : (s.addPoison a n).fb y = s.fb y := rfl
@[simp] theorem addPoison_read_lf (a n : Nat) (y : Fld) : (s.addPoison a n).lf y = s.lf y := rfl
@[simp] theorem addPoison_read_lfb (a n : Nat) (y : Fld) : (s.addPoison a n).lfb y = s.lfb y := rfl
@[simp] theorem addPoison_read_slowReg (a n : Nat) (i : Nat) : (s.addPoison a n).slowReg i = s.slowReg i := rfl
@[simp] theorem addPoison_read_sf (a n : Nat) (y : Fld) : (s.addPoison a n).sf y = s.sf y := rfl
@[simp] theorem addPoison_read_raster (a n : Nat) (i : Nat) : (s.addPoison a n).raster i = s.raster i := rfl
@[simp] theorem addPoison_read_port (a n : Nat) (i : Nat) : (s.addPoison a n).port i = s.port i := rfl
@[simp] theorem addPoison_read_tq (a n : Nat) : (s.addPoison a n).tq = s.tq := rfl
@[simp] theorem addPoison_read_sig (a n : Nat) (i : Nat) : (s.addPoison a n).sig i = s.sig i := rfl
@[simp] theorem addPoison_read_engine (a n : Nat) (i : Nat) : (s.addPoison a n).engine i = s.engine i := rfl
@[simp] theorem addPoison_read_flow (a n : Nat) (i : Nat) : (s.addPoison a n).flow i = s.flow i := rfl
@[simp] theorem addPoison_read_chan (a n : Nat) (i : Nat) : (s.addPoison a n).chan i = s.chan i := rfl
@[simp] theorem addPoison_read_flagSet (a n : Nat) (i j : Nat) : (s.addPoison a n).flagSet i j = s.flagSet i j := rfl
@[simp] theorem addPoison_read_bytes (a n : Nat) (i j : Nat) : (s.addPoison a n).bytes i j = s.bytes i j := rfl
@[simp] theorem addPoison_read_rd (a n : Nat) (i j : Nat) : (s.addPoison a n).rd i j = s.rd i j := rfl

/-! ### clearPoison -/

@[simp] theorem clearPoison_pending (a n : Nat) : (s.clearPoison a n).pending = s.pending := rfl
@[simp] theorem clearPoison_free (a n : Nat) : (s.clearPoison a n).free = s.free := rfl
@[simp] theorem clearPoison_cycle (a n : Nat) : (s.clearPoison a n).cycle = s.cycle := rfl
@[simp] theorem clearPoison_regs (a n : Nat) : (s.clearPoison a n).regs = s.regs := rfl
@[simp] theorem clearPoison_live (a n : Nat) : (s.clearPoison a n).live = s.live := rfl
@[simp] theorem clearPoison_mem (a n : Nat) : (s.clearPoison a n).mem = s.mem := rfl
@[simp] theorem clearPoison_bus (a n : Nat) : (s.clearPoison a n).bus = s.bus := rfl
@[simp] theorem clearPoison_nvm (a n : Nat) : (s.clearPoison a n).nvm = s.nvm := rfl
@[simp] theorem clearPoison_time (a n : Nat) : (s.clearPoison a n).time = s.time := rfl
@[simp] theorem clearPoison_rasters (a n : Nat) : (s.clearPoison a n).rasters = s.rasters := rfl
@[simp] theorem clearPoison_ports (a n : Nat) : (s.clearPoison a n).ports = s.ports := rfl
@[simp] theorem clearPoison_fclk (a n : Nat) : (s.clearPoison a n).fclk = s.fclk := rfl
@[simp] theorem clearPoison_ran (a n : Nat) : (s.clearPoison a n).ran = s.ran := rfl
@[simp] theorem clearPoison_cues (a n : Nat) : (s.clearPoison a n).cues = s.cues := rfl
@[simp] theorem clearPoison_commits (a n : Nat) : (s.clearPoison a n).commits = s.commits := rfl
@[simp] theorem clearPoison_tickets (a n : Nat) : (s.clearPoison a n).tickets = s.tickets := rfl
@[simp] theorem clearPoison_engines (a n : Nat) : (s.clearPoison a n).engines = s.engines := rfl
@[simp] theorem clearPoison_flows (a n : Nat) : (s.clearPoison a n).flows = s.flows := rfl
@[simp] theorem clearPoison_chain (a n : Nat) : (s.clearPoison a n).chain = s.chain := rfl
@[simp] theorem clearPoison_encFill (a n : Nat) : (s.clearPoison a n).encFill = s.encFill := rfl
@[simp] theorem clearPoison_sigs (a n : Nat) : (s.clearPoison a n).sigs = s.sigs := rfl
@[simp] theorem clearPoison_mcus (a n : Nat) : (s.clearPoison a n).mcus = s.mcus := rfl
@[simp] theorem clearPoison_swap (a n : Nat) : (s.clearPoison a n).swap = s.swap := rfl
@[simp] theorem clearPoison_copying (a n : Nat) : (s.clearPoison a n).copying = s.copying := rfl
@[simp] theorem clearPoison_copyWaits (a n : Nat) : (s.clearPoison a n).copyWaits = s.copyWaits := rfl
@[simp] theorem clearPoison_chans (a n : Nat) : (s.clearPoison a n).chans = s.chans := rfl
@[simp] theorem clearPoison_blits (a n : Nat) : (s.clearPoison a n).blits = s.blits := rfl
@[simp] theorem clearPoison_bltWait (a n : Nat) : (s.clearPoison a n).bltWait = s.bltWait := rfl
@[simp] theorem clearPoison_serv (a n : Nat) : (s.clearPoison a n).serv = s.serv := rfl
@[simp] theorem clearPoison_aon (a n : Nat) : (s.clearPoison a n).aon = s.aon := rfl
@[simp] theorem clearPoison_quadIdle (a n : Nat) : (s.clearPoison a n).quadIdle = s.quadIdle := rfl
@[simp] theorem clearPoison_read_reg (a n : Nat) (i : Nat) : (s.clearPoison a n).reg i = s.reg i := rfl
@[simp] theorem clearPoison_read_lreg (a n : Nat) (i : Nat) : (s.clearPoison a n).lreg i = s.lreg i := rfl
@[simp] theorem clearPoison_read_f (a n : Nat) (y : Fld) : (s.clearPoison a n).f y = s.f y := rfl
@[simp] theorem clearPoison_read_fb (a n : Nat) (y : Fld) : (s.clearPoison a n).fb y = s.fb y := rfl
@[simp] theorem clearPoison_read_lf (a n : Nat) (y : Fld) : (s.clearPoison a n).lf y = s.lf y := rfl
@[simp] theorem clearPoison_read_lfb (a n : Nat) (y : Fld) : (s.clearPoison a n).lfb y = s.lfb y := rfl
@[simp] theorem clearPoison_read_slowReg (a n : Nat) (i : Nat) : (s.clearPoison a n).slowReg i = s.slowReg i := rfl
@[simp] theorem clearPoison_read_sf (a n : Nat) (y : Fld) : (s.clearPoison a n).sf y = s.sf y := rfl
@[simp] theorem clearPoison_read_raster (a n : Nat) (i : Nat) : (s.clearPoison a n).raster i = s.raster i := rfl
@[simp] theorem clearPoison_read_port (a n : Nat) (i : Nat) : (s.clearPoison a n).port i = s.port i := rfl
@[simp] theorem clearPoison_read_tq (a n : Nat) : (s.clearPoison a n).tq = s.tq := rfl
@[simp] theorem clearPoison_read_sig (a n : Nat) (i : Nat) : (s.clearPoison a n).sig i = s.sig i := rfl
@[simp] theorem clearPoison_read_engine (a n : Nat) (i : Nat) : (s.clearPoison a n).engine i = s.engine i := rfl
@[simp] theorem clearPoison_read_flow (a n : Nat) (i : Nat) : (s.clearPoison a n).flow i = s.flow i := rfl
@[simp] theorem clearPoison_read_chan (a n : Nat) (i : Nat) : (s.clearPoison a n).chan i = s.chan i := rfl
@[simp] theorem clearPoison_read_flagSet (a n : Nat) (i j : Nat) : (s.clearPoison a n).flagSet i j = s.flagSet i j := rfl
@[simp] theorem clearPoison_read_bytes (a n : Nat) (i j : Nat) : (s.clearPoison a n).bytes i j = s.bytes i j := rfl
@[simp] theorem clearPoison_read_rd (a n : Nat) (i j : Nat) : (s.clearPoison a n).rd i j = s.rd i j := rfl

/-! ### setSlow -/

@[simp] theorem setSlow_pending (a : Nat) (v : Word) : (s.setSlow a v).pending = s.pending := rfl
@[simp] theorem setSlow_free (a : Nat) (v : Word) : (s.setSlow a v).free = s.free := rfl
@[simp] theorem setSlow_cycle (a : Nat) (v : Word) : (s.setSlow a v).cycle = s.cycle := rfl
@[simp] theorem setSlow_regs (a : Nat) (v : Word) : (s.setSlow a v).regs = s.regs := rfl
@[simp] theorem setSlow_live (a : Nat) (v : Word) : (s.setSlow a v).live = s.live := rfl
@[simp] theorem setSlow_mem (a : Nat) (v : Word) : (s.setSlow a v).mem = s.mem := rfl
@[simp] theorem setSlow_poison (a : Nat) (v : Word) : (s.setSlow a v).poison = s.poison := rfl
@[simp] theorem setSlow_nvm (a : Nat) (v : Word) : (s.setSlow a v).nvm = s.nvm := rfl
@[simp] theorem setSlow_time (a : Nat) (v : Word) : (s.setSlow a v).time = s.time := rfl
@[simp] theorem setSlow_rasters (a : Nat) (v : Word) : (s.setSlow a v).rasters = s.rasters := rfl
@[simp] theorem setSlow_ports (a : Nat) (v : Word) : (s.setSlow a v).ports = s.ports := rfl
@[simp] theorem setSlow_fclk (a : Nat) (v : Word) : (s.setSlow a v).fclk = s.fclk := rfl
@[simp] theorem setSlow_ran (a : Nat) (v : Word) : (s.setSlow a v).ran = s.ran := rfl
@[simp] theorem setSlow_cues (a : Nat) (v : Word) : (s.setSlow a v).cues = s.cues := rfl
@[simp] theorem setSlow_commits (a : Nat) (v : Word) : (s.setSlow a v).commits = s.commits := rfl
@[simp] theorem setSlow_tickets (a : Nat) (v : Word) : (s.setSlow a v).tickets = s.tickets := rfl
@[simp] theorem setSlow_engines (a : Nat) (v : Word) : (s.setSlow a v).engines = s.engines := rfl
@[simp] theorem setSlow_flows (a : Nat) (v : Word) : (s.setSlow a v).flows = s.flows := rfl
@[simp] theorem setSlow_chain (a : Nat) (v : Word) : (s.setSlow a v).chain = s.chain := rfl
@[simp] theorem setSlow_encFill (a : Nat) (v : Word) : (s.setSlow a v).encFill = s.encFill := rfl
@[simp] theorem setSlow_sigs (a : Nat) (v : Word) : (s.setSlow a v).sigs = s.sigs := rfl
@[simp] theorem setSlow_mcus (a : Nat) (v : Word) : (s.setSlow a v).mcus = s.mcus := rfl
@[simp] theorem setSlow_swap (a : Nat) (v : Word) : (s.setSlow a v).swap = s.swap := rfl
@[simp] theorem setSlow_copying (a : Nat) (v : Word) : (s.setSlow a v).copying = s.copying := rfl
@[simp] theorem setSlow_copyWaits (a : Nat) (v : Word) : (s.setSlow a v).copyWaits = s.copyWaits := rfl
@[simp] theorem setSlow_chans (a : Nat) (v : Word) : (s.setSlow a v).chans = s.chans := rfl
@[simp] theorem setSlow_blits (a : Nat) (v : Word) : (s.setSlow a v).blits = s.blits := rfl
@[simp] theorem setSlow_bltWait (a : Nat) (v : Word) : (s.setSlow a v).bltWait = s.bltWait := rfl
@[simp] theorem setSlow_serv (a : Nat) (v : Word) : (s.setSlow a v).serv = s.serv := rfl
@[simp] theorem setSlow_aon (a : Nat) (v : Word) : (s.setSlow a v).aon = s.aon := rfl
@[simp] theorem setSlow_quadIdle (a : Nat) (v : Word) : (s.setSlow a v).quadIdle = s.quadIdle := rfl
@[simp] theorem setSlow_read_reg (a : Nat) (v : Word) (i : Nat) : (s.setSlow a v).reg i = s.reg i := rfl
@[simp] theorem setSlow_read_lreg (a : Nat) (v : Word) (i : Nat) : (s.setSlow a v).lreg i = s.lreg i := rfl
@[simp] theorem setSlow_read_f (a : Nat) (v : Word) (y : Fld) : (s.setSlow a v).f y = s.f y := rfl
@[simp] theorem setSlow_read_fb (a : Nat) (v : Word) (y : Fld) : (s.setSlow a v).fb y = s.fb y := rfl
@[simp] theorem setSlow_read_lf (a : Nat) (v : Word) (y : Fld) : (s.setSlow a v).lf y = s.lf y := rfl
@[simp] theorem setSlow_read_lfb (a : Nat) (v : Word) (y : Fld) : (s.setSlow a v).lfb y = s.lfb y := rfl
@[simp] theorem setSlow_read_raster (a : Nat) (v : Word) (i : Nat) : (s.setSlow a v).raster i = s.raster i := rfl
@[simp] theorem setSlow_read_port (a : Nat) (v : Word) (i : Nat) : (s.setSlow a v).port i = s.port i := rfl
@[simp] theorem setSlow_read_tq (a : Nat) (v : Word) : (s.setSlow a v).tq = s.tq := rfl
@[simp] theorem setSlow_read_sig (a : Nat) (v : Word) (i : Nat) : (s.setSlow a v).sig i = s.sig i := rfl
@[simp] theorem setSlow_read_engine (a : Nat) (v : Word) (i : Nat) : (s.setSlow a v).engine i = s.engine i := rfl
@[simp] theorem setSlow_read_flow (a : Nat) (v : Word) (i : Nat) : (s.setSlow a v).flow i = s.flow i := rfl
@[simp] theorem setSlow_read_chan (a : Nat) (v : Word) (i : Nat) : (s.setSlow a v).chan i = s.chan i := rfl
@[simp] theorem setSlow_read_flagSet (a : Nat) (v : Word) (i j : Nat) : (s.setSlow a v).flagSet i j = s.flagSet i j := rfl
@[simp] theorem setSlow_read_bytes (a : Nat) (v : Word) (i j : Nat) : (s.setSlow a v).bytes i j = s.bytes i j := rfl
@[simp] theorem setSlow_read_rd (a : Nat) (v : Word) (i j : Nat) : (s.setSlow a v).rd i j = s.rd i j := rfl

/-! ### setSf -/

@[simp] theorem setSf_pending (x : Fld) (n : Nat) : (s.setSf x n).pending = s.pending := rfl
@[simp] theorem setSf_free (x : Fld) (n : Nat) : (s.setSf x n).free = s.free := rfl
@[simp] theorem setSf_cycle (x : Fld) (n : Nat) : (s.setSf x n).cycle = s.cycle := rfl
@[simp] theorem setSf_regs (x : Fld) (n : Nat) : (s.setSf x n).regs = s.regs := rfl
@[simp] theorem setSf_live (x : Fld) (n : Nat) : (s.setSf x n).live = s.live := rfl
@[simp] theorem setSf_mem (x : Fld) (n : Nat) : (s.setSf x n).mem = s.mem := rfl
@[simp] theorem setSf_poison (x : Fld) (n : Nat) : (s.setSf x n).poison = s.poison := rfl
@[simp] theorem setSf_nvm (x : Fld) (n : Nat) : (s.setSf x n).nvm = s.nvm := rfl
@[simp] theorem setSf_time (x : Fld) (n : Nat) : (s.setSf x n).time = s.time := rfl
@[simp] theorem setSf_rasters (x : Fld) (n : Nat) : (s.setSf x n).rasters = s.rasters := rfl
@[simp] theorem setSf_ports (x : Fld) (n : Nat) : (s.setSf x n).ports = s.ports := rfl
@[simp] theorem setSf_fclk (x : Fld) (n : Nat) : (s.setSf x n).fclk = s.fclk := rfl
@[simp] theorem setSf_ran (x : Fld) (n : Nat) : (s.setSf x n).ran = s.ran := rfl
@[simp] theorem setSf_cues (x : Fld) (n : Nat) : (s.setSf x n).cues = s.cues := rfl
@[simp] theorem setSf_commits (x : Fld) (n : Nat) : (s.setSf x n).commits = s.commits := rfl
@[simp] theorem setSf_tickets (x : Fld) (n : Nat) : (s.setSf x n).tickets = s.tickets := rfl
@[simp] theorem setSf_engines (x : Fld) (n : Nat) : (s.setSf x n).engines = s.engines := rfl
@[simp] theorem setSf_flows (x : Fld) (n : Nat) : (s.setSf x n).flows = s.flows := rfl
@[simp] theorem setSf_chain (x : Fld) (n : Nat) : (s.setSf x n).chain = s.chain := rfl
@[simp] theorem setSf_encFill (x : Fld) (n : Nat) : (s.setSf x n).encFill = s.encFill := rfl
@[simp] theorem setSf_sigs (x : Fld) (n : Nat) : (s.setSf x n).sigs = s.sigs := rfl
@[simp] theorem setSf_mcus (x : Fld) (n : Nat) : (s.setSf x n).mcus = s.mcus := rfl
@[simp] theorem setSf_swap (x : Fld) (n : Nat) : (s.setSf x n).swap = s.swap := rfl
@[simp] theorem setSf_copying (x : Fld) (n : Nat) : (s.setSf x n).copying = s.copying := rfl
@[simp] theorem setSf_copyWaits (x : Fld) (n : Nat) : (s.setSf x n).copyWaits = s.copyWaits := rfl
@[simp] theorem setSf_chans (x : Fld) (n : Nat) : (s.setSf x n).chans = s.chans := rfl
@[simp] theorem setSf_blits (x : Fld) (n : Nat) : (s.setSf x n).blits = s.blits := rfl
@[simp] theorem setSf_bltWait (x : Fld) (n : Nat) : (s.setSf x n).bltWait = s.bltWait := rfl
@[simp] theorem setSf_serv (x : Fld) (n : Nat) : (s.setSf x n).serv = s.serv := rfl
@[simp] theorem setSf_aon (x : Fld) (n : Nat) : (s.setSf x n).aon = s.aon := rfl
@[simp] theorem setSf_quadIdle (x : Fld) (n : Nat) : (s.setSf x n).quadIdle = s.quadIdle := rfl
@[simp] theorem setSf_read_reg (x : Fld) (n : Nat) (i : Nat) : (s.setSf x n).reg i = s.reg i := rfl
@[simp] theorem setSf_read_lreg (x : Fld) (n : Nat) (i : Nat) : (s.setSf x n).lreg i = s.lreg i := rfl
@[simp] theorem setSf_read_f (x : Fld) (n : Nat) (y : Fld) : (s.setSf x n).f y = s.f y := rfl
@[simp] theorem setSf_read_fb (x : Fld) (n : Nat) (y : Fld) : (s.setSf x n).fb y = s.fb y := rfl
@[simp] theorem setSf_read_lf (x : Fld) (n : Nat) (y : Fld) : (s.setSf x n).lf y = s.lf y := rfl
@[simp] theorem setSf_read_lfb (x : Fld) (n : Nat) (y : Fld) : (s.setSf x n).lfb y = s.lfb y := rfl
@[simp] theorem setSf_read_raster (x : Fld) (n : Nat) (i : Nat) : (s.setSf x n).raster i = s.raster i := rfl
@[simp] theorem setSf_read_port (x : Fld) (n : Nat) (i : Nat) : (s.setSf x n).port i = s.port i := rfl
@[simp] theorem setSf_read_tq (x : Fld) (n : Nat) : (s.setSf x n).tq = s.tq := rfl
@[simp] theorem setSf_read_sig (x : Fld) (n : Nat) (i : Nat) : (s.setSf x n).sig i = s.sig i := rfl
@[simp] theorem setSf_read_engine (x : Fld) (n : Nat) (i : Nat) : (s.setSf x n).engine i = s.engine i := rfl
@[simp] theorem setSf_read_flow (x : Fld) (n : Nat) (i : Nat) : (s.setSf x n).flow i = s.flow i := rfl
@[simp] theorem setSf_read_chan (x : Fld) (n : Nat) (i : Nat) : (s.setSf x n).chan i = s.chan i := rfl
@[simp] theorem setSf_read_flagSet (x : Fld) (n : Nat) (i j : Nat) : (s.setSf x n).flagSet i j = s.flagSet i j := rfl
@[simp] theorem setSf_read_bytes (x : Fld) (n : Nat) (i j : Nat) : (s.setSf x n).bytes i j = s.bytes i j := rfl
@[simp] theorem setSf_read_rd (x : Fld) (n : Nat) (i j : Nat) : (s.setSf x n).rd i j = s.rd i j := rfl

/-! ### raiseAll -/

@[simp] theorem raiseAll_pending (a : Nat) (l : List Nat) : (s.raiseAll a l).pending = s.pending := rfl
@[simp] theorem raiseAll_free (a : Nat) (l : List Nat) : (s.raiseAll a l).free = s.free := rfl
@[simp] theorem raiseAll_live (a : Nat) (l : List Nat) : (s.raiseAll a l).live = s.live := rfl
@[simp] theorem raiseAll_mem (a : Nat) (l : List Nat) : (s.raiseAll a l).mem = s.mem := rfl
@[simp] theorem raiseAll_poison (a : Nat) (l : List Nat) : (s.raiseAll a l).poison = s.poison := rfl
@[simp] theorem raiseAll_bus (a : Nat) (l : List Nat) : (s.raiseAll a l).bus = s.bus := rfl
@[simp] theorem raiseAll_nvm (a : Nat) (l : List Nat) : (s.raiseAll a l).nvm = s.nvm := rfl
@[simp] theorem raiseAll_time (a : Nat) (l : List Nat) : (s.raiseAll a l).time = s.time := rfl
@[simp] theorem raiseAll_rasters (a : Nat) (l : List Nat) : (s.raiseAll a l).rasters = s.rasters := rfl
@[simp] theorem raiseAll_ports (a : Nat) (l : List Nat) : (s.raiseAll a l).ports = s.ports := rfl
@[simp] theorem raiseAll_fclk (a : Nat) (l : List Nat) : (s.raiseAll a l).fclk = s.fclk := rfl
@[simp] theorem raiseAll_ran (a : Nat) (l : List Nat) : (s.raiseAll a l).ran = s.ran := rfl
@[simp] theorem raiseAll_cues (a : Nat) (l : List Nat) : (s.raiseAll a l).cues = s.cues := rfl
@[simp] theorem raiseAll_commits (a : Nat) (l : List Nat) : (s.raiseAll a l).commits = s.commits := rfl
@[simp] theorem raiseAll_tickets (a : Nat) (l : List Nat) : (s.raiseAll a l).tickets = s.tickets := rfl
@[simp] theorem raiseAll_engines (a : Nat) (l : List Nat) : (s.raiseAll a l).engines = s.engines := rfl
@[simp] theorem raiseAll_flows (a : Nat) (l : List Nat) : (s.raiseAll a l).flows = s.flows := rfl
@[simp] theorem raiseAll_chain (a : Nat) (l : List Nat) : (s.raiseAll a l).chain = s.chain := rfl
@[simp] theorem raiseAll_encFill (a : Nat) (l : List Nat) : (s.raiseAll a l).encFill = s.encFill := rfl
@[simp] theorem raiseAll_sigs (a : Nat) (l : List Nat) : (s.raiseAll a l).sigs = s.sigs := rfl
@[simp] theorem raiseAll_mcus (a : Nat) (l : List Nat) : (s.raiseAll a l).mcus = s.mcus := rfl
@[simp] theorem raiseAll_swap (a : Nat) (l : List Nat) : (s.raiseAll a l).swap = s.swap := rfl
@[simp] theorem raiseAll_copying (a : Nat) (l : List Nat) : (s.raiseAll a l).copying = s.copying := rfl
@[simp] theorem raiseAll_copyWaits (a : Nat) (l : List Nat) : (s.raiseAll a l).copyWaits = s.copyWaits := rfl
@[simp] theorem raiseAll_chans (a : Nat) (l : List Nat) : (s.raiseAll a l).chans = s.chans := rfl
@[simp] theorem raiseAll_blits (a : Nat) (l : List Nat) : (s.raiseAll a l).blits = s.blits := rfl
@[simp] theorem raiseAll_bltWait (a : Nat) (l : List Nat) : (s.raiseAll a l).bltWait = s.bltWait := rfl
@[simp] theorem raiseAll_serv (a : Nat) (l : List Nat) : (s.raiseAll a l).serv = s.serv := rfl
@[simp] theorem raiseAll_aon (a : Nat) (l : List Nat) : (s.raiseAll a l).aon = s.aon := rfl
@[simp] theorem raiseAll_quadIdle (a : Nat) (l : List Nat) : (s.raiseAll a l).quadIdle = s.quadIdle := rfl
@[simp] theorem raiseAll_read_lreg (a : Nat) (l : List Nat) (i : Nat) : (s.raiseAll a l).lreg i = s.lreg i := rfl
@[simp] theorem raiseAll_read_lf (a : Nat) (l : List Nat) (y : Fld) : (s.raiseAll a l).lf y = s.lf y := rfl
@[simp] theorem raiseAll_read_lfb (a : Nat) (l : List Nat) (y : Fld) : (s.raiseAll a l).lfb y = s.lfb y := rfl
@[simp] theorem raiseAll_read_slowReg (a : Nat) (l : List Nat) (i : Nat) : (s.raiseAll a l).slowReg i = s.slowReg i := rfl
@[simp] theorem raiseAll_read_sf (a : Nat) (l : List Nat) (y : Fld) : (s.raiseAll a l).sf y = s.sf y := rfl
@[simp] theorem raiseAll_read_raster (a : Nat) (l : List Nat) (i : Nat) : (s.raiseAll a l).raster i = s.raster i := rfl
@[simp] theorem raiseAll_read_port (a : Nat) (l : List Nat) (i : Nat) : (s.raiseAll a l).port i = s.port i := rfl
@[simp] theorem raiseAll_read_tq (a : Nat) (l : List Nat) : (s.raiseAll a l).tq = s.tq := rfl
@[simp] theorem raiseAll_read_sig (a : Nat) (l : List Nat) (i : Nat) : (s.raiseAll a l).sig i = s.sig i := rfl
@[simp] theorem raiseAll_read_engine (a : Nat) (l : List Nat) (i : Nat) : (s.raiseAll a l).engine i = s.engine i := rfl
@[simp] theorem raiseAll_read_flow (a : Nat) (l : List Nat) (i : Nat) : (s.raiseAll a l).flow i = s.flow i := rfl
@[simp] theorem raiseAll_read_chan (a : Nat) (l : List Nat) (i : Nat) : (s.raiseAll a l).chan i = s.chan i := rfl
@[simp] theorem raiseAll_read_bytes (a : Nat) (l : List Nat) (i j : Nat) : (s.raiseAll a l).bytes i j = s.bytes i j := rfl
@[simp] theorem raiseAll_read_rd (a : Nat) (l : List Nat) (i j : Nat) : (s.raiseAll a l).rd i j = s.rd i j := rfl

/-! ### newCycle -/

@[simp] theorem newCycle_pending (slow : Bool) : (s.newCycle slow).pending = s.pending := rfl
@[simp] theorem newCycle_free (slow : Bool) : (s.newCycle slow).free = s.free := rfl
@[simp] theorem newCycle_regs (slow : Bool) : (s.newCycle slow).regs = s.regs := rfl
@[simp] theorem newCycle_live (slow : Bool) : (s.newCycle slow).live = s.live := rfl
@[simp] theorem newCycle_mem (slow : Bool) : (s.newCycle slow).mem = s.mem := rfl
@[simp] theorem newCycle_poison (slow : Bool) : (s.newCycle slow).poison = s.poison := rfl
@[simp] theorem newCycle_bus (slow : Bool) : (s.newCycle slow).bus = s.bus := rfl
@[simp] theorem newCycle_nvm (slow : Bool) : (s.newCycle slow).nvm = s.nvm := rfl
@[simp] theorem newCycle_time (slow : Bool) : (s.newCycle slow).time = s.time := rfl
@[simp] theorem newCycle_rasters (slow : Bool) : (s.newCycle slow).rasters = s.rasters := rfl
@[simp] theorem newCycle_ports (slow : Bool) : (s.newCycle slow).ports = s.ports := rfl
@[simp] theorem newCycle_fclk (slow : Bool) : (s.newCycle slow).fclk = s.fclk := rfl
@[simp] theorem newCycle_ran (slow : Bool) : (s.newCycle slow).ran = s.ran := rfl
@[simp] theorem newCycle_cues (slow : Bool) : (s.newCycle slow).cues = s.cues := rfl
@[simp] theorem newCycle_commits (slow : Bool) : (s.newCycle slow).commits = s.commits := rfl
@[simp] theorem newCycle_tickets (slow : Bool) : (s.newCycle slow).tickets = s.tickets := rfl
@[simp] theorem newCycle_engines (slow : Bool) : (s.newCycle slow).engines = s.engines := rfl
@[simp] theorem newCycle_flows (slow : Bool) : (s.newCycle slow).flows = s.flows := rfl
@[simp] theorem newCycle_chain (slow : Bool) : (s.newCycle slow).chain = s.chain := rfl
@[simp] theorem newCycle_encFill (slow : Bool) : (s.newCycle slow).encFill = s.encFill := rfl
@[simp] theorem newCycle_sigs (slow : Bool) : (s.newCycle slow).sigs = s.sigs := rfl
@[simp] theorem newCycle_mcus (slow : Bool) : (s.newCycle slow).mcus = s.mcus := rfl
@[simp] theorem newCycle_swap (slow : Bool) : (s.newCycle slow).swap = s.swap := rfl
@[simp] theorem newCycle_copying (slow : Bool) : (s.newCycle slow).copying = s.copying := rfl
@[simp] theorem newCycle_copyWaits (slow : Bool) : (s.newCycle slow).copyWaits = s.copyWaits := rfl
@[simp] theorem newCycle_chans (slow : Bool) : (s.newCycle slow).chans = s.chans := rfl
@[simp] theorem newCycle_blits (slow : Bool) : (s.newCycle slow).blits = s.blits := rfl
@[simp] theorem newCycle_bltWait (slow : Bool) : (s.newCycle slow).bltWait = s.bltWait := rfl
@[simp] theorem newCycle_serv (slow : Bool) : (s.newCycle slow).serv = s.serv := rfl
@[simp] theorem newCycle_aon (slow : Bool) : (s.newCycle slow).aon = s.aon := rfl
@[simp] theorem newCycle_quadIdle (slow : Bool) : (s.newCycle slow).quadIdle = s.quadIdle := rfl
@[simp] theorem newCycle_read_reg (slow : Bool) (i : Nat) : (s.newCycle slow).reg i = s.reg i := rfl
@[simp] theorem newCycle_read_lreg (slow : Bool) (i : Nat) : (s.newCycle slow).lreg i = s.lreg i := rfl
@[simp] theorem newCycle_read_f (slow : Bool) (y : Fld) : (s.newCycle slow).f y = s.f y := rfl
@[simp] theorem newCycle_read_fb (slow : Bool) (y : Fld) : (s.newCycle slow).fb y = s.fb y := rfl
@[simp] theorem newCycle_read_lf (slow : Bool) (y : Fld) : (s.newCycle slow).lf y = s.lf y := rfl
@[simp] theorem newCycle_read_lfb (slow : Bool) (y : Fld) : (s.newCycle slow).lfb y = s.lfb y := rfl
@[simp] theorem newCycle_read_slowReg (slow : Bool) (i : Nat) : (s.newCycle slow).slowReg i = s.slowReg i := rfl
@[simp] theorem newCycle_read_sf (slow : Bool) (y : Fld) : (s.newCycle slow).sf y = s.sf y := rfl
@[simp] theorem newCycle_read_raster (slow : Bool) (i : Nat) : (s.newCycle slow).raster i = s.raster i := rfl
@[simp] theorem newCycle_read_port (slow : Bool) (i : Nat) : (s.newCycle slow).port i = s.port i := rfl
@[simp] theorem newCycle_read_tq (slow : Bool) : (s.newCycle slow).tq = s.tq := rfl
@[simp] theorem newCycle_read_sig (slow : Bool) (i : Nat) : (s.newCycle slow).sig i = s.sig i := rfl
@[simp] theorem newCycle_read_engine (slow : Bool) (i : Nat) : (s.newCycle slow).engine i = s.engine i := rfl
@[simp] theorem newCycle_read_flow (slow : Bool) (i : Nat) : (s.newCycle slow).flow i = s.flow i := rfl
@[simp] theorem newCycle_read_chan (slow : Bool) (i : Nat) : (s.newCycle slow).chan i = s.chan i := rfl
@[simp] theorem newCycle_read_flagSet (slow : Bool) (i j : Nat) : (s.newCycle slow).flagSet i j = s.flagSet i j := rfl
@[simp] theorem newCycle_read_bytes (slow : Bool) (i j : Nat) : (s.newCycle slow).bytes i j = s.bytes i j := rfl
@[simp] theorem newCycle_read_rd (slow : Bool) (i j : Nat) : (s.newCycle slow).rd i j = s.rd i j := rfl

/-! ### slowRaise -/

@[simp] theorem slowRaise_pending (a : Nat) (l : List Nat) : (s.slowRaise a l).pending = s.pending := rfl
@[simp] theorem slowRaise_free (a : Nat) (l : List Nat) : (s.slowRaise a l).free = s.free := rfl
@[simp] theorem slowRaise_regs (a : Nat) (l : List Nat) : (s.slowRaise a l).regs = s.regs := rfl
@[simp] theorem slowRaise_live (a : Nat) (l : List Nat) : (s.slowRaise a l).live = s.live := rfl
@[simp] theorem slowRaise_mem (a : Nat) (l : List Nat) : (s.slowRaise a l).mem = s.mem := rfl
@[simp] theorem slowRaise_poison (a : Nat) (l : List Nat) : (s.slowRaise a l).poison = s.poison := rfl
@[simp] theorem slowRaise_nvm (a : Nat) (l : List Nat) : (s.slowRaise a l).nvm = s.nvm := rfl
@[simp] theorem slowRaise_time (a : Nat) (l : List Nat) : (s.slowRaise a l).time = s.time := rfl
@[simp] theorem slowRaise_rasters (a : Nat) (l : List Nat) : (s.slowRaise a l).rasters = s.rasters := rfl
@[simp] theorem slowRaise_ports (a : Nat) (l : List Nat) : (s.slowRaise a l).ports = s.ports := rfl
@[simp] theorem slowRaise_fclk (a : Nat) (l : List Nat) : (s.slowRaise a l).fclk = s.fclk := rfl
@[simp] theorem slowRaise_ran (a : Nat) (l : List Nat) : (s.slowRaise a l).ran = s.ran := rfl
@[simp] theorem slowRaise_cues (a : Nat) (l : List Nat) : (s.slowRaise a l).cues = s.cues := rfl
@[simp] theorem slowRaise_commits (a : Nat) (l : List Nat) : (s.slowRaise a l).commits = s.commits := rfl
@[simp] theorem slowRaise_tickets (a : Nat) (l : List Nat) : (s.slowRaise a l).tickets = s.tickets := rfl
@[simp] theorem slowRaise_engines (a : Nat) (l : List Nat) : (s.slowRaise a l).engines = s.engines := rfl
@[simp] theorem slowRaise_flows (a : Nat) (l : List Nat) : (s.slowRaise a l).flows = s.flows := rfl
@[simp] theorem slowRaise_chain (a : Nat) (l : List Nat) : (s.slowRaise a l).chain = s.chain := rfl
@[simp] theorem slowRaise_encFill (a : Nat) (l : List Nat) : (s.slowRaise a l).encFill = s.encFill := rfl
@[simp] theorem slowRaise_sigs (a : Nat) (l : List Nat) : (s.slowRaise a l).sigs = s.sigs := rfl
@[simp] theorem slowRaise_mcus (a : Nat) (l : List Nat) : (s.slowRaise a l).mcus = s.mcus := rfl
@[simp] theorem slowRaise_swap (a : Nat) (l : List Nat) : (s.slowRaise a l).swap = s.swap := rfl
@[simp] theorem slowRaise_copying (a : Nat) (l : List Nat) : (s.slowRaise a l).copying = s.copying := rfl
@[simp] theorem slowRaise_copyWaits (a : Nat) (l : List Nat) : (s.slowRaise a l).copyWaits = s.copyWaits := rfl
@[simp] theorem slowRaise_chans (a : Nat) (l : List Nat) : (s.slowRaise a l).chans = s.chans := rfl
@[simp] theorem slowRaise_blits (a : Nat) (l : List Nat) : (s.slowRaise a l).blits = s.blits := rfl
@[simp] theorem slowRaise_bltWait (a : Nat) (l : List Nat) : (s.slowRaise a l).bltWait = s.bltWait := rfl
@[simp] theorem slowRaise_serv (a : Nat) (l : List Nat) : (s.slowRaise a l).serv = s.serv := rfl
@[simp] theorem slowRaise_aon (a : Nat) (l : List Nat) : (s.slowRaise a l).aon = s.aon := rfl
@[simp] theorem slowRaise_quadIdle (a : Nat) (l : List Nat) : (s.slowRaise a l).quadIdle = s.quadIdle := rfl
@[simp] theorem slowRaise_read_reg (a : Nat) (l : List Nat) (i : Nat) : (s.slowRaise a l).reg i = s.reg i := rfl
@[simp] theorem slowRaise_read_lreg (a : Nat) (l : List Nat) (i : Nat) : (s.slowRaise a l).lreg i = s.lreg i := rfl
@[simp] theorem slowRaise_read_f (a : Nat) (l : List Nat) (y : Fld) : (s.slowRaise a l).f y = s.f y := rfl
@[simp] theorem slowRaise_read_fb (a : Nat) (l : List Nat) (y : Fld) : (s.slowRaise a l).fb y = s.fb y := rfl
@[simp] theorem slowRaise_read_lf (a : Nat) (l : List Nat) (y : Fld) : (s.slowRaise a l).lf y = s.lf y := rfl
@[simp] theorem slowRaise_read_lfb (a : Nat) (l : List Nat) (y : Fld) : (s.slowRaise a l).lfb y = s.lfb y := rfl
@[simp] theorem slowRaise_read_raster (a : Nat) (l : List Nat) (i : Nat) : (s.slowRaise a l).raster i = s.raster i := rfl
@[simp] theorem slowRaise_read_port (a : Nat) (l : List Nat) (i : Nat) : (s.slowRaise a l).port i = s.port i := rfl
@[simp] theorem slowRaise_read_tq (a : Nat) (l : List Nat) : (s.slowRaise a l).tq = s.tq := rfl
@[simp] theorem slowRaise_read_sig (a : Nat) (l : List Nat) (i : Nat) : (s.slowRaise a l).sig i = s.sig i := rfl
@[simp] theorem slowRaise_read_engine (a : Nat) (l : List Nat) (i : Nat) : (s.slowRaise a l).engine i = s.engine i := rfl
@[simp] theorem slowRaise_read_flow (a : Nat) (l : List Nat) (i : Nat) : (s.slowRaise a l).flow i = s.flow i := rfl
@[simp] theorem slowRaise_read_chan (a : Nat) (l : List Nat) (i : Nat) : (s.slowRaise a l).chan i = s.chan i := rfl
@[simp] theorem slowRaise_read_flagSet (a : Nat) (l : List Nat) (i j : Nat) : (s.slowRaise a l).flagSet i j = s.flagSet i j := rfl
@[simp] theorem slowRaise_read_bytes (a : Nat) (l : List Nat) (i j : Nat) : (s.slowRaise a l).bytes i j = s.bytes i j := rfl
@[simp] theorem slowRaise_read_rd (a : Nat) (l : List Nat) (i j : Nat) : (s.slowRaise a l).rd i j = s.rd i j := rfl

/-! ### respond -/

@[simp] theorem respond_pending (m : Nat) (k : RespKind) (d : Word) (c : Nat) : (s.respond m k d c).pending = s.pending := rfl
@[simp] theorem respond_free (m : Nat) (k : RespKind) (d : Word) (c : Nat) : (s.respond m k d c).free = s.free := rfl
@[simp] theorem respond_cycle (m : Nat) (k : RespKind) (d : Word) (c : Nat) : (s.respond m k d c).cycle = s.cycle := rfl
@[simp] theorem respond_regs (m : Nat) (k : RespKind) (d : Word) (c : Nat) : (s.respond m k d c).regs = s.regs := rfl
@[simp] theorem respond_live (m : Nat) (k : RespKind) (d : Word) (c : Nat) : (s.respond m k d c).live = s.live := rfl
@[simp] theorem respond_mem (m : Nat) (k : RespKind) (d : Word) (c : Nat) : (s.respond m k d c).mem = s.mem := rfl
@[simp] theorem respond_poison (m : Nat) (k : RespKind) (d : Word) (c : Nat) : (s.respond m k d c).poison = s.poison := rfl
@[simp] theorem respond_nvm (m : Nat) (k : RespKind) (d : Word) (c : Nat) : (s.respond m k d c).nvm = s.nvm := rfl
@[simp] theorem respond_time (m : Nat) (k : RespKind) (d : Word) (c : Nat) : (s.respond m k d c).time = s.time := rfl
@[simp] theorem respond_rasters (m : Nat) (k : RespKind) (d : Word) (c : Nat) : (s.respond m k d c).rasters = s.rasters := rfl
@[simp] theorem respond_ports (m : Nat) (k : RespKind) (d : Word) (c : Nat) : (s.respond m k d c).ports = s.ports := rfl
@[simp] theorem respond_fclk (m : Nat) (k : RespKind) (d : Word) (c : Nat) : (s.respond m k d c).fclk = s.fclk := rfl
@[simp] theorem respond_ran (m : Nat) (k : RespKind) (d : Word) (c : Nat) : (s.respond m k d c).ran = s.ran := rfl
@[simp] theorem respond_cues (m : Nat) (k : RespKind) (d : Word) (c : Nat) : (s.respond m k d c).cues = s.cues := rfl
@[simp] theorem respond_commits (m : Nat) (k : RespKind) (d : Word) (c : Nat) : (s.respond m k d c).commits = s.commits := rfl
@[simp] theorem respond_tickets (m : Nat) (k : RespKind) (d : Word) (c : Nat) : (s.respond m k d c).tickets = s.tickets := rfl
@[simp] theorem respond_engines (m : Nat) (k : RespKind) (d : Word) (c : Nat) : (s.respond m k d c).engines = s.engines := rfl
@[simp] theorem respond_flows (m : Nat) (k : RespKind) (d : Word) (c : Nat) : (s.respond m k d c).flows = s.flows := rfl
@[simp] theorem respond_chain (m : Nat) (k : RespKind) (d : Word) (c : Nat) : (s.respond m k d c).chain = s.chain := rfl
@[simp] theorem respond_encFill (m : Nat) (k : RespKind) (d : Word) (c : Nat) : (s.respond m k d c).encFill = s.encFill := rfl
@[simp] theorem respond_sigs (m : Nat) (k : RespKind) (d : Word) (c : Nat) : (s.respond m k d c).sigs = s.sigs := rfl
@[simp] theorem respond_mcus (m : Nat) (k : RespKind) (d : Word) (c : Nat) : (s.respond m k d c).mcus = s.mcus := rfl
@[simp] theorem respond_swap (m : Nat) (k : RespKind) (d : Word) (c : Nat) : (s.respond m k d c).swap = s.swap := rfl
@[simp] theorem respond_copying (m : Nat) (k : RespKind) (d : Word) (c : Nat) : (s.respond m k d c).copying = s.copying := rfl
@[simp] theorem respond_copyWaits (m : Nat) (k : RespKind) (d : Word) (c : Nat) : (s.respond m k d c).copyWaits = s.copyWaits := rfl
@[simp] theorem respond_chans (m : Nat) (k : RespKind) (d : Word) (c : Nat) : (s.respond m k d c).chans = s.chans := rfl
@[simp] theorem respond_blits (m : Nat) (k : RespKind) (d : Word) (c : Nat) : (s.respond m k d c).blits = s.blits := rfl
@[simp] theorem respond_bltWait (m : Nat) (k : RespKind) (d : Word) (c : Nat) : (s.respond m k d c).bltWait = s.bltWait := rfl
@[simp] theorem respond_serv (m : Nat) (k : RespKind) (d : Word) (c : Nat) : (s.respond m k d c).serv = s.serv := rfl
@[simp] theorem respond_aon (m : Nat) (k : RespKind) (d : Word) (c : Nat) : (s.respond m k d c).aon = s.aon := rfl
@[simp] theorem respond_quadIdle (m : Nat) (k : RespKind) (d : Word) (c : Nat) : (s.respond m k d c).quadIdle = s.quadIdle := rfl
@[simp] theorem respond_read_reg (m : Nat) (k : RespKind) (d : Word) (c : Nat) (i : Nat) : (s.respond m k d c).reg i = s.reg i := rfl
@[simp] theorem respond_read_lreg (m : Nat) (k : RespKind) (d : Word) (c : Nat) (i : Nat) : (s.respond m k d c).lreg i = s.lreg i := rfl
@[simp] theorem respond_read_f (m : Nat) (k : RespKind) (d : Word) (c : Nat) (y : Fld) : (s.respond m k d c).f y = s.f y := rfl
@[simp] theorem respond_read_fb (m : Nat) (k : RespKind) (d : Word) (c : Nat) (y : Fld) : (s.respond m k d c).fb y = s.fb y := rfl
@[simp] theorem respond_read_lf (m : Nat) (k : RespKind) (d : Word) (c : Nat) (y : Fld) : (s.respond m k d c).lf y = s.lf y := rfl
@[simp] theorem respond_read_lfb (m : Nat) (k : RespKind) (d : Word) (c : Nat) (y : Fld) : (s.respond m k d c).lfb y = s.lfb y := rfl
@[simp] theorem respond_read_raster (m : Nat) (k : RespKind) (d : Word) (c : Nat) (i : Nat) : (s.respond m k d c).raster i = s.raster i := rfl
@[simp] theorem respond_read_port (m : Nat) (k : RespKind) (d : Word) (c : Nat) (i : Nat) : (s.respond m k d c).port i = s.port i := rfl
@[simp] theorem respond_read_tq (m : Nat) (k : RespKind) (d : Word) (c : Nat) : (s.respond m k d c).tq = s.tq := rfl
@[simp] theorem respond_read_sig (m : Nat) (k : RespKind) (d : Word) (c : Nat) (i : Nat) : (s.respond m k d c).sig i = s.sig i := rfl
@[simp] theorem respond_read_engine (m : Nat) (k : RespKind) (d : Word) (c : Nat) (i : Nat) : (s.respond m k d c).engine i = s.engine i := rfl
@[simp] theorem respond_read_flow (m : Nat) (k : RespKind) (d : Word) (c : Nat) (i : Nat) : (s.respond m k d c).flow i = s.flow i := rfl
@[simp] theorem respond_read_chan (m : Nat) (k : RespKind) (d : Word) (c : Nat) (i : Nat) : (s.respond m k d c).chan i = s.chan i := rfl
@[simp] theorem respond_read_flagSet (m : Nat) (k : RespKind) (d : Word) (c : Nat) (i j : Nat) : (s.respond m k d c).flagSet i j = s.flagSet i j := rfl
@[simp] theorem respond_read_bytes (m : Nat) (k : RespKind) (d : Word) (c : Nat) (i j : Nat) : (s.respond m k d c).bytes i j = s.bytes i j := rfl
@[simp] theorem respond_read_rd (m : Nat) (k : RespKind) (d : Word) (c : Nat) (i j : Nat) : (s.respond m k d c).rd i j = s.rd i j := rfl

/-! ### setRaster -/

@[simp] theorem setRaster_pending (m : Nat) (r : Raster) : (s.setRaster m r).pending = s.pending := rfl
@[simp] theorem setRaster_free (m : Nat) (r : Raster) : (s.setRaster m r).free = s.free := rfl
@[simp] theorem setRaster_cycle (m : Nat) (r : Raster) : (s.setRaster m r).cycle = s.cycle := rfl
@[simp] theorem setRaster_regs (m : Nat) (r : Raster) : (s.setRaster m r).regs = s.regs := rfl
@[simp] theorem setRaster_live (m : Nat) (r : Raster) : (s.setRaster m r).live = s.live := rfl
@[simp] theorem setRaster_mem (m : Nat) (r : Raster) : (s.setRaster m r).mem = s.mem := rfl
@[simp] theorem setRaster_poison (m : Nat) (r : Raster) : (s.setRaster m r).poison = s.poison := rfl
@[simp] theorem setRaster_bus (m : Nat) (r : Raster) : (s.setRaster m r).bus = s.bus := rfl
@[simp] theorem setRaster_nvm (m : Nat) (r : Raster) : (s.setRaster m r).nvm = s.nvm := rfl
@[simp] theorem setRaster_time (m : Nat) (r : Raster) : (s.setRaster m r).time = s.time := rfl
@[simp] theorem setRaster_ports (m : Nat) (r : Raster) : (s.setRaster m r).ports = s.ports := rfl
@[simp] theorem setRaster_fclk (m : Nat) (r : Raster) : (s.setRaster m r).fclk = s.fclk := rfl
@[simp] theorem setRaster_ran (m : Nat) (r : Raster) : (s.setRaster m r).ran = s.ran := rfl
@[simp] theorem setRaster_cues (m : Nat) (r : Raster) : (s.setRaster m r).cues = s.cues := rfl
@[simp] theorem setRaster_commits (m : Nat) (r : Raster) : (s.setRaster m r).commits = s.commits := rfl
@[simp] theorem setRaster_tickets (m : Nat) (r : Raster) : (s.setRaster m r).tickets = s.tickets := rfl
@[simp] theorem setRaster_engines (m : Nat) (r : Raster) : (s.setRaster m r).engines = s.engines := rfl
@[simp] theorem setRaster_flows (m : Nat) (r : Raster) : (s.setRaster m r).flows = s.flows := rfl
@[simp] theorem setRaster_chain (m : Nat) (r : Raster) : (s.setRaster m r).chain = s.chain := rfl
@[simp] theorem setRaster_encFill (m : Nat) (r : Raster) : (s.setRaster m r).encFill = s.encFill := rfl
@[simp] theorem setRaster_sigs (m : Nat) (r : Raster) : (s.setRaster m r).sigs = s.sigs := rfl
@[simp] theorem setRaster_mcus (m : Nat) (r : Raster) : (s.setRaster m r).mcus = s.mcus := rfl
@[simp] theorem setRaster_swap (m : Nat) (r : Raster) : (s.setRaster m r).swap = s.swap := rfl
@[simp] theorem setRaster_copying (m : Nat) (r : Raster) : (s.setRaster m r).copying = s.copying := rfl
@[simp] theorem setRaster_copyWaits (m : Nat) (r : Raster) : (s.setRaster m r).copyWaits = s.copyWaits := rfl
@[simp] theorem setRaster_chans (m : Nat) (r : Raster) : (s.setRaster m r).chans = s.chans := rfl
@[simp] theorem setRaster_blits (m : Nat) (r : Raster) : (s.setRaster m r).blits = s.blits := rfl
@[simp] theorem setRaster_bltWait (m : Nat) (r : Raster) : (s.setRaster m r).bltWait = s.bltWait := rfl
@[simp] theorem setRaster_serv (m : Nat) (r : Raster) : (s.setRaster m r).serv = s.serv := rfl
@[simp] theorem setRaster_aon (m : Nat) (r : Raster) : (s.setRaster m r).aon = s.aon := rfl
@[simp] theorem setRaster_quadIdle (m : Nat) (r : Raster) : (s.setRaster m r).quadIdle = s.quadIdle := rfl
@[simp] theorem setRaster_read_reg (m : Nat) (r : Raster) (i : Nat) : (s.setRaster m r).reg i = s.reg i := rfl
@[simp] theorem setRaster_read_lreg (m : Nat) (r : Raster) (i : Nat) : (s.setRaster m r).lreg i = s.lreg i := rfl
@[simp] theorem setRaster_read_f (m : Nat) (r : Raster) (y : Fld) : (s.setRaster m r).f y = s.f y := rfl
@[simp] theorem setRaster_read_fb (m : Nat) (r : Raster) (y : Fld) : (s.setRaster m r).fb y = s.fb y := rfl
@[simp] theorem setRaster_read_lf (m : Nat) (r : Raster) (y : Fld) : (s.setRaster m r).lf y = s.lf y := rfl
@[simp] theorem setRaster_read_lfb (m : Nat) (r : Raster) (y : Fld) : (s.setRaster m r).lfb y = s.lfb y := rfl
@[simp] theorem setRaster_read_slowReg (m : Nat) (r : Raster) (i : Nat) : (s.setRaster m r).slowReg i = s.slowReg i := rfl
@[simp] theorem setRaster_read_sf (m : Nat) (r : Raster) (y : Fld) : (s.setRaster m r).sf y = s.sf y := rfl
@[simp] theorem setRaster_read_port (m : Nat) (r : Raster) (i : Nat) : (s.setRaster m r).port i = s.port i := rfl
@[simp] theorem setRaster_read_tq (m : Nat) (r : Raster) : (s.setRaster m r).tq = s.tq := rfl
@[simp] theorem setRaster_read_sig (m : Nat) (r : Raster) (i : Nat) : (s.setRaster m r).sig i = s.sig i := rfl
@[simp] theorem setRaster_read_engine (m : Nat) (r : Raster) (i : Nat) : (s.setRaster m r).engine i = s.engine i := rfl
@[simp] theorem setRaster_read_flow (m : Nat) (r : Raster) (i : Nat) : (s.setRaster m r).flow i = s.flow i := rfl
@[simp] theorem setRaster_read_chan (m : Nat) (r : Raster) (i : Nat) : (s.setRaster m r).chan i = s.chan i := rfl
@[simp] theorem setRaster_read_flagSet (m : Nat) (r : Raster) (i j : Nat) : (s.setRaster m r).flagSet i j = s.flagSet i j := rfl
@[simp] theorem setRaster_read_bytes (m : Nat) (r : Raster) (i j : Nat) : (s.setRaster m r).bytes i j = s.bytes i j := rfl
@[simp] theorem setRaster_read_rd (m : Nat) (r : Raster) (i j : Nat) : (s.setRaster m r).rd i j = s.rd i j := rfl

/-! ### setPort -/

@[simp] theorem setPort_pending (p : Nat) (x : Port) : (s.setPort p x).pending = s.pending := rfl
@[simp] theorem setPort_free (p : Nat) (x : Port) : (s.setPort p x).free = s.free := rfl
@[simp] theorem setPort_cycle (p : Nat) (x : Port) : (s.setPort p x).cycle = s.cycle := rfl
@[simp] theorem setPort_regs (p : Nat) (x : Port) : (s.setPort p x).regs = s.regs := rfl
@[simp] theorem setPort_live (p : Nat) (x : Port) : (s.setPort p x).live = s.live := rfl
@[simp] theorem setPort_mem (p : Nat) (x : Port) : (s.setPort p x).mem = s.mem := rfl
@[simp] theorem setPort_poison (p : Nat) (x : Port) : (s.setPort p x).poison = s.poison := rfl
@[simp] theorem setPort_bus (p : Nat) (x : Port) : (s.setPort p x).bus = s.bus := rfl
@[simp] theorem setPort_nvm (p : Nat) (x : Port) : (s.setPort p x).nvm = s.nvm := rfl
@[simp] theorem setPort_time (p : Nat) (x : Port) : (s.setPort p x).time = s.time := rfl
@[simp] theorem setPort_rasters (p : Nat) (x : Port) : (s.setPort p x).rasters = s.rasters := rfl
@[simp] theorem setPort_fclk (p : Nat) (x : Port) : (s.setPort p x).fclk = s.fclk := rfl
@[simp] theorem setPort_ran (p : Nat) (x : Port) : (s.setPort p x).ran = s.ran := rfl
@[simp] theorem setPort_cues (p : Nat) (x : Port) : (s.setPort p x).cues = s.cues := rfl
@[simp] theorem setPort_commits (p : Nat) (x : Port) : (s.setPort p x).commits = s.commits := rfl
@[simp] theorem setPort_tickets (p : Nat) (x : Port) : (s.setPort p x).tickets = s.tickets := rfl
@[simp] theorem setPort_engines (p : Nat) (x : Port) : (s.setPort p x).engines = s.engines := rfl
@[simp] theorem setPort_flows (p : Nat) (x : Port) : (s.setPort p x).flows = s.flows := rfl
@[simp] theorem setPort_chain (p : Nat) (x : Port) : (s.setPort p x).chain = s.chain := rfl
@[simp] theorem setPort_encFill (p : Nat) (x : Port) : (s.setPort p x).encFill = s.encFill := rfl
@[simp] theorem setPort_sigs (p : Nat) (x : Port) : (s.setPort p x).sigs = s.sigs := rfl
@[simp] theorem setPort_mcus (p : Nat) (x : Port) : (s.setPort p x).mcus = s.mcus := rfl
@[simp] theorem setPort_swap (p : Nat) (x : Port) : (s.setPort p x).swap = s.swap := rfl
@[simp] theorem setPort_copying (p : Nat) (x : Port) : (s.setPort p x).copying = s.copying := rfl
@[simp] theorem setPort_copyWaits (p : Nat) (x : Port) : (s.setPort p x).copyWaits = s.copyWaits := rfl
@[simp] theorem setPort_chans (p : Nat) (x : Port) : (s.setPort p x).chans = s.chans := rfl
@[simp] theorem setPort_blits (p : Nat) (x : Port) : (s.setPort p x).blits = s.blits := rfl
@[simp] theorem setPort_bltWait (p : Nat) (x : Port) : (s.setPort p x).bltWait = s.bltWait := rfl
@[simp] theorem setPort_serv (p : Nat) (x : Port) : (s.setPort p x).serv = s.serv := rfl
@[simp] theorem setPort_aon (p : Nat) (x : Port) : (s.setPort p x).aon = s.aon := rfl
@[simp] theorem setPort_quadIdle (p : Nat) (x : Port) : (s.setPort p x).quadIdle = s.quadIdle := rfl
@[simp] theorem setPort_read_reg (p : Nat) (x : Port) (i : Nat) : (s.setPort p x).reg i = s.reg i := rfl
@[simp] theorem setPort_read_lreg (p : Nat) (x : Port) (i : Nat) : (s.setPort p x).lreg i = s.lreg i := rfl
@[simp] theorem setPort_read_f (p : Nat) (x : Port) (y : Fld) : (s.setPort p x).f y = s.f y := rfl
@[simp] theorem setPort_read_fb (p : Nat) (x : Port) (y : Fld) : (s.setPort p x).fb y = s.fb y := rfl
@[simp] theorem setPort_read_lf (p : Nat) (x : Port) (y : Fld) : (s.setPort p x).lf y = s.lf y := rfl
@[simp] theorem setPort_read_lfb (p : Nat) (x : Port) (y : Fld) : (s.setPort p x).lfb y = s.lfb y := rfl
@[simp] theorem setPort_read_slowReg (p : Nat) (x : Port) (i : Nat) : (s.setPort p x).slowReg i = s.slowReg i := rfl
@[simp] theorem setPort_read_sf (p : Nat) (x : Port) (y : Fld) : (s.setPort p x).sf y = s.sf y := rfl
@[simp] theorem setPort_read_raster (p : Nat) (x : Port) (i : Nat) : (s.setPort p x).raster i = s.raster i := rfl
@[simp] theorem setPort_read_tq (p : Nat) (x : Port) : (s.setPort p x).tq = s.tq := rfl
@[simp] theorem setPort_read_sig (p : Nat) (x : Port) (i : Nat) : (s.setPort p x).sig i = s.sig i := rfl
@[simp] theorem setPort_read_engine (p : Nat) (x : Port) (i : Nat) : (s.setPort p x).engine i = s.engine i := rfl
@[simp] theorem setPort_read_flow (p : Nat) (x : Port) (i : Nat) : (s.setPort p x).flow i = s.flow i := rfl
@[simp] theorem setPort_read_chan (p : Nat) (x : Port) (i : Nat) : (s.setPort p x).chan i = s.chan i := rfl
@[simp] theorem setPort_read_flagSet (p : Nat) (x : Port) (i j : Nat) : (s.setPort p x).flagSet i j = s.flagSet i j := rfl
@[simp] theorem setPort_read_bytes (p : Nat) (x : Port) (i j : Nat) : (s.setPort p x).bytes i j = s.bytes i j := rfl
@[simp] theorem setPort_read_rd (p : Nat) (x : Port) (i j : Nat) : (s.setPort p x).rd i j = s.rd i j := rfl

/-! ### setSig -/

@[simp] theorem setSig_pending (u : Nat) (x : SigUnit) : (s.setSig u x).pending = s.pending := rfl
@[simp] theorem setSig_free (u : Nat) (x : SigUnit) : (s.setSig u x).free = s.free := rfl
@[simp] theorem setSig_cycle (u : Nat) (x : SigUnit) : (s.setSig u x).cycle = s.cycle := rfl
@[simp] theorem setSig_regs (u : Nat) (x : SigUnit) : (s.setSig u x).regs = s.regs := rfl
@[simp] theorem setSig_live (u : Nat) (x : SigUnit) : (s.setSig u x).live = s.live := rfl
@[simp] theorem setSig_mem (u : Nat) (x : SigUnit) : (s.setSig u x).mem = s.mem := rfl
@[simp] theorem setSig_poison (u : Nat) (x : SigUnit) : (s.setSig u x).poison = s.poison := rfl
@[simp] theorem setSig_bus (u : Nat) (x : SigUnit) : (s.setSig u x).bus = s.bus := rfl
@[simp] theorem setSig_nvm (u : Nat) (x : SigUnit) : (s.setSig u x).nvm = s.nvm := rfl
@[simp] theorem setSig_time (u : Nat) (x : SigUnit) : (s.setSig u x).time = s.time := rfl
@[simp] theorem setSig_rasters (u : Nat) (x : SigUnit) : (s.setSig u x).rasters = s.rasters := rfl
@[simp] theorem setSig_ports (u : Nat) (x : SigUnit) : (s.setSig u x).ports = s.ports := rfl
@[simp] theorem setSig_fclk (u : Nat) (x : SigUnit) : (s.setSig u x).fclk = s.fclk := rfl
@[simp] theorem setSig_ran (u : Nat) (x : SigUnit) : (s.setSig u x).ran = s.ran := rfl
@[simp] theorem setSig_cues (u : Nat) (x : SigUnit) : (s.setSig u x).cues = s.cues := rfl
@[simp] theorem setSig_commits (u : Nat) (x : SigUnit) : (s.setSig u x).commits = s.commits := rfl
@[simp] theorem setSig_tickets (u : Nat) (x : SigUnit) : (s.setSig u x).tickets = s.tickets := rfl
@[simp] theorem setSig_engines (u : Nat) (x : SigUnit) : (s.setSig u x).engines = s.engines := rfl
@[simp] theorem setSig_flows (u : Nat) (x : SigUnit) : (s.setSig u x).flows = s.flows := rfl
@[simp] theorem setSig_chain (u : Nat) (x : SigUnit) : (s.setSig u x).chain = s.chain := rfl
@[simp] theorem setSig_encFill (u : Nat) (x : SigUnit) : (s.setSig u x).encFill = s.encFill := rfl
@[simp] theorem setSig_mcus (u : Nat) (x : SigUnit) : (s.setSig u x).mcus = s.mcus := rfl
@[simp] theorem setSig_swap (u : Nat) (x : SigUnit) : (s.setSig u x).swap = s.swap := rfl
@[simp] theorem setSig_copying (u : Nat) (x : SigUnit) : (s.setSig u x).copying = s.copying := rfl
@[simp] theorem setSig_copyWaits (u : Nat) (x : SigUnit) : (s.setSig u x).copyWaits = s.copyWaits := rfl
@[simp] theorem setSig_chans (u : Nat) (x : SigUnit) : (s.setSig u x).chans = s.chans := rfl
@[simp] theorem setSig_blits (u : Nat) (x : SigUnit) : (s.setSig u x).blits = s.blits := rfl
@[simp] theorem setSig_bltWait (u : Nat) (x : SigUnit) : (s.setSig u x).bltWait = s.bltWait := rfl
@[simp] theorem setSig_serv (u : Nat) (x : SigUnit) : (s.setSig u x).serv = s.serv := rfl
@[simp] theorem setSig_aon (u : Nat) (x : SigUnit) : (s.setSig u x).aon = s.aon := rfl
@[simp] theorem setSig_quadIdle (u : Nat) (x : SigUnit) : (s.setSig u x).quadIdle = s.quadIdle := rfl
@[simp] theorem setSig_read_reg (u : Nat) (x : SigUnit) (i : Nat) : (s.setSig u x).reg i = s.reg i := rfl
@[simp] theorem setSig_read_lreg (u : Nat) (x : SigUnit) (i : Nat) : (s.setSig u x).lreg i = s.lreg i := rfl
@[simp] theorem setSig_read_f (u : Nat) (x : SigUnit) (y : Fld) : (s.setSig u x).f y = s.f y := rfl
@[simp] theorem setSig_read_fb (u : Nat) (x : SigUnit) (y : Fld) : (s.setSig u x).fb y = s.fb y := rfl
@[simp] theorem setSig_read_lf (u : Nat) (x : SigUnit) (y : Fld) : (s.setSig u x).lf y = s.lf y := rfl
@[simp] theorem setSig_read_lfb (u : Nat) (x : SigUnit) (y : Fld) : (s.setSig u x).lfb y = s.lfb y := rfl
@[simp] theorem setSig_read_slowReg (u : Nat) (x : SigUnit) (i : Nat) : (s.setSig u x).slowReg i = s.slowReg i := rfl
@[simp] theorem setSig_read_sf (u : Nat) (x : SigUnit) (y : Fld) : (s.setSig u x).sf y = s.sf y := rfl
@[simp] theorem setSig_read_raster (u : Nat) (x : SigUnit) (i : Nat) : (s.setSig u x).raster i = s.raster i := rfl
@[simp] theorem setSig_read_port (u : Nat) (x : SigUnit) (i : Nat) : (s.setSig u x).port i = s.port i := rfl
@[simp] theorem setSig_read_tq (u : Nat) (x : SigUnit) : (s.setSig u x).tq = s.tq := rfl
@[simp] theorem setSig_read_engine (u : Nat) (x : SigUnit) (i : Nat) : (s.setSig u x).engine i = s.engine i := rfl
@[simp] theorem setSig_read_flow (u : Nat) (x : SigUnit) (i : Nat) : (s.setSig u x).flow i = s.flow i := rfl
@[simp] theorem setSig_read_chan (u : Nat) (x : SigUnit) (i : Nat) : (s.setSig u x).chan i = s.chan i := rfl
@[simp] theorem setSig_read_flagSet (u : Nat) (x : SigUnit) (i j : Nat) : (s.setSig u x).flagSet i j = s.flagSet i j := rfl
@[simp] theorem setSig_read_bytes (u : Nat) (x : SigUnit) (i j : Nat) : (s.setSig u x).bytes i j = s.bytes i j := rfl
@[simp] theorem setSig_read_rd (u : Nat) (x : SigUnit) (i j : Nat) : (s.setSig u x).rd i j = s.rd i j := rfl

/-! ### setEngine -/

@[simp] theorem setEngine_pending (n : Nat) (e : Engine) : (s.setEngine n e).pending = s.pending := rfl
@[simp] theorem setEngine_free (n : Nat) (e : Engine) : (s.setEngine n e).free = s.free := rfl
@[simp] theorem setEngine_cycle (n : Nat) (e : Engine) : (s.setEngine n e).cycle = s.cycle := rfl
@[simp] theorem setEngine_regs (n : Nat) (e : Engine) : (s.setEngine n e).regs = s.regs := rfl
@[simp] theorem setEngine_live (n : Nat) (e : Engine) : (s.setEngine n e).live = s.live := rfl
@[simp] theorem setEngine_mem (n : Nat) (e : Engine) : (s.setEngine n e).mem = s.mem := rfl
@[simp] theorem setEngine_poison (n : Nat) (e : Engine) : (s.setEngine n e).poison = s.poison := rfl
@[simp] theorem setEngine_bus (n : Nat) (e : Engine) : (s.setEngine n e).bus = s.bus := rfl
@[simp] theorem setEngine_nvm (n : Nat) (e : Engine) : (s.setEngine n e).nvm = s.nvm := rfl
@[simp] theorem setEngine_time (n : Nat) (e : Engine) : (s.setEngine n e).time = s.time := rfl
@[simp] theorem setEngine_rasters (n : Nat) (e : Engine) : (s.setEngine n e).rasters = s.rasters := rfl
@[simp] theorem setEngine_ports (n : Nat) (e : Engine) : (s.setEngine n e).ports = s.ports := rfl
@[simp] theorem setEngine_fclk (n : Nat) (e : Engine) : (s.setEngine n e).fclk = s.fclk := rfl
@[simp] theorem setEngine_ran (n : Nat) (e : Engine) : (s.setEngine n e).ran = s.ran := rfl
@[simp] theorem setEngine_cues (n : Nat) (e : Engine) : (s.setEngine n e).cues = s.cues := rfl
@[simp] theorem setEngine_commits (n : Nat) (e : Engine) : (s.setEngine n e).commits = s.commits := rfl
@[simp] theorem setEngine_tickets (n : Nat) (e : Engine) : (s.setEngine n e).tickets = s.tickets := rfl
@[simp] theorem setEngine_flows (n : Nat) (e : Engine) : (s.setEngine n e).flows = s.flows := rfl
@[simp] theorem setEngine_chain (n : Nat) (e : Engine) : (s.setEngine n e).chain = s.chain := rfl
@[simp] theorem setEngine_encFill (n : Nat) (e : Engine) : (s.setEngine n e).encFill = s.encFill := rfl
@[simp] theorem setEngine_sigs (n : Nat) (e : Engine) : (s.setEngine n e).sigs = s.sigs := rfl
@[simp] theorem setEngine_mcus (n : Nat) (e : Engine) : (s.setEngine n e).mcus = s.mcus := rfl
@[simp] theorem setEngine_swap (n : Nat) (e : Engine) : (s.setEngine n e).swap = s.swap := rfl
@[simp] theorem setEngine_copying (n : Nat) (e : Engine) : (s.setEngine n e).copying = s.copying := rfl
@[simp] theorem setEngine_copyWaits (n : Nat) (e : Engine) : (s.setEngine n e).copyWaits = s.copyWaits := rfl
@[simp] theorem setEngine_chans (n : Nat) (e : Engine) : (s.setEngine n e).chans = s.chans := rfl
@[simp] theorem setEngine_blits (n : Nat) (e : Engine) : (s.setEngine n e).blits = s.blits := rfl
@[simp] theorem setEngine_bltWait (n : Nat) (e : Engine) : (s.setEngine n e).bltWait = s.bltWait := rfl
@[simp] theorem setEngine_serv (n : Nat) (e : Engine) : (s.setEngine n e).serv = s.serv := rfl
@[simp] theorem setEngine_aon (n : Nat) (e : Engine) : (s.setEngine n e).aon = s.aon := rfl
@[simp] theorem setEngine_quadIdle (n : Nat) (e : Engine) : (s.setEngine n e).quadIdle = s.quadIdle := rfl
@[simp] theorem setEngine_read_reg (n : Nat) (e : Engine) (i : Nat) : (s.setEngine n e).reg i = s.reg i := rfl
@[simp] theorem setEngine_read_lreg (n : Nat) (e : Engine) (i : Nat) : (s.setEngine n e).lreg i = s.lreg i := rfl
@[simp] theorem setEngine_read_f (n : Nat) (e : Engine) (y : Fld) : (s.setEngine n e).f y = s.f y := rfl
@[simp] theorem setEngine_read_fb (n : Nat) (e : Engine) (y : Fld) : (s.setEngine n e).fb y = s.fb y := rfl
@[simp] theorem setEngine_read_lf (n : Nat) (e : Engine) (y : Fld) : (s.setEngine n e).lf y = s.lf y := rfl
@[simp] theorem setEngine_read_lfb (n : Nat) (e : Engine) (y : Fld) : (s.setEngine n e).lfb y = s.lfb y := rfl
@[simp] theorem setEngine_read_slowReg (n : Nat) (e : Engine) (i : Nat) : (s.setEngine n e).slowReg i = s.slowReg i := rfl
@[simp] theorem setEngine_read_sf (n : Nat) (e : Engine) (y : Fld) : (s.setEngine n e).sf y = s.sf y := rfl
@[simp] theorem setEngine_read_raster (n : Nat) (e : Engine) (i : Nat) : (s.setEngine n e).raster i = s.raster i := rfl
@[simp] theorem setEngine_read_port (n : Nat) (e : Engine) (i : Nat) : (s.setEngine n e).port i = s.port i := rfl
@[simp] theorem setEngine_read_tq (n : Nat) (e : Engine) : (s.setEngine n e).tq = s.tq := rfl
@[simp] theorem setEngine_read_sig (n : Nat) (e : Engine) (i : Nat) : (s.setEngine n e).sig i = s.sig i := rfl
@[simp] theorem setEngine_read_flow (n : Nat) (e : Engine) (i : Nat) : (s.setEngine n e).flow i = s.flow i := rfl
@[simp] theorem setEngine_read_chan (n : Nat) (e : Engine) (i : Nat) : (s.setEngine n e).chan i = s.chan i := rfl
@[simp] theorem setEngine_read_flagSet (n : Nat) (e : Engine) (i j : Nat) : (s.setEngine n e).flagSet i j = s.flagSet i j := rfl
@[simp] theorem setEngine_read_bytes (n : Nat) (e : Engine) (i j : Nat) : (s.setEngine n e).bytes i j = s.bytes i j := rfl
@[simp] theorem setEngine_read_rd (n : Nat) (e : Engine) (i j : Nat) : (s.setEngine n e).rd i j = s.rd i j := rfl

/-! ### setFlow -/

@[simp] theorem setFlow_pending (f : Nat) (x : Flow) : (s.setFlow f x).pending = s.pending := rfl
@[simp] theorem setFlow_free (f : Nat) (x : Flow) : (s.setFlow f x).free = s.free := rfl
@[simp] theorem setFlow_cycle (f : Nat) (x : Flow) : (s.setFlow f x).cycle = s.cycle := rfl
@[simp] theorem setFlow_regs (f : Nat) (x : Flow) : (s.setFlow f x).regs = s.regs := rfl
@[simp] theorem setFlow_live (f : Nat) (x : Flow) : (s.setFlow f x).live = s.live := rfl
@[simp] theorem setFlow_mem (f : Nat) (x : Flow) : (s.setFlow f x).mem = s.mem := rfl
@[simp] theorem setFlow_poison (f : Nat) (x : Flow) : (s.setFlow f x).poison = s.poison := rfl
@[simp] theorem setFlow_bus (f : Nat) (x : Flow) : (s.setFlow f x).bus = s.bus := rfl
@[simp] theorem setFlow_nvm (f : Nat) (x : Flow) : (s.setFlow f x).nvm = s.nvm := rfl
@[simp] theorem setFlow_time (f : Nat) (x : Flow) : (s.setFlow f x).time = s.time := rfl
@[simp] theorem setFlow_rasters (f : Nat) (x : Flow) : (s.setFlow f x).rasters = s.rasters := rfl
@[simp] theorem setFlow_ports (f : Nat) (x : Flow) : (s.setFlow f x).ports = s.ports := rfl
@[simp] theorem setFlow_fclk (f : Nat) (x : Flow) : (s.setFlow f x).fclk = s.fclk := rfl
@[simp] theorem setFlow_ran (f : Nat) (x : Flow) : (s.setFlow f x).ran = s.ran := rfl
@[simp] theorem setFlow_cues (f : Nat) (x : Flow) : (s.setFlow f x).cues = s.cues := rfl
@[simp] theorem setFlow_commits (f : Nat) (x : Flow) : (s.setFlow f x).commits = s.commits := rfl
@[simp] theorem setFlow_tickets (f : Nat) (x : Flow) : (s.setFlow f x).tickets = s.tickets := rfl
@[simp] theorem setFlow_engines (f : Nat) (x : Flow) : (s.setFlow f x).engines = s.engines := rfl
@[simp] theorem setFlow_chain (f : Nat) (x : Flow) : (s.setFlow f x).chain = s.chain := rfl
@[simp] theorem setFlow_encFill (f : Nat) (x : Flow) : (s.setFlow f x).encFill = s.encFill := rfl
@[simp] theorem setFlow_sigs (f : Nat) (x : Flow) : (s.setFlow f x).sigs = s.sigs := rfl
@[simp] theorem setFlow_mcus (f : Nat) (x : Flow) : (s.setFlow f x).mcus = s.mcus := rfl
@[simp] theorem setFlow_swap (f : Nat) (x : Flow) : (s.setFlow f x).swap = s.swap := rfl
@[simp] theorem setFlow_copying (f : Nat) (x : Flow) : (s.setFlow f x).copying = s.copying := rfl
@[simp] theorem setFlow_copyWaits (f : Nat) (x : Flow) : (s.setFlow f x).copyWaits = s.copyWaits := rfl
@[simp] theorem setFlow_chans (f : Nat) (x : Flow) : (s.setFlow f x).chans = s.chans := rfl
@[simp] theorem setFlow_blits (f : Nat) (x : Flow) : (s.setFlow f x).blits = s.blits := rfl
@[simp] theorem setFlow_bltWait (f : Nat) (x : Flow) : (s.setFlow f x).bltWait = s.bltWait := rfl
@[simp] theorem setFlow_serv (f : Nat) (x : Flow) : (s.setFlow f x).serv = s.serv := rfl
@[simp] theorem setFlow_aon (f : Nat) (x : Flow) : (s.setFlow f x).aon = s.aon := rfl
@[simp] theorem setFlow_quadIdle (f : Nat) (x : Flow) : (s.setFlow f x).quadIdle = s.quadIdle := rfl
@[simp] theorem setFlow_read_reg (f : Nat) (x : Flow) (i : Nat) : (s.setFlow f x).reg i = s.reg i := rfl
@[simp] theorem setFlow_read_lreg (f : Nat) (x : Flow) (i : Nat) : (s.setFlow f x).lreg i = s.lreg i := rfl
@[simp] theorem setFlow_read_f (f : Nat) (x : Flow) (y : Fld) : (s.setFlow f x).f y = s.f y := rfl
@[simp] theorem setFlow_read_fb (f : Nat) (x : Flow) (y : Fld) : (s.setFlow f x).fb y = s.fb y := rfl
@[simp] theorem setFlow_read_lf (f : Nat) (x : Flow) (y : Fld) : (s.setFlow f x).lf y = s.lf y := rfl
@[simp] theorem setFlow_read_lfb (f : Nat) (x : Flow) (y : Fld) : (s.setFlow f x).lfb y = s.lfb y := rfl
@[simp] theorem setFlow_read_slowReg (f : Nat) (x : Flow) (i : Nat) : (s.setFlow f x).slowReg i = s.slowReg i := rfl
@[simp] theorem setFlow_read_sf (f : Nat) (x : Flow) (y : Fld) : (s.setFlow f x).sf y = s.sf y := rfl
@[simp] theorem setFlow_read_raster (f : Nat) (x : Flow) (i : Nat) : (s.setFlow f x).raster i = s.raster i := rfl
@[simp] theorem setFlow_read_port (f : Nat) (x : Flow) (i : Nat) : (s.setFlow f x).port i = s.port i := rfl
@[simp] theorem setFlow_read_tq (f : Nat) (x : Flow) : (s.setFlow f x).tq = s.tq := rfl
@[simp] theorem setFlow_read_sig (f : Nat) (x : Flow) (i : Nat) : (s.setFlow f x).sig i = s.sig i := rfl
@[simp] theorem setFlow_read_engine (f : Nat) (x : Flow) (i : Nat) : (s.setFlow f x).engine i = s.engine i := rfl
@[simp] theorem setFlow_read_chan (f : Nat) (x : Flow) (i : Nat) : (s.setFlow f x).chan i = s.chan i := rfl
@[simp] theorem setFlow_read_flagSet (f : Nat) (x : Flow) (i j : Nat) : (s.setFlow f x).flagSet i j = s.flagSet i j := rfl
@[simp] theorem setFlow_read_bytes (f : Nat) (x : Flow) (i j : Nat) : (s.setFlow f x).bytes i j = s.bytes i j := rfl
@[simp] theorem setFlow_read_rd (f : Nat) (x : Flow) (i j : Nat) : (s.setFlow f x).rd i j = s.rd i j := rfl

/-! ### setChain -/

@[simp] theorem setChain_pending (c : Chain) : (s.setChain c).pending = s.pending := rfl
@[simp] theorem setChain_free (c : Chain) : (s.setChain c).free = s.free := rfl
@[simp] theorem setChain_cycle (c : Chain) : (s.setChain c).cycle = s.cycle := rfl
@[simp] theorem setChain_regs (c : Chain) : (s.setChain c).regs = s.regs := rfl
@[simp] theorem setChain_live (c : Chain) : (s.setChain c).live = s.live := rfl
@[simp] theorem setChain_mem (c : Chain) : (s.setChain c).mem = s.mem := rfl
@[simp] theorem setChain_poison (c : Chain) : (s.setChain c).poison = s.poison := rfl
@[simp] theorem setChain_bus (c : Chain) : (s.setChain c).bus = s.bus := rfl
@[simp] theorem setChain_nvm (c : Chain) : (s.setChain c).nvm = s.nvm := rfl
@[simp] theorem setChain_time (c : Chain) : (s.setChain c).time = s.time := rfl
@[simp] theorem setChain_rasters (c : Chain) : (s.setChain c).rasters = s.rasters := rfl
@[simp] theorem setChain_ports (c : Chain) : (s.setChain c).ports = s.ports := rfl
@[simp] theorem setChain_fclk (c : Chain) : (s.setChain c).fclk = s.fclk := rfl
@[simp] theorem setChain_ran (c : Chain) : (s.setChain c).ran = s.ran := rfl
@[simp] theorem setChain_cues (c : Chain) : (s.setChain c).cues = s.cues := rfl
@[simp] theorem setChain_commits (c : Chain) : (s.setChain c).commits = s.commits := rfl
@[simp] theorem setChain_tickets (c : Chain) : (s.setChain c).tickets = s.tickets := rfl
@[simp] theorem setChain_engines (c : Chain) : (s.setChain c).engines = s.engines := rfl
@[simp] theorem setChain_flows (c : Chain) : (s.setChain c).flows = s.flows := rfl
@[simp] theorem setChain_encFill (c : Chain) : (s.setChain c).encFill = s.encFill := rfl
@[simp] theorem setChain_sigs (c : Chain) : (s.setChain c).sigs = s.sigs := rfl
@[simp] theorem setChain_mcus (c : Chain) : (s.setChain c).mcus = s.mcus := rfl
@[simp] theorem setChain_swap (c : Chain) : (s.setChain c).swap = s.swap := rfl
@[simp] theorem setChain_copying (c : Chain) : (s.setChain c).copying = s.copying := rfl
@[simp] theorem setChain_copyWaits (c : Chain) : (s.setChain c).copyWaits = s.copyWaits := rfl
@[simp] theorem setChain_chans (c : Chain) : (s.setChain c).chans = s.chans := rfl
@[simp] theorem setChain_blits (c : Chain) : (s.setChain c).blits = s.blits := rfl
@[simp] theorem setChain_bltWait (c : Chain) : (s.setChain c).bltWait = s.bltWait := rfl
@[simp] theorem setChain_serv (c : Chain) : (s.setChain c).serv = s.serv := rfl
@[simp] theorem setChain_aon (c : Chain) : (s.setChain c).aon = s.aon := rfl
@[simp] theorem setChain_quadIdle (c : Chain) : (s.setChain c).quadIdle = s.quadIdle := rfl
@[simp] theorem setChain_read_reg (c : Chain) (i : Nat) : (s.setChain c).reg i = s.reg i := rfl
@[simp] theorem setChain_read_lreg (c : Chain) (i : Nat) : (s.setChain c).lreg i = s.lreg i := rfl
@[simp] theorem setChain_read_f (c : Chain) (y : Fld) : (s.setChain c).f y = s.f y := rfl
@[simp] theorem setChain_read_fb (c : Chain) (y : Fld) : (s.setChain c).fb y = s.fb y := rfl
@[simp] theorem setChain_read_lf (c : Chain) (y : Fld) : (s.setChain c).lf y = s.lf y := rfl
@[simp] theorem setChain_read_lfb (c : Chain) (y : Fld) : (s.setChain c).lfb y = s.lfb y := rfl
@[simp] theorem setChain_read_slowReg (c : Chain) (i : Nat) : (s.setChain c).slowReg i = s.slowReg i := rfl
@[simp] theorem setChain_read_sf (c : Chain) (y : Fld) : (s.setChain c).sf y = s.sf y := rfl
@[simp] theorem setChain_read_raster (c : Chain) (i : Nat) : (s.setChain c).raster i = s.raster i := rfl
@[simp] theorem setChain_read_port (c : Chain) (i : Nat) : (s.setChain c).port i = s.port i := rfl
@[simp] theorem setChain_read_tq (c : Chain) : (s.setChain c).tq = s.tq := rfl
@[simp] theorem setChain_read_sig (c : Chain) (i : Nat) : (s.setChain c).sig i = s.sig i := rfl
@[simp] theorem setChain_read_engine (c : Chain) (i : Nat) : (s.setChain c).engine i = s.engine i := rfl
@[simp] theorem setChain_read_flow (c : Chain) (i : Nat) : (s.setChain c).flow i = s.flow i := rfl
@[simp] theorem setChain_read_chan (c : Chain) (i : Nat) : (s.setChain c).chan i = s.chan i := rfl
@[simp] theorem setChain_read_flagSet (c : Chain) (i j : Nat) : (s.setChain c).flagSet i j = s.flagSet i j := rfl
@[simp] theorem setChain_read_bytes (c : Chain) (i j : Nat) : (s.setChain c).bytes i j = s.bytes i j := rfl
@[simp] theorem setChain_read_rd (c : Chain) (i j : Nat) : (s.setChain c).rd i j = s.rd i j := rfl

/-! ### setChan -/

@[simp] theorem setChan_pending (c : Nat) (x : Chan) : (s.setChan c x).pending = s.pending := rfl
@[simp] theorem setChan_free (c : Nat) (x : Chan) : (s.setChan c x).free = s.free := rfl
@[simp] theorem setChan_cycle (c : Nat) (x : Chan) : (s.setChan c x).cycle = s.cycle := rfl
@[simp] theorem setChan_regs (c : Nat) (x : Chan) : (s.setChan c x).regs = s.regs := rfl
@[simp] theorem setChan_live (c : Nat) (x : Chan) : (s.setChan c x).live = s.live := rfl
@[simp] theorem setChan_mem (c : Nat) (x : Chan) : (s.setChan c x).mem = s.mem := rfl
@[simp] theorem setChan_poison (c : Nat) (x : Chan) : (s.setChan c x).poison = s.poison := rfl
@[simp] theorem setChan_bus (c : Nat) (x : Chan) : (s.setChan c x).bus = s.bus := rfl
@[simp] theorem setChan_nvm (c : Nat) (x : Chan) : (s.setChan c x).nvm = s.nvm := rfl
@[simp] theorem setChan_time (c : Nat) (x : Chan) : (s.setChan c x).time = s.time := rfl
@[simp] theorem setChan_rasters (c : Nat) (x : Chan) : (s.setChan c x).rasters = s.rasters := rfl
@[simp] theorem setChan_ports (c : Nat) (x : Chan) : (s.setChan c x).ports = s.ports := rfl
@[simp] theorem setChan_fclk (c : Nat) (x : Chan) : (s.setChan c x).fclk = s.fclk := rfl
@[simp] theorem setChan_ran (c : Nat) (x : Chan) : (s.setChan c x).ran = s.ran := rfl
@[simp] theorem setChan_cues (c : Nat) (x : Chan) : (s.setChan c x).cues = s.cues := rfl
@[simp] theorem setChan_commits (c : Nat) (x : Chan) : (s.setChan c x).commits = s.commits := rfl
@[simp] theorem setChan_tickets (c : Nat) (x : Chan) : (s.setChan c x).tickets = s.tickets := rfl
@[simp] theorem setChan_engines (c : Nat) (x : Chan) : (s.setChan c x).engines = s.engines := rfl
@[simp] theorem setChan_flows (c : Nat) (x : Chan) : (s.setChan c x).flows = s.flows := rfl
@[simp] theorem setChan_chain (c : Nat) (x : Chan) : (s.setChan c x).chain = s.chain := rfl
@[simp] theorem setChan_encFill (c : Nat) (x : Chan) : (s.setChan c x).encFill = s.encFill := rfl
@[simp] theorem setChan_sigs (c : Nat) (x : Chan) : (s.setChan c x).sigs = s.sigs := rfl
@[simp] theorem setChan_mcus (c : Nat) (x : Chan) : (s.setChan c x).mcus = s.mcus := rfl
@[simp] theorem setChan_swap (c : Nat) (x : Chan) : (s.setChan c x).swap = s.swap := rfl
@[simp] theorem setChan_copying (c : Nat) (x : Chan) : (s.setChan c x).copying = s.copying := rfl
@[simp] theorem setChan_copyWaits (c : Nat) (x : Chan) : (s.setChan c x).copyWaits = s.copyWaits := rfl
@[simp] theorem setChan_blits (c : Nat) (x : Chan) : (s.setChan c x).blits = s.blits := rfl
@[simp] theorem setChan_bltWait (c : Nat) (x : Chan) : (s.setChan c x).bltWait = s.bltWait := rfl
@[simp] theorem setChan_serv (c : Nat) (x : Chan) : (s.setChan c x).serv = s.serv := rfl
@[simp] theorem setChan_aon (c : Nat) (x : Chan) : (s.setChan c x).aon = s.aon := rfl
@[simp] theorem setChan_quadIdle (c : Nat) (x : Chan) : (s.setChan c x).quadIdle = s.quadIdle := rfl
@[simp] theorem setChan_read_reg (c : Nat) (x : Chan) (i : Nat) : (s.setChan c x).reg i = s.reg i := rfl
@[simp] theorem setChan_read_lreg (c : Nat) (x : Chan) (i : Nat) : (s.setChan c x).lreg i = s.lreg i := rfl
@[simp] theorem setChan_read_f (c : Nat) (x : Chan) (y : Fld) : (s.setChan c x).f y = s.f y := rfl
@[simp] theorem setChan_read_fb (c : Nat) (x : Chan) (y : Fld) : (s.setChan c x).fb y = s.fb y := rfl
@[simp] theorem setChan_read_lf (c : Nat) (x : Chan) (y : Fld) : (s.setChan c x).lf y = s.lf y := rfl
@[simp] theorem setChan_read_lfb (c : Nat) (x : Chan) (y : Fld) : (s.setChan c x).lfb y = s.lfb y := rfl
@[simp] theorem setChan_read_slowReg (c : Nat) (x : Chan) (i : Nat) : (s.setChan c x).slowReg i = s.slowReg i := rfl
@[simp] theorem setChan_read_sf (c : Nat) (x : Chan) (y : Fld) : (s.setChan c x).sf y = s.sf y := rfl
@[simp] theorem setChan_read_raster (c : Nat) (x : Chan) (i : Nat) : (s.setChan c x).raster i = s.raster i := rfl
@[simp] theorem setChan_read_port (c : Nat) (x : Chan) (i : Nat) : (s.setChan c x).port i = s.port i := rfl
@[simp] theorem setChan_read_tq (c : Nat) (x : Chan) : (s.setChan c x).tq = s.tq := rfl
@[simp] theorem setChan_read_sig (c : Nat) (x : Chan) (i : Nat) : (s.setChan c x).sig i = s.sig i := rfl
@[simp] theorem setChan_read_engine (c : Nat) (x : Chan) (i : Nat) : (s.setChan c x).engine i = s.engine i := rfl
@[simp] theorem setChan_read_flow (c : Nat) (x : Chan) (i : Nat) : (s.setChan c x).flow i = s.flow i := rfl
@[simp] theorem setChan_read_flagSet (c : Nat) (x : Chan) (i j : Nat) : (s.setChan c x).flagSet i j = s.flagSet i j := rfl
@[simp] theorem setChan_read_bytes (c : Nat) (x : Chan) (i j : Nat) : (s.setChan c x).bytes i j = s.bytes i j := rfl
@[simp] theorem setChan_read_rd (c : Nat) (x : Chan) (i j : Nat) : (s.setChan c x).rd i j = s.rd i j := rfl

/-! ### setServ -/

@[simp] theorem setServ_pending (x : Serv) : (s.setServ x).pending = s.pending := rfl
@[simp] theorem setServ_free (x : Serv) : (s.setServ x).free = s.free := rfl
@[simp] theorem setServ_cycle (x : Serv) : (s.setServ x).cycle = s.cycle := rfl
@[simp] theorem setServ_regs (x : Serv) : (s.setServ x).regs = s.regs := rfl
@[simp] theorem setServ_live (x : Serv) : (s.setServ x).live = s.live := rfl
@[simp] theorem setServ_mem (x : Serv) : (s.setServ x).mem = s.mem := rfl
@[simp] theorem setServ_poison (x : Serv) : (s.setServ x).poison = s.poison := rfl
@[simp] theorem setServ_bus (x : Serv) : (s.setServ x).bus = s.bus := rfl
@[simp] theorem setServ_nvm (x : Serv) : (s.setServ x).nvm = s.nvm := rfl
@[simp] theorem setServ_time (x : Serv) : (s.setServ x).time = s.time := rfl
@[simp] theorem setServ_rasters (x : Serv) : (s.setServ x).rasters = s.rasters := rfl
@[simp] theorem setServ_ports (x : Serv) : (s.setServ x).ports = s.ports := rfl
@[simp] theorem setServ_fclk (x : Serv) : (s.setServ x).fclk = s.fclk := rfl
@[simp] theorem setServ_ran (x : Serv) : (s.setServ x).ran = s.ran := rfl
@[simp] theorem setServ_cues (x : Serv) : (s.setServ x).cues = s.cues := rfl
@[simp] theorem setServ_commits (x : Serv) : (s.setServ x).commits = s.commits := rfl
@[simp] theorem setServ_tickets (x : Serv) : (s.setServ x).tickets = s.tickets := rfl
@[simp] theorem setServ_engines (x : Serv) : (s.setServ x).engines = s.engines := rfl
@[simp] theorem setServ_flows (x : Serv) : (s.setServ x).flows = s.flows := rfl
@[simp] theorem setServ_chain (x : Serv) : (s.setServ x).chain = s.chain := rfl
@[simp] theorem setServ_encFill (x : Serv) : (s.setServ x).encFill = s.encFill := rfl
@[simp] theorem setServ_sigs (x : Serv) : (s.setServ x).sigs = s.sigs := rfl
@[simp] theorem setServ_mcus (x : Serv) : (s.setServ x).mcus = s.mcus := rfl
@[simp] theorem setServ_swap (x : Serv) : (s.setServ x).swap = s.swap := rfl
@[simp] theorem setServ_copying (x : Serv) : (s.setServ x).copying = s.copying := rfl
@[simp] theorem setServ_copyWaits (x : Serv) : (s.setServ x).copyWaits = s.copyWaits := rfl
@[simp] theorem setServ_chans (x : Serv) : (s.setServ x).chans = s.chans := rfl
@[simp] theorem setServ_blits (x : Serv) : (s.setServ x).blits = s.blits := rfl
@[simp] theorem setServ_bltWait (x : Serv) : (s.setServ x).bltWait = s.bltWait := rfl
@[simp] theorem setServ_aon (x : Serv) : (s.setServ x).aon = s.aon := rfl
@[simp] theorem setServ_quadIdle (x : Serv) : (s.setServ x).quadIdle = s.quadIdle := rfl
@[simp] theorem setServ_read_reg (x : Serv) (i : Nat) : (s.setServ x).reg i = s.reg i := rfl
@[simp] theorem setServ_read_lreg (x : Serv) (i : Nat) : (s.setServ x).lreg i = s.lreg i := rfl
@[simp] theorem setServ_read_f (x : Serv) (y : Fld) : (s.setServ x).f y = s.f y := rfl
@[simp] theorem setServ_read_fb (x : Serv) (y : Fld) : (s.setServ x).fb y = s.fb y := rfl
@[simp] theorem setServ_read_lf (x : Serv) (y : Fld) : (s.setServ x).lf y = s.lf y := rfl
@[simp] theorem setServ_read_lfb (x : Serv) (y : Fld) : (s.setServ x).lfb y = s.lfb y := rfl
@[simp] theorem setServ_read_slowReg (x : Serv) (i : Nat) : (s.setServ x).slowReg i = s.slowReg i := rfl
@[simp] theorem setServ_read_sf (x : Serv) (y : Fld) : (s.setServ x).sf y = s.sf y := rfl
@[simp] theorem setServ_read_raster (x : Serv) (i : Nat) : (s.setServ x).raster i = s.raster i := rfl
@[simp] theorem setServ_read_port (x : Serv) (i : Nat) : (s.setServ x).port i = s.port i := rfl
@[simp] theorem setServ_read_tq (x : Serv) : (s.setServ x).tq = s.tq := rfl
@[simp] theorem setServ_read_sig (x : Serv) (i : Nat) : (s.setServ x).sig i = s.sig i := rfl
@[simp] theorem setServ_read_engine (x : Serv) (i : Nat) : (s.setServ x).engine i = s.engine i := rfl
@[simp] theorem setServ_read_flow (x : Serv) (i : Nat) : (s.setServ x).flow i = s.flow i := rfl
@[simp] theorem setServ_read_chan (x : Serv) (i : Nat) : (s.setServ x).chan i = s.chan i := rfl
@[simp] theorem setServ_read_flagSet (x : Serv) (i j : Nat) : (s.setServ x).flagSet i j = s.flagSet i j := rfl
@[simp] theorem setServ_read_bytes (x : Serv) (i j : Nat) : (s.setServ x).bytes i j = s.bytes i j := rfl
@[simp] theorem setServ_read_rd (x : Serv) (i j : Nat) : (s.setServ x).rd i j = s.rd i j := rfl

/-! ### setAon -/

@[simp] theorem setAon_pending (x : Aon) : (s.setAon x).pending = s.pending := rfl
@[simp] theorem setAon_free (x : Aon) : (s.setAon x).free = s.free := rfl
@[simp] theorem setAon_cycle (x : Aon) : (s.setAon x).cycle = s.cycle := rfl
@[simp] theorem setAon_regs (x : Aon) : (s.setAon x).regs = s.regs := rfl
@[simp] theorem setAon_live (x : Aon) : (s.setAon x).live = s.live := rfl
@[simp] theorem setAon_mem (x : Aon) : (s.setAon x).mem = s.mem := rfl
@[simp] theorem setAon_poison (x : Aon) : (s.setAon x).poison = s.poison := rfl
@[simp] theorem setAon_bus (x : Aon) : (s.setAon x).bus = s.bus := rfl
@[simp] theorem setAon_nvm (x : Aon) : (s.setAon x).nvm = s.nvm := rfl
@[simp] theorem setAon_time (x : Aon) : (s.setAon x).time = s.time := rfl
@[simp] theorem setAon_rasters (x : Aon) : (s.setAon x).rasters = s.rasters := rfl
@[simp] theorem setAon_ports (x : Aon) : (s.setAon x).ports = s.ports := rfl
@[simp] theorem setAon_fclk (x : Aon) : (s.setAon x).fclk = s.fclk := rfl
@[simp] theorem setAon_ran (x : Aon) : (s.setAon x).ran = s.ran := rfl
@[simp] theorem setAon_cues (x : Aon) : (s.setAon x).cues = s.cues := rfl
@[simp] theorem setAon_commits (x : Aon) : (s.setAon x).commits = s.commits := rfl
@[simp] theorem setAon_tickets (x : Aon) : (s.setAon x).tickets = s.tickets := rfl
@[simp] theorem setAon_engines (x : Aon) : (s.setAon x).engines = s.engines := rfl
@[simp] theorem setAon_flows (x : Aon) : (s.setAon x).flows = s.flows := rfl
@[simp] theorem setAon_chain (x : Aon) : (s.setAon x).chain = s.chain := rfl
@[simp] theorem setAon_encFill (x : Aon) : (s.setAon x).encFill = s.encFill := rfl
@[simp] theorem setAon_sigs (x : Aon) : (s.setAon x).sigs = s.sigs := rfl
@[simp] theorem setAon_mcus (x : Aon) : (s.setAon x).mcus = s.mcus := rfl
@[simp] theorem setAon_swap (x : Aon) : (s.setAon x).swap = s.swap := rfl
@[simp] theorem setAon_copying (x : Aon) : (s.setAon x).copying = s.copying := rfl
@[simp] theorem setAon_copyWaits (x : Aon) : (s.setAon x).copyWaits = s.copyWaits := rfl
@[simp] theorem setAon_chans (x : Aon) : (s.setAon x).chans = s.chans := rfl
@[simp] theorem setAon_blits (x : Aon) : (s.setAon x).blits = s.blits := rfl
@[simp] theorem setAon_bltWait (x : Aon) : (s.setAon x).bltWait = s.bltWait := rfl
@[simp] theorem setAon_serv (x : Aon) : (s.setAon x).serv = s.serv := rfl
@[simp] theorem setAon_quadIdle (x : Aon) : (s.setAon x).quadIdle = s.quadIdle := rfl
@[simp] theorem setAon_read_reg (x : Aon) (i : Nat) : (s.setAon x).reg i = s.reg i := rfl
@[simp] theorem setAon_read_lreg (x : Aon) (i : Nat) : (s.setAon x).lreg i = s.lreg i := rfl
@[simp] theorem setAon_read_f (x : Aon) (y : Fld) : (s.setAon x).f y = s.f y := rfl
@[simp] theorem setAon_read_fb (x : Aon) (y : Fld) : (s.setAon x).fb y = s.fb y := rfl
@[simp] theorem setAon_read_lf (x : Aon) (y : Fld) : (s.setAon x).lf y = s.lf y := rfl
@[simp] theorem setAon_read_lfb (x : Aon) (y : Fld) : (s.setAon x).lfb y = s.lfb y := rfl
@[simp] theorem setAon_read_slowReg (x : Aon) (i : Nat) : (s.setAon x).slowReg i = s.slowReg i := rfl
@[simp] theorem setAon_read_sf (x : Aon) (y : Fld) : (s.setAon x).sf y = s.sf y := rfl
@[simp] theorem setAon_read_raster (x : Aon) (i : Nat) : (s.setAon x).raster i = s.raster i := rfl
@[simp] theorem setAon_read_port (x : Aon) (i : Nat) : (s.setAon x).port i = s.port i := rfl
@[simp] theorem setAon_read_tq (x : Aon) : (s.setAon x).tq = s.tq := rfl
@[simp] theorem setAon_read_sig (x : Aon) (i : Nat) : (s.setAon x).sig i = s.sig i := rfl
@[simp] theorem setAon_read_engine (x : Aon) (i : Nat) : (s.setAon x).engine i = s.engine i := rfl
@[simp] theorem setAon_read_flow (x : Aon) (i : Nat) : (s.setAon x).flow i = s.flow i := rfl
@[simp] theorem setAon_read_chan (x : Aon) (i : Nat) : (s.setAon x).chan i = s.chan i := rfl
@[simp] theorem setAon_read_flagSet (x : Aon) (i j : Nat) : (s.setAon x).flagSet i j = s.flagSet i j := rfl
@[simp] theorem setAon_read_bytes (x : Aon) (i j : Nat) : (s.setAon x).bytes i j = s.bytes i j := rfl
@[simp] theorem setAon_read_rd (x : Aon) (i j : Nat) : (s.setAon x).rd i j = s.rd i j := rfl

/-! ### What an update writes -/

@[simp] theorem setBus_bus (b : Bus) : (s.setBus b).bus = b := rfl
@[simp] theorem setTime_time (t : Time) : (s.setTime t).time = t := rfl
@[simp] theorem setNvm_nvm (n : Nvm) : (s.setNvm n).nvm = n := rfl
@[simp] theorem setChain_chain (c : Chain) : (s.setChain c).chain = c := rfl
@[simp] theorem setServ_serv (x : Serv) : (s.setServ x).serv = x := rfl
@[simp] theorem setAon_aon (x : Aon) : (s.setAon x).aon = x := rfl
theorem newCycle_cycle (slow : Bool) : (s.newCycle slow).cycle = s.cycle.filter fun a => slowStatus a != slow := rfl
theorem respond_bus (m : Nat) (k : RespKind) (d : Word) (c : Nat) : (s.respond m k d c).bus =
    { s.bus with resp := Tab.put s.bus.resp m ⟨k, d, c⟩, sbError := s.bus.sbError || (m == 16 && k == .busError) } := rfl
@[simp] theorem respond_respOf (m : Nat) (k : RespKind) (d : Word) (c : Nat) : (s.respond m k d c).respOf m = ⟨k, d, c⟩ := by
  show Tab.get (Tab.put s.bus.resp m _) m {} = _
  simp [Tab.get]

/-! ### The named forms of the plain updates -/

theorem satF_eq (x : Fld) (n : Nat) : s.satF x n = s.setF x (satAdd (x.hi + 1 - x.lo) (s.f x) n) := rfl
theorem addF_eq (x : Fld) (n : Nat) : s.addF x n = s.setF x (s.f x + n) := rfl
theorem raise_eq (a b : Nat) : s.raise a b = s.raiseAll a [b] := rfl
theorem wr_eq (a n v : Nat) : s.wr a n v = s.store a (leBytes n v) := rfl
theorem put_eq (a : Nat) (bs : List Byte) : s.put a bs = (s.store a bs).clearPoison a bs.length := rfl

theorem tbRaise_eq (l : List Nat) : s.tbRaise l = s.raiseAll Reg.TIMEBASE_BLOCK_STATUS l := rfl
theorem portRaise_eq (p : Nat) (l : List Nat) : s.portRaise p l = s.raiseAll (Reg.PORT_STATUS p) l := rfl
theorem btlRaise_eq (p : Nat) (l : List Nat) : s.btlRaise p l = s.raiseAll (Reg.BTL_STATUS p) l := rfl
theorem cruRaise_eq (l : List Nat) : s.cruRaise l = s.raiseAll Reg.CRUCIBLE_BLOCK_STATUS l := rfl
theorem checkRaise_eq (l : List Nat) : s.checkRaise l = s.raiseAll Reg.CHECK_BLOCK_STATUS l := rfl
theorem ingRaise_eq (l : List Nat) : s.ingRaise l = s.raiseAll Reg.INGEST_BLOCK_STATUS l := rfl
theorem chainRaise_eq (l : List Nat) : s.chainRaise l = s.raiseAll Reg.CHAIN_BLOCK_STATUS l := rfl
theorem mcRaise_eq (p : Nat) (l : List Nat) : s.mcRaise p l = s.raiseAll (Reg.MC_BLOCK_STATUS p) l := rfl
theorem bltRaise_eq (p : Nat) (l : List Nat) : s.bltRaise p l = s.raiseAll (Reg.BLT_BLOCK_STATUS p) l := rfl
theorem mmacRaise_eq (p : Nat) (l : List Nat) : s.mmacRaise p l = s.raiseAll (Reg.MMAC_STATUS p) l := rfl
theorem orsRaise_eq (p : Nat) (l : List Nat) : s.orsRaise p l = s.raiseAll (Reg.ORS_BLOCK_STATUS p) l := rfl
theorem cueRaise_eq (l : List Nat) : s.cueRaise l = s.raiseAll Reg.CUE_BLOCK_STATUS l := rfl
theorem ingotRaise_eq (l : List Nat) : s.ingotRaise l = s.raiseAll Reg.INGOT_BLOCK_STATUS l := rfl

end Sys2Proof.Machine.State
end

