-- ==== Sys2Proof/Laws/Fields.lean ====
section
/-! SUPPORT. Bit fields, and what a register or a field reads after a register, a field or a status register has been
written. -/

namespace Sys2Proof.Machine

/-! ### Bit fields of numbers -/

/-- A field of v lies in v mod 2^n where it ends below bit n. -/
theorem bits_mod {v hi lo n : Nat} (h : hi < n) (hl : lo ≤ hi) : bits (v % 2 ^ n) hi lo = bits v hi lo := by
  obtain ⟨k, rfl⟩ : ∃ k, hi = lo + k := ⟨hi - lo, by omega⟩
  obtain ⟨j, rfl⟩ : ∃ j, n = lo + (k + 1 + j) := ⟨n - lo - k - 1, by omega⟩
  unfold bits
  have e : lo + k + 1 - lo = k + 1 := by omega
  rw [e, Nat.pow_add, Nat.mod_mul_right_div_self, Nat.pow_add 2 (k + 1) j]
  exact Nat.mod_mul_right_mod _ _ _

/-- The field that putBits writes. -/
theorem bits_putBits_same {v hi lo n : Nat} (h : lo ≤ hi) : bits (putBits v hi lo n) hi lo = n % 2 ^ (hi + 1 - lo) := by
  obtain ⟨k, rfl⟩ : ∃ k, hi = lo + k := ⟨hi - lo, by omega⟩
  have e : lo + k + 1 - lo = k + 1 := by omega
  unfold bits putBits
  rw [e]
  have e2 : lo + k + 1 = (k + 1) + lo := by omega
  rw [e2, Nat.pow_add 2 (k + 1) lo, ← Nat.mul_assoc, ← Nat.add_mul, Nat.mul_comm _ (2 ^ lo),
    Nat.mul_add_div (Nat.two_pow_pos lo), Nat.div_eq_of_lt (Nat.mod_lt _ (Nat.two_pow_pos lo)), Nat.add_zero,
    Nat.mul_add_mod_self_right, Nat.mod_mod]

/-- putBits leaves every bit outside its field. -/
theorem testBit_putBits_other {v hi lo n i : Nat} (hl : lo ≤ hi) (h : i < lo ∨ hi < i) :
    (putBits v hi lo n).testBit i = v.testBit i := by
  obtain ⟨k, rfl⟩ : ∃ k, hi = lo + k := ⟨hi - lo, by omega⟩
  unfold putBits
  have e : lo + k + 1 - lo = k + 1 := by omega
  have e2 : lo + k + 1 = (k + 1) + lo := by omega
  have hm : n % 2 ^ (k + 1) * 2 ^ lo + v % 2 ^ lo < 2 ^ (lo + k + 1) := by
    have a := Nat.mod_lt n (Nat.two_pow_pos (k + 1))
    have b := Nat.mod_lt v (Nat.two_pow_pos lo)
    have c : (n % 2 ^ (k + 1) + 1) * 2 ^ lo ≤ 2 ^ (k + 1) * 2 ^ lo := Nat.mul_le_mul_right _ a
    rw [e2, Nat.pow_add 2 (k + 1) lo]
    rw [Nat.add_mul, Nat.one_mul] at c
    omega
  rw [e, Nat.add_assoc, Nat.mul_comm (v / _)]
  rcases h with h | h
  · rw [Nat.testBit_two_pow_mul_add _ hm, if_pos (by omega), Nat.mul_comm (n % _),
      Nat.testBit_two_pow_mul_add _ (Nat.mod_lt _ (Nat.two_pow_pos lo)), if_pos h, Nat.testBit_mod_two_pow]
    simp [h]
  · rw [Nat.testBit_two_pow_mul_add _ hm, if_neg (by omega), Nat.testBit_div_two_pow]
    congr 1; omega

/-- A field is made of its bits. -/
theorem bits_testBit (v hi lo i : Nat) :
    (bits v hi lo).testBit i = (decide (i < hi + 1 - lo) && v.testBit (lo + i)) := by
  unfold bits
  rw [Nat.testBit_mod_two_pow, Nat.testBit_div_two_pow, Nat.add_comm i lo]

/-- putBits leaves every field that shares no bit with its own. -/
theorem bits_putBits_other {v hi lo n a b : Nat} (hl : lo ≤ hi) (hb : b ≤ a) (h : a < lo ∨ hi < b) :
    bits (putBits v hi lo n) a b = bits v a b := by
  apply Nat.eq_of_testBit_eq
  intro i
  rw [bits_testBit, bits_testBit]
  by_cases hi' : i < a + 1 - b
  · rw [testBit_putBits_other hl (by omega)]
  · simp [hi']

theorem bits_lt (v hi lo : Nat) : bits v hi lo < 2 ^ (hi + 1 - lo) := Nat.mod_lt _ (Nat.two_pow_pos _)

theorem bit_testBit (v i : Nat) : bit v i = v.testBit i := by
  simp [bit, Nat.testBit_eq_decide_div_mod_eq, BEq.beq]

namespace State

variable (s : State)

/-! ### Registers -/

@[simp] theorem reg_setReg_same (a : Nat) (v : Word) : (s.setReg a v).reg a = v := by simp [reg, setReg]

theorem reg_setReg_other {a b : Nat} (v : Word) (h : b ≠ a) : (s.setReg a v).reg b = s.reg b := by
  simp [reg, setReg, Tab.find_put_other _ _ h]

@[simp] theorem lreg_setLreg_same (a : Nat) (v : Word) : (s.setLreg a v).lreg a = v := by simp [lreg, setLreg]

theorem lreg_setLreg_other {a b : Nat} (v : Word) (h : b ≠ a) : (s.setLreg a v).lreg b = s.lreg b := by
  simp [lreg, setLreg, Tab.find_put_other _ _ h]

@[simp] theorem slowReg_setSlow_same (a : Nat) (v : Word) : (s.setSlow a v).slowReg a = v := by simp [slowReg, setSlow]

theorem slowReg_setSlow_other {a b : Nat} (v : Word) (h : b ≠ a) : (s.setSlow a v).slowReg b = s.slowReg b := by
  simp [slowReg, setSlow, Tab.find_put_other _ _ h]

/-! ### Fields -/

/-- A field that setF writes reads the low bits of the value. -/
theorem f_setF_same {x : Fld} (n : Nat) (hl : x.lo ≤ x.hi) (hh : x.hi < 64) :
    (s.setF x n).f x = n % 2 ^ (x.hi + 1 - x.lo) := by
  simp only [f, setF, reg_setReg_same, BitVec.toNat_ofNat]
  rw [bits_mod hh hl, bits_putBits_same hl]

/-- A field of the same register that shares no bit with the one written. -/
theorem f_setF_disjoint {x y : Fld} (n : Nat) (ha : y.addr = x.addr) (hx : x.lo ≤ x.hi) (hy : y.lo ≤ y.hi) (hh : y.hi < 64)
    (h : y.hi < x.lo ∨ x.hi < y.lo) : (s.setF x n).f y = s.f y := by
  simp only [f, setF, ha, reg_setReg_same, BitVec.toNat_ofNat]
  rw [bits_mod hh hy, bits_putBits_other hx hy h]

/-- A field of another register. -/
theorem f_setF_other {x y : Fld} (n : Nat) (h : y.addr ≠ x.addr) : (s.setF x n).f y = s.f y := by
  simp only [f, setF, reg_setReg_other _ _ h]

theorem f_setReg_other {y : Fld} {a : Nat} (v : Word) (h : y.addr ≠ a) : (s.setReg a v).f y = s.f y := by
  simp only [f, reg_setReg_other _ _ h]

theorem f_setReg_same {y : Fld} {a : Nat} (v : Word) (h : y.addr = a) : (s.setReg a v).f y = bits v.toNat y.hi y.lo := by
  subst h; simp only [f, reg_setReg_same]

theorem reg_setF_other {x : Fld} {b : Nat} (n : Nat) (h : b ≠ x.addr) : (s.setF x n).reg b = s.reg b :=
  reg_setReg_other _ _ h

theorem fb_setF_same {x : Fld} (n : Nat) (hl : x.lo ≤ x.hi) (hh : x.hi < 64) :
    (s.setF x n).fb x = (n % 2 ^ (x.hi + 1 - x.lo) != 0) := by
  simp only [fb, f_setF_same s n hl hh]

theorem fb_setF_other {x y : Fld} (n : Nat) (h : y.addr ≠ x.addr) : (s.setF x n).fb y = s.fb y := by
  simp only [fb, f_setF_other s n h]

theorem fb_setF_disjoint {x y : Fld} (n : Nat) (ha : y.addr = x.addr) (hx : x.lo ≤ x.hi) (hy : y.lo ≤ y.hi) (hh : y.hi < 64)
    (h : y.hi < x.lo ∨ x.hi < y.lo) : (s.setF x n).fb y = s.fb y := by
  simp only [fb, f_setF_disjoint s n ha hx hy hh h]

theorem fb_setReg_other {y : Fld} {a : Nat} (v : Word) (h : y.addr ≠ a) : (s.setReg a v).fb y = s.fb y := by
  simp only [fb, f_setReg_other s v h]

/-! ### Slow-domain fields -/

theorem sf_setSf_same {x : Fld} (n : Nat) (hl : x.lo ≤ x.hi) (hh : x.hi < 64) :
    (s.setSf x n).sf x = n % 2 ^ (x.hi + 1 - x.lo) := by
  simp only [sf, setSf, slowReg_setSlow_same, BitVec.toNat_ofNat]
  rw [bits_mod hh hl, bits_putBits_same hl]

theorem sf_setSf_disjoint {x y : Fld} (n : Nat) (ha : y.addr = x.addr) (hx : x.lo ≤ x.hi) (hy : y.lo ≤ y.hi) (hh : y.hi < 64)
    (h : y.hi < x.lo ∨ x.hi < y.lo) : (s.setSf x n).sf y = s.sf y := by
  simp only [sf, setSf, ha, slowReg_setSlow_same, BitVec.toNat_ofNat]
  rw [bits_mod hh hy, bits_putBits_other hx hy h]

theorem sf_setSf_other {x y : Fld} (n : Nat) (h : y.addr ≠ x.addr) : (s.setSf x n).sf y = s.sf y := by
  simp only [sf, setSf, slowReg_setSlow_other _ _ h]

theorem sf_setSlow_other {y : Fld} {a : Nat} (v : Word) (h : y.addr ≠ a) : (s.setSlow a v).sf y = s.sf y := by
  simp only [sf, slowReg_setSlow_other _ _ h]

theorem slowReg_setSf_other {x : Fld} {b : Nat} (n : Nat) (h : b ≠ x.addr) : (s.setSf x n).slowReg b = s.slowReg b :=
  slowReg_setSlow_other _ _ h

/-! ### Status registers (R40, R52) -/

theorem reg_raiseAll_other {a b : Nat} (l : List Nat) (h : b ≠ a) : (s.raiseAll a l).reg b = s.reg b :=
  reg_setReg_other _ _ h

theorem f_raiseAll_other {y : Fld} {a : Nat} (l : List Nat) (h : y.addr ≠ a) : (s.raiseAll a l).f y = s.f y := by
  simp only [f, reg_raiseAll_other _ _ h]

theorem fb_raiseAll_other {y : Fld} {a : Nat} (l : List Nat) (h : y.addr ≠ a) : (s.raiseAll a l).fb y = s.fb y := by
  simp only [fb, f_raiseAll_other s l h]

theorem slowReg_slowRaise_other {a b : Nat} (l : List Nat) (h : b ≠ a) : (s.slowRaise a l).slowReg b = s.slowReg b :=
  slowReg_setSlow_other _ _ h

theorem sf_slowRaise_other {y : Fld} {a : Nat} (l : List Nat) (h : y.addr ≠ a) : (s.slowRaise a l).sf y = s.sf y := by
  simp only [sf, slowReg_slowRaise_other _ _ h]

theorem flagSet_setReg_other {a b i : Nat} (v : Word) (h : b ≠ a) : (s.setReg a v).flagSet b i = s.flagSet b i := by
  simp only [flagSet, reg_setReg_other _ _ h]

theorem flagSet_setF_other {x : Fld} {b i : Nat} (n : Nat) (h : b ≠ x.addr) : (s.setF x n).flagSet b i = s.flagSet b i := by
  simp only [flagSet, reg_setF_other _ _ h]

theorem flagSet_raiseAll_other {a b i : Nat} (l : List Nat) (h : b ≠ a) : (s.raiseAll a l).flagSet b i = s.flagSet b i := by
  simp only [flagSet, reg_raiseAll_other _ _ h]

theorem raised_testBit (l : List Nat) (v i : Nat) :
    (l.foldl (fun m b => m ||| 2 ^ b) v).testBit i = (v.testBit i || l.contains i) := by
  induction l generalizing v with
  | nil => simp
  | cons b r ih =>
    rw [List.foldl_cons, ih, Nat.testBit_or, Nat.testBit_two_pow, List.contains_cons]
    by_cases h : b = i
    · subst h; simp
    · have h' : (i == b) = false := by simpa using fun e : i = b => h e.symm
      simp [h, h']

/-- A flag after a set event: it was set, or is one of those raised. -/
theorem flagSet_raiseAll {a i : Nat} (l : List Nat) (h : i < 16) :
    (s.raiseAll a l).flagSet a i = (s.flagSet a i || l.contains i) := by
  have e : (s.raiseAll a l).reg a = BitVec.ofNat 64
      ((if s.cycle.contains a then bits (s.reg a).toNat 31 16 else (bits (s.reg a).toNat 31 16 + 1) % 65536) * 65536 +
        l.foldl (fun m b => m ||| 2 ^ b) (bits (s.reg a).toNat 15 0) % 65536) := by
    simp [raiseAll, reg, setReg]
  have t : ∀ q r : Nat, r < 65536 → (BitVec.ofNat 64 (q * 65536 + r)).toNat.testBit i = r.testBit i := by
    intro q r hr
    rw [BitVec.toNat_ofNat, Nat.testBit_mod_two_pow, Nat.mul_comm, show (65536 : Nat) = 2 ^ 16 from rfl,
      Nat.testBit_two_pow_mul_add _ hr, if_pos h]
    simp; omega
  simp only [flagSet, bit_testBit, e]
  rw [t _ _ (Nat.mod_lt _ (by decide)), show (65536 : Nat) = 2 ^ 16 from rfl, Nat.testBit_mod_two_pow, raised_testBit,
    bits_testBit]
  simp [h]

/-- SEQ after a set event: one more than before, modulo 65,536, where no event of the cycle has counted (R52). -/
theorem seq_raiseAll {a : Nat} (l : List Nat) (h : s.cycle.contains a = false) :
    bits ((s.raiseAll a l).reg a).toNat 31 16 = (bits (s.reg a).toNat 31 16 + 1) % 65536 := by
  have e : (s.raiseAll a l).reg a = BitVec.ofNat 64 ((bits (s.reg a).toNat 31 16 + 1) % 65536 * 65536 +
        l.foldl (fun m b => m ||| 2 ^ b) (bits (s.reg a).toNat 15 0) % 65536) := by
    simp only [raiseAll, h, reg, setReg]
    simp
  rw [e, BitVec.toNat_ofNat]
  unfold bits
  omega

end State
end Sys2Proof.Machine
end

