-- ==== Sys2Proof/Laws/Access.lean ====
section
/-! SUPPORT. What an access that passes does: which register it reaches, and that a write or a read of that register
serves the effect the register has (R44, R48). -/

namespace Sys2Proof.Machine
namespace State

/-! ### A new cycle changes no judgement -/

@[simp] theorem newCycle_judge (s : State) (b : Bool) (r : Req) (a : Nat) (w : Width) (wr : Bool) :
    (s.newCycle b).judge r a w wr = s.judge r a w wr := rfl

@[simp] theorem newCycle_passes (s : State) (b : Bool) (r : Req) (a : Nat) (w : Width) (wr : Bool) :
    (s.newCycle b).passes r a w wr = s.passes r a w wr := rfl

@[simp] theorem newCycle_mute (s : State) (b : Bool) (r : Req) : (s.newCycle b).mute r = s.mute r := rfl

/-! ### Taking a command -/

/-- A command that acts while the part runs. -/
theorem running_up {s : State} (h : s.Up) (f : State → State) : running s f = .next (f s) := by
  unfold running; rw [if_pos (show s.aon.hold = .free from h)]

/-- The same of a command held off by reset. -/
theorem running_held {s : State} (h : ¬ s.Up) (f : State → State) : running s f = .next s := by
  unfold running; rw [if_neg (show ¬ s.aon.hold = .free from h)]

/-! ### What an access reaches -/

/-- An access that is served at a register has reached the one that its address names. -/
theorem judge_reg {s : State} {r : Req} {a : Nat} {w : Width} {wr : Bool} {x : Found} {v : View} {p : Part}
    (h : s.judge r a w wr = .ok (.reg x v p)) :
    findReg a = some x ∧ v = (match bits a 19 18 with | 0 => View.normal | 1 => View.set | 2 => View.clear | _ => View.toggle) ∧
      p = (if x.row.wide = false ∨ w = .w64 then .whole else if a % 8 = 0 then .low else .high) := by
  have hw {t : Target} {need : Nat} {locked : Bool} (ht : ∀ y u q, t ≠ .reg y u q)
      (e : judgeWindow (s.actsAs r) a w need locked t = .ok (.reg x v p)) : False := by
    unfold judgeWindow at e
    repeat' split at e
    all_goals first | (cases e; done) | (injection e with e; exact ht _ _ _ e)
  have hm : ∀ y u q, Target.mem ≠ .reg y u q := by intros; intro e; cases e
  have ho : ∀ y u q, Target.readOnly ≠ .reg y u q := by intros; intro e; cases e
  unfold judge at h
  dsimp only at h
  repeat' split at h
  all_goals first
    | (cases h; done)
    | (exact (hw hm h).elim)
    | (exact (hw ho h).elim)
    | (exact (hw (by split <;> assumption) h).elim)
    | skip
  unfold judgeReg at h
  split at h
  · split at h
    · exact (hw (by split <;> assumption) h).elim
    · cases h
  · rename_i y hy
    dsimp only at h
    generalize hv : (match bits a 19 18 with | 0 => View.normal | 1 => View.set | 2 => View.clear | _ => View.toggle) = u
      at h ⊢
    repeat' split at h
    all_goals first
      | (cases h; done)
      | (injection h with h
         injection h with h1 h2 h3
         subst h1
         refine ⟨hy, ?_, ?_⟩
         · rw [← h2, ← hv] <;> first | rfl | (split <;> simp_all)
         · simp_all)

/-- An access that passes reaches the register of its own address. -/
theorem passes_reg {s : State} {r : Req} {a : Nat} {w : Width} {wr : Bool} {x : Found} (h : s.passes r a w wr = true)
    (hx : findReg a = some x) : s.mute r = false ∧ s.judge r a w wr = .ok (.reg x .normal .whole) := by
  unfold passes at h
  simp only [Bool.and_eq_true, Bool.not_eq_true'] at h
  refine ⟨h.1, ?_⟩
  have h2 := h.2
  split at h2
  · rename_i y hy
    have := (judge_reg hy).1
    rw [hx] at this
    injection this with this
    rw [hy, this]
  · cases h2

/-- An access by a requester that issues accesses is served by its judgement. -/
theorem guarded_of {s : State} {r : Req} {a : Nat} {w : Width} {wr : Bool} {serve : Target → State → State}
    (h : s.mute r = false) :
    s.guarded r a w wr serve =
      match s.judge r a w wr with
      | .ok t => serve t s
      | .denied need => s.deny r a wr need
      | .error cause => s.busError r a cause := by
  unfold guarded
  simp only [mute, Bool.or_eq_false_iff, Bool.and_eq_false_iff, beq_eq_false_iff_ne, Bool.not_eq_false'] at h
  have h1 : ¬ (s.silent r = true) := by rw [h.1]; exact Bool.false_ne_true
  have h2 : ¬ (r.master.val = 16 ∧ s.fb Reg.DBG_CTRL_SBA_EN = false) := by
    rintro ⟨e, k⟩
    rcases h.2 with h | h
    · exact h e
    · rw [h] at k; cases k
  rw [if_neg h1, if_neg h2] <;> rfl

/-- A write that passes serves the register's effect. -/
theorem writeReg_passes {s : State} {r : Req} {a : Nat} {w : Width} {d : Nat} {eff : WriteEffect} {x : Found}
    (h : s.passes r a w true = true) (hx : findReg a = some x) :
    s.writeReg r a w d eff = serveRegWrite eff r x .normal .whole d s := by
  unfold writeReg
  rw [guarded_of (passes_reg h hx).1, (passes_reg h hx).2]

/-- A read that passes serves the register's effect. -/
theorem readReg_passes {s : State} {r : Req} {a : Nat} {w : Width} {eff : ReadEffect} {x : Found}
    (h : s.passes r a w false = true) (hx : findReg a = some x) :
    s.readReg r a w eff = serveRegRead eff r x .whole s := by
  unfold readReg
  rw [guarded_of (passes_reg h hx).1, (passes_reg h hx).2]

/-- A whole write of a 32-bit register runs its effect on the value that the write leaves in its fields. -/
theorem serve_narrow {eff : WriteEffect} {r : Req} {x : Found} {d : Nat} {s : State} (hw : x.row.wide = false) :
    serveRegWrite eff r x .normal .whole d s =
      eff r x (writeFields x.addr false x.row.fields (2 ^ 32 - 1) (d % 2 ^ 32) (s.reg x.addr).toNat) (d % 2 ^ 32) (2 ^ 32 - 1)
        (s.respond r.master.val .done 0 0) := by
  unfold serveRegWrite assemble
  simp only [hw, Bool.false_eq_true, if_false, View.apply]
  rfl

/-- A whole read of a 32-bit register answers what its effect returns. -/
theorem serve_narrow_read {eff : ReadEffect} {r : Req} {x : Found} {s : State} (hw : x.row.wide = false) :
    serveRegRead eff r x .whole s = (eff r x s).2.respond r.master.val .done (BitVec.ofNat 64 (eff r x s).1) 0 := by
  unfold serveRegRead
  simp only [hw, Bool.false_eq_true, if_false]

end State
end Sys2Proof.Machine
end

