-- ==== Sys2Proof/Laws/Found.lean ====
section
/-! SUPPORT. Where the register map finds each register whose write or read is a command of its own: the row of its
table, its block, its instance and its element. -/

namespace Sys2Proof.Machine

/-- A register is found in the row of its block's table that holds its offset, where no row before it does. -/
theorem findReg_of {a k o i j : Nat} {b : BlockRow} {r : RegRow} {e : List Nat × Nat} (h1 : bits a 27 20 = k)
    (h2 : blockAt k = some (b, i)) (h3 : bits a 17 0 = o) (hr : b.rows[j]? = some r)
    (h : ((b.rows.take j).all fun x => (rowAt x o).isNone) = true ∧ rowAt r o = some e) :
    findReg a = some ⟨r, b.first, i, e.1, 0xF000000000 + k * 0x100000 + o - e.2⟩ := by
  obtain ⟨h4, h5⟩ := h
  unfold findReg
  rw [h1, h2, h3]
  dsimp only
  revert h4 hr
  generalize b.rows = l
  induction l generalizing j with
  | nil => simp
  | cons x l ih =>
    cases j with
    | zero => rintro hr -; simp at hr; subst hr; simp [h5]
    | succ j =>
      intro hr h4
      simp at hr h4
      rw [List.findSome?_cons, h4.1]
      exact ih hr (by simpa using h4.2)

namespace Reg

set_option Elab.async false

theorem SYS_SEM_ACQ_found (n : Fin 64) : findReg (SYS_SEM_ACQ n) = some ⟨⟨1024, [(64, 4)], false, .OPEN, false, .const
    0, .sysSemAcq, [⟨31, 31, .ro⟩, ⟨30, 5, .rsv⟩, ⟨4, 0, .ro⟩]⟩, 0, 0, [n.val], SYS_SEM_ACQ n⟩ := by
  have chk : ∀ (n : Fin 64), (((rowsSYS).take 3).all fun x => (rowAt x (1024 + n.val * 4)).isNone) = true ∧ rowAt
      ⟨1024, [(64, 4)], false, .OPEN, false, .const 0, .sysSemAcq, [⟨31, 31, .ro⟩, ⟨30, 5, .rsv⟩, ⟨4, 0, .ro⟩]⟩ (1024 +
      n.val * 4) = some ([n.val], 0) := by
    decide +kernel
  have h := findReg_of (a := SYS_SEM_ACQ n) (k := 0) (o := 1024 + n.val * 4) (i := 0) (j := 3)
    (b := { first := 0x0, count := 1, rows := rowsSYS })
    (r := ⟨1024, [(64, 4)], false, .OPEN, false, .const 0, .sysSemAcq, [⟨31, 31, .ro⟩, ⟨30, 5, .rsv⟩, ⟨4, 0, .ro⟩]⟩)
    (e := ([n.val], 0))
    (by unfold bits SYS_SEM_ACQ; omega) (by decide +kernel) (by unfold bits SYS_SEM_ACQ; omega) (by decide +kernel)
    (chk n)
  refine h.trans ?_
  unfold SYS_SEM_ACQ; congr 2; omega

theorem SYS_SEM_REL_found (n : Fin 64) : findReg (SYS_SEM_REL n) = some ⟨⟨1280, [(64, 4)], false, .OPEN, false, .const
    0, .sysSemRel, [⟨31, 5, .rsv⟩, ⟨4, 0, .wo⟩]⟩, 0, 0, [n.val], SYS_SEM_REL n⟩ := by
  have chk : ∀ (n : Fin 64), (((rowsSYS).take 4).all fun x => (rowAt x (1280 + n.val * 4)).isNone) = true ∧ rowAt
      ⟨1280, [(64, 4)], false, .OPEN, false, .const 0, .sysSemRel, [⟨31, 5, .rsv⟩, ⟨4, 0, .wo⟩]⟩ (1280 + n.val * 4) = some
      ([n.val], 0) := by
    decide +kernel
  have h := findReg_of (a := SYS_SEM_REL n) (k := 0) (o := 1280 + n.val * 4) (i := 0) (j := 4)
    (b := { first := 0x0, count := 1, rows := rowsSYS })
    (r := ⟨1280, [(64, 4)], false, .OPEN, false, .const 0, .sysSemRel, [⟨31, 5, .rsv⟩, ⟨4, 0, .wo⟩]⟩)
    (e := ([n.val], 0))
    (by unfold bits SYS_SEM_REL; omega) (by decide +kernel) (by unfold bits SYS_SEM_REL; omega) (by decide +kernel)
    (chk n)
  refine h.trans ?_
  unfold SYS_SEM_REL; congr 2; omega

theorem SYS_SEM_FORCE_found : findReg (SYS_SEM_FORCE) = some ⟨⟨1792, [], false, .SECURE, false, .const 0,
    .sysSemForce, [⟨31, 6, .rsv⟩, ⟨5, 0, .wo⟩]⟩, 0, 0, [], SYS_SEM_FORCE⟩ := by
  have chk : (((rowsSYS).take 6).all fun x => (rowAt x (1792)).isNone) = true ∧ rowAt ⟨1792, [], false, .SECURE,
      false, .const 0, .sysSemForce, [⟨31, 6, .rsv⟩, ⟨5, 0, .wo⟩]⟩ (1792) = some ([], 0) := by
    decide +kernel
  have h := findReg_of (a := SYS_SEM_FORCE) (k := 0) (o := 1792) (i := 0) (j := 6)
    (b := { first := 0x0, count := 1, rows := rowsSYS })
    (r := ⟨1792, [], false, .SECURE, false, .const 0, .sysSemForce, [⟨31, 6, .rsv⟩, ⟨5, 0, .wo⟩]⟩)
    (e := ([], 0))
    (by unfold bits SYS_SEM_FORCE; omega) (by decide +kernel) (by unfold bits SYS_SEM_FORCE; omega) (by decide +kernel)
    (chk)
  refine h.trans ?_
  unfold SYS_SEM_FORCE; congr 2

theorem CLASS_LOCK_found : findReg (CLASS_LOCK) = some ⟨⟨320, [], false, .SECURE, false, .const 0, .classLock, [⟨31,
    1, .rsv⟩, ⟨0, 0, .wo1⟩]⟩, 200, 0, [], CLASS_LOCK⟩ := by
  have chk : (((rowsMASTERS).take 3).all fun x => (rowAt x (320)).isNone) = true ∧ rowAt ⟨320, [], false, .SECURE,
      false, .const 0, .classLock, [⟨31, 1, .rsv⟩, ⟨0, 0, .wo1⟩]⟩ (320) = some ([], 0) := by
    decide +kernel
  have h := findReg_of (a := CLASS_LOCK) (k := 200) (o := 320) (i := 0) (j := 3)
    (b := { first := 0xC8, count := 1, rows := rowsMASTERS })
    (r := ⟨320, [], false, .SECURE, false, .const 0, .classLock, [⟨31, 1, .rsv⟩, ⟨0, 0, .wo1⟩]⟩)
    (e := ([], 0))
    (by unfold bits CLASS_LOCK; omega) (by decide +kernel) (by unfold bits CLASS_LOCK; omega) (by decide +kernel)
    (chk)
  refine h.trans ?_
  unfold CLASS_LOCK; congr 2

theorem ACCESS_LOG_HEAD_found : findReg (ACCESS_LOG_HEAD) = some ⟨⟨512, [], false, .SECURE, false, .const 0,
    .accessLogHead, [⟨31, 8, .ro⟩, ⟨7, 5, .rsv⟩, ⟨4, 0, .ro⟩]⟩, 200, 0, [], ACCESS_LOG_HEAD⟩ := by
  have chk : (((rowsMASTERS).take 4).all fun x => (rowAt x (512)).isNone) = true ∧ rowAt ⟨512, [], false, .SECURE,
      false, .const 0, .accessLogHead, [⟨31, 8, .ro⟩, ⟨7, 5, .rsv⟩, ⟨4, 0, .ro⟩]⟩ (512) = some ([], 0) := by
    decide +kernel
  have h := findReg_of (a := ACCESS_LOG_HEAD) (k := 200) (o := 512) (i := 0) (j := 4)
    (b := { first := 0xC8, count := 1, rows := rowsMASTERS })
    (r := ⟨512, [], false, .SECURE, false, .const 0, .accessLogHead, [⟨31, 8, .ro⟩, ⟨7, 5, .rsv⟩, ⟨4, 0, .ro⟩]⟩)
    (e := ([], 0))
    (by unfold bits ACCESS_LOG_HEAD; omega) (by decide +kernel) (by unfold bits ACCESS_LOG_HEAD; omega) (by decide +kernel)
    (chk)
  refine h.trans ?_
  unfold ACCESS_LOG_HEAD; congr 2

theorem INGOT_CMD_found : findReg (INGOT_CMD) = some ⟨⟨20, [], false, .PRIV, false, .const 0, .ingotCmd, [⟨31, 5,
    .rsv⟩, ⟨4, 4, .wo⟩, ⟨3, 0, .wo⟩]⟩, 1, 0, [], INGOT_CMD⟩ := by
  have chk : (((rowsINGOT).take 3).all fun x => (rowAt x (20)).isNone) = true ∧ rowAt ⟨20, [], false, .PRIV, false,
      .const 0, .ingotCmd, [⟨31, 5, .rsv⟩, ⟨4, 4, .wo⟩, ⟨3, 0, .wo⟩]⟩ (20) = some ([], 0) := by
    decide +kernel
  have h := findReg_of (a := INGOT_CMD) (k := 1) (o := 20) (i := 0) (j := 3)
    (b := { first := 0x1, count := 1, rows := rowsINGOT })
    (r := ⟨20, [], false, .PRIV, false, .const 0, .ingotCmd, [⟨31, 5, .rsv⟩, ⟨4, 4, .wo⟩, ⟨3, 0, .wo⟩]⟩)
    (e := ([], 0))
    (by unfold bits INGOT_CMD; omega) (by decide +kernel) (by unfold bits INGOT_CMD; omega) (by decide +kernel)
    (chk)
  refine h.trans ?_
  unfold INGOT_CMD; congr 2

theorem TB_INCR_found : findReg (TB_INCR) = some ⟨⟨80, [], true, .SECURE, false, .const 93824992236885, .tbIncr, [⟨63,
    48, .rsv⟩, ⟨47, 0, .rw⟩]⟩, 3, 0, [], TB_INCR⟩ := by
  have chk : (((rowsTIMEBASE).take 11).all fun x => (rowAt x (80)).isNone) = true ∧ rowAt ⟨80, [], true, .SECURE,
      false, .const 93824992236885, .tbIncr, [⟨63, 48, .rsv⟩, ⟨47, 0, .rw⟩]⟩ (80) = some ([], 0) := by
    decide +kernel
  have h := findReg_of (a := TB_INCR) (k := 3) (o := 80) (i := 0) (j := 11)
    (b := { first := 0x3, count := 1, rows := rowsTIMEBASE })
    (r := ⟨80, [], true, .SECURE, false, .const 93824992236885, .tbIncr, [⟨63, 48, .rsv⟩, ⟨47, 0, .rw⟩]⟩)
    (e := ([], 0))
    (by unfold bits TB_INCR; omega) (by decide +kernel) (by unfold bits TB_INCR; omega) (by decide +kernel)
    (chk)
  refine h.trans ?_
  unfold TB_INCR; congr 2

theorem TB_STEP_found : findReg (TB_STEP) = some ⟨⟨88, [], true, .SECURE, false, .const 0, .tbStep, [⟨63, 0, .wo⟩]⟩,
    3, 0, [], TB_STEP⟩ := by
  have chk : (((rowsTIMEBASE).take 12).all fun x => (rowAt x (88)).isNone) = true ∧ rowAt ⟨88, [], true, .SECURE,
      false, .const 0, .tbStep, [⟨63, 0, .wo⟩]⟩ (88) = some ([], 0) := by
    decide +kernel
  have h := findReg_of (a := TB_STEP) (k := 3) (o := 88) (i := 0) (j := 12)
    (b := { first := 0x3, count := 1, rows := rowsTIMEBASE })
    (r := ⟨88, [], true, .SECURE, false, .const 0, .tbStep, [⟨63, 0, .wo⟩]⟩)
    (e := ([], 0))
    (by unfold bits TB_STEP; omega) (by decide +kernel) (by unfold bits TB_STEP; omega) (by decide +kernel)
    (chk)
  refine h.trans ?_
  unfold TB_STEP; congr 2

theorem TB_SET_NS_found : findReg (TB_SET_NS) = some ⟨⟨104, [], false, .SECURE, false, .const 0, .tbSetNs, [⟨31, 30,
    .rsv⟩, ⟨29, 0, .wo⟩]⟩, 3, 0, [], TB_SET_NS⟩ := by
  have chk : (((rowsTIMEBASE).take 14).all fun x => (rowAt x (104)).isNone) = true ∧ rowAt ⟨104, [], false, .SECURE,
      false, .const 0, .tbSetNs, [⟨31, 30, .rsv⟩, ⟨29, 0, .wo⟩]⟩ (104) = some ([], 0) := by
    decide +kernel
  have h := findReg_of (a := TB_SET_NS) (k := 3) (o := 104) (i := 0) (j := 14)
    (b := { first := 0x3, count := 1, rows := rowsTIMEBASE })
    (r := ⟨104, [], false, .SECURE, false, .const 0, .tbSetNs, [⟨31, 30, .rsv⟩, ⟨29, 0, .wo⟩]⟩)
    (e := ([], 0))
    (by unfold bits TB_SET_NS; omega) (by decide +kernel) (by unfold bits TB_SET_NS; omega) (by decide +kernel)
    (chk)
  refine h.trans ?_
  unfold TB_SET_NS; congr 2

theorem TB_CAPTURE_found : findReg (TB_CAPTURE) = some ⟨⟨112, [], false, .OPEN, false, .const 0, .tbCapture, [⟨31, 0,
    .wo⟩]⟩, 3, 0, [], TB_CAPTURE⟩ := by
  have chk : (((rowsTIMEBASE).take 15).all fun x => (rowAt x (112)).isNone) = true ∧ rowAt ⟨112, [], false, .OPEN,
      false, .const 0, .tbCapture, [⟨31, 0, .wo⟩]⟩ (112) = some ([], 0) := by
    decide +kernel
  have h := findReg_of (a := TB_CAPTURE) (k := 3) (o := 112) (i := 0) (j := 15)
    (b := { first := 0x3, count := 1, rows := rowsTIMEBASE })
    (r := ⟨112, [], false, .OPEN, false, .const 0, .tbCapture, [⟨31, 0, .wo⟩]⟩)
    (e := ([], 0))
    (by unfold bits TB_CAPTURE; omega) (by decide +kernel) (by unfold bits TB_CAPTURE; omega) (by decide +kernel)
    (chk)
  refine h.trans ?_
  unfold TB_CAPTURE; congr 2

theorem TB_REF_APPLY_found : findReg (TB_REF_APPLY) = some ⟨⟨176, [], true, .PRIV, false, .const 0, .tbRefApply, [⟨63,
    60, .ro⟩, ⟨59, 48, .rsv⟩, ⟨47, 0, .rw⟩]⟩, 3, 0, [], TB_REF_APPLY⟩ := by
  have chk : (((rowsTIMEBASE).take 22).all fun x => (rowAt x (176)).isNone) = true ∧ rowAt ⟨176, [], true, .PRIV,
      false, .const 0, .tbRefApply, [⟨63, 60, .ro⟩, ⟨59, 48, .rsv⟩, ⟨47, 0, .rw⟩]⟩ (176) = some ([], 0) := by
    decide +kernel
  have h := findReg_of (a := TB_REF_APPLY) (k := 3) (o := 176) (i := 0) (j := 22)
    (b := { first := 0x3, count := 1, rows := rowsTIMEBASE })
    (r := ⟨176, [], true, .PRIV, false, .const 0, .tbRefApply, [⟨63, 60, .ro⟩, ⟨59, 48, .rsv⟩, ⟨47, 0, .rw⟩]⟩)
    (e := ([], 0))
    (by unfold bits TB_REF_APPLY; omega) (by decide +kernel) (by unfold bits TB_REF_APPLY; omega) (by decide +kernel)
    (chk)
  refine h.trans ?_
  unfold TB_REF_APPLY; congr 2

theorem CUE_ARM_found : findReg (CUE_ARM) = some ⟨⟨16, [], false, .PRIV, false, .const 0, .cueArm, [⟨31, 31, .wo⟩,
    ⟨30, 13, .rsv⟩, ⟨12, 0, .wo⟩]⟩, 4, 0, [], CUE_ARM⟩ := by
  have chk : (((rowsCUE).take 2).all fun x => (rowAt x (16)).isNone) = true ∧ rowAt ⟨16, [], false, .PRIV, false,
      .const 0, .cueArm, [⟨31, 31, .wo⟩, ⟨30, 13, .rsv⟩, ⟨12, 0, .wo⟩]⟩ (16) = some ([], 0) := by
    decide +kernel
  have h := findReg_of (a := CUE_ARM) (k := 4) (o := 16) (i := 0) (j := 2)
    (b := { first := 0x4, count := 1, rows := rowsCUE })
    (r := ⟨16, [], false, .PRIV, false, .const 0, .cueArm, [⟨31, 31, .wo⟩, ⟨30, 13, .rsv⟩, ⟨12, 0, .wo⟩]⟩)
    (e := ([], 0))
    (by unfold bits CUE_ARM; omega) (by decide +kernel) (by unfold bits CUE_ARM; omega) (by decide +kernel)
    (chk)
  refine h.trans ?_
  unfold CUE_ARM; congr 2

theorem CUE_COMMIT_found : findReg (CUE_COMMIT) = some ⟨⟨64, [], true, .PRIV, false, .const 0, .cueCommit, [⟨63, 56,
    .rsv⟩, ⟨55, 0, .wo⟩]⟩, 4, 0, [], CUE_COMMIT⟩ := by
  have chk : (((rowsCUE).take 6).all fun x => (rowAt x (64)).isNone) = true ∧ rowAt ⟨64, [], true, .PRIV, false,
      .const 0, .cueCommit, [⟨63, 56, .rsv⟩, ⟨55, 0, .wo⟩]⟩ (64) = some ([], 0) := by
    decide +kernel
  have h := findReg_of (a := CUE_COMMIT) (k := 4) (o := 64) (i := 0) (j := 6)
    (b := { first := 0x4, count := 1, rows := rowsCUE })
    (r := ⟨64, [], true, .PRIV, false, .const 0, .cueCommit, [⟨63, 56, .rsv⟩, ⟨55, 0, .wo⟩]⟩)
    (e := ([], 0))
    (by unfold bits CUE_COMMIT; omega) (by decide +kernel) (by unfold bits CUE_COMMIT; omega) (by decide +kernel)
    (chk)
  refine h.trans ?_
  unfold CUE_COMMIT; congr 2

theorem CRU_RESTART_found : findReg (CRU_RESTART) = some ⟨⟨28, [], false, .PRIV, false, .const 0, .cruRestart, [⟨31,
    0, .wo⟩]⟩, 128, 0, [], CRU_RESTART⟩ := by
  have chk : (((rowsCRUCIBLE).take 5).all fun x => (rowAt x (28)).isNone) = true ∧ rowAt ⟨28, [], false, .PRIV, false,
      .const 0, .cruRestart, [⟨31, 0, .wo⟩]⟩ (28) = some ([], 0) := by
    decide +kernel
  have h := findReg_of (a := CRU_RESTART) (k := 128) (o := 28) (i := 0) (j := 5)
    (b := { first := 0x80, count := 1, rows := rowsCRUCIBLE })
    (r := ⟨28, [], false, .PRIV, false, .const 0, .cruRestart, [⟨31, 0, .wo⟩]⟩)
    (e := ([], 0))
    (by unfold bits CRU_RESTART; omega) (by decide +kernel) (by unfold bits CRU_RESTART; omega) (by decide +kernel)
    (chk)
  refine h.trans ?_
  unfold CRU_RESTART; congr 2

theorem CHAIN_TAKEOVER_found : findReg (CHAIN_TAKEOVER) = some ⟨⟨24, [], false, .PRIV, false, .const 0,
    .chainTakeover, [⟨31, 16, .rsv⟩, ⟨15, 0, .wo⟩]⟩, 136, 0, [], CHAIN_TAKEOVER⟩ := by
  have chk : (((rowsCHAIN).take 4).all fun x => (rowAt x (24)).isNone) = true ∧ rowAt ⟨24, [], false, .PRIV, false,
      .const 0, .chainTakeover, [⟨31, 16, .rsv⟩, ⟨15, 0, .wo⟩]⟩ (24) = some ([], 0) := by
    decide +kernel
  have h := findReg_of (a := CHAIN_TAKEOVER) (k := 136) (o := 24) (i := 0) (j := 4)
    (b := { first := 0x88, count := 1, rows := rowsCHAIN })
    (r := ⟨24, [], false, .PRIV, false, .const 0, .chainTakeover, [⟨31, 16, .rsv⟩, ⟨15, 0, .wo⟩]⟩)
    (e := ([], 0))
    (by unfold bits CHAIN_TAKEOVER; omega) (by decide +kernel) (by unfold bits CHAIN_TAKEOVER; omega) (by decide +kernel)
    (chk)
  refine h.trans ?_
  unfold CHAIN_TAKEOVER; congr 2

theorem PLIC_CLAIM_K_found : findReg (PLIC_CLAIM_K) = some ⟨⟨12548, [], false, .SECURE, false, .const 0, .plicClaimK,
    [⟨31, 8, .rsv⟩, ⟨7, 0, .rw⟩]⟩, 224, 0, [], PLIC_CLAIM_K⟩ := by
  have chk : (((rowsAPPCX0 ++ rowsAPPCX1).take 14).all fun x => (rowAt x (12548)).isNone) = true ∧ rowAt ⟨12548, [],
      false, .SECURE, false, .const 0, .plicClaimK, [⟨31, 8, .rsv⟩, ⟨7, 0, .rw⟩]⟩ (12548) = some ([], 0) := by
    decide +kernel
  have h := findReg_of (a := PLIC_CLAIM_K) (k := 224) (o := 12548) (i := 0) (j := 14)
    (b := { first := 0xE0, count := 1, rows := rowsAPPCX0 ++ rowsAPPCX1 })
    (r := ⟨12548, [], false, .SECURE, false, .const 0, .plicClaimK, [⟨31, 8, .rsv⟩, ⟨7, 0, .rw⟩]⟩)
    (e := ([], 0))
    (by unfold bits PLIC_CLAIM_K; omega) (by decide +kernel) (by unfold bits PLIC_CLAIM_K; omega) (by decide +kernel)
    (chk)
  refine h.trans ?_
  unfold PLIC_CLAIM_K; congr 2

theorem APPCX_CORE_CTRL_found : findReg (APPCX_CORE_CTRL) = some ⟨⟨16, [], false, .SECURE, false, .const 0,
    .appcxCoreCtrl, [⟨31, 8, .rsv⟩, ⟨7, 0, .rw⟩]⟩, 224, 0, [], APPCX_CORE_CTRL⟩ := by
  have chk : (((rowsAPPCX0 ++ rowsAPPCX1).take 2).all fun x => (rowAt x (16)).isNone) = true ∧ rowAt ⟨16, [], false,
      .SECURE, false, .const 0, .appcxCoreCtrl, [⟨31, 8, .rsv⟩, ⟨7, 0, .rw⟩]⟩ (16) = some ([], 0) := by
    decide +kernel
  have h := findReg_of (a := APPCX_CORE_CTRL) (k := 224) (o := 16) (i := 0) (j := 2)
    (b := { first := 0xE0, count := 1, rows := rowsAPPCX0 ++ rowsAPPCX1 })
    (r := ⟨16, [], false, .SECURE, false, .const 0, .appcxCoreCtrl, [⟨31, 8, .rsv⟩, ⟨7, 0, .rw⟩]⟩)
    (e := ([], 0))
    (by unfold bits APPCX_CORE_CTRL; omega) (by decide +kernel) (by unfold bits APPCX_CORE_CTRL; omega) (by decide +kernel)
    (chk)
  refine h.trans ?_
  unfold APPCX_CORE_CTRL; congr 2

theorem DBG_LOCK_found : findReg (DBG_LOCK) = some ⟨⟨20, [], false, .SECURE, false, .const 0, .dbgLock, [⟨31, 1,
    .rsv⟩, ⟨0, 0, .wo1⟩]⟩, 240, 0, [], DBG_LOCK⟩ := by
  have chk : (((rowsDEBUG).take 3).all fun x => (rowAt x (20)).isNone) = true ∧ rowAt ⟨20, [], false, .SECURE, false,
      .const 0, .dbgLock, [⟨31, 1, .rsv⟩, ⟨0, 0, .wo1⟩]⟩ (20) = some ([], 0) := by
    decide +kernel
  have h := findReg_of (a := DBG_LOCK) (k := 240) (o := 20) (i := 0) (j := 3)
    (b := { first := 0xF0, count := 1, rows := rowsDEBUG })
    (r := ⟨20, [], false, .SECURE, false, .const 0, .dbgLock, [⟨31, 1, .rsv⟩, ⟨0, 0, .wo1⟩]⟩)
    (e := ([], 0))
    (by unfold bits DBG_LOCK; omega) (by decide +kernel) (by unfold bits DBG_LOCK; omega) (by decide +kernel)
    (chk)
  refine h.trans ?_
  unfold DBG_LOCK; congr 2

theorem MB_BIND_LOCK_found : findReg (MB_BIND_LOCK) = some ⟨⟨16, [], false, .SECURE, false, .const 0, .mbBindLock,
    [⟨31, 1, .rsv⟩, ⟨0, 0, .wo1⟩]⟩, 192, 0, [], MB_BIND_LOCK⟩ := by
  have chk : (((rowsMAILBOX).take 2).all fun x => (rowAt x (16)).isNone) = true ∧ rowAt ⟨16, [], false, .SECURE,
      false, .const 0, .mbBindLock, [⟨31, 1, .rsv⟩, ⟨0, 0, .wo1⟩]⟩ (16) = some ([], 0) := by
    decide +kernel
  have h := findReg_of (a := MB_BIND_LOCK) (k := 192) (o := 16) (i := 0) (j := 2)
    (b := { first := 0xC0, count := 1, rows := rowsMAILBOX })
    (r := ⟨16, [], false, .SECURE, false, .const 0, .mbBindLock, [⟨31, 1, .rsv⟩, ⟨0, 0, .wo1⟩]⟩)
    (e := ([], 0))
    (by unfold bits MB_BIND_LOCK; omega) (by decide +kernel) (by unfold bits MB_BIND_LOCK; omega) (by decide +kernel)
    (chk)
  refine h.trans ?_
  unfold MB_BIND_LOCK; congr 2

theorem MDIO_CMD_found : findReg (MDIO_CMD) = some ⟨⟨34820, [], false, .PRIV, false, .const 0, .mdioCmd, [⟨31, 30,
    .wo⟩, ⟨29, 29, .wo⟩, ⟨28, 24, .wo⟩, ⟨23, 19, .wo⟩, ⟨18, 16, .rsv⟩, ⟨15, 0, .wo⟩]⟩, 224, 0, [], MDIO_CMD⟩ := by
  have chk : (((rowsAPPCX0 ++ rowsAPPCX1).take 31).all fun x => (rowAt x (34820)).isNone) = true ∧ rowAt ⟨34820, [],
      false, .PRIV, false, .const 0, .mdioCmd, [⟨31, 30, .wo⟩, ⟨29, 29, .wo⟩, ⟨28, 24, .wo⟩, ⟨23, 19, .wo⟩, ⟨18, 16, .rsv⟩,
      ⟨15, 0, .wo⟩]⟩ (34820) = some ([], 0) := by
    decide +kernel
  have h := findReg_of (a := MDIO_CMD) (k := 224) (o := 34820) (i := 0) (j := 31)
    (b := { first := 0xE0, count := 1, rows := rowsAPPCX0 ++ rowsAPPCX1 })
    (r := ⟨34820, [], false, .PRIV, false, .const 0, .mdioCmd, [⟨31, 30, .wo⟩, ⟨29, 29, .wo⟩, ⟨28, 24, .wo⟩, ⟨23, 19,
      .wo⟩, ⟨18, 16, .rsv⟩, ⟨15, 0, .wo⟩]⟩)
    (e := ([], 0))
    (by unfold bits MDIO_CMD; omega) (by decide +kernel) (by unfold bits MDIO_CMD; omega) (by decide +kernel)
    (chk)
  refine h.trans ?_
  unfold MDIO_CMD; congr 2

theorem UART_TX_found : findReg (UART_TX) = some ⟨⟨36864, [], false, .PRIV, false, .const 0, .uartTx, [⟨31, 8, .rsv⟩,
    ⟨7, 0, .wo⟩]⟩, 224, 0, [], UART_TX⟩ := by
  have chk : (((rowsAPPCX0 ++ rowsAPPCX1).take 33).all fun x => (rowAt x (36864)).isNone) = true ∧ rowAt ⟨36864, [],
      false, .PRIV, false, .const 0, .uartTx, [⟨31, 8, .rsv⟩, ⟨7, 0, .wo⟩]⟩ (36864) = some ([], 0) := by
    decide +kernel
  have h := findReg_of (a := UART_TX) (k := 224) (o := 36864) (i := 0) (j := 33)
    (b := { first := 0xE0, count := 1, rows := rowsAPPCX0 ++ rowsAPPCX1 })
    (r := ⟨36864, [], false, .PRIV, false, .const 0, .uartTx, [⟨31, 8, .rsv⟩, ⟨7, 0, .wo⟩]⟩)
    (e := ([], 0))
    (by unfold bits UART_TX; omega) (by decide +kernel) (by unfold bits UART_TX; omega) (by decide +kernel)
    (chk)
  refine h.trans ?_
  unfold UART_TX; congr 2

theorem UART_RX_found : findReg (UART_RX) = some ⟨⟨36868, [], false, .PRIV, false, .const 0, .uartRx, [⟨31, 31, .ro⟩,
    ⟨30, 8, .rsv⟩, ⟨7, 0, .ro⟩]⟩, 224, 0, [], UART_RX⟩ := by
  have chk : (((rowsAPPCX0 ++ rowsAPPCX1).take 34).all fun x => (rowAt x (36868)).isNone) = true ∧ rowAt ⟨36868, [],
      false, .PRIV, false, .const 0, .uartRx, [⟨31, 31, .ro⟩, ⟨30, 8, .rsv⟩, ⟨7, 0, .ro⟩]⟩ (36868) = some ([], 0) := by
    decide +kernel
  have h := findReg_of (a := UART_RX) (k := 224) (o := 36868) (i := 0) (j := 34)
    (b := { first := 0xE0, count := 1, rows := rowsAPPCX0 ++ rowsAPPCX1 })
    (r := ⟨36868, [], false, .PRIV, false, .const 0, .uartRx, [⟨31, 31, .ro⟩, ⟨30, 8, .rsv⟩, ⟨7, 0, .ro⟩]⟩)
    (e := ([], 0))
    (by unfold bits UART_RX; omega) (by decide +kernel) (by unfold bits UART_RX; omega) (by decide +kernel)
    (chk)
  refine h.trans ?_
  unfold UART_RX; congr 2

theorem GPIO_INT_ACK_found : findReg (GPIO_INT_ACK) = some ⟨⟨37152, [], false, .PRIV, false, .const 0, .gpioIntAck,
    [⟨31, 0, .wo⟩]⟩, 224, 0, [], GPIO_INT_ACK⟩ := by
  have chk : (((rowsAPPCX0 ++ rowsAPPCX1).take 46).all fun x => (rowAt x (37152)).isNone) = true ∧ rowAt ⟨37152, [],
      false, .PRIV, false, .const 0, .gpioIntAck, [⟨31, 0, .wo⟩]⟩ (37152) = some ([], 0) := by
    decide +kernel
  have h := findReg_of (a := GPIO_INT_ACK) (k := 224) (o := 37152) (i := 0) (j := 46)
    (b := { first := 0xE0, count := 1, rows := rowsAPPCX0 ++ rowsAPPCX1 })
    (r := ⟨37152, [], false, .PRIV, false, .const 0, .gpioIntAck, [⟨31, 0, .wo⟩]⟩)
    (e := ([], 0))
    (by unfold bits GPIO_INT_ACK; omega) (by decide +kernel) (by unfold bits GPIO_INT_ACK; omega) (by decide +kernel)
    (chk)
  refine h.trans ?_
  unfold GPIO_INT_ACK; congr 2

theorem SPI_CMD_found : findReg (SPI_CMD) = some ⟨⟨37896, [], false, .PRIV, false, .const 0, .spiCmd, [⟨31, 31, .wo⟩,
    ⟨30, 30, .wo⟩, ⟨29, 29, .wo⟩, ⟨28, 28, .rsv⟩, ⟨27, 26, .wo⟩, ⟨25, 21, .wo⟩, ⟨20, 17, .rsv⟩, ⟨16, 8, .wo⟩, ⟨7, 0,
    .wo⟩]⟩, 224, 0, [], SPI_CMD⟩ := by
  have chk : (((rowsAPPCX0 ++ rowsAPPCX1).take 54).all fun x => (rowAt x (37896)).isNone) = true ∧ rowAt ⟨37896, [],
      false, .PRIV, false, .const 0, .spiCmd, [⟨31, 31, .wo⟩, ⟨30, 30, .wo⟩, ⟨29, 29, .wo⟩, ⟨28, 28, .rsv⟩, ⟨27, 26, .wo⟩,
      ⟨25, 21, .wo⟩, ⟨20, 17, .rsv⟩, ⟨16, 8, .wo⟩, ⟨7, 0, .wo⟩]⟩ (37896) = some ([], 0) := by
    decide +kernel
  have h := findReg_of (a := SPI_CMD) (k := 224) (o := 37896) (i := 0) (j := 54)
    (b := { first := 0xE0, count := 1, rows := rowsAPPCX0 ++ rowsAPPCX1 })
    (r := ⟨37896, [], false, .PRIV, false, .const 0, .spiCmd, [⟨31, 31, .wo⟩, ⟨30, 30, .wo⟩, ⟨29, 29, .wo⟩, ⟨28, 28,
      .rsv⟩, ⟨27, 26, .wo⟩, ⟨25, 21, .wo⟩, ⟨20, 17, .rsv⟩, ⟨16, 8, .wo⟩, ⟨7, 0, .wo⟩]⟩)
    (e := ([], 0))
    (by unfold bits SPI_CMD; omega) (by decide +kernel) (by unfold bits SPI_CMD; omega) (by decide +kernel)
    (chk)
  refine h.trans ?_
  unfold SPI_CMD; congr 2

theorem NVM_KEY_found : findReg (NVM_KEY) = some ⟨⟨16, [], false, .SECURE, false, .const 0, .nvmKey, [⟨31, 16, .rsv⟩,
    ⟨15, 0, .wo⟩]⟩, 2, 0, [], NVM_KEY⟩ := by
  have chk : (((rowsNVM).take 3).all fun x => (rowAt x (16)).isNone) = true ∧ rowAt ⟨16, [], false, .SECURE, false,
      .const 0, .nvmKey, [⟨31, 16, .rsv⟩, ⟨15, 0, .wo⟩]⟩ (16) = some ([], 0) := by
    decide +kernel
  have h := findReg_of (a := NVM_KEY) (k := 2) (o := 16) (i := 0) (j := 3)
    (b := { first := 0x2, count := 1, rows := rowsNVM })
    (r := ⟨16, [], false, .SECURE, false, .const 0, .nvmKey, [⟨31, 16, .rsv⟩, ⟨15, 0, .wo⟩]⟩)
    (e := ([], 0))
    (by unfold bits NVM_KEY; omega) (by decide +kernel) (by unfold bits NVM_KEY; omega) (by decide +kernel)
    (chk)
  refine h.trans ?_
  unfold NVM_KEY; congr 2

theorem NVM_STORE_found : findReg (NVM_STORE) = some ⟨⟨20, [], false, .SECURE, false, .const 0, .nvmStore, [⟨31, 8,
    .rsv⟩, ⟨7, 0, .wo⟩]⟩, 2, 0, [], NVM_STORE⟩ := by
  have chk : (((rowsNVM).take 4).all fun x => (rowAt x (20)).isNone) = true ∧ rowAt ⟨20, [], false, .SECURE, false,
      .const 0, .nvmStore, [⟨31, 8, .rsv⟩, ⟨7, 0, .wo⟩]⟩ (20) = some ([], 0) := by
    decide +kernel
  have h := findReg_of (a := NVM_STORE) (k := 2) (o := 20) (i := 0) (j := 4)
    (b := { first := 0x2, count := 1, rows := rowsNVM })
    (r := ⟨20, [], false, .SECURE, false, .const 0, .nvmStore, [⟨31, 8, .rsv⟩, ⟨7, 0, .wo⟩]⟩)
    (e := ([], 0))
    (by unfold bits NVM_STORE; omega) (by decide +kernel) (by unfold bits NVM_STORE; omega) (by decide +kernel)
    (chk)
  refine h.trans ?_
  unfold NVM_STORE; congr 2

theorem NVM_READ_SEL_found : findReg (NVM_READ_SEL) = some ⟨⟨28, [], false, .SECURE, false, .const 0, .nvmReadSel,
    [⟨31, 7, .rsv⟩, ⟨6, 0, .rw⟩]⟩, 2, 0, [], NVM_READ_SEL⟩ := by
  have chk : (((rowsNVM).take 6).all fun x => (rowAt x (28)).isNone) = true ∧ rowAt ⟨28, [], false, .SECURE, false,
      .const 0, .nvmReadSel, [⟨31, 7, .rsv⟩, ⟨6, 0, .rw⟩]⟩ (28) = some ([], 0) := by
    decide +kernel
  have h := findReg_of (a := NVM_READ_SEL) (k := 2) (o := 28) (i := 0) (j := 6)
    (b := { first := 0x2, count := 1, rows := rowsNVM })
    (r := ⟨28, [], false, .SECURE, false, .const 0, .nvmReadSel, [⟨31, 7, .rsv⟩, ⟨6, 0, .rw⟩]⟩)
    (e := ([], 0))
    (by unfold bits NVM_READ_SEL; omega) (by decide +kernel) (by unfold bits NVM_READ_SEL; omega) (by decide +kernel)
    (chk)
  refine h.trans ?_
  unfold NVM_READ_SEL; congr 2

theorem RESET_CTRL_found : findReg (RESET_CTRL) = some ⟨⟨44, [], false, .SECURE, false, .const 0, .resetCtrl, [⟨31,
    16, .wo⟩, ⟨15, 2, .rsv⟩, ⟨1, 0, .wo⟩]⟩, 2, 0, [], RESET_CTRL⟩ := by
  have chk : (((rowsNVM).take 10).all fun x => (rowAt x (44)).isNone) = true ∧ rowAt ⟨44, [], false, .SECURE, false,
      .const 0, .resetCtrl, [⟨31, 16, .wo⟩, ⟨15, 2, .rsv⟩, ⟨1, 0, .wo⟩]⟩ (44) = some ([], 0) := by
    decide +kernel
  have h := findReg_of (a := RESET_CTRL) (k := 2) (o := 44) (i := 0) (j := 10)
    (b := { first := 0x2, count := 1, rows := rowsNVM })
    (r := ⟨44, [], false, .SECURE, false, .const 0, .resetCtrl, [⟨31, 16, .wo⟩, ⟨15, 2, .rsv⟩, ⟨1, 0, .wo⟩]⟩)
    (e := ([], 0))
    (by unfold bits RESET_CTRL; omega) (by decide +kernel) (by unfold bits RESET_CTRL; omega) (by decide +kernel)
    (chk)
  refine h.trans ?_
  unfold RESET_CTRL; congr 2

theorem KWDT_KICK_found : findReg (KWDT_KICK) = some ⟨⟨52, [], false, .SECURE, false, .const 0, .kwdtKick, [⟨31, 0,
    .wo⟩]⟩, 2, 0, [], KWDT_KICK⟩ := by
  have chk : (((rowsNVM).take 12).all fun x => (rowAt x (52)).isNone) = true ∧ rowAt ⟨52, [], false, .SECURE, false,
      .const 0, .kwdtKick, [⟨31, 0, .wo⟩]⟩ (52) = some ([], 0) := by
    decide +kernel
  have h := findReg_of (a := KWDT_KICK) (k := 2) (o := 52) (i := 0) (j := 12)
    (b := { first := 0x2, count := 1, rows := rowsNVM })
    (r := ⟨52, [], false, .SECURE, false, .const 0, .kwdtKick, [⟨31, 0, .wo⟩]⟩)
    (e := ([], 0))
    (by unfold bits KWDT_KICK; omega) (by decide +kernel) (by unfold bits KWDT_KICK; omega) (by decide +kernel)
    (chk)
  refine h.trans ?_
  unfold KWDT_KICK; congr 2

theorem PWR_SNAP_found : findReg (PWR_SNAP) = some ⟨⟨384, [], false, .PRIV, false, .const 0, .pwrSnap, [⟨31, 0,
    .wo⟩]⟩, 208, 0, [], PWR_SNAP⟩ := by
  have chk : (((rowsPOWER).take 16).all fun x => (rowAt x (384)).isNone) = true ∧ rowAt ⟨384, [], false, .PRIV, false,
      .const 0, .pwrSnap, [⟨31, 0, .wo⟩]⟩ (384) = some ([], 0) := by
    decide +kernel
  have h := findReg_of (a := PWR_SNAP) (k := 208) (o := 384) (i := 0) (j := 16)
    (b := { first := 0xD0, count := 1, rows := rowsPOWER })
    (r := ⟨384, [], false, .PRIV, false, .const 0, .pwrSnap, [⟨31, 0, .wo⟩]⟩)
    (e := ([], 0))
    (by unfold bits PWR_SNAP; omega) (by decide +kernel) (by unfold bits PWR_SNAP; omega) (by decide +kernel)
    (chk)
  refine h.trans ?_
  unfold PWR_SNAP; congr 2

theorem TB_SYNCOUT_CFG_found (n : Fin 4) : findReg (TB_SYNCOUT_CFG n) = some ⟨⟨208, [(4, 4)], false, .PRIV, false,
    .const 268763232, .tbSyncoutCfg, [⟨31, 31, .rw⟩, ⟨30, 30, .rw⟩, ⟨29, 29, .rw⟩, ⟨28, 24, .rw⟩, ⟨23, 16, .rw⟩, ⟨15, 0,
    .rw⟩]⟩, 3, 0, [n.val], TB_SYNCOUT_CFG n⟩ := by
  have chk : ∀ (n : Fin 4), (((rowsTIMEBASE).take 26).all fun x => (rowAt x (208 + n.val * 4)).isNone) = true ∧ rowAt
      ⟨208, [(4, 4)], false, .PRIV, false, .const 268763232, .tbSyncoutCfg, [⟨31, 31, .rw⟩, ⟨30, 30, .rw⟩, ⟨29, 29, .rw⟩,
      ⟨28, 24, .rw⟩, ⟨23, 16, .rw⟩, ⟨15, 0, .rw⟩]⟩ (208 + n.val * 4) = some ([n.val], 0) := by
    decide +kernel
  have h := findReg_of (a := TB_SYNCOUT_CFG n) (k := 3) (o := 208 + n.val * 4) (i := 0) (j := 26)
    (b := { first := 0x3, count := 1, rows := rowsTIMEBASE })
    (r := ⟨208, [(4, 4)], false, .PRIV, false, .const 268763232, .tbSyncoutCfg, [⟨31, 31, .rw⟩, ⟨30, 30, .rw⟩, ⟨29,
      29, .rw⟩, ⟨28, 24, .rw⟩, ⟨23, 16, .rw⟩, ⟨15, 0, .rw⟩]⟩)
    (e := ([n.val], 0))
    (by unfold bits TB_SYNCOUT_CFG; omega) (by decide +kernel) (by unfold bits TB_SYNCOUT_CFG; omega) (by decide +kernel)
    (chk n)
  refine h.trans ?_
  unfold TB_SYNCOUT_CFG; congr 2; omega

theorem block10 (k : Nat) (h : k < 32) : blockAt (16 + k) = some ({ first := 0x10, count := 32, rows := rowsLE }, k)
    := by
  revert k; decide +kernel

theorem LE_TOUCH_found (n : Fin 32) : findReg (LE_TOUCH n) = some ⟨⟨64, [], false, .OPEN, false, .const 0, .leTouch,
    [⟨31, 0, .wo⟩]⟩, 16, n.val, [], LE_TOUCH n⟩ := by
  have chk : (((rowsLE).take 10).all fun x => (rowAt x (64)).isNone) = true ∧ rowAt ⟨64, [], false, .OPEN, false,
      .const 0, .leTouch, [⟨31, 0, .wo⟩]⟩ (64) = some ([], 0) := by
    decide +kernel
  have h := findReg_of (a := LE_TOUCH n) (k := 16 + n.val) (o := 64) (i := n.val) (j := 10)
    (b := { first := 0x10, count := 32, rows := rowsLE })
    (r := ⟨64, [], false, .OPEN, false, .const 0, .leTouch, [⟨31, 0, .wo⟩]⟩)
    (e := ([], 0))
    (by unfold bits LE_TOUCH; omega) (block10 _ (by omega)) (by unfold bits LE_TOUCH; omega) (by decide +kernel)
    (chk)
  refine h.trans ?_
  unfold LE_TOUCH; congr 2; omega

theorem LE_TOL_MIN_RESTART_found (n : Fin 32) : findReg (LE_TOL_MIN_RESTART n) = some ⟨⟨80, [], false, .PRIV, false,
    .const 0, .leTolMinRestart, [⟨31, 0, .wo⟩]⟩, 16, n.val, [], LE_TOL_MIN_RESTART n⟩ := by
  have chk : (((rowsLE).take 14).all fun x => (rowAt x (80)).isNone) = true ∧ rowAt ⟨80, [], false, .PRIV, false,
      .const 0, .leTolMinRestart, [⟨31, 0, .wo⟩]⟩ (80) = some ([], 0) := by
    decide +kernel
  have h := findReg_of (a := LE_TOL_MIN_RESTART n) (k := 16 + n.val) (o := 80) (i := n.val) (j := 14)
    (b := { first := 0x10, count := 32, rows := rowsLE })
    (r := ⟨80, [], false, .PRIV, false, .const 0, .leTolMinRestart, [⟨31, 0, .wo⟩]⟩)
    (e := ([], 0))
    (by unfold bits LE_TOL_MIN_RESTART; omega) (block10 _ (by omega)) (by unfold bits LE_TOL_MIN_RESTART; omega) (by decide +kernel)
    (chk)
  refine h.trans ?_
  unfold LE_TOL_MIN_RESTART; congr 2; omega

theorem LE_DECODE_LOAD_found (n : Fin 32) : findReg (LE_DECODE_LOAD n) = some ⟨⟨208, [], false, .PRIV, false, .const
    0, .leDecodeLoad, [⟨31, 31, .ro⟩, ⟨30, 29, .ro⟩, ⟨28, 17, .rsv⟩, ⟨16, 14, .wo⟩, ⟨13, 0, .wo⟩]⟩, 16, n.val, [],
    LE_DECODE_LOAD n⟩ := by
  have chk : (((rowsLE).take 25).all fun x => (rowAt x (208)).isNone) = true ∧ rowAt ⟨208, [], false, .PRIV, false,
      .const 0, .leDecodeLoad, [⟨31, 31, .ro⟩, ⟨30, 29, .ro⟩, ⟨28, 17, .rsv⟩, ⟨16, 14, .wo⟩, ⟨13, 0, .wo⟩]⟩ (208) = some
      ([], 0) := by
    decide +kernel
  have h := findReg_of (a := LE_DECODE_LOAD n) (k := 16 + n.val) (o := 208) (i := n.val) (j := 25)
    (b := { first := 0x10, count := 32, rows := rowsLE })
    (r := ⟨208, [], false, .PRIV, false, .const 0, .leDecodeLoad, [⟨31, 31, .ro⟩, ⟨30, 29, .ro⟩, ⟨28, 17, .rsv⟩, ⟨16,
      14, .wo⟩, ⟨13, 0, .wo⟩]⟩)
    (e := ([], 0))
    (by unfold bits LE_DECODE_LOAD; omega) (block10 _ (by omega)) (by unfold bits LE_DECODE_LOAD; omega) (by decide +kernel)
    (chk)
  refine h.trans ?_
  unfold LE_DECODE_LOAD; congr 2; omega

theorem block30 (k : Nat) (h : k < 8) : blockAt (48 + k) = some ({ first := 0x30, count := 8, rows := rowsBC }, k) :=
    by
  revert k; decide +kernel

theorem BC_ENCODE_LOAD_found (n : Fin 8) : findReg (BC_ENCODE_LOAD n) = some ⟨⟨2576, [], false, .PRIV, false, .const
    0, .bcEncodeLoad, [⟨31, 31, .ro⟩, ⟨30, 29, .ro⟩, ⟨28, 18, .rsv⟩, ⟨17, 17, .wo⟩, ⟨16, 14, .wo⟩, ⟨13, 0, .wo⟩]⟩, 48,
    n.val, [], BC_ENCODE_LOAD n⟩ := by
  have chk : (((rowsBC).take 23).all fun x => (rowAt x (2576)).isNone) = true ∧ rowAt ⟨2576, [], false, .PRIV, false,
      .const 0, .bcEncodeLoad, [⟨31, 31, .ro⟩, ⟨30, 29, .ro⟩, ⟨28, 18, .rsv⟩, ⟨17, 17, .wo⟩, ⟨16, 14, .wo⟩, ⟨13, 0, .wo⟩]⟩
      (2576) = some ([], 0) := by
    decide +kernel
  have h := findReg_of (a := BC_ENCODE_LOAD n) (k := 48 + n.val) (o := 2576) (i := n.val) (j := 23)
    (b := { first := 0x30, count := 8, rows := rowsBC })
    (r := ⟨2576, [], false, .PRIV, false, .const 0, .bcEncodeLoad, [⟨31, 31, .ro⟩, ⟨30, 29, .ro⟩, ⟨28, 18, .rsv⟩, ⟨17,
      17, .wo⟩, ⟨16, 14, .wo⟩, ⟨13, 0, .wo⟩]⟩)
    (e := ([], 0))
    (by unfold bits BC_ENCODE_LOAD; omega) (block30 _ (by omega)) (by unfold bits BC_ENCODE_LOAD; omega) (by decide +kernel)
    (chk)
  refine h.trans ?_
  unfold BC_ENCODE_LOAD; congr 2; omega

theorem block40 (k : Nat) (h : k < 16) : blockAt (64 + k) = some ({ first := 0x40, count := 16, rows := rowsORS }, k)
    := by
  revert k; decide +kernel

theorem ORS_UNDER_RESTART_found (m : Fin 16) : findReg (ORS_UNDER_RESTART m) = some ⟨⟨104, [], false, .PRIV, false,
    .const 0, .orsUnderRestart, [⟨31, 0, .wo⟩]⟩, 64, m.val, [], ORS_UNDER_RESTART m⟩ := by
  have chk : (((rowsORS).take 15).all fun x => (rowAt x (104)).isNone) = true ∧ rowAt ⟨104, [], false, .PRIV, false,
      .const 0, .orsUnderRestart, [⟨31, 0, .wo⟩]⟩ (104) = some ([], 0) := by
    decide +kernel
  have h := findReg_of (a := ORS_UNDER_RESTART m) (k := 64 + m.val) (o := 104) (i := m.val) (j := 15)
    (b := { first := 0x40, count := 16, rows := rowsORS })
    (r := ⟨104, [], false, .PRIV, false, .const 0, .orsUnderRestart, [⟨31, 0, .wo⟩]⟩)
    (e := ([], 0))
    (by unfold bits ORS_UNDER_RESTART; omega) (block40 _ (by omega)) (by unfold bits ORS_UNDER_RESTART; omega) (by decide +kernel)
    (chk)
  refine h.trans ?_
  unfold ORS_UNDER_RESTART; congr 2; omega

theorem block60 (k : Nat) (h : k < 32) : blockAt (96 + k) = some ({ first := 0x60, count := 32, rows := rowsPQ0 ++
    rowsPQ1 }, k) := by
  revert k; decide +kernel

theorem BTL_CTRL_SEND_found (p : Fin 128) : findReg (BTL_CTRL_SEND p) = some ⟨⟨4132, [(4, 512)], false, .PRIV, false,
    .const 0, .btlCtrlSend, [⟨31, 21, .rsv⟩, ⟨20, 16, .wo⟩, ⟨15, 0, .wo⟩]⟩, 96, p.val / 4, [p.val % 4], BTL_CTRL_SEND p⟩
    := by
  have chk : ∀ (l : Fin 4), (((rowsPQ0 ++ rowsPQ1).take 12).all fun x => (rowAt x (4132 + l.val * 512)).isNone) = true
      ∧ rowAt ⟨4132, [(4, 512)], false, .PRIV, false, .const 0, .btlCtrlSend, [⟨31, 21, .rsv⟩, ⟨20, 16, .wo⟩, ⟨15, 0, .wo⟩]⟩
      (4132 + l.val * 512) = some ([l.val], 0) := by
    decide +kernel
  have h := findReg_of (a := BTL_CTRL_SEND p) (k := 96 + p.val / 4) (o := 4132 + p.val % 4 * 512) (i := p.val / 4) (j := 12)
    (b := { first := 0x60, count := 32, rows := rowsPQ0 ++ rowsPQ1 })
    (r := ⟨4132, [(4, 512)], false, .PRIV, false, .const 0, .btlCtrlSend, [⟨31, 21, .rsv⟩, ⟨20, 16, .wo⟩, ⟨15, 0,
      .wo⟩]⟩)
    (e := ([p.val % 4], 0))
    (by unfold bits BTL_CTRL_SEND; omega) (block60 _ (by omega)) (by unfold bits BTL_CTRL_SEND; omega) (by decide +kernel)
    (chk ⟨p.val % 4, Nat.mod_lt _ (by decide)⟩)
  refine h.trans ?_
  unfold BTL_CTRL_SEND; congr 2; omega

theorem BTL_ECHO_REQ_found (p : Fin 128) : findReg (BTL_ECHO_REQ p) = some ⟨⟨4144, [(4, 512)], false, .PRIV, false,
    .const 0, .btlEchoReq, [⟨31, 16, .rsv⟩, ⟨15, 0, .wo⟩]⟩, 96, p.val / 4, [p.val % 4], BTL_ECHO_REQ p⟩ := by
  have chk : ∀ (l : Fin 4), (((rowsPQ0 ++ rowsPQ1).take 15).all fun x => (rowAt x (4144 + l.val * 512)).isNone) = true
      ∧ rowAt ⟨4144, [(4, 512)], false, .PRIV, false, .const 0, .btlEchoReq, [⟨31, 16, .rsv⟩, ⟨15, 0, .wo⟩]⟩ (4144 + l.val *
      512) = some ([l.val], 0) := by
    decide +kernel
  have h := findReg_of (a := BTL_ECHO_REQ p) (k := 96 + p.val / 4) (o := 4144 + p.val % 4 * 512) (i := p.val / 4) (j := 15)
    (b := { first := 0x60, count := 32, rows := rowsPQ0 ++ rowsPQ1 })
    (r := ⟨4144, [(4, 512)], false, .PRIV, false, .const 0, .btlEchoReq, [⟨31, 16, .rsv⟩, ⟨15, 0, .wo⟩]⟩)
    (e := ([p.val % 4], 0))
    (by unfold bits BTL_ECHO_REQ; omega) (block60 _ (by omega)) (by unfold bits BTL_ECHO_REQ; omega) (by decide +kernel)
    (chk ⟨p.val % 4, Nat.mod_lt _ (by decide)⟩)
  refine h.trans ?_
  unfold BTL_ECHO_REQ; congr 2; omega

theorem BTL_TEST_found (p : Fin 128) : findReg (BTL_TEST p) = some ⟨⟨4272, [(4, 512)], false, .PRIV, false, .const 0,
    .btlTest, [⟨31, 24, .wo⟩, ⟨23, 16, .wo⟩, ⟨15, 0, .wo⟩]⟩, 96, p.val / 4, [p.val % 4], BTL_TEST p⟩ := by
  have chk : ∀ (l : Fin 4), (((rowsPQ0 ++ rowsPQ1).take 23).all fun x => (rowAt x (4272 + l.val * 512)).isNone) = true
      ∧ rowAt ⟨4272, [(4, 512)], false, .PRIV, false, .const 0, .btlTest, [⟨31, 24, .wo⟩, ⟨23, 16, .wo⟩, ⟨15, 0, .wo⟩]⟩
      (4272 + l.val * 512) = some ([l.val], 0) := by
    decide +kernel
  have h := findReg_of (a := BTL_TEST p) (k := 96 + p.val / 4) (o := 4272 + p.val % 4 * 512) (i := p.val / 4) (j := 23)
    (b := { first := 0x60, count := 32, rows := rowsPQ0 ++ rowsPQ1 })
    (r := ⟨4272, [(4, 512)], false, .PRIV, false, .const 0, .btlTest, [⟨31, 24, .wo⟩, ⟨23, 16, .wo⟩, ⟨15, 0, .wo⟩]⟩)
    (e := ([p.val % 4], 0))
    (by unfold bits BTL_TEST; omega) (block60 _ (by omega)) (by unfold bits BTL_TEST; omega) (by decide +kernel)
    (chk ⟨p.val % 4, Nat.mod_lt _ (by decide)⟩)
  refine h.trans ?_
  unfold BTL_TEST; congr 2; omega

theorem GATE_SWITCH_found (p : Fin 128) : findReg (GATE_SWITCH p) = some ⟨⟨8708, [(4, 1024)], false, .PRIV, false,
    .const 0, .gateSwitch, [⟨31, 1, .rsv⟩, ⟨0, 0, .wo⟩]⟩, 96, p.val / 4, [p.val % 4], GATE_SWITCH p⟩ := by
  have chk : ∀ (l : Fin 4), (((rowsPQ0 ++ rowsPQ1).take 46).all fun x => (rowAt x (8708 + l.val * 1024)).isNone) =
      true ∧ rowAt ⟨8708, [(4, 1024)], false, .PRIV, false, .const 0, .gateSwitch, [⟨31, 1, .rsv⟩, ⟨0, 0, .wo⟩]⟩ (8708 +
      l.val * 1024) = some ([l.val], 0) := by
    decide +kernel
  have h := findReg_of (a := GATE_SWITCH p) (k := 96 + p.val / 4) (o := 8708 + p.val % 4 * 1024) (i := p.val / 4) (j := 46)
    (b := { first := 0x60, count := 32, rows := rowsPQ0 ++ rowsPQ1 })
    (r := ⟨8708, [(4, 1024)], false, .PRIV, false, .const 0, .gateSwitch, [⟨31, 1, .rsv⟩, ⟨0, 0, .wo⟩]⟩)
    (e := ([p.val % 4], 0))
    (by unfold bits GATE_SWITCH; omega) (block60 _ (by omega)) (by unfold bits GATE_SWITCH; omega) (by decide +kernel)
    (chk ⟨p.val % 4, Nat.mod_lt _ (by decide)⟩)
  refine h.trans ?_
  unfold GATE_SWITCH; congr 2; omega

theorem GATE_CTRL_found (p : Fin 128) : findReg (GATE_CTRL p) = some ⟨⟨8704, [(4, 1024)], false, .PRIV, false, .const
    0, .gateCtrl, [⟨31, 31, .rw⟩, ⟨30, 2, .rsv⟩, ⟨1, 0, .rw⟩]⟩, 96, p.val / 4, [p.val % 4], GATE_CTRL p⟩ := by
  have chk : ∀ (l : Fin 4), (((rowsPQ0 ++ rowsPQ1).take 45).all fun x => (rowAt x (8704 + l.val * 1024)).isNone) =
      true ∧ rowAt ⟨8704, [(4, 1024)], false, .PRIV, false, .const 0, .gateCtrl, [⟨31, 31, .rw⟩, ⟨30, 2, .rsv⟩, ⟨1, 0,
      .rw⟩]⟩ (8704 + l.val * 1024) = some ([l.val], 0) := by
    decide +kernel
  have h := findReg_of (a := GATE_CTRL p) (k := 96 + p.val / 4) (o := 8704 + p.val % 4 * 1024) (i := p.val / 4) (j := 45)
    (b := { first := 0x60, count := 32, rows := rowsPQ0 ++ rowsPQ1 })
    (r := ⟨8704, [(4, 1024)], false, .PRIV, false, .const 0, .gateCtrl, [⟨31, 31, .rw⟩, ⟨30, 2, .rsv⟩, ⟨1, 0, .rw⟩]⟩)
    (e := ([p.val % 4], 0))
    (by unfold bits GATE_CTRL; omega) (block60 _ (by omega)) (by unfold bits GATE_CTRL; omega) (by decide +kernel)
    (chk ⟨p.val % 4, Nat.mod_lt _ (by decide)⟩)
  refine h.trans ?_
  unfold GATE_CTRL; congr 2; omega

theorem HTX_PROD_found (p : Fin 128) : findReg (HTX_PROD p) = some ⟨⟨8772, [(4, 1024)], false, .PRIV, false, .const 0,
    .htxProd, [⟨31, 0, .rw⟩]⟩, 96, p.val / 4, [p.val % 4], HTX_PROD p⟩ := by
  have chk : ∀ (l : Fin 4), (((rowsPQ0 ++ rowsPQ1).take 58).all fun x => (rowAt x (8772 + l.val * 1024)).isNone) =
      true ∧ rowAt ⟨8772, [(4, 1024)], false, .PRIV, false, .const 0, .htxProd, [⟨31, 0, .rw⟩]⟩ (8772 + l.val * 1024) = some
      ([l.val], 0) := by
    decide +kernel
  have h := findReg_of (a := HTX_PROD p) (k := 96 + p.val / 4) (o := 8772 + p.val % 4 * 1024) (i := p.val / 4) (j := 58)
    (b := { first := 0x60, count := 32, rows := rowsPQ0 ++ rowsPQ1 })
    (r := ⟨8772, [(4, 1024)], false, .PRIV, false, .const 0, .htxProd, [⟨31, 0, .rw⟩]⟩)
    (e := ([p.val % 4], 0))
    (by unfold bits HTX_PROD; omega) (block60 _ (by omega)) (by unfold bits HTX_PROD; omega) (by decide +kernel)
    (chk ⟨p.val % 4, Nat.mod_lt _ (by decide)⟩)
  refine h.trans ?_
  unfold HTX_PROD; congr 2; omega

theorem HTX_CFG_found (p : Fin 128) : findReg (HTX_CFG p) = some ⟨⟨8768, [(4, 1024)], false, .PRIV, false, .const 16,
    .htxCfg, [⟨31, 31, .rw⟩, ⟨30, 11, .rsv⟩, ⟨10, 0, .rw⟩]⟩, 96, p.val / 4, [p.val % 4], HTX_CFG p⟩ := by
  have chk : ∀ (l : Fin 4), (((rowsPQ0 ++ rowsPQ1).take 57).all fun x => (rowAt x (8768 + l.val * 1024)).isNone) =
      true ∧ rowAt ⟨8768, [(4, 1024)], false, .PRIV, false, .const 16, .htxCfg, [⟨31, 31, .rw⟩, ⟨30, 11, .rsv⟩, ⟨10, 0,
      .rw⟩]⟩ (8768 + l.val * 1024) = some ([l.val], 0) := by
    decide +kernel
  have h := findReg_of (a := HTX_CFG p) (k := 96 + p.val / 4) (o := 8768 + p.val % 4 * 1024) (i := p.val / 4) (j := 57)
    (b := { first := 0x60, count := 32, rows := rowsPQ0 ++ rowsPQ1 })
    (r := ⟨8768, [(4, 1024)], false, .PRIV, false, .const 16, .htxCfg, [⟨31, 31, .rw⟩, ⟨30, 11, .rsv⟩, ⟨10, 0, .rw⟩]⟩)
    (e := ([p.val % 4], 0))
    (by unfold bits HTX_CFG; omega) (block60 _ (by omega)) (by unfold bits HTX_CFG; omega) (by decide +kernel)
    (chk ⟨p.val % 4, Nat.mod_lt _ (by decide)⟩)
  refine h.trans ?_
  unfold HTX_CFG; congr 2; omega

theorem HRX_CFG_found (p : Fin 128) : findReg (HRX_CFG p) = some ⟨⟨8744, [(4, 1024)], false, .PRIV, false, .const 16,
    .hrxCfg, [⟨31, 31, .rw⟩, ⟨30, 11, .rsv⟩, ⟨10, 0, .rw⟩]⟩, 96, p.val / 4, [p.val % 4], HRX_CFG p⟩ := by
  have chk : ∀ (l : Fin 4), (((rowsPQ0 ++ rowsPQ1).take 52).all fun x => (rowAt x (8744 + l.val * 1024)).isNone) =
      true ∧ rowAt ⟨8744, [(4, 1024)], false, .PRIV, false, .const 16, .hrxCfg, [⟨31, 31, .rw⟩, ⟨30, 11, .rsv⟩, ⟨10, 0,
      .rw⟩]⟩ (8744 + l.val * 1024) = some ([l.val], 0) := by
    decide +kernel
  have h := findReg_of (a := HRX_CFG p) (k := 96 + p.val / 4) (o := 8744 + p.val % 4 * 1024) (i := p.val / 4) (j := 52)
    (b := { first := 0x60, count := 32, rows := rowsPQ0 ++ rowsPQ1 })
    (r := ⟨8744, [(4, 1024)], false, .PRIV, false, .const 16, .hrxCfg, [⟨31, 31, .rw⟩, ⟨30, 11, .rsv⟩, ⟨10, 0, .rw⟩]⟩)
    (e := ([p.val % 4], 0))
    (by unfold bits HRX_CFG; omega) (block60 _ (by omega)) (by unfold bits HRX_CFG; omega) (by decide +kernel)
    (chk ⟨p.val % 4, Nat.mod_lt _ (by decide)⟩)
  refine h.trans ?_
  unfold HRX_CFG; congr 2; omega

theorem PORT_SAMPLE_RESTART_found (p : Fin 128) : findReg (PORT_SAMPLE_RESTART p) = some ⟨⟨8644, [(4, 1024)], false,
    .PRIV, false, .const 0, .portSampleRestart, [⟨31, 0, .wo⟩]⟩, 96, p.val / 4, [p.val % 4], PORT_SAMPLE_RESTART p⟩ := by
  have chk : ∀ (l : Fin 4), (((rowsPQ0 ++ rowsPQ1).take 40).all fun x => (rowAt x (8644 + l.val * 1024)).isNone) =
      true ∧ rowAt ⟨8644, [(4, 1024)], false, .PRIV, false, .const 0, .portSampleRestart, [⟨31, 0, .wo⟩]⟩ (8644 + l.val *
      1024) = some ([l.val], 0) := by
    decide +kernel
  have h := findReg_of (a := PORT_SAMPLE_RESTART p) (k := 96 + p.val / 4) (o := 8644 + p.val % 4 * 1024) (i := p.val / 4) (j := 40)
    (b := { first := 0x60, count := 32, rows := rowsPQ0 ++ rowsPQ1 })
    (r := ⟨8644, [(4, 1024)], false, .PRIV, false, .const 0, .portSampleRestart, [⟨31, 0, .wo⟩]⟩)
    (e := ([p.val % 4], 0))
    (by unfold bits PORT_SAMPLE_RESTART; omega) (block60 _ (by omega)) (by unfold bits PORT_SAMPLE_RESTART; omega) (by decide +kernel)
    (chk ⟨p.val % 4, Nat.mod_lt _ (by decide)⟩)
  refine h.trans ?_
  unfold PORT_SAMPLE_RESTART; congr 2; omega

theorem PQ_LANE_CFG_found (p : Fin 128) : findReg (PQ_LANE_CFG (p.val / 4) (p.val % 4)) = some ⟨⟨32, [(4, 4)], false,
    .PRIV, false, .const 537145352, .pqLaneCfg, [⟨31, 31, .rw⟩, ⟨30, 30, .rw⟩, ⟨29, 29, .rw⟩, ⟨28, 28, .rw⟩, ⟨27, 22,
    .rsv⟩, ⟨21, 16, .rw⟩, ⟨15, 14, .rsv⟩, ⟨13, 8, .rw⟩, ⟨7, 6, .rsv⟩, ⟨5, 0, .rw⟩]⟩, 96, p.val / 4, [p.val % 4],
    PQ_LANE_CFG (p.val / 4) (p.val % 4)⟩ := by
  have chk : ∀ (l : Fin 4), (((rowsPQ0 ++ rowsPQ1).take 4).all fun x => (rowAt x (32 + l.val * 4)).isNone) = true ∧
      rowAt ⟨32, [(4, 4)], false, .PRIV, false, .const 537145352, .pqLaneCfg, [⟨31, 31, .rw⟩, ⟨30, 30, .rw⟩, ⟨29, 29, .rw⟩,
      ⟨28, 28, .rw⟩, ⟨27, 22, .rsv⟩, ⟨21, 16, .rw⟩, ⟨15, 14, .rsv⟩, ⟨13, 8, .rw⟩, ⟨7, 6, .rsv⟩, ⟨5, 0, .rw⟩]⟩ (32 + l.val *
      4) = some ([l.val], 0) := by
    decide +kernel
  have h := findReg_of (a := PQ_LANE_CFG (p.val / 4) (p.val % 4)) (k := 96 + p.val / 4) (o := 32 + p.val % 4 * 4) (i := p.val / 4) (j := 4)
    (b := { first := 0x60, count := 32, rows := rowsPQ0 ++ rowsPQ1 })
    (r := ⟨32, [(4, 4)], false, .PRIV, false, .const 537145352, .pqLaneCfg, [⟨31, 31, .rw⟩, ⟨30, 30, .rw⟩, ⟨29, 29,
      .rw⟩, ⟨28, 28, .rw⟩, ⟨27, 22, .rsv⟩, ⟨21, 16, .rw⟩, ⟨15, 14, .rsv⟩, ⟨13, 8, .rw⟩, ⟨7, 6, .rsv⟩, ⟨5, 0, .rw⟩]⟩)
    (e := ([p.val % 4], 0))
    (by unfold bits PQ_LANE_CFG; omega) (block60 _ (by omega)) (by unfold bits PQ_LANE_CFG; omega) (by decide +kernel)
    (chk ⟨p.val % 4, Nat.mod_lt _ (by decide)⟩)
  refine h.trans ?_
  unfold PQ_LANE_CFG; congr 2; omega

theorem QUEUE_SHAPE_RATE_found (p : Fin 128) (q : Fin 8) : findReg (QUEUE_SHAPE_RATE p q) = some ⟨⟨8256, [(4, 1024),
    (8, 32)], false, .PRIV, false, .const 0, .queueShapeRate, [⟨31, 0, .rw⟩]⟩, 96, p.val / 4, [p.val % 4, q.val],
    QUEUE_SHAPE_RATE p q⟩ := by
  have chk : ∀ (l : Fin 4) (q : Fin 8), (((rowsPQ0 ++ rowsPQ1).take 31).all fun x => (rowAt x (8256 + l.val * 1024 +
      q.val * 32)).isNone) = true ∧ rowAt ⟨8256, [(4, 1024), (8, 32)], false, .PRIV, false, .const 0, .queueShapeRate, [⟨31,
      0, .rw⟩]⟩ (8256 + l.val * 1024 + q.val * 32) = some ([l.val, q.val], 0) := by
    decide +kernel
  have h := findReg_of (a := QUEUE_SHAPE_RATE p q) (k := 96 + p.val / 4) (o := 8256 + p.val % 4 * 1024 + q.val * 32) (i := p.val / 4) (j := 31)
    (b := { first := 0x60, count := 32, rows := rowsPQ0 ++ rowsPQ1 })
    (r := ⟨8256, [(4, 1024), (8, 32)], false, .PRIV, false, .const 0, .queueShapeRate, [⟨31, 0, .rw⟩]⟩)
    (e := ([p.val % 4, q.val], 0))
    (by unfold bits QUEUE_SHAPE_RATE; omega) (block60 _ (by omega)) (by unfold bits QUEUE_SHAPE_RATE; omega) (by decide +kernel)
    (chk ⟨p.val % 4, Nat.mod_lt _ (by decide)⟩ q)
  refine h.trans ?_
  unfold QUEUE_SHAPE_RATE; congr 2; omega

theorem QUEUE_SHAPE_BURST_found (p : Fin 128) (q : Fin 8) : findReg (QUEUE_SHAPE_BURST p q) = some ⟨⟨8260, [(4, 1024),
    (8, 32)], false, .PRIV, false, .const 0, .queueShapeBurst, [⟨31, 31, .rw⟩, ⟨30, 24, .rsv⟩, ⟨23, 0, .rw⟩]⟩, 96, p.val /
    4, [p.val % 4, q.val], QUEUE_SHAPE_BURST p q⟩ := by
  have chk : ∀ (l : Fin 4) (q : Fin 8), (((rowsPQ0 ++ rowsPQ1).take 32).all fun x => (rowAt x (8260 + l.val * 1024 +
      q.val * 32)).isNone) = true ∧ rowAt ⟨8260, [(4, 1024), (8, 32)], false, .PRIV, false, .const 0, .queueShapeBurst,
      [⟨31, 31, .rw⟩, ⟨30, 24, .rsv⟩, ⟨23, 0, .rw⟩]⟩ (8260 + l.val * 1024 + q.val * 32) = some ([l.val, q.val], 0) := by
    decide +kernel
  have h := findReg_of (a := QUEUE_SHAPE_BURST p q) (k := 96 + p.val / 4) (o := 8260 + p.val % 4 * 1024 + q.val * 32) (i := p.val / 4) (j := 32)
    (b := { first := 0x60, count := 32, rows := rowsPQ0 ++ rowsPQ1 })
    (r := ⟨8260, [(4, 1024), (8, 32)], false, .PRIV, false, .const 0, .queueShapeBurst, [⟨31, 31, .rw⟩, ⟨30, 24,
      .rsv⟩, ⟨23, 0, .rw⟩]⟩)
    (e := ([p.val % 4, q.val], 0))
    (by unfold bits QUEUE_SHAPE_BURST; omega) (block60 _ (by omega)) (by unfold bits QUEUE_SHAPE_BURST; omega) (by decide +kernel)
    (chk ⟨p.val % 4, Nat.mod_lt _ (by decide)⟩ q)
  refine h.trans ?_
  unfold QUEUE_SHAPE_BURST; congr 2; omega

theorem QUEUE_QUANTUM_found (p : Fin 128) (q : Fin 8) : findReg (QUEUE_QUANTUM p q) = some ⟨⟨8268, [(4, 1024), (8,
    32)], false, .PRIV, false, .const 9216, .queueQuantum, [⟨31, 16, .rsv⟩, ⟨15, 0, .rw⟩]⟩, 96, p.val / 4, [p.val % 4,
    q.val], QUEUE_QUANTUM p q⟩ := by
  have chk : ∀ (l : Fin 4) (q : Fin 8), (((rowsPQ0 ++ rowsPQ1).take 34).all fun x => (rowAt x (8268 + l.val * 1024 +
      q.val * 32)).isNone) = true ∧ rowAt ⟨8268, [(4, 1024), (8, 32)], false, .PRIV, false, .const 9216, .queueQuantum,
      [⟨31, 16, .rsv⟩, ⟨15, 0, .rw⟩]⟩ (8268 + l.val * 1024 + q.val * 32) = some ([l.val, q.val], 0) := by
    decide +kernel
  have h := findReg_of (a := QUEUE_QUANTUM p q) (k := 96 + p.val / 4) (o := 8268 + p.val % 4 * 1024 + q.val * 32) (i := p.val / 4) (j := 34)
    (b := { first := 0x60, count := 32, rows := rowsPQ0 ++ rowsPQ1 })
    (r := ⟨8268, [(4, 1024), (8, 32)], false, .PRIV, false, .const 9216, .queueQuantum, [⟨31, 16, .rsv⟩, ⟨15, 0,
      .rw⟩]⟩)
    (e := ([p.val % 4, q.val], 0))
    (by unfold bits QUEUE_QUANTUM; omega) (block60 _ (by omega)) (by unfold bits QUEUE_QUANTUM; omega) (by decide +kernel)
    (chk ⟨p.val % 4, Nat.mod_lt _ (by decide)⟩ q)
  refine h.trans ?_
  unfold QUEUE_QUANTUM; congr 2; omega

theorem FI_CFG_found (p : Fin 128) (dir : Fin 2) : findReg (FI_CFG p dir) = some ⟨⟨8832, [(4, 1024), (2, 16)], false,
    .PRIV, false, .const 33554432, .fiCfg, [⟨31, 31, .rw⟩, ⟨30, 28, .rw⟩, ⟨27, 25, .rw⟩, ⟨24, 24, .rw⟩, ⟨23, 0, .rsv⟩]⟩,
    96, p.val / 4, [p.val % 4, dir.val], FI_CFG p dir⟩ := by
  have chk : ∀ (l : Fin 4) (dir : Fin 2), (((rowsPQ0 ++ rowsPQ1).take 61).all fun x => (rowAt x (8832 + l.val * 1024 +
      dir.val * 16)).isNone) = true ∧ rowAt ⟨8832, [(4, 1024), (2, 16)], false, .PRIV, false, .const 33554432, .fiCfg, [⟨31,
      31, .rw⟩, ⟨30, 28, .rw⟩, ⟨27, 25, .rw⟩, ⟨24, 24, .rw⟩, ⟨23, 0, .rsv⟩]⟩ (8832 + l.val * 1024 + dir.val * 16) = some
      ([l.val, dir.val], 0) := by
    decide +kernel
  have h := findReg_of (a := FI_CFG p dir) (k := 96 + p.val / 4) (o := 8832 + p.val % 4 * 1024 + dir.val * 16) (i := p.val / 4) (j := 61)
    (b := { first := 0x60, count := 32, rows := rowsPQ0 ++ rowsPQ1 })
    (r := ⟨8832, [(4, 1024), (2, 16)], false, .PRIV, false, .const 33554432, .fiCfg, [⟨31, 31, .rw⟩, ⟨30, 28, .rw⟩,
      ⟨27, 25, .rw⟩, ⟨24, 24, .rw⟩, ⟨23, 0, .rsv⟩]⟩)
    (e := ([p.val % 4, dir.val], 0))
    (by unfold bits FI_CFG; omega) (block60 _ (by omega)) (by unfold bits FI_CFG; omega) (by decide +kernel)
    (chk ⟨p.val % 4, Nat.mod_lt _ (by decide)⟩ dir)
  refine h.trans ?_
  unfold FI_CFG; congr 2; omega

theorem POL_CBS_found (f : Fin 512) : findReg (POL_CBS f) = some ⟨⟨131084, [(512, 32)], false, .PRIV, false, .const 0,
    .polCbs, [⟨31, 31, .rw⟩, ⟨30, 24, .rsv⟩, ⟨23, 0, .rw⟩]⟩, 129, 0, [f.val], POL_CBS f⟩ := by
  have chk : ∀ (f : Fin 512), (((rowsINGEST).take 27).all fun x => (rowAt x (131084 + f.val * 32)).isNone) = true ∧
      rowAt ⟨131084, [(512, 32)], false, .PRIV, false, .const 0, .polCbs, [⟨31, 31, .rw⟩, ⟨30, 24, .rsv⟩, ⟨23, 0, .rw⟩]⟩
      (131084 + f.val * 32) = some ([f.val], 0) := by
    decide +kernel
  have h := findReg_of (a := POL_CBS f) (k := 129) (o := 131084 + f.val * 32) (i := 0) (j := 27)
    (b := { first := 0x81, count := 1, rows := rowsINGEST })
    (r := ⟨131084, [(512, 32)], false, .PRIV, false, .const 0, .polCbs, [⟨31, 31, .rw⟩, ⟨30, 24, .rsv⟩, ⟨23, 0,
      .rw⟩]⟩)
    (e := ([f.val], 0))
    (by unfold bits POL_CBS; omega) (by decide +kernel) (by unfold bits POL_CBS; omega) (by decide +kernel)
    (chk f)
  refine h.trans ?_
  unfold POL_CBS; congr 2; omega

theorem ING_FLOW_CTRL_found (f : Fin 512) : findReg (ING_FLOW_CTRL f) = some ⟨⟨65536, [(512, 128)], false, .PRIV,
    false, .const 539230208, .ingFlowCtrl, [⟨31, 31, .rw⟩, ⟨30, 30, .rw⟩, ⟨29, 29, .rw⟩, ⟨28, 28, .rw⟩, ⟨27, 27, .rw⟩,
    ⟨26, 25, .rw⟩, ⟨24, 24, .rsv⟩, ⟨23, 20, .rw⟩, ⟨19, 16, .rw⟩, ⟨15, 9, .rsv⟩, ⟨8, 0, .rw⟩]⟩, 129, 0, [f.val],
    ING_FLOW_CTRL f⟩ := by
  have chk : ∀ (f : Fin 512), (((rowsINGEST).take 6).all fun x => (rowAt x (65536 + f.val * 128)).isNone) = true ∧
      rowAt ⟨65536, [(512, 128)], false, .PRIV, false, .const 539230208, .ingFlowCtrl, [⟨31, 31, .rw⟩, ⟨30, 30, .rw⟩, ⟨29,
      29, .rw⟩, ⟨28, 28, .rw⟩, ⟨27, 27, .rw⟩, ⟨26, 25, .rw⟩, ⟨24, 24, .rsv⟩, ⟨23, 20, .rw⟩, ⟨19, 16, .rw⟩, ⟨15, 9, .rsv⟩,
      ⟨8, 0, .rw⟩]⟩ (65536 + f.val * 128) = some ([f.val], 0) := by
    decide +kernel
  have h := findReg_of (a := ING_FLOW_CTRL f) (k := 129) (o := 65536 + f.val * 128) (i := 0) (j := 6)
    (b := { first := 0x81, count := 1, rows := rowsINGEST })
    (r := ⟨65536, [(512, 128)], false, .PRIV, false, .const 539230208, .ingFlowCtrl, [⟨31, 31, .rw⟩, ⟨30, 30, .rw⟩,
      ⟨29, 29, .rw⟩, ⟨28, 28, .rw⟩, ⟨27, 27, .rw⟩, ⟨26, 25, .rw⟩, ⟨24, 24, .rsv⟩, ⟨23, 20, .rw⟩, ⟨19, 16, .rw⟩, ⟨15, 9,
      .rsv⟩, ⟨8, 0, .rw⟩]⟩)
    (e := ([f.val], 0))
    (by unfold bits ING_FLOW_CTRL; omega) (by decide +kernel) (by unfold bits ING_FLOW_CTRL; omega) (by decide +kernel)
    (chk f)
  refine h.trans ?_
  unfold ING_FLOW_CTRL; congr 2; omega

theorem block90 (k : Nat) (h : k < 4) : blockAt (144 + k) = some ({ first := 0x90, count := 4, rows := rowsBLT }, k)
    := by
  revert k; decide +kernel

theorem BLT_PROD_found (b : Fin 4) : findReg (BLT_PROD b) = some ⟨⟨36, [], false, .PRIV, false, .const 0, .bltProd,
    [⟨31, 16, .rsv⟩, ⟨15, 0, .rw⟩]⟩, 144, b.val, [], BLT_PROD b⟩ := by
  have chk : (((rowsBLT).take 6).all fun x => (rowAt x (36)).isNone) = true ∧ rowAt ⟨36, [], false, .PRIV, false,
      .const 0, .bltProd, [⟨31, 16, .rsv⟩, ⟨15, 0, .rw⟩]⟩ (36) = some ([], 0) := by
    decide +kernel
  have h := findReg_of (a := BLT_PROD b) (k := 144 + b.val) (o := 36) (i := b.val) (j := 6)
    (b := { first := 0x90, count := 4, rows := rowsBLT })
    (r := ⟨36, [], false, .PRIV, false, .const 0, .bltProd, [⟨31, 16, .rsv⟩, ⟨15, 0, .rw⟩]⟩)
    (e := ([], 0))
    (by unfold bits BLT_PROD; omega) (block90 _ (by omega)) (by unfold bits BLT_PROD; omega) (by decide +kernel)
    (chk)
  refine h.trans ?_
  unfold BLT_PROD; congr 2; omega

theorem BLT_CTRL_found (b : Fin 4) : findReg (BLT_CTRL b) = some ⟨⟨16, [], false, .PRIV, false, .const 1073741824,
    .bltCtrl, [⟨31, 31, .rw⟩, ⟨30, 30, .rw⟩, ⟨29, 0, .rsv⟩]⟩, 144, b.val, [], BLT_CTRL b⟩ := by
  have chk : (((rowsBLT).take 2).all fun x => (rowAt x (16)).isNone) = true ∧ rowAt ⟨16, [], false, .PRIV, false,
      .const 1073741824, .bltCtrl, [⟨31, 31, .rw⟩, ⟨30, 30, .rw⟩, ⟨29, 0, .rsv⟩]⟩ (16) = some ([], 0) := by
    decide +kernel
  have h := findReg_of (a := BLT_CTRL b) (k := 144 + b.val) (o := 16) (i := b.val) (j := 2)
    (b := { first := 0x90, count := 4, rows := rowsBLT })
    (r := ⟨16, [], false, .PRIV, false, .const 1073741824, .bltCtrl, [⟨31, 31, .rw⟩, ⟨30, 30, .rw⟩, ⟨29, 0, .rsv⟩]⟩)
    (e := ([], 0))
    (by unfold bits BLT_CTRL; omega) (block90 _ (by omega)) (by unfold bits BLT_CTRL; omega) (by decide +kernel)
    (chk)
  refine h.trans ?_
  unfold BLT_CTRL; congr 2; omega

theorem BLT_RESUME_found (b : Fin 4) : findReg (BLT_RESUME b) = some ⟨⟨48, [], false, .PRIV, false, .const 0,
    .bltResume, [⟨31, 0, .wo⟩]⟩, 144, b.val, [], BLT_RESUME b⟩ := by
  have chk : (((rowsBLT).take 9).all fun x => (rowAt x (48)).isNone) = true ∧ rowAt ⟨48, [], false, .PRIV, false,
      .const 0, .bltResume, [⟨31, 0, .wo⟩]⟩ (48) = some ([], 0) := by
    decide +kernel
  have h := findReg_of (a := BLT_RESUME b) (k := 144 + b.val) (o := 48) (i := b.val) (j := 9)
    (b := { first := 0x90, count := 4, rows := rowsBLT })
    (r := ⟨48, [], false, .PRIV, false, .const 0, .bltResume, [⟨31, 0, .wo⟩]⟩)
    (e := ([], 0))
    (by unfold bits BLT_RESUME; omega) (block90 _ (by omega)) (by unfold bits BLT_RESUME; omega) (by decide +kernel)
    (chk)
  refine h.trans ?_
  unfold BLT_RESUME; congr 2; omega

theorem BLT_RING_CFG_found (b : Fin 4) : findReg (BLT_RING_CFG b) = some ⟨⟨32, [], false, .PRIV, false, .const 4,
    .bltRingCfg, [⟨31, 4, .rsv⟩, ⟨3, 0, .rw⟩]⟩, 144, b.val, [], BLT_RING_CFG b⟩ := by
  have chk : (((rowsBLT).take 5).all fun x => (rowAt x (32)).isNone) = true ∧ rowAt ⟨32, [], false, .PRIV, false,
      .const 4, .bltRingCfg, [⟨31, 4, .rsv⟩, ⟨3, 0, .rw⟩]⟩ (32) = some ([], 0) := by
    decide +kernel
  have h := findReg_of (a := BLT_RING_CFG b) (k := 144 + b.val) (o := 32) (i := b.val) (j := 5)
    (b := { first := 0x90, count := 4, rows := rowsBLT })
    (r := ⟨32, [], false, .PRIV, false, .const 4, .bltRingCfg, [⟨31, 4, .rsv⟩, ⟨3, 0, .rw⟩]⟩)
    (e := ([], 0))
    (by unfold bits BLT_RING_CFG; omega) (block90 _ (by omega)) (by unfold bits BLT_RING_CFG; omega) (by decide +kernel)
    (chk)
  refine h.trans ?_
  unfold BLT_RING_CFG; congr 2; omega

theorem BLT_RING_BASE_found (b : Fin 4) : findReg (BLT_RING_BASE b) = some ⟨⟨24, [], true, .PRIV, false, .const 0,
    .bltRingBase, [⟨63, 40, .rsv⟩, ⟨39, 8, .rw⟩, ⟨7, 0, .ro⟩]⟩, 144, b.val, [], BLT_RING_BASE b⟩ := by
  have chk : (((rowsBLT).take 4).all fun x => (rowAt x (24)).isNone) = true ∧ rowAt ⟨24, [], true, .PRIV, false,
      .const 0, .bltRingBase, [⟨63, 40, .rsv⟩, ⟨39, 8, .rw⟩, ⟨7, 0, .ro⟩]⟩ (24) = some ([], 0) := by
    decide +kernel
  have h := findReg_of (a := BLT_RING_BASE b) (k := 144 + b.val) (o := 24) (i := b.val) (j := 4)
    (b := { first := 0x90, count := 4, rows := rowsBLT })
    (r := ⟨24, [], true, .PRIV, false, .const 0, .bltRingBase, [⟨63, 40, .rsv⟩, ⟨39, 8, .rw⟩, ⟨7, 0, .ro⟩]⟩)
    (e := ([], 0))
    (by unfold bits BLT_RING_BASE; omega) (block90 _ (by omega)) (by unfold bits BLT_RING_BASE; omega) (by decide +kernel)
    (chk)
  refine h.trans ?_
  unfold BLT_RING_BASE; congr 2; omega

theorem SIG_EXPECT_found (u : Fin 16) : findReg (SIG_EXPECT u) = some ⟨⟨272, [(16, 128)], true, .PRIV, false, .const
    0, .sigExpect, [⟨63, 0, .rw⟩]⟩, 152, 0, [u.val], SIG_EXPECT u⟩ := by
  have chk : ∀ (u : Fin 16), (((rowsCHECK).take 5).all fun x => (rowAt x (272 + u.val * 128)).isNone) = true ∧ rowAt
      ⟨272, [(16, 128)], true, .PRIV, false, .const 0, .sigExpect, [⟨63, 0, .rw⟩]⟩ (272 + u.val * 128) = some ([u.val], 0)
      := by
    decide +kernel
  have h := findReg_of (a := SIG_EXPECT u) (k := 152) (o := 272 + u.val * 128) (i := 0) (j := 5)
    (b := { first := 0x98, count := 1, rows := rowsCHECK })
    (r := ⟨272, [(16, 128)], true, .PRIV, false, .const 0, .sigExpect, [⟨63, 0, .rw⟩]⟩)
    (e := ([u.val], 0))
    (by unfold bits SIG_EXPECT; omega) (by decide +kernel) (by unfold bits SIG_EXPECT; omega) (by decide +kernel)
    (chk u)
  refine h.trans ?_
  unfold SIG_EXPECT; congr 2; omega

theorem MCU_EXPECT_found (m : Fin 4) : findReg (MCU_EXPECT m) = some ⟨⟨4120, [(4, 64)], true, .PRIV, false, .const 0,
    .mcuExpect, [⟨63, 0, .rw⟩]⟩, 152, 0, [m.val], MCU_EXPECT m⟩ := by
  have chk : ∀ (m : Fin 4), (((rowsCHECK).take 17).all fun x => (rowAt x (4120 + m.val * 64)).isNone) = true ∧ rowAt
      ⟨4120, [(4, 64)], true, .PRIV, false, .const 0, .mcuExpect, [⟨63, 0, .rw⟩]⟩ (4120 + m.val * 64) = some ([m.val], 0) :=
      by
    decide +kernel
  have h := findReg_of (a := MCU_EXPECT m) (k := 152) (o := 4120 + m.val * 64) (i := 0) (j := 17)
    (b := { first := 0x98, count := 1, rows := rowsCHECK })
    (r := ⟨4120, [(4, 64)], true, .PRIV, false, .const 0, .mcuExpect, [⟨63, 0, .rw⟩]⟩)
    (e := ([m.val], 0))
    (by unfold bits MCU_EXPECT; omega) (by decide +kernel) (by unfold bits MCU_EXPECT; omega) (by decide +kernel)
    (chk m)
  refine h.trans ?_
  unfold MCU_EXPECT; congr 2; omega

theorem MCU_GO_found (m : Fin 4) : findReg (MCU_GO m) = some ⟨⟨4112, [(4, 64)], false, .PRIV, false, .const 0, .mcuGo,
    [⟨31, 0, .wo⟩]⟩, 152, 0, [m.val], MCU_GO m⟩ := by
  have chk : ∀ (m : Fin 4), (((rowsCHECK).take 16).all fun x => (rowAt x (4112 + m.val * 64)).isNone) = true ∧ rowAt
      ⟨4112, [(4, 64)], false, .PRIV, false, .const 0, .mcuGo, [⟨31, 0, .wo⟩]⟩ (4112 + m.val * 64) = some ([m.val], 0) := by
    decide +kernel
  have h := findReg_of (a := MCU_GO m) (k := 152) (o := 4112 + m.val * 64) (i := 0) (j := 16)
    (b := { first := 0x98, count := 1, rows := rowsCHECK })
    (r := ⟨4112, [(4, 64)], false, .PRIV, false, .const 0, .mcuGo, [⟨31, 0, .wo⟩]⟩)
    (e := ([m.val], 0))
    (by unfold bits MCU_GO; omega) (by decide +kernel) (by unfold bits MCU_GO; omega) (by decide +kernel)
    (chk m)
  refine h.trans ?_
  unfold MCU_GO; congr 2; omega

theorem blockA0 (k : Nat) (h : k < 16) : blockAt (160 + k) = some ({ first := 0xA0, count := 16, rows := rowsMC }, k)
    := by
  revert k; decide +kernel

theorem MC_REFRESH_found (c : Fin 16) : findReg (MC_REFRESH c) = some ⟨⟨44, [], false, .SECURE, false, .const 0,
    .mcRefresh, [⟨31, 1, .rsv⟩, ⟨0, 0, .rw⟩]⟩, 160, c.val, [], MC_REFRESH c⟩ := by
  have chk : (((rowsMC).take 8).all fun x => (rowAt x (44)).isNone) = true ∧ rowAt ⟨44, [], false, .SECURE, false,
      .const 0, .mcRefresh, [⟨31, 1, .rsv⟩, ⟨0, 0, .rw⟩]⟩ (44) = some ([], 0) := by
    decide +kernel
  have h := findReg_of (a := MC_REFRESH c) (k := 160 + c.val) (o := 44) (i := c.val) (j := 8)
    (b := { first := 0xA0, count := 16, rows := rowsMC })
    (r := ⟨44, [], false, .SECURE, false, .const 0, .mcRefresh, [⟨31, 1, .rsv⟩, ⟨0, 0, .rw⟩]⟩)
    (e := ([], 0))
    (by unfold bits MC_REFRESH; omega) (blockA0 _ (by omega)) (by unfold bits MC_REFRESH; omega) (by decide +kernel)
    (chk)
  refine h.trans ?_
  unfold MC_REFRESH; congr 2; omega

theorem PLIC_CLAIM_found (c : Fin 16) : findReg (PLIC_CLAIM c) = some ⟨⟨12292, [(16, 16)], false, .PRIV, false, .const
    0, .plicClaim, [⟨31, 8, .rsv⟩, ⟨7, 0, .rw⟩]⟩, 224, 0, [c.val], PLIC_CLAIM c⟩ := by
  have chk : ∀ (c : Fin 16), (((rowsAPPCX0 ++ rowsAPPCX1).take 13).all fun x => (rowAt x (12292 + c.val * 16)).isNone)
      = true ∧ rowAt ⟨12292, [(16, 16)], false, .PRIV, false, .const 0, .plicClaim, [⟨31, 8, .rsv⟩, ⟨7, 0, .rw⟩]⟩ (12292 +
      c.val * 16) = some ([c.val], 0) := by
    decide +kernel
  have h := findReg_of (a := PLIC_CLAIM c) (k := 224) (o := 12292 + c.val * 16) (i := 0) (j := 13)
    (b := { first := 0xE0, count := 1, rows := rowsAPPCX0 ++ rowsAPPCX1 })
    (r := ⟨12292, [(16, 16)], false, .PRIV, false, .const 0, .plicClaim, [⟨31, 8, .rsv⟩, ⟨7, 0, .rw⟩]⟩)
    (e := ([c.val], 0))
    (by unfold bits PLIC_CLAIM; omega) (by decide +kernel) (by unfold bits PLIC_CLAIM; omega) (by decide +kernel)
    (chk c)
  refine h.trans ?_
  unfold PLIC_CLAIM; congr 2; omega

theorem MB_SEND_found (n : Fin 64) : findReg (MB_SEND n) = some ⟨⟨4160, [(64, 128)], false, .OPEN, false, .const 0,
    .mbSend, [⟨31, 21, .rsv⟩, ⟨20, 16, .wo⟩, ⟨15, 0, .wo⟩]⟩, 192, 0, [n.val], MB_SEND n⟩ := by
  have chk : ∀ (n : Fin 64), (((rowsMAILBOX).take 8).all fun x => (rowAt x (4160 + n.val * 128)).isNone) = true ∧
      rowAt ⟨4160, [(64, 128)], false, .OPEN, false, .const 0, .mbSend, [⟨31, 21, .rsv⟩, ⟨20, 16, .wo⟩, ⟨15, 0, .wo⟩]⟩ (4160
      + n.val * 128) = some ([n.val], 0) := by
    decide +kernel
  have h := findReg_of (a := MB_SEND n) (k := 192) (o := 4160 + n.val * 128) (i := 0) (j := 8)
    (b := { first := 0xC0, count := 1, rows := rowsMAILBOX })
    (r := ⟨4160, [(64, 128)], false, .OPEN, false, .const 0, .mbSend, [⟨31, 21, .rsv⟩, ⟨20, 16, .wo⟩, ⟨15, 0, .wo⟩]⟩)
    (e := ([n.val], 0))
    (by unfold bits MB_SEND; omega) (by decide +kernel) (by unfold bits MB_SEND; omega) (by decide +kernel)
    (chk n)
  refine h.trans ?_
  unfold MB_SEND; congr 2; omega

theorem MB_ACK_found (n : Fin 64) : findReg (MB_ACK n) = some ⟨⟨4164, [(64, 128)], false, .OPEN, false, .const 0,
    .mbAck, [⟨31, 16, .wo⟩, ⟨15, 0, .wo⟩]⟩, 192, 0, [n.val], MB_ACK n⟩ := by
  have chk : ∀ (n : Fin 64), (((rowsMAILBOX).take 9).all fun x => (rowAt x (4164 + n.val * 128)).isNone) = true ∧
      rowAt ⟨4164, [(64, 128)], false, .OPEN, false, .const 0, .mbAck, [⟨31, 16, .wo⟩, ⟨15, 0, .wo⟩]⟩ (4164 + n.val * 128) =
      some ([n.val], 0) := by
    decide +kernel
  have h := findReg_of (a := MB_ACK n) (k := 192) (o := 4164 + n.val * 128) (i := 0) (j := 9)
    (b := { first := 0xC0, count := 1, rows := rowsMAILBOX })
    (r := ⟨4164, [(64, 128)], false, .OPEN, false, .const 0, .mbAck, [⟨31, 16, .wo⟩, ⟨15, 0, .wo⟩]⟩)
    (e := ([n.val], 0))
    (by unfold bits MB_ACK; omega) (by decide +kernel) (by unfold bits MB_ACK; omega) (by decide +kernel)
    (chk n)
  refine h.trans ?_
  unfold MB_ACK; congr 2; omega

theorem MB_DONE_found (n : Fin 64) : findReg (MB_DONE n) = some ⟨⟨4176, [(64, 128)], false, .OPEN, false, .const 0,
    .mbDone, [⟨31, 0, .wo⟩]⟩, 192, 0, [n.val], MB_DONE n⟩ := by
  have chk : ∀ (n : Fin 64), (((rowsMAILBOX).take 12).all fun x => (rowAt x (4176 + n.val * 128)).isNone) = true ∧
      rowAt ⟨4176, [(64, 128)], false, .OPEN, false, .const 0, .mbDone, [⟨31, 0, .wo⟩]⟩ (4176 + n.val * 128) = some
      ([n.val], 0) := by
    decide +kernel
  have h := findReg_of (a := MB_DONE n) (k := 192) (o := 4176 + n.val * 128) (i := 0) (j := 12)
    (b := { first := 0xC0, count := 1, rows := rowsMAILBOX })
    (r := ⟨4176, [(64, 128)], false, .OPEN, false, .const 0, .mbDone, [⟨31, 0, .wo⟩]⟩)
    (e := ([n.val], 0))
    (by unfold bits MB_DONE; omega) (by decide +kernel) (by unfold bits MB_DONE; omega) (by decide +kernel)
    (chk n)
  refine h.trans ?_
  unfold MB_DONE; congr 2; omega

theorem MB_MSG_found (n : Fin 64) (w : Fin 16) : findReg (MB_MSG n w) = some ⟨⟨4096, [(64, 128), (16, 4)], false,
    .OPEN, false, .const 0, .mbMsg, [⟨31, 0, .rw⟩]⟩, 192, 0, [n.val, w.val], MB_MSG n w⟩ := by
  have chk : ∀ (n : Fin 64) (w : Fin 16), (((rowsMAILBOX).take 7).all fun x => (rowAt x (4096 + n.val * 128 + w.val *
      4)).isNone) = true ∧ rowAt ⟨4096, [(64, 128), (16, 4)], false, .OPEN, false, .const 0, .mbMsg, [⟨31, 0, .rw⟩]⟩ (4096 +
      n.val * 128 + w.val * 4) = some ([n.val, w.val], 0) := by
    decide +kernel
  have h := findReg_of (a := MB_MSG n w) (k := 192) (o := 4096 + n.val * 128 + w.val * 4) (i := 0) (j := 7)
    (b := { first := 0xC0, count := 1, rows := rowsMAILBOX })
    (r := ⟨4096, [(64, 128), (16, 4)], false, .OPEN, false, .const 0, .mbMsg, [⟨31, 0, .rw⟩]⟩)
    (e := ([n.val, w.val], 0))
    (by unfold bits MB_MSG; omega) (by decide +kernel) (by unfold bits MB_MSG; omega) (by decide +kernel)
    (chk n w)
  refine h.trans ?_
  unfold MB_MSG; congr 2; omega

theorem MMAC_CFG_found (m : Fin 2) : findReg (MMAC_CFG m) = some ⟨⟨32768, [(2, 1024)], false, .PRIV, false, .const
    838860800, .mmacCfg, [⟨31, 31, .rw⟩, ⟨30, 30, .rw⟩, ⟨29, 29, .rw⟩, ⟨28, 27, .rw⟩, ⟨26, 26, .rw⟩, ⟨25, 25, .rw⟩, ⟨24,
    24, .rw⟩, ⟨23, 23, .rw⟩, ⟨22, 0, .rsv⟩]⟩, 224, 0, [m.val], MMAC_CFG m⟩ := by
  have chk : ∀ (m : Fin 2), (((rowsAPPCX0 ++ rowsAPPCX1).take 15).all fun x => (rowAt x (32768 + m.val *
      1024)).isNone) = true ∧ rowAt ⟨32768, [(2, 1024)], false, .PRIV, false, .const 838860800, .mmacCfg, [⟨31, 31, .rw⟩,
      ⟨30, 30, .rw⟩, ⟨29, 29, .rw⟩, ⟨28, 27, .rw⟩, ⟨26, 26, .rw⟩, ⟨25, 25, .rw⟩, ⟨24, 24, .rw⟩, ⟨23, 23, .rw⟩, ⟨22, 0,
      .rsv⟩]⟩ (32768 + m.val * 1024) = some ([m.val], 0) := by
    decide +kernel
  have h := findReg_of (a := MMAC_CFG m) (k := 224) (o := 32768 + m.val * 1024) (i := 0) (j := 15)
    (b := { first := 0xE0, count := 1, rows := rowsAPPCX0 ++ rowsAPPCX1 })
    (r := ⟨32768, [(2, 1024)], false, .PRIV, false, .const 838860800, .mmacCfg, [⟨31, 31, .rw⟩, ⟨30, 30, .rw⟩, ⟨29,
      29, .rw⟩, ⟨28, 27, .rw⟩, ⟨26, 26, .rw⟩, ⟨25, 25, .rw⟩, ⟨24, 24, .rw⟩, ⟨23, 23, .rw⟩, ⟨22, 0, .rsv⟩]⟩)
    (e := ([m.val], 0))
    (by unfold bits MMAC_CFG; omega) (by decide +kernel) (by unfold bits MMAC_CFG; omega) (by decide +kernel)
    (chk m)
  refine h.trans ?_
  unfold MMAC_CFG; congr 2; omega

theorem MMAC_TX_PROD_found (m : Fin 2) : findReg (MMAC_TX_PROD m) = some ⟨⟨32836, [(2, 1024)], false, .PRIV, false,
    .const 0, .mmacTxProd, [⟨31, 0, .rw⟩]⟩, 224, 0, [m.val], MMAC_TX_PROD m⟩ := by
  have chk : ∀ (m : Fin 2), (((rowsAPPCX0 ++ rowsAPPCX1).take 25).all fun x => (rowAt x (32836 + m.val *
      1024)).isNone) = true ∧ rowAt ⟨32836, [(2, 1024)], false, .PRIV, false, .const 0, .mmacTxProd, [⟨31, 0, .rw⟩]⟩ (32836
      + m.val * 1024) = some ([m.val], 0) := by
    decide +kernel
  have h := findReg_of (a := MMAC_TX_PROD m) (k := 224) (o := 32836 + m.val * 1024) (i := 0) (j := 25)
    (b := { first := 0xE0, count := 1, rows := rowsAPPCX0 ++ rowsAPPCX1 })
    (r := ⟨32836, [(2, 1024)], false, .PRIV, false, .const 0, .mmacTxProd, [⟨31, 0, .rw⟩]⟩)
    (e := ([m.val], 0))
    (by unfold bits MMAC_TX_PROD; omega) (by decide +kernel) (by unfold bits MMAC_TX_PROD; omega) (by decide +kernel)
    (chk m)
  refine h.trans ?_
  unfold MMAC_TX_PROD; congr 2; omega

theorem I2C_XFER_found (b : Fin 2) : findReg (I2C_XFER b) = some ⟨⟨37380, [(2, 128)], false, .PRIV, false, .const 0,
    .i2cXfer, [⟨31, 25, .rsv⟩, ⟨24, 20, .wo⟩, ⟨19, 15, .wo⟩, ⟨14, 7, .rsv⟩, ⟨6, 0, .wo⟩]⟩, 224, 0, [b.val], I2C_XFER b⟩ :=
    by
  have chk : ∀ (b : Fin 2), (((rowsAPPCX0 ++ rowsAPPCX1).take 48).all fun x => (rowAt x (37380 + b.val * 128)).isNone)
      = true ∧ rowAt ⟨37380, [(2, 128)], false, .PRIV, false, .const 0, .i2cXfer, [⟨31, 25, .rsv⟩, ⟨24, 20, .wo⟩, ⟨19, 15,
      .wo⟩, ⟨14, 7, .rsv⟩, ⟨6, 0, .wo⟩]⟩ (37380 + b.val * 128) = some ([b.val], 0) := by
    decide +kernel
  have h := findReg_of (a := I2C_XFER b) (k := 224) (o := 37380 + b.val * 128) (i := 0) (j := 48)
    (b := { first := 0xE0, count := 1, rows := rowsAPPCX0 ++ rowsAPPCX1 })
    (r := ⟨37380, [(2, 128)], false, .PRIV, false, .const 0, .i2cXfer, [⟨31, 25, .rsv⟩, ⟨24, 20, .wo⟩, ⟨19, 15, .wo⟩,
      ⟨14, 7, .rsv⟩, ⟨6, 0, .wo⟩]⟩)
    (e := ([b.val], 0))
    (by unfold bits I2C_XFER; omega) (by decide +kernel) (by unfold bits I2C_XFER; omega) (by decide +kernel)
    (chk b)
  refine h.trans ?_
  unfold I2C_XFER; congr 2; omega

end Reg
end Sys2Proof.Machine
end

