-- ==== Sys2Proof/Laws/Keeps.lean ====
section
/-! SUPPORT. What every operation keeps: the queue of waiting commands, and the canonical form of memory, of the
registers and of their live copies. -/

namespace Sys2Proof.Machine

/-- Memory, the registers and the live copies are in canonical form. -/
def State.Canon (s : State) : Prop := Memory.Ok s.mem ∧ Tab.Rising s.regs ∧ Tab.Rising s.live

/-- t has the queue of s, and is in canonical form where s is. -/
def Keeps (s t : State) : Prop := t.pending = s.pending ∧ (s.Canon → t.Canon)

theorem Keeps.refl (s : State) : Keeps s s := ⟨rfl, id⟩

theorem Keeps.trans {s t u : State} (h : Keeps s t) (g : Keeps t u) : Keeps s u :=
  ⟨g.1.trans h.1, fun c => g.2 (h.2 c)⟩

/-- A change of other fields. -/
theorem Keeps.same {s t : State} (hp : t.pending = s.pending) (hm : t.mem = s.mem) (hr : t.regs = s.regs)
    (hl : t.live = s.live) : Keeps s t :=
  ⟨hp, fun c => by unfold State.Canon; rw [hm, hr, hl]; exact c⟩

/-- A change of other fields of u. -/
theorem Keeps.lit {s u : State} {free : Nat} {cycle : List Nat} {poison : List Nat} {bus : Bus} {nvm : Nvm} {time :
    Time} {rasters : Tab Raster} {ports : Tab Port} {fclk : Nat} {ran : Nat} {cues : Tab ArmedCue} {commits : List
    Commit} {tickets : Tab Nat} {engines : Tab Engine} {flows : Tab Flow} {chain : Chain} {encFill : Tab Fill} {sigs :
    Tab SigUnit} {mcus : Tab McuRun} {swap : Tab SwapNeed} {copying copyWaits : List Nat} {chans : Tab Chan} {blits : Tab Blit}
    {bltWait : Tab Nat} {serv : Serv} {aon : Aon} {quadIdle : List Nat}
    (h : Keeps s u) :
    Keeps s (State.mk u.pending free cycle u.regs u.live u.mem poison bus nvm time rasters ports fclk ran cues commits
    tickets engines flows chain encFill sigs mcus swap copying copyWaits chans blits bltWait serv aon quadIdle) :=
  h.trans (Keeps.same rfl rfl rfl rfl)

theorem Keeps.ite {z a b : State} {c : Prop} [Decidable c] (h : Keeps z a) (g : Keeps z b) : Keeps z (if c then a else b) := by
  split
  · exact h
  · exact g

theorem Keeps.foldl {α : Type} {f : State → α → State} {l : List α} {z s : State} (h : ∀ t x, Keeps t (f t x))
    (k : Keeps z s) : Keeps z (l.foldl f s) := by
  induction l generalizing s with
  | nil => exact k
  | cons a r ih => exact ih (k.trans (h s a))

theorem Keeps.foldr {α : Type} {f : α → State → State} {l : List α} {z s : State} (h : ∀ x t, Keeps t (f x t))
    (k : Keeps z s) : Keeps z (l.foldr f s) := by
  induction l with
  | nil => exact k
  | cons a r ih => exact ih.trans (h a _)

theorem Keeps.foldl_fst {α β : Type} {f : State × β → α → State × β} {l : List α} {z : State} {p : State × β}
    (h : ∀ t x, Keeps t.1 (f t x).1) (k : Keeps z p.1) : Keeps z (l.foldl f p).1 := by
  induction l generalizing p with
  | nil => exact k
  | cons a r ih => exact ih (k.trans (h p a))

theorem Keeps.foldl_snd {α β : Type} {f : β × State → α → β × State} {l : List α} {z : State} {p : β × State}
    (h : ∀ t x, Keeps t.2 (f t x).2) (k : Keeps z p.2) : Keeps z (l.foldl f p).2 := by
  induction l generalizing p with
  | nil => exact k
  | cons a r ih => exact ih (k.trans (h p a))

theorem Keeps.forN {n : Nat} {f : Nat → State → State} {z s : State} (h : ∀ i t, Keeps t (f i t)) (k : Keeps z s) :
    Keeps z (forN n f s) := Keeps.foldl (fun t i => h i t) k

theorem Keeps.when {b : Bool} {f : State → State} {z s : State} (h : ∀ t, Keeps t (f t)) (k : Keeps z s) :
    Keeps z (when b f s) := by
  unfold Machine.when; split
  · exact k.trans (h s)
  · exact k

/-- The state half of a pair that an operation answers. -/
theorem Keeps.snd {α : Type} {s t : State} {p : α × State} {a : α} (h : Keeps s p.2) (e : p = (a, t)) : Keeps s t := by
  subst e; exact h

theorem Keeps.fst {α : Type} {s t : State} {p : State × α} {a : α} (h : Keeps s p.1) (e : p = (t, a)) : Keeps s t := by
  subst e; exact h

namespace State

theorem setReg_keeps {z s : State} {a : Nat} {v : Word} (k : Keeps z s) : Keeps z (s.setReg a v) :=
  k.trans ⟨rfl, fun c => ⟨c.1, Tab.rising_put a v c.2.1, c.2.2⟩⟩

theorem setLreg_keeps {z s : State} {a : Nat} {v : Word} (k : Keeps z s) : Keeps z (s.setLreg a v) :=
  k.trans ⟨rfl, fun c => ⟨c.1, c.2.1, Tab.rising_put a v c.2.2⟩⟩

theorem store_keeps {z s : State} {a : Nat} {bs : List Byte} (k : Keeps z s) : Keeps z (s.store a bs) :=
  k.trans ⟨rfl, fun c => ⟨Memory.ok_writes _ a bs c.1, c.2.1, c.2.2⟩⟩

end State
end Sys2Proof.Machine
end

