-- ==== Sys2Proof/Laws/KeepsOps.lean ====
section
/-! SUPPORT. Every operation of Ops.lean keeps the queue and the canonical form (Keeps). -/

namespace Sys2Proof.Machine.State

theorem setBus_keeps {z : State} {s : State} {b : Bus} (hk : Keeps z s) :
    Keeps z (setBus s b) := by
  unfold setBus
  repeat' first
    | with_reducible exact hk
    | (with_reducible refine Keeps.lit ?_; first | with_reducible exact hk)

theorem setTime_keeps {z : State} {s : State} {t : Time} (hk : Keeps z s) :
    Keeps z (setTime s t) := by
  unfold setTime
  repeat' first
    | with_reducible exact hk
    | (with_reducible refine Keeps.lit ?_; first | with_reducible exact hk)

theorem setNvm_keeps {z : State} {s : State} {n : Nvm} (hk : Keeps z s) :
    Keeps z (setNvm s n) := by
  unfold setNvm
  repeat' first
    | with_reducible exact hk
    | (with_reducible refine Keeps.lit ?_; first | with_reducible exact hk)

theorem setF_keeps {z : State} {s : State} {x : Fld} {n : Nat} (hk : Keeps z s) :
    Keeps z (setF s x n) := by
  unfold setF
  repeat' first
    | with_reducible exact hk
    | with_reducible apply setReg_keeps

theorem setLf_keeps {z : State} {s : State} {x : Fld} {n : Nat} (hk : Keeps z s) :
    Keeps z (setLf s x n) := by
  unfold setLf
  repeat' first
    | with_reducible exact hk
    | with_reducible apply setLreg_keeps

theorem satF_keeps {z : State} {s : State} {x : Fld} {n : Nat} (hk : Keeps z s) :
    Keeps z (satF s x n) := by
  unfold satF
  repeat' first
    | with_reducible exact hk
    | with_reducible apply setF_keeps

theorem addF_keeps {z : State} {s : State} {x : Fld} {n : Nat} (hk : Keeps z s) :
    Keeps z (addF s x n) := by
  unfold addF
  repeat' first
    | with_reducible exact hk
    | with_reducible apply setF_keeps

theorem maxF_keeps {z : State} {s : State} {x : Fld} {n : Nat} (hk : Keeps z s) :
    Keeps z (maxF s x n) := by
  unfold maxF
  repeat' first
    | with_reducible exact hk
    | with_reducible apply setF_keeps
    | with_reducible apply Keeps.ite
    | split

theorem wr_keeps {z : State} {s : State} {a n v : Nat} (hk : Keeps z s) :
    Keeps z (wr s a n v) := by
  unfold wr
  repeat' first
    | with_reducible exact hk
    | with_reducible apply store_keeps

theorem addPoison_keeps {z : State} {s : State} {a n : Nat} (hk : Keeps z s) :
    Keeps z (addPoison s a n) := by
  unfold addPoison
  repeat' first
    | with_reducible exact hk
    | intro _
    | with_reducible apply Keeps.foldl
    | with_reducible apply Keeps.foldl_fst
    | with_reducible apply Keeps.foldl_snd
    | with_reducible refine Keeps.fst ?_ (by assumption)
    | (with_reducible refine Keeps.lit ?_; first | with_reducible exact hk | with_reducible apply Keeps.foldl | with_reducible apply Keeps.foldl_fst | with_reducible apply Keeps.foldl_snd | with_reducible refine Keeps.fst ?_ (by assumption))
    | (with_reducible refine Keeps.lit ?_; with_reducible exact Keeps.refl _)
    | with_reducible exact Keeps.refl _

theorem clearPoison_keeps {z : State} {s : State} {a n : Nat} (hk : Keeps z s) :
    Keeps z (clearPoison s a n) := by
  unfold clearPoison
  repeat' first
    | with_reducible exact hk
    | (with_reducible refine Keeps.lit ?_; first | with_reducible exact hk)

theorem put_keeps {z : State} {s : State} {a : Nat} {bs : List Byte} (hk : Keeps z s) :
    Keeps z (put s a bs) := by
  unfold put
  repeat' first
    | with_reducible exact hk
    | with_reducible apply store_keeps
    | with_reducible apply clearPoison_keeps

theorem setSlow_keeps {z : State} {s : State} {a : Nat} {v : Word} (hk : Keeps z s) :
    Keeps z (setSlow s a v) := by
  unfold setSlow
  repeat' first
    | with_reducible exact hk
    | with_reducible apply put_keeps
    | (with_reducible refine Keeps.lit ?_; first | with_reducible exact hk | with_reducible apply put_keeps)

theorem setSf_keeps {z : State} {s : State} {x : Fld} {n : Nat} (hk : Keeps z s) :
    Keeps z (setSf s x n) := by
  unfold setSf
  repeat' first
    | with_reducible exact hk
    | with_reducible apply setSlow_keeps

theorem takeFree_keeps {z : State} {s : State} (hk : Keeps z s) :
    Keeps z (takeFree s).2 := by
  unfold takeFree
  repeat' first
    | with_reducible exact hk
    | (with_reducible refine Keeps.lit ?_; first | with_reducible exact hk)
    | dsimp only

end Sys2Proof.Machine.State
end

