-- ==== Sys2Proof/Laws/KeepsFlags.lean ====
section
/-! SUPPORT. Every operation of Flags.lean keeps the queue and the canonical form (Keeps). -/

namespace Sys2Proof.Machine.State

theorem raiseAll_keeps {z : State} {s : State} {a : Nat} {flags : List Nat} (hk : Keeps z s) :
    Keeps z (raiseAll s a flags) := by
  unfold raiseAll
  repeat' first
    | with_reducible exact hk
    | extract_lets
    | intro _
    | with_reducible apply setReg_keeps
    | with_reducible apply Keeps.foldl
    | with_reducible apply Keeps.foldl_fst
    | with_reducible apply Keeps.foldl_snd
    | with_reducible refine Keeps.fst ?_ (by assumption)
    | (with_reducible refine Keeps.lit ?_; first | with_reducible exact hk | with_reducible apply setReg_keeps | with_reducible apply Keeps.foldl | with_reducible apply Keeps.foldl_fst | with_reducible apply Keeps.foldl_snd | with_reducible refine Keeps.fst ?_ (by assumption))
    | (with_reducible refine Keeps.lit ?_; with_reducible exact Keeps.refl _)
    | with_reducible apply Keeps.ite
    | split
    | with_reducible exact Keeps.refl _
    | dsimp +zetaDelta only

theorem raise_keeps {z : State} {s : State} {a flag : Nat} (hk : Keeps z s) :
    Keeps z (raise s a flag) := by
  unfold raise
  repeat' first
    | with_reducible exact hk
    | with_reducible apply raiseAll_keeps

theorem newCycle_keeps {z : State} {s : State} {slow : Bool} (hk : Keeps z s) :
    Keeps z (newCycle s slow) := by
  unfold newCycle
  repeat' first
    | with_reducible exact hk
    | (with_reducible refine Keeps.lit ?_; first | with_reducible exact hk)

theorem slowRaise_keeps {z : State} {s : State} {a : Nat} {flags : List Nat} (hk : Keeps z s) :
    Keeps z (slowRaise s a flags) := by
  unfold slowRaise
  repeat' first
    | with_reducible exact hk
    | extract_lets
    | intro _
    | with_reducible apply setSlow_keeps
    | with_reducible apply Keeps.foldl
    | with_reducible apply Keeps.foldl_fst
    | with_reducible apply Keeps.foldl_snd
    | with_reducible refine Keeps.fst ?_ (by assumption)
    | (with_reducible refine Keeps.lit ?_; first | with_reducible exact hk | with_reducible apply setSlow_keeps | with_reducible apply Keeps.foldl | with_reducible apply Keeps.foldl_fst | with_reducible apply Keeps.foldl_snd | with_reducible refine Keeps.fst ?_ (by assumption))
    | (with_reducible refine Keeps.lit ?_; with_reducible exact Keeps.refl _)
    | with_reducible apply Keeps.ite
    | split
    | with_reducible exact Keeps.refl _
    | dsimp +zetaDelta only

end Sys2Proof.Machine.State
end

