-- ==== Sys2Proof/Laws/KeepsAccess.lean ====
section
/-! SUPPORT. Every operation of Access.lean keeps the queue and the canonical form (Keeps). -/

namespace Sys2Proof.Machine.State

theorem respond_keeps {z : State} {s : State} {m : Nat} {k : RespKind} {data : Word} {cause : Nat} (hk : Keeps z s) :
    Keeps z (respond s m k data cause) := by
  unfold respond
  repeat' first
    | with_reducible exact hk
    | with_reducible apply put_keeps
    | (with_reducible refine Keeps.lit ?_; first | with_reducible exact hk | with_reducible apply put_keeps)
    | with_reducible refine Keeps.snd ?_ (by assumption)
    | dsimp only

theorem logDenied_keeps {z : State} {s : State} {r : Req} {a : Nat} {wr : Bool} {need : Nat} (hk : Keeps z s) :
    Keeps z (logDenied s r a wr need) := by
  unfold logDenied
  repeat' first
    | with_reducible exact hk
    | extract_lets
    | with_reducible apply satF_keeps
    | with_reducible apply wr_keeps
    | with_reducible apply setReg_keeps
    | with_reducible apply setF_keeps
    | with_reducible apply raiseAll_keeps
    | (with_reducible refine Keeps.lit ?_; first | with_reducible exact hk | with_reducible apply satF_keeps | with_reducible apply wr_keeps | with_reducible apply setReg_keeps | with_reducible apply setF_keeps | with_reducible apply raiseAll_keeps)
    | with_reducible apply Keeps.ite
    | split
    | dsimp +zetaDelta only

theorem deny_keeps {z : State} {s : State} {r : Req} {a : Nat} {wr : Bool} {need : Nat} (hk : Keeps z s) :
    Keeps z (deny s r a wr need) := by
  unfold deny
  repeat' first
    | with_reducible exact hk
    | extract_lets
    | with_reducible apply wr_keeps
    | with_reducible apply logDenied_keeps
    | with_reducible apply respond_keeps
    | with_reducible apply Keeps.ite
    | split
    | dsimp +zetaDelta only

theorem busError_keeps {z : State} {s : State} {r : Req} {a : Nat} {cause : Nat} (hk : Keeps z s) :
    Keeps z (busError s r a cause) := by
  unfold busError
  repeat' first
    | with_reducible exact hk
    | extract_lets
    | with_reducible apply satF_keeps
    | with_reducible apply setF_keeps
    | with_reducible apply raiseAll_keeps
    | with_reducible apply respond_keeps
    | with_reducible apply Keeps.ite
    | split
    | dsimp +zetaDelta only

theorem guarded_keeps {z s : State} {r : Req} {a : Nat} {w : Width} {wr : Bool} {serve : Target → State → State}
    (h : ∀ u t, Keeps t (serve u t)) (hk : Keeps z s) : Keeps z (guarded s r a w wr serve) := by
  unfold guarded
  split
  · exact hk
  · split
    · exact respond_keeps hk
    · split
      · exact hk.trans (h ..)
      · exact deny_keeps hk
      · exact busError_keeps hk

theorem assemble_keeps {z : State} {s : State} {r : Req} {x : Found} {p : Part} {d : Nat} (hk : Keeps z s) :
    Keeps z (assemble s r x p d).2 := by
  unfold assemble
  repeat' first
    | with_reducible exact hk
    | extract_lets
    | with_reducible apply put_keeps
    | (with_reducible refine Keeps.lit ?_; first | with_reducible exact hk | with_reducible apply put_keeps)
    | with_reducible apply Keeps.ite
    | split
    | dsimp only
    | dsimp +zetaDelta only

theorem enqueueSlow_keeps {z : State} {s : State} {w : Forwarded} (hk : Keeps z s) :
    Keeps z (enqueueSlow s w) := by
  unfold enqueueSlow
  repeat' first
    | with_reducible exact hk
    | with_reducible apply setBus_keeps
    | (with_reducible refine Keeps.lit ?_; first | with_reducible exact hk | with_reducible apply setBus_keeps)
    | with_reducible apply Keeps.ite
    | split

theorem forward_keeps {z : State} {s : State} {w : Forwarded} (hk : Keeps z s) :
    Keeps z (forward s w) := by
  unfold forward
  repeat' first
    | with_reducible exact hk
    | with_reducible apply enqueueSlow_keeps
    | with_reducible apply setBus_keeps
    | with_reducible apply respond_keeps
    | (with_reducible refine Keeps.lit ?_; first | with_reducible exact hk | with_reducible apply enqueueSlow_keeps | with_reducible apply setBus_keeps | with_reducible apply respond_keeps)
    | with_reducible apply Keeps.ite
    | split

theorem plainWrite_keeps {z s : State} {r : Req} {x : Found} {new d m : Nat}  (hk : Keeps z s) : Keeps z (plainWrite r x new d m s) := by
  unfold plainWrite
  repeat' first
    | with_reducible exact hk
    | with_reducible apply forward_keeps
    | with_reducible apply setReg_keeps
    | with_reducible apply Keeps.ite
    | split

theorem serveRegWrite_keeps {z s : State} {eff : WriteEffect} {r : Req} {x : Found} {v : View} {p : Part} {d : Nat}
    (h : ∀ r x n d m s, Keeps s (eff r x n d m s)) (hk : Keeps z s) : Keeps z (serveRegWrite eff r x v p d s) := by
  unfold serveRegWrite
  split
  · next s1 e => exact respond_keeps (Keeps.snd (assemble_keeps hk) e)
  · next s1 e => exact (respond_keeps (Keeps.snd (assemble_keeps hk) e)).trans (h ..)

theorem writeReg_keeps {z s : State} {r : Req} {a : Nat} {w : Width} {d : Nat} {eff : WriteEffect}
    (h : ∀ r x n d m s, Keeps s (eff r x n d m s)) (hk : Keeps z s) : Keeps z (writeReg s r a w d eff) := by
  unfold writeReg
  refine guarded_keeps (fun u t => ?_) hk
  split
  · exact serveRegWrite_keeps h (Keeps.refl _)
  · exact Keeps.refl _

theorem plainRead_keeps {z s : State} {r : Req} {x : Found}  (hk : Keeps z s) : Keeps z (plainRead r x s).2 := by
  unfold plainRead
  repeat' first
    | with_reducible exact hk
    | dsimp only

theorem serveRegRead_keeps {z s : State} {eff : ReadEffect} {r : Req} {x : Found} {p : Part}
    (h : ∀ r x s, Keeps s (eff r x s).2) (hk : Keeps z s) : Keeps z (serveRegRead eff r x p s) := by
  refine hk.trans ?_
  unfold serveRegRead
  split
  · split
    next v s1 e =>
    apply respond_keeps
    split
    · exact (Keeps.snd (h ..) e).trans (Keeps.same rfl rfl rfl rfl)
    · exact Keeps.snd (h ..) e
  · split
    next v s1 e =>
    exact (Keeps.snd (h ..) e).trans (Keeps.same rfl rfl rfl rfl)
  · repeat' first
      | split
      | exact Keeps.same rfl rfl rfl rfl
      | (apply respond_keeps; exact Keeps.snd (h ..) (by assumption))

theorem readReg_keeps {z s : State} {r : Req} {a : Nat} {w : Width} {eff : ReadEffect}
    (h : ∀ r x s, Keeps s (eff r x s).2) (hk : Keeps z s) : Keeps z (readReg s r a w eff) := by
  unfold readReg
  refine guarded_keeps (fun u t => ?_) hk
  split
  · exact serveRegRead_keeps h (Keeps.refl _)
  · exact Keeps.refl _

end Sys2Proof.Machine.State
end

