-- ==== Sys2Proof/Laws/KeepsRequests.lean ====
section
/-! SUPPORT. Every operation of Requests.lean keeps the queue and the canonical form (Keeps). -/

namespace Sys2Proof.Machine.State

theorem setChan_keeps {z : State} {s : State} {c : Nat} {x : Chan} (hk : Keeps z s) :
    Keeps z (setChan s c x) := by
  unfold setChan
  repeat' first
    | with_reducible exact hk
    | with_reducible apply put_keeps
    | (with_reducible refine Keeps.lit ?_; first | with_reducible exact hk | with_reducible apply put_keeps)

theorem slotPasses_keeps {z : State} {s : State} {c : Nat} (hk : Keeps z s) :
    Keeps z (slotPasses s c).2 := by
  unfold slotPasses
  repeat' first
    | with_reducible exact hk
    | extract_lets
    | with_reducible apply setChan_keeps
    | (with_reducible refine Keeps.lit ?_; first | with_reducible exact hk | with_reducible apply setChan_keeps)
    | with_reducible apply Keeps.ite
    | split
    | dsimp only
    | dsimp +zetaDelta only

theorem request_keeps {z : State} {s : State} {q : MemQueue} {src a n : Nat} {write : Bool} (hk : Keeps z s) :
    Keeps z (request s q src a n write) := by
  unfold request
  repeat' first
    | with_reducible exact hk
    | extract_lets
    | intro _
    | with_reducible apply setChan_keeps
    | with_reducible apply Keeps.foldl
    | with_reducible apply Keeps.foldl_fst
    | with_reducible apply Keeps.foldl_snd
    | with_reducible refine Keeps.fst ?_ (by assumption)
    | with_reducible apply Keeps.ite
    | split
    | with_reducible exact Keeps.refl _
    | dsimp +zetaDelta only

theorem mcRaise_keeps {z : State} {s : State} {c : Nat} {flags : List Nat} (hk : Keeps z s) :
    Keeps z (mcRaise s c flags) := by
  unfold mcRaise
  repeat' first
    | with_reducible exact hk
    | with_reducible apply raiseAll_keeps

theorem mcLog_keeps {z : State} {s : State} {c a : Nat} {ue scrub : Bool} (hk : Keeps z s) :
    Keeps z (mcLog s c a ue scrub) := by
  unfold mcLog
  repeat' first
    | with_reducible exact hk
    | with_reducible apply setF_keeps
    | with_reducible apply Keeps.ite
    | split

theorem mcUe_keeps {z : State} {s : State} {c a : Nat} {scrub : Bool} (hk : Keeps z s) :
    Keeps z (mcUe s c a scrub) := by
  unfold mcUe
  repeat' first
    | with_reducible exact hk
    | with_reducible apply satF_keeps
    | with_reducible apply mcLog_keeps
    | with_reducible apply mcRaise_keeps

theorem noteMerged_keeps {z : State} {s : State} {a n : Nat} (hk : Keeps z s) :
    Keeps z (noteMerged s a n) := by
  unfold noteMerged
  repeat' first
    | with_reducible exact hk
    | intro _
    | with_reducible apply mcUe_keeps
    | with_reducible apply Keeps.foldl
    | with_reducible apply Keeps.foldl_fst
    | with_reducible apply Keeps.foldl_snd
    | with_reducible refine Keeps.fst ?_ (by assumption)
    | with_reducible exact Keeps.refl _

theorem putDdr_keeps {z : State} {s : State} {a : Nat} {bs : List Byte} (hk : Keeps z s) :
    Keeps z (putDdr s a bs) := by
  unfold putDdr
  repeat' first
    | with_reducible exact hk
    | with_reducible apply noteMerged_keeps
    | with_reducible apply put_keeps

end Sys2Proof.Machine.State
end

