-- ==== Sys2Proof/Laws/KeepsTime.lean ====
section
/-! SUPPORT. Every operation of Time.lean keeps the queue and the canonical form (Keeps). -/

namespace Sys2Proof.Machine.State

theorem setRaster_keeps {z : State} {s : State} {m : Nat} {r : Raster} (hk : Keeps z s) :
    Keeps z (setRaster s m r) := by
  unfold setRaster
  repeat' first
    | with_reducible exact hk
    | with_reducible apply put_keeps
    | (with_reducible refine Keeps.lit ?_; first | with_reducible exact hk | with_reducible apply put_keeps)

end Sys2Proof.Machine.State
end

