-- ==== Sys2Proof/Laws/KeepsTimebase.lean ====
section
/-! SUPPORT. Every operation of Timebase.lean keeps the queue and the canonical form (Keeps). -/

namespace Sys2Proof.Machine.State

theorem tbRaise_keeps {z : State} {s : State} {flags : List Nat} (hk : Keeps z s) :
    Keeps z (tbRaise s flags) := by
  unfold tbRaise
  repeat' first
    | with_reducible exact hk
    | with_reducible apply raiseAll_keeps

theorem noteIncr_keeps {z : State} {s : State} {n : Nat} (hk : Keeps z s) :
    Keeps z (noteIncr s n) := by
  unfold noteIncr
  repeat' first
    | with_reducible exact hk
    | extract_lets
    | with_reducible apply setTime_keeps
    | (with_reducible refine Keeps.lit ?_; first | with_reducible exact hk | with_reducible apply setTime_keeps)
    | with_reducible apply Keeps.ite
    | split
    | dsimp +zetaDelta only

theorem moveTime_keeps {z : State} {s : State} {m : Nat} {op : TimeOp} (hk : Keeps z s) :
    Keeps z (moveTime s m op) := by
  unfold moveTime
  repeat' first
    | with_reducible exact hk
    | with_reducible apply setTime_keeps
    | with_reducible apply tbRaise_keeps
    | (with_reducible refine Keeps.lit ?_; first | with_reducible exact hk | with_reducible apply setTime_keeps | with_reducible apply tbRaise_keeps)

theorem tbIncrWrite_keeps {z s : State} {r : Req} {x : Found} {new d m : Nat}  (hk : Keeps z s) : Keeps z (tbIncrWrite r x new d m s) := by
  unfold tbIncrWrite
  repeat' first
    | with_reducible exact hk
    | extract_lets
    | with_reducible apply setReg_keeps
    | with_reducible apply noteIncr_keeps
    | with_reducible apply tbRaise_keeps
    | with_reducible apply Keeps.ite
    | split
    | dsimp +zetaDelta only

theorem tbStepWrite_keeps {z s : State} {r : Req} {x : Found} {new d m : Nat}  (hk : Keeps z s) : Keeps z (tbStepWrite r x new d m s) := by
  unfold tbStepWrite
  repeat' first
    | with_reducible exact hk
    | with_reducible apply moveTime_keeps

theorem tbSetTimeWrite_keeps {z s : State} {r : Req} {x : Found} {new d m : Nat}  (hk : Keeps z s) : Keeps z (tbSetTimeWrite r x new d m s) := by
  unfold tbSetTimeWrite
  repeat' first
    | with_reducible exact hk
    | extract_lets
    | with_reducible apply setTime_keeps
    | (with_reducible refine Keeps.lit ?_; first | with_reducible exact hk | with_reducible apply setTime_keeps)
    | dsimp +zetaDelta only

theorem tbSetNsWrite_keeps {z s : State} {r : Req} {x : Found} {new d m : Nat}  (hk : Keeps z s) : Keeps z (tbSetNsWrite r x new d m s) := by
  unfold tbSetNsWrite
  repeat' first
    | with_reducible exact hk
    | extract_lets
    | with_reducible apply moveTime_keeps
    | dsimp +zetaDelta only

theorem tbCaptureWrite_keeps {z s : State} {r : Req} {x : Found} {new d m : Nat}  (hk : Keeps z s) : Keeps z (tbCaptureWrite r x new d m s) := by
  unfold tbCaptureWrite
  repeat' first
    | with_reducible exact hk
    | extract_lets
    | with_reducible apply setF_keeps
    | dsimp +zetaDelta only

theorem refRegsLive_keeps {z : State} {s : State} (hk : Keeps z s) :
    Keeps z (refRegsLive s) := by
  unfold refRegsLive
  repeat' first
    | with_reducible exact hk
    | with_reducible apply setF_keeps

theorem refReject_keeps {z : State} {s : State} {cause : Nat} (hk : Keeps z s) :
    Keeps z (refReject s cause) := by
  unfold refReject
  repeat' first
    | with_reducible exact hk
    | extract_lets
    | with_reducible apply refRegsLive_keeps
    | with_reducible apply setF_keeps
    | with_reducible apply tbRaise_keeps
    | with_reducible apply setTime_keeps
    | (with_reducible refine Keeps.lit ?_; first | with_reducible exact hk | with_reducible apply refRegsLive_keeps | with_reducible apply setF_keeps | with_reducible apply tbRaise_keeps | with_reducible apply setTime_keeps)
    | dsimp +zetaDelta only

theorem tbRefApplyWrite_keeps {z s : State} {r : Req} {x : Found} {new d m : Nat}  (hk : Keeps z s) : Keeps z (tbRefApplyWrite r x new d m s) := by
  unfold tbRefApplyWrite
  repeat' first
    | with_reducible exact hk
    | extract_lets
    | with_reducible apply setReg_keeps
    | with_reducible apply setTime_keeps
    | with_reducible apply refReject_keeps
    | (with_reducible refine Keeps.lit ?_; first | with_reducible exact hk | with_reducible apply setReg_keeps | with_reducible apply setTime_keeps | with_reducible apply refReject_keeps)
    | with_reducible apply Keeps.ite
    | split
    | dsimp +zetaDelta only

theorem refChangeJudge_keeps {z : State} {s : State} (hk : Keeps z s) :
    Keeps z (refChangeJudge s) := by
  unfold refChangeJudge
  repeat' first
    | with_reducible exact hk
    | extract_lets
    | with_reducible apply setF_keeps
    | with_reducible apply tbRaise_keeps
    | with_reducible apply setTime_keeps
    | with_reducible apply refReject_keeps
    | (with_reducible refine Keeps.lit ?_; first | with_reducible exact hk | with_reducible apply setF_keeps | with_reducible apply tbRaise_keeps | with_reducible apply setTime_keeps | with_reducible apply refReject_keeps)
    | with_reducible apply Keeps.ite
    | split
    | dsimp +zetaDelta only

theorem acquireMove_keeps {z : State} {s : State} {offset : Int} (hk : Keeps z s) :
    Keeps z (acquireMove s offset) := by
  unfold acquireMove
  repeat' first
    | with_reducible exact hk
    | with_reducible apply setTime_keeps
    | with_reducible apply moveTime_keeps
    | (with_reducible refine Keeps.lit ?_; first | with_reducible exact hk | with_reducible apply setTime_keeps | with_reducible apply moveTime_keeps)
    | with_reducible apply Keeps.ite
    | split
    | with_reducible refine Keeps.snd ?_ (by assumption)
    | dsimp only

theorem steer_keeps {z : State} {s : State} {near : Bool} (hk : Keeps z s) :
    Keeps z (steer s near) := by
  unfold steer
  repeat' first
    | with_reducible exact hk
    | extract_lets
    | with_reducible apply setTime_keeps
    | with_reducible refine Keeps.snd (takeFree_keeps ?_) (by assumption)
    | with_reducible apply takeFree_keeps
    | with_reducible apply setF_keeps
    | with_reducible apply noteIncr_keeps
    | (with_reducible refine Keeps.lit ?_; first | with_reducible exact hk | with_reducible apply setTime_keeps | with_reducible refine Keeps.snd (takeFree_keeps ?_) (by assumption) | with_reducible apply takeFree_keeps | with_reducible apply setF_keeps | with_reducible apply noteIncr_keeps)
    | with_reducible apply Keeps.ite
    | split
    | with_reducible refine Keeps.snd ?_ (by assumption)
    | dsimp only
    | dsimp +zetaDelta only

theorem acquire_keeps {z : State} {s : State} {q : Qualified} (hk : Keeps z s) :
    Keeps z (acquire s q) := by
  unfold acquire
  repeat' first
    | with_reducible exact hk
    | extract_lets
    | with_reducible apply setF_keeps
    | with_reducible apply setReg_keeps
    | with_reducible apply tbRaise_keeps
    | with_reducible apply setTime_keeps
    | with_reducible apply noteIncr_keeps
    | with_reducible apply acquireMove_keeps
    | (with_reducible refine Keeps.lit ?_; first | with_reducible exact hk | with_reducible apply setF_keeps | with_reducible apply setReg_keeps | with_reducible apply tbRaise_keeps | with_reducible apply setTime_keeps | with_reducible apply noteIncr_keeps | with_reducible apply acquireMove_keeps)
    | with_reducible apply Keeps.ite
    | split
    | dsimp +zetaDelta only

theorem sourceQualified_keeps {z : State} {s : State} {q : Qualified} (hk : Keeps z s) :
    Keeps z (sourceQualified s q) := by
  unfold sourceQualified
  repeat' first
    | with_reducible exact hk
    | extract_lets
    | with_reducible apply setTime_keeps
    | with_reducible apply acquire_keeps
    | with_reducible apply setF_keeps
    | with_reducible apply setReg_keeps
    | (with_reducible refine Keeps.lit ?_; first | with_reducible exact hk | with_reducible apply setTime_keeps | with_reducible apply acquire_keeps | with_reducible apply setF_keeps | with_reducible apply setReg_keeps)
    | with_reducible apply Keeps.ite
    | split
    | dsimp +zetaDelta only

theorem sourceNow_keeps {z : State} {s : State} {q : Qualified} (hk : Keeps z s) :
    Keeps z (sourceNow s q).2 := by
  unfold sourceNow
  repeat' first
    | with_reducible exact hk
    | extract_lets
    | with_reducible refine Keeps.snd (takeFree_keeps ?_) (by assumption)
    | with_reducible apply takeFree_keeps
    | (with_reducible refine Keeps.lit ?_; first | with_reducible exact hk | with_reducible refine Keeps.snd (takeFree_keeps ?_) (by assumption) | with_reducible apply takeFree_keeps)
    | with_reducible apply Keeps.ite
    | split
    | with_reducible refine Keeps.snd ?_ (by assumption)
    | dsimp only
    | dsimp +zetaDelta only

theorem holdMean_keeps {z : State} {s : State} (hk : Keeps z s) :
    Keeps z (holdMean s) := by
  unfold holdMean
  repeat' first
    | with_reducible exact hk
    | with_reducible apply setF_keeps
    | with_reducible apply Keeps.ite
    | split

theorem selectedLost_keeps {z : State} {s : State} (hk : Keeps z s) :
    Keeps z (selectedLost s) := by
  unfold selectedLost
  repeat' first
    | with_reducible exact hk
    | extract_lets
    | with_reducible refine Keeps.snd (sourceNow_keeps ?_) (by assumption)
    | with_reducible apply sourceNow_keeps
    | with_reducible apply tbRaise_keeps
    | with_reducible apply acquire_keeps
    | with_reducible apply holdMean_keeps
    | with_reducible apply setF_keeps
    | with_reducible apply setTime_keeps
    | (with_reducible refine Keeps.lit ?_; first | with_reducible exact hk | with_reducible refine Keeps.snd (sourceNow_keeps ?_) (by assumption) | with_reducible apply sourceNow_keeps | with_reducible apply tbRaise_keeps | with_reducible apply acquire_keeps | with_reducible apply holdMean_keeps | with_reducible apply setF_keeps | with_reducible apply setTime_keeps)
    | with_reducible apply Keeps.ite
    | split
    | with_reducible refine Keeps.snd ?_ (by assumption)
    | dsimp only
    | dsimp +zetaDelta only

theorem sourceLost_keeps {z : State} {s : State} {x : TimeSource} (hk : Keeps z s) :
    Keeps z (sourceLost s x) := by
  unfold sourceLost
  repeat' first
    | with_reducible exact hk
    | extract_lets
    | with_reducible apply setTime_keeps
    | with_reducible apply selectedLost_keeps
    | (with_reducible refine Keeps.lit ?_; first | with_reducible exact hk | with_reducible apply setTime_keeps | with_reducible apply selectedLost_keeps)
    | with_reducible apply Keeps.ite
    | split
    | dsimp +zetaDelta only

theorem reselect_keeps {z : State} {s : State} (hk : Keeps z s) :
    Keeps z (reselect s) := by
  unfold reselect
  repeat' first
    | with_reducible exact hk
    | extract_lets
    | with_reducible apply selectedLost_keeps
    | with_reducible refine Keeps.snd (sourceNow_keeps ?_) (by assumption)
    | with_reducible apply sourceNow_keeps
    | with_reducible apply acquire_keeps
    | with_reducible apply holdMean_keeps
    | with_reducible apply Keeps.ite
    | split
    | with_reducible refine Keeps.snd ?_ (by assumption)
    | dsimp only
    | dsimp +zetaDelta only

theorem sourceRevert_keeps {z : State} {s : State} {q : Qualified} (hk : Keeps z s) :
    Keeps z (sourceRevert s q) := by
  unfold sourceRevert
  repeat' first
    | with_reducible exact hk
    | extract_lets
    | with_reducible apply setTime_keeps
    | with_reducible apply acquire_keeps
    | (with_reducible refine Keeps.lit ?_; first | with_reducible exact hk | with_reducible apply setTime_keeps | with_reducible apply acquire_keeps)
    | with_reducible apply Keeps.ite
    | split
    | dsimp +zetaDelta only

theorem noteServo_keeps {z : State} {s : State} {offset : Int} {pathDelay : Nat} (hk : Keeps z s) :
    Keeps z (noteServo s offset pathDelay) := by
  unfold noteServo
  repeat' first
    | with_reducible exact hk
    | with_reducible apply setF_keeps

theorem measurement_keeps {z : State} {s : State} {offset : Int} {pathDelay : Nat} (hk : Keeps z s) :
    Keeps z (measurement s offset pathDelay) := by
  unfold measurement
  repeat' first
    | with_reducible exact hk
    | extract_lets
    | with_reducible apply noteServo_keeps
    | with_reducible apply steer_keeps
    | with_reducible apply setF_keeps
    | with_reducible apply tbRaise_keeps
    | with_reducible apply setTime_keeps
    | with_reducible apply acquireMove_keeps
    | (with_reducible refine Keeps.lit ?_; first | with_reducible exact hk | with_reducible apply noteServo_keeps | with_reducible apply steer_keeps | with_reducible apply setF_keeps | with_reducible apply tbRaise_keeps | with_reducible apply setTime_keeps | with_reducible apply acquireMove_keeps)
    | with_reducible apply Keeps.ite
    | split
    | dsimp +zetaDelta only

theorem noteOffset_keeps {z : State} {s : State} {x : TimeSource} {offset : Int} (hk : Keeps z s) :
    Keeps z (noteOffset s x offset) := by
  unfold noteOffset
  repeat' first
    | with_reducible exact hk
    | extract_lets
    | with_reducible apply setTime_keeps
    | (with_reducible refine Keeps.lit ?_; first | with_reducible exact hk | with_reducible apply setTime_keeps)
    | with_reducible apply Keeps.ite
    | split
    | dsimp +zetaDelta only

theorem refsyncBad_keeps {z : State} {s : State} (hk : Keeps z s) :
    Keeps z (refsyncBad s) := by
  unfold refsyncBad
  repeat' first
    | with_reducible exact hk
    | extract_lets
    | with_reducible apply setTime_keeps
    | with_reducible apply tbRaise_keeps
    | with_reducible apply sourceLost_keeps
    | (with_reducible refine Keeps.lit ?_; first | with_reducible exact hk | with_reducible apply setTime_keeps | with_reducible apply tbRaise_keeps | with_reducible apply sourceLost_keeps)
    | with_reducible apply Keeps.ite
    | split
    | dsimp +zetaDelta only

theorem refsyncFEdge_keeps {z : State} {s : State} (hk : Keeps z s) :
    Keeps z (refsyncFEdge s) := by
  unfold refsyncFEdge
  repeat' first
    | with_reducible exact hk
    | extract_lets
    | with_reducible apply setTime_keeps
    | with_reducible apply setF_keeps
    | with_reducible apply noteOffset_keeps
    | with_reducible apply sourceQualified_keeps
    | with_reducible apply refsyncBad_keeps
    | (with_reducible refine Keeps.lit ?_; first | with_reducible exact hk | with_reducible apply setTime_keeps | with_reducible apply setF_keeps | with_reducible apply noteOffset_keeps | with_reducible apply sourceQualified_keeps | with_reducible apply refsyncBad_keeps)
    | with_reducible apply Keeps.ite
    | split
    | dsimp +zetaDelta only

theorem refsyncLEdge_keeps {z : State} {s : State} (hk : Keeps z s) :
    Keeps z (refsyncLEdge s) := by
  unfold refsyncLEdge
  repeat' first
    | with_reducible exact hk
    | with_reducible apply setTime_keeps
    | (with_reducible refine Keeps.lit ?_; first | with_reducible exact hk | with_reducible apply setTime_keeps)

theorem ppsInEdge_keeps {z : State} {s : State} {refOk : Bool} {periodNs : Nat} (hk : Keeps z s) :
    Keeps z (ppsInEdge s refOk periodNs) := by
  unfold ppsInEdge
  repeat' first
    | with_reducible exact hk
    | extract_lets
    | with_reducible apply setTime_keeps
    | with_reducible apply noteOffset_keeps
    | with_reducible apply sourceQualified_keeps
    | (with_reducible refine Keeps.lit ?_; first | with_reducible exact hk | with_reducible apply setTime_keeps | with_reducible apply noteOffset_keeps | with_reducible apply sourceQualified_keeps)
    | with_reducible apply Keeps.ite
    | split
    | dsimp +zetaDelta only

theorem ppsLost_keeps {z : State} {s : State} (hk : Keeps z s) :
    Keeps z (ppsLost s) := by
  unfold ppsLost
  repeat' first
    | with_reducible exact hk
    | with_reducible apply setTime_keeps
    | with_reducible apply sourceLost_keeps
    | (with_reducible refine Keeps.lit ?_; first | with_reducible exact hk | with_reducible apply setTime_keeps | with_reducible apply sourceLost_keeps)

theorem refsyncLost_keeps {z : State} {s : State} (hk : Keeps z s) :
    Keeps z (refsyncLost s) := by
  unfold refsyncLost
  repeat' first
    | with_reducible exact hk
    | extract_lets
    | with_reducible apply refsyncBad_keeps
    | with_reducible apply setTime_keeps
    | (with_reducible refine Keeps.lit ?_; first | with_reducible exact hk | with_reducible apply refsyncBad_keeps | with_reducible apply setTime_keeps)
    | dsimp +zetaDelta only

theorem syncoutWrite_keeps {z s : State} {r : Req} {x : Found} {new d m : Nat}  (hk : Keeps z s) : Keeps z (syncoutWrite r x new d m s) := by
  unfold syncoutWrite
  repeat' first
    | with_reducible exact hk
    | extract_lets
    | with_reducible apply setReg_keeps
    | with_reducible apply setTime_keeps
    | (with_reducible refine Keeps.lit ?_; first | with_reducible exact hk | with_reducible apply setReg_keeps | with_reducible apply setTime_keeps)
    | with_reducible apply Keeps.ite
    | split
    | dsimp +zetaDelta only

theorem jumpTo_keeps {z : State} {s : State} {dt : Nat} (hk : Keeps z s) :
    Keeps z (jumpTo s dt) := by
  unfold jumpTo
  repeat' first
    | with_reducible exact hk
    | extract_lets
    | (with_reducible refine Keeps.lit ?_; first | with_reducible exact hk)
    | dsimp +zetaDelta only

theorem applyTimeOp_keeps {z : State} {s : State} {op : TimeOp} (hk : Keeps z s) :
    Keeps z (applyTimeOp s op) := by
  unfold applyTimeOp
  repeat' first
    | with_reducible exact hk
    | extract_lets
    | with_reducible apply jumpTo_keeps
    | with_reducible refine Keeps.snd (takeFree_keeps ?_) (by assumption)
    | with_reducible apply takeFree_keeps
    | with_reducible apply Keeps.ite
    | split
    | with_reducible refine Keeps.snd ?_ (by assumption)
    | dsimp only
    | dsimp +zetaDelta only

theorem timeTick_keeps {z : State} {s : State} (hk : Keeps z s) :
    Keeps z (timeTick s) := by
  unfold timeTick
  repeat' first
    | with_reducible exact hk
    | extract_lets
    | intro _
    | with_reducible apply setTime_keeps
    | with_reducible apply applyTimeOp_keeps
    | with_reducible apply Keeps.foldl
    | with_reducible apply Keeps.foldl_fst
    | with_reducible apply Keeps.foldl_snd
    | with_reducible refine Keeps.fst ?_ (by assumption)
    | (with_reducible refine Keeps.lit ?_; first | with_reducible exact hk | with_reducible apply setTime_keeps | with_reducible apply applyTimeOp_keeps | with_reducible apply Keeps.foldl | with_reducible apply Keeps.foldl_fst | with_reducible apply Keeps.foldl_snd | with_reducible refine Keeps.fst ?_ (by assumption))
    | (with_reducible refine Keeps.lit ?_; with_reducible exact Keeps.refl _)
    | with_reducible apply Keeps.ite
    | split
    | with_reducible refine Keeps.snd ?_ (by assumption)
    | dsimp only
    | with_reducible exact Keeps.refl _
    | dsimp +zetaDelta only

theorem syncoutTick_keeps {z : State} {s : State} {newLine : Bool} (hk : Keeps z s) :
    Keeps z (syncoutTick s newLine) := by
  unfold syncoutTick
  repeat' first
    | with_reducible exact hk
    | with_reducible apply setTime_keeps
    | (with_reducible refine Keeps.lit ?_; first | with_reducible exact hk | with_reducible apply setTime_keeps)

end Sys2Proof.Machine.State
end

