-- ==== Sys2Proof/Laws/KeepsFrames.lean ====
section
/-! SUPPORT. Every operation of Frames.lean keeps the queue and the canonical form (Keeps). -/

namespace Sys2Proof.Machine.State

theorem setPort_keeps {z : State} {s : State} {p : Nat} {x : Port} (hk : Keeps z s) :
    Keeps z (setPort s p x) := by
  unfold setPort
  repeat' first
    | with_reducible exact hk
    | with_reducible apply put_keeps
    | (with_reducible refine Keeps.lit ?_; first | with_reducible exact hk | with_reducible apply put_keeps)

theorem portRaise_keeps {z : State} {s : State} {p : Nat} {flags : List Nat} (hk : Keeps z s) :
    Keeps z (portRaise s p flags) := by
  unfold portRaise
  repeat' first
    | with_reducible exact hk
    | with_reducible apply raiseAll_keeps

theorem btlRaise_keeps {z : State} {s : State} {p : Nat} {flags : List Nat} (hk : Keeps z s) :
    Keeps z (btlRaise s p flags) := by
  unfold btlRaise
  repeat' first
    | with_reducible exact hk
    | with_reducible apply raiseAll_keeps

theorem cruRaise_keeps {z : State} {s : State} {flags : List Nat} (hk : Keeps z s) :
    Keeps z (cruRaise s flags) := by
  unfold cruRaise
  repeat' first
    | with_reducible exact hk
    | with_reducible apply raiseAll_keeps

theorem setHeld_keeps {z : State} {s : State} {p o : Nat} (hk : Keeps z s) :
    Keeps z (setHeld s p o) := by
  unfold setHeld
  repeat' first
    | with_reducible exact hk
    | extract_lets
    | with_reducible apply setF_keeps
    | with_reducible apply maxF_keeps
    | with_reducible apply cruRaise_keeps
    | with_reducible apply Keeps.ite
    | split
    | dsimp +zetaDelta only

theorem takeBillets_keeps {z : State} {s : State} {p n : Nat} (hk : Keeps z s) :
    Keeps z (takeBillets s p n) := by
  unfold takeBillets
  repeat' first
    | with_reducible exact hk
    | with_reducible apply setHeld_keeps

theorem freeBillets_keeps {z : State} {s : State} {p n : Nat} (hk : Keeps z s) :
    Keeps z (freeBillets s p n) := by
  unfold freeBillets
  repeat' first
    | with_reducible exact hk
    | with_reducible apply setHeld_keeps

theorem cruRefused_keeps {z : State} {s : State} {p : Nat} (hk : Keeps z s) :
    Keeps z (cruRefused s p) := by
  unfold cruRefused
  repeat' first
    | with_reducible exact hk
    | with_reducible apply satF_keeps
    | with_reducible apply cruRaise_keeps

theorem dropOversize_keeps {z : State} {s : State} {p q n : Nat} (hk : Keeps z s) :
    Keeps z (dropOversize s p q n) := by
  induction n generalizing s with
  | zero =>
    unfold dropOversize
    repeat' first
      | with_reducible exact hk
      | extract_lets
      | with_reducible apply setPort_keeps
      | with_reducible apply freeBillets_keeps
      | with_reducible apply satF_keeps
      | with_reducible apply portRaise_keeps
      | (with_reducible refine Keeps.lit ?_; first | with_reducible exact hk | with_reducible apply setPort_keeps | with_reducible apply freeBillets_keeps | with_reducible apply satF_keeps | with_reducible apply portRaise_keeps)
      | with_reducible apply Keeps.ite
      | split
      | dsimp +zetaDelta only
  | succ j ih =>
    unfold dropOversize
    repeat' first
      | with_reducible exact hk
      | with_reducible apply ih
      | extract_lets
      | with_reducible apply setPort_keeps
      | with_reducible apply freeBillets_keeps
      | with_reducible apply satF_keeps
      | with_reducible apply portRaise_keeps
      | (with_reducible refine Keeps.lit ?_; first | with_reducible exact hk | with_reducible apply setPort_keeps | with_reducible apply freeBillets_keeps | with_reducible apply satF_keeps | with_reducible apply portRaise_keeps)
      | with_reducible apply Keeps.ite
      | split
      | dsimp +zetaDelta only

theorem judgeQueue_keeps {z : State} {s : State} {p q : Nat} (hk : Keeps z s) :
    Keeps z (judgeQueue s p q) := by
  unfold judgeQueue
  repeat' first
    | with_reducible exact hk
    | with_reducible apply dropOversize_keeps

theorem judgeHeads_keeps {z : State} {s : State} {p : Nat} (hk : Keeps z s) :
    Keeps z (judgeHeads s p) := by
  unfold judgeHeads
  repeat' first
    | with_reducible exact hk
    | intro _
    | with_reducible apply judgeQueue_keeps
    | with_reducible apply Keeps.forN
    | with_reducible exact Keeps.refl _

theorem pushFrame_keeps {z : State} {s : State} {p q : Nat} {x : Frame} {front : Bool} (hk : Keeps z s) :
    Keeps z (pushFrame s p q x front) := by
  unfold pushFrame
  repeat' first
    | with_reducible exact hk
    | extract_lets
    | with_reducible apply setPort_keeps
    | with_reducible apply judgeQueue_keeps
    | (with_reducible refine Keeps.lit ?_; first | with_reducible exact hk | with_reducible apply setPort_keeps | with_reducible apply judgeQueue_keeps)
    | with_reducible apply Keeps.ite
    | split
    | dsimp +zetaDelta only

theorem enqueueAt_keeps {z : State} {s : State} {p q : Nat} {x : Frame} {front : Bool} (hk : Keeps z s) :
    Keeps z (enqueueAt s p q x front) := by
  unfold enqueueAt
  repeat' first
    | with_reducible exact hk
    | extract_lets
    | with_reducible apply takeBillets_keeps
    | with_reducible apply pushFrame_keeps
    | with_reducible apply cruRefused_keeps
    | with_reducible apply setPort_keeps
    | with_reducible apply satF_keeps
    | with_reducible apply portRaise_keeps
    | (with_reducible refine Keeps.lit ?_; first | with_reducible exact hk | with_reducible apply takeBillets_keeps | with_reducible apply pushFrame_keeps | with_reducible apply cruRefused_keeps | with_reducible apply setPort_keeps | with_reducible apply satF_keeps | with_reducible apply portRaise_keeps)
    | with_reducible apply Keeps.ite
    | split
    | dsimp +zetaDelta only

theorem enqueue_keeps {z : State} {s : State} {p q : Nat} {x : Frame} (hk : Keeps z s) :
    Keeps z (enqueue s p q x) := by
  unfold enqueue
  repeat' first
    | with_reducible exact hk
    | with_reducible apply enqueueAt_keeps

theorem retryFrames_keeps {z : State} {s : State} {p : Nat} (hk : Keeps z s) :
    Keeps z (retryFrames s p) := by
  unfold retryFrames
  repeat' first
    | with_reducible exact hk
    | intro _
    | with_reducible apply enqueue_keeps
    | with_reducible apply setPort_keeps
    | with_reducible apply Keeps.foldl
    | with_reducible apply Keeps.foldl_fst
    | with_reducible apply Keeps.foldl_snd
    | with_reducible refine Keeps.fst ?_ (by assumption)
    | (with_reducible refine Keeps.lit ?_; first | with_reducible exact hk | with_reducible apply enqueue_keeps | with_reducible apply setPort_keeps | with_reducible apply Keeps.foldl | with_reducible apply Keeps.foldl_fst | with_reducible apply Keeps.foldl_snd | with_reducible refine Keeps.fst ?_ (by assumption))
    | (with_reducible refine Keeps.lit ?_; with_reducible exact Keeps.refl _)
    | with_reducible exact Keeps.refl _

theorem flushPort_keeps {z : State} {s : State} {p : Nat} {cut : Bool} (hk : Keeps z s) :
    Keeps z (flushPort s p cut) := by
  unfold flushPort
  repeat' first
    | with_reducible exact hk
    | extract_lets
    | intro _
    | with_reducible apply satF_keeps
    | with_reducible apply setPort_keeps
    | with_reducible apply setF_keeps
    | with_reducible apply setHeld_keeps
    | with_reducible apply Keeps.forN
    | (with_reducible refine Keeps.lit ?_; first | with_reducible exact hk | with_reducible apply satF_keeps | with_reducible apply setPort_keeps | with_reducible apply setF_keeps | with_reducible apply setHeld_keeps | with_reducible apply Keeps.forN)
    | (with_reducible refine Keeps.lit ?_; with_reducible exact Keeps.refl _)
    | with_reducible apply Keeps.ite
    | split
    | with_reducible exact Keeps.refl _
    | dsimp +zetaDelta only

theorem slabCe_keeps {z : State} {s : State} (hk : Keeps z s) :
    Keeps z (slabCe s) := by
  unfold slabCe
  repeat' first
    | with_reducible exact hk
    | with_reducible apply satF_keeps
    | with_reducible apply raise_keeps

theorem slabUe_keeps {z : State} {s : State} {region o : Nat} (hk : Keeps z s) :
    Keeps z (slabUe s region o) := by
  unfold slabUe
  repeat' first
    | with_reducible exact hk
    | extract_lets
    | with_reducible apply satF_keeps
    | with_reducible apply setReg_keeps
    | with_reducible apply raise_keeps
    | dsimp +zetaDelta only

theorem slabUeWords_keeps {z : State} {s : State} {o n : Nat} (hk : Keeps z s) :
    Keeps z (slabUeWords s o n) := by
  unfold slabUeWords
  repeat' first
    | with_reducible exact hk
    | intro _
    | with_reducible apply slabUe_keeps
    | with_reducible apply Keeps.foldl
    | with_reducible apply Keeps.foldl_fst
    | with_reducible apply Keeps.foldl_snd
    | with_reducible refine Keeps.fst ?_ (by assumption)
    | with_reducible exact Keeps.refl _

theorem slabUeOpen_keeps {z : State} {s : State} {region : Nat} (hk : Keeps z s) :
    Keeps z (slabUeOpen s region) := by
  unfold slabUeOpen
  repeat' first
    | with_reducible exact hk
    | extract_lets
    | with_reducible refine Keeps.snd (takeFree_keeps ?_) (by assumption)
    | with_reducible apply takeFree_keeps
    | with_reducible apply slabUe_keeps
    | with_reducible refine Keeps.snd ?_ (by assumption)
    | dsimp only
    | dsimp +zetaDelta only

end Sys2Proof.Machine.State
end

