-- ==== Sys2Proof/Laws/KeepsPorts.lean ====
section
/-! SUPPORT. Every operation of Ports.lean keeps the queue and the canonical form (Keeps). -/

namespace Sys2Proof.Machine.State

theorem endTurn_keeps {z : State} {s : State} {p : Nat} (hk : Keeps z s) :
    Keeps z (endTurn s p) := by
  unfold endTurn
  repeat' first
    | with_reducible exact hk
    | extract_lets
    | with_reducible apply setF_keeps
    | with_reducible apply setPort_keeps
    | (with_reducible refine Keeps.lit ?_; first | with_reducible exact hk | with_reducible apply setF_keeps | with_reducible apply setPort_keeps)
    | with_reducible apply Keeps.ite
    | split
    | dsimp +zetaDelta only

theorem settleTurn_keeps {z : State} {s : State} {p q : Nat} (hk : Keeps z s) :
    Keeps z (settleTurn s p q) := by
  unfold settleTurn
  repeat' first
    | with_reducible exact hk
    | extract_lets
    | with_reducible apply endTurn_keeps
    | with_reducible apply Keeps.ite
    | split
    | dsimp +zetaDelta only

theorem chooseDeficit_keeps {z : State} {s : State} {p n : Nat} (hk : Keeps z s) :
    Keeps z (chooseDeficit s p n).2 := by
  induction n generalizing s with
  | zero =>
    unfold chooseDeficit
    repeat' first
      | with_reducible exact hk
      | extract_lets
      | with_reducible apply endTurn_keeps
      | with_reducible apply satF_keeps
      | with_reducible apply setPort_keeps
      | (with_reducible refine Keeps.lit ?_; first | with_reducible exact hk | with_reducible apply endTurn_keeps | with_reducible apply satF_keeps | with_reducible apply setPort_keeps)
      | with_reducible apply Keeps.ite
      | split
      | dsimp only
      | dsimp +zetaDelta only
  | succ j ih =>
    unfold chooseDeficit
    repeat' first
      | with_reducible exact hk
      | with_reducible apply ih
      | with_reducible refine Keeps.snd (ih ?_) (by assumption)
      | extract_lets
      | with_reducible apply endTurn_keeps
      | with_reducible apply satF_keeps
      | with_reducible apply setPort_keeps
      | (with_reducible refine Keeps.lit ?_; first | with_reducible exact hk | with_reducible apply endTurn_keeps | with_reducible apply satF_keeps | with_reducible apply setPort_keeps)
      | with_reducible apply Keeps.ite
      | split
      | dsimp only
      | dsimp +zetaDelta only

theorem chooseQueue_keeps {z : State} {s : State} {p : Nat} (hk : Keeps z s) :
    Keeps z (chooseQueue s p).2 := by
  unfold chooseQueue
  repeat' first
    | with_reducible exact hk
    | with_reducible refine Keeps.snd (chooseDeficit_keeps ?_) (by assumption)
    | with_reducible apply chooseDeficit_keeps
    | with_reducible apply Keeps.ite
    | split
    | dsimp only

theorem injectorPick_keeps {z : State} {s : State} {p d : Nat} (hk : Keeps z s) :
    Keeps z (injectorPick s p d).2 := by
  unfold injectorPick
  repeat' first
    | with_reducible exact hk
    | extract_lets
    | with_reducible apply setPort_keeps
    | with_reducible apply addF_keeps
    | (with_reducible refine Keeps.lit ?_; first | with_reducible exact hk | with_reducible apply setPort_keeps | with_reducible apply addF_keeps)
    | with_reducible apply Keeps.ite
    | split
    | with_reducible refine Keeps.snd ?_ (by assumption)
    | dsimp only
    | dsimp +zetaDelta only

theorem inject_keeps {z : State} {s : State} {p d ty q : Nat} (hk : Keeps z s) :
    Keeps z (inject s p d ty q).2 := by
  unfold inject
  repeat' first
    | with_reducible exact hk
    | extract_lets
    | with_reducible refine Keeps.snd (injectorPick_keeps ?_) (by assumption)
    | with_reducible apply injectorPick_keeps
    | with_reducible apply Keeps.ite
    | split
    | with_reducible refine Keeps.snd ?_ (by assumption)
    | dsimp only
    | dsimp +zetaDelta only

theorem charge_keeps {z : State} {s : State} {p q n : Nat} (hk : Keeps z s) :
    Keeps z (charge s p q n) := by
  unfold charge
  repeat' first
    | with_reducible exact hk
    | extract_lets
    | with_reducible apply setPort_keeps
    | (with_reducible refine Keeps.lit ?_; first | with_reducible exact hk | with_reducible apply setPort_keeps)
    | with_reducible apply Keeps.ite
    | split
    | dsimp +zetaDelta only

theorem popFrame_keeps {z : State} {s : State} {p q i : Nat} (hk : Keeps z s) :
    Keeps z (popFrame s p q i) := by
  unfold popFrame
  repeat' first
    | with_reducible exact hk
    | extract_lets
    | with_reducible apply setPort_keeps
    | with_reducible apply judgeQueue_keeps
    | (with_reducible refine Keeps.lit ?_; first | with_reducible exact hk | with_reducible apply setPort_keeps | with_reducible apply judgeQueue_keeps)
    | dsimp +zetaDelta only

theorem discardDown_keeps {z : State} {s : State} {p q : Nat} {x : Frame} (hk : Keeps z s) :
    Keeps z (discardDown s p q x) := by
  unfold discardDown
  repeat' first
    | with_reducible exact hk
    | extract_lets
    | with_reducible apply freeBillets_keeps
    | with_reducible apply satF_keeps
    | with_reducible apply portRaise_keeps
    | dsimp +zetaDelta only

theorem stampOut_keeps {z : State} {s : State} {p : Nat} {msg : List Byte} (hk : Keeps z s) :
    Keeps z (stampOut s p msg) := by
  unfold stampOut
  repeat' first
    | with_reducible exact hk
    | extract_lets
    | with_reducible apply setTime_keeps
    | (with_reducible refine Keeps.lit ?_; first | with_reducible exact hk | with_reducible apply setTime_keeps)
    | with_reducible apply Keeps.ite
    | split
    | dsimp +zetaDelta only

theorem startFrame_keeps {z : State} {s : State} {p q : Nat} {x0 : Frame} {charged : Bool} {act : Option Nat} {billet : Ecc} (hk : Keeps z s) :
    Keeps z (startFrame s p q x0 charged act billet) := by
  unfold startFrame
  repeat' first
    | with_reducible exact hk
    | extract_lets
    | with_reducible apply charge_keeps
    | with_reducible apply addF_keeps
    | with_reducible apply setPort_keeps
    | with_reducible apply stampOut_keeps
    | with_reducible apply slabCe_keeps
    | with_reducible apply slabUeOpen_keeps
    | with_reducible apply portRaise_keeps
    | with_reducible apply cruRaise_keeps
    | (with_reducible refine Keeps.lit ?_; first | with_reducible exact hk | with_reducible apply charge_keeps | with_reducible apply addF_keeps | with_reducible apply setPort_keeps | with_reducible apply stampOut_keeps | with_reducible apply slabCe_keeps | with_reducible apply slabUeOpen_keeps | with_reducible apply portRaise_keeps | with_reducible apply cruRaise_keeps)
    | with_reducible apply Keeps.ite
    | split
    | dsimp +zetaDelta only

theorem launch_keeps {z : State} {s : State} {p q i : Nat} {x : Frame} {billet : Ecc} (hk : Keeps z s) :
    Keeps z (launch s p q i x billet) := by
  unfold launch
  repeat' first
    | with_reducible exact hk
    | extract_lets
    | with_reducible refine Keeps.snd (inject_keeps ?_) (by assumption)
    | with_reducible apply inject_keeps
    | with_reducible apply popFrame_keeps
    | with_reducible apply settleTurn_keeps
    | with_reducible apply freeBillets_keeps
    | with_reducible apply satF_keeps
    | with_reducible apply setPort_keeps
    | with_reducible apply setF_keeps
    | with_reducible apply startFrame_keeps
    | (with_reducible refine Keeps.lit ?_; first | with_reducible exact hk | with_reducible refine Keeps.snd (inject_keeps ?_) (by assumption) | with_reducible apply inject_keeps | with_reducible apply popFrame_keeps | with_reducible apply settleTurn_keeps | with_reducible apply freeBillets_keeps | with_reducible apply satF_keeps | with_reducible apply setPort_keeps | with_reducible apply setF_keeps | with_reducible apply startFrame_keeps)
    | with_reducible apply Keeps.ite
    | split
    | with_reducible refine Keeps.snd ?_ (by assumption)
    | dsimp only
    | dsimp +zetaDelta only

theorem launchDue_keeps {z : State} {s : State} {p : Nat} {x : Frame} {rest : List Frame} {billet : Ecc} (hk : Keeps z s) :
    Keeps z (launchDue s p x rest billet) := by
  unfold launchDue
  repeat' first
    | with_reducible exact hk
    | extract_lets
    | with_reducible apply setPort_keeps
    | with_reducible refine Keeps.snd (inject_keeps ?_) (by assumption)
    | with_reducible apply inject_keeps
    | with_reducible apply freeBillets_keeps
    | with_reducible apply satF_keeps
    | with_reducible apply pushFrame_keeps
    | with_reducible apply startFrame_keeps
    | (with_reducible refine Keeps.lit ?_; first | with_reducible exact hk | with_reducible apply setPort_keeps | with_reducible refine Keeps.snd (inject_keeps ?_) (by assumption) | with_reducible apply inject_keeps | with_reducible apply freeBillets_keeps | with_reducible apply satF_keeps | with_reducible apply pushFrame_keeps | with_reducible apply startFrame_keeps)
    | with_reducible apply Keeps.ite
    | split
    | with_reducible refine Keeps.snd ?_ (by assumption)
    | dsimp only
    | dsimp +zetaDelta only

theorem portTxStart_keeps {z : State} {s : State} {p : Nat} {billet : Ecc} (hk : Keeps z s) :
    Keeps z (portTxStart s p billet) := by
  unfold portTxStart
  repeat' first
    | with_reducible exact hk
    | extract_lets
    | with_reducible apply judgeHeads_keeps
    | with_reducible apply launchDue_keeps
    | with_reducible apply setPort_keeps
    | with_reducible apply discardDown_keeps
    | with_reducible refine Keeps.snd (chooseQueue_keeps ?_) (by assumption)
    | with_reducible apply chooseQueue_keeps
    | with_reducible apply launch_keeps
    | with_reducible apply popFrame_keeps
    | with_reducible apply setF_keeps
    | with_reducible apply settleTurn_keeps
    | (with_reducible refine Keeps.lit ?_; first | with_reducible exact hk | with_reducible apply judgeHeads_keeps | with_reducible apply launchDue_keeps | with_reducible apply setPort_keeps | with_reducible apply discardDown_keeps | with_reducible refine Keeps.snd (chooseQueue_keeps ?_) (by assumption) | with_reducible apply chooseQueue_keeps | with_reducible apply launch_keeps | with_reducible apply popFrame_keeps | with_reducible apply setF_keeps | with_reducible apply settleTurn_keeps)
    | with_reducible apply Keeps.ite
    | split
    | with_reducible refine Keeps.snd ?_ (by assumption)
    | dsimp only
    | dsimp +zetaDelta only

theorem portTxComplete_keeps {z : State} {s : State} {p : Nat} (hk : Keeps z s) :
    Keeps z (portTxComplete s p) := by
  unfold portTxComplete
  repeat' first
    | with_reducible exact hk
    | extract_lets
    | with_reducible apply setPort_keeps
    | with_reducible apply freeBillets_keeps
    | with_reducible apply addF_keeps
    | with_reducible apply satF_keeps
    | (with_reducible refine Keeps.lit ?_; first | with_reducible exact hk | with_reducible apply setPort_keeps | with_reducible apply freeBillets_keeps | with_reducible apply addF_keeps | with_reducible apply satF_keeps)
    | with_reducible apply Keeps.ite
    | split
    | dsimp +zetaDelta only

theorem deliver_keeps {z : State} {s : State} {p : Nat} {x : RxFrame} (hk : Keeps z s) :
    Keeps z (deliver s p x) := by
  unfold deliver
  repeat' first
    | with_reducible exact hk
    | with_reducible apply setPort_keeps
    | (with_reducible refine Keeps.lit ?_; first | with_reducible exact hk | with_reducible apply setPort_keeps)

theorem passRxHeld_keeps {z : State} {s : State} {p : Nat} (hk : Keeps z s) :
    Keeps z (passRxHeld s p) := by
  unfold passRxHeld
  repeat' first
    | with_reducible exact hk
    | extract_lets
    | intro _
    | with_reducible apply setPort_keeps
    | with_reducible apply deliver_keeps
    | with_reducible apply Keeps.foldl
    | with_reducible apply Keeps.foldl_fst
    | with_reducible apply Keeps.foldl_snd
    | with_reducible refine Keeps.fst ?_ (by assumption)
    | (with_reducible refine Keeps.lit ?_; first | with_reducible exact hk | with_reducible apply setPort_keeps | with_reducible apply deliver_keeps | with_reducible apply Keeps.foldl | with_reducible apply Keeps.foldl_fst | with_reducible apply Keeps.foldl_snd | with_reducible refine Keeps.fst ?_ (by assumption))
    | (with_reducible refine Keeps.lit ?_; with_reducible exact Keeps.refl _)
    | with_reducible exact Keeps.refl _
    | dsimp +zetaDelta only

theorem rxInjected_keeps {z : State} {s : State} {p : Nat} {x : RxFrame} {act : Option Nat} (hk : Keeps z s) :
    Keeps z (rxInjected s p x act) := by
  unfold rxInjected
  repeat' first
    | with_reducible exact hk
    | extract_lets
    | with_reducible apply freeBillets_keeps
    | with_reducible apply deliver_keeps
    | with_reducible apply passRxHeld_keeps
    | with_reducible apply setPort_keeps
    | (with_reducible refine Keeps.lit ?_; first | with_reducible exact hk | with_reducible apply freeBillets_keeps | with_reducible apply deliver_keeps | with_reducible apply passRxHeld_keeps | with_reducible apply setPort_keeps)
    | with_reducible apply Keeps.ite
    | split
    | dsimp +zetaDelta only

theorem takeOneByOne_keeps {z : State} {s : State} {p n : Nat} (hk : Keeps z s) :
    Keeps z (takeOneByOne s p n).2 := by
  induction n generalizing s with
  | zero =>
    unfold takeOneByOne
    repeat' first
      | with_reducible exact hk
      | extract_lets
      | with_reducible apply takeBillets_keeps
      | with_reducible apply Keeps.ite
      | split
      | with_reducible refine Keeps.snd ?_ (by assumption)
      | dsimp only
      | dsimp +zetaDelta only
  | succ j ih =>
    unfold takeOneByOne
    repeat' first
      | with_reducible exact hk
      | with_reducible apply ih
      | with_reducible refine Keeps.snd (ih ?_) (by assumption)
      | extract_lets
      | with_reducible apply takeBillets_keeps
      | with_reducible apply Keeps.ite
      | split
      | with_reducible refine Keeps.snd ?_ (by assumption)
      | dsimp only
      | dsimp +zetaDelta only

theorem holdBad_keeps {z : State} {s : State} {p n : Nat} (hk : Keeps z s) :
    Keeps z (holdBad s p n) := by
  unfold holdBad
  repeat' first
    | with_reducible exact hk
    | with_reducible apply setPort_keeps
    | (with_reducible refine Keeps.lit ?_; first | with_reducible exact hk | with_reducible apply setPort_keeps)

theorem freeBad_keeps {z : State} {s : State} {p : Nat} (hk : Keeps z s) :
    Keeps z (freeBad s p) := by
  unfold freeBad
  repeat' first
    | with_reducible exact hk
    | extract_lets
    | with_reducible apply setPort_keeps
    | with_reducible apply freeBillets_keeps
    | (with_reducible refine Keeps.lit ?_; first | with_reducible exact hk | with_reducible apply setPort_keeps | with_reducible apply freeBillets_keeps)
    | with_reducible apply Keeps.ite
    | split
    | dsimp +zetaDelta only

theorem portRxFrame_keeps {z : State} {s : State} {p : Nat} {frame : List Byte} {fcsOk : Bool} {billet : Ecc} (hk : Keeps z s) :
    Keeps z (portRxFrame s p frame fcsOk billet) := by
  unfold portRxFrame
  repeat' first
    | with_reducible exact hk
    | extract_lets
    | with_reducible refine Keeps.snd (inject_keeps ?_) (by assumption)
    | with_reducible apply inject_keeps
    | with_reducible refine Keeps.snd (takeOneByOne_keeps ?_) (by assumption)
    | with_reducible apply takeOneByOne_keeps
    | with_reducible apply freeBillets_keeps
    | with_reducible apply cruRefused_keeps
    | with_reducible apply holdBad_keeps
    | with_reducible apply satF_keeps
    | with_reducible apply addF_keeps
    | with_reducible apply deliver_keeps
    | with_reducible apply slabUeOpen_keeps
    | with_reducible apply portRaise_keeps
    | with_reducible apply cruRaise_keeps
    | with_reducible apply rxInjected_keeps
    | with_reducible apply slabCe_keeps
    | (with_reducible refine Keeps.lit ?_; first | with_reducible exact hk | with_reducible refine Keeps.snd (inject_keeps ?_) (by assumption) | with_reducible apply inject_keeps | with_reducible refine Keeps.snd (takeOneByOne_keeps ?_) (by assumption) | with_reducible apply takeOneByOne_keeps | with_reducible apply freeBillets_keeps | with_reducible apply cruRefused_keeps | with_reducible apply holdBad_keeps | with_reducible apply satF_keeps | with_reducible apply addF_keeps | with_reducible apply deliver_keeps | with_reducible apply slabUeOpen_keeps | with_reducible apply portRaise_keeps | with_reducible apply cruRaise_keeps | with_reducible apply rxInjected_keeps | with_reducible apply slabCe_keeps)
    | with_reducible apply Keeps.ite
    | split
    | with_reducible refine Keeps.snd ?_ (by assumption)
    | dsimp only
    | dsimp +zetaDelta only

theorem rxRemove_keeps {z : State} {s : State} {p : Nat} {x : RxFrame} (hk : Keeps z s) :
    Keeps z (rxRemove s p x) := by
  unfold rxRemove
  repeat' first
    | with_reducible exact hk
    | with_reducible apply setPort_keeps
    | (with_reducible refine Keeps.lit ?_; first | with_reducible exact hk | with_reducible apply setPort_keeps)

theorem takeRx_keeps {z : State} {s : State} {p : Nat} {frame : List Byte} (hk : Keeps z s) :
    Keeps z (takeRx s p frame) := by
  unfold takeRx
  repeat' first
    | with_reducible exact hk
    | extract_lets
    | with_reducible apply rxRemove_keeps
    | with_reducible apply freeBillets_keeps
    | with_reducible apply Keeps.ite
    | split
    | dsimp +zetaDelta only

theorem rxTakeOut_keeps {z : State} {s : State} {p : Nat} {frame : List Byte} (hk : Keeps z s) :
    Keeps z (rxTakeOut s p frame).2 := by
  unfold rxTakeOut
  repeat' first
    | with_reducible exact hk
    | with_reducible apply rxRemove_keeps
    | with_reducible apply Keeps.ite
    | split
    | dsimp only

theorem askLastBillet_keeps {z : State} {s : State} {p : Nat} {frame : List Byte} (hk : Keeps z s) :
    Keeps z (askLastBillet s p frame) := by
  unfold askLastBillet
  repeat' first
    | with_reducible exact hk
    | extract_lets
    | with_reducible apply setPort_keeps
    | with_reducible apply takeBillets_keeps
    | with_reducible apply freeBillets_keeps
    | with_reducible apply cruRefused_keeps
    | (with_reducible refine Keeps.lit ?_; first | with_reducible exact hk | with_reducible apply setPort_keeps | with_reducible apply takeBillets_keeps | with_reducible apply freeBillets_keeps | with_reducible apply cruRefused_keeps)
    | with_reducible apply Keeps.ite
    | split
    | dsimp +zetaDelta only

theorem fiReorderRelease_keeps {z : State} {s : State} {p : Nat} (hk : Keeps z s) :
    Keeps z (fiReorderRelease s p) := by
  unfold fiReorderRelease
  repeat' first
    | with_reducible exact hk
    | extract_lets
    | with_reducible apply setPort_keeps
    | with_reducible apply deliver_keeps
    | (with_reducible refine Keeps.lit ?_; first | with_reducible exact hk | with_reducible apply setPort_keeps | with_reducible apply deliver_keeps)
    | with_reducible apply Keeps.ite
    | split
    | dsimp +zetaDelta only

theorem setLink_keeps {z : State} {s : State} {p : Nat} {b : LinkBits} (hk : Keeps z s) :
    Keeps z (setLink s p b) := by
  unfold setLink
  repeat' first
    | with_reducible exact hk
    | extract_lets
    | with_reducible apply setF_keeps
    | with_reducible apply satF_keeps
    | with_reducible apply portRaise_keeps
    | with_reducible apply Keeps.ite
    | split
    | dsimp +zetaDelta only

theorem relink_keeps {z : State} {s : State} {p : Nat} (hk : Keeps z s) :
    Keeps z (relink s p) := by
  unfold relink
  repeat' first
    | with_reducible exact hk
    | with_reducible apply setLink_keeps

theorem dropLink_keeps {z : State} {s : State} {p : Nat} (hk : Keeps z s) :
    Keeps z (dropLink s p) := by
  unfold dropLink
  repeat' first
    | with_reducible exact hk
    | with_reducible apply setLink_keeps

theorem refclkChange_keeps {z : State} {s : State} {i : Nat} {present : Bool} (hk : Keeps z s) :
    Keeps z (refclkChange s i present) := by
  unfold refclkChange
  repeat' first
    | with_reducible exact hk
    | extract_lets
    | intro _
    | with_reducible apply setF_keeps
    | with_reducible apply dropLink_keeps
    | with_reducible apply raise_keeps
    | with_reducible apply Keeps.forN
    | with_reducible apply Keeps.ite
    | split
    | with_reducible exact Keeps.refl _
    | dsimp +zetaDelta only

theorem laneCfgWrite_keeps {z s : State} {r : Req} {x : Found} {new d m : Nat}  (hk : Keeps z s) : Keeps z (laneCfgWrite r x new d m s) := by
  unfold laneCfgWrite
  repeat' first
    | with_reducible exact hk
    | extract_lets
    | with_reducible apply setReg_keeps
    | with_reducible apply dropLink_keeps
    | with_reducible apply relink_keeps
    | with_reducible apply Keeps.ite
    | split
    | dsimp +zetaDelta only

theorem cfgRefused_keeps {z : State} {s : State} {p : Nat} (hk : Keeps z s) :
    Keeps z (cfgRefused s p) := by
  unfold cfgRefused
  repeat' first
    | with_reducible exact hk
    | with_reducible apply portRaise_keeps

theorem queueShapeWrite_keeps {z s : State} {r : Req} {x : Found} {new d m : Nat}  (hk : Keeps z s) : Keeps z (queueShapeWrite r x new d m s) := by
  unfold queueShapeWrite
  repeat' first
    | with_reducible exact hk
    | extract_lets
    | with_reducible apply setReg_keeps
    | with_reducible apply cfgRefused_keeps
    | with_reducible apply setPort_keeps
    | (with_reducible refine Keeps.lit ?_; first | with_reducible exact hk | with_reducible apply setReg_keeps | with_reducible apply cfgRefused_keeps | with_reducible apply setPort_keeps)
    | with_reducible apply Keeps.ite
    | split
    | dsimp +zetaDelta only

theorem queueQuantumWrite_keeps {z s : State} {r : Req} {x : Found} {new d m : Nat}  (hk : Keeps z s) : Keeps z (queueQuantumWrite r x new d m s) := by
  unfold queueQuantumWrite
  repeat' first
    | with_reducible exact hk
    | with_reducible apply cfgRefused_keeps
    | with_reducible apply setReg_keeps
    | with_reducible apply Keeps.ite
    | split

theorem bankInForce_keeps {z : State} {s : State} {p b : Nat} (hk : Keeps z s) :
    Keeps z (bankInForce s p b) := by
  unfold bankInForce
  repeat' first
    | with_reducible exact hk
    | extract_lets
    | with_reducible apply setPort_keeps
    | (with_reducible refine Keeps.lit ?_; first | with_reducible exact hk | with_reducible apply setPort_keeps)
    | dsimp +zetaDelta only

theorem switched_keeps {z : State} {s : State} {p b : Nat} {flag : Bool} (hk : Keeps z s) :
    Keeps z (switched s p b flag) := by
  unfold switched
  repeat' first
    | with_reducible exact hk
    | extract_lets
    | with_reducible apply bankInForce_keeps
    | with_reducible apply setF_keeps
    | with_reducible apply addF_keeps
    | with_reducible apply portRaise_keeps
    | with_reducible apply Keeps.ite
    | split
    | dsimp +zetaDelta only

theorem gateSwitchWrite_keeps {z s : State} {r : Req} {x : Found} {new d m : Nat}  (hk : Keeps z s) : Keeps z (gateSwitchWrite r x new d m s) := by
  unfold gateSwitchWrite
  repeat' first
    | with_reducible exact hk
    | extract_lets
    | with_reducible apply portRaise_keeps
    | with_reducible apply setPort_keeps
    | with_reducible apply setF_keeps
    | with_reducible apply switched_keeps
    | (with_reducible refine Keeps.lit ?_; first | with_reducible exact hk | with_reducible apply portRaise_keeps | with_reducible apply setPort_keeps | with_reducible apply setF_keeps | with_reducible apply switched_keeps)
    | with_reducible apply Keeps.ite
    | split
    | dsimp +zetaDelta only

theorem gateCtrlWrite_keeps {z s : State} {r : Req} {x : Found} {new d m : Nat}  (hk : Keeps z s) : Keeps z (gateCtrlWrite r x new d m s) := by
  unfold gateCtrlWrite
  repeat' first
    | with_reducible exact hk
    | extract_lets
    | with_reducible apply setReg_keeps
    | with_reducible apply switched_keeps
    | with_reducible apply bankInForce_keeps
    | with_reducible apply setPort_keeps
    | with_reducible apply setF_keeps
    | with_reducible apply portRaise_keeps
    | (with_reducible refine Keeps.lit ?_; first | with_reducible exact hk | with_reducible apply setReg_keeps | with_reducible apply switched_keeps | with_reducible apply bankInForce_keeps | with_reducible apply setPort_keeps | with_reducible apply setF_keeps | with_reducible apply portRaise_keeps)
    | with_reducible apply Keeps.ite
    | split
    | dsimp +zetaDelta only

theorem gateTimeWrite_keeps {z s : State} {r : Req} {x : Found} {new d m : Nat}  (hk : Keeps z s) : Keeps z (gateTimeWrite r x new d m s) := by
  unfold gateTimeWrite
  repeat' first
    | with_reducible exact hk
    | extract_lets
    | with_reducible apply setReg_keeps
    | with_reducible apply bankInForce_keeps
    | with_reducible apply Keeps.ite
    | split
    | dsimp +zetaDelta only

theorem gateCycleStart_keeps {z : State} {s : State} {p : Nat} (hk : Keeps z s) :
    Keeps z (gateCycleStart s p) := by
  unfold gateCycleStart
  repeat' first
    | with_reducible exact hk
    | extract_lets
    | with_reducible apply switched_keeps
    | with_reducible apply setPort_keeps
    | with_reducible apply setF_keeps
    | with_reducible apply judgeHeads_keeps
    | (with_reducible refine Keeps.lit ?_; first | with_reducible exact hk | with_reducible apply switched_keeps | with_reducible apply setPort_keeps | with_reducible apply setF_keeps | with_reducible apply judgeHeads_keeps)
    | with_reducible apply Keeps.ite
    | split
    | dsimp +zetaDelta only

theorem gateEntryEnd_keeps {z : State} {s : State} {p : Nat} (hk : Keeps z s) :
    Keeps z (gateEntryEnd s p) := by
  unfold gateEntryEnd
  repeat' first
    | with_reducible exact hk
    | extract_lets
    | with_reducible apply setPort_keeps
    | with_reducible apply setF_keeps
    | (with_reducible refine Keeps.lit ?_; first | with_reducible exact hk | with_reducible apply setPort_keeps | with_reducible apply setF_keeps)
    | with_reducible apply Keeps.ite
    | split
    | dsimp +zetaDelta only

theorem traceDrain_keeps {z : State} {s : State} {p : Nat} (hk : Keeps z s) :
    Keeps z (traceDrain s p) := by
  unfold traceDrain
  repeat' first
    | with_reducible exact hk
    | intro _
    | with_reducible apply setPort_keeps
    | with_reducible apply putDdr_keeps
    | with_reducible apply request_keeps
    | with_reducible apply Keeps.forN
    | (with_reducible refine Keeps.lit ?_; first | with_reducible exact hk | with_reducible apply setPort_keeps | with_reducible apply putDdr_keeps | with_reducible apply request_keeps | with_reducible apply Keeps.forN)
    | (with_reducible refine Keeps.lit ?_; with_reducible exact Keeps.refl _)
    | with_reducible apply Keeps.ite
    | split
    | with_reducible exact Keeps.refl _

theorem queueSample_keeps {z : State} {s : State} {p : Nat} (hk : Keeps z s) :
    Keeps z (queueSample s p) := by
  unfold queueSample
  repeat' first
    | with_reducible exact hk
    | extract_lets
    | intro _
    | with_reducible apply setF_keeps
    | with_reducible apply maxF_keeps
    | with_reducible apply setPort_keeps
    | with_reducible apply addF_keeps
    | with_reducible apply traceDrain_keeps
    | with_reducible apply portRaise_keeps
    | with_reducible apply Keeps.forN
    | (with_reducible refine Keeps.lit ?_; first | with_reducible exact hk | with_reducible apply setF_keeps | with_reducible apply maxF_keeps | with_reducible apply setPort_keeps | with_reducible apply addF_keeps | with_reducible apply traceDrain_keeps | with_reducible apply portRaise_keeps | with_reducible apply Keeps.forN)
    | (with_reducible refine Keeps.lit ?_; with_reducible exact Keeps.refl _)
    | with_reducible apply Keeps.ite
    | split
    | with_reducible refine Keeps.snd ?_ (by assumption)
    | dsimp only
    | with_reducible exact Keeps.refl _
    | dsimp +zetaDelta only

theorem portSampleRestart_keeps {z s : State} {r : Req} {x : Found} {new d m : Nat}  (hk : Keeps z s) : Keeps z (portSampleRestart r x new d m s) := by
  unfold portSampleRestart
  repeat' first
    | with_reducible exact hk
    | intro _
    | with_reducible apply setReg_keeps
    | with_reducible apply Keeps.forN
    | with_reducible exact Keeps.refl _

theorem portSampleCfgWrite_keeps {z s : State} {r : Req} {x : Found} {new d m : Nat}  (hk : Keeps z s) : Keeps z (portSampleCfgWrite r x new d m s) := by
  unfold portSampleCfgWrite
  repeat' first
    | with_reducible exact hk
    | extract_lets
    | with_reducible apply cfgRefused_keeps
    | with_reducible apply setReg_keeps
    | with_reducible apply setPort_keeps
    | (with_reducible refine Keeps.lit ?_; first | with_reducible exact hk | with_reducible apply cfgRefused_keeps | with_reducible apply setReg_keeps | with_reducible apply setPort_keeps)
    | with_reducible apply Keeps.ite
    | split
    | dsimp +zetaDelta only

theorem fiCfgWrite_keeps {z s : State} {r : Req} {x : Found} {new d m : Nat}  (hk : Keeps z s) : Keeps z (fiCfgWrite r x new d m s) := by
  unfold fiCfgWrite
  repeat' first
    | with_reducible exact hk
    | extract_lets
    | with_reducible apply cfgRefused_keeps
    | with_reducible apply setReg_keeps
    | with_reducible apply setPort_keeps
    | (with_reducible refine Keeps.lit ?_; first | with_reducible exact hk | with_reducible apply cfgRefused_keeps | with_reducible apply setReg_keeps | with_reducible apply setPort_keeps)
    | with_reducible apply Keeps.ite
    | split
    | dsimp +zetaDelta only

theorem cruRestart_keeps {z s : State} {r : Req} {x : Found} {new d m : Nat}  (hk : Keeps z s) : Keeps z (cruRestart r x new d m s) := by
  unfold cruRestart
  repeat' first
    | with_reducible exact hk
    | intro _
    | with_reducible apply setF_keeps
    | with_reducible apply Keeps.forN
    | with_reducible exact Keeps.refl _

theorem cruCfgWrite_keeps {z s : State} {r : Req} {x : Found} {new d m : Nat}  (hk : Keeps z s) : Keeps z (cruCfgWrite r x new d m s) := by
  unfold cruCfgWrite
  repeat' first
    | with_reducible exact hk
    | with_reducible apply cruRaise_keeps
    | with_reducible apply setReg_keeps
    | with_reducible apply Keeps.ite
    | split

theorem ringBaseWrite_keeps {z s : State} {r : Req} {x : Found} {new d m : Nat}  (hk : Keeps z s) : Keeps z (ringBaseWrite r x new d m s) := by
  unfold ringBaseWrite
  repeat' first
    | with_reducible exact hk
    | with_reducible apply cfgRefused_keeps
    | with_reducible apply setReg_keeps
    | with_reducible apply Keeps.ite
    | split

theorem ringCfgWrite_keeps {z s : State} {r : Req} {x : Found} {new d m : Nat}  (hk : Keeps z s) : Keeps z (ringCfgWrite r x new d m s) := by
  unfold ringCfgWrite
  repeat' first
    | with_reducible exact hk
    | extract_lets
    | with_reducible apply cfgRefused_keeps
    | with_reducible apply setReg_keeps
    | with_reducible apply Keeps.ite
    | split
    | dsimp +zetaDelta only

theorem ringSlot_keeps {z : State} {s : State} {base slots i : Nat} (hk : Keeps z s) :
    Keeps z (ringSlot s base slots i).2 := by
  unfold ringSlot
  repeat' first
    | with_reducible exact hk
    | extract_lets
    | with_reducible apply busError_keeps
    | with_reducible apply Keeps.ite
    | split
    | dsimp only
    | dsimp +zetaDelta only

theorem hostPlace_keeps {z : State} {s : State} {p kind : Nat} {x : RxFrame} (hk : Keeps z s) :
    Keeps z (hostPlace s p kind x) := by
  unfold hostPlace
  repeat' first
    | with_reducible exact hk
    | extract_lets
    | with_reducible apply freeBillets_keeps
    | with_reducible apply satF_keeps
    | with_reducible apply portRaise_keeps
    | with_reducible refine Keeps.snd (ringSlot_keeps ?_) (by assumption)
    | with_reducible apply ringSlot_keeps
    | with_reducible apply putDdr_keeps
    | with_reducible apply request_keeps
    | with_reducible apply addF_keeps
    | with_reducible apply Keeps.ite
    | split
    | with_reducible refine Keeps.snd ?_ (by assumption)
    | dsimp only
    | dsimp +zetaDelta only

theorem hostDrain_keeps {z : State} {s : State} {p : Nat} (hk : Keeps z s) :
    Keeps z (hostDrain s p) := by
  unfold hostDrain
  repeat' first
    | with_reducible exact hk
    | intro _
    | with_reducible apply setPort_keeps
    | with_reducible apply hostPlace_keeps
    | with_reducible apply Keeps.forN
    | (with_reducible refine Keeps.lit ?_; first | with_reducible exact hk | with_reducible apply setPort_keeps | with_reducible apply hostPlace_keeps | with_reducible apply Keeps.forN)
    | (with_reducible refine Keeps.lit ?_; with_reducible exact Keeps.refl _)
    | with_reducible apply Keeps.ite
    | split
    | with_reducible exact Keeps.refl _

theorem hostReceive_keeps {z : State} {s : State} {p kind : Nat} {x : RxFrame} (hk : Keeps z s) :
    Keeps z (hostReceive s p kind x) := by
  unfold hostReceive
  repeat' first
    | with_reducible exact hk
    | with_reducible apply setPort_keeps
    | with_reducible apply hostDrain_keeps
    | (with_reducible refine Keeps.lit ?_; first | with_reducible exact hk | with_reducible apply setPort_keeps | with_reducible apply hostDrain_keeps)

theorem shaperTick_keeps {z : State} {s : State} {p : Nat} (hk : Keeps z s) :
    Keeps z (shaperTick s p) := by
  unfold shaperTick
  repeat' first
    | with_reducible exact hk
    | with_reducible apply setPort_keeps
    | (with_reducible refine Keeps.lit ?_; first | with_reducible exact hk | with_reducible apply setPort_keeps)

theorem portTick_keeps {z : State} {s : State} {p : Nat} (hk : Keeps z s) :
    Keeps z (portTick s p) := by
  unfold portTick
  repeat' first
    | with_reducible exact hk
    | extract_lets
    | with_reducible apply freeBad_keeps
    | with_reducible apply hostDrain_keeps
    | with_reducible apply traceDrain_keeps
    | with_reducible apply Keeps.ite
    | split
    | dsimp +zetaDelta only

end Sys2Proof.Machine.State
end

