-- ==== Sys2Proof/Laws/KeepsBtl.lean ====
section
/-! SUPPORT. Every operation of Btl.lean keeps the queue and the canonical form (Keeps). -/

namespace Sys2Proof.Machine.State

theorem nextCtrlSeq_keeps {z : State} {s : State} {p ch : Nat} (hk : Keeps z s) :
    Keeps z (nextCtrlSeq s p ch).2 := by
  unfold nextCtrlSeq
  repeat' first
    | with_reducible exact hk
    | extract_lets
    | with_reducible apply setPort_keeps
    | (with_reducible refine Keeps.lit ?_; first | with_reducible exact hk | with_reducible apply setPort_keeps)
    | with_reducible apply Keeps.ite
    | split
    | dsimp only
    | dsimp +zetaDelta only

theorem startCtrl_keeps {z : State} {s : State} {p ch tile addr : Nat} {payload : List Byte} (hk : Keeps z s) :
    Keeps z (startCtrl s p ch tile addr payload) := by
  unfold startCtrl
  repeat' first
    | with_reducible exact hk
    | extract_lets
    | with_reducible refine Keeps.snd (nextCtrlSeq_keeps ?_) (by assumption)
    | with_reducible apply nextCtrlSeq_keeps
    | with_reducible apply setPort_keeps
    | with_reducible apply enqueue_keeps
    | (with_reducible refine Keeps.lit ?_; first | with_reducible exact hk | with_reducible refine Keeps.snd (nextCtrlSeq_keeps ?_) (by assumption) | with_reducible apply nextCtrlSeq_keeps | with_reducible apply setPort_keeps | with_reducible apply enqueue_keeps)
    | with_reducible refine Keeps.snd ?_ (by assumption)
    | dsimp only
    | dsimp +zetaDelta only

theorem btlCtrlSendWrite_keeps {z s : State} {r : Req} {x : Found} {new d m : Nat}  (hk : Keeps z s) : Keeps z (btlCtrlSendWrite r x new d m s) := by
  unfold btlCtrlSendWrite
  repeat' first
    | with_reducible exact hk
    | extract_lets
    | with_reducible apply btlRaise_keeps
    | with_reducible apply setF_keeps
    | with_reducible apply startCtrl_keeps
    | with_reducible apply Keeps.ite
    | split
    | dsimp +zetaDelta only

theorem nextDelay_keeps {z : State} {s : State} {p : Nat} (hk : Keeps z s) :
    Keeps z (nextDelay s p) := by
  unfold nextDelay
  repeat' first
    | with_reducible exact hk
    | extract_lets
    | with_reducible apply setPort_keeps
    | with_reducible apply startCtrl_keeps
    | (with_reducible refine Keeps.lit ?_; first | with_reducible exact hk | with_reducible apply setPort_keeps | with_reducible apply startCtrl_keeps)
    | with_reducible apply Keeps.ite
    | split
    | dsimp +zetaDelta only

theorem endCtrl_keeps {z : State} {s : State} {p ch : Nat} (hk : Keeps z s) :
    Keeps z (endCtrl s p ch) := by
  unfold endCtrl
  repeat' first
    | with_reducible exact hk
    | with_reducible apply setPort_keeps
    | (with_reducible refine Keeps.lit ?_; first | with_reducible exact hk | with_reducible apply setPort_keeps)

theorem failCtrl_keeps {z : State} {s : State} {p ch : Nat} (hk : Keeps z s) :
    Keeps z (failCtrl s p ch) := by
  unfold failCtrl
  repeat' first
    | with_reducible exact hk
    | extract_lets
    | with_reducible apply endCtrl_keeps
    | with_reducible apply satF_keeps
    | with_reducible apply btlRaise_keeps
    | with_reducible apply setF_keeps
    | with_reducible apply Keeps.ite
    | split
    | dsimp +zetaDelta only

theorem ctrlTimeout_keeps {z : State} {s : State} {p ch : Nat} (hk : Keeps z s) :
    Keeps z (ctrlTimeout s p ch) := by
  unfold ctrlTimeout
  repeat' first
    | with_reducible exact hk
    | extract_lets
    | with_reducible apply setPort_keeps
    | with_reducible apply satF_keeps
    | with_reducible apply setF_keeps
    | with_reducible apply enqueue_keeps
    | with_reducible apply failCtrl_keeps
    | with_reducible apply nextDelay_keeps
    | (with_reducible refine Keeps.lit ?_; first | with_reducible exact hk | with_reducible apply setPort_keeps | with_reducible apply satF_keeps | with_reducible apply setF_keeps | with_reducible apply enqueue_keeps | with_reducible apply failCtrl_keeps | with_reducible apply nextDelay_keeps)
    | with_reducible apply Keeps.ite
    | split
    | dsimp +zetaDelta only

theorem cackReceived_keeps {z : State} {s : State} {p : Nat} {frame : List Byte} (hk : Keeps z s) :
    Keeps z (cackReceived s p frame) := by
  unfold cackReceived
  repeat' first
    | with_reducible exact hk
    | extract_lets
    | with_reducible apply takeRx_keeps
    | with_reducible apply endCtrl_keeps
    | with_reducible apply setF_keeps
    | with_reducible apply btlRaise_keeps
    | with_reducible apply nextDelay_keeps
    | with_reducible apply Keeps.ite
    | split
    | dsimp +zetaDelta only

theorem echoRaster_keeps {z : State} {s : State} {p tile : Nat} (hk : Keeps z s) :
    Keeps z (echoRaster s p tile).2 := by
  unfold echoRaster
  repeat' first
    | with_reducible exact hk
    | extract_lets
    | with_reducible refine Keeps.snd (takeFree_keeps ?_) (by assumption)
    | with_reducible apply takeFree_keeps
    | with_reducible apply Keeps.ite
    | split
    | with_reducible refine Keeps.snd ?_ (by assumption)
    | dsimp only
    | dsimp +zetaDelta only

theorem startEcho_keeps {z : State} {s : State} {p tile : Nat} (hk : Keeps z s) :
    Keeps z (startEcho s p tile) := by
  unfold startEcho
  repeat' first
    | with_reducible exact hk
    | extract_lets
    | with_reducible refine Keeps.snd (echoRaster_keeps ?_) (by assumption)
    | with_reducible apply echoRaster_keeps
    | with_reducible apply setPort_keeps
    | with_reducible apply enqueue_keeps
    | (with_reducible refine Keeps.lit ?_; first | with_reducible exact hk | with_reducible refine Keeps.snd (echoRaster_keeps ?_) (by assumption) | with_reducible apply echoRaster_keeps | with_reducible apply setPort_keeps | with_reducible apply enqueue_keeps)
    | with_reducible refine Keeps.snd ?_ (by assumption)
    | dsimp only
    | dsimp +zetaDelta only

theorem btlEchoReqWrite_keeps {z s : State} {r : Req} {x : Found} {new d m : Nat}  (hk : Keeps z s) : Keeps z (btlEchoReqWrite r x new d m s) := by
  unfold btlEchoReqWrite
  repeat' first
    | with_reducible exact hk
    | extract_lets
    | with_reducible apply btlRaise_keeps
    | with_reducible apply startEcho_keeps
    | with_reducible apply Keeps.ite
    | split
    | dsimp +zetaDelta only

theorem nextEcho_keeps {z : State} {s : State} {p : Nat} (hk : Keeps z s) :
    Keeps z (nextEcho s p) := by
  unfold nextEcho
  repeat' first
    | with_reducible exact hk
    | with_reducible apply setPort_keeps
    | with_reducible apply startEcho_keeps
    | (with_reducible refine Keeps.lit ?_; first | with_reducible exact hk | with_reducible apply setPort_keeps | with_reducible apply startEcho_keeps)
    | with_reducible apply Keeps.ite
    | split

theorem echoRoundStart_keeps {z : State} {s : State} {p : Nat} (hk : Keeps z s) :
    Keeps z (echoRoundStart s p) := by
  unfold echoRoundStart
  repeat' first
    | with_reducible exact hk
    | extract_lets
    | with_reducible apply setPort_keeps
    | with_reducible apply nextEcho_keeps
    | (with_reducible refine Keeps.lit ?_; first | with_reducible exact hk | with_reducible apply setPort_keeps | with_reducible apply nextEcho_keeps)
    | with_reducible apply Keeps.ite
    | split
    | dsimp +zetaDelta only

theorem echoReplyReceived_keeps {z : State} {s : State} {p : Nat} {frame : List Byte} (hk : Keeps z s) :
    Keeps z (echoReplyReceived s p frame) := by
  unfold echoReplyReceived
  repeat' first
    | with_reducible exact hk
    | extract_lets
    | with_reducible apply takeRx_keeps
    | with_reducible refine Keeps.snd (takeFree_keeps ?_) (by assumption)
    | with_reducible apply takeFree_keeps
    | with_reducible apply setF_keeps
    | with_reducible apply btlRaise_keeps
    | with_reducible apply setPort_keeps
    | with_reducible apply nextDelay_keeps
    | with_reducible apply nextEcho_keeps
    | (with_reducible refine Keeps.lit ?_; first | with_reducible exact hk | with_reducible apply takeRx_keeps | with_reducible refine Keeps.snd (takeFree_keeps ?_) (by assumption) | with_reducible apply takeFree_keeps | with_reducible apply setF_keeps | with_reducible apply btlRaise_keeps | with_reducible apply setPort_keeps | with_reducible apply nextDelay_keeps | with_reducible apply nextEcho_keeps)
    | with_reducible apply Keeps.ite
    | split
    | with_reducible refine Keeps.snd ?_ (by assumption)
    | dsimp only
    | dsimp +zetaDelta only

theorem echoTimeout_keeps {z : State} {s : State} {p : Nat} (hk : Keeps z s) :
    Keeps z (echoTimeout s p) := by
  unfold echoTimeout
  repeat' first
    | with_reducible exact hk
    | extract_lets
    | with_reducible apply setF_keeps
    | with_reducible apply btlRaise_keeps
    | with_reducible apply setPort_keeps
    | with_reducible apply nextEcho_keeps
    | (with_reducible refine Keeps.lit ?_; first | with_reducible exact hk | with_reducible apply setF_keeps | with_reducible apply btlRaise_keeps | with_reducible apply setPort_keeps | with_reducible apply nextEcho_keeps)
    | with_reducible apply Keeps.ite
    | split
    | dsimp +zetaDelta only

theorem statReceived_keeps {z : State} {s : State} {p : Nat} {frame : List Byte} (hk : Keeps z s) :
    Keeps z (statReceived s p frame) := by
  unfold statReceived
  repeat' first
    | with_reducible exact hk
    | extract_lets
    | with_reducible refine Keeps.snd (rxTakeOut_keeps ?_) (by assumption)
    | with_reducible apply rxTakeOut_keeps
    | with_reducible apply setReg_keeps
    | with_reducible apply setSlow_keeps
    | with_reducible apply satF_keeps
    | with_reducible apply addF_keeps
    | with_reducible apply btlRaise_keeps
    | with_reducible apply hostReceive_keeps
    | (with_reducible refine Keeps.lit ?_; first | with_reducible exact hk | with_reducible refine Keeps.snd (rxTakeOut_keeps ?_) (by assumption) | with_reducible apply rxTakeOut_keeps | with_reducible apply setReg_keeps | with_reducible apply setSlow_keeps | with_reducible apply satF_keeps | with_reducible apply addF_keeps | with_reducible apply btlRaise_keeps | with_reducible apply hostReceive_keeps)
    | with_reducible apply Keeps.ite
    | split
    | with_reducible refine Keeps.snd ?_ (by assumption)
    | dsimp only
    | dsimp +zetaDelta only

theorem btlTestWrite_keeps {z s : State} {r : Req} {x : Found} {new d m : Nat}  (hk : Keeps z s) : Keeps z (btlTestWrite r x new d m s) := by
  unfold btlTestWrite
  repeat' first
    | with_reducible exact hk
    | extract_lets
    | intro _
    | with_reducible apply btlRaise_keeps
    | with_reducible apply setReg_keeps
    | with_reducible apply setPort_keeps
    | with_reducible apply enqueue_keeps
    | with_reducible apply Keeps.forN
    | (with_reducible refine Keeps.lit ?_; first | with_reducible exact hk | with_reducible apply btlRaise_keeps | with_reducible apply setReg_keeps | with_reducible apply setPort_keeps | with_reducible apply enqueue_keeps | with_reducible apply Keeps.forN)
    | (with_reducible refine Keeps.lit ?_; with_reducible exact Keeps.refl _)
    | with_reducible apply Keeps.ite
    | split
    | with_reducible exact Keeps.refl _
    | dsimp +zetaDelta only

theorem testReplyReceived_keeps {z : State} {s : State} {p : Nat} {frame : List Byte} (hk : Keeps z s) :
    Keeps z (testReplyReceived s p frame) := by
  unfold testReplyReceived
  repeat' first
    | with_reducible exact hk
    | extract_lets
    | with_reducible apply takeRx_keeps
    | with_reducible apply satF_keeps
    | with_reducible apply Keeps.ite
    | split
    | dsimp +zetaDelta only

theorem testEnd_keeps {z : State} {s : State} {p : Nat} (hk : Keeps z s) :
    Keeps z (testEnd s p) := by
  unfold testEnd
  repeat' first
    | with_reducible exact hk
    | with_reducible apply setPort_keeps
    | with_reducible apply setF_keeps
    | (with_reducible refine Keeps.lit ?_; first | with_reducible exact hk | with_reducible apply setPort_keeps | with_reducible apply setF_keeps)

theorem btlRxDiscard_keeps {z : State} {s : State} {p : Nat} {frame : List Byte} (hk : Keeps z s) :
    Keeps z (btlRxDiscard s p frame) := by
  unfold btlRxDiscard
  repeat' first
    | with_reducible exact hk
    | with_reducible apply takeRx_keeps
    | with_reducible apply addF_keeps
    | with_reducible apply btlRaise_keeps
    | with_reducible apply Keeps.ite
    | split

theorem endBtl_keeps {z : State} {s : State} {p : Nat} (hk : Keeps z s) :
    Keeps z (endBtl s p) := by
  unfold endBtl
  repeat' first
    | with_reducible exact hk
    | extract_lets
    | with_reducible apply failCtrl_keeps
    | with_reducible apply testEnd_keeps
    | with_reducible apply setPort_keeps
    | (with_reducible refine Keeps.lit ?_; first | with_reducible exact hk | with_reducible apply failCtrl_keeps | with_reducible apply testEnd_keeps | with_reducible apply setPort_keeps)
    | with_reducible apply Keeps.ite
    | split
    | dsimp +zetaDelta only

end Sys2Proof.Machine.State
end

