-- ==== Sys2Proof/Laws/KeepsMesh.lean ====
section
/-! SUPPORT. Every operation of Mesh.lean keeps the queue and the canonical form (Keeps). -/

namespace Sys2Proof.Machine.State

theorem setEngine_keeps {z : State} {s : State} {n : Nat} {e : Engine} (hk : Keeps z s) :
    Keeps z (setEngine s n e) := by
  unfold setEngine
  repeat' first
    | with_reducible exact hk
    | with_reducible apply put_keeps
    | (with_reducible refine Keeps.lit ?_; first | with_reducible exact hk | with_reducible apply put_keeps)

end Sys2Proof.Machine.State
end

