-- ==== Sys2Proof/Laws/KeepsCheck.lean ====
section
/-! SUPPORT. Every operation of Check.lean keeps the queue and the canonical form (Keeps). -/

namespace Sys2Proof.Machine.State

theorem setSig_keeps {z : State} {s : State} {u : Nat} {x : SigUnit} (hk : Keeps z s) :
    Keeps z (setSig s u x) := by
  unfold setSig
  repeat' first
    | with_reducible exact hk
    | with_reducible apply put_keeps
    | (with_reducible refine Keeps.lit ?_; first | with_reducible exact hk | with_reducible apply put_keeps)

theorem checkRaise_keeps {z : State} {s : State} {flags : List Nat} (hk : Keeps z s) :
    Keeps z (checkRaise s flags) := by
  unfold checkRaise
  repeat' first
    | with_reducible exact hk
    | with_reducible apply raiseAll_keeps

theorem sigApply_keeps {z : State} {s : State} {u m : Nat} (hk : Keeps z s) :
    Keeps z (sigApply s u m) := by
  unfold sigApply
  repeat' first
    | with_reducible exact hk
    | extract_lets
    | with_reducible apply setSig_keeps
    | (with_reducible refine Keeps.lit ?_; first | with_reducible exact hk | with_reducible apply setSig_keeps)
    | with_reducible apply Keeps.ite
    | split
    | dsimp +zetaDelta only

theorem sigStart_keeps {z : State} {s : State} {m k : Nat} {sent : Bool} {u : Nat} (hk : Keeps z s) :
    Keeps z (sigStart s m k sent u) := by
  unfold sigStart
  repeat' first
    | with_reducible exact hk
    | extract_lets
    | with_reducible apply setSig_keeps
    | with_reducible apply sigApply_keeps
    | with_reducible apply satF_keeps
    | with_reducible apply checkRaise_keeps
    | (with_reducible refine Keeps.lit ?_; first | with_reducible exact hk | with_reducible apply setSig_keeps | with_reducible apply sigApply_keeps | with_reducible apply satF_keeps | with_reducible apply checkRaise_keeps)
    | with_reducible apply Keeps.ite
    | split
    | dsimp +zetaDelta only

theorem sigFrameStart_keeps {z : State} {s : State} {m k : Nat} {sent : Bool} (hk : Keeps z s) :
    Keeps z (sigFrameStart s m k sent) := by
  unfold sigFrameStart
  repeat' first
    | with_reducible exact hk
    | intro _
    | with_reducible apply sigStart_keeps
    | with_reducible apply Keeps.forN
    | with_reducible exact Keeps.refl _

theorem sigAbandon_keeps {z : State} {s : State} {m : Nat} (hk : Keeps z s) :
    Keeps z (sigAbandon s m) := by
  unfold sigAbandon
  repeat' first
    | with_reducible exact hk
    | extract_lets
    | intro _
    | with_reducible apply setSig_keeps
    | with_reducible apply satF_keeps
    | with_reducible apply Keeps.forN
    | (with_reducible refine Keeps.lit ?_; first | with_reducible exact hk | with_reducible apply setSig_keeps | with_reducible apply satF_keeps | with_reducible apply Keeps.forN)
    | (with_reducible refine Keeps.lit ?_; with_reducible exact Keeps.refl _)
    | with_reducible apply Keeps.ite
    | split
    | with_reducible exact Keeps.refl _
    | dsimp +zetaDelta only

theorem sigLine_keeps {z : State} {s : State} {m v : Nat} {px : List PixOut} (hk : Keeps z s) :
    Keeps z (sigLine s m v px) := by
  unfold sigLine
  repeat' first
    | with_reducible exact hk
    | extract_lets
    | intro _
    | with_reducible apply setSig_keeps
    | with_reducible apply Keeps.forN
    | (with_reducible refine Keeps.lit ?_; first | with_reducible exact hk | with_reducible apply setSig_keeps | with_reducible apply Keeps.forN)
    | (with_reducible refine Keeps.lit ?_; with_reducible exact Keeps.refl _)
    | with_reducible exact Keeps.refl _
    | dsimp +zetaDelta only

theorem sigCompare_keeps {z : State} {s : State} {u : Nat} {x : SigUnit} {got want : Nat} (hk : Keeps z s) :
    Keeps z (sigCompare s u x got want) := by
  unfold sigCompare
  repeat' first
    | with_reducible exact hk
    | extract_lets
    | with_reducible apply setSig_keeps
    | with_reducible apply setF_keeps
    | with_reducible apply satF_keeps
    | with_reducible apply checkRaise_keeps
    | (with_reducible refine Keeps.lit ?_; first | with_reducible exact hk | with_reducible apply setSig_keeps | with_reducible apply setF_keeps | with_reducible apply satF_keeps | with_reducible apply checkRaise_keeps)
    | with_reducible apply Keeps.ite
    | split
    | dsimp +zetaDelta only

theorem sigResult_keeps {z : State} {s : State} {u : Nat} {x : SigUnit} {old : Option SigTail} (hk : Keeps z s) :
    Keeps z (sigResult s u x old) := by
  unfold sigResult
  repeat' first
    | with_reducible exact hk
    | extract_lets
    | with_reducible apply setF_keeps
    | with_reducible apply addF_keeps
    | with_reducible apply setSig_keeps
    | with_reducible apply sigCompare_keeps
    | with_reducible apply satF_keeps
    | (with_reducible refine Keeps.lit ?_; first | with_reducible exact hk | with_reducible apply setF_keeps | with_reducible apply addF_keeps | with_reducible apply setSig_keeps | with_reducible apply sigCompare_keeps | with_reducible apply satF_keeps)
    | with_reducible apply Keeps.ite
    | split
    | dsimp +zetaDelta only

theorem resultPoint_keeps {z : State} {s : State} {u : Nat} (hk : Keeps z s) :
    Keeps z (resultPoint s u) := by
  unfold resultPoint
  repeat' first
    | with_reducible exact hk
    | extract_lets
    | with_reducible apply sigResult_keeps
    | with_reducible apply Keeps.ite
    | split
    | dsimp +zetaDelta only

theorem sigExpect_keeps {z : State} {s : State} {u v : Nat} (hk : Keeps z s) :
    Keeps z (sigExpect s u v) := by
  unfold sigExpect
  repeat' first
    | with_reducible exact hk
    | extract_lets
    | with_reducible apply setSig_keeps
    | with_reducible apply setF_keeps
    | (with_reducible refine Keeps.lit ?_; first | with_reducible exact hk | with_reducible apply setSig_keeps | with_reducible apply setF_keeps)
    | dsimp +zetaDelta only

theorem sigExpectWrite_keeps {z s : State} {r : Req} {x : Found} {new d m : Nat}  (hk : Keeps z s) : Keeps z (sigExpectWrite r x new d m s) := by
  unfold sigExpectWrite
  repeat' first
    | with_reducible exact hk
    | with_reducible apply sigExpect_keeps

theorem mcuStart_keeps {z : State} {s : State} {m : Nat} (hk : Keeps z s) :
    Keeps z (mcuStart s m) := by
  unfold mcuStart
  repeat' first
    | with_reducible exact hk
    | extract_lets
    | with_reducible apply checkRaise_keeps
    | with_reducible apply setF_keeps
    | with_reducible apply put_keeps
    | (with_reducible refine Keeps.lit ?_; first | with_reducible exact hk | with_reducible apply checkRaise_keeps | with_reducible apply setF_keeps | with_reducible apply put_keeps)
    | with_reducible apply Keeps.ite
    | split
    | dsimp +zetaDelta only

theorem mcuBurst_keeps {z : State} {s : State} {m : Nat} {r : McuRun} (hk : Keeps z s) :
    Keeps z (mcuBurst s m r) := by
  unfold mcuBurst
  repeat' first
    | with_reducible exact hk
    | extract_lets
    | with_reducible apply put_keeps
    | with_reducible apply request_keeps
    | (with_reducible refine Keeps.lit ?_; first | with_reducible exact hk | with_reducible apply put_keeps | with_reducible apply request_keeps)
    | with_reducible apply Keeps.ite
    | split
    | dsimp +zetaDelta only

theorem mcuTick_keeps {z : State} {s : State} {m : Nat} (hk : Keeps z s) :
    Keeps z (mcuTick s m) := by
  unfold mcuTick
  repeat' first
    | with_reducible exact hk
    | with_reducible apply put_keeps
    | with_reducible apply mcuBurst_keeps
    | (with_reducible refine Keeps.lit ?_; first | with_reducible exact hk | with_reducible apply put_keeps | with_reducible apply mcuBurst_keeps)
    | with_reducible apply Keeps.ite
    | split

theorem mcuGoWrite_keeps {z s : State} {r : Req} {x : Found} {new d m : Nat}  (hk : Keeps z s) : Keeps z (mcuGoWrite r x new d m s) := by
  unfold mcuGoWrite
  repeat' first
    | with_reducible exact hk
    | with_reducible apply mcuStart_keeps

theorem mcuExpect_keeps {z : State} {s : State} {m v : Nat} (hk : Keeps z s) :
    Keeps z (mcuExpect s m v) := by
  unfold mcuExpect
  repeat' first
    | with_reducible exact hk
    | with_reducible apply setF_keeps

theorem mcuExpectWrite_keeps {z s : State} {r : Req} {x : Found} {new d m : Nat}  (hk : Keeps z s) : Keeps z (mcuExpectWrite r x new d m s) := by
  unfold mcuExpectWrite
  repeat' first
    | with_reducible exact hk
    | with_reducible apply mcuExpect_keeps

theorem mcuRunEnd_keeps {z : State} {s : State} {m : Nat} (hk : Keeps z s) :
    Keeps z (mcuRunEnd s m) := by
  unfold mcuRunEnd
  repeat' first
    | with_reducible exact hk
    | extract_lets
    | with_reducible apply setF_keeps
    | with_reducible apply addF_keeps
    | with_reducible apply checkRaise_keeps
    | (with_reducible refine Keeps.lit ?_; first | with_reducible exact hk | with_reducible apply setF_keeps | with_reducible apply addF_keeps | with_reducible apply checkRaise_keeps)
    | with_reducible apply Keeps.ite
    | split
    | dsimp +zetaDelta only

theorem loadExpect_keeps {z : State} {s : State} {u v : Nat} (hk : Keeps z s) :
    Keeps z (loadExpect s u v) := by
  unfold loadExpect
  repeat' first
    | with_reducible exact hk
    | extract_lets
    | with_reducible apply sigExpect_keeps
    | with_reducible apply mcuExpect_keeps
    | with_reducible apply mcuStart_keeps
    | with_reducible apply Keeps.ite
    | split
    | dsimp +zetaDelta only

end Sys2Proof.Machine.State
end

