-- ==== Sys2Proof/Laws/KeepsScan.lean ====
section
/-! SUPPORT. Every operation of Scan.lean keeps the queue and the canonical form (Keeps). -/

namespace Sys2Proof.Machine.State

/-- Replacing a range by words of that range in rising order keeps the keys rising. -/
theorem putRange_rising {t new : Tab Word} {lo hi : Nat} (h : lo ≤ hi) (ht : Tab.Rising t) (hn : Tab.Rising new)
    (hb : ∀ p ∈ new, lo ≤ p.1 ∧ p.1 < hi) : Tab.Rising (putRange t lo hi new) := by
  have f1 : Tab.Rising (t.filter fun x => decide (x.1 < lo)) := Tab.rising_sub List.filter_sublist ht
  have f2 : Tab.Rising (t.filter fun x => decide (hi ≤ x.1)) := Tab.rising_sub List.filter_sublist ht
  refine List.pairwise_append.mpr ⟨List.pairwise_append.mpr ⟨f1, hn, fun a ha b hb' => ?_⟩, f2, fun a ha b hb' => ?_⟩
  · have h1 := of_decide_eq_true (List.mem_filter.mp ha).2
    have h2 := hb b hb'
    omega
  · have h2 := of_decide_eq_true (List.mem_filter.mp hb').2
    rcases List.mem_append.mp ha with ha | ha
    · have h1 := of_decide_eq_true (List.mem_filter.mp ha).2
      omega
    · have h1 := hb a ha
      omega

theorem zip_rising {l : List Nat} {m : List Nat} (h : l.Pairwise (· < ·)) :
    (l.zip m).Pairwise fun a b => a.1 < b.1 := by
  induction l generalizing m with
  | nil => simp
  | cons a l ih =>
    cases m with
    | nil => simp
    | cons b m =>
      rw [List.zip_cons_cons, List.pairwise_cons]
      have hc := List.pairwise_cons.mp h
      exact ⟨fun p hp => hc.1 p.1 (List.of_mem_zip hp).1, ih hc.2⟩

theorem lutPlane_mem {lo : Nat} {col : List Nat} {p : Nat × Word} (h : p ∈ lutPlane lo col) :
    lo ≤ p.1 ∧ p.1 < lo + 0x4000 := by
  obtain ⟨e, he, rfl⟩ := List.mem_map.mp h
  have := List.mem_range.mp (List.of_mem_zip he).1
  dsimp only
  omega

theorem lutPlane_rising (lo : Nat) (col : List Nat) : Tab.Rising (lutPlane lo col) :=
  List.pairwise_map.mpr ((zip_rising List.pairwise_lt_range).imp fun h => by dsimp only; omega)

theorem lutWords_rising (lo : Nat) (col : List Nat) : Tab.Rising (lutWords lo col) := by
  refine List.pairwise_append.mpr ⟨lutPlane_rising .., List.pairwise_append.mpr ⟨lutPlane_rising .., lutPlane_rising ..,
    fun a ha b hb => ?_⟩, fun a ha b hb => ?_⟩
  · have := lutPlane_mem ha; have := lutPlane_mem hb; omega
  · have := lutPlane_mem ha
    rcases List.mem_append.mp hb with hb | hb <;> have := lutPlane_mem hb <;> omega

theorem lutWords_mem {lo : Nat} {col : List Nat} {p : Nat × Word} (h : p ∈ lutWords lo col) :
    lo ≤ p.1 ∧ p.1 < lo + 0xC000 := by
  rcases List.mem_append.mp h with h | h
  · have := lutPlane_mem h; omega
  · rcases List.mem_append.mp h with h | h <;> have := lutPlane_mem h <;> omega

/-- A fill keeps the canonical form. -/
theorem fill_keeps {z s : State} {lo : Nat} {col : List Nat} (hk : Keeps z s) :
    Keeps z { s with regs := putRange s.regs lo (lo + 0xC000) (lutWords lo col) } :=
  hk.trans ⟨rfl, fun c =>
    ⟨c.1, putRange_rising (by omega) c.2.1 (lutWords_rising ..) fun p hp => lutWords_mem hp, c.2.2⟩⟩

theorem cutRun_keeps {m v : Nat} {px : List PixOut} {a : State × List (Nat × Nat × Frame)} {e : MapEntry} :
    Keeps a.1 (cutRun m v px a e).1 := by
  unfold cutRun
  dsimp only
  split
  · split
    · exact slabUeWords_keeps (Keeps.refl _)
    · exact setRaster_keeps (Keeps.refl _)
  · exact Keeps.refl _

end Sys2Proof.Machine.State

namespace Sys2Proof.Machine.State

theorem orsRaise_keeps {z : State} {s : State} {m : Nat} {flags : List Nat} (hk : Keeps z s) :
    Keeps z (orsRaise s m flags) := by
  unfold orsRaise
  repeat' first
    | with_reducible exact hk
    | with_reducible apply raiseAll_keeps

theorem noteDead_keeps {z : State} {s : State} {m : Nat} (hk : Keeps z s) :
    Keeps z (noteDead s m) := by
  unfold noteDead
  repeat' first
    | with_reducible exact hk
    | extract_lets
    | with_reducible apply setRaster_keeps
    | with_reducible apply orsRaise_keeps
    | (with_reducible refine Keeps.lit ?_; first | with_reducible exact hk | with_reducible apply setRaster_keeps | with_reducible apply orsRaise_keeps)
    | with_reducible apply Keeps.ite
    | split
    | dsimp +zetaDelta only

theorem queueRuns_keeps {z : State} {s : State} {l : List (Nat × Nat × Frame)} (hk : Keeps z s) :
    Keeps z (queueRuns s l) := by
  unfold queueRuns
  repeat' first
    | with_reducible exact hk
    | intro _
    | with_reducible apply enqueue_keeps
    | with_reducible apply Keeps.foldl
    | with_reducible apply Keeps.foldl_fst
    | with_reducible apply Keeps.foldl_snd
    | with_reducible refine Keeps.fst ?_ (by assumption)
    | with_reducible exact Keeps.refl _

theorem readGrid_keeps {z : State} {m v w : Nat} {s : State} {x : Layer} (hk : Keeps z s) :
    Keeps z (readGrid m v w s x) := by
  unfold readGrid
  repeat' first
    | with_reducible exact hk
    | extract_lets
    | intro _
    | with_reducible apply setEngine_keeps
    | with_reducible apply put_keeps
    | with_reducible apply slabUe_keeps
    | with_reducible apply satF_keeps
    | with_reducible apply raise_keeps
    | with_reducible apply Keeps.foldl
    | with_reducible apply Keeps.foldl_fst
    | with_reducible apply Keeps.foldl_snd
    | with_reducible refine Keeps.fst ?_ (by assumption)
    | (with_reducible refine Keeps.lit ?_; first | with_reducible exact hk | with_reducible apply setEngine_keeps | with_reducible apply put_keeps | with_reducible apply slabUe_keeps | with_reducible apply satF_keeps | with_reducible apply raise_keeps | with_reducible apply Keeps.foldl | with_reducible apply Keeps.foldl_fst | with_reducible apply Keeps.foldl_snd | with_reducible refine Keeps.fst ?_ (by assumption))
    | (with_reducible refine Keeps.lit ?_; with_reducible exact Keeps.refl _)
    | with_reducible apply Keeps.ite
    | split
    | with_reducible exact Keeps.refl _
    | dsimp +zetaDelta only

theorem planLine_keeps {z : State} {m no : Nat} {ls : List Layer} {x : Layer} {s : State} {v : Nat} (hk : Keeps z s) :
    Keeps z (planLine m no ls x s v) := by
  unfold planLine
  repeat' first
    | with_reducible exact hk
    | extract_lets
    | with_reducible apply setEngine_keeps
    | (with_reducible refine Keeps.lit ?_; first | with_reducible exact hk | with_reducible apply setEngine_keeps)
    | dsimp +zetaDelta only

theorem countSkipped_keeps {z : State} {m : Nat} {s : State} {x : Layer} (hk : Keeps z s) :
    Keeps z (countSkipped m s x) := by
  unfold countSkipped
  repeat' first
    | with_reducible exact hk
    | extract_lets
    | with_reducible apply setEngine_keeps
    | with_reducible apply setReg_keeps
    | (with_reducible refine Keeps.lit ?_; first | with_reducible exact hk | with_reducible apply setEngine_keeps | with_reducible apply setReg_keeps)
    | with_reducible apply Keeps.ite
    | split
    | dsimp +zetaDelta only

theorem planBlock_keeps {z : State} {s : State} {m : Nat} (hk : Keeps z s) :
    Keeps z (planBlock s m) := by
  unfold planBlock
  repeat' first
    | with_reducible exact hk
    | extract_lets
    | intro _
    | with_reducible apply readGrid_keeps
    | with_reducible apply planLine_keeps
    | with_reducible apply setRaster_keeps
    | with_reducible apply countSkipped_keeps
    | with_reducible apply Keeps.foldl
    | with_reducible apply Keeps.foldl_fst
    | with_reducible apply Keeps.foldl_snd
    | with_reducible refine Keeps.fst ?_ (by assumption)
    | (with_reducible refine Keeps.lit ?_; first | with_reducible exact hk | with_reducible apply readGrid_keeps | with_reducible apply planLine_keeps | with_reducible apply setRaster_keeps | with_reducible apply countSkipped_keeps | with_reducible apply Keeps.foldl | with_reducible apply Keeps.foldl_fst | with_reducible apply Keeps.foldl_snd | with_reducible refine Keeps.fst ?_ (by assumption))
    | (with_reducible refine Keeps.lit ?_; with_reducible exact Keeps.refl _)
    | with_reducible apply Keeps.ite
    | split
    | with_reducible exact Keeps.refl _
    | dsimp +zetaDelta only

theorem planTo_keeps {z : State} {s : State} {m v : Nat} (hk : Keeps z s) :
    Keeps z (planTo s m v) := by
  unfold planTo
  repeat' first
    | with_reducible exact hk
    | intro _
    | with_reducible apply planBlock_keeps
    | with_reducible apply Keeps.forN
    | with_reducible apply Keeps.ite
    | split
    | with_reducible exact Keeps.refl _

theorem planAhead_keeps {z : State} {s : State} {m : Nat} (hk : Keeps z s) :
    Keeps z (planAhead s m) := by
  unfold planAhead
  repeat' first
    | with_reducible exact hk
    | with_reducible apply planBlock_keeps
    | with_reducible apply Keeps.ite
    | split

theorem countPixels_keeps {z : State} {s0 : State} {c : Nat} {px : List PixOut} (hk : Keeps z s0) :
    Keeps z (countPixels s0 c px) := by
  unfold countPixels
  repeat' first
    | with_reducible exact hk
    | extract_lets
    | intro _
    | with_reducible apply slabUe_keeps
    | with_reducible apply satF_keeps
    | with_reducible apply raiseAll_keeps
    | with_reducible apply Keeps.foldl
    | with_reducible apply Keeps.foldl_fst
    | with_reducible apply Keeps.foldl_snd
    | with_reducible refine Keeps.fst ?_ (by assumption)
    | with_reducible apply Keeps.ite
    | split
    | with_reducible exact Keeps.refl _
    | dsimp +zetaDelta only

theorem underrun_keeps {z : State} {s : State} {m v h : Nat} {ns : List Nat} (hk : Keeps z s) :
    Keeps z (underrun s m v h ns) := by
  unfold underrun
  repeat' first
    | with_reducible exact hk
    | extract_lets
    | intro _
    | with_reducible apply satF_keeps
    | with_reducible apply raise_keeps
    | with_reducible apply setRaster_keeps
    | with_reducible apply setF_keeps
    | with_reducible apply orsRaise_keeps
    | with_reducible apply Keeps.foldl
    | with_reducible apply Keeps.foldl_fst
    | with_reducible apply Keeps.foldl_snd
    | with_reducible refine Keeps.fst ?_ (by assumption)
    | (with_reducible refine Keeps.lit ?_; first | with_reducible exact hk | with_reducible apply satF_keeps | with_reducible apply raise_keeps | with_reducible apply setRaster_keeps | with_reducible apply setF_keeps | with_reducible apply orsRaise_keeps | with_reducible apply Keeps.foldl | with_reducible apply Keeps.foldl_fst | with_reducible apply Keeps.foldl_snd | with_reducible refine Keeps.fst ?_ (by assumption))
    | (with_reducible refine Keeps.lit ?_; with_reducible exact Keeps.refl _)
    | with_reducible apply Keeps.ite
    | split
    | with_reducible exact Keeps.refl _
    | dsimp +zetaDelta only

theorem meshLine_keeps {z : State} {s : State} {m v : Nat} {ls : List Layer} {x : Layer} (hk : Keeps z s) :
    Keeps z (meshLine s m v ls x) := by
  unfold meshLine
  repeat' first
    | with_reducible exact hk
    | extract_lets
    | with_reducible apply setEngine_keeps
    | with_reducible apply satF_keeps
    | with_reducible apply raise_keeps
    | (with_reducible refine Keeps.lit ?_; first | with_reducible exact hk | with_reducible apply setEngine_keeps | with_reducible apply satF_keeps | with_reducible apply raise_keeps)
    | with_reducible apply Keeps.ite
    | split
    | with_reducible refine Keeps.snd ?_ (by assumption)
    | dsimp only
    | dsimp +zetaDelta only

theorem coverLine_keeps {z : State} {s : State} {m v : Nat} {ls : List Layer} (hk : Keeps z s) :
    Keeps z (coverLine s m v ls) := by
  unfold coverLine
  repeat' first
    | with_reducible exact hk
    | extract_lets
    | with_reducible apply setRaster_keeps
    | with_reducible apply setReg_keeps
    | (with_reducible refine Keeps.lit ?_; first | with_reducible exact hk | with_reducible apply setRaster_keeps | with_reducible apply setReg_keeps)
    | with_reducible apply Keeps.ite
    | split
    | with_reducible refine Keeps.snd ?_ (by assumption)
    | dsimp only
    | dsimp +zetaDelta only

theorem releaseRows_keeps {z : State} {s : State} {m v n : Nat} (hk : Keeps z s) :
    Keeps z (releaseRows s m v n) := by
  unfold releaseRows
  repeat' first
    | with_reducible exact hk
    | extract_lets
    | with_reducible apply setEngine_keeps
    | (with_reducible refine Keeps.lit ?_; first | with_reducible exact hk | with_reducible apply setEngine_keeps)
    | with_reducible apply Keeps.ite
    | split
    | dsimp +zetaDelta only

theorem composeLine_keeps {z : State} {s0 : State} {m : Nat} (hk : Keeps z s0) :
    Keeps z (composeLine s0 m) := by
  unfold composeLine
  extract_lets r v s line ls x s1 s2 s3 s4 s5
  have h1 : Keeps z s1 := setRaster_keeps (planTo_keeps hk)
  have h3 : Keeps z s3 := countPixels_keeps (coverLine_keeps (Keeps.foldl (fun _ _ => releaseRows_keeps (meshLine_keeps (Keeps.refl _))) h1))
  have h4 : Keeps z s4 := by
    show Keeps z (match line.under with | some u => _ | none => _)
    split
    · exact underrun_keeps h3
    · exact h3
  clear_value s4
  have h5 : Keeps z s5 := noteDead_keeps (sigLine_keeps h4)
  clear_value s5
  split
  · exact queueRuns_keeps (Keeps.foldl_fst (fun _ _ => cutRun_keeps) h5)
  · exact hk

theorem flushLate_keeps {z : State} {s : State} {m k p : Nat} (hk : Keeps z s) :
    Keeps z (flushLate s m k p) := by
  unfold flushLate
  repeat' first
    | with_reducible exact hk
    | extract_lets
    | intro _
    | with_reducible apply setPort_keeps
    | with_reducible apply settleTurn_keeps
    | with_reducible apply freeBillets_keeps
    | with_reducible apply judgeHeads_keeps
    | with_reducible apply addF_keeps
    | with_reducible apply btlRaise_keeps
    | with_reducible apply Keeps.forN
    | (with_reducible refine Keeps.lit ?_; first | with_reducible exact hk | with_reducible apply setPort_keeps | with_reducible apply settleTurn_keeps | with_reducible apply freeBillets_keeps | with_reducible apply judgeHeads_keeps | with_reducible apply addF_keeps | with_reducible apply btlRaise_keeps | with_reducible apply Keeps.forN)
    | (with_reducible refine Keeps.lit ?_; with_reducible exact Keeps.refl _)
    | with_reducible apply Keeps.ite
    | split
    | with_reducible exact Keeps.refl _
    | dsimp +zetaDelta only

theorem pushDue_keeps {z : State} {s : State} {p : Nat} {x : Frame} (hk : Keeps z s) :
    Keeps z (pushDue s p x) := by
  unfold pushDue
  repeat' first
    | with_reducible exact hk
    | extract_lets
    | with_reducible apply takeBillets_keeps
    | with_reducible apply setPort_keeps
    | with_reducible apply cruRefused_keeps
    | with_reducible apply satF_keeps
    | with_reducible apply portRaise_keeps
    | (with_reducible refine Keeps.lit ?_; first | with_reducible exact hk | with_reducible apply takeBillets_keeps | with_reducible apply setPort_keeps | with_reducible apply cruRefused_keeps | with_reducible apply satF_keeps | with_reducible apply portRaise_keeps)
    | with_reducible apply Keeps.ite
    | split
    | dsimp +zetaDelta only

theorem sendPosition_keeps {z : State} {s : State} {m : Nat} (hk : Keeps z s) :
    Keeps z (sendPosition s m) := by
  unfold sendPosition
  repeat' first
    | with_reducible exact hk
    | extract_lets
    | intro _
    | with_reducible apply setRaster_keeps
    | with_reducible apply addF_keeps
    | with_reducible apply flushLate_keeps
    | with_reducible apply pushDue_keeps
    | with_reducible apply noteDead_keeps
    | with_reducible apply Keeps.foldl
    | with_reducible apply Keeps.foldl_fst
    | with_reducible apply Keeps.foldl_snd
    | with_reducible refine Keeps.fst ?_ (by assumption)
    | (with_reducible refine Keeps.lit ?_; first | with_reducible exact hk | with_reducible apply setRaster_keeps | with_reducible apply addF_keeps | with_reducible apply flushLate_keeps | with_reducible apply pushDue_keeps | with_reducible apply noteDead_keeps | with_reducible apply Keeps.foldl | with_reducible apply Keeps.foldl_fst | with_reducible apply Keeps.foldl_snd | with_reducible refine Keeps.fst ?_ (by assumption))
    | (with_reducible refine Keeps.lit ?_; with_reducible exact Keeps.refl _)
    | with_reducible apply Keeps.ite
    | split
    | with_reducible exact Keeps.refl _
    | dsimp +zetaDelta only

theorem lineBeacons_keeps {z : State} {s : State} {p : Nat} (hk : Keeps z s) :
    Keeps z (lineBeacons s p) := by
  unfold lineBeacons
  repeat' first
    | with_reducible exact hk
    | intro _
    | with_reducible apply enqueue_keeps
    | with_reducible apply Keeps.foldl
    | with_reducible apply Keeps.foldl_fst
    | with_reducible apply Keeps.foldl_snd
    | with_reducible refine Keeps.fst ?_ (by assumption)
    | with_reducible apply Keeps.ite
    | split
    | with_reducible exact Keeps.refl _

theorem frontBeacon_keeps {z : State} {s : State} {p m : Nat} {x : Frame} (hk : Keeps z s) :
    Keeps z (frontBeacon s p m x) := by
  unfold frontBeacon
  repeat' first
    | with_reducible exact hk
    | extract_lets
    | with_reducible apply enqueueAt_keeps
    | with_reducible apply setPort_keeps
    | (with_reducible refine Keeps.lit ?_; first | with_reducible exact hk | with_reducible apply enqueueAt_keeps | with_reducible apply setPort_keeps)
    | with_reducible apply Keeps.ite
    | split
    | dsimp +zetaDelta only

theorem waitBeacons_keeps {z : State} {s : State} {m : Nat} (hk : Keeps z s) :
    Keeps z (waitBeacons s m) := by
  unfold waitBeacons
  repeat' first
    | with_reducible exact hk
    | extract_lets
    | intro _
    | with_reducible apply frontBeacon_keeps
    | with_reducible apply Keeps.foldl
    | with_reducible apply Keeps.foldl_fst
    | with_reducible apply Keeps.foldl_snd
    | with_reducible refine Keeps.fst ?_ (by assumption)
    | with_reducible refine Keeps.snd ?_ (by assumption)
    | dsimp only
    | with_reducible exact Keeps.refl _
    | dsimp +zetaDelta only

theorem modeFrames_keeps {z : State} {s : State} {m : Nat} (hk : Keeps z s) :
    Keeps z (modeFrames s m) := by
  unfold modeFrames
  repeat' first
    | with_reducible exact hk
    | extract_lets
    | with_reducible apply queueRuns_keeps
    | dsimp +zetaDelta only

theorem dirtyEngine_keeps {z : State} {s : State} {n : Nat} (hk : Keeps z s) :
    Keeps z (dirtyEngine s n) := by
  unfold dirtyEngine
  repeat' first
    | with_reducible exact hk
    | extract_lets
    | intro _
    | with_reducible apply setEngine_keeps
    | with_reducible apply Keeps.foldl
    | with_reducible apply Keeps.foldl_fst
    | with_reducible apply Keeps.foldl_snd
    | with_reducible refine Keeps.fst ?_ (by assumption)
    | (with_reducible refine Keeps.lit ?_; first | with_reducible exact hk | with_reducible apply setEngine_keeps | with_reducible apply Keeps.foldl | with_reducible apply Keeps.foldl_fst | with_reducible apply Keeps.foldl_snd | with_reducible refine Keeps.fst ?_ (by assumption))
    | (with_reducible refine Keeps.lit ?_; with_reducible exact Keeps.refl _)
    | with_reducible exact Keeps.refl _
    | dsimp +zetaDelta only

theorem leTouchWrite_keeps {z s : State} {r : Req} {x : Found} {new d m : Nat}  (hk : Keeps z s) : Keeps z (leTouchWrite r x new d m s) := by
  unfold leTouchWrite
  repeat' first
    | with_reducible exact hk
    | with_reducible apply dirtyEngine_keeps
    | with_reducible apply satF_keeps

theorem leTolMinRestart_keeps {z s : State} {r : Req} {x : Found} {new d m : Nat}  (hk : Keeps z s) : Keeps z (leTolMinRestart r x new d m s) := by
  unfold leTolMinRestart
  repeat' first
    | with_reducible exact hk
    | with_reducible apply setF_keeps

theorem fetchSpan_keeps {z : State} {s : State} {n : Nat} {p : Span} (hk : Keeps z s) :
    Keeps z (fetchSpan s n p) := by
  unfold fetchSpan
  repeat' first
    | with_reducible exact hk
    | extract_lets
    | with_reducible apply setEngine_keeps
    | with_reducible apply setChan_keeps
    | with_reducible apply satF_keeps
    | (with_reducible refine Keeps.lit ?_; first | with_reducible exact hk | with_reducible apply setEngine_keeps | with_reducible apply setChan_keeps | with_reducible apply satF_keeps)
    | with_reducible apply Keeps.ite
    | split
    | dsimp +zetaDelta only

theorem issueFetch_keeps {z : State} {s : State} {n : Nat} (hk : Keeps z s) :
    Keeps z (issueFetch s n) := by
  unfold issueFetch
  repeat' first
    | with_reducible exact hk
    | extract_lets
    | with_reducible apply setEngine_keeps
    | with_reducible apply fetchSpan_keeps
    | (with_reducible refine Keeps.lit ?_; first | with_reducible exact hk | with_reducible apply setEngine_keeps | with_reducible apply fetchSpan_keeps)
    | with_reducible apply Keeps.ite
    | split
    | dsimp +zetaDelta only

theorem fetchGranted_keeps {z : State} {s : State} {r : MemReq} (hk : Keeps z s) :
    Keeps z (fetchGranted s r) := by
  unfold fetchGranted
  repeat' first
    | with_reducible exact hk
    | extract_lets
    | with_reducible apply setEngine_keeps
    | (with_reducible refine Keeps.lit ?_; first | with_reducible exact hk | with_reducible apply setEngine_keeps)
    | with_reducible apply Keeps.ite
    | split
    | dsimp +zetaDelta only

theorem lateRow_keeps {z : State} {s : State} {n : Nat} {p : Span} (hk : Keeps z s) :
    Keeps z (lateRow s n p) := by
  unfold lateRow
  repeat' first
    | with_reducible exact hk
    | extract_lets
    | with_reducible apply setEngine_keeps
    | with_reducible apply satF_keeps
    | with_reducible apply raise_keeps
    | (with_reducible refine Keeps.lit ?_; first | with_reducible exact hk | with_reducible apply setEngine_keeps | with_reducible apply satF_keeps | with_reducible apply raise_keeps)
    | with_reducible apply Keeps.ite
    | split
    | dsimp +zetaDelta only

theorem burstArrival_keeps {z : State} {s : State} {n m a : Nat} {ecc : Ecc} (hk : Keeps z s) :
    Keeps z (burstArrival s n m a ecc) := by
  unfold burstArrival
  repeat' first
    | with_reducible exact hk
    | extract_lets
    | with_reducible apply setEngine_keeps
    | with_reducible apply setReg_keeps
    | with_reducible apply satF_keeps
    | with_reducible apply raise_keeps
    | with_reducible apply put_keeps
    | with_reducible apply lateRow_keeps
    | (with_reducible refine Keeps.lit ?_; first | with_reducible exact hk | with_reducible apply setEngine_keeps | with_reducible apply setReg_keeps | with_reducible apply satF_keeps | with_reducible apply raise_keeps | with_reducible apply put_keeps | with_reducible apply lateRow_keeps)
    | with_reducible apply Keeps.ite
    | split
    | dsimp +zetaDelta only

theorem updateMcTol_keeps {z : State} {s : State} (hk : Keeps z s) :
    Keeps z (updateMcTol s) := by
  unfold updateMcTol
  repeat' first
    | with_reducible exact hk
    | extract_lets
    | intro _
    | with_reducible apply setF_keeps
    | with_reducible apply Keeps.forN
    | with_reducible apply Keeps.foldl
    | with_reducible apply Keeps.foldl_fst
    | with_reducible apply Keeps.foldl_snd
    | with_reducible refine Keeps.fst ?_ (by assumption)
    | with_reducible exact Keeps.refl _
    | dsimp +zetaDelta only

theorem toleranceUpdate_keeps {z : State} {s : State} {n : Nat} (hk : Keeps z s) :
    Keeps z (toleranceUpdate s n) := by
  unfold toleranceUpdate
  repeat' first
    | with_reducible exact hk
    | extract_lets
    | with_reducible apply setF_keeps
    | with_reducible apply updateMcTol_keeps
    | with_reducible apply Keeps.ite
    | split
    | dsimp +zetaDelta only

theorem decodeLoadWrite_keeps {z s : State} {r : Req} {x : Found} {new d m : Nat}  (hk : Keeps z s) : Keeps z (decodeLoadWrite r x new d m s) := by
  unfold decodeLoadWrite
  repeat' first
    | with_reducible exact hk
    | extract_lets
    | with_reducible apply setF_keeps
    | with_reducible apply setEngine_keeps
    | (with_reducible refine Keeps.lit ?_; first | with_reducible exact hk | with_reducible apply setF_keeps | with_reducible apply setEngine_keeps)
    | with_reducible apply Keeps.ite
    | split
    | dsimp +zetaDelta only

theorem decodeFillDone_keeps {z : State} {s : State} {n : Nat} (hk : Keeps z s) :
    Keeps z (decodeFillDone s n) := by
  unfold decodeFillDone
  split
  · exact hk
  · exact fill_keeps (setEngine_keeps (setF_keeps hk))

theorem encodeLoadWrite_keeps {z s : State} {r : Req} {x : Found} {new d m : Nat}  (hk : Keeps z s) : Keeps z (encodeLoadWrite r x new d m s) := by
  unfold encodeLoadWrite
  repeat' first
    | with_reducible exact hk
    | extract_lets
    | with_reducible apply setF_keeps
    | with_reducible apply put_keeps
    | (with_reducible refine Keeps.lit ?_; first | with_reducible exact hk | with_reducible apply setF_keeps | with_reducible apply put_keeps)
    | with_reducible apply Keeps.ite
    | split
    | dsimp +zetaDelta only

theorem encodeFillDone_keeps {z : State} {s : State} {c : Nat} (hk : Keeps z s) :
    Keeps z (encodeFillDone s c) := by
  unfold encodeFillDone
  split
  · exact hk
  · exact fill_keeps (Keeps.lit (setF_keeps hk))

theorem underRestart_keeps {z s : State} {r : Req} {x : Found} {new d m : Nat}  (hk : Keeps z s) : Keeps z (underRestart r x new d m s) := by
  unfold underRestart
  repeat' first
    | with_reducible exact hk
    | with_reducible apply setF_keeps

end Sys2Proof.Machine.State
end

