-- ==== Sys2Proof/Laws/KeepsLand.lean ====
section
/-! SUPPORT. Every operation of Land.lean keeps the queue and the canonical form (Keeps). -/

namespace Sys2Proof.Machine.State

theorem rejectEach_keeps {z : State} {f : State → Nat → Option State} {l : List Nat} {a : Bool × State}
    (h : ∀ s n t, f s n = some t → Keeps s t) (k : Keeps z a.2) : Keeps z (rejectEach f l a).2 := by
  unfold rejectEach
  refine Keeps.foldl_snd (fun t x => ?_) k
  split
  · next t' e => exact h _ _ _ e
  · exact Keeps.refl _

end Sys2Proof.Machine.State

namespace Sys2Proof.Machine.State

theorem goLive_keeps {z s : State} {lo hi : Nat} (h : lo ≤ hi) (hk : Keeps z s) : Keeps z (goLive s lo hi) := by
  unfold goLive
  refine hk.trans ⟨rfl, fun c => ⟨c.1, c.2.1, putRange_rising h c.2.2 (Tab.rising_sub List.filter_sublist c.2.1) ?_⟩⟩
  intro p hp
  have := (List.mem_filter.mp hp).2
  simp only [Bool.and_eq_true, decide_eq_true_eq] at this
  exact this

theorem liveEntry_keeps {z : State} {s : State} {old : State} {e : Nat} (hk : Keeps z s) :
    Keeps z (liveEntry s old e) := by
  unfold liveEntry
  repeat' first
    | with_reducible exact hk
    | extract_lets
    | intro _
    | with_reducible apply addPoison_keeps
    | with_reducible apply put_keeps
    | with_reducible apply slabUeWords_keeps
    | with_reducible apply Keeps.foldl
    | with_reducible apply Keeps.foldl_fst
    | with_reducible apply Keeps.foldl_snd
    | with_reducible refine Keeps.fst ?_ (by assumption)
    | with_reducible exact Keeps.refl _
    | dsimp +zetaDelta only

theorem transfer_keeps {z : State} {s : State} {u : Nat} (hk : Keeps z s) :
    Keeps z (transfer s u) := by
  unfold transfer
  repeat' first
    | with_reducible exact hk
    | extract_lets
    | intro _
    | with_reducible apply goLive_keeps
    | with_reducible apply liveEntry_keeps
    | with_reducible apply Keeps.foldl
    | with_reducible apply Keeps.foldl_fst
    | with_reducible apply Keeps.foldl_snd
    | with_reducible refine Keeps.fst ?_ (by assumption)
    | omega
    | with_reducible apply Keeps.ite
    | split
    | with_reducible exact Keeps.refl _
    | dsimp +zetaDelta only

theorem transferAll_keeps {z : State} {s : State} {us : List Nat} (hk : Keeps z s) :
    Keeps z (transferAll s us) := by
  unfold transferAll
  repeat' first
    | with_reducible exact hk
    | intro _
    | with_reducible apply transfer_keeps
    | with_reducible apply Keeps.foldl
    | with_reducible apply Keeps.foldl_fst
    | with_reducible apply Keeps.foldl_snd
    | with_reducible refine Keeps.fst ?_ (by assumption)
    | with_reducible exact Keeps.refl _

theorem engineReject_keeps {z : State} {s t : State} {own : Bool} {n : Nat} {t_ : State} (hk : Keeps z s) (e : engineReject s t own n = some t_) : Keeps z t_ := by
  unfold engineReject at e
  repeat' split at e
  all_goals cases e
  all_goals exact raise_keeps (setF_keeps hk)

theorem clusterReject_keeps {z : State} {s t : State} {own : Bool} {c : Nat} {t_ : State} (hk : Keeps z s) (e : clusterReject s t own c = some t_) : Keeps z t_ := by
  unfold clusterReject at e
  repeat' split at e
  all_goals cases e
  all_goals exact raise_keeps (setF_keeps hk)

theorem rasterReject_keeps {z : State} {s old t : State} {m : Nat} {t_ : State} (hk : Keeps z s) (e : rasterReject s old t m = some t_) : Keeps z t_ := by
  unfold rasterReject at e
  dsimp only at e
  split at e
  · cases e
    exact orsRaise_keeps (setF_keeps (setF_keeps hk))
  · cases e

theorem unitReject_keeps {z : State} {s t : State} {governed : Bool} {us : List Nat} (hk : Keeps z s) :
    Keeps z (unitReject s t governed us).2 := by
  unfold unitReject
  extract_lets ms lead moved ns cs a1 a2
  have h1 : Keeps z a1.2 := rejectEach_keeps (fun _ _ _ e => engineReject_keeps (Keeps.refl _) e) hk
  have h2 : Keeps z a2.2 := rejectEach_keeps (fun _ _ _ e => clusterReject_keeps (Keeps.refl _) e) h1
  exact rejectEach_keeps (fun _ _ _ e => rasterReject_keeps (Keeps.refl _) e) h2

theorem recordLanding_keeps {z : State} {s : State} {us : List Nat} {ok : Bool} {cause frame : Nat} {gov : Nat → Nat} (hk : Keeps z s) :
    Keeps z (recordLanding s us ok cause frame gov) := by
  unfold recordLanding
  repeat' first
    | with_reducible exact hk
    | extract_lets
    | intro _
    | with_reducible apply setF_keeps
    | with_reducible apply raise_keeps
    | with_reducible apply Keeps.foldl
    | with_reducible apply Keeps.foldl_fst
    | with_reducible apply Keeps.foldl_snd
    | with_reducible refine Keeps.fst ?_ (by assumption)
    | (with_reducible refine Keeps.lit ?_; first | with_reducible exact hk | with_reducible apply setF_keeps | with_reducible apply raise_keeps | with_reducible apply Keeps.foldl | with_reducible apply Keeps.foldl_fst | with_reducible apply Keeps.foldl_snd | with_reducible refine Keeps.fst ?_ (by assumption))
    | (with_reducible refine Keeps.lit ?_; with_reducible exact Keeps.refl _)
    | with_reducible apply Keeps.ite
    | split
    | with_reducible exact Keeps.refl _
    | dsimp +zetaDelta only

theorem soil_keeps {z : State} {s : State} {m : Nat} (hk : Keeps z s) :
    Keeps z (soil s m) := by
  unfold soil
  repeat' first
    | with_reducible exact hk
    | with_reducible apply setRaster_keeps
    | (with_reducible refine Keeps.lit ?_; first | with_reducible exact hk | with_reducible apply setRaster_keeps)

theorem absorbShift_keeps {z : State} {s : State} {m : Nat} {old new : Timing} (hk : Keeps z s) :
    Keeps z (absorbShift s m old new) := by
  unfold absorbShift
  repeat' first
    | with_reducible exact hk
    | extract_lets
    | with_reducible apply setRaster_keeps
    | (with_reducible refine Keeps.lit ?_; first | with_reducible exact hk | with_reducible apply setRaster_keeps)
    | with_reducible apply Keeps.ite
    | split
    | dsimp +zetaDelta only

theorem rasterLanded_keeps {z : State} {old s : State} {m k : Nat} (hk : Keeps z s) :
    Keeps z (rasterLanded old s m k) := by
  unfold rasterLanded
  repeat' first
    | with_reducible exact hk
    | extract_lets
    | with_reducible apply setF_keeps
    | with_reducible apply soil_keeps
    | with_reducible apply setRaster_keeps
    | with_reducible apply modeFrames_keeps
    | with_reducible apply absorbShift_keeps
    | (with_reducible refine Keeps.lit ?_; first | with_reducible exact hk | with_reducible apply setF_keeps | with_reducible apply soil_keeps | with_reducible apply setRaster_keeps | with_reducible apply modeFrames_keeps | with_reducible apply absorbShift_keeps)
    | with_reducible apply Keeps.ite
    | split
    | dsimp +zetaDelta only

theorem land_keeps {z : State} {s : State} {us : List Nat} {governed : Bool} {k : Nat} (hk : Keeps z s) :
    Keeps z (land s us governed k) := by
  unfold land
  repeat' first
    | with_reducible exact hk
    | extract_lets
    | intro _
    | with_reducible apply transferAll_keeps
    | with_reducible apply recordLanding_keeps
    | with_reducible refine Keeps.snd (unitReject_keeps ?_) (by assumption)
    | with_reducible apply unitReject_keeps
    | with_reducible apply dirtyEngine_keeps
    | with_reducible apply soil_keeps
    | with_reducible apply rasterLanded_keeps
    | with_reducible apply Keeps.foldl
    | with_reducible apply Keeps.foldl_fst
    | with_reducible apply Keeps.foldl_snd
    | with_reducible refine Keeps.fst ?_ (by assumption)
    | with_reducible apply Keeps.ite
    | split
    | with_reducible refine Keeps.snd ?_ (by assumption)
    | dsimp only
    | with_reducible exact Keeps.refl _
    | dsimp +zetaDelta only

theorem landAt_keeps {z : State} {s : State} {m k : Nat} {whole : Bool} (hk : Keeps z s) :
    Keeps z (landAt s m k whole) := by
  unfold landAt
  repeat' first
    | with_reducible exact hk
    | extract_lets
    | with_reducible apply land_keeps
    | with_reducible apply Keeps.ite
    | split
    | dsimp +zetaDelta only

theorem ungovernedLanding_keeps {z : State} {s : State} (hk : Keeps z s) :
    Keeps z (ungovernedLanding s) := by
  unfold ungovernedLanding
  repeat' first
    | with_reducible exact hk
    | with_reducible apply land_keeps

theorem registerCommit_keeps {z : State} {s : State} {mask : Nat} (hk : Keeps z s) :
    Keeps z (registerCommit s mask).2 := by
  unfold registerCommit
  repeat' first
    | with_reducible exact hk
    | extract_lets
    | with_reducible apply setF_keeps
    | with_reducible apply setReg_keeps
    | (with_reducible refine Keeps.lit ?_; first | with_reducible exact hk | with_reducible apply setF_keeps | with_reducible apply setReg_keeps)
    | with_reducible apply Keeps.ite
    | split
    | dsimp only
    | dsimp +zetaDelta only

theorem cueCommitWrite_keeps {z s : State} {r : Req} {x : Found} {new d m : Nat}  (hk : Keeps z s) : Keeps z (cueCommitWrite r x new d m s) := by
  unfold cueCommitWrite
  repeat' first
    | with_reducible exact hk
    | extract_lets
    | with_reducible refine Keeps.snd (registerCommit_keeps ?_) (by assumption)
    | with_reducible apply registerCommit_keeps
    | with_reducible apply put_keeps
    | (with_reducible refine Keeps.lit ?_; first | with_reducible exact hk | with_reducible refine Keeps.snd (registerCommit_keeps ?_) (by assumption) | with_reducible apply registerCommit_keeps | with_reducible apply put_keeps)
    | with_reducible apply Keeps.ite
    | split
    | with_reducible refine Keeps.snd ?_ (by assumption)
    | dsimp only
    | dsimp +zetaDelta only

end Sys2Proof.Machine.State
end

