-- ==== Sys2Proof/Laws/KeepsFrame.lean ====
section
/-! SUPPORT. Every operation of Frame.lean keeps the queue and the canonical form (Keeps). -/

namespace Sys2Proof.Machine.State

theorem setSwappable_keeps {z : State} {s : State} (hk : Keeps z s) :
    Keeps z (setSwappable s) := by
  unfold setSwappable
  repeat' first
    | with_reducible exact hk
    | extract_lets
    | intro _
    | with_reducible apply setF_keeps
    | with_reducible apply Keeps.forN
    | with_reducible apply Keeps.ite
    | split
    | with_reducible exact Keeps.refl _
    | dsimp +zetaDelta only

theorem swapLanded_keeps {z : State} {s : State} (hk : Keeps z s) :
    Keeps z (swapLanded s) := by
  unfold swapLanded
  repeat' first
    | with_reducible exact hk
    | with_reducible apply setF_keeps
    | with_reducible apply setSwappable_keeps
    | with_reducible apply raise_keeps
    | with_reducible apply Keeps.ite
    | split

theorem swapDone_keeps {z : State} {s : State} {m : Nat} (hk : Keeps z s) :
    Keeps z (swapDone s m) := by
  unfold swapDone
  repeat' first
    | with_reducible exact hk
    | (with_reducible refine Keeps.lit ?_; first | with_reducible exact hk)

theorem loadTiming_keeps {z : State} {s : State} {i m : Nat} (hk : Keeps z s) :
    Keeps z (loadTiming s i m) := by
  unfold loadTiming
  repeat' first
    | with_reducible exact hk
    | extract_lets
    | with_reducible apply setReg_keeps
    | with_reducible apply setLreg_keeps
    | dsimp +zetaDelta only

theorem markDue_keeps {z : State} {s : State} (hk : Keeps z s) :
    Keeps z (markDue s) := by
  unfold markDue
  repeat' first
    | with_reducible exact hk
    | (with_reducible refine Keeps.lit ?_; first | with_reducible exact hk)
    | with_reducible apply Keeps.ite
    | split

theorem closePass_keeps {z : State} {s : State} {m n : Nat} (hk : Keeps z s) :
    Keeps z (closePass s m n) := by
  unfold closePass
  repeat' first
    | with_reducible exact hk
    | extract_lets
    | with_reducible apply setEngine_keeps
    | (with_reducible refine Keeps.lit ?_; first | with_reducible exact hk | with_reducible apply setEngine_keeps)
    | dsimp +zetaDelta only

theorem endPass_keeps {z : State} {s : State} {m : Nat} (hk : Keeps z s) :
    Keeps z (endPass s m) := by
  unfold endPass
  repeat' first
    | with_reducible exact hk
    | extract_lets
    | intro _
    | with_reducible apply closePass_keeps
    | with_reducible apply setRaster_keeps
    | with_reducible apply Keeps.forN
    | (with_reducible refine Keeps.lit ?_; first | with_reducible exact hk | with_reducible apply closePass_keeps | with_reducible apply setRaster_keeps | with_reducible apply Keeps.forN)
    | (with_reducible refine Keeps.lit ?_; with_reducible exact Keeps.refl _)
    | with_reducible exact Keeps.refl _
    | dsimp +zetaDelta only

theorem openPass_keeps {z : State} {s : State} {m : Nat} {plan : Nat × Nat × Nat} {sent : Bool} (hk : Keeps z s) :
    Keeps z (openPass s m plan sent) := by
  unfold openPass
  repeat' first
    | with_reducible exact hk
    | extract_lets
    | with_reducible apply endPass_keeps
    | with_reducible apply setRaster_keeps
    | with_reducible apply planBlock_keeps
    | (with_reducible refine Keeps.lit ?_; first | with_reducible exact hk | with_reducible apply endPass_keeps | with_reducible apply setRaster_keeps | with_reducible apply planBlock_keeps)
    | with_reducible apply Keeps.ite
    | split
    | dsimp +zetaDelta only

theorem sendTolerances_keeps {z : State} {s : State} {m : Nat} (hk : Keeps z s) :
    Keeps z (sendTolerances s m) := by
  unfold sendTolerances
  repeat' first
    | with_reducible exact hk
    | intro _
    | with_reducible apply toleranceUpdate_keeps
    | with_reducible apply Keeps.forN
    | with_reducible apply Keeps.ite
    | split
    | with_reducible exact Keeps.refl _

theorem refetch_keeps {z : State} {s : State} {m : Nat} (hk : Keeps z s) :
    Keeps z (refetch s m) := by
  unfold refetch
  repeat' first
    | with_reducible exact hk
    | extract_lets
    | with_reducible apply openPass_keeps
    | with_reducible apply Keeps.ite
    | split
    | dsimp +zetaDelta only

theorem startFrameOf_keeps {z : State} {s : State} {m k : Nat} {hit : Bool} (hk : Keeps z s) :
    Keeps z (startFrameOf s m k hit) := by
  unfold startFrameOf
  repeat' first
    | with_reducible exact hk
    | extract_lets
    | with_reducible apply setRaster_keeps
    | with_reducible apply refetch_keeps
    | with_reducible apply sigFrameStart_keeps
    | with_reducible apply markDue_keeps
    | (with_reducible refine Keeps.lit ?_; first | with_reducible exact hk | with_reducible apply setRaster_keeps | with_reducible apply refetch_keeps | with_reducible apply sigFrameStart_keeps | with_reducible apply markDue_keeps)
    | with_reducible apply Keeps.ite
    | split
    | dsimp +zetaDelta only

theorem setPhase_keeps {z : State} {s : State} {m state : Nat} {err : Int} (hk : Keeps z s) :
    Keeps z (setPhase s m state err) := by
  unfold setPhase
  repeat' first
    | with_reducible exact hk
    | with_reducible apply setF_keeps

theorem firstFrame_keeps {z : State} {s : State} {m k : Nat} (hk : Keeps z s) :
    Keeps z (firstFrame s m k) := by
  unfold firstFrame
  repeat' first
    | with_reducible exact hk
    | extract_lets
    | with_reducible apply setRaster_keeps
    | with_reducible apply openPass_keeps
    | with_reducible apply startFrameOf_keeps
    | with_reducible apply soil_keeps
    | with_reducible apply setPhase_keeps
    | with_reducible apply sendTolerances_keeps
    | with_reducible apply swapDone_keeps
    | with_reducible apply swapLanded_keeps
    | (with_reducible refine Keeps.lit ?_; first | with_reducible exact hk | with_reducible apply setRaster_keeps | with_reducible apply openPass_keeps | with_reducible apply startFrameOf_keeps | with_reducible apply soil_keeps | with_reducible apply setPhase_keeps | with_reducible apply sendTolerances_keeps | with_reducible apply swapDone_keeps | with_reducible apply swapLanded_keeps)
    | with_reducible apply Keeps.ite
    | split
    | dsimp +zetaDelta only

theorem rasterFrameStart_keeps {z : State} {s : State} {m : Nat} (hk : Keeps z s) :
    Keeps z (rasterFrameStart s m) := by
  unfold rasterFrameStart
  repeat' first
    | with_reducible exact hk
    | with_reducible apply startFrameOf_keeps
    | with_reducible apply firstFrame_keeps
    | with_reducible apply Keeps.ite
    | split

theorem beginWait_keeps {z : State} {s : State} {m : Nat} (hk : Keeps z s) :
    Keeps z (beginWait s m) := by
  unfold beginWait
  repeat' first
    | with_reducible exact hk
    | extract_lets
    | with_reducible apply setRaster_keeps
    | with_reducible apply waitBeacons_keeps
    | with_reducible apply tbRaise_keeps
    | (with_reducible refine Keeps.lit ?_; first | with_reducible exact hk | with_reducible apply setRaster_keeps | with_reducible apply waitBeacons_keeps | with_reducible apply tbRaise_keeps)
    | with_reducible apply Keeps.ite
    | split
    | dsimp +zetaDelta only

theorem rasterFrameEnd_keeps {z : State} {s : State} {m : Nat} (hk : Keeps z s) :
    Keeps z (rasterFrameEnd s m) := by
  unfold rasterFrameEnd
  repeat' first
    | with_reducible exact hk
    | extract_lets
    | with_reducible apply setRaster_keeps
    | with_reducible apply setPhase_keeps
    | with_reducible apply startFrameOf_keeps
    | with_reducible apply beginWait_keeps
    | (with_reducible refine Keeps.lit ?_; first | with_reducible exact hk | with_reducible apply setRaster_keeps | with_reducible apply setPhase_keeps | with_reducible apply startFrameOf_keeps | with_reducible apply beginWait_keeps)
    | with_reducible apply Keeps.ite
    | split
    | dsimp +zetaDelta only

theorem retime_keeps {z : State} {s : State} {m : Nat} (hk : Keeps z s) :
    Keeps z (retime s m) := by
  unfold retime
  repeat' first
    | with_reducible exact hk
    | extract_lets
    | with_reducible apply setRaster_keeps
    | with_reducible apply setPhase_keeps
    | with_reducible apply beginWait_keeps
    | (with_reducible refine Keeps.lit ?_; first | with_reducible exact hk | with_reducible apply setRaster_keeps | with_reducible apply setPhase_keeps | with_reducible apply beginWait_keeps)
    | with_reducible apply Keeps.ite
    | split
    | dsimp +zetaDelta only

theorem rasterWaitEnd_keeps {z : State} {s : State} {m : Nat} (hk : Keeps z s) :
    Keeps z (rasterWaitEnd s m) := by
  unfold rasterWaitEnd
  repeat' first
    | with_reducible exact hk
    | with_reducible apply startFrameOf_keeps
    | with_reducible apply Keeps.ite
    | split

theorem landSwap_keeps {z : State} {s : State} {x : Nat} (hk : Keeps z s) :
    Keeps z (landSwap s x) := by
  unfold landSwap
  repeat' first
    | with_reducible exact hk
    | extract_lets
    | with_reducible apply land_keeps
    | with_reducible apply swapDone_keeps
    | with_reducible apply soil_keeps
    | with_reducible apply loadTiming_keeps
    | with_reducible apply modeFrames_keeps
    | with_reducible apply Keeps.ite
    | split
    | dsimp +zetaDelta only

theorem landStructure_keeps {z : State} {s : State} {m : Nat} (hk : Keeps z s) :
    Keeps z (landStructure s m) := by
  unfold landStructure
  repeat' first
    | with_reducible exact hk
    | intro _
    | with_reducible apply landSwap_keeps
    | with_reducible apply Keeps.foldl
    | with_reducible apply Keeps.foldl_fst
    | with_reducible apply Keeps.foldl_snd
    | with_reducible refine Keeps.fst ?_ (by assumption)
    | with_reducible refine Keeps.snd ?_ (by assumption)
    | dsimp only
    | with_reducible exact Keeps.refl _

theorem bindSurfaces_keeps {z : State} {s : State} {m F : Nat} (hk : Keeps z s) :
    Keeps z (bindSurfaces s m F) := by
  unfold bindSurfaces
  repeat' first
    | with_reducible exact hk
    | extract_lets
    | intro _
    | with_reducible apply setEngine_keeps
    | with_reducible apply dirtyEngine_keeps
    | with_reducible apply Keeps.forN
    | (with_reducible refine Keeps.lit ?_; first | with_reducible exact hk | with_reducible apply setEngine_keeps | with_reducible apply dirtyEngine_keeps | with_reducible apply Keeps.forN)
    | (with_reducible refine Keeps.lit ?_; with_reducible exact Keeps.refl _)
    | with_reducible apply Keeps.ite
    | split
    | with_reducible exact Keeps.refl _
    | dsimp +zetaDelta only

theorem sampleDirty_keeps {z : State} {s : State} {m : Nat} (hk : Keeps z s) :
    Keeps z (sampleDirty s m).2 := by
  unfold sampleDirty
  repeat' first
    | with_reducible exact hk
    | extract_lets
    | intro _
    | with_reducible apply setEngine_keeps
    | with_reducible apply Keeps.forN
    | (with_reducible refine Keeps.lit ?_; first | with_reducible exact hk | with_reducible apply setEngine_keeps | with_reducible apply Keeps.forN)
    | (with_reducible refine Keeps.lit ?_; with_reducible exact Keeps.refl _)
    | with_reducible apply Keeps.ite
    | split
    | dsimp only
    | with_reducible exact Keeps.refl _
    | dsimp +zetaDelta only

theorem decideIdle_keeps {z : State} {s : State} {m : Nat} {dirty : Bool} (hk : Keeps z s) :
    Keeps z (decideIdle s m dirty) := by
  unfold decideIdle
  repeat' first
    | with_reducible exact hk
    | extract_lets
    | with_reducible apply setF_keeps
    | with_reducible apply orsRaise_keeps
    | with_reducible apply setRaster_keeps
    | (with_reducible refine Keeps.lit ?_; first | with_reducible exact hk | with_reducible apply setF_keeps | with_reducible apply orsRaise_keeps | with_reducible apply setRaster_keeps)
    | with_reducible apply Keeps.ite
    | split
    | dsimp +zetaDelta only

theorem beginFetch_keeps {z : State} {s : State} {m k : Nat} (hk : Keeps z s) :
    Keeps z (beginFetch s m k) := by
  unfold beginFetch
  repeat' first
    | with_reducible exact hk
    | extract_lets
    | with_reducible apply setRaster_keeps
    | with_reducible apply openPass_keeps
    | (with_reducible refine Keeps.lit ?_; first | with_reducible exact hk | with_reducible apply setRaster_keeps | with_reducible apply openPass_keeps)
    | dsimp +zetaDelta only

theorem stp_keeps {z : State} {s : State} {m : Nat} (hk : Keeps z s) :
    Keeps z (stp s m) := by
  unfold stp
  repeat' first
    | with_reducible exact hk
    | extract_lets
    | with_reducible apply setRaster_keeps
    | with_reducible apply landStructure_keeps
    | with_reducible apply landAt_keeps
    | with_reducible apply bindSurfaces_keeps
    | with_reducible refine Keeps.snd (sampleDirty_keeps ?_) (by assumption)
    | with_reducible apply sampleDirty_keeps
    | with_reducible apply decideIdle_keeps
    | with_reducible apply beginFetch_keeps
    | with_reducible apply sendTolerances_keeps
    | with_reducible apply swapLanded_keeps
    | (with_reducible refine Keeps.lit ?_; first | with_reducible exact hk | with_reducible apply setRaster_keeps | with_reducible apply landStructure_keeps | with_reducible apply landAt_keeps | with_reducible apply bindSurfaces_keeps | with_reducible refine Keeps.snd (sampleDirty_keeps ?_) (by assumption) | with_reducible apply sampleDirty_keeps | with_reducible apply decideIdle_keeps | with_reducible apply beginFetch_keeps | with_reducible apply sendTolerances_keeps | with_reducible apply swapLanded_keeps)
    | with_reducible apply Keeps.ite
    | split
    | with_reducible refine Keeps.snd ?_ (by assumption)
    | dsimp only
    | dsimp +zetaDelta only

theorem restartStructure_keeps {z : State} {s : State} {m : Nat} (hk : Keeps z s) :
    Keeps z (restartStructure s m) := by
  unfold restartStructure
  repeat' first
    | with_reducible exact hk
    | extract_lets
    | intro _
    | with_reducible apply swapDone_keeps
    | with_reducible apply loadTiming_keeps
    | with_reducible apply Keeps.foldl
    | with_reducible apply Keeps.foldl_fst
    | with_reducible apply Keeps.foldl_snd
    | with_reducible refine Keeps.fst ?_ (by assumption)
    | with_reducible apply Keeps.ite
    | split
    | with_reducible exact Keeps.refl _
    | dsimp +zetaDelta only

theorem hitRasterRestart_keeps {z : State} {s : State} {m : Nat} (hk : Keeps z s) :
    Keeps z (hitRasterRestart s m) := by
  unfold hitRasterRestart
  repeat' first
    | with_reducible exact hk
    | extract_lets
    | with_reducible apply restartStructure_keeps
    | with_reducible apply landAt_keeps
    | with_reducible apply modeFrames_keeps
    | with_reducible apply setRaster_keeps
    | with_reducible apply openPass_keeps
    | with_reducible apply startFrameOf_keeps
    | with_reducible apply soil_keeps
    | with_reducible apply setPhase_keeps
    | with_reducible apply sendTolerances_keeps
    | with_reducible apply swapLanded_keeps
    | (with_reducible refine Keeps.lit ?_; first | with_reducible exact hk | with_reducible apply restartStructure_keeps | with_reducible apply landAt_keeps | with_reducible apply modeFrames_keeps | with_reducible apply setRaster_keeps | with_reducible apply openPass_keeps | with_reducible apply startFrameOf_keeps | with_reducible apply soil_keeps | with_reducible apply setPhase_keeps | with_reducible apply sendTolerances_keeps | with_reducible apply swapLanded_keeps)
    | with_reducible apply Keeps.ite
    | split
    | dsimp +zetaDelta only

end Sys2Proof.Machine.State
end

