-- ==== Sys2Proof/Laws/KeepsChain.lean ====
section
/-! SUPPORT. Every operation of Chain.lean keeps the queue and the canonical form (Keeps). -/

namespace Sys2Proof.Machine.State

theorem setChain_keeps {z : State} {s : State} {c : Chain} (hk : Keeps z s) :
    Keeps z (setChain s c) := by
  unfold setChain
  repeat' first
    | with_reducible exact hk
    | (with_reducible refine Keeps.lit ?_; first | with_reducible exact hk)

theorem chainRaise_keeps {z : State} {s : State} {flags : List Nat} (hk : Keeps z s) :
    Keeps z (chainRaise s flags) := by
  unfold chainRaise
  repeat' first
    | with_reducible exact hk
    | with_reducible apply raiseAll_keeps

theorem chainSendOn_keeps {z : State} {s : State} {p type src dst : Nat} {payload : List Byte} (hk : Keeps z s) :
    Keeps z (chainSendOn s p type src dst payload) := by
  unfold chainSendOn
  repeat' first
    | with_reducible exact hk
    | extract_lets
    | with_reducible apply pushFrame_keeps
    | with_reducible apply enqueue_keeps
    | (with_reducible refine Keeps.lit ?_; first | with_reducible exact hk | with_reducible apply pushFrame_keeps | with_reducible apply enqueue_keeps)
    | with_reducible apply Keeps.ite
    | split
    | dsimp +zetaDelta only

theorem chainSend_keeps {z : State} {s : State} {k type src dst : Nat} {payload : List Byte} (hk : Keeps z s) :
    Keeps z (chainSend s k type src dst payload) := by
  unfold chainSend
  repeat' first
    | with_reducible exact hk
    | with_reducible apply chainSendOn_keeps
    | with_reducible apply Keeps.ite
    | split

theorem chainSendTo_keeps {z : State} {s : State} {ks : List Nat} {type src dst : Nat} {payload : List Byte} (hk : Keeps z s) :
    Keeps z (chainSendTo s ks type src dst payload) := by
  unfold chainSendTo
  repeat' first
    | with_reducible exact hk
    | intro _
    | with_reducible apply chainSend_keeps
    | with_reducible apply Keeps.foldl
    | with_reducible apply Keeps.foldl_fst
    | with_reducible apply Keeps.foldl_snd
    | with_reducible refine Keeps.fst ?_ (by assumption)
    | with_reducible exact Keeps.refl _

theorem chainSendAll_keeps {z : State} {s : State} {ks : List Nat} {type : Nat} {payload : List Byte} (hk : Keeps z s) :
    Keeps z (chainSendAll s ks type payload) := by
  unfold chainSendAll
  repeat' first
    | with_reducible exact hk
    | with_reducible apply chainSendTo_keeps

theorem chainTake_keeps {z : State} {s : State} {p : Nat} (hk : Keeps z s) :
    Keeps z (chainTake s p) := by
  unfold chainTake
  repeat' first
    | with_reducible exact hk
    | with_reducible apply takeRx_keeps
    | with_reducible apply Keeps.ite
    | split

theorem sendUp_keeps {z : State} {s : State} {type src : Nat} {payload : List Byte} (hk : Keeps z s) :
    Keeps z (sendUp s type src payload) := by
  unfold sendUp
  repeat' first
    | with_reducible exact hk
    | with_reducible apply chainSendTo_keeps

theorem resetPeers_keeps {z : State} {s : State} (hk : Keeps z s) :
    Keeps z (resetPeers s) := by
  unfold resetPeers
  repeat' first
    | with_reducible exact hk
    | extract_lets
    | intro _
    | with_reducible apply setReg_keeps
    | with_reducible apply Keeps.forN
    | with_reducible apply Keeps.ite
    | split
    | with_reducible exact Keeps.refl _
    | dsimp +zetaDelta only

theorem linkInit_keeps {z : State} {s : State} {k : Nat} (hk : Keeps z s) :
    Keeps z (linkInit s k) := by
  unfold linkInit
  repeat' first
    | with_reducible exact hk
    | extract_lets
    | with_reducible apply setReg_keeps
    | with_reducible apply Keeps.ite
    | split
    | dsimp +zetaDelta only

theorem leaveSources_keeps {z : State} {s : State} (hk : Keeps z s) :
    Keeps z (leaveSources s) := by
  unfold leaveSources
  repeat' first
    | with_reducible exact hk
    | extract_lets
    | with_reducible apply selectedLost_keeps
    | with_reducible apply Keeps.ite
    | split
    | dsimp +zetaDelta only

theorem chainActivate_keeps {z : State} {s : State} (hk : Keeps z s) :
    Keeps z (chainActivate s) := by
  unfold chainActivate
  repeat' first
    | with_reducible exact hk
    | extract_lets
    | intro _
    | with_reducible apply setF_keeps
    | with_reducible apply setChain_keeps
    | with_reducible apply linkInit_keeps
    | with_reducible apply resetPeers_keeps
    | with_reducible apply leaveSources_keeps
    | with_reducible apply Keeps.forN
    | (with_reducible refine Keeps.lit ?_; first | with_reducible exact hk | with_reducible apply setF_keeps | with_reducible apply setChain_keeps | with_reducible apply linkInit_keeps | with_reducible apply resetPeers_keeps | with_reducible apply leaveSources_keeps | with_reducible apply Keeps.forN)
    | (with_reducible refine Keeps.lit ?_; with_reducible exact Keeps.refl _)
    | with_reducible apply Keeps.ite
    | split
    | with_reducible exact Keeps.refl _
    | dsimp +zetaDelta only

theorem depose_keeps {z : State} {s : State} {epoch : Nat} (hk : Keeps z s) :
    Keeps z (depose s epoch) := by
  unfold depose
  repeat' first
    | with_reducible exact hk
    | with_reducible apply setF_keeps
    | with_reducible apply resetPeers_keeps
    | with_reducible apply chainRaise_keeps

theorem showLink_keeps {z : State} {s : State} {k : Nat} {down : Nat} (hk : Keeps z s) :
    Keeps z (showLink s k down) := by
  unfold showLink
  repeat' first
    | with_reducible exact hk
    | extract_lets
    | with_reducible apply setF_keeps
    | with_reducible apply Keeps.ite
    | split
    | dsimp +zetaDelta only

theorem cueResync_keeps {z : State} {s : State} {k : Nat} (hk : Keeps z s) :
    Keeps z (cueResync s k) := by
  unfold cueResync
  repeat' first
    | with_reducible exact hk
    | intro _
    | with_reducible apply chainSendAll_keeps
    | with_reducible apply Keeps.foldl
    | with_reducible apply Keeps.foldl_fst
    | with_reducible apply Keeps.foldl_snd
    | with_reducible refine Keeps.fst ?_ (by assumption)
    | with_reducible apply Keeps.ite
    | split
    | with_reducible exact Keeps.refl _

theorem bootEndOver_keeps {z : State} {s : State} {k : Nat} (hk : Keeps z s) :
    Keeps z (bootEndOver s k) := by
  unfold bootEndOver
  repeat' first
    | with_reducible exact hk
    | extract_lets
    | with_reducible apply setChain_keeps
    | with_reducible apply cueResync_keeps
    | (with_reducible refine Keeps.lit ?_; first | with_reducible exact hk | with_reducible apply setChain_keeps | with_reducible apply cueResync_keeps)
    | with_reducible apply Keeps.ite
    | split
    | dsimp +zetaDelta only

theorem trainReceived_keeps {z : State} {s0 : State} {p : Nat} {t : Train} (hk : Keeps z s0) :
    Keeps z (trainReceived s0 p t) := by
  unfold trainReceived
  repeat' first
    | with_reducible exact hk
    | extract_lets
    | with_reducible apply chainTake_keeps
    | with_reducible apply depose_keeps
    | with_reducible apply setF_keeps
    | with_reducible apply bootEndOver_keeps
    | with_reducible apply setChain_keeps
    | with_reducible apply showLink_keeps
    | with_reducible apply chainRaise_keeps
    | with_reducible apply cueResync_keeps
    | (with_reducible refine Keeps.lit ?_; first | with_reducible exact hk | with_reducible apply chainTake_keeps | with_reducible apply depose_keeps | with_reducible apply setF_keeps | with_reducible apply bootEndOver_keeps | with_reducible apply setChain_keeps | with_reducible apply showLink_keeps | with_reducible apply chainRaise_keeps | with_reducible apply cueResync_keeps)
    | with_reducible apply Keeps.ite
    | split
    | dsimp +zetaDelta only

theorem chainTimeLost_keeps {z : State} {s : State} (hk : Keeps z s) :
    Keeps z (chainTimeLost s) := by
  unfold chainTimeLost
  repeat' first
    | with_reducible exact hk
    | extract_lets
    | with_reducible apply setChain_keeps
    | with_reducible apply chainRaise_keeps
    | with_reducible apply sourceLost_keeps
    | (with_reducible refine Keeps.lit ?_; first | with_reducible exact hk | with_reducible apply setChain_keeps | with_reducible apply chainRaise_keeps | with_reducible apply sourceLost_keeps)
    | with_reducible apply Keeps.ite
    | split
    | dsimp +zetaDelta only

theorem replLost_keeps {z : State} {s : State} {k n : Nat} (hk : Keeps z s) :
    Keeps z (replLost s k n) := by
  unfold replLost
  repeat' first
    | with_reducible exact hk
    | with_reducible apply satF_keeps
    | with_reducible apply chainRaise_keeps
    | with_reducible apply Keeps.ite
    | split

theorem portReceive_keeps {z : State} {s : State} {p : Nat} {frame : List Byte} {fcsOk : Bool} {billet : Ecc} (hk : Keeps z s) :
    Keeps z (portReceive s p frame fcsOk billet) := by
  unfold portReceive
  repeat' first
    | with_reducible exact hk
    | extract_lets
    | with_reducible apply portRxFrame_keeps
    | with_reducible refine Keeps.snd (takeOneByOne_keeps ?_) (by assumption)
    | with_reducible apply takeOneByOne_keeps
    | with_reducible apply replLost_keeps
    | with_reducible apply Keeps.ite
    | split
    | dsimp +zetaDelta only

theorem portLeaves_keeps {z : State} {s : State} {p : Nat} (hk : Keeps z s) :
    Keeps z (portLeaves s p) := by
  unfold portLeaves
  repeat' first
    | with_reducible exact hk
    | extract_lets
    | intro _
    | with_reducible apply setChain_keeps
    | with_reducible apply setPort_keeps
    | with_reducible apply freeBillets_keeps
    | with_reducible apply judgeHeads_keeps
    | with_reducible apply satF_keeps
    | with_reducible apply portRaise_keeps
    | with_reducible apply replLost_keeps
    | with_reducible apply showLink_keeps
    | with_reducible apply chainRaise_keeps
    | with_reducible apply chainTimeLost_keeps
    | with_reducible apply Keeps.forN
    | (with_reducible refine Keeps.lit ?_; first | with_reducible exact hk | with_reducible apply setChain_keeps | with_reducible apply setPort_keeps | with_reducible apply freeBillets_keeps | with_reducible apply judgeHeads_keeps | with_reducible apply satF_keeps | with_reducible apply portRaise_keeps | with_reducible apply replLost_keeps | with_reducible apply showLink_keeps | with_reducible apply chainRaise_keeps | with_reducible apply chainTimeLost_keeps | with_reducible apply Keeps.forN)
    | (with_reducible refine Keeps.lit ?_; with_reducible exact Keeps.refl _)
    | with_reducible apply Keeps.ite
    | split
    | with_reducible exact Keeps.refl _
    | dsimp +zetaDelta only

theorem chainFollow_keeps {z : State} {s : State} (hk : Keeps z s) :
    Keeps z (chainFollow s) := by
  unfold chainFollow
  repeat' first
    | with_reducible exact hk
    | intro _
    | with_reducible apply portLeaves_keeps
    | with_reducible apply Keeps.foldl
    | with_reducible apply Keeps.foldl_fst
    | with_reducible apply Keeps.foldl_snd
    | with_reducible refine Keeps.fst ?_ (by assumption)
    | with_reducible apply Keeps.ite
    | split
    | with_reducible exact Keeps.refl _

theorem laneCfgThen_keeps {z s : State} {r : Req} {x : Found} {new d m : Nat}  (hk : Keeps z s) : Keeps z (laneCfgThen r x new d m s) := by
  unfold laneCfgThen
  repeat' first
    | with_reducible exact hk
    | with_reducible apply laneCfgWrite_keeps
    | with_reducible apply chainFollow_keeps

theorem trainTx_keeps {z : State} {s : State} {p : Nat} (hk : Keeps z s) :
    Keeps z (trainTx s p) := by
  unfold trainTx
  repeat' first
    | with_reducible exact hk
    | extract_lets
    | with_reducible apply chainSendOn_keeps
    | with_reducible apply Keeps.ite
    | split
    | dsimp +zetaDelta only

theorem seeEpoch_keeps {z : State} {s : State} {e : Nat} (hk : Keeps z s) :
    Keeps z (seeEpoch s e) := by
  unfold seeEpoch
  repeat' first
    | with_reducible exact hk
    | with_reducible apply setF_keeps
    | with_reducible apply Keeps.ite
    | split

theorem timeExchangeStart_keeps {z : State} {s : State} {k : Nat} (hk : Keeps z s) :
    Keeps z (timeExchangeStart s k) := by
  unfold timeExchangeStart
  repeat' first
    | with_reducible exact hk
    | with_reducible apply chainSendAll_keeps
    | with_reducible apply Keeps.ite
    | split

theorem timeRequestReceived_keeps {z : State} {s0 : State} {p epoch t1 : Nat} (hk : Keeps z s0) :
    Keeps z (timeRequestReceived s0 p epoch t1) := by
  unfold timeRequestReceived
  repeat' first
    | with_reducible exact hk
    | extract_lets
    | with_reducible apply chainTake_keeps
    | with_reducible apply seeEpoch_keeps
    | with_reducible apply chainSendOn_keeps
    | with_reducible apply Keeps.ite
    | split
    | dsimp +zetaDelta only

theorem timeReplyReceived_keeps {z : State} {s0 : State} {k epoch : Nat} {t1 t2 t3 t4 : Int} (hk : Keeps z s0) :
    Keeps z (timeReplyReceived s0 k epoch t1 t2 t3 t4) := by
  unfold timeReplyReceived
  repeat' first
    | with_reducible exact hk
    | extract_lets
    | with_reducible apply chainTake_keeps
    | with_reducible apply seeEpoch_keeps
    | with_reducible apply setF_keeps
    | with_reducible apply setChain_keeps
    | with_reducible apply measurement_keeps
    | with_reducible apply sourceQualified_keeps
    | (with_reducible refine Keeps.lit ?_; first | with_reducible exact hk | with_reducible apply chainTake_keeps | with_reducible apply seeEpoch_keeps | with_reducible apply setF_keeps | with_reducible apply setChain_keeps | with_reducible apply measurement_keeps | with_reducible apply sourceQualified_keeps)
    | with_reducible apply Keeps.ite
    | split
    | dsimp +zetaDelta only

theorem chainLineStart_keeps {z : State} {s : State} (hk : Keeps z s) :
    Keeps z (chainLineStart s) := by
  unfold chainLineStart
  repeat' first
    | with_reducible exact hk
    | extract_lets
    | intro _
    | with_reducible apply satF_keeps
    | with_reducible apply chainSendAll_keeps
    | with_reducible apply setChain_keeps
    | with_reducible apply sendUp_keeps
    | with_reducible apply Keeps.forN
    | (with_reducible refine Keeps.lit ?_; first | with_reducible exact hk | with_reducible apply satF_keeps | with_reducible apply chainSendAll_keeps | with_reducible apply setChain_keeps | with_reducible apply sendUp_keeps | with_reducible apply Keeps.forN)
    | (with_reducible refine Keeps.lit ?_; with_reducible exact Keeps.refl _)
    | with_reducible apply Keeps.ite
    | split
    | with_reducible exact Keeps.refl _
    | dsimp +zetaDelta only

theorem compareRate_keeps {z : State} {s : State} {h : Heartbeat} (hk : Keeps z s) :
    Keeps z (compareRate s h) := by
  unfold compareRate
  repeat' first
    | with_reducible exact hk
    | with_reducible apply satF_keeps
    | with_reducible apply chainRaise_keeps
    | with_reducible apply Keeps.ite
    | split

theorem heartbeatReceived_keeps {z : State} {s0 : State} {p : Nat} {h : Heartbeat} (hk : Keeps z s0) :
    Keeps z (heartbeatReceived s0 p h) := by
  unfold heartbeatReceived
  repeat' first
    | with_reducible exact hk
    | extract_lets
    | intro _
    | with_reducible apply chainTake_keeps
    | with_reducible apply compareRate_keeps
    | with_reducible apply depose_keeps
    | with_reducible apply setF_keeps
    | with_reducible apply setChain_keeps
    | with_reducible apply chainSendAll_keeps
    | with_reducible apply Keeps.forN
    | (with_reducible refine Keeps.lit ?_; first | with_reducible exact hk | with_reducible apply chainTake_keeps | with_reducible apply compareRate_keeps | with_reducible apply depose_keeps | with_reducible apply setF_keeps | with_reducible apply setChain_keeps | with_reducible apply chainSendAll_keeps | with_reducible apply Keeps.forN)
    | (with_reducible refine Keeps.lit ?_; with_reducible exact Keeps.refl _)
    | with_reducible apply Keeps.ite
    | split
    | with_reducible exact Keeps.refl _
    | dsimp +zetaDelta only

theorem statusReceived_keeps {z : State} {s0 : State} {p src : Nat} (hk : Keeps z s0) :
    Keeps z (statusReceived s0 p src) := by
  unfold statusReceived
  repeat' first
    | with_reducible exact hk
    | extract_lets
    | with_reducible apply chainTake_keeps
    | with_reducible apply setF_keeps
    | with_reducible apply sendUp_keeps
    | with_reducible apply Keeps.ite
    | split
    | dsimp +zetaDelta only

theorem peerLost_keeps {z : State} {s : State} {n : Nat} (hk : Keeps z s) :
    Keeps z (peerLost s n) := by
  unfold peerLost
  repeat' first
    | with_reducible exact hk
    | with_reducible apply setF_keeps
    | with_reducible apply chainRaise_keeps
    | with_reducible apply Keeps.ite
    | split

theorem chainTakeoverWrite_keeps {z s : State} {r : Req} {x : Found} {new d m : Nat}  (hk : Keeps z s) : Keeps z (chainTakeoverWrite r x new d m s) := by
  unfold chainTakeoverWrite
  repeat' first
    | with_reducible exact hk
    | with_reducible apply setChain_keeps
    | (with_reducible refine Keeps.lit ?_; first | with_reducible exact hk | with_reducible apply setChain_keeps)
    | with_reducible apply Keeps.ite
    | split

theorem takeover_keeps {z : State} {s : State} (hk : Keeps z s) :
    Keeps z (takeover s) := by
  unfold takeover
  repeat' first
    | with_reducible exact hk
    | extract_lets
    | intro _
    | with_reducible apply setF_keeps
    | with_reducible apply satF_keeps
    | with_reducible apply portLeaves_keeps
    | with_reducible apply setReg_keeps
    | with_reducible apply setChain_keeps
    | with_reducible apply resetPeers_keeps
    | with_reducible apply sourceLost_keeps
    | with_reducible apply reselect_keeps
    | with_reducible apply chainRaise_keeps
    | with_reducible apply chainSendAll_keeps
    | with_reducible apply Keeps.forN
    | with_reducible apply Keeps.foldl
    | with_reducible apply Keeps.foldl_fst
    | with_reducible apply Keeps.foldl_snd
    | with_reducible refine Keeps.fst ?_ (by assumption)
    | (with_reducible refine Keeps.lit ?_; first | with_reducible exact hk | with_reducible apply setF_keeps | with_reducible apply satF_keeps | with_reducible apply portLeaves_keeps | with_reducible apply setReg_keeps | with_reducible apply setChain_keeps | with_reducible apply resetPeers_keeps | with_reducible apply sourceLost_keeps | with_reducible apply reselect_keeps | with_reducible apply chainRaise_keeps | with_reducible apply chainSendAll_keeps | with_reducible apply Keeps.forN | with_reducible apply Keeps.foldl | with_reducible apply Keeps.foldl_fst | with_reducible apply Keeps.foldl_snd | with_reducible refine Keeps.fst ?_ (by assumption))
    | (with_reducible refine Keeps.lit ?_; with_reducible exact Keeps.refl _)
    | with_reducible apply Keeps.ite
    | split
    | with_reducible exact Keeps.refl _
    | dsimp +zetaDelta only

theorem doorbell15_keeps {z : State} {s : State} (hk : Keeps z s) :
    Keeps z (doorbell15 s) := by
  unfold doorbell15
  repeat' first
    | with_reducible exact hk
    | with_reducible apply sendUp_keeps
    | with_reducible apply Keeps.ite
    | split

theorem doorbellReceived_keeps {z : State} {s0 : State} {p src : Nat} (hk : Keeps z s0) :
    Keeps z (doorbellReceived s0 p src) := by
  unfold doorbellReceived
  repeat' first
    | with_reducible exact hk
    | extract_lets
    | with_reducible apply chainTake_keeps
    | with_reducible apply raise_keeps
    | with_reducible apply chainRaise_keeps
    | with_reducible apply sendUp_keeps
    | with_reducible apply Keeps.ite
    | split
    | dsimp +zetaDelta only

theorem htxSlot_keeps {z : State} {s : State} {p : Nat} (hk : Keeps z s) :
    Keeps z (htxSlot s p) := by
  unfold htxSlot
  repeat' first
    | with_reducible exact hk
    | extract_lets
    | with_reducible refine Keeps.snd (ringSlot_keeps ?_) (by assumption)
    | with_reducible apply ringSlot_keeps
    | with_reducible apply satF_keeps
    | with_reducible apply portRaise_keeps
    | with_reducible apply addF_keeps
    | with_reducible apply request_keeps
    | with_reducible apply enqueue_keeps
    | with_reducible apply cruRefused_keeps
    | with_reducible apply Keeps.ite
    | split
    | with_reducible refine Keeps.snd ?_ (by assumption)
    | dsimp only
    | dsimp +zetaDelta only

theorem htxDrain_keeps {z : State} {s : State} {p n : Nat} (hk : Keeps z s) :
    Keeps z (htxDrain s p n) := by
  induction n generalizing s with
  | zero =>
    unfold htxDrain
    repeat' first
      | with_reducible exact hk
      | extract_lets
      | with_reducible apply htxSlot_keeps
      | with_reducible apply Keeps.ite
      | split
      | dsimp +zetaDelta only
  | succ j ih =>
    unfold htxDrain
    repeat' first
      | with_reducible exact hk
      | with_reducible apply ih
      | extract_lets
      | with_reducible apply htxSlot_keeps
      | with_reducible apply Keeps.ite
      | split
      | dsimp +zetaDelta only

theorem htxProdWrite_keeps {z s : State} {r : Req} {x : Found} {new d m : Nat}  (hk : Keeps z s) : Keeps z (htxProdWrite r x new d m s) := by
  unfold htxProdWrite
  repeat' first
    | with_reducible exact hk
    | extract_lets
    | with_reducible apply setReg_keeps
    | with_reducible apply htxDrain_keeps
    | with_reducible apply Keeps.ite
    | split
    | dsimp +zetaDelta only

theorem crucibleRetry_keeps {z : State} {s : State} {p : Nat} (hk : Keeps z s) :
    Keeps z (crucibleRetry s p) := by
  unfold crucibleRetry
  repeat' first
    | with_reducible exact hk
    | extract_lets
    | with_reducible apply retryFrames_keeps
    | with_reducible apply htxDrain_keeps
    | with_reducible apply Keeps.ite
    | split
    | dsimp +zetaDelta only

theorem hostTake_keeps {z : State} {s : State} {p : Nat} {frame : List Byte} (hk : Keeps z s) :
    Keeps z (hostTake s p frame) := by
  unfold hostTake
  repeat' first
    | with_reducible exact hk
    | extract_lets
    | with_reducible refine Keeps.snd (rxTakeOut_keeps ?_) (by assumption)
    | with_reducible apply rxTakeOut_keeps
    | with_reducible apply hostReceive_keeps
    | (with_reducible refine Keeps.lit ?_; first | with_reducible exact hk | with_reducible refine Keeps.snd (rxTakeOut_keeps ?_) (by assumption) | with_reducible apply rxTakeOut_keeps | with_reducible apply hostReceive_keeps)
    | with_reducible apply Keeps.ite
    | split
    | with_reducible refine Keeps.snd ?_ (by assumption)
    | dsimp only
    | dsimp +zetaDelta only

theorem chainHostFrame_keeps {z : State} {s : State} {p : Nat} {frame : List Byte} (hk : Keeps z s) :
    Keeps z (chainHostFrame s p frame) := by
  unfold chainHostFrame
  repeat' first
    | with_reducible exact hk
    | with_reducible apply hostTake_keeps
    | with_reducible apply chainTake_keeps
    | with_reducible apply Keeps.ite
    | split

theorem chainFrameDiscard_keeps {z : State} {s : State} {p : Nat} (hk : Keeps z s) :
    Keeps z (chainFrameDiscard s p) := by
  unfold chainFrameDiscard
  repeat' first
    | with_reducible exact hk
    | with_reducible apply chainTake_keeps
    | with_reducible apply satF_keeps
    | with_reducible apply Keeps.ite
    | split

end Sys2Proof.Machine.State
end

