-- ==== Sys2Proof/Laws/KeepsCue.lean ====
section
/-! SUPPORT. Every operation of Cue.lean keeps the queue and the canonical form (Keeps). -/

namespace Sys2Proof.Machine.State

theorem cueRaise_keeps {z : State} {s : State} {flags : List Nat} (hk : Keeps z s) :
    Keeps z (cueRaise s flags) := by
  unfold cueRaise
  repeat' first
    | with_reducible exact hk
    | with_reducible apply raiseAll_keeps

theorem cueStatus_keeps {z : State} {s : State} {i word v : Nat} (hk : Keeps z s) :
    Keeps z (cueStatus s i word v) := by
  unfold cueStatus
  repeat' first
    | with_reducible exact hk
    | with_reducible apply wr_keeps
    | with_reducible apply clearPoison_keeps

theorem cueBits_keeps {z : State} {s : State} {i hi lo v : Nat} (hk : Keeps z s) :
    Keeps z (cueBits s i hi lo v) := by
  unfold cueBits
  repeat' first
    | with_reducible exact hk
    | with_reducible apply cueStatus_keeps

theorem cueEnd_keeps {z : State} {s : State} {i st code : Nat} (hk : Keeps z s) :
    Keeps z (cueEnd s i st code) := by
  unfold cueEnd
  repeat' first
    | with_reducible exact hk
    | with_reducible apply cueBits_keeps

theorem cueUnarm_keeps {z : State} {s : State} {i : Nat} (hk : Keeps z s) :
    Keeps z (cueUnarm s i) := by
  unfold cueUnarm
  repeat' first
    | with_reducible exact hk
    | with_reducible apply setF_keeps
    | (with_reducible refine Keeps.lit ?_; first | with_reducible exact hk | with_reducible apply setF_keeps)

theorem cueSpoiled_keeps {z : State} {s : State} {i : Nat} (hk : Keeps z s) :
    Keeps z (cueSpoiled s i) := by
  unfold cueSpoiled
  repeat' first
    | with_reducible exact hk
    | extract_lets
    | with_reducible apply slabUe_keeps
    | with_reducible apply cueUnarm_keeps
    | with_reducible apply cueBits_keeps
    | with_reducible apply Keeps.ite
    | split
    | dsimp +zetaDelta only

theorem cueRefuse_keeps {z : State} {s : State} {i code : Nat} (hk : Keeps z s) :
    Keeps z (cueRefuse s i code) := by
  unfold cueRefuse
  repeat' first
    | with_reducible exact hk
    | extract_lets
    | with_reducible apply setF_keeps
    | with_reducible apply cueRaise_keeps
    | with_reducible apply cueEnd_keeps
    | with_reducible apply Keeps.ite
    | split
    | dsimp +zetaDelta only

theorem cueArmed_keeps {z : State} {s : State} {i : Nat} (hk : Keeps z s) :
    Keeps z (cueArmed s i) := by
  unfold cueArmed
  repeat' first
    | with_reducible exact hk
    | extract_lets
    | with_reducible apply cueEnd_keeps
    | with_reducible apply cueBits_keeps
    | with_reducible apply setF_keeps
    | with_reducible apply put_keeps
    | with_reducible apply satF_keeps
    | with_reducible apply cueRaise_keeps
    | with_reducible apply cueUnarm_keeps
    | (with_reducible refine Keeps.lit ?_; first | with_reducible exact hk | with_reducible apply cueEnd_keeps | with_reducible apply cueBits_keeps | with_reducible apply setF_keeps | with_reducible apply put_keeps | with_reducible apply satF_keeps | with_reducible apply cueRaise_keeps | with_reducible apply cueUnarm_keeps)
    | with_reducible apply Keeps.ite
    | split
    | dsimp +zetaDelta only

theorem cueForward_keeps {z : State} {s : State} {i : Nat} {arm : Bool} (hk : Keeps z s) :
    Keeps z (cueForward s i arm) := by
  unfold cueForward
  repeat' first
    | with_reducible exact hk
    | intro _
    | with_reducible apply chainSendAll_keeps
    | with_reducible apply satF_keeps
    | with_reducible apply Keeps.foldl
    | with_reducible apply Keeps.foldl_fst
    | with_reducible apply Keeps.foldl_snd
    | with_reducible refine Keeps.fst ?_ (by assumption)
    | with_reducible apply Keeps.ite
    | split
    | with_reducible exact Keeps.refl _

theorem cueArm_keeps {z : State} {s : State} {i : Nat} (hk : Keeps z s) :
    Keeps z (cueArm s i) := by
  unfold cueArm
  repeat' first
    | with_reducible exact hk
    | with_reducible apply cueRefuse_keeps
    | with_reducible apply cueSpoiled_keeps
    | with_reducible apply cueArmed_keeps
    | with_reducible apply cueForward_keeps
    | with_reducible apply Keeps.ite
    | split

theorem cueDisarmHere_keeps {z : State} {s : State} {i : Nat} (hk : Keeps z s) :
    Keeps z (cueDisarmHere s i) := by
  unfold cueDisarmHere
  repeat' first
    | with_reducible exact hk
    | extract_lets
    | with_reducible apply put_keeps
    | with_reducible apply cueUnarm_keeps
    | with_reducible apply cueBits_keeps
    | (with_reducible refine Keeps.lit ?_; first | with_reducible exact hk | with_reducible apply put_keeps | with_reducible apply cueUnarm_keeps | with_reducible apply cueBits_keeps)
    | with_reducible apply Keeps.ite
    | split
    | dsimp +zetaDelta only

theorem cueDisarm_keeps {z : State} {s : State} {i : Nat} (hk : Keeps z s) :
    Keeps z (cueDisarm s i) := by
  unfold cueDisarm
  repeat' first
    | with_reducible exact hk
    | extract_lets
    | with_reducible apply cueDisarmHere_keeps
    | with_reducible apply cueForward_keeps
    | with_reducible apply Keeps.ite
    | split
    | dsimp +zetaDelta only

theorem cueArmWrite_keeps {z s : State} {r : Req} {x : Found} {new d m : Nat}  (hk : Keeps z s) : Keeps z (cueArmWrite r x new d m s) := by
  unfold cueArmWrite
  repeat' first
    | with_reducible exact hk
    | with_reducible apply cueDisarm_keeps
    | with_reducible apply cueArm_keeps
    | with_reducible apply Keeps.ite
    | split

theorem cueRan_keeps {z : State} {s : State} {i : Nat} {x : ArmedCue} {cur : RP} {crowded : Bool} {seq code : Nat} (hk : Keeps z s) :
    Keeps z (cueRan s i x cur crowded seq code) := by
  unfold cueRan
  repeat' first
    | with_reducible exact hk
    | extract_lets
    | with_reducible apply cueBits_keeps
    | with_reducible apply cueStatus_keeps
    | with_reducible apply satF_keeps
    | with_reducible apply cueRaise_keeps
    | with_reducible apply cueUnarm_keeps
    | with_reducible apply cueEnd_keeps
    | with_reducible apply put_keeps
    | (with_reducible refine Keeps.lit ?_; first | with_reducible exact hk | with_reducible apply cueBits_keeps | with_reducible apply cueStatus_keeps | with_reducible apply satF_keeps | with_reducible apply cueRaise_keeps | with_reducible apply cueUnarm_keeps | with_reducible apply cueEnd_keeps | with_reducible apply put_keeps)
    | with_reducible apply Keeps.ite
    | split
    | dsimp +zetaDelta only

theorem rasterGone_keeps {z : State} {s : State} {m : Nat} (hk : Keeps z s) :
    Keeps z (rasterGone s m) := by
  unfold rasterGone
  repeat' first
    | with_reducible exact hk
    | intro _
    | with_reducible apply cueUnarm_keeps
    | with_reducible apply cueEnd_keeps
    | with_reducible apply satF_keeps
    | with_reducible apply cueRaise_keeps
    | with_reducible apply Keeps.foldl
    | with_reducible apply Keeps.foldl_fst
    | with_reducible apply Keeps.foldl_snd
    | with_reducible refine Keeps.fst ?_ (by assumption)
    | with_reducible exact Keeps.refl _

theorem runCue_keeps {z s : State} {i kind : Nat} {act : State → CueRun} (h : ∀ t, Keeps t (act t).state)
    (hk : Keeps z s) : Keeps z (runCue s i kind act) := by
  unfold runCue
  split
  · exact hk
  · extract_lets p cur r s1
    have h1 : Keeps z r.state := (Keeps.lit hk).trans (h _)
    have h2 : Keeps z s1 := cueRan_keeps h1
    repeat' first
      | exact hk
      | exact h2
      | split
      | with_reducible apply cueSpoiled_keeps
      | with_reducible apply rasterGone_keeps

theorem actCommit_keeps {z : State} {i : Nat} {s : State} (hk : Keeps z s) :
    Keeps z (actCommit i s).state := by
  unfold actCommit
  repeat' first
    | with_reducible exact hk
    | extract_lets
    | with_reducible refine Keeps.snd (registerCommit_keeps ?_) (by assumption)
    | with_reducible apply registerCommit_keeps
    | with_reducible refine Keeps.snd ?_ (by assumption)
    | dsimp only
    | dsimp +zetaDelta only

theorem actLoadExpect_keeps {z : State} {i : Nat} {s : State} (hk : Keeps z s) :
    Keeps z (actLoadExpect i s).state := by
  unfold actLoadExpect
  repeat' first
    | with_reducible exact hk
    | with_reducible apply loadExpect_keeps
    | dsimp only

theorem chainCueFrame_keeps {z : State} {s0 : State} {k : Nat} {f : CueFrame} (hk : Keeps z s0) :
    Keeps z (chainCueFrame s0 k f) := by
  unfold chainCueFrame
  repeat' first
    | with_reducible exact hk
    | extract_lets
    | with_reducible apply chainTake_keeps
    | with_reducible apply seeEpoch_keeps
    | with_reducible apply cueDisarmHere_keeps
    | with_reducible apply cueUnarm_keeps
    | with_reducible apply satF_keeps
    | with_reducible apply chainRaise_keeps
    | with_reducible apply store_keeps
    | with_reducible apply clearPoison_keeps
    | with_reducible apply cueRefuse_keeps
    | with_reducible apply cueArmed_keeps
    | with_reducible apply chainSendAll_keeps
    | with_reducible apply Keeps.ite
    | split
    | dsimp +zetaDelta only

end Sys2Proof.Machine.State
end

