-- ==== Sys2Proof/Laws/KeepsValidate.lean ====
section
/-! SUPPORT. Every operation of Validate.lean keeps the queue and the canonical form (Keeps). -/

namespace Sys2Proof.Machine.State

theorem noteKeyRead_keeps {z : State} {s : State} {judged : Bool} (hk : Keeps z s) :
    Keeps z (noteKeyRead s judged) := by
  unfold noteKeyRead
  repeat' first
    | with_reducible exact hk
    | with_reducible apply slowRaise_keeps
    | with_reducible apply Keeps.ite
    | split

end Sys2Proof.Machine.State
end

