-- ==== Sys2Proof/Laws/KeepsIngot.lean ====
section
/-! SUPPORT. Every operation of Ingot.lean keeps the queue and the canonical form (Keeps). -/

namespace Sys2Proof.Machine.State

theorem ingotRaise_keeps {z : State} {s : State} {flags : List Nat} (hk : Keeps z s) :
    Keeps z (ingotRaise s flags) := by
  unfold ingotRaise
  repeat' first
    | with_reducible exact hk
    | with_reducible apply raiseAll_keeps

theorem slotTo_keeps {z : State} {s : State} {i st : Nat} (hk : Keeps z s) :
    Keeps z (slotTo s i st) := by
  unfold slotTo
  repeat' first
    | with_reducible exact hk
    | extract_lets
    | with_reducible apply setF_keeps
    | with_reducible apply setReg_keeps
    | with_reducible apply setSwappable_keeps
    | with_reducible apply Keeps.ite
    | split
    | dsimp +zetaDelta only

theorem slotWritten_keeps {z : State} {s : State} {i : Nat} (hk : Keeps z s) :
    Keeps z (slotWritten s i) := by
  unfold slotWritten
  repeat' first
    | with_reducible exact hk
    | with_reducible apply slotTo_keeps

theorem scramble_keeps {z : State} {s : State} {a n : Nat} (hk : Keeps z s) :
    Keeps z (scramble s a n) := by
  unfold scramble
  repeat' first
    | with_reducible exact hk
    | extract_lets
    | with_reducible refine Keeps.snd (takeFree_keeps ?_) (by assumption)
    | with_reducible apply takeFree_keeps
    | with_reducible apply store_keeps
    | with_reducible apply clearPoison_keeps
    | with_reducible refine Keeps.snd ?_ (by assumption)
    | dsimp only
    | dsimp +zetaDelta only

theorem cmdRefused_keeps {z : State} {s : State} {code : Nat} (hk : Keeps z s) :
    Keeps z (cmdRefused s code) := by
  unfold cmdRefused
  repeat' first
    | with_reducible exact hk
    | with_reducible apply setF_keeps
    | with_reducible apply ingotRaise_keeps

theorem validateCmd_keeps {z : State} {s : State} {i : Nat} (hk : Keeps z s) :
    Keeps z (validateCmd s i) := by
  unfold validateCmd
  repeat' first
    | with_reducible exact hk
    | with_reducible apply slotTo_keeps
    | (with_reducible refine Keeps.lit ?_; first | with_reducible exact hk | with_reducible apply slotTo_keeps)

theorem loadNvmCmd_keeps {z : State} {s : State} {i : Nat} (hk : Keeps z s) :
    Keeps z (loadNvmCmd s i) := by
  unfold loadNvmCmd
  repeat' first
    | with_reducible exact hk
    | extract_lets
    | with_reducible apply slotTo_keeps
    | (with_reducible refine Keeps.lit ?_; first | with_reducible exact hk | with_reducible apply slotTo_keeps)
    | with_reducible apply Keeps.ite
    | split
    | dsimp +zetaDelta only

theorem clearCmd_keeps {z : State} {s : State} {i : Nat} (hk : Keeps z s) :
    Keeps z (clearCmd s i) := by
  unfold clearCmd
  repeat' first
    | with_reducible exact hk
    | extract_lets
    | with_reducible apply scramble_keeps
    | with_reducible apply slotTo_keeps
    | (with_reducible refine Keeps.lit ?_; first | with_reducible exact hk | with_reducible apply scramble_keeps | with_reducible apply slotTo_keeps)
    | dsimp +zetaDelta only

theorem validationDone_keeps {z : State} {s : State} {i : Nat} (hk : Keeps z s) :
    Keeps z (validationDone s i) := by
  unfold validationDone
  repeat' first
    | with_reducible exact hk
    | extract_lets
    | with_reducible apply slabUe_keeps
    | with_reducible apply noteKeyRead_keeps
    | with_reducible apply setF_keeps
    | with_reducible apply slotTo_keeps
    | with_reducible apply ingotRaise_keeps
    | with_reducible apply Keeps.ite
    | split
    | dsimp +zetaDelta only

theorem copySector_keeps {z : State} {s : State} {sector a : Nat} (hk : Keeps z s) :
    Keeps z (copySector s sector a) := by
  unfold copySector
  extract_lets lo good kept s1 s2
  have h1 : Keeps z s1 := by
    refine hk.trans ⟨rfl, fun c => ⟨?_, c.2.1, c.2.2⟩⟩
    show Memory.Ok (good.foldl _ kept)
    have h0 : Memory.Ok kept := Memory.ok_sub List.filter_sublist c.1
    clear_value kept
    clear_value good
    induction good generalizing kept with
    | nil => exact h0
    | cons a r ih => exact ih _ (Memory.ok_write _ _ h0)
  have h2 : Keeps z s2 := clearPoison_keeps h1
  exact Keeps.ite (slowRaise_keeps h2) h2

theorem nvmCopyDone_keeps {z : State} {s : State} {i : Nat} (hk : Keeps z s) :
    Keeps z (nvmCopyDone s i) := by
  unfold nvmCopyDone
  repeat' first
    | with_reducible exact hk
    | with_reducible apply copySector_keeps
    | with_reducible apply slotTo_keeps
    | (with_reducible refine Keeps.lit ?_; first | with_reducible exact hk | with_reducible apply copySector_keeps | with_reducible apply slotTo_keeps)
    | with_reducible apply Keeps.ite
    | split

theorem setReserves_keeps {z : State} {s : State} {i : Nat} (hk : Keeps z s) :
    Keeps z (setReserves s i) := by
  unfold setReserves
  repeat' first
    | with_reducible exact hk
    | extract_lets
    | intro _
    | with_reducible apply setF_keeps
    | with_reducible apply cruRaise_keeps
    | with_reducible apply Keeps.forN
    | with_reducible apply Keeps.ite
    | split
    | with_reducible exact Keeps.refl _
    | dsimp +zetaDelta only

theorem reportIngot_keeps {z : State} {s : State} {i : Nat} (hk : Keeps z s) :
    Keeps z (reportIngot s i) := by
  unfold reportIngot
  repeat' first
    | with_reducible exact hk
    | extract_lets
    | intro _
    | with_reducible apply setReg_keeps
    | with_reducible apply setReserves_keeps
    | with_reducible apply Keeps.forN
    | with_reducible apply Keeps.ite
    | split
    | with_reducible exact Keeps.refl _
    | dsimp +zetaDelta only

theorem rasterFrom_keeps {z : State} {s : State} {m k : Nat} (hk : Keeps z s) :
    Keeps z (rasterFrom s m k) := by
  unfold rasterFrom
  repeat' first
    | with_reducible exact hk
    | with_reducible apply setRaster_keeps

theorem underLiveRate_keeps {z : State} {s : State} (hk : Keeps z s) :
    Keeps z (underLiveRate s) := by
  unfold underLiveRate
  repeat' first
    | with_reducible exact hk
    | extract_lets
    | with_reducible apply setTime_keeps
    | (with_reducible refine Keeps.lit ?_; first | with_reducible exact hk | with_reducible apply setTime_keeps)
    | with_reducible refine Keeps.snd ?_ (by assumption)
    | dsimp only
    | dsimp +zetaDelta only

theorem endBootLink_keeps {z : State} {s : State} (hk : Keeps z s) :
    Keeps z (endBootLink s) := by
  unfold endBootLink
  repeat' first
    | with_reducible exact hk
    | extract_lets
    | intro _
    | with_reducible apply portLeaves_keeps
    | with_reducible apply dropLink_keeps
    | with_reducible apply setPort_keeps
    | with_reducible apply Keeps.forN
    | (with_reducible refine Keeps.lit ?_; first | with_reducible exact hk | with_reducible apply portLeaves_keeps | with_reducible apply dropLink_keeps | with_reducible apply setPort_keeps | with_reducible apply Keeps.forN)
    | (with_reducible refine Keeps.lit ?_; with_reducible exact Keeps.refl _)
    | with_reducible apply Keeps.ite
    | split
    | with_reducible exact Keeps.refl _
    | dsimp +zetaDelta only

theorem activate_keeps {z : State} {s : State} {i : Nat} (hk : Keeps z s) :
    Keeps z (activate s i) := by
  unfold activate
  repeat' first
    | with_reducible exact hk
    | extract_lets
    | intro _
    | with_reducible apply endBootLink_keeps
    | with_reducible apply setF_keeps
    | with_reducible apply slotTo_keeps
    | with_reducible apply setTime_keeps
    | with_reducible apply refRegsLive_keeps
    | with_reducible apply reportIngot_keeps
    | with_reducible apply loadTiming_keeps
    | with_reducible apply rasterFrom_keeps
    | with_reducible apply chainActivate_keeps
    | with_reducible apply setSf_keeps
    | with_reducible apply Keeps.foldl
    | with_reducible apply Keeps.foldl_fst
    | with_reducible apply Keeps.foldl_snd
    | with_reducible refine Keeps.fst ?_ (by assumption)
    | (with_reducible refine Keeps.lit ?_; first | with_reducible exact hk | with_reducible apply endBootLink_keeps | with_reducible apply setF_keeps | with_reducible apply slotTo_keeps | with_reducible apply setTime_keeps | with_reducible apply refRegsLive_keeps | with_reducible apply reportIngot_keeps | with_reducible apply loadTiming_keeps | with_reducible apply rasterFrom_keeps | with_reducible apply chainActivate_keeps | with_reducible apply setSf_keeps | with_reducible apply Keeps.foldl | with_reducible apply Keeps.foldl_fst | with_reducible apply Keeps.foldl_snd | with_reducible refine Keeps.fst ?_ (by assumption))
    | (with_reducible refine Keeps.lit ?_; with_reducible exact Keeps.refl _)
    | with_reducible apply Keeps.ite
    | split
    | with_reducible exact Keeps.refl _
    | dsimp +zetaDelta only

theorem ingotCmd_keeps {z : State} {s : State} {op i : Nat} (hk : Keeps z s) :
    Keeps z (ingotCmd s op i) := by
  unfold ingotCmd
  repeat' first
    | with_reducible exact hk
    | extract_lets
    | with_reducible apply cmdRefused_keeps
    | with_reducible apply validateCmd_keeps
    | with_reducible apply loadNvmCmd_keeps
    | with_reducible apply clearCmd_keeps
    | with_reducible apply activate_keeps
    | with_reducible apply Keeps.ite
    | split
    | dsimp +zetaDelta only

theorem swapRaster_keeps {z : State} {s : State} {i j m : Nat} (hk : Keeps z s) :
    Keeps z (swapRaster s i j m) := by
  unfold swapRaster
  repeat' first
    | with_reducible exact hk
    | extract_lets
    | with_reducible apply put_keeps
    | with_reducible apply rasterGone_keeps
    | with_reducible apply sigAbandon_keeps
    | with_reducible apply endPass_keeps
    | with_reducible apply setRaster_keeps
    | with_reducible apply setPhase_keeps
    | with_reducible apply loadTiming_keeps
    | with_reducible apply rasterFrom_keeps
    | with_reducible apply land_keeps
    | (with_reducible refine Keeps.lit ?_; first | with_reducible exact hk | with_reducible apply put_keeps | with_reducible apply rasterGone_keeps | with_reducible apply sigAbandon_keeps | with_reducible apply endPass_keeps | with_reducible apply setRaster_keeps | with_reducible apply setPhase_keeps | with_reducible apply loadTiming_keeps | with_reducible apply rasterFrom_keeps | with_reducible apply land_keeps)
    | with_reducible apply Keeps.ite
    | split
    | dsimp +zetaDelta only

theorem swapFlush_keeps {z : State} {s : State} {p : Nat} {leaves cut : Bool} (hk : Keeps z s) :
    Keeps z (swapFlush s p leaves cut) := by
  unfold swapFlush
  repeat' first
    | with_reducible exact hk
    | extract_lets
    | with_reducible apply replLost_keeps
    | with_reducible apply satF_keeps
    | with_reducible apply flushPort_keeps
    | with_reducible apply portLeaves_keeps
    | with_reducible apply endBtl_keeps
    | (with_reducible refine Keeps.lit ?_; first | with_reducible exact hk | with_reducible apply replLost_keeps | with_reducible apply satF_keeps | with_reducible apply flushPort_keeps | with_reducible apply portLeaves_keeps | with_reducible apply endBtl_keeps)
    | with_reducible apply Keeps.ite
    | split
    | dsimp +zetaDelta only

theorem swapPorts_keeps {z : State} {s : State} {i j : Nat} (hk : Keeps z s) :
    Keeps z (swapPorts s i j) := by
  unfold swapPorts
  repeat' first
    | with_reducible exact hk
    | extract_lets
    | intro _
    | with_reducible apply swapFlush_keeps
    | with_reducible apply dropLink_keeps
    | with_reducible apply Keeps.forN
    | (with_reducible refine Keeps.lit ?_; first | with_reducible exact hk | with_reducible apply swapFlush_keeps | with_reducible apply dropLink_keeps | with_reducible apply Keeps.forN)
    | (with_reducible refine Keeps.lit ?_; with_reducible exact Keeps.refl _)
    | with_reducible apply Keeps.ite
    | split
    | with_reducible exact Keeps.refl _
    | dsimp +zetaDelta only

theorem swapIngot_keeps {z : State} {s : State} {i : Nat} (hk : Keeps z s) :
    Keeps z (swapIngot s i).2 := by
  unfold swapIngot
  repeat' first
    | with_reducible exact hk
    | extract_lets
    | intro _
    | with_reducible apply setF_keeps
    | with_reducible apply ingotRaise_keeps
    | with_reducible apply swapRaster_keeps
    | with_reducible apply swapPorts_keeps
    | with_reducible apply slotTo_keeps
    | with_reducible apply reportIngot_keeps
    | with_reducible apply linkInit_keeps
    | with_reducible apply satF_keeps
    | with_reducible apply setReg_keeps
    | with_reducible apply swapLanded_keeps
    | with_reducible apply Keeps.forN
    | with_reducible apply Keeps.foldl
    | with_reducible apply Keeps.foldl_fst
    | with_reducible apply Keeps.foldl_snd
    | with_reducible refine Keeps.fst ?_ (by assumption)
    | with_reducible apply Keeps.ite
    | split
    | dsimp only
    | with_reducible exact Keeps.refl _
    | dsimp +zetaDelta only

theorem actSwap_keeps {z : State} {c : Nat} {s : State} (hk : Keeps z s) :
    Keeps z (actSwap c s).state := by
  unfold actSwap
  repeat' first
    | with_reducible exact hk
    | extract_lets
    | with_reducible refine Keeps.snd (swapIngot_keeps ?_) (by assumption)
    | with_reducible apply swapIngot_keeps
    | with_reducible apply Keeps.ite
    | split
    | with_reducible refine Keeps.snd ?_ (by assumption)
    | dsimp only
    | dsimp +zetaDelta only

theorem quadIdleEnd_keeps {z : State} {s : State} {q : Nat} (hk : Keeps z s) :
    Keeps z (quadIdleEnd s q) := by
  unfold quadIdleEnd
  repeat' first
    | with_reducible exact hk
    | intro _
    | with_reducible apply relink_keeps
    | with_reducible apply Keeps.forN
    | (with_reducible refine Keeps.lit ?_; first | with_reducible exact hk | with_reducible apply relink_keeps | with_reducible apply Keeps.forN)
    | (with_reducible refine Keeps.lit ?_; with_reducible exact Keeps.refl _)
    | with_reducible exact Keeps.refl _

end Sys2Proof.Machine.State
end

