-- ==== Sys2Proof/Laws/KeepsIngest.lean ====
section
/-! SUPPORT. Every operation of Ingest.lean keeps the queue and the canonical form (Keeps). -/

namespace Sys2Proof.Machine.State

theorem setFlow_keeps {z : State} {s : State} {f : Nat} {x : Flow} (hk : Keeps z s) :
    Keeps z (setFlow s f x) := by
  unfold setFlow
  repeat' first
    | with_reducible exact hk
    | with_reducible apply put_keeps
    | (with_reducible refine Keeps.lit ?_; first | with_reducible exact hk | with_reducible apply put_keeps)

theorem ingRaise_keeps {z : State} {s : State} {flags : List Nat} (hk : Keeps z s) :
    Keeps z (ingRaise s flags) := by
  unfold ingRaise
  repeat' first
    | with_reducible exact hk
    | with_reducible apply raiseAll_keeps

theorem meter_keeps {z : State} {s : State} {f n : Nat} (hk : Keeps z s) :
    Keeps z (meter s f n).2 := by
  unfold meter
  repeat' first
    | with_reducible exact hk
    | extract_lets
    | with_reducible apply setFlow_keeps
    | (with_reducible refine Keeps.lit ?_; first | with_reducible exact hk | with_reducible apply setFlow_keeps)
    | with_reducible apply Keeps.ite
    | split
    | dsimp only
    | dsimp +zetaDelta only

theorem polCbsWrite_keeps {z s : State} {r : Req} {x : Found} {new d m : Nat}  (hk : Keeps z s) : Keeps z (polCbsWrite r x new d m s) := by
  unfold polCbsWrite
  repeat' first
    | with_reducible exact hk
    | extract_lets
    | with_reducible apply ingRaise_keeps
    | with_reducible apply setReg_keeps
    | with_reducible apply setFlow_keeps
    | (with_reducible refine Keeps.lit ?_; first | with_reducible exact hk | with_reducible apply ingRaise_keeps | with_reducible apply setReg_keeps | with_reducible apply setFlow_keeps)
    | with_reducible apply Keeps.ite
    | split
    | dsimp +zetaDelta only

theorem noteSeen_keeps {z : State} {s : State} {v : Nat} (hk : Keeps z s) :
    Keeps z (noteSeen s v) := by
  unfold noteSeen
  repeat' first
    | with_reducible exact hk
    | intro _
    | with_reducible apply setFlow_keeps
    | with_reducible apply put_keeps
    | with_reducible apply Keeps.foldl
    | with_reducible apply Keeps.foldl_fst
    | with_reducible apply Keeps.foldl_snd
    | with_reducible refine Keeps.fst ?_ (by assumption)
    | (with_reducible refine Keeps.lit ?_; first | with_reducible exact hk | with_reducible apply setFlow_keeps | with_reducible apply put_keeps | with_reducible apply Keeps.foldl | with_reducible apply Keeps.foldl_fst | with_reducible apply Keeps.foldl_snd | with_reducible refine Keeps.fst ?_ (by assumption))
    | (with_reducible refine Keeps.lit ?_; with_reducible exact Keeps.refl _)
    | with_reducible apply Keeps.ite
    | split
    | with_reducible exact Keeps.refl _

theorem freeSurfaces_keeps {z : State} {s0 : State} {v : Nat} (hk : Keeps z s0) :
    Keeps z (freeSurfaces s0 v) := by
  unfold freeSurfaces
  repeat' first
    | with_reducible exact hk
    | extract_lets
    | intro _
    | with_reducible apply noteSeen_keeps
    | with_reducible apply setFlow_keeps
    | with_reducible apply satF_keeps
    | with_reducible apply Keeps.foldl
    | with_reducible apply Keeps.foldl_fst
    | with_reducible apply Keeps.foldl_snd
    | with_reducible refine Keeps.fst ?_ (by assumption)
    | (with_reducible refine Keeps.lit ?_; first | with_reducible exact hk | with_reducible apply noteSeen_keeps | with_reducible apply setFlow_keeps | with_reducible apply satF_keeps | with_reducible apply Keeps.foldl | with_reducible apply Keeps.foldl_fst | with_reducible apply Keeps.foldl_snd | with_reducible refine Keeps.fst ?_ (by assumption))
    | (with_reducible refine Keeps.lit ?_; with_reducible exact Keeps.refl _)
    | with_reducible apply Keeps.ite
    | split
    | with_reducible exact Keeps.refl _
    | dsimp +zetaDelta only

theorem countLate_keeps {z : State} {s : State} {v : Nat} (hk : Keeps z s) :
    Keeps z (countLate s v) := by
  unfold countLate
  repeat' first
    | with_reducible exact hk
    | with_reducible apply satF_keeps
    | with_reducible apply ingRaise_keeps

theorem ingestStore_keeps {z : State} {s : State} {a : Nat} {bs : List Byte} (hk : Keeps z s) :
    Keeps z (ingestStore s a bs) := by
  unfold ingestStore
  repeat' first
    | with_reducible exact hk
    | with_reducible apply putDdr_keeps
    | with_reducible apply request_keeps
    | with_reducible apply setReg_keeps

theorem writeStaged_keeps {z : State} {s : State} {v : Nat} {x : VideoFrame} {j : Nat} (hk : Keeps z s) :
    Keeps z (writeStaged s v x j) := by
  unfold writeStaged
  repeat' first
    | with_reducible exact hk
    | extract_lets
    | with_reducible apply ingestStore_keeps
    | with_reducible apply setFlow_keeps
    | (with_reducible refine Keeps.lit ?_; first | with_reducible exact hk | with_reducible apply ingestStore_keeps | with_reducible apply setFlow_keeps)
    | with_reducible apply Keeps.ite
    | split
    | dsimp +zetaDelta only

theorem writeSkewed_keeps {z : State} {s : State} {v j : Nat} (hk : Keeps z s) :
    Keeps z (writeSkewed s v j) := by
  unfold writeSkewed
  repeat' first
    | with_reducible exact hk
    | extract_lets
    | with_reducible apply writeStaged_keeps
    | with_reducible apply setFlow_keeps
    | with_reducible apply satF_keeps
    | with_reducible apply ingRaise_keeps
    | (with_reducible refine Keeps.lit ?_; first | with_reducible exact hk | with_reducible apply writeStaged_keeps | with_reducible apply setFlow_keeps | with_reducible apply satF_keeps | with_reducible apply ingRaise_keeps)
    | with_reducible apply Keeps.ite
    | split
    | dsimp +zetaDelta only

theorem writeAllStaged_keeps {z : State} {s : State} {v : Nat} (hk : Keeps z s) :
    Keeps z (writeAllStaged s v) := by
  unfold writeAllStaged
  repeat' first
    | with_reducible exact hk
    | intro _
    | with_reducible apply writeSkewed_keeps
    | with_reducible apply Keeps.foldl
    | with_reducible apply Keeps.foldl_fst
    | with_reducible apply Keeps.foldl_snd
    | with_reducible refine Keeps.fst ?_ (by assumption)
    | with_reducible apply Keeps.ite
    | split
    | with_reducible exact Keeps.refl _

theorem dropWaiting_keeps {z : State} {s : State} {o ts : Nat} (hk : Keeps z s) :
    Keeps z (dropWaiting s o ts) := by
  unfold dropWaiting
  repeat' first
    | with_reducible exact hk
    | extract_lets
    | intro _
    | with_reducible apply freeBillets_keeps
    | with_reducible apply setFlow_keeps
    | with_reducible apply Keeps.foldl
    | with_reducible apply Keeps.foldl_fst
    | with_reducible apply Keeps.foldl_snd
    | with_reducible refine Keeps.fst ?_ (by assumption)
    | (with_reducible refine Keeps.lit ?_; first | with_reducible exact hk | with_reducible apply freeBillets_keeps | with_reducible apply setFlow_keeps | with_reducible apply Keeps.foldl | with_reducible apply Keeps.foldl_fst | with_reducible apply Keeps.foldl_snd | with_reducible refine Keeps.fst ?_ (by assumption))
    | (with_reducible refine Keeps.lit ?_; with_reducible exact Keeps.refl _)
    | with_reducible exact Keeps.refl _
    | dsimp +zetaDelta only

theorem freeSurface_keeps {z : State} {s : State} {v k : Nat} (hk : Keeps z s) :
    Keeps z (freeSurface s v k) := by
  unfold freeSurface
  repeat' first
    | with_reducible exact hk
    | with_reducible apply setFlow_keeps
    | (with_reducible refine Keeps.lit ?_; first | with_reducible exact hk | with_reducible apply setFlow_keeps)

theorem endFrame_keeps {z : State} {s0 : State} {v : Nat} {abandoned shown : Bool} (hk : Keeps z s0) :
    Keeps z (endFrame s0 v abandoned shown) := by
  unfold endFrame
  repeat' first
    | with_reducible exact hk
    | extract_lets
    | with_reducible apply writeAllStaged_keeps
    | with_reducible apply setFlow_keeps
    | with_reducible apply satF_keeps
    | with_reducible apply ingRaise_keeps
    | with_reducible apply freeSurface_keeps
    | with_reducible apply addF_keeps
    | with_reducible apply setF_keeps
    | with_reducible apply countLate_keeps
    | with_reducible apply put_keeps
    | (with_reducible refine Keeps.lit ?_; first | with_reducible exact hk | with_reducible apply writeAllStaged_keeps | with_reducible apply setFlow_keeps | with_reducible apply satF_keeps | with_reducible apply ingRaise_keeps | with_reducible apply freeSurface_keeps | with_reducible apply addF_keeps | with_reducible apply setF_keeps | with_reducible apply countLate_keeps | with_reducible apply put_keeps)
    | with_reducible apply Keeps.ite
    | split
    | dsimp +zetaDelta only

theorem abandon_keeps {z : State} {s : State} {v : Nat} {shown : Bool} (hk : Keeps z s) :
    Keeps z (abandon s v shown) := by
  unfold abandon
  repeat' first
    | with_reducible exact hk
    | extract_lets
    | with_reducible apply dropWaiting_keeps
    | with_reducible apply endFrame_keeps
    | with_reducible apply Keeps.ite
    | split
    | dsimp +zetaDelta only

theorem openFrame_keeps {z : State} {s0 : State} {v ts : Nat} (hk : Keeps z s0) :
    Keeps z (openFrame s0 v ts) := by
  unfold openFrame
  repeat' first
    | with_reducible exact hk
    | extract_lets
    | with_reducible apply freeSurfaces_keeps
    | with_reducible apply setFlow_keeps
    | with_reducible apply satF_keeps
    | with_reducible apply ingRaise_keeps
    | with_reducible apply countLate_keeps
    | with_reducible apply put_keeps
    | (with_reducible refine Keeps.lit ?_; first | with_reducible exact hk | with_reducible apply freeSurfaces_keeps | with_reducible apply setFlow_keeps | with_reducible apply satF_keeps | with_reducible apply ingRaise_keeps | with_reducible apply countLate_keeps | with_reducible apply put_keeps)
    | with_reducible apply Keeps.ite
    | split
    | dsimp +zetaDelta only

theorem assign_keeps {z : State} {s : State} {f : Nat} {r : Rtp} {p billets : Nat} (hk : Keeps z s) :
    Keeps z (assign s f r p billets) := by
  unfold assign
  repeat' first
    | with_reducible exact hk
    | extract_lets
    | with_reducible apply freeBillets_keeps
    | with_reducible apply setFlow_keeps
    | with_reducible apply openFrame_keeps
    | with_reducible apply satF_keeps
    | with_reducible apply abandon_keeps
    | (with_reducible refine Keeps.lit ?_; first | with_reducible exact hk | with_reducible apply freeBillets_keeps | with_reducible apply setFlow_keeps | with_reducible apply openFrame_keeps | with_reducible apply satF_keeps | with_reducible apply abandon_keeps)
    | with_reducible apply Keeps.ite
    | split
    | dsimp +zetaDelta only

theorem replicate_keeps {z : State} {s : State} {f : Nat} {rtp : List Byte} (hk : Keeps z s) :
    Keeps z (replicate s f rtp) := by
  unfold replicate
  repeat' first
    | with_reducible exact hk
    | extract_lets
    | intro _
    | with_reducible apply enqueue_keeps
    | with_reducible apply satF_keeps
    | with_reducible apply chainRaise_keeps
    | with_reducible apply Keeps.foldl
    | with_reducible apply Keeps.foldl_fst
    | with_reducible apply Keeps.foldl_snd
    | with_reducible refine Keeps.fst ?_ (by assumption)
    | with_reducible apply Keeps.ite
    | split
    | with_reducible exact Keeps.refl _
    | dsimp +zetaDelta only

theorem sequence_keeps {z : State} {s0 : State} {f : Nat} {rtp : List Byte} {p billets : Nat} (hk : Keeps z s0) :
    Keeps z (sequence s0 f rtp p billets) := by
  unfold sequence
  repeat' first
    | with_reducible exact hk
    | extract_lets
    | with_reducible apply setF_keeps
    | with_reducible apply freeBillets_keeps
    | with_reducible apply setFlow_keeps
    | with_reducible apply satF_keeps
    | with_reducible apply addF_keeps
    | with_reducible apply replicate_keeps
    | with_reducible apply assign_keeps
    | (with_reducible refine Keeps.lit ?_; first | with_reducible exact hk | with_reducible apply setF_keeps | with_reducible apply freeBillets_keeps | with_reducible apply setFlow_keeps | with_reducible apply satF_keeps | with_reducible apply addF_keeps | with_reducible apply replicate_keeps | with_reducible apply assign_keeps)
    | with_reducible apply Keeps.ite
    | split
    | dsimp +zetaDelta only

theorem rxDone_keeps {z : State} {s : State} {p : Nat} {frame : List Byte} (hk : Keeps z s) :
    Keeps z (rxDone s p frame) := by
  unfold rxDone
  repeat' first
    | with_reducible exact hk
    | with_reducible apply takeRx_keeps

theorem tunnelToHost_keeps {z : State} {s : State} {p : Nat} {frame : List Byte} (hk : Keeps z s) :
    Keeps z (tunnelToHost s p frame) := by
  unfold tunnelToHost
  repeat' first
    | with_reducible exact hk
    | with_reducible apply rxRemove_keeps
    | with_reducible apply hostReceive_keeps
    | with_reducible apply addF_keeps
    | (with_reducible refine Keeps.lit ?_; first | with_reducible exact hk | with_reducible apply rxRemove_keeps | with_reducible apply hostReceive_keeps | with_reducible apply addF_keeps)
    | with_reducible apply Keeps.ite
    | split

theorem delayReq_keeps {z : State} {s : State} {a p : Nat} {frame msg : List Byte} (hk : Keeps z s) :
    Keeps z (delayReq s a p frame msg) := by
  unfold delayReq
  repeat' first
    | with_reducible exact hk
    | extract_lets
    | with_reducible refine Keeps.snd (takeFree_keeps ?_) (by assumption)
    | with_reducible apply takeFree_keeps
    | with_reducible apply enqueue_keeps
    | with_reducible apply put_keeps
    | (with_reducible refine Keeps.lit ?_; first | with_reducible exact hk | with_reducible refine Keeps.snd (takeFree_keeps ?_) (by assumption) | with_reducible apply takeFree_keeps | with_reducible apply enqueue_keeps | with_reducible apply put_keeps)
    | with_reducible apply Keeps.ite
    | split
    | with_reducible refine Keeps.snd ?_ (by assumption)
    | dsimp only
    | dsimp +zetaDelta only

theorem ptpToKeeper_keeps {z : State} {s : State} {p q : Nat} {frame msg : List Byte} (hk : Keeps z s) :
    Keeps z (ptpToKeeper s p q frame msg) := by
  unfold ptpToKeeper
  repeat' first
    | with_reducible exact hk
    | extract_lets
    | with_reducible apply setTime_keeps
    | with_reducible apply setF_keeps
    | with_reducible apply delayReq_keeps
    | (with_reducible refine Keeps.lit ?_; first | with_reducible exact hk | with_reducible apply setTime_keeps | with_reducible apply setF_keeps | with_reducible apply delayReq_keeps)
    | with_reducible apply Keeps.ite
    | split
    | dsimp +zetaDelta only

theorem admitted_keeps {z : State} {s : State} {p f : Nat} {frame rtp : List Byte} {colour : Nat} (hk : Keeps z s) :
    Keeps z (admitted s p f frame rtp colour) := by
  unfold admitted
  repeat' first
    | with_reducible exact hk
    | extract_lets
    | with_reducible apply askLastBillet_keeps
    | with_reducible apply rxRemove_keeps
    | with_reducible apply addF_keeps
    | with_reducible apply sequence_keeps
    | with_reducible apply Keeps.ite
    | split
    | dsimp +zetaDelta only

theorem matched_keeps {z : State} {s0 : State} {p f : Nat} {frame rtp : List Byte} (hk : Keeps z s0) :
    Keeps z (matched s0 p f frame rtp) := by
  unfold matched
  repeat' first
    | with_reducible exact hk
    | extract_lets
    | with_reducible apply setF_keeps
    | with_reducible apply askLastBillet_keeps
    | with_reducible apply rxDone_keeps
    | with_reducible apply satF_keeps
    | with_reducible apply ingRaise_keeps
    | with_reducible refine Keeps.snd (meter_keeps ?_) (by assumption)
    | with_reducible apply meter_keeps
    | with_reducible apply addF_keeps
    | with_reducible apply admitted_keeps
    | with_reducible apply Keeps.ite
    | split
    | with_reducible refine Keeps.snd ?_ (by assumption)
    | dsimp only
    | dsimp +zetaDelta only

theorem ingestFrame_keeps {z : State} {s : State} {p : Nat} {frame : List Byte} (hk : Keeps z s) :
    Keeps z (ingestFrame s p frame) := by
  unfold ingestFrame
  repeat' first
    | with_reducible exact hk
    | extract_lets
    | with_reducible apply askLastBillet_keeps
    | with_reducible apply rxDone_keeps
    | with_reducible apply satF_keeps
    | with_reducible apply tunnelToHost_keeps
    | with_reducible apply ptpToKeeper_keeps
    | with_reducible apply matched_keeps
    | with_reducible apply Keeps.ite
    | split
    | dsimp +zetaDelta only

theorem replicaReceived_keeps {z : State} {s : State} {p f : Nat} {rtp : List Byte} (hk : Keeps z s) :
    Keeps z (replicaReceived s p f rtp) := by
  unfold replicaReceived
  repeat' first
    | with_reducible exact hk
    | extract_lets
    | with_reducible apply replicate_keeps
    | with_reducible apply setPort_keeps
    | with_reducible apply sequence_keeps
    | with_reducible apply chainTake_keeps
    | (with_reducible refine Keeps.lit ?_; first | with_reducible exact hk | with_reducible apply replicate_keeps | with_reducible apply setPort_keeps | with_reducible apply sequence_keeps | with_reducible apply chainTake_keeps)
    | with_reducible apply Keeps.ite
    | split
    | dsimp +zetaDelta only

theorem countFramePixels_keeps {z : State} {s : State} {v n : Nat} {key : Bool} (hk : Keeps z s) :
    Keeps z (countFramePixels s v n key) := by
  unfold countFramePixels
  repeat' first
    | with_reducible exact hk
    | extract_lets
    | with_reducible apply setFlow_keeps
    | (with_reducible refine Keeps.lit ?_; first | with_reducible exact hk | with_reducible apply setFlow_keeps)
    | with_reducible apply Keeps.ite
    | split
    | dsimp +zetaDelta only

theorem stage_keeps {z : State} {s : State} {v j off : Nat} {ws : List Nat} {key : Bool} (hk : Keeps z s) :
    Keeps z (stage s v j off ws key) := by
  unfold stage
  repeat' first
    | with_reducible exact hk
    | extract_lets
    | intro _
    | with_reducible apply put_keeps
    | with_reducible apply setFlow_keeps
    | with_reducible apply writeStaged_keeps
    | with_reducible apply writeSkewed_keeps
    | with_reducible apply Keeps.foldl
    | with_reducible apply Keeps.foldl_fst
    | with_reducible apply Keeps.foldl_snd
    | with_reducible refine Keeps.fst ?_ (by assumption)
    | (with_reducible refine Keeps.lit ?_; first | with_reducible exact hk | with_reducible apply put_keeps | with_reducible apply setFlow_keeps | with_reducible apply writeStaged_keeps | with_reducible apply writeSkewed_keeps | with_reducible apply Keeps.foldl | with_reducible apply Keeps.foldl_fst | with_reducible apply Keeps.foldl_snd | with_reducible refine Keeps.fst ?_ (by assumption))
    | (with_reducible refine Keeps.lit ?_; with_reducible exact Keeps.refl _)
    | with_reducible apply Keeps.ite
    | split
    | with_reducible exact Keeps.refl _
    | dsimp +zetaDelta only

theorem writeSrd_keeps {z : State} {s : State} {f v : Nat} {x : Srd} (hk : Keeps z s) :
    Keeps z (writeSrd s f v x) := by
  unfold writeSrd
  repeat' first
    | with_reducible exact hk
    | extract_lets
    | with_reducible apply satF_keeps
    | with_reducible apply ingRaise_keeps
    | with_reducible apply countFramePixels_keeps
    | with_reducible apply stage_keeps
    | with_reducible apply ingestStore_keeps
    | with_reducible apply Keeps.ite
    | split
    | dsimp +zetaDelta only

theorem packetWritten_keeps {z : State} {s : State} {f : Nat} (hk : Keeps z s) :
    Keeps z (packetWritten s f) := by
  unfold packetWritten
  repeat' first
    | with_reducible exact hk
    | extract_lets
    | intro _
    | with_reducible apply setFlow_keeps
    | with_reducible apply freeBillets_keeps
    | with_reducible apply satF_keeps
    | with_reducible apply ingRaise_keeps
    | with_reducible apply writeSrd_keeps
    | with_reducible apply Keeps.foldl
    | with_reducible apply Keeps.foldl_fst
    | with_reducible apply Keeps.foldl_snd
    | with_reducible refine Keeps.fst ?_ (by assumption)
    | (with_reducible refine Keeps.lit ?_; first | with_reducible exact hk | with_reducible apply setFlow_keeps | with_reducible apply freeBillets_keeps | with_reducible apply satF_keeps | with_reducible apply ingRaise_keeps | with_reducible apply writeSrd_keeps | with_reducible apply Keeps.foldl | with_reducible apply Keeps.foldl_fst | with_reducible apply Keeps.foldl_snd | with_reducible refine Keeps.fst ?_ (by assumption))
    | (with_reducible refine Keeps.lit ?_; with_reducible exact Keeps.refl _)
    | with_reducible apply Keeps.ite
    | split
    | with_reducible exact Keeps.refl _
    | dsimp +zetaDelta only

theorem frameComplete_keeps {z : State} {s : State} {v : Nat} (hk : Keeps z s) :
    Keeps z (frameComplete s v) := by
  unfold frameComplete
  repeat' first
    | with_reducible exact hk
    | with_reducible apply endFrame_keeps
    | with_reducible apply Keeps.ite
    | split

theorem pathDown_keeps {z : State} {s : State} {f : Nat} (hk : Keeps z s) :
    Keeps z (pathDown s f) := by
  unfold pathDown
  repeat' first
    | with_reducible exact hk
    | with_reducible apply setF_keeps
    | with_reducible apply ingRaise_keeps
    | with_reducible apply Keeps.ite
    | split

theorem flowOff_keeps {z : State} {s : State} {f : Nat} (hk : Keeps z s) :
    Keeps z (flowOff s f) := by
  unfold flowOff
  repeat' first
    | with_reducible exact hk
    | extract_lets
    | intro _
    | with_reducible apply abandon_keeps
    | with_reducible apply freeBillets_keeps
    | with_reducible apply setFlow_keeps
    | with_reducible apply setF_keeps
    | with_reducible apply Keeps.foldl
    | with_reducible apply Keeps.foldl_fst
    | with_reducible apply Keeps.foldl_snd
    | with_reducible refine Keeps.fst ?_ (by assumption)
    | (with_reducible refine Keeps.lit ?_; first | with_reducible exact hk | with_reducible apply abandon_keeps | with_reducible apply freeBillets_keeps | with_reducible apply setFlow_keeps | with_reducible apply setF_keeps | with_reducible apply Keeps.foldl | with_reducible apply Keeps.foldl_fst | with_reducible apply Keeps.foldl_snd | with_reducible refine Keeps.fst ?_ (by assumption))
    | (with_reducible refine Keeps.lit ?_; with_reducible exact Keeps.refl _)
    | with_reducible apply Keeps.ite
    | split
    | with_reducible exact Keeps.refl _
    | dsimp +zetaDelta only

theorem flowAllOff_keeps {z : State} {s : State} {f : Nat} (hk : Keeps z s) :
    Keeps z (flowAllOff s f) := by
  unfold flowAllOff
  repeat' first
    | with_reducible exact hk
    | extract_lets
    | intro _
    | with_reducible apply flowOff_keeps
    | with_reducible apply Keeps.foldl
    | with_reducible apply Keeps.foldl_fst
    | with_reducible apply Keeps.foldl_snd
    | with_reducible refine Keeps.fst ?_ (by assumption)
    | with_reducible exact Keeps.refl _
    | dsimp +zetaDelta only

theorem ingFlowCtrlWrite_keeps {z s : State} {r : Req} {x : Found} {new d m : Nat}  (hk : Keeps z s) : Keeps z (ingFlowCtrlWrite r x new d m s) := by
  unfold ingFlowCtrlWrite
  repeat' first
    | with_reducible exact hk
    | extract_lets
    | with_reducible apply ingRaise_keeps
    | with_reducible apply flowAllOff_keeps
    | with_reducible apply setReg_keeps
    | with_reducible apply setF_keeps
    | with_reducible apply setFlow_keeps
    | (with_reducible refine Keeps.lit ?_; first | with_reducible exact hk | with_reducible apply ingRaise_keeps | with_reducible apply flowAllOff_keeps | with_reducible apply setReg_keeps | with_reducible apply setF_keeps | with_reducible apply setFlow_keeps)
    | with_reducible apply Keeps.ite
    | split
    | dsimp +zetaDelta only

theorem ingFlowCfgWrite_keeps {z s : State} {r : Req} {x : Found} {new d m : Nat}  (hk : Keeps z s) : Keeps z (ingFlowCfgWrite r x new d m s) := by
  unfold ingFlowCfgWrite
  repeat' first
    | with_reducible exact hk
    | with_reducible apply ingRaise_keeps
    | with_reducible apply plainWrite_keeps
    | with_reducible apply Keeps.ite
    | split

end Sys2Proof.Machine.State
end

