-- ==== Sys2Proof/Laws/KeepsDdr.lean ====
section
/-! SUPPORT. Every operation of Ddr.lean keeps the queue and the canonical form (Keeps). -/

namespace Sys2Proof.Machine.State

theorem setMcState_keeps {z : State} {s : State} {c st : Nat} (hk : Keeps z s) :
    Keeps z (setMcState s c st) := by
  unfold setMcState
  repeat' first
    | with_reducible exact hk
    | with_reducible apply setF_keeps

theorem trainChannel_keeps {z : State} {s : State} {speed density ranks c : Nat} (hk : Keeps z s) :
    Keeps z (trainChannel s speed density ranks c) := by
  unfold trainChannel
  repeat' first
    | with_reducible exact hk
    | extract_lets
    | with_reducible apply setF_keeps
    | with_reducible apply setMcState_keeps
    | dsimp +zetaDelta only

theorem enterMc_keeps {z : State} {s : State} {c st : Nat} (hk : Keeps z s) :
    Keeps z (enterMc s c st) := by
  unfold enterMc
  repeat' first
    | with_reducible exact hk
    | extract_lets
    | with_reducible apply setChan_keeps
    | with_reducible apply setMcState_keeps
    | (with_reducible refine Keeps.lit ?_; first | with_reducible exact hk | with_reducible apply setChan_keeps | with_reducible apply setMcState_keeps)
    | dsimp +zetaDelta only

theorem powerDownEntry_keeps {z : State} {s : State} {c : Nat} (hk : Keeps z s) :
    Keeps z (powerDownEntry s c) := by
  unfold powerDownEntry
  repeat' first
    | with_reducible exact hk
    | with_reducible apply enterMc_keeps
    | with_reducible apply Keeps.ite
    | split

theorem selfRefreshEntry_keeps {z : State} {s : State} {c : Nat} (hk : Keeps z s) :
    Keeps z (selfRefreshEntry s c) := by
  unfold selfRefreshEntry
  repeat' first
    | with_reducible exact hk
    | with_reducible apply enterMc_keeps
    | with_reducible apply Keeps.ite
    | split

theorem lowPowerExit_keeps {z : State} {s : State} {c : Nat} (hk : Keeps z s) :
    Keeps z (lowPowerExit s c) := by
  unfold lowPowerExit
  repeat' first
    | with_reducible exact hk
    | with_reducible apply enterMc_keeps
    | with_reducible apply Keeps.ite
    | split

theorem refreshDue_keeps {z : State} {s : State} {c : Nat} (hk : Keeps z s) :
    Keeps z (refreshDue s c) := by
  unfold refreshDue
  repeat' first
    | with_reducible exact hk
    | extract_lets
    | with_reducible apply setChan_keeps
    | (with_reducible refine Keeps.lit ?_; first | with_reducible exact hk | with_reducible apply setChan_keeps)
    | with_reducible apply Keeps.ite
    | split
    | dsimp +zetaDelta only

theorem mcFault_keeps {z : State} {s : State} {c : Nat} (hk : Keeps z s) :
    Keeps z (mcFault s c) := by
  unfold mcFault
  repeat' first
    | with_reducible exact hk
    | with_reducible apply enterMc_keeps
    | with_reducible apply mcRaise_keeps

theorem caAlert_keeps {z : State} {s : State} {c : Nat} (hk : Keeps z s) :
    Keeps z (caAlert s c) := by
  unfold caAlert
  repeat' first
    | with_reducible exact hk
    | extract_lets
    | with_reducible apply mcRaise_keeps
    | with_reducible apply setChan_keeps
    | with_reducible apply satF_keeps
    | with_reducible apply mcFault_keeps
    | (with_reducible refine Keeps.lit ?_; first | with_reducible exact hk | with_reducible apply mcRaise_keeps | with_reducible apply setChan_keeps | with_reducible apply satF_keeps | with_reducible apply mcFault_keeps)
    | with_reducible apply Keeps.ite
    | split
    | dsimp +zetaDelta only

theorem crcAlert_keeps {z : State} {s : State} {c : Nat} (hk : Keeps z s) :
    Keeps z (crcAlert s c) := by
  unfold crcAlert
  repeat' first
    | with_reducible exact hk
    | extract_lets
    | with_reducible apply mcRaise_keeps
    | with_reducible apply setChan_keeps
    | with_reducible apply satF_keeps
    | with_reducible apply mcFault_keeps
    | (with_reducible refine Keeps.lit ?_; first | with_reducible exact hk | with_reducible apply mcRaise_keeps | with_reducible apply setChan_keeps | with_reducible apply satF_keeps | with_reducible apply mcFault_keeps)
    | with_reducible apply Keeps.ite
    | split
    | dsimp +zetaDelta only

theorem slabRead_keeps {z : State} {s : State} {a : Nat} {e : Ecc} {w : Nat × Nat} {scrub : Bool} (hk : Keeps z s) :
    Keeps z (slabRead s a e w scrub) := by
  unfold slabRead
  repeat' first
    | with_reducible exact hk
    | with_reducible apply addPoison_keeps
    | with_reducible apply slabUe_keeps
    | with_reducible apply slabCe_keeps
    | with_reducible apply Keeps.ite
    | split

theorem lineBufferRead_keeps {z : State} {s : State} {o : Nat} {e : Ecc} {scrub : Bool} (hk : Keeps z s) :
    Keeps z (lineBufferRead s o e scrub) := by
  unfold lineBufferRead
  repeat' first
    | with_reducible exact hk
    | extract_lets
    | with_reducible apply slabCe_keeps
    | with_reducible apply slabUe_keeps
    | with_reducible apply replicate_keeps
    | with_reducible apply setEngine_keeps
    | with_reducible apply put_keeps
    | with_reducible apply satF_keeps
    | with_reducible apply raise_keeps
    | (with_reducible refine Keeps.lit ?_; first | with_reducible exact hk | with_reducible apply slabCe_keeps | with_reducible apply slabUe_keeps | with_reducible apply replicate_keeps | with_reducible apply setEngine_keeps | with_reducible apply put_keeps | with_reducible apply satF_keeps | with_reducible apply raise_keeps)
    | with_reducible apply Keeps.ite
    | split
    | dsimp +zetaDelta only

theorem readComplete_keeps {z : State} {s : State} {c a : Nat} {e : Ecc} {scrub : Bool} (hk : Keeps z s) :
    Keeps z (readComplete s c a e scrub) := by
  unfold readComplete
  repeat' first
    | with_reducible exact hk
    | extract_lets
    | with_reducible apply slabRead_keeps
    | with_reducible apply lineBufferRead_keeps
    | with_reducible apply setChan_keeps
    | with_reducible apply request_keeps
    | with_reducible apply addPoison_keeps
    | with_reducible apply mcUe_keeps
    | with_reducible apply satF_keeps
    | with_reducible apply mcLog_keeps
    | with_reducible apply mcRaise_keeps
    | (with_reducible refine Keeps.lit ?_; first | with_reducible exact hk | with_reducible apply slabRead_keeps | with_reducible apply lineBufferRead_keeps | with_reducible apply setChan_keeps | with_reducible apply request_keeps | with_reducible apply addPoison_keeps | with_reducible apply mcUe_keeps | with_reducible apply satF_keeps | with_reducible apply mcLog_keeps | with_reducible apply mcRaise_keeps)
    | with_reducible apply Keeps.ite
    | split
    | dsimp +zetaDelta only

theorem scrubPassDone_keeps {z : State} {s : State} {c : Nat} (hk : Keeps z s) :
    Keeps z (scrubPassDone s c) := by
  unfold scrubPassDone
  repeat' first
    | with_reducible exact hk
    | with_reducible apply mcRaise_keeps
    | with_reducible apply Keeps.ite
    | split

theorem mcRefreshWrite_keeps {z s : State} {r : Req} {x : Found} {new d m : Nat}  (hk : Keeps z s) : Keeps z (mcRefreshWrite r x new d m s) := by
  unfold mcRefreshWrite
  repeat' first
    | with_reducible exact hk
    | extract_lets
    | with_reducible apply setReg_keeps
    | with_reducible apply setF_keeps
    | with_reducible apply mcRaise_keeps
    | with_reducible apply Keeps.ite
    | split
    | dsimp +zetaDelta only

theorem slabPassDone_keeps {z : State} {s : State} (hk : Keeps z s) :
    Keeps z (slabPassDone s) := by
  unfold slabPassDone
  repeat' first
    | with_reducible exact hk
    | with_reducible apply raiseAll_keeps
    | with_reducible apply Keeps.ite
    | split

theorem chanTick_keeps {z : State} {s : State} {c : Nat} (hk : Keeps z s) :
    Keeps z (chanTick s c) := by
  unfold chanTick
  repeat' first
    | with_reducible exact hk
    | extract_lets
    | with_reducible apply setChan_keeps
    | with_reducible refine Keeps.snd (slotPasses_keeps ?_) (by assumption)
    | with_reducible apply slotPasses_keeps
    | with_reducible apply fetchGranted_keeps
    | (with_reducible refine Keeps.lit ?_; first | with_reducible exact hk | with_reducible apply setChan_keeps | with_reducible refine Keeps.snd (slotPasses_keeps ?_) (by assumption) | with_reducible apply slotPasses_keeps | with_reducible apply fetchGranted_keeps)
    | with_reducible apply Keeps.ite
    | split
    | with_reducible refine Keeps.snd ?_ (by assumption)
    | dsimp only
    | dsimp +zetaDelta only

theorem memTick_keeps {z : State} {s : State} (hk : Keeps z s) :
    Keeps z (memTick s) := by
  unfold memTick
  repeat' first
    | with_reducible exact hk
    | extract_lets
    | intro _
    | with_reducible apply chanTick_keeps
    | with_reducible apply planAhead_keeps
    | with_reducible apply issueFetch_keeps
    | with_reducible apply Keeps.forN
    | with_reducible apply Keeps.foldl
    | with_reducible apply Keeps.foldl_fst
    | with_reducible apply Keeps.foldl_snd
    | with_reducible refine Keeps.fst ?_ (by assumption)
    | with_reducible exact Keeps.refl _
    | dsimp +zetaDelta only

theorem slabRetention_keeps {z : State} {s : State} (hk : Keeps z s) :
    Keeps z (slabRetention s) := by
  unfold slabRetention
  repeat' first
    | with_reducible exact hk

end Sys2Proof.Machine.State
end

