-- ==== Sys2Proof/Laws/KeepsBlit.lean ====
section
/-! SUPPORT. Every operation of Blit.lean keeps the queue and the canonical form (Keeps). -/

namespace Sys2Proof.Machine.State

theorem bltRaise_keeps {z : State} {s : State} {b : Nat} {flags : List Nat} (hk : Keeps z s) :
    Keeps z (bltRaise s b flags) := by
  unfold bltRaise
  repeat' first
    | with_reducible exact hk
    | with_reducible apply raiseAll_keeps

theorem setBltState_keeps {z : State} {s : State} {b st : Nat} (hk : Keeps z s) :
    Keeps z (setBltState s b st) := by
  unfold setBltState
  repeat' first
    | with_reducible exact hk
    | with_reducible apply setF_keeps

theorem bltProd_keeps {z : State} {s : State} {b p : Nat} (hk : Keeps z s) :
    Keeps z (bltProd s b p).2 := by
  unfold bltProd
  repeat' first
    | with_reducible exact hk
    | extract_lets
    | with_reducible apply setF_keeps
    | with_reducible apply bltRaise_keeps
    | with_reducible apply Keeps.ite
    | split
    | dsimp only
    | dsimp +zetaDelta only

theorem bltProdWrite_keeps {z s : State} {r : Req} {x : Found} {new d m : Nat}  (hk : Keeps z s) : Keeps z (bltProdWrite r x new d m s) := by
  unfold bltProdWrite
  repeat' first
    | with_reducible exact hk
    | with_reducible refine Keeps.snd (bltProd_keeps ?_) (by assumption)
    | with_reducible apply bltProd_keeps

theorem actBlit_keeps {z : State} {c : Nat} {s : State} (hk : Keeps z s) :
    Keeps z (actBlit c s).state := by
  unfold actBlit
  repeat' first
    | with_reducible exact hk
    | extract_lets
    | with_reducible refine Keeps.snd (bltProd_keeps ?_) (by assumption)
    | with_reducible apply bltProd_keeps
    | with_reducible apply Keeps.ite
    | split
    | with_reducible refine Keeps.snd ?_ (by assumption)
    | dsimp only
    | dsimp +zetaDelta only

theorem bltResumeWrite_keeps {z s : State} {r : Req} {x : Found} {new d m : Nat}  (hk : Keeps z s) : Keeps z (bltResumeWrite r x new d m s) := by
  unfold bltResumeWrite
  repeat' first
    | with_reducible exact hk
    | with_reducible apply setBltState_keeps
    | with_reducible apply Keeps.ite
    | split

theorem bltCtrlWrite_keeps {z s : State} {r : Req} {x : Found} {new d m : Nat}  (hk : Keeps z s) : Keeps z (bltCtrlWrite r x new d m s) := by
  unfold bltCtrlWrite
  repeat' first
    | with_reducible exact hk
    | extract_lets
    | with_reducible apply bltRaise_keeps
    | with_reducible apply setReg_keeps
    | with_reducible apply setBltState_keeps
    | with_reducible apply Keeps.ite
    | split
    | dsimp +zetaDelta only

theorem bltRingWrite_keeps {z s : State} {r : Req} {x : Found} {new d m : Nat} {base : Bool} (hk : Keeps z s) : Keeps z (bltRingWrite base r x new d m s) := by
  unfold bltRingWrite
  repeat' first
    | with_reducible exact hk
    | extract_lets
    | with_reducible apply bltRaise_keeps
    | with_reducible apply setReg_keeps
    | with_reducible apply setF_keeps
    | with_reducible apply Keeps.ite
    | split
    | dsimp +zetaDelta only

theorem bltRequest_keeps {z : State} {s : State} {b a n : Nat} {write : Bool} (hk : Keeps z s) :
    Keeps z (bltRequest s b a n write) := by
  unfold bltRequest
  repeat' first
    | with_reducible exact hk
    | with_reducible apply request_keeps

theorem descriptorRead_keeps {z : State} {s0 : State} {b : Nat} (hk : Keeps z s0) :
    Keeps z (descriptorRead s0 b) := by
  unfold descriptorRead
  repeat' first
    | with_reducible exact hk
    | extract_lets
    | intro _
    | with_reducible apply bltRequest_keeps
    | with_reducible apply put_keeps
    | with_reducible apply bltRaise_keeps
    | with_reducible apply setBltState_keeps
    | with_reducible apply Keeps.when
    | (with_reducible refine Keeps.lit ?_; first | with_reducible exact hk | with_reducible apply bltRequest_keeps | with_reducible apply put_keeps | with_reducible apply bltRaise_keeps | with_reducible apply setBltState_keeps | with_reducible apply Keeps.when)
    | (with_reducible refine Keeps.lit ?_; with_reducible exact Keeps.refl _)
    | with_reducible apply Keeps.ite
    | split
    | with_reducible exact Keeps.refl _
    | dsimp +zetaDelta only

theorem bltBegin_keeps {z : State} {s : State} {b : Nat} {x : Blit} {d : BltDesc} (hk : Keeps z s) :
    Keeps z (bltBegin s b x d) := by
  unfold bltBegin
  repeat' first
    | with_reducible exact hk
    | with_reducible apply put_keeps
    | (with_reducible refine Keeps.lit ?_; first | with_reducible exact hk | with_reducible apply put_keeps)

theorem bltFill_keeps {z : State} {s : State} {b : Nat} (hk : Keeps z s) :
    Keeps z (bltFill s b) := by
  unfold bltFill
  repeat' first
    | with_reducible exact hk
    | with_reducible apply bltBegin_keeps
    | with_reducible apply Keeps.ite
    | split

theorem bltCopy_keeps {z : State} {s : State} {b : Nat} (hk : Keeps z s) :
    Keeps z (bltCopy s b) := by
  unfold bltCopy
  repeat' first
    | with_reducible exact hk
    | with_reducible apply bltBegin_keeps
    | with_reducible apply Keeps.ite
    | split

theorem bltConvert_keeps {z : State} {s : State} {b : Nat} (hk : Keeps z s) :
    Keeps z (bltConvert s b) := by
  unfold bltConvert
  repeat' first
    | with_reducible exact hk
    | with_reducible apply bltBegin_keeps
    | with_reducible apply Keeps.ite
    | split

theorem bltMove_keeps {z : State} {s : State} {b : Nat} {x : Blit} {u : BltBurst} {rest : List BltBurst} (hk : Keeps z s) :
    Keeps z (bltMove s b x u rest) := by
  unfold bltMove
  repeat' first
    | with_reducible exact hk
    | with_reducible apply put_keeps
    | with_reducible apply putDdr_keeps
    | with_reducible apply bltRaise_keeps
    | (with_reducible refine Keeps.lit ?_; first | with_reducible exact hk | with_reducible apply put_keeps | with_reducible apply putDdr_keeps | with_reducible apply bltRaise_keeps)
    | with_reducible apply Keeps.ite
    | split

theorem bltTick_keeps {z : State} {s : State} {b : Nat} (hk : Keeps z s) :
    Keeps z (bltTick s b) := by
  unfold bltTick
  repeat' first
    | with_reducible exact hk
    | extract_lets
    | with_reducible apply put_keeps
    | with_reducible apply bltMove_keeps
    | with_reducible apply bltRequest_keeps
    | with_reducible apply addF_keeps
    | (with_reducible refine Keeps.lit ?_; first | with_reducible exact hk | with_reducible apply put_keeps | with_reducible apply bltMove_keeps | with_reducible apply bltRequest_keeps | with_reducible apply addF_keeps)
    | with_reducible apply Keeps.ite
    | split
    | dsimp +zetaDelta only

theorem descriptorComplete_keeps {z : State} {s : State} {b : Nat} (hk : Keeps z s) :
    Keeps z (descriptorComplete s b) := by
  unfold descriptorComplete
  repeat' first
    | with_reducible exact hk
    | extract_lets
    | intro _
    | with_reducible apply bltRequest_keeps
    | with_reducible apply putDdr_keeps
    | with_reducible apply dirtyEngine_keeps
    | with_reducible apply addF_keeps
    | with_reducible apply setBltState_keeps
    | with_reducible apply bltRaise_keeps
    | with_reducible apply setF_keeps
    | with_reducible apply satF_keeps
    | with_reducible apply Keeps.foldl
    | with_reducible apply Keeps.foldl_fst
    | with_reducible apply Keeps.foldl_snd
    | with_reducible refine Keeps.fst ?_ (by assumption)
    | (with_reducible refine Keeps.lit ?_; first | with_reducible exact hk | with_reducible apply bltRequest_keeps | with_reducible apply putDdr_keeps | with_reducible apply dirtyEngine_keeps | with_reducible apply addF_keeps | with_reducible apply setBltState_keeps | with_reducible apply bltRaise_keeps | with_reducible apply setF_keeps | with_reducible apply satF_keeps | with_reducible apply Keeps.foldl | with_reducible apply Keeps.foldl_fst | with_reducible apply Keeps.foldl_snd | with_reducible refine Keeps.fst ?_ (by assumption))
    | (with_reducible refine Keeps.lit ?_; with_reducible exact Keeps.refl _)
    | with_reducible apply Keeps.ite
    | split
    | with_reducible exact Keeps.refl _
    | dsimp +zetaDelta only

end Sys2Proof.Machine.State
end

