-- ==== Sys2Proof/Laws/KeepsCores.lean ====
section
/-! SUPPORT. Every operation of Cores.lean keeps the queue and the canonical form (Keeps). -/

namespace Sys2Proof.Machine.State

theorem setServ_keeps {z : State} {s : State} {x : Serv} (hk : Keeps z s) :
    Keeps z (setServ s x) := by
  unfold setServ
  repeat' first
    | with_reducible exact hk
    | (with_reducible refine Keeps.lit ?_; first | with_reducible exact hk)

theorem plicClaim_keeps {z : State} {c : Nat} {r : Req} {s : State} (hk : Keeps z s) :
    Keeps z (plicClaim c r s).2 := by
  unfold plicClaim
  repeat' first
    | with_reducible exact hk
    | extract_lets
    | with_reducible apply setServ_keeps
    | (with_reducible refine Keeps.lit ?_; first | with_reducible exact hk | with_reducible apply setServ_keeps)
    | with_reducible apply Keeps.ite
    | split
    | dsimp only
    | dsimp +zetaDelta only

theorem plicClaimRead_keeps {z s : State} {r : Req} {x : Found}  (hk : Keeps z s) : Keeps z (plicClaimRead r x s).2 := by
  unfold plicClaimRead
  repeat' first
    | with_reducible exact hk
    | with_reducible refine Keeps.snd (plicClaim_keeps ?_) (by assumption)
    | with_reducible apply plicClaim_keeps
    | dsimp only

theorem plicCompleteWrite_keeps {z s : State} {r : Req} {x : Found} {new d m : Nat}  (hk : Keeps z s) : Keeps z (plicCompleteWrite r x new d m s) := by
  unfold plicCompleteWrite
  repeat' first
    | with_reducible exact hk
    | with_reducible apply setServ_keeps
    | (with_reducible refine Keeps.lit ?_; first | with_reducible exact hk | with_reducible apply setServ_keeps)

theorem freeSems_keeps {z : State} {s : State} {master : Nat} (hk : Keeps z s) :
    Keeps z (freeSems s master) := by
  unfold freeSems
  repeat' first
    | with_reducible exact hk
    | extract_lets
    | with_reducible apply setBus_keeps
    | (with_reducible refine Keeps.lit ?_; first | with_reducible exact hk | with_reducible apply setBus_keeps)
    | dsimp +zetaDelta only

theorem setHalted_keeps {z : State} {s : State} {v : Nat} (hk : Keeps z s) :
    Keeps z (setHalted s v) := by
  unfold setHalted
  repeat' first
    | with_reducible exact hk
    | with_reducible apply setF_keeps

theorem machineTimer_keeps {z : State} {s : State} {k : Nat} (hk : Keeps z s) :
    Keeps z (machineTimer s k) := by
  unfold machineTimer
  repeat' first
    | with_reducible exact hk
    | with_reducible apply setServ_keeps
    | (with_reducible refine Keeps.lit ?_; first | with_reducible exact hk | with_reducible apply setServ_keeps)
    | with_reducible apply Keeps.ite
    | split

theorem machineTimers_keeps {z : State} {s : State} (hk : Keeps z s) :
    Keeps z (machineTimers s) := by
  unfold machineTimers
  repeat' first
    | with_reducible exact hk
    | intro _
    | with_reducible apply machineTimer_keeps
    | with_reducible apply Keeps.forN
    | with_reducible exact Keeps.refl _

theorem mtimecmpWrite_keeps {z s : State} {r : Req} {x : Found} {new d m : Nat}  (hk : Keeps z s) : Keeps z (mtimecmpWrite r x new d m s) := by
  unfold mtimecmpWrite
  repeat' first
    | with_reducible exact hk
    | with_reducible apply setReg_keeps
    | with_reducible apply machineTimer_keeps

theorem setRelease_keeps {z : State} {s : State} {v : Nat} (hk : Keeps z s) :
    Keeps z (setRelease s v) := by
  unfold setRelease
  repeat' first
    | with_reducible exact hk
    | extract_lets
    | intro _
    | with_reducible apply setF_keeps
    | with_reducible apply setHalted_keeps
    | with_reducible apply freeSems_keeps
    | with_reducible apply machineTimers_keeps
    | with_reducible apply Keeps.forN
    | with_reducible apply Keeps.ite
    | split
    | with_reducible exact Keeps.refl _
    | dsimp +zetaDelta only

theorem coreCtrlWrite_keeps {z s : State} {r : Req} {x : Found} {new d m : Nat}  (hk : Keeps z s) : Keeps z (coreCtrlWrite r x new d m s) := by
  unfold coreCtrlWrite
  repeat' first
    | with_reducible exact hk
    | with_reducible apply setRelease_keeps

theorem pendBit_keeps {z : State} {s : State} {a n : Nat} {on : Bool} (hk : Keeps z s) :
    Keeps z (pendBit s a n on) := by
  unfold pendBit
  repeat' first
    | with_reducible exact hk
    | extract_lets
    | with_reducible apply setReg_keeps
    | with_reducible apply Keeps.ite
    | split
    | dsimp +zetaDelta only

theorem rxPend_keeps {z : State} {s : State} {i n : Nat} {on : Bool} (hk : Keeps z s) :
    Keeps z (rxPend s i n on) := by
  unfold rxPend
  repeat' first
    | with_reducible exact hk
    | with_reducible apply pendBit_keeps
    | with_reducible apply Keeps.ite
    | split

theorem ackPend_keeps {z : State} {s : State} {i n : Nat} {on : Bool} (hk : Keeps z s) :
    Keeps z (ackPend s i n on) := by
  unfold ackPend
  repeat' first
    | with_reducible exact hk
    | with_reducible apply pendBit_keeps
    | with_reducible apply Keeps.ite
    | split

theorem mbRefuse_keeps {z : State} {s : State} {n master reason flag : Nat} (hk : Keeps z s) :
    Keeps z (mbRefuse s n master reason flag) := by
  unfold mbRefuse
  repeat' first
    | with_reducible exact hk
    | with_reducible apply setF_keeps
    | with_reducible apply raiseAll_keeps

theorem mbMsgWrite_keeps {z s : State} {r : Req} {x : Found} {new d m : Nat}  (hk : Keeps z s) : Keeps z (mbMsgWrite r x new d m s) := by
  unfold mbMsgWrite
  repeat' first
    | with_reducible exact hk
    | extract_lets
    | with_reducible apply mbRefuse_keeps
    | with_reducible apply setReg_keeps
    | with_reducible apply Keeps.ite
    | split
    | dsimp +zetaDelta only

theorem mbSent_keeps {z : State} {s : State} {n len tag : Nat} (hk : Keeps z s) :
    Keeps z (mbSent s n len tag) := by
  unfold mbSent
  repeat' first
    | with_reducible exact hk
    | extract_lets
    | with_reducible apply setF_keeps
    | with_reducible apply addF_keeps
    | with_reducible apply rxPend_keeps
    | with_reducible apply ackPend_keeps
    | with_reducible apply doorbell15_keeps
    | with_reducible apply Keeps.ite
    | split
    | dsimp +zetaDelta only

theorem mbSendWrite_keeps {z s : State} {r : Req} {x : Found} {new d m : Nat}  (hk : Keeps z s) : Keeps z (mbSendWrite r x new d m s) := by
  unfold mbSendWrite
  repeat' first
    | with_reducible exact hk
    | extract_lets
    | with_reducible apply mbRefuse_keeps
    | with_reducible apply mbSent_keeps
    | with_reducible apply Keeps.ite
    | split
    | dsimp +zetaDelta only

theorem mbAcked_keeps {z : State} {s : State} {n status code : Nat} (hk : Keeps z s) :
    Keeps z (mbAcked s n status code) := by
  unfold mbAcked
  repeat' first
    | with_reducible exact hk
    | extract_lets
    | with_reducible apply setF_keeps
    | with_reducible apply rxPend_keeps
    | with_reducible apply ackPend_keeps
    | with_reducible apply doorbell15_keeps
    | with_reducible apply Keeps.ite
    | split
    | dsimp +zetaDelta only

theorem mbAckWrite_keeps {z s : State} {r : Req} {x : Found} {new d m : Nat}  (hk : Keeps z s) : Keeps z (mbAckWrite r x new d m s) := by
  unfold mbAckWrite
  repeat' first
    | with_reducible exact hk
    | extract_lets
    | with_reducible apply mbRefuse_keeps
    | with_reducible apply mbAcked_keeps
    | with_reducible apply Keeps.ite
    | split
    | dsimp +zetaDelta only

theorem mbDoneWrite_keeps {z s : State} {r : Req} {x : Found} {new d m : Nat}  (hk : Keeps z s) : Keeps z (mbDoneWrite r x new d m s) := by
  unfold mbDoneWrite
  repeat' first
    | with_reducible exact hk
    | extract_lets
    | with_reducible apply mbRefuse_keeps
    | with_reducible apply setF_keeps
    | with_reducible apply ackPend_keeps
    | with_reducible apply Keeps.ite
    | split
    | dsimp +zetaDelta only

theorem mbTimeout_keeps {z : State} {s : State} {n : Nat} (hk : Keeps z s) :
    Keeps z (mbTimeout s n) := by
  unfold mbTimeout
  repeat' first
    | with_reducible exact hk
    | with_reducible apply mbAcked_keeps
    | with_reducible apply setF_keeps
    | with_reducible apply raiseAll_keeps
    | with_reducible apply Keeps.ite
    | split

theorem setBind_keeps {z : State} {s : State} {n v : Nat} (hk : Keeps z s) :
    Keeps z (setBind s n v) := by
  unfold setBind
  repeat' first
    | with_reducible exact hk
    | with_reducible apply setReg_keeps
    | with_reducible apply setF_keeps

theorem mbBindWrite_keeps {z s : State} {r : Req} {x : Found} {new d m : Nat}  (hk : Keeps z s) : Keeps z (mbBindWrite r x new d m s) := by
  unfold mbBindWrite
  repeat' first
    | with_reducible exact hk
    | with_reducible apply setBind_keeps

theorem actSignal_keeps {z : State} {c : Nat} {s : State} (hk : Keeps z s) :
    Keeps z (actSignal c s).state := by
  unfold actSignal
  repeat' first
    | with_reducible exact hk
    | extract_lets
    | intro _
    | with_reducible apply writeReg_keeps
    | with_reducible apply mbMsgWrite_keeps
    | with_reducible apply mbSendWrite_keeps
    | with_reducible apply Keeps.ite
    | split
    | dsimp only
    | with_reducible exact Keeps.refl _
    | dsimp +zetaDelta only

theorem dmActivated_keeps {z : State} {s : State} (hk : Keeps z s) :
    Keeps z (dmActivated s) := by
  unfold dmActivated
  repeat' first
    | with_reducible exact hk
    | with_reducible apply setF_keeps
    | with_reducible apply raiseAll_keeps
    | with_reducible apply Keeps.ite
    | split

theorem dmDeactivated_keeps {z : State} {s : State} (hk : Keeps z s) :
    Keeps z (dmDeactivated s) := by
  unfold dmDeactivated
  repeat' first
    | with_reducible exact hk
    | with_reducible apply setF_keeps
    | with_reducible apply Keeps.ite
    | split

theorem debugHalt_keeps {z : State} {s : State} {k : Nat} (hk : Keeps z s) :
    Keeps z (debugHalt s k) := by
  unfold debugHalt
  repeat' first
    | with_reducible exact hk
    | with_reducible apply setHalted_keeps
    | with_reducible apply raiseAll_keeps
    | with_reducible apply Keeps.ite
    | split

theorem debugResume_keeps {z : State} {s : State} {k : Nat} (hk : Keeps z s) :
    Keeps z (debugResume s k) := by
  unfold debugResume
  repeat' first
    | with_reducible exact hk
    | with_reducible apply setHalted_keeps
    | with_reducible apply Keeps.ite
    | split

end Sys2Proof.Machine.State
end

