-- ==== Sys2Proof/Laws/KeepsService.lean ====
section
/-! SUPPORT. Every operation of Service.lean keeps the queue and the canonical form (Keeps). -/

namespace Sys2Proof.Machine.State

theorem mmacRaise_keeps {z : State} {s : State} {m : Nat} {flags : List Nat} (hk : Keeps z s) :
    Keeps z (mmacRaise s m flags) := by
  unfold mmacRaise
  repeat' first
    | with_reducible exact hk
    | with_reducible apply raiseAll_keeps

theorem mmacAbort_keeps {z : State} {s : State} {m : Nat} (hk : Keeps z s) :
    Keeps z (mmacAbort s m) := by
  unfold mmacAbort
  repeat' first
    | with_reducible exact hk
    | with_reducible apply setServ_keeps
    | (with_reducible refine Keeps.lit ?_; first | with_reducible exact hk | with_reducible apply setServ_keeps)

theorem mmacStep_keeps {z : State} {s : State} {m : Nat} (hk : Keeps z s) :
    Keeps z (mmacStep s m) := by
  unfold mmacStep
  repeat' first
    | with_reducible exact hk
    | extract_lets
    | with_reducible apply satF_keeps
    | with_reducible apply mmacRaise_keeps
    | with_reducible apply addF_keeps
    | with_reducible apply request_keeps
    | with_reducible apply setServ_keeps
    | with_reducible apply put_keeps
    | (with_reducible refine Keeps.lit ?_; first | with_reducible exact hk | with_reducible apply satF_keeps | with_reducible apply mmacRaise_keeps | with_reducible apply addF_keeps | with_reducible apply request_keeps | with_reducible apply setServ_keeps | with_reducible apply put_keeps)
    | with_reducible apply Keeps.ite
    | split
    | dsimp +zetaDelta only

theorem mmacDelayReq_keeps {z : State} {s : State} {m : Nat} (hk : Keeps z s) :
    Keeps z (mmacDelayReq s m) := by
  unfold mmacDelayReq
  repeat' first
    | with_reducible exact hk
    | with_reducible apply setServ_keeps
    | with_reducible apply put_keeps
    | with_reducible apply addF_keeps
    | with_reducible apply stampOut_keeps
    | (with_reducible refine Keeps.lit ?_; first | with_reducible exact hk | with_reducible apply setServ_keeps | with_reducible apply put_keeps | with_reducible apply addF_keeps | with_reducible apply stampOut_keeps)
    | with_reducible apply Keeps.ite
    | split

theorem mmacNext_keeps {z : State} {s : State} {m : Nat} (hk : Keeps z s) :
    Keeps z (mmacNext s m) := by
  unfold mmacNext
  repeat' first
    | with_reducible exact hk
    | extract_lets
    | intro _
    | with_reducible apply mmacDelayReq_keeps
    | with_reducible apply mmacStep_keeps
    | with_reducible apply Keeps.forN
    | with_reducible exact Keeps.refl _
    | dsimp +zetaDelta only

theorem mmacCfgWrite_keeps {z s : State} {r : Req} {x : Found} {new d m : Nat}  (hk : Keeps z s) : Keeps z (mmacCfgWrite r x new d m s) := by
  unfold mmacCfgWrite
  repeat' first
    | with_reducible exact hk
    | extract_lets
    | with_reducible apply setReg_keeps
    | with_reducible apply setF_keeps
    | with_reducible apply mmacAbort_keeps
    | with_reducible apply mmacRaise_keeps
    | with_reducible apply mmacNext_keeps
    | with_reducible apply Keeps.ite
    | split
    | dsimp +zetaDelta only

theorem mmacLinkChange_keeps {z : State} {s : State} {m : Nat} {up anDone : Bool} {rate : Nat} (hk : Keeps z s) :
    Keeps z (mmacLinkChange s m up anDone rate) := by
  unfold mmacLinkChange
  repeat' first
    | with_reducible exact hk
    | extract_lets
    | with_reducible apply setF_keeps
    | with_reducible apply mmacAbort_keeps
    | with_reducible apply mmacRaise_keeps
    | with_reducible apply mmacNext_keeps
    | with_reducible apply Keeps.ite
    | split
    | dsimp +zetaDelta only

theorem mmacRingWrite_keeps {z s : State} {r : Req} {x : Found} {new d m : Nat}  (hk : Keeps z s) : Keeps z (mmacRingWrite r x new d m s) := by
  unfold mmacRingWrite
  repeat' first
    | with_reducible exact hk
    | extract_lets
    | with_reducible apply setReg_keeps
    | with_reducible apply mmacRaise_keeps
    | with_reducible apply mmacAbort_keeps
    | with_reducible apply Keeps.ite
    | split
    | dsimp +zetaDelta only

theorem mmacTxProdWrite_keeps {z s : State} {r : Req} {x : Found} {new d m : Nat}  (hk : Keeps z s) : Keeps z (mmacTxProdWrite r x new d m s) := by
  unfold mmacTxProdWrite
  repeat' first
    | with_reducible exact hk
    | with_reducible apply setReg_keeps
    | with_reducible apply mmacNext_keeps

theorem mmacTxSlotSent_keeps {z : State} {s : State} {m : Nat} (hk : Keeps z s) :
    Keeps z (mmacTxSlotSent s m) := by
  unfold mmacTxSlotSent
  repeat' first
    | with_reducible exact hk
    | extract_lets
    | with_reducible apply putDdr_keeps
    | with_reducible apply request_keeps
    | with_reducible apply setServ_keeps
    | with_reducible apply put_keeps
    | with_reducible apply addF_keeps
    | with_reducible apply mmacRaise_keeps
    | with_reducible apply mmacNext_keeps
    | (with_reducible refine Keeps.lit ?_; first | with_reducible exact hk | with_reducible apply putDdr_keeps | with_reducible apply request_keeps | with_reducible apply setServ_keeps | with_reducible apply put_keeps | with_reducible apply addF_keeps | with_reducible apply mmacRaise_keeps | with_reducible apply mmacNext_keeps)
    | with_reducible apply Keeps.ite
    | split
    | dsimp +zetaDelta only

theorem mmacPlace_keeps {z : State} {s : State} {m q : Nat} {frame : List Byte} (hk : Keeps z s) :
    Keeps z (mmacPlace s m q frame) := by
  unfold mmacPlace
  repeat' first
    | with_reducible exact hk
    | extract_lets
    | with_reducible apply satF_keeps
    | with_reducible apply mmacRaise_keeps
    | with_reducible apply noteMerged_keeps
    | with_reducible apply put_keeps
    | with_reducible apply putDdr_keeps
    | with_reducible apply request_keeps
    | with_reducible apply addF_keeps
    | with_reducible apply Keeps.ite
    | split
    | dsimp +zetaDelta only

theorem mmacDrain_keeps {z : State} {s : State} (hk : Keeps z s) :
    Keeps z (mmacDrain s) := by
  unfold mmacDrain
  repeat' first
    | with_reducible exact hk
    | intro _
    | with_reducible apply setServ_keeps
    | with_reducible apply mmacPlace_keeps
    | with_reducible apply Keeps.forN
    | (with_reducible refine Keeps.lit ?_; first | with_reducible exact hk | with_reducible apply setServ_keeps | with_reducible apply mmacPlace_keeps | with_reducible apply Keeps.forN)
    | (with_reducible refine Keeps.lit ?_; with_reducible exact Keeps.refl _)
    | with_reducible apply Keeps.ite
    | split
    | with_reducible exact Keeps.refl _

theorem mmacRxFrame_keeps {z : State} {s : State} {m : Nat} {frame : List Byte} {fcsOk : Bool} (hk : Keeps z s) :
    Keeps z (mmacRxFrame s m frame fcsOk) := by
  unfold mmacRxFrame
  repeat' first
    | with_reducible exact hk
    | with_reducible apply satF_keeps
    | with_reducible apply ptpToKeeper_keeps
    | with_reducible apply mmacDelayReq_keeps
    | with_reducible apply setServ_keeps
    | with_reducible apply mmacDrain_keeps
    | (with_reducible refine Keeps.lit ?_; first | with_reducible exact hk | with_reducible apply satF_keeps | with_reducible apply ptpToKeeper_keeps | with_reducible apply mmacDelayReq_keeps | with_reducible apply setServ_keeps | with_reducible apply mmacDrain_keeps)
    | with_reducible apply Keeps.ite
    | split

theorem mmacTick_keeps {z : State} {s : State} (hk : Keeps z s) :
    Keeps z (mmacTick s) := by
  unfold mmacTick
  repeat' first
    | with_reducible exact hk
    | intro _
    | with_reducible apply mmacNext_keeps
    | with_reducible apply mmacDrain_keeps
    | with_reducible apply Keeps.forN
    | with_reducible apply Keeps.ite
    | split
    | with_reducible exact Keeps.refl _

theorem mdioCmdWrite_keeps {z s : State} {r : Req} {x : Found} {new d m : Nat}  (hk : Keeps z s) : Keeps z (mdioCmdWrite r x new d m s) := by
  unfold mdioCmdWrite
  repeat' first
    | with_reducible exact hk
    | extract_lets
    | with_reducible apply setF_keeps
    | with_reducible apply setServ_keeps
    | (with_reducible refine Keeps.lit ?_; first | with_reducible exact hk | with_reducible apply setF_keeps | with_reducible apply setServ_keeps)
    | with_reducible apply Keeps.ite
    | split
    | dsimp +zetaDelta only

theorem mdioDone_keeps {z : State} {s : State} {answer : Option (BitVec 16)} (hk : Keeps z s) :
    Keeps z (mdioDone s answer) := by
  unfold mdioDone
  repeat' first
    | with_reducible exact hk
    | extract_lets
    | with_reducible apply setServ_keeps
    | with_reducible apply setF_keeps
    | (with_reducible refine Keeps.lit ?_; first | with_reducible exact hk | with_reducible apply setServ_keeps | with_reducible apply setF_keeps)
    | with_reducible apply Keeps.ite
    | split
    | dsimp +zetaDelta only

theorem uartLevels_keeps {z : State} {s : State} (hk : Keeps z s) :
    Keeps z (uartLevels s) := by
  unfold uartLevels
  repeat' first
    | with_reducible exact hk
    | with_reducible apply setF_keeps

theorem uartTxWrite_keeps {z s : State} {r : Req} {x : Found} {new d m : Nat}  (hk : Keeps z s) : Keeps z (uartTxWrite r x new d m s) := by
  unfold uartTxWrite
  repeat' first
    | with_reducible exact hk
    | with_reducible apply raiseAll_keeps
    | with_reducible apply setServ_keeps
    | with_reducible apply uartLevels_keeps
    | (with_reducible refine Keeps.lit ?_; first | with_reducible exact hk | with_reducible apply raiseAll_keeps | with_reducible apply setServ_keeps | with_reducible apply uartLevels_keeps)
    | with_reducible apply Keeps.ite
    | split

theorem uartRxRead_keeps {z s : State} {r : Req} {x : Found}  (hk : Keeps z s) : Keeps z (uartRxRead r x s).2 := by
  unfold uartRxRead
  repeat' first
    | with_reducible exact hk
    | with_reducible apply setServ_keeps
    | with_reducible apply uartLevels_keeps
    | (with_reducible refine Keeps.lit ?_; first | with_reducible exact hk | with_reducible apply setServ_keeps | with_reducible apply uartLevels_keeps)
    | with_reducible apply Keeps.ite
    | split
    | dsimp only

theorem uartRxByte_keeps {z : State} {s : State} {b : Byte} {stopBit : Bool} (hk : Keeps z s) :
    Keeps z (uartRxByte s b stopBit) := by
  unfold uartRxByte
  repeat' first
    | with_reducible exact hk
    | extract_lets
    | with_reducible apply raiseAll_keeps
    | with_reducible apply setServ_keeps
    | with_reducible apply uartLevels_keeps
    | (with_reducible refine Keeps.lit ?_; first | with_reducible exact hk | with_reducible apply raiseAll_keeps | with_reducible apply setServ_keeps | with_reducible apply uartLevels_keeps)
    | with_reducible apply Keeps.ite
    | split
    | dsimp +zetaDelta only

theorem uartByteSent_keeps {z : State} {s : State} (hk : Keeps z s) :
    Keeps z (uartByteSent s) := by
  unfold uartByteSent
  repeat' first
    | with_reducible exact hk
    | with_reducible apply setServ_keeps
    | with_reducible apply uartLevels_keeps
    | (with_reducible refine Keeps.lit ?_; first | with_reducible exact hk | with_reducible apply setServ_keeps | with_reducible apply uartLevels_keeps)

theorem gpioPend_keeps {z : State} {s : State} {v : BitVec 32} (hk : Keeps z s) :
    Keeps z (gpioPend s v) := by
  unfold gpioPend
  repeat' first
    | with_reducible exact hk
    | with_reducible apply setReg_keeps

theorem gpioSample_keeps {z : State} {s : State} (hk : Keeps z s) :
    Keeps z (gpioSample s) := by
  unfold gpioSample
  repeat' first
    | with_reducible exact hk
    | extract_lets
    | with_reducible apply setServ_keeps
    | with_reducible apply setReg_keeps
    | with_reducible apply gpioPend_keeps
    | (with_reducible refine Keeps.lit ?_; first | with_reducible exact hk | with_reducible apply setServ_keeps | with_reducible apply setReg_keeps | with_reducible apply gpioPend_keeps)
    | dsimp +zetaDelta only

theorem gpioChange_keeps {z : State} {s : State} {levels : BitVec 32} (hk : Keeps z s) :
    Keeps z (gpioChange s levels) := by
  unfold gpioChange
  repeat' first
    | with_reducible exact hk
    | with_reducible apply setServ_keeps
    | with_reducible apply gpioSample_keeps
    | (with_reducible refine Keeps.lit ?_; first | with_reducible exact hk | with_reducible apply setServ_keeps | with_reducible apply gpioSample_keeps)

theorem gpioTick_keeps {z : State} {s : State} (hk : Keeps z s) :
    Keeps z (gpioTick s) := by
  unfold gpioTick
  repeat' first
    | with_reducible exact hk
    | with_reducible apply gpioSample_keeps
    | with_reducible apply Keeps.ite
    | split

theorem gpioAckWrite_keeps {z s : State} {r : Req} {x : Found} {new d m : Nat}  (hk : Keeps z s) : Keeps z (gpioAckWrite r x new d m s) := by
  unfold gpioAckWrite
  repeat' first
    | with_reducible exact hk
    | with_reducible apply setReg_keeps

theorem i2cXferWrite_keeps {z s : State} {r : Req} {x : Found} {new d m : Nat}  (hk : Keeps z s) : Keeps z (i2cXferWrite r x new d m s) := by
  unfold i2cXferWrite
  repeat' first
    | with_reducible exact hk
    | extract_lets
    | with_reducible apply wr_keeps
    | with_reducible apply raiseAll_keeps
    | with_reducible apply setF_keeps
    | with_reducible apply setServ_keeps
    | with_reducible apply put_keeps
    | (with_reducible refine Keeps.lit ?_; first | with_reducible exact hk | with_reducible apply wr_keeps | with_reducible apply raiseAll_keeps | with_reducible apply setF_keeps | with_reducible apply setServ_keeps | with_reducible apply put_keeps)
    | with_reducible apply Keeps.ite
    | split
    | dsimp +zetaDelta only

theorem fillWords_keeps {z : State} {s : State} {a : Nat} {bs : List Byte} (hk : Keeps z s) :
    Keeps z (fillWords s a bs) := by
  unfold fillWords
  repeat' first
    | with_reducible exact hk
    | intro _
    | with_reducible apply setReg_keeps
    | with_reducible apply Keeps.forN
    | with_reducible exact Keeps.refl _

theorem i2cEnd_keeps {z : State} {s : State} {b result acked : Nat} {bs : List Byte} (hk : Keeps z s) :
    Keeps z (i2cEnd s b result acked bs) := by
  unfold i2cEnd
  repeat' first
    | with_reducible exact hk
    | extract_lets
    | with_reducible apply setServ_keeps
    | with_reducible apply setF_keeps
    | with_reducible apply fillWords_keeps
    | with_reducible apply raiseAll_keeps
    | (with_reducible refine Keeps.lit ?_; first | with_reducible exact hk | with_reducible apply setServ_keeps | with_reducible apply setF_keeps | with_reducible apply fillWords_keeps | with_reducible apply raiseAll_keeps)
    | with_reducible apply Keeps.ite
    | split
    | dsimp +zetaDelta only

theorem i2cDone_keeps {z : State} {s : State} {b : Nat} {res : I2cResult} {acked : Nat} {bs : List Byte} (hk : Keeps z s) :
    Keeps z (i2cDone s b res acked bs) := by
  unfold i2cDone
  repeat' first
    | with_reducible exact hk
    | with_reducible apply i2cEnd_keeps
    | with_reducible apply Keeps.ite
    | split

theorem i2cTimeout_keeps {z : State} {s : State} {b : Nat} (hk : Keeps z s) :
    Keeps z (i2cTimeout s b) := by
  unfold i2cTimeout
  repeat' first
    | with_reducible exact hk
    | extract_lets
    | with_reducible refine Keeps.snd (takeFree_keeps ?_) (by assumption)
    | with_reducible apply takeFree_keeps
    | with_reducible apply wr_keeps
    | with_reducible apply i2cEnd_keeps
    | with_reducible apply Keeps.ite
    | split
    | with_reducible refine Keeps.snd ?_ (by assumption)
    | dsimp only
    | dsimp +zetaDelta only

theorem spiCmdWrite_keeps {z s : State} {r : Req} {x : Found} {new d m : Nat}  (hk : Keeps z s) : Keeps z (spiCmdWrite r x new d m s) := by
  unfold spiCmdWrite
  repeat' first
    | with_reducible exact hk
    | with_reducible apply raiseAll_keeps
    | with_reducible apply setF_keeps
    | with_reducible apply setServ_keeps
    | (with_reducible refine Keeps.lit ?_; first | with_reducible exact hk | with_reducible apply raiseAll_keeps | with_reducible apply setF_keeps | with_reducible apply setServ_keeps)
    | with_reducible apply Keeps.ite
    | split

theorem spiDone_keeps {z : State} {s : State} {bs : List Byte} (hk : Keeps z s) :
    Keeps z (spiDone s bs) := by
  unfold spiDone
  repeat' first
    | with_reducible exact hk
    | extract_lets
    | with_reducible apply setServ_keeps
    | with_reducible apply setF_keeps
    | with_reducible apply fillWords_keeps
    | with_reducible apply raiseAll_keeps
    | (with_reducible refine Keeps.lit ?_; first | with_reducible exact hk | with_reducible apply setServ_keeps | with_reducible apply setF_keeps | with_reducible apply fillWords_keeps | with_reducible apply raiseAll_keeps)
    | with_reducible apply Keeps.ite
    | split
    | dsimp +zetaDelta only

end Sys2Proof.Machine.State
end

