-- ==== Sys2Proof/Laws/KeepsBoot.lean ====
section
/-! SUPPORT. Every operation of Boot.lean keeps the queue and the canonical form (Keeps). -/

namespace Sys2Proof.Machine.State

theorem setAon_keeps {z : State} {s : State} {x : Aon} (hk : Keeps z s) :
    Keeps z (setAon s x) := by
  unfold setAon
  repeat' first
    | with_reducible exact hk
    | (with_reducible refine Keeps.lit ?_; first | with_reducible exact hk)

theorem alerts_keeps {z : State} {s : State} (hk : Keeps z s) :
    Keeps z (alerts s) := by
  unfold alerts
  repeat' first
    | with_reducible exact hk
    | extract_lets
    | with_reducible apply setSf_keeps
    | with_reducible apply Keeps.ite
    | split
    | dsimp +zetaDelta only

theorem storeState_keeps {z : State} {s : State} (hk : Keeps z s) :
    Keeps z (storeState s) := by
  unfold storeState
  repeat' first
    | with_reducible exact hk
    | with_reducible apply setSf_keeps
    | with_reducible apply Keeps.ite
    | split

theorem setKey_keeps {z : State} {s : State} {k : Nat} (hk : Keeps z s) :
    Keeps z (setKey s k) := by
  unfold setKey
  repeat' first
    | with_reducible exact hk
    | with_reducible apply setNvm_keeps
    | with_reducible apply storeState_keeps
    | (with_reducible refine Keeps.lit ?_; first | with_reducible exact hk | with_reducible apply setNvm_keeps | with_reducible apply storeState_keeps)

theorem applyKey_keeps {z : State} {s : State} {v : Nat} (hk : Keeps z s) :
    Keeps z (applyKey s v) := by
  unfold applyKey
  repeat' first
    | with_reducible exact hk
    | with_reducible apply setKey_keeps
    | with_reducible apply Keeps.ite
    | split

theorem applyStore_keeps {z : State} {s : State} {k : Nat} (hk : Keeps z s) :
    Keeps z (applyStore s k) := by
  unfold applyStore
  repeat' first
    | with_reducible exact hk
    | extract_lets
    | with_reducible apply setSf_keeps
    | with_reducible apply setKey_keeps
    | with_reducible apply slowRaise_keeps
    | with_reducible apply setNvm_keeps
    | with_reducible apply storeState_keeps
    | (with_reducible refine Keeps.lit ?_; first | with_reducible exact hk | with_reducible apply setSf_keeps | with_reducible apply setKey_keeps | with_reducible apply slowRaise_keeps | with_reducible apply setNvm_keeps | with_reducible apply storeState_keeps)
    | with_reducible apply Keeps.ite
    | split
    | dsimp +zetaDelta only

theorem storeDone_keeps {z : State} {s : State} {verified : Bool} (hk : Keeps z s) :
    Keeps z (storeDone s verified) := by
  unfold storeDone
  repeat' first
    | with_reducible exact hk
    | extract_lets
    | with_reducible apply setNvm_keeps
    | with_reducible apply setSf_keeps
    | with_reducible apply storeState_keeps
    | with_reducible apply slowRaise_keeps
    | (with_reducible refine Keeps.lit ?_; first | with_reducible exact hk | with_reducible apply setNvm_keeps | with_reducible apply setSf_keeps | with_reducible apply storeState_keeps | with_reducible apply slowRaise_keeps)
    | with_reducible apply Keeps.ite
    | split
    | dsimp +zetaDelta only

theorem nvmReadSelWrite_keeps {z s : State} {r : Req} {x : Found} {new d m : Nat}  (hk : Keeps z s) : Keeps z (nvmReadSelWrite r x new d m s) := by
  unfold nvmReadSelWrite
  repeat' first
    | with_reducible exact hk
    | with_reducible apply setReg_keeps
    | with_reducible apply setNvm_keeps
    | (with_reducible refine Keeps.lit ?_; first | with_reducible exact hk | with_reducible apply setReg_keeps | with_reducible apply setNvm_keeps)

theorem sameFuse_keeps {z s t : State} (hk : Keeps z t) : Keeps z (sameFuse s t) := setF_keeps hk

theorem powerOn_keeps {z : State} {s : State} {h : Hold} (hk : Keeps z s) :
    Keeps z (powerOn s h) := by
  unfold powerOn
  refine sameFuse_keeps (hk.trans ⟨rfl, fun c => ⟨⟨List.Pairwise.nil, ?_⟩, Tab.rising_sub List.filter_sublist c.2.1, List.Pairwise.nil⟩⟩)
  intro p hp
  cases hp

theorem pinsLow_keeps {z : State} {s : State} {pwrGood resetN : Bool} (hk : Keeps z s) :
    Keeps z (pinsLow s pwrGood resetN) := by
  unfold pinsLow
  repeat' first
    | with_reducible exact hk
    | extract_lets
    | with_reducible apply setAon_keeps
    | with_reducible apply powerOn_keeps
    | (with_reducible refine Keeps.lit ?_; first | with_reducible exact hk | with_reducible apply setAon_keeps | with_reducible apply powerOn_keeps)
    | with_reducible apply Keeps.ite
    | split
    | dsimp +zetaDelta only

theorem trip_keeps {z : State} {s : State} (hk : Keeps z s) :
    Keeps z (trip s) := by
  unfold trip
  repeat' first
    | with_reducible exact hk
    | extract_lets
    | with_reducible apply powerOn_keeps
    | with_reducible apply setBus_keeps
    | with_reducible apply setSf_keeps
    | with_reducible apply alerts_keeps
    | (with_reducible refine Keeps.lit ?_; first | with_reducible exact hk | with_reducible apply powerOn_keeps | with_reducible apply setBus_keeps | with_reducible apply setSf_keeps | with_reducible apply alerts_keeps)
    | dsimp +zetaDelta only

theorem release_keeps {z : State} {s : State} {role index : Nat} (hk : Keeps z s) :
    Keeps z (release s role index) := by
  unfold release
  repeat' first
    | with_reducible exact hk
    | extract_lets
    | with_reducible apply setAon_keeps
    | with_reducible apply setF_keeps
    | with_reducible apply setSf_keeps
    | with_reducible apply setNvm_keeps
    | with_reducible apply alerts_keeps
    | (with_reducible refine Keeps.lit ?_; first | with_reducible exact hk | with_reducible apply setAon_keeps | with_reducible apply setF_keeps | with_reducible apply setSf_keeps | with_reducible apply setNvm_keeps | with_reducible apply alerts_keeps)
    | with_reducible apply Keeps.ite
    | split
    | dsimp +zetaDelta only

theorem resetRelease_keeps {z : State} {s : State} {role index : Nat} (hk : Keeps z s) :
    Keeps z (resetRelease s role index) := by
  unfold resetRelease
  repeat' first
    | with_reducible exact hk
    | with_reducible apply release_keeps
    | with_reducible apply setSf_keeps
    | with_reducible apply alerts_keeps
    | with_reducible apply Keeps.ite
    | split

theorem tripRelease_keeps {z : State} {s : State} {role index : Nat} (hk : Keeps z s) :
    Keeps z (tripRelease s role index) := by
  unfold tripRelease
  repeat' first
    | with_reducible exact hk
    | with_reducible apply trip_keeps
    | with_reducible apply release_keeps
    | with_reducible apply Keeps.ite
    | split

theorem warmReset_keeps {z : State} {s : State} (hk : Keeps z s) :
    Keeps z (warmReset s) := by
  unfold warmReset
  extract_lets slow mirrors src nv ao t
  have h : Keeps z t := by
    refine sameFuse_keeps (hk.trans ⟨rfl, fun c => ⟨⟨List.Pairwise.nil, ?_⟩, ?_, List.Pairwise.nil⟩⟩)
    · intro p hp
      cases hp
    · have h0 : Tab.Rising (keepRegs s.regs fun a => fixedReg a || tickReg a) := Tab.rising_sub List.filter_sublist c.2.1
      show Tab.Rising (slow.foldr _ _)
      clear_value slow
      induction slow with
      | nil => exact h0
      | cons a r ih => exact Tab.rising_put _ _ ih
  clear_value t
  exact alerts_keeps (setSf_keeps (setSf_keeps (setF_keeps (setF_keeps h))))

theorem keeperReset_keeps {z : State} {s : State} {cause : Nat} (hk : Keeps z s) :
    Keeps z (keeperReset s cause) := by
  unfold keeperReset
  extract_lets step ao s1 sram src s2 s3 s4
  have h2 : Keeps z s2 := by
    have h1 : Keeps z (s1.freeSems 0) := freeSems_keeps (setAon_keeps hk)
    refine h1.trans ⟨rfl, fun c => ⟨?_, c.2.1, c.2.2⟩⟩
    have hm : (s1.freeSems 0).mem = s.mem := rfl
    exact Memory.ok_sub List.filter_sublist (hm ▸ c.1)
  clear_value s2
  exact alerts_keeps (slowRaise_keeps (setSf_keeps (setSf_keeps (setSf_keeps h2))))

theorem watchdogExpiry_keeps {z : State} {s : State} (hk : Keeps z s) :
    Keeps z (watchdogExpiry s) := by
  unfold watchdogExpiry
  repeat' first
    | with_reducible exact hk
    | with_reducible apply setSf_keeps
    | with_reducible apply keeperReset_keeps
    | with_reducible apply Keeps.ite
    | split

theorem snapshot_keeps {z : State} {s : State} (hk : Keeps z s) :
    Keeps z (snapshot s) := by
  unfold snapshot
  repeat' first
    | with_reducible exact hk
    | extract_lets
    | with_reducible apply setSf_keeps
    | dsimp +zetaDelta only

theorem mergeSlow_keeps {z : State} {s : State} {w : Forwarded} {x : Fld} (hk : Keeps z s) :
    Keeps z (mergeSlow s w x) := by
  unfold mergeSlow
  repeat' first
    | with_reducible exact hk
    | extract_lets
    | with_reducible apply setSf_keeps
    | dsimp +zetaDelta only

theorem mergeAll_keeps {z : State} {s : State} {w : Forwarded} {xs : List Fld} (hk : Keeps z s) :
    Keeps z (mergeAll s w xs) := by
  unfold mergeAll
  repeat' first
    | with_reducible exact hk
    | intro _
    | with_reducible apply mergeSlow_keeps
    | with_reducible apply Keeps.foldl
    | with_reducible apply Keeps.foldl_fst
    | with_reducible apply Keeps.foldl_snd
    | with_reducible refine Keeps.fst ?_ (by assumption)
    | with_reducible exact Keeps.refl _

theorem clearSlow_keeps {z : State} {s : State} {w : Forwarded} (hk : Keeps z s) :
    Keeps z (clearSlow s w) := by
  unfold clearSlow
  repeat' first
    | with_reducible exact hk
    | extract_lets
    | with_reducible apply setSlow_keeps
    | with_reducible apply Keeps.ite
    | split
    | dsimp +zetaDelta only

theorem applySlow_keeps {z : State} {s : State} {w : Forwarded} (hk : Keeps z s) :
    Keeps z (applySlow s w).1 := by
  unfold applySlow
  repeat' first
    | with_reducible exact hk
    | extract_lets
    | with_reducible apply applyKey_keeps
    | with_reducible apply applyStore_keeps
    | with_reducible apply setKey_keeps
    | with_reducible apply warmReset_keeps
    | with_reducible apply keeperReset_keeps
    | with_reducible apply setAon_keeps
    | with_reducible apply snapshot_keeps
    | with_reducible apply clearSlow_keeps
    | with_reducible apply mergeAll_keeps
    | with_reducible apply slowRaise_keeps
    | with_reducible apply alerts_keeps
    | (with_reducible refine Keeps.lit ?_; first | with_reducible exact hk | with_reducible apply applyKey_keeps | with_reducible apply applyStore_keeps | with_reducible apply setKey_keeps | with_reducible apply warmReset_keeps | with_reducible apply keeperReset_keeps | with_reducible apply setAon_keeps | with_reducible apply snapshot_keeps | with_reducible apply clearSlow_keeps | with_reducible apply mergeAll_keeps | with_reducible apply slowRaise_keeps | with_reducible apply alerts_keeps)
    | with_reducible apply Keeps.ite
    | split
    | dsimp only
    | dsimp +zetaDelta only

theorem applyAll_keeps {z : State} {s : State} {ws : List Forwarded} (hk : Keeps z s) :
    Keeps z (applyAll s ws) := by
  induction ws generalizing s with
  | nil => exact hk
  | cons w r ih =>
    unfold applyAll
    dsimp only
    split
    · exact applySlow_keeps hk
    · exact ih (applySlow_keeps hk)

theorem drainNvm_keeps {z : State} {s : State} (hk : Keeps z s) :
    Keeps z (drainNvm s) := by
  unfold drainNvm
  repeat' first
    | with_reducible exact hk
    | with_reducible apply setBus_keeps
    | with_reducible apply applyAll_keeps
    | (with_reducible refine Keeps.lit ?_; first | with_reducible exact hk | with_reducible apply setBus_keeps | with_reducible apply applyAll_keeps)

theorem drainPower_keeps {z : State} {s : State} (hk : Keeps z s) :
    Keeps z (drainPower s) := by
  unfold drainPower
  repeat' first
    | with_reducible exact hk
    | with_reducible apply setBus_keeps
    | with_reducible apply applyAll_keeps
    | (with_reducible refine Keeps.lit ?_; first | with_reducible exact hk | with_reducible apply setBus_keeps | with_reducible apply applyAll_keeps)

theorem noteFirmwareReads_keeps {z : State} {s : State} {spi : List Byte} (hk : Keeps z s) :
    Keeps z (noteFirmwareReads s spi) := by
  unfold noteFirmwareReads
  repeat' first
    | with_reducible exact hk
    | extract_lets
    | with_reducible apply slowRaise_keeps
    | with_reducible apply noteKeyRead_keeps
    | with_reducible apply Keeps.ite
    | split
    | dsimp +zetaDelta only

theorem bootAt_keeps {z : State} {s : State} {step code : Nat} (hk : Keeps z s) :
    Keeps z (bootAt s step code) := by
  unfold bootAt
  repeat' first
    | with_reducible exact hk
    | with_reducible apply setSf_keeps
    | with_reducible apply alerts_keeps

theorem bootStop_keeps {z : State} {s : State} {step code : Nat} (hk : Keeps z s) :
    Keeps z (bootStop s step code) := by
  unfold bootStop
  repeat' first
    | with_reducible exact hk
    | with_reducible apply setAon_keeps
    | with_reducible apply bootAt_keeps
    | (with_reducible refine Keeps.lit ?_; first | with_reducible exact hk | with_reducible apply setAon_keeps | with_reducible apply bootAt_keeps)

theorem bootStep7_keeps {z : State} {s : State} (hk : Keeps z s) :
    Keeps z (bootStep7 s) := by
  unfold bootStep7
  repeat' first
    | with_reducible exact hk
    | extract_lets
    | intro _
    | with_reducible apply setReg_keeps
    | with_reducible apply setBind_keeps
    | with_reducible apply setF_keeps
    | with_reducible apply setRelease_keeps
    | with_reducible apply setAon_keeps
    | with_reducible apply slowRaise_keeps
    | with_reducible apply bootAt_keeps
    | with_reducible apply Keeps.forN
    | (with_reducible refine Keeps.lit ?_; first | with_reducible exact hk | with_reducible apply setReg_keeps | with_reducible apply setBind_keeps | with_reducible apply setF_keeps | with_reducible apply setRelease_keeps | with_reducible apply setAon_keeps | with_reducible apply slowRaise_keeps | with_reducible apply bootAt_keeps | with_reducible apply Keeps.forN)
    | (with_reducible refine Keeps.lit ?_; with_reducible exact Keeps.refl _)
    | with_reducible apply Keeps.ite
    | split
    | with_reducible exact Keeps.refl _
    | dsimp +zetaDelta only

theorem bootToStep7_keeps {z : State} {s : State} (hk : Keeps z s) :
    Keeps z (bootToStep7 s) := by
  unfold bootToStep7
  repeat' first
    | with_reducible exact hk
    | with_reducible apply setAon_keeps
    | with_reducible apply bootAt_keeps
    | with_reducible apply bootStep7_keeps
    | (with_reducible refine Keeps.lit ?_; first | with_reducible exact hk | with_reducible apply setAon_keeps | with_reducible apply bootAt_keeps | with_reducible apply bootStep7_keeps)
    | with_reducible apply Keeps.ite
    | split

theorem bootResume_keeps {z : State} {s : State} (hk : Keeps z s) :
    Keeps z (bootResume s) := by
  unfold bootResume
  repeat' first
    | with_reducible exact hk
    | with_reducible apply alerts_keeps
    | with_reducible apply bootStep7_keeps
    | with_reducible apply Keeps.ite
    | split

theorem ingotCmdThen_keeps {z : State} {s : State} {op i : Nat} (hk : Keeps z s) :
    Keeps z (ingotCmdThen s op i) := by
  unfold ingotCmdThen
  repeat' first
    | with_reducible exact hk
    | with_reducible apply ingotCmd_keeps
    | with_reducible apply bootResume_keeps

theorem ingotCmdWrite_keeps {z s : State} {r : Req} {x : Found} {new d m : Nat}  (hk : Keeps z s) : Keeps z (ingotCmdWrite r x new d m s) := by
  unfold ingotCmdWrite
  repeat' first
    | with_reducible exact hk
    | with_reducible apply ingotCmdThen_keeps

theorem bootValidate_keeps {z : State} {s : State} {i : Nat} (hk : Keeps z s) :
    Keeps z (bootValidate s i).2 := by
  unfold bootValidate
  repeat' first
    | with_reducible exact hk
    | extract_lets
    | with_reducible apply slotTo_keeps
    | with_reducible apply validationDone_keeps
    | dsimp only
    | dsimp +zetaDelta only

theorem bootNoIngot_keeps {z : State} {s : State} (hk : Keeps z s) :
    Keeps z (bootNoIngot s) := by
  unfold bootNoIngot
  repeat' first
    | with_reducible exact hk
    | extract_lets
    | with_reducible apply setChain_keeps
    | with_reducible apply setReg_keeps
    | with_reducible apply setF_keeps
    | with_reducible apply leaveSources_keeps
    | with_reducible apply bootAt_keeps
    | (with_reducible refine Keeps.lit ?_; first | with_reducible exact hk | with_reducible apply setChain_keeps | with_reducible apply setReg_keeps | with_reducible apply setF_keeps | with_reducible apply leaveSources_keeps | with_reducible apply bootAt_keeps)
    | with_reducible apply Keeps.ite
    | split
    | dsimp +zetaDelta only

theorem bootIngot_keeps {z : State} {s : State} (hk : Keeps z s) :
    Keeps z (bootIngot s) := by
  unfold bootIngot
  repeat' first
    | with_reducible exact hk
    | extract_lets
    | intro _
    | with_reducible apply copySector_keeps
    | with_reducible apply slotTo_keeps
    | with_reducible refine Keeps.snd (bootValidate_keeps ?_) (by assumption)
    | with_reducible apply bootValidate_keeps
    | with_reducible apply activate_keeps
    | with_reducible apply bootAt_keeps
    | with_reducible apply ingotRaise_keeps
    | with_reducible apply bootNoIngot_keeps
    | with_reducible apply Keeps.forN
    | with_reducible apply Keeps.ite
    | split
    | with_reducible refine Keeps.snd ?_ (by assumption)
    | dsimp only
    | with_reducible exact Keeps.refl _
    | dsimp +zetaDelta only

theorem bootParams_keeps {z : State} {s : State} {spi : List Byte} (hk : Keeps z s) :
    Keeps z (bootParams s spi) := by
  unfold bootParams
  repeat' first
    | with_reducible exact hk
    | extract_lets
    | with_reducible apply slowRaise_keeps
    | with_reducible apply setAon_keeps
    | with_reducible apply setSf_keeps
    | with_reducible apply bootIngot_keeps
    | with_reducible apply bootStop_keeps
    | (with_reducible refine Keeps.lit ?_; first | with_reducible exact hk | with_reducible apply slowRaise_keeps | with_reducible apply setAon_keeps | with_reducible apply setSf_keeps | with_reducible apply bootIngot_keeps | with_reducible apply bootStop_keeps)
    | with_reducible apply Keeps.ite
    | split
    | dsimp +zetaDelta only

theorem firmwareStart_keeps {z : State} {s : State} {spiFirmware spiParams : List Byte} (hk : Keeps z s) :
    Keeps z (firmwareStart s spiFirmware spiParams) := by
  unfold firmwareStart
  repeat' first
    | with_reducible exact hk
    | extract_lets
    | with_reducible apply noteFirmwareReads_keeps
    | with_reducible apply setAon_keeps
    | with_reducible apply bootAt_keeps
    | with_reducible apply put_keeps
    | with_reducible apply setSf_keeps
    | with_reducible apply bootStop_keeps
    | with_reducible apply reselect_keeps
    | with_reducible apply bootParams_keeps
    | (with_reducible refine Keeps.lit ?_; first | with_reducible exact hk | with_reducible apply noteFirmwareReads_keeps | with_reducible apply setAon_keeps | with_reducible apply bootAt_keeps | with_reducible apply put_keeps | with_reducible apply setSf_keeps | with_reducible apply bootStop_keeps | with_reducible apply reselect_keeps | with_reducible apply bootParams_keeps)
    | with_reducible apply Keeps.ite
    | split
    | dsimp +zetaDelta only

theorem ddrTrainingDone_keeps {z : State} {s : State} {failed : List Nat} (hk : Keeps z s) :
    Keeps z (ddrTrainingDone s failed) := by
  unfold ddrTrainingDone
  repeat' first
    | with_reducible exact hk
    | extract_lets
    | intro _
    | with_reducible apply trainChannel_keeps
    | with_reducible apply bootStop_keeps
    | with_reducible apply bootAt_keeps
    | with_reducible apply bootToStep7_keeps
    | with_reducible apply Keeps.forN
    | with_reducible apply Keeps.ite
    | split
    | with_reducible exact Keeps.refl _
    | dsimp +zetaDelta only

theorem appImageLoaded_keeps {z : State} {s : State} {image : List Byte} (hk : Keeps z s) :
    Keeps z (appImageLoaded s image) := by
  unfold appImageLoaded
  repeat' first
    | with_reducible exact hk
    | extract_lets
    | with_reducible apply noteKeyRead_keeps
    | with_reducible apply bootStop_keeps
    | with_reducible apply put_keeps
    | with_reducible apply setSf_keeps
    | with_reducible apply setAon_keeps
    | with_reducible apply bootToStep7_keeps
    | (with_reducible refine Keeps.lit ?_; first | with_reducible exact hk | with_reducible apply noteKeyRead_keeps | with_reducible apply bootStop_keeps | with_reducible apply put_keeps | with_reducible apply setSf_keeps | with_reducible apply setAon_keeps | with_reducible apply bootToStep7_keeps)
    | with_reducible apply Keeps.ite
    | split
    | dsimp +zetaDelta only

theorem supplyOut_keeps {z : State} {s : State} {r : Nat} (hk : Keeps z s) :
    Keeps z (supplyOut s r) := by
  unfold supplyOut
  repeat' first
    | with_reducible exact hk
    | with_reducible apply setSf_keeps
    | with_reducible apply slowRaise_keeps
    | with_reducible apply alerts_keeps

theorem supplyBack_keeps {z : State} {s : State} {r : Nat} (hk : Keeps z s) :
    Keeps z (supplyBack s r) := by
  unfold supplyBack
  repeat' first
    | with_reducible exact hk
    | with_reducible apply setSf_keeps
    | with_reducible apply alerts_keeps

theorem sense_keeps {z : State} {s : State} {tj : List (BitVec 16)} (hk : Keeps z s) :
    Keeps z (sense s tj) := by
  unfold sense
  repeat' first
    | with_reducible exact hk
    | extract_lets
    | intro _
    | with_reducible apply setSf_keeps
    | with_reducible apply Keeps.forN
    | with_reducible apply Keeps.foldl
    | with_reducible apply Keeps.foldl_fst
    | with_reducible apply Keeps.foldl_snd
    | with_reducible refine Keeps.fst ?_ (by assumption)
    | with_reducible apply Keeps.ite
    | split
    | with_reducible exact Keeps.refl _
    | dsimp +zetaDelta only

theorem holdEnter_keeps {z : State} {s : State} (hk : Keeps z s) :
    Keeps z (holdEnter s) := by
  unfold holdEnter
  repeat' first
    | with_reducible exact hk
    | extract_lets
    | intro _
    | with_reducible apply setSf_keeps
    | with_reducible apply slowRaise_keeps
    | with_reducible apply sigAbandon_keeps
    | with_reducible apply setRaster_keeps
    | with_reducible apply Keeps.forN
    | (with_reducible refine Keeps.lit ?_; first | with_reducible exact hk | with_reducible apply setSf_keeps | with_reducible apply slowRaise_keeps | with_reducible apply sigAbandon_keeps | with_reducible apply setRaster_keeps | with_reducible apply Keeps.forN)
    | (with_reducible refine Keeps.lit ?_; with_reducible exact Keeps.refl _)
    | with_reducible apply Keeps.ite
    | split
    | with_reducible exact Keeps.refl _
    | dsimp +zetaDelta only

theorem countCool_keeps {z : State} {s : State} {ok : Bool} (hk : Keeps z s) :
    Keeps z (countCool s ok) := by
  unfold countCool
  repeat' first
    | with_reducible exact hk
    | with_reducible apply setAon_keeps
    | (with_reducible refine Keeps.lit ?_; first | with_reducible exact hk | with_reducible apply setAon_keeps)
    | with_reducible apply Keeps.ite
    | split

theorem holdExit_keeps {z : State} {s : State} (hk : Keeps z s) :
    Keeps z (holdExit s) := by
  unfold holdExit
  repeat' first
    | with_reducible exact hk
    | extract_lets
    | intro _
    | with_reducible apply setAon_keeps
    | with_reducible apply setSf_keeps
    | with_reducible apply slowRaise_keeps
    | with_reducible apply soil_keeps
    | with_reducible apply alerts_keeps
    | with_reducible apply Keeps.forN
    | (with_reducible refine Keeps.lit ?_; first | with_reducible exact hk | with_reducible apply setAon_keeps | with_reducible apply setSf_keeps | with_reducible apply slowRaise_keeps | with_reducible apply soil_keeps | with_reducible apply alerts_keeps | with_reducible apply Keeps.forN)
    | (with_reducible refine Keeps.lit ?_; with_reducible exact Keeps.refl _)
    | with_reducible apply Keeps.ite
    | split
    | with_reducible exact Keeps.refl _
    | dsimp +zetaDelta only

theorem thermalAct_keeps {z : State} {s : State} (hk : Keeps z s) :
    Keeps z (thermalAct s) := by
  unfold thermalAct
  repeat' first
    | with_reducible exact hk
    | extract_lets
    | with_reducible apply setSf_keeps
    | with_reducible apply slowRaise_keeps
    | with_reducible apply countCool_keeps
    | with_reducible apply setAon_keeps
    | with_reducible apply trip_keeps
    | with_reducible apply holdEnter_keeps
    | with_reducible apply alerts_keeps
    | (with_reducible refine Keeps.lit ?_; first | with_reducible exact hk | with_reducible apply setSf_keeps | with_reducible apply slowRaise_keeps | with_reducible apply countCool_keeps | with_reducible apply setAon_keeps | with_reducible apply trip_keeps | with_reducible apply holdEnter_keeps | with_reducible apply alerts_keeps)
    | with_reducible apply Keeps.ite
    | split
    | dsimp +zetaDelta only

theorem addEnergy_keeps {z : State} {s : State} {x : Fld} {r n : Nat} (hk : Keeps z s) :
    Keeps z (addEnergy s x r n) := by
  unfold addEnergy
  repeat' first
    | with_reducible exact hk
    | extract_lets
    | with_reducible apply setAon_keeps
    | with_reducible apply put_keeps
    | with_reducible apply setSf_keeps
    | (with_reducible refine Keeps.lit ?_; first | with_reducible exact hk | with_reducible apply setAon_keeps | with_reducible apply put_keeps | with_reducible apply setSf_keeps)
    | dsimp +zetaDelta only

theorem energy_keeps {z : State} {s : State} {nJ : List Nat} (hk : Keeps z s) :
    Keeps z (energy s nJ) := by
  unfold energy
  repeat' first
    | with_reducible exact hk
    | intro _
    | with_reducible apply addEnergy_keeps
    | with_reducible apply Keeps.forN
    | with_reducible exact Keeps.refl _

theorem refreshMirrors_keeps {z : State} {s : State} (hk : Keeps z s) :
    Keeps z (refreshMirrors s) := by
  unfold refreshMirrors
  repeat' first
    | with_reducible exact hk
    | extract_lets
    | intro _
    | with_reducible apply setReg_keeps
    | with_reducible apply addF_keeps
    | with_reducible apply Keeps.foldr
    | with_reducible exact Keeps.refl _
    | dsimp +zetaDelta only

theorem slowEdge_keeps {z : State} {s : State} {tj : List (BitVec 16)} {nJ : List Nat} (hk : Keeps z s) :
    Keeps z (slowEdge s tj nJ) := by
  unfold slowEdge
  repeat' first
    | with_reducible exact hk
    | extract_lets
    | intro _
    | with_reducible apply energy_keeps
    | with_reducible apply trip_keeps
    | with_reducible apply sense_keeps
    | with_reducible apply countCool_keeps
    | with_reducible apply thermalAct_keeps
    | with_reducible apply setAon_keeps
    | with_reducible apply refreshMirrors_keeps
    | with_reducible apply drainPower_keeps
    | with_reducible apply drainNvm_keeps
    | with_reducible apply Keeps.when
    | (with_reducible refine Keeps.lit ?_; first | with_reducible exact hk | with_reducible apply energy_keeps | with_reducible apply trip_keeps | with_reducible apply sense_keeps | with_reducible apply countCool_keeps | with_reducible apply thermalAct_keeps | with_reducible apply setAon_keeps | with_reducible apply refreshMirrors_keeps | with_reducible apply drainPower_keeps | with_reducible apply drainNvm_keeps | with_reducible apply Keeps.when)
    | (with_reducible refine Keeps.lit ?_; with_reducible exact Keeps.refl _)
    | with_reducible apply Keeps.ite
    | split
    | with_reducible exact Keeps.refl _
    | dsimp +zetaDelta only

theorem setGov_keeps {z : State} {s : State} {g : Gov} (hk : Keeps z s) :
    Keeps z (setGov s g) := by
  unfold setGov
  repeat' first
    | with_reducible exact hk
    | with_reducible apply setAon_keeps
    | (with_reducible refine Keeps.lit ?_; first | with_reducible exact hk | with_reducible apply setAon_keeps)

theorem govStep_keeps {z : State} {s : State} {n : Nat} (hk : Keeps z s) :
    Keeps z (govStep s n) := by
  unfold govStep
  repeat' first
    | with_reducible exact hk
    | with_reducible apply setSf_keeps
    | with_reducible apply slowRaise_keeps

theorem govEvaluate_keeps {z : State} {s : State} {p : Nat} (hk : Keeps z s) :
    Keeps z (govEvaluate s p) := by
  unfold govEvaluate
  repeat' first
    | with_reducible exact hk
    | extract_lets
    | with_reducible apply setGov_keeps
    | with_reducible apply setSf_keeps
    | with_reducible apply govStep_keeps
    | with_reducible apply slowRaise_keeps
    | with_reducible apply alerts_keeps
    | (with_reducible refine Keeps.lit ?_; first | with_reducible exact hk | with_reducible apply setGov_keeps | with_reducible apply setSf_keeps | with_reducible apply govStep_keeps | with_reducible apply slowRaise_keeps | with_reducible apply alerts_keeps)
    | with_reducible apply Keeps.ite
    | split
    | dsimp +zetaDelta only

end Sys2Proof.Machine.State
end

