-- ==== Sys2Proof/Laws/KeepsRouter.lean ====
section
/-! SUPPORT. Every operation of Router.lean keeps the queue and the canonical form (Keeps). -/

namespace Sys2Proof.Machine.State

theorem semTake_keeps {z : State} {s : State} {n owner : Nat} (hk : Keeps z s) :
    Keeps z (semTake s n owner) := by
  unfold semTake
  repeat' first
    | with_reducible exact hk
    | with_reducible apply setBus_keeps
    | with_reducible apply put_keeps
    | (with_reducible refine Keeps.lit ?_; first | with_reducible exact hk | with_reducible apply setBus_keeps | with_reducible apply put_keeps)

theorem semFree_keeps {z : State} {s : State} {n : Nat} (hk : Keeps z s) :
    Keeps z (semFree s n) := by
  unfold semFree
  repeat' first
    | with_reducible exact hk
    | with_reducible apply setBus_keeps
    | (with_reducible refine Keeps.lit ?_; first | with_reducible exact hk | with_reducible apply setBus_keeps)

theorem semAcqRead_keeps {z s : State} {r : Req} {x : Found}  (hk : Keeps z s) : Keeps z (semAcqRead r x s).2 := by
  unfold semAcqRead
  repeat' first
    | with_reducible exact hk
    | extract_lets
    | with_reducible apply semTake_keeps
    | with_reducible apply Keeps.ite
    | split
    | dsimp only
    | dsimp +zetaDelta only

theorem semPeekRead_keeps {z s : State} {r : Req} {x : Found}  (hk : Keeps z s) : Keeps z (semPeekRead r x s).2 := by
  unfold semPeekRead
  repeat' first
    | with_reducible exact hk
    | dsimp only

theorem semRelWrite_keeps {z s : State} {r : Req} {x : Found} {new d m : Nat}  (hk : Keeps z s) : Keeps z (semRelWrite r x new d m s) := by
  unfold semRelWrite
  repeat' first
    | with_reducible exact hk
    | extract_lets
    | with_reducible apply semFree_keeps
    | with_reducible apply raise_keeps
    | with_reducible apply Keeps.ite
    | split
    | dsimp +zetaDelta only

theorem semForceWrite_keeps {z s : State} {r : Req} {x : Found} {new d m : Nat}  (hk : Keeps z s) : Keeps z (semForceWrite r x new d m s) := by
  unfold semForceWrite
  repeat' first
    | with_reducible exact hk
    | with_reducible apply semFree_keeps

theorem logHeadRead_keeps {z s : State} {r : Req} {x : Found}  (hk : Keeps z s) : Keeps z (logHeadRead r x s).2 := by
  unfold logHeadRead
  repeat' first
    | with_reducible exact hk
    | with_reducible apply setBus_keeps
    | (with_reducible refine Keeps.lit ?_; first | with_reducible exact hk | with_reducible apply setBus_keeps)
    | dsimp only

theorem shown_keeps {z s : State} {r : Req} {x : Found} {v : Req → Found → State → Nat} (hk : Keeps z s) : Keeps z (shown v r x s).2 := by
  unfold shown
  repeat' first
    | with_reducible exact hk
    | dsimp only

theorem readEffect_keeps {z s : State} {r : Req} {x : Found} {e : Eff} (hk : Keeps z s) : Keeps z (readEffect e r x s).2 := by
  unfold readEffect
  repeat' first
    | with_reducible exact hk
    | with_reducible refine Keeps.snd (semAcqRead_keeps ?_) (by assumption)
    | with_reducible apply semAcqRead_keeps
    | with_reducible refine Keeps.snd (semPeekRead_keeps ?_) (by assumption)
    | with_reducible apply semPeekRead_keeps
    | with_reducible refine Keeps.snd (logHeadRead_keeps ?_) (by assumption)
    | with_reducible apply logHeadRead_keeps
    | with_reducible refine Keeps.snd (shown_keeps ?_) (by assumption)
    | with_reducible apply shown_keeps
    | with_reducible refine Keeps.snd (plicClaim_keeps ?_) (by assumption)
    | with_reducible apply plicClaim_keeps
    | with_reducible refine Keeps.snd (plicClaimRead_keeps ?_) (by assumption)
    | with_reducible apply plicClaimRead_keeps
    | with_reducible refine Keeps.snd (uartRxRead_keeps ?_) (by assumption)
    | with_reducible apply uartRxRead_keeps
    | with_reducible refine Keeps.snd (plainRead_keeps ?_) (by assumption)
    | with_reducible apply plainRead_keeps
    | with_reducible apply Keeps.ite
    | split
    | dsimp only

theorem writeEffect_keeps {z s : State} {r : Req} {x : Found} {new d m : Nat} {e : Eff} (hk : Keeps z s) : Keeps z (writeEffect e r x new d m s) := by
  unfold writeEffect
  repeat' first
    | with_reducible exact hk
    | extract_lets
    | with_reducible apply semRelWrite_keeps
    | with_reducible apply semForceWrite_keeps
    | with_reducible apply ingotCmd_keeps
    | with_reducible apply ingotCmdWrite_keeps
    | with_reducible apply tbIncrWrite_keeps
    | with_reducible apply tbStepWrite_keeps
    | with_reducible apply tbSetTimeWrite_keeps
    | with_reducible apply tbSetNsWrite_keeps
    | with_reducible apply tbCaptureWrite_keeps
    | with_reducible apply tbRefApplyWrite_keeps
    | with_reducible apply syncoutWrite_keeps
    | with_reducible apply cueArm_keeps
    | with_reducible apply cueArmWrite_keeps
    | with_reducible apply cueCommitWrite_keeps
    | with_reducible apply leTouchWrite_keeps
    | with_reducible apply leTolMinRestart_keeps
    | with_reducible apply decodeLoadWrite_keeps
    | with_reducible apply encodeLoadWrite_keeps
    | with_reducible apply underRestart_keeps
    | with_reducible apply laneCfgThen_keeps
    | with_reducible apply btlCtrlSendWrite_keeps
    | with_reducible apply btlEchoReqWrite_keeps
    | with_reducible apply btlTestWrite_keeps
    | with_reducible apply queueShapeWrite_keeps
    | with_reducible apply queueQuantumWrite_keeps
    | with_reducible apply gateSwitchWrite_keeps
    | with_reducible apply gateCtrlWrite_keeps
    | with_reducible apply gateTimeWrite_keeps
    | with_reducible apply portSampleRestart_keeps
    | with_reducible apply portSampleCfgWrite_keeps
    | with_reducible apply ringBaseWrite_keeps
    | with_reducible apply ringCfgWrite_keeps
    | with_reducible apply htxProdWrite_keeps
    | with_reducible apply fiCfgWrite_keeps
    | with_reducible apply cruRestart_keeps
    | with_reducible apply cruCfgWrite_keeps
    | with_reducible apply ingFlowCtrlWrite_keeps
    | with_reducible apply ingFlowCfgWrite_keeps
    | with_reducible apply polCbsWrite_keeps
    | with_reducible apply chainTakeoverWrite_keeps
    | with_reducible refine Keeps.snd (bltProd_keeps ?_) (by assumption)
    | with_reducible apply bltProd_keeps
    | with_reducible apply bltProdWrite_keeps
    | with_reducible apply bltResumeWrite_keeps
    | with_reducible apply bltCtrlWrite_keeps
    | with_reducible apply bltRingWrite_keeps
    | with_reducible apply sigExpect_keeps
    | with_reducible apply sigExpectWrite_keeps
    | with_reducible apply mcuExpect_keeps
    | with_reducible apply mcuExpectWrite_keeps
    | with_reducible apply mcuGoWrite_keeps
    | with_reducible apply mcRefreshWrite_keeps
    | with_reducible refine Keeps.snd (plicClaim_keeps ?_) (by assumption)
    | with_reducible apply plicClaim_keeps
    | with_reducible apply plicCompleteWrite_keeps
    | with_reducible apply coreCtrlWrite_keeps
    | with_reducible apply mbMsgWrite_keeps
    | with_reducible apply mtimecmpWrite_keeps
    | with_reducible apply mbSendWrite_keeps
    | with_reducible apply mbAckWrite_keeps
    | with_reducible apply mbDoneWrite_keeps
    | with_reducible apply mbBindWrite_keeps
    | with_reducible apply mmacCfgWrite_keeps
    | with_reducible apply mmacRingWrite_keeps
    | with_reducible apply mmacTxProdWrite_keeps
    | with_reducible apply mdioCmdWrite_keeps
    | with_reducible apply uartTxWrite_keeps
    | with_reducible apply gpioAckWrite_keeps
    | with_reducible apply i2cXferWrite_keeps
    | with_reducible apply spiCmdWrite_keeps
    | with_reducible apply nvmReadSelWrite_keeps
    | with_reducible apply plainWrite_keeps
    | with_reducible apply Keeps.ite
    | split
    | dsimp +zetaDelta only

theorem noteSlabRead_keeps {z : State} {s : State} {a : Nat} (hk : Keeps z s) :
    Keeps z (noteSlabRead s a) := by
  unfold noteSlabRead
  repeat' first
    | with_reducible exact hk
    | with_reducible apply slabUe_keeps
    | with_reducible apply Keeps.ite
    | split

theorem readNow_keeps {z : State} {s : State} {m a : Nat} {w : Width} (hk : Keeps z s) :
    Keeps z (readNow s m a w) := by
  unfold readNow
  repeat' first
    | with_reducible exact hk
    | extract_lets
    | with_reducible apply slowRaise_keeps
    | with_reducible apply respond_keeps
    | with_reducible apply noteSlabRead_keeps
    | with_reducible apply busError_keeps
    | with_reducible apply Keeps.ite
    | split
    | dsimp +zetaDelta only

theorem writeNow_keeps {z : State} {s : State} {m a : Nat} {w : Width} {d : Nat} (hk : Keeps z s) :
    Keeps z (writeNow s m a w d) := by
  unfold writeNow
  repeat' first
    | with_reducible exact hk
    | extract_lets
    | with_reducible apply putDdr_keeps
    | with_reducible apply slotWritten_keeps
    | with_reducible apply respond_keeps
    | with_reducible apply Keeps.ite
    | split
    | dsimp +zetaDelta only

theorem accessMem_keeps {z : State} {s : State} {b : Blocked} (hk : Keeps z s) :
    Keeps z (accessMem s b) := by
  unfold accessMem
  repeat' first
    | with_reducible exact hk
    | extract_lets
    | with_reducible apply setBus_keeps
    | with_reducible apply respond_keeps
    | with_reducible apply request_keeps
    | with_reducible apply writeNow_keeps
    | with_reducible apply readNow_keeps
    | (with_reducible refine Keeps.lit ?_; first | with_reducible exact hk | with_reducible apply setBus_keeps | with_reducible apply respond_keeps | with_reducible apply request_keeps | with_reducible apply writeNow_keeps | with_reducible apply readNow_keeps)
    | with_reducible apply Keeps.ite
    | split
    | dsimp +zetaDelta only

theorem readMem_keeps {z : State} {s : State} {m a : Nat} {w : Width} (hk : Keeps z s) :
    Keeps z (readMem s m a w) := by
  unfold readMem
  repeat' first
    | with_reducible exact hk
    | with_reducible apply accessMem_keeps

theorem writeMem_keeps {z : State} {s : State} {m a : Nat} {w : Width} {d : Nat} (hk : Keeps z s) :
    Keeps z (writeMem s m a w d) := by
  unfold writeMem
  repeat' first
    | with_reducible exact hk
    | with_reducible apply accessMem_keeps

theorem tunnelSend_keeps {z : State} {s : State} {x : ChainAccess} (hk : Keeps z s) :
    Keeps z (tunnelSend s x) := by
  unfold tunnelSend
  repeat' first
    | with_reducible exact hk
    | extract_lets
    | with_reducible apply setChain_keeps
    | with_reducible apply chainSend_keeps
    | (with_reducible refine Keeps.lit ?_; first | with_reducible exact hk | with_reducible apply setChain_keeps | with_reducible apply chainSend_keeps)
    | dsimp +zetaDelta only

theorem tunnelRequest_keeps {z : State} {s : State} {n : Nat} {r : Req} {a : Nat} {w : Width} {wr : Bool} {d : Word} (hk : Keeps z s) :
    Keeps z (tunnelRequest s n r a w wr d) := by
  unfold tunnelRequest
  repeat' first
    | with_reducible exact hk
    | extract_lets
    | with_reducible apply wr_keeps
    | with_reducible apply setChain_keeps
    | with_reducible apply respond_keeps
    | with_reducible apply tunnelSend_keeps
    | (with_reducible refine Keeps.lit ?_; first | with_reducible exact hk | with_reducible apply wr_keeps | with_reducible apply setChain_keeps | with_reducible apply respond_keeps | with_reducible apply tunnelSend_keeps)
    | with_reducible apply Keeps.ite
    | split
    | dsimp +zetaDelta only

theorem tunnelAdmit_keeps {z : State} {s : State} {n : Nat} (hk : Keeps z s) :
    Keeps z (tunnelAdmit s n) := by
  unfold tunnelAdmit
  repeat' first
    | with_reducible exact hk
    | with_reducible apply setChain_keeps
    | with_reducible apply tunnelSend_keeps
    | (with_reducible refine Keeps.lit ?_; first | with_reducible exact hk | with_reducible apply setChain_keeps | with_reducible apply tunnelSend_keeps)
    | with_reducible apply Keeps.ite
    | split

theorem tunnelEnd_keeps {z : State} {s : State} {x : ChainAccess} (hk : Keeps z s) :
    Keeps z (tunnelEnd s x) := by
  unfold tunnelEnd
  repeat' first
    | with_reducible exact hk
    | with_reducible apply setChain_keeps
    | with_reducible apply tunnelAdmit_keeps
    | (with_reducible refine Keeps.lit ?_; first | with_reducible exact hk | with_reducible apply setChain_keeps | with_reducible apply tunnelAdmit_keeps)

theorem tunnelComplete_keeps {z : State} {s : State} {x : ChainAccess} {error : Bool} {d : Word} (hk : Keeps z s) :
    Keeps z (tunnelComplete s x error d) := by
  unfold tunnelComplete
  repeat' first
    | with_reducible exact hk
    | extract_lets
    | with_reducible apply respond_keeps
    | with_reducible apply busError_keeps
    | with_reducible apply tunnelEnd_keeps
    | with_reducible apply Keeps.ite
    | split
    | dsimp +zetaDelta only

theorem tunnelFlush_keeps {z : State} {s : State} {n : Nat} (hk : Keeps z s) :
    Keeps z (tunnelFlush s n) := by
  induction n generalizing s with
  | zero =>
    unfold tunnelFlush
    repeat' first
      | with_reducible exact hk
      | extract_lets
      | with_reducible apply tunnelComplete_keeps
      | with_reducible apply Keeps.ite
      | split
      | dsimp +zetaDelta only
  | succ j ih =>
    unfold tunnelFlush
    repeat' first
      | with_reducible exact hk
      | with_reducible apply ih
      | extract_lets
      | with_reducible apply tunnelComplete_keeps
      | with_reducible apply Keeps.ite
      | split
      | dsimp +zetaDelta only

theorem tunnelKeep_keeps {z : State} {s : State} {x : ChainAccess} {error : Bool} {d : Word} (hk : Keeps z s) :
    Keeps z (tunnelKeep s x error d) := by
  unfold tunnelKeep
  repeat' first
    | with_reducible exact hk
    | extract_lets
    | with_reducible apply setChain_keeps
    | (with_reducible refine Keeps.lit ?_; first | with_reducible exact hk | with_reducible apply setChain_keeps)
    | with_reducible apply Keeps.ite
    | split
    | dsimp +zetaDelta only

theorem tunnelAnswer_keeps {z : State} {s : State} {x : ChainAccess} {error : Bool} {d : Word} (hk : Keeps z s) :
    Keeps z (tunnelAnswer s x error d) := by
  unfold tunnelAnswer
  repeat' first
    | with_reducible exact hk
    | extract_lets
    | with_reducible apply tunnelKeep_keeps
    | with_reducible apply tunnelComplete_keeps
    | with_reducible apply tunnelFlush_keeps
    | with_reducible apply Keeps.ite
    | split
    | dsimp +zetaDelta only

theorem tunnelResponse_keeps {z : State} {s0 : State} {p epoch src id : Nat} {error : Bool} {d : Word} (hk : Keeps z s0) :
    Keeps z (tunnelResponse s0 p epoch src id error d) := by
  unfold tunnelResponse
  repeat' first
    | with_reducible exact hk
    | extract_lets
    | with_reducible apply chainTake_keeps
    | with_reducible apply seeEpoch_keeps
    | with_reducible apply sendUp_keeps
    | with_reducible apply tunnelAnswer_keeps
    | with_reducible apply Keeps.ite
    | split
    | dsimp +zetaDelta only

theorem tunnelTimeout_keeps {z : State} {s : State} {id : Nat} (hk : Keeps z s) :
    Keeps z (tunnelTimeout s id) := by
  unfold tunnelTimeout
  repeat' first
    | with_reducible exact hk
    | with_reducible apply satF_keeps
    | with_reducible apply chainRaise_keeps
    | with_reducible apply tunnelAnswer_keeps
    | with_reducible apply Keeps.ite
    | split

theorem writeAny_keeps {z : State} {s : State} {r : Req} {a : Nat} {w : Width} {d : Word} (hk : Keeps z s) :
    Keeps z (writeAny s r a w d) := by
  unfold writeAny
  repeat' first
    | with_reducible exact hk
    | intro _
    | with_reducible apply guarded_keeps
    | with_reducible apply serveRegWrite_keeps
    | with_reducible apply writeEffect_keeps
    | with_reducible apply writeMem_keeps
    | with_reducible apply respond_keeps
    | with_reducible apply tunnelRequest_keeps
    | with_reducible apply Keeps.ite
    | split
    | with_reducible exact Keeps.refl _

theorem readAny_keeps {z : State} {s : State} {r : Req} {a : Nat} {w : Width} (hk : Keeps z s) :
    Keeps z (readAny s r a w) := by
  unfold readAny
  repeat' first
    | with_reducible exact hk
    | intro _
    | with_reducible apply guarded_keeps
    | with_reducible apply serveRegRead_keeps
    | with_reducible refine Keeps.snd (readEffect_keeps ?_) (by assumption)
    | with_reducible apply readEffect_keeps
    | with_reducible apply readMem_keeps
    | with_reducible apply tunnelRequest_keeps
    | with_reducible apply Keeps.ite
    | split
    | with_reducible exact Keeps.refl _

theorem writeSlow_keeps {z : State} {s : State} {r : Req} {a : Nat} {d : Nat} (hk : Keeps z s) :
    Keeps z (writeSlow s r a d) := by
  unfold writeSlow
  repeat' first
    | with_reducible exact hk
    | intro _
    | with_reducible apply writeReg_keeps
    | with_reducible apply plainWrite_keeps
    | with_reducible exact Keeps.refl _

theorem tunnelServe_keeps {z : State} {s : State} {x : Tunnel} (hk : Keeps z s) :
    Keeps z (tunnelServe s x) := by
  unfold tunnelServe
  repeat' first
    | with_reducible exact hk
    | extract_lets
    | with_reducible apply busError_keeps
    | with_reducible apply writeAny_keeps
    | with_reducible apply readAny_keeps
    | with_reducible apply Keeps.ite
    | split
    | dsimp +zetaDelta only

theorem tunnelReply_keeps {z : State} {s : State} {k id : Nat} (hk : Keeps z s) :
    Keeps z (tunnelReply s k id) := by
  unfold tunnelReply
  repeat' first
    | with_reducible exact hk
    | extract_lets
    | with_reducible apply chainSend_keeps
    | with_reducible apply busError_keeps
    | with_reducible apply Keeps.ite
    | split
    | dsimp +zetaDelta only

theorem replyLater_keeps {z : State} {s : State} {k id : Nat} (hk : Keeps z s) :
    Keeps z (replyLater s k id) := by
  unfold replyLater
  repeat' first
    | with_reducible exact hk
    | with_reducible apply setBus_keeps
    | (with_reducible refine Keeps.lit ?_; first | with_reducible exact hk | with_reducible apply setBus_keeps)
    | with_reducible apply Keeps.ite
    | split

theorem tunnelHere_keeps {z : State} {s : State} {k : Nat} {x : Tunnel} (hk : Keeps z s) :
    Keeps z (tunnelHere s k x) := by
  unfold tunnelHere
  repeat' first
    | with_reducible exact hk
    | extract_lets
    | with_reducible apply setChain_keeps
    | with_reducible apply tunnelServe_keeps
    | with_reducible apply replyLater_keeps
    | with_reducible apply tunnelReply_keeps
    | (with_reducible refine Keeps.lit ?_; first | with_reducible exact hk | with_reducible apply setChain_keeps | with_reducible apply tunnelServe_keeps | with_reducible apply replyLater_keeps | with_reducible apply tunnelReply_keeps)
    | with_reducible apply Keeps.ite
    | split
    | dsimp +zetaDelta only

theorem enterWrite_keeps {z : State} {s : State} {w : Forwarded} (hk : Keeps z s) :
    Keeps z (enterWrite s w) := by
  unfold enterWrite
  repeat' first
    | with_reducible exact hk
    | extract_lets
    | with_reducible apply enqueueSlow_keeps
    | with_reducible apply respond_keeps
    | with_reducible apply tunnelReply_keeps
    | with_reducible apply setBus_keeps
    | (with_reducible refine Keeps.lit ?_; first | with_reducible exact hk | with_reducible apply enqueueSlow_keeps | with_reducible apply respond_keeps | with_reducible apply tunnelReply_keeps | with_reducible apply setBus_keeps)
    | with_reducible apply Keeps.ite
    | split
    | dsimp +zetaDelta only

theorem serveBehind_keeps {z : State} {s : State} (hk : Keeps z s) :
    Keeps z (serveBehind s) := by
  unfold serveBehind
  repeat' first
    | with_reducible exact hk
    | intro _
    | with_reducible apply tunnelHere_keeps
    | with_reducible apply setChain_keeps
    | with_reducible apply Keeps.foldl
    | with_reducible apply Keeps.foldl_fst
    | with_reducible apply Keeps.foldl_snd
    | with_reducible refine Keeps.fst ?_ (by assumption)
    | (with_reducible refine Keeps.lit ?_; first | with_reducible exact hk | with_reducible apply tunnelHere_keeps | with_reducible apply setChain_keeps | with_reducible apply Keeps.foldl | with_reducible apply Keeps.foldl_fst | with_reducible apply Keeps.foldl_snd | with_reducible refine Keeps.fst ?_ (by assumption))
    | (with_reducible refine Keeps.lit ?_; with_reducible exact Keeps.refl _)
    | with_reducible exact Keeps.refl _

theorem admitStalled_keeps {z : State} {s : State} (hk : Keeps z s) :
    Keeps z (admitStalled s) := by
  unfold admitStalled
  repeat' first
    | with_reducible exact hk
    | intro _
    | with_reducible apply enterWrite_keeps
    | with_reducible apply setBus_keeps
    | with_reducible apply serveBehind_keeps
    | with_reducible apply Keeps.foldl
    | with_reducible apply Keeps.foldl_fst
    | with_reducible apply Keeps.foldl_snd
    | with_reducible refine Keeps.fst ?_ (by assumption)
    | (with_reducible refine Keeps.lit ?_; first | with_reducible exact hk | with_reducible apply enterWrite_keeps | with_reducible apply setBus_keeps | with_reducible apply serveBehind_keeps | with_reducible apply Keeps.foldl | with_reducible apply Keeps.foldl_fst | with_reducible apply Keeps.foldl_snd | with_reducible refine Keeps.fst ?_ (by assumption))
    | (with_reducible refine Keeps.lit ?_; with_reducible exact Keeps.refl _)
    | with_reducible exact Keeps.refl _

theorem unblock_keeps {z : State} {s : State} {b : Blocked} (hk : Keeps z s) :
    Keeps z (unblock s b) := by
  unfold unblock
  repeat' first
    | with_reducible exact hk
    | extract_lets
    | with_reducible apply accessMem_keeps
    | with_reducible apply tunnelReply_keeps
    | with_reducible apply setBus_keeps
    | (with_reducible refine Keeps.lit ?_; first | with_reducible exact hk | with_reducible apply accessMem_keeps | with_reducible apply tunnelReply_keeps | with_reducible apply setBus_keeps)
    | with_reducible apply Keeps.ite
    | split
    | dsimp +zetaDelta only

theorem unblockAll_keeps {z : State} {s : State} (hk : Keeps z s) :
    Keeps z (unblockAll s) := by
  unfold unblockAll
  repeat' first
    | with_reducible exact hk
    | intro _
    | with_reducible apply unblock_keeps
    | with_reducible apply setBus_keeps
    | with_reducible apply serveBehind_keeps
    | with_reducible apply Keeps.foldl
    | with_reducible apply Keeps.foldl_fst
    | with_reducible apply Keeps.foldl_snd
    | with_reducible refine Keeps.fst ?_ (by assumption)
    | (with_reducible refine Keeps.lit ?_; first | with_reducible exact hk | with_reducible apply unblock_keeps | with_reducible apply setBus_keeps | with_reducible apply serveBehind_keeps | with_reducible apply Keeps.foldl | with_reducible apply Keeps.foldl_fst | with_reducible apply Keeps.foldl_snd | with_reducible refine Keeps.fst ?_ (by assumption))
    | (with_reducible refine Keeps.lit ?_; with_reducible exact Keeps.refl _)
    | with_reducible apply Keeps.ite
    | split
    | with_reducible exact Keeps.refl _

theorem slowClock_keeps {z : State} {s : State} {tj : List (BitVec 16)} {nJ : List Nat} (hk : Keeps z s) :
    Keeps z (slowClock s tj nJ) := by
  unfold slowClock
  repeat' first
    | with_reducible exact hk
    | with_reducible apply newCycle_keeps
    | with_reducible apply slowEdge_keeps
    | with_reducible apply admitStalled_keeps
    | with_reducible apply Keeps.ite
    | split

theorem tunnelRequestReceived_keeps {z : State} {s0 : State} {p : Nat} {x : Tunnel} (hk : Keeps z s0) :
    Keeps z (tunnelRequestReceived s0 p x) := by
  unfold tunnelRequestReceived
  repeat' first
    | with_reducible exact hk
    | extract_lets
    | with_reducible apply chainTake_keeps
    | with_reducible apply seeEpoch_keeps
    | with_reducible apply chainSend_keeps
    | with_reducible apply tunnelHere_keeps
    | with_reducible apply Keeps.ite
    | split
    | dsimp +zetaDelta only

theorem actWrite_keeps {z : State} {i : Nat} {s : State} (hk : Keeps z s) :
    Keeps z (actWrite i s).state := by
  unfold actWrite
  repeat' first
    | with_reducible exact hk
    | extract_lets
    | with_reducible apply writeAny_keeps
    | with_reducible apply busError_keeps
    | with_reducible apply Keeps.ite
    | split
    | dsimp only
    | dsimp +zetaDelta only

end Sys2Proof.Machine.State
end

