-- ==== Sys2Proof/Laws/KeepsTick.lean ====
section
/-! SUPPORT. Every operation of Tick.lean keeps the queue and the canonical form (Keeps). -/

namespace Sys2Proof.Machine.State

theorem rasterAdvance_keeps {z : State} {s : State} {m : Nat} (hk : Keeps z s) :
    Keeps z (rasterAdvance s m) := by
  unfold rasterAdvance
  repeat' first
    | with_reducible exact hk
    | extract_lets
    | with_reducible apply setRaster_keeps
    | (with_reducible refine Keeps.lit ?_; first | with_reducible exact hk | with_reducible apply setRaster_keeps)
    | with_reducible apply Keeps.ite
    | split
    | with_reducible refine Keeps.snd ?_ (by assumption)
    | dsimp only
    | dsimp +zetaDelta only

theorem policerTick_keeps {z : State} {s : State} (hk : Keeps z s) :
    Keeps z (policerTick s) := by
  unfold policerTick
  repeat' first
    | with_reducible exact hk
    | extract_lets
    | (with_reducible refine Keeps.lit ?_; first | with_reducible exact hk)
    | dsimp +zetaDelta only

theorem freeAll_keeps {z : State} {s : State} (hk : Keeps z s) :
    Keeps z (freeAll s) := by
  unfold freeAll
  repeat' first
    | with_reducible exact hk
    | intro _
    | with_reducible apply freeSurfaces_keeps
    | with_reducible apply Keeps.foldl
    | with_reducible apply Keeps.foldl_fst
    | with_reducible apply Keeps.foldl_snd
    | with_reducible refine Keeps.fst ?_ (by assumption)
    | with_reducible exact Keeps.refl _

theorem refStarts_keeps {z : State} {s : State} {old : RP} (hk : Keeps z s) :
    Keeps z (refStarts s old) := by
  unfold refStarts
  repeat' first
    | with_reducible exact hk
    | (with_reducible refine Keeps.lit ?_; first | with_reducible exact hk)

theorem moverTick_keeps {z : State} {s : State} (hk : Keeps z s) :
    Keeps z (moverTick s) := by
  unfold moverTick
  repeat' first
    | with_reducible exact hk
    | intro _
    | with_reducible apply mcuTick_keeps
    | with_reducible apply bltTick_keeps
    | with_reducible apply Keeps.forN
    | with_reducible exact Keeps.refl _

theorem fclkTick_keeps {z : State} {s : State} (hk : Keeps z s) :
    Keeps z (fclkTick s) := by
  unfold fclkTick
  repeat' first
    | with_reducible exact hk
    | extract_lets
    | intro _
    | with_reducible apply newCycle_keeps
    | with_reducible apply timeTick_keeps
    | with_reducible apply refStarts_keeps
    | with_reducible apply rasterAdvance_keeps
    | with_reducible apply retime_keeps
    | with_reducible apply markDue_keeps
    | with_reducible apply syncoutTick_keeps
    | with_reducible apply shaperTick_keeps
    | with_reducible apply portTick_keeps
    | with_reducible apply policerTick_keeps
    | with_reducible apply freeAll_keeps
    | with_reducible apply gpioTick_keeps
    | with_reducible apply machineTimers_keeps
    | with_reducible apply moverTick_keeps
    | with_reducible apply memTick_keeps
    | with_reducible apply mmacTick_keeps
    | with_reducible apply unblockAll_keeps
    | with_reducible apply Keeps.forN
    | (with_reducible refine Keeps.lit ?_; first | with_reducible exact hk | with_reducible apply newCycle_keeps | with_reducible apply timeTick_keeps | with_reducible apply refStarts_keeps | with_reducible apply rasterAdvance_keeps | with_reducible apply retime_keeps | with_reducible apply markDue_keeps | with_reducible apply syncoutTick_keeps | with_reducible apply shaperTick_keeps | with_reducible apply portTick_keeps | with_reducible apply policerTick_keeps | with_reducible apply freeAll_keeps | with_reducible apply gpioTick_keeps | with_reducible apply machineTimers_keeps | with_reducible apply moverTick_keeps | with_reducible apply memTick_keeps | with_reducible apply mmacTick_keeps | with_reducible apply unblockAll_keeps | with_reducible apply Keeps.forN)
    | (with_reducible refine Keeps.lit ?_; with_reducible exact Keeps.refl _)
    | with_reducible apply Keeps.ite
    | split
    | with_reducible exact Keeps.refl _
    | dsimp +zetaDelta only

theorem alignedCycles_keeps {z : State} {s : State} {align : Nat} (hk : Keeps z s) :
    Keeps z (alignedCycles s align) := by
  unfold alignedCycles
  repeat' first
    | with_reducible exact hk
    | extract_lets
    | intro _
    | with_reducible apply gateCycleStart_keeps
    | with_reducible apply Keeps.forN
    | with_reducible apply Keeps.ite
    | split
    | with_reducible exact Keeps.refl _
    | dsimp +zetaDelta only

theorem referenceLineStart_keeps {z : State} {s : State} (hk : Keeps z s) :
    Keeps z (referenceLineStart s) := by
  unfold referenceLineStart
  repeat' first
    | with_reducible exact hk
    | extract_lets
    | intro _
    | with_reducible apply lineBeacons_keeps
    | with_reducible apply chainLineStart_keeps
    | with_reducible apply alignedCycles_keeps
    | with_reducible apply Keeps.forN
    | (with_reducible refine Keeps.lit ?_; first | with_reducible exact hk | with_reducible apply lineBeacons_keeps | with_reducible apply chainLineStart_keeps | with_reducible apply alignedCycles_keeps | with_reducible apply Keeps.forN)
    | (with_reducible refine Keeps.lit ?_; with_reducible exact Keeps.refl _)
    | with_reducible apply Keeps.ite
    | split
    | with_reducible exact Keeps.refl _
    | dsimp +zetaDelta only

theorem echoFrame_keeps {z : State} {s : State} {p : Nat} (hk : Keeps z s) :
    Keeps z (echoFrame s p) := by
  unfold echoFrame
  repeat' first
    | with_reducible exact hk
    | extract_lets
    | with_reducible apply setPort_keeps
    | with_reducible apply echoRoundStart_keeps
    | (with_reducible refine Keeps.lit ?_; first | with_reducible exact hk | with_reducible apply setPort_keeps | with_reducible apply echoRoundStart_keeps)
    | with_reducible apply Keeps.ite
    | split
    | dsimp +zetaDelta only

theorem referenceFrameStart_keeps {z : State} {s : State} (hk : Keeps z s) :
    Keeps z (referenceFrameStart s) := by
  unfold referenceFrameStart
  repeat' first
    | with_reducible exact hk
    | extract_lets
    | intro _
    | with_reducible apply echoFrame_keeps
    | with_reducible apply alignedCycles_keeps
    | with_reducible apply freeAll_keeps
    | with_reducible apply Keeps.forN
    | (with_reducible refine Keeps.lit ?_; first | with_reducible exact hk | with_reducible apply echoFrame_keeps | with_reducible apply alignedCycles_keeps | with_reducible apply freeAll_keeps | with_reducible apply Keeps.forN)
    | (with_reducible refine Keeps.lit ?_; with_reducible exact Keeps.refl _)
    | with_reducible apply Keeps.ite
    | split
    | with_reducible exact Keeps.refl _
    | dsimp +zetaDelta only

end Sys2Proof.Machine.State
end

