-- ==== Sys2Proof/Laws/Requests.lean ====
section
/-! SUPPORT. What the request queues of the DDR4 channels can change. -/

namespace Sys2Proof.Machine.State

/-- A fold of steps that change the channels alone changes the channels alone. -/
theorem foldl_chans {α : Type} (f : State → α → State) (h : ∀ t x, f t x = { t with chans := (f t x).chans }) :
    ∀ (l : List α) (s : State), l.foldl f s = { s with chans := (l.foldl f s).chans }
  | [], _ => rfl
  | x :: l, s => by
    have ih := foldl_chans f h l (f s x)
    rw [List.foldl_cons, ih, h s x]

/-- A request changes the channels alone (R502). -/
theorem request_chans (s : State) (q : MemQueue) (src a n : Nat) (write : Bool) :
    request s q src a n write = { s with chans := (request s q src a n write).chans } := by
  unfold request
  split
  · exact foldl_chans _ (fun _ _ => rfl) _ _
  · rfl

/-- A slot that passes changes the channels alone (R503). -/
theorem slotPasses_chans (s : State) (c : Nat) : (s.slotPasses c).2 = { s with chans := (s.slotPasses c).2.chans } := by
  unfold slotPasses
  split <;> rfl

/-- A write that replaces no part of an uncorrectable word records nothing (R510). -/
theorem noteMerged_none (s : State) (a n : Nat) (h : s.mergedUe a n = []) : s.noteMerged a n = s := by
  simp [noteMerged, h]

end Sys2Proof.Machine.State
end

