-- ==== Sys2Proof/Tests/Slice0.lean ====
section
/-! SUPPORT. Tests: ill-formed operands that the checks refuse, and, for every statement with hypotheses, states and
operands that meet all of them together, clause by clause in the statement's order. The states are the state after reset
with the fields set that the clause asks for. -/

namespace Sys2Proof.Tests
open Sys2Proof Sys2Proof.Machine Sys2Proof.Machine.State

set_option Elab.async false

/-- Management master 0, the Keeper: class 3. -/
def keeper : Req := ⟨0, .machine⟩

/-- Master 9, which the reset state gives class 1 at most. -/
def other : Req := ⟨9, .user⟩

/-- The debug module. -/
def debugger : Req := ⟨16, .machine⟩

/-- The reset state with some fields set, one after another. -/
def withF (l : List (Fld × Nat)) (s : State) : State := l.foldl (fun t x => t.setF x.1 x.2) s

/-- The same of slow-domain fields. -/
def withSf (l : List (Fld × Nat)) (s : State) : State := l.foldl (fun t x => t.setSf x.1 x.2) s

/-- The reset state with bytes in memory. -/
def withMem (a : Nat) (bs : List Nat) (s : State) : State := s.store a (bs.map (BitVec.ofNat 8))

/-! ### Well-formed operands -/

theorem smoke_access :
    (Instr.registerWrite keeper 0xF000000010 .w8 0x100).wf = false ∧
    (Instr.registerWrite keeper 0xF000000010 .w8 0xFF).wf = true ∧
    (Instr.mirrorWrite keeper 0xF000240010 .w32 0).wf = false ∧
    (Instr.setAliasWrite keeper 0xF000040010 .w32 0).wf = false ∧
    (Instr.clearAliasWrite keeper 0xF000000010 .w32 0x100000000).wf = false ∧
    (Instr.toggleAliasWrite keeper 0xE000000010 .w32 0).wf = false ∧
    (Instr.lowHalfRead keeper 0xF000000014).wf = false ∧
    (Instr.lowHalfWrite keeper 0xF000000014 0).wf = false ∧
    (Instr.lowHalfWrite keeper 0xF000000010 0).wf = true ∧
    (Instr.sequenceClear keeper 0xF000000005 0 0).wf = false ∧
    (Instr.slotWindowWrite keeper 0 2 .w32 0).wf = false ∧
    (Instr.slotWindowWrite keeper 0 0 .w8 0).wf = false ∧
    (Instr.slotWindowWrite keeper 1 65532 .w32 0).wf = true := by decide +kernel

theorem smoke_events :
    (Instr.slowClockEdge [] [0, 0, 0, 0, 0, 0, 0, 0]).wf = false ∧
    (Instr.leBurstArrival 0 0 0x80 .clean).wf = false ∧
    (Instr.mcReadComplete 1 0x200 .clean false).wf = false ∧
    (Instr.mcReadComplete 1 0x100 .clean false).wf = true ∧
    (Instr.chainCueFrame 0 ⟨1, 7679, none⟩).wf = false ∧
    (Instr.chainCueFrame 0 ⟨1, 7680, some [0]⟩).wf = false ∧
    (Instr.chainCueFrame 0 ⟨1, 7680, none⟩).wf = true ∧
    (Instr.heartbeatReceived 0 ⟨1, 241, 1, 1⟩).wf = false ∧
    (Instr.heartbeatReceived 0 ⟨1, 24000, 1001, 0⟩).wf = false ∧
    (Instr.heartbeatReceived 0 ⟨1, 24000, 1001, 65535⟩).wf = true ∧
    (Instr.tunnelRequest keeper 0xF000000000 .w32 false 0).wf = false ∧
    (Instr.tunnelRequestReceived 0 ⟨0, 0, 0, 0, .w16, true, 0x10000⟩).wf = false ∧
    (Instr.i2cDone 0 .ok 17 []).wf = false ∧
    (Instr.spiDone (List.replicate 257 0)).wf = false := by decide +kernel

theorem smoke_frames :
    (Instr.cackReceived 0 (List.replicate 63 0)).wf = false ∧
    (Instr.echoReplyReceived 0 (List.replicate 63 0)).wf = false ∧
    (Instr.statReceived 0 (List.replicate 63 0)).wf = false ∧
    (Instr.testReplyReceived 0 (List.replicate 63 0)).wf = false ∧
    (Instr.btlRxDiscard 0 (List.replicate 63 0)).wf = false ∧
    (Instr.ingestFrame 0 (List.replicate 9217 0)).wf = false ∧
    (Instr.chainHostFrame 0 (List.replicate 63 0)).wf = false ∧
    (Instr.chainHostFrame 0 (List.replicate 64 0)).wf = true := by decide +kernel

/-! ### States for the witnesses -/

/-- The cells of bytes at an address; zero bytes are not listed. -/
def cellsAt (a : Nat) (bs : List Nat) : List Host.Cell :=
  bs.zipIdx.filterMap fun x => if x.1 = 0 then none else some (a + x.2, BitVec.ofNat 8 x.1)

/-- A record of an image: type and payload. -/
def record (ty : Nat) (payload : List Nat) : List Nat :=
  [ty, 0, 0, 0, payload.length % 256, payload.length / 256, 0, 0, 0, 0, 0, 0, 0, 0, 0, 0] ++ payload

/-- An image of count records, as far as the state reads it while it is active. -/
def image (count : Nat) (recs : List Nat) : List Nat := List.replicate 12 0 ++ [count] ++ List.replicate 19 0 ++ recs

/-- The image of slot 0 is active. -/
def active (count : Nat) (recs : List Nat) : State :=
  withF [(Reg.INGOT_ACTIVE_NONE, 0), (Reg.INGOT_SLOT_STATE_STATE 0, 5)]
    { State.reset with mem := cellsAt (slotBase 0) (image count recs) }

/-- One raster, ORS0, enabled, bound to cluster 0. -/
def rasters : List Nat := record 4 ([0, 0xFF, 2, 1] ++ List.replicate 508 0)

/-- Port 0 in a role. -/
def portIn (role : Nat) : List Nat := record 6 (role :: List.replicate 1023 0)

/-- A raster frame of two lines of four pixels, one of each active. -/
def tiny : Timing := { hActive := 2, hFp := 1, hSync := 1, hBp := 0, vActive := 1, vFp := 1, sub := 1, fetchLead := 1, sendLine := 1 }

/-- ORS0 of the active image, in a mode. -/
def rastered (x : Raster) : State := { active 1 rasters with rasters := [(0, x)] }

/-- The live Tile Map entry 0 takes two pixels of line 0 of raster 0 to tile 7 on port 0, in Q0. -/
def mapped (s : State) : State := s.store 0xE800100000 (leBytes 8 (2 * 2 ^ 32 + 2 ^ 48) ++ leBytes 8 (2 ^ 63 + 7))

/-- ORS0, and port 0 in a role, of the active image. -/
def both (role : Nat) (x : Raster) : State := { active 2 (rasters ++ portIn role) with rasters := [(0, x)] }

/-- A worker whose uplink, link 0, has joined on port 0. -/
def worker : State :=
  let s := active 2 (portIn 3 ++ record 8 (List.replicate 128 0))
  withF [(Reg.CHAIN_STATE_ROLE, 3), (Reg.CHAIN_LINK_KIND 0, 0)] { s with chain := { s.chain with joined := [0] } }

/-- Every DDR4 channel READY. -/
def trained (s : State) : State := withF ((List.range 16).map fun c => (Reg.MC_STATE_STATE c, 1)) s

/-- A full queue of the cores to a DDR4 channel. -/
def coresFull (c : Nat) (s : State) : State := s.setChan c { s.chan c with core := List.replicate 32 { src := 0, addr := 0 } }

/-- What CueRuns asks of a cue that came due in FCLK d. -/
abbrev Runs (i kind d : Nat) (x : ArmedCue) (s : State) : Prop :=
  Tab.find s.cues i = some x ∧ x.due = some d ∧ s.cueFirst i d = true ∧ s.cueAction i = kind ∧ s.ran < 32 ∧
  (∀ m, m < 16 → s.atStp m = false) ∧ s.poisoned (cueSlot i) 32 = false

theorem Runs.cueRuns {i kind d : Nat} {x : ArmedCue} {s : State} (h : Runs i kind d x s) : CueRuns i kind x s :=
  ⟨h.1, ⟨d, h.2.1, h.2.2.1⟩, h.2.2.2⟩

/-- The cue of the state below. -/
abbrev dueCue : ArmedCue := { raster := 16, first := 0, f := 0, l := 0, t := 0, period := 0, due := some 0 }

/-- A cue of slot 0 with an action and an operand byte, armed on the reference raster, and due. -/
def cued (action operand : Nat) (s : State) : State :=
  ({ s with cues := [(0, dueCue)] } : State).store (cueSlot 0)
    ([0, 0, 0, action * 32 + 2, 0, 0, 0, 0, 0, 0, 0, 0, 0, 0, 0, 0, operand].map (BitVec.ofNat 8))

/-! ### The machine, and register access -/

theorem witness_StepRunsFrontCommand :
    ({ State.reset with pending := [.fclkTick, .takeover] } : State).pending = .fclkTick :: [.takeover] ∧
    State.reset.pending = [] := by decide +kernel

theorem witness_EveryCommandAnswers : ¬ (State.reset.setAon { State.reset.aon with hold := .trip }).Up := by
  unfold State.Up; decide +kernel

theorem witness_StepKeepsCanonical :
    State.reset.canonical = true ∧ (match step State.reset with | .next _ => true | _ => false) = true ∧
    ({ State.reset with pending := [.fclkTick] } : State).canonical = true := by decide +kernel

theorem witness_DeniedAccessIsLogged :
    State.reset.Up ∧ State.reset.mute other = false ∧
    State.reset.judge other Reg.INGOT_CMD .w32 true = .denied 1 ∧
    State.reset.judge other Reg.DBG_CTRL .w32 false = .denied 2 ∧
    (State.reset.setReg (Reg.CLASS_FLOOR 0) 2).judge other (Reg.SYS_SEM_ACQ 63) .w32 false = .denied 2 := by
  unfold State.Up; decide +kernel

theorem witness_BusErrorIsLogged :
    State.reset.Up ∧ State.reset.mute keeper = false ∧
    State.reset.judge keeper 0x8000000000 .w32 true = .error 1 ∧
    (State.reset.setF Reg.CLASS_LOCK_LOCKED 1).judge keeper (Reg.CLASS_FLOOR 15) .w32 true = .error 7 ∧
    State.reset.judge keeper (Reg.TB_LOCK_CFG + 1) .w32 false = .error 4 := by
  unfold State.Up; decide +kernel

theorem witness_JudgementOrder :
    bits (0xF0003FFFFC : Addr).toNat 39 28 = 0xF00 ∧ findReg (0xF0003FFFFC : Addr).toNat = none ∧
    ¬ (0xF000210000 ≤ (0xF0003FFFFC : Addr).toNat ∧ (0xF0003FFFFC : Addr).toNat < 0xF000230000) ∧
    bits Reg.TB_LOCK_CFG 39 28 = 0xF00 ∧ (findReg Reg.TB_LOCK_CFG).isSome = true := by decide +kernel

theorem witness_PlainRegisterHoldsItsFields :
    State.reset.Up ∧ (∃ x, findReg (BitVec.ofNat 40 Reg.TB_LOCK_CFG).toNat = some x ∧ x.row.eff = .plain ∧ isSlow x = false) ∧
    State.reset.passes keeper (BitVec.ofNat 40 Reg.TB_LOCK_CFG).toNat .w32 true = true ∧
    State.reset.passes keeper (BitVec.ofNat 40 Reg.TB_LOCK_CFG).toNat .w32 false = true := by
  refine ⟨rfl, ⟨(findReg Reg.TB_LOCK_CFG).get (by decide +kernel), ?_⟩, ?_⟩ <;> decide +kernel

/-- TB_REF_RATE with a half held and staged by the Keeper. -/
def halves : State :=
  { State.reset with bus := { State.reset.bus with hold := [(0, ⟨Reg.TB_REF_RATE, 7⟩)], stage := [(0, ⟨Reg.TB_REF_RATE, 9⟩)] } }

theorem witness_HalvesOfWideRegisters :
    ∃ x, x.row.wide = true ∧ x.row.eff = .plain ∧ isSlow x = false ∧ x.addr = Reg.TB_REF_RATE ∧
    (State.reset.Up ∧ State.reset.mute keeper = false ∧
     State.reset.judge keeper Reg.TB_REF_RATE .w32 false = .ok (.reg x .normal .low) ∧
     State.reset.judge keeper Reg.TB_REF_RATE .w32 true = .ok (.reg x .normal .low)) ∧
    (halves.Up ∧ halves.mute keeper = false ∧
     halves.judge keeper (Reg.TB_REF_RATE + 4) .w32 false = .ok (.reg x .normal .high) ∧
     halves.judge keeper (Reg.TB_REF_RATE + 4) .w32 true = .ok (.reg x .normal .high) ∧
     Tab.find halves.bus.hold keeper.master.val = some ⟨x.addr, 7⟩ ∧
     Tab.find halves.bus.stage keeper.master.val = some ⟨x.addr, 9⟩) := by
  refine ⟨(findReg Reg.TB_REF_RATE).get (by decide +kernel), ?_⟩
  unfold State.Up; decide +kernel

theorem witness_AliasWritesAndSequenceClear :
    State.reset.Up ∧
    (∃ x, findReg Reg.TIMEBASE_BLOCK_STATUS = some x ∧ x.row.eff = .plain ∧
      x.row.fields = [⟨31, 16, .sq⟩, ⟨15, 0, .sq⟩] ∧ isSlow x = false) ∧
    State.reset.passes keeper Reg.TIMEBASE_BLOCK_STATUS .w32 true = true ∧
    (∃ x, x.row.eff = .plain ∧ isSlow x = false ∧ State.reset.mute keeper = false ∧
      State.reset.judge keeper (Reg.TB_LOCK_CFG + 0x40000) .w32 true = .ok (.reg x .set .whole) ∧
      State.reset.judge keeper (Reg.TB_LOCK_CFG + 0x80000) .w32 true = .ok (.reg x .clear .whole) ∧
      State.reset.judge keeper (Reg.TB_LOCK_CFG + 0xC0000) .w32 true = .ok (.reg x .toggle .whole)) := by
  refine ⟨rfl, ⟨(findReg Reg.TIMEBASE_BLOCK_STATUS).get (by decide +kernel), ?_⟩, ?_,
    ⟨(findReg Reg.TB_LOCK_CFG).get (by decide +kernel), ?_⟩⟩ <;> decide +kernel

theorem witness_MirrorWriteQueues :
    State.reset.Up ∧ (∃ x, findReg Reg.KWDT_CFG = some x ∧ isSlow x = true ∧ x.row.eff ≠ .nvmReadSel ∧ x.row.wide = false) ∧
    State.reset.passes keeper Reg.KWDT_CFG .w32 true = true ∧
    (let q := List.replicate 16 ({ addr := Reg.KWDT_CFG, mask := 0xFFFFFFFF, data := 0, master := 0 } : Forwarded)
     ({ State.reset with bus := { State.reset.bus with nvmQ := q } } : State).passes keeper Reg.KWDT_CFG .w32 true = true ∧
     q.length = 16 ∧ bits Reg.KWDT_CFG 27 20 = 2) := by
  refine ⟨rfl, ⟨(findReg Reg.KWDT_CFG).get (by decide +kernel), ?_⟩, ?_⟩ <;> decide +kernel

theorem witness_SemaphoresLocksAndLogHead :
    State.reset.Up ∧ State.reset.passes keeper (Reg.SYS_SEM_ACQ 0) .w32 false = true ∧
    State.reset.passes other (Reg.SYS_SEM_ACQ 63) .w32 false = true ∧
    State.reset.passes other (Reg.SYS_SEM_REL 63) .w32 true = true ∧
    State.reset.passes keeper Reg.SYS_SEM_FORCE .w32 true = true ∧
    State.reset.passes keeper Reg.CLASS_LOCK .w32 true = true ∧
    State.reset.passes keeper Reg.MB_BIND_LOCK .w32 true = true ∧
    State.reset.passes keeper Reg.DBG_LOCK .w32 true = true ∧
    State.reset.passes keeper Reg.ACCESS_LOG_HEAD .w32 false = true := by
  unfold State.Up; decide +kernel

theorem witness_MemoryAccess :
    State.reset.Up ∧ State.reset.canonical = true ∧ State.reset.mute keeper = false ∧
    State.reset.judge keeper 0xE007FFFFF8 .w64 false = .ok .mem ∧ State.reset.poisoned 0xE007FFFFF8 8 = false ∧
    State.reset.judge keeper 0xE007FFFFF8 .w64 true = .ok .mem ∧
    bits 0xE007FFFFF8 39 17 ≠ 0xE800F00000 / 2 ^ 17 ∧ State.reset.faulted 0xE007FFFFF8 = false ∧
    (∀ i, i < 8 → State.reset.faulted (0xE007FFFFF8 + i) = false) ∧
    State.reset.CoreServes keeper 0xE007FFFFF8 .w64 ∧
    ((trained State.reset).judge keeper 0 .w64 false = .ok .mem ∧ (trained State.reset).judge keeper 0 .w64 true = .ok .mem ∧
     (trained State.reset).CoreServes keeper 0 .w64 ∧ (trained State.reset).poisoned 0 8 = false) ∧
    (let s : State := { trained State.reset with poison := [0] }
     s.judge keeper 4 .w32 false = .ok .mem ∧ s.poisoned 4 4 = true ∧ s.judge keeper 4 .w32 true = .ok .mem ∧
     s.CoreServes keeper 4 .w32 ∧ s.faulted 0 = false) ∧
    ((coresFull 0 (trained State.reset)).Up ∧ (coresFull 0 (trained State.reset)).mute keeper = false ∧
     (coresFull 0 (trained State.reset)).judge keeper 0 .w64 true = .ok .mem ∧
     (coresFull 0 (trained State.reset)).judge keeper 0 .w64 false = .ok .mem ∧ ¬ (coresFull 0 (trained State.reset)).CoreServes keeper 0 .w64) ∧
    State.reset.judge keeper 0xF000220000 .w32 true = .ok .readOnly ∧
    State.reset.judge keeper (slotBase 1 + (65532 : Fin 65536)) .w32 true = .ok .mem := by
  unfold State.Up State.CoreServes; decide +kernel

/-! ### The slow clock, power and heat -/

/-- Sixteen samples of v sixteenths of a degree. -/
def temps (v : Nat) : List (BitVec 16) := List.replicate 16 (BitVec.ofNat 16 v)

theorem witness_SlowClockEdgeSamples :
    State.reset.Up ∧ (temps 1839).length = 16 ∧ (List.replicate 8 999 : List Nat).length = 8 ∧
    (∀ v ∈ temps 1839, sgn 16 v.toNat < 1840) ∧ State.reset.thermalHold = false ∧
    State.reset.bus.nvmQ = [] ∧ State.reset.bus.powerQ = [] ∧ State.reset.NoneWaits := by
  refine ⟨rfl, rfl, rfl, fun v hv => ?_, ?_⟩
  · rw [List.eq_of_mem_replicate hv]; decide +kernel
  · unfold State.thermalHold State.NoneWaits; decide +kernel

/-- Tripped, and cool for n samples. -/
def tripped (n : Nat) : State := State.reset.setAon { State.reset.aon with hold := .trip, cool := n }

/-- In Thermal Hold, and cool for n samples. -/
def hot (n : Nat) : State :=
  (withSf [(Reg.PWR_STATE_THERMAL_HOLD, 1)] State.reset).setAon { State.reset.aon with cool := n }

/-- Firmware runs. -/
def firmware : State := State.reset.setAon { State.reset.aon with keeperUp := true }

theorem temps_top (v : Nat) : BitVec.ofNat 16 v ∈ temps v ∧
    ∀ u ∈ temps v, sgn 16 u.toNat ≤ sgn 16 (BitVec.ofNat 16 v).toNat := by
  refine ⟨List.mem_replicate.2 ⟨by decide, rfl⟩, fun u hu => ?_⟩
  have h := List.eq_of_mem_replicate hu
  subst h; exact Int.le_refl _

/-- With temps_top, for the samples themselves. -/
theorem witness_ThermalLimitsAndGovernor :
    (State.reset.Up ∧ (1840 : Int) ≤ sgn 16 (1840#16).toNat ∧
     sgn 16 (1999#16).toNat < 2000 ∧ (2000 : Int) ≤ sgn 16 (2000#16).toNat ∧ State.reset.thermalHold = false ∧
     State.reset.bus.nvmQ = [] ∧ State.reset.bus.powerQ = [] ∧ State.reset.NoneWaits) ∧
    ((hot 1000000).thermalHold = true ∧ (hot 1000000).Up ∧ 1000000 ≤ (hot 1000000).aon.cool ∧ (hot 999999).aon.cool < 1000000 ∧
     (hot 0).bus.nvmQ = [] ∧ (hot 0).bus.powerQ = [] ∧ (hot 0).NoneWaits) ∧
    (tripped 1000000).aon.hold = .trip ∧ 1000000 ≤ (tripped 1000000).aon.cool ∧ (tripped 999999).aon.cool < 1000000 ∧
    (firmware.Up ∧ firmware.aon.keeperUp = true) := by
  unfold State.Up State.thermalHold State.NoneWaits; decide +kernel

/-- The Keeper's write of d to the register at a waits for the slow domain. -/
def waiting (a : Nat) (d : Word) : Forwarded := { addr := a, mask := 0xFFFFFFFF, data := d, master := 0 }

/-- Every sample is below 115 °C. -/
theorem temps_cool : (temps 1839).length = 16 ∧ ∀ v ∈ temps 1839, sgn 16 v.toNat < 1840 :=
  ⟨rfl, fun v hv => by rw [List.eq_of_mem_replicate hv]; decide +kernel⟩

/-- With temps_cool, for the samples of the edge. -/
theorem witness_SupplyRailsAndSnapshot :
    State.reset.Up ∧ State.reset.passes keeper Reg.PWR_SNAP .w32 true = true ∧
    (let w := waiting Reg.PWR_SNAP 0
     let s : State := { State.reset with bus := { State.reset.bus with powerQ := [w] } }
     s.Up ∧ s.bus.nvmQ = [] ∧ s.bus.powerQ = [w] ∧ w.addr = Reg.PWR_SNAP ∧ s.NoneWaits) := by
  unfold State.Up State.NoneWaits; decide +kernel

/-! ### The Ingot and the timebase -/

/-- Slot states, of slot 0 and slot 1. -/
def slots (a b : Nat) (s : State) : State := withF [(Reg.INGOT_SLOT_STATE_STATE 0, a), (Reg.INGOT_SLOT_STATE_STATE 1, b)] s

theorem witness_IngotSlotCommands :
    (slots 1 4 State.reset).Up ∧ (slots 1 4 State.reset).passes keeper Reg.INGOT_CMD .w32 true = true ∧
    ((slots 1 4 State.reset).aon.held = true → (slots 1 4 State.reset).hasIngot = false) ∧
    (slots 1 4 State.reset).slotState (0 : Fin 2) = 1 ∧ (slots 1 4 State.reset).slotState (1 : Fin 2) = 4 ∧
    (slots 3 0 State.reset).slotState (0 : Fin 2) = 3 ∧ (slots 3 0 State.reset).slotState (1 : Fin 2) = 0 ∧
    (slots 2 6 State.reset).slotState (0 : Fin 2) = 2 ∧ (slots 2 6 State.reset).slotState (1 : Fin 2) = 6 ∧
    (slots 5 3 State.reset).slotState (0 : Fin 2) = 5 := by
  unfold State.Up; decide +kernel

theorem witness_IngotActivate :
    ((slots 0 3 State.reset).Up ∧ (slots 0 3 State.reset).passes keeper Reg.INGOT_CMD .w32 true = true ∧
     (slots 0 3 State.reset).aon.held = false ∧ (slots 0 3 State.reset).hasIngot = false ∧
     (slots 0 3 State.reset).slotState (1 : Fin 2) = 3) ∧
    (let s := (withSf [(Reg.BOOT_STATUS_STEP, 7), (Reg.BOOT_STATUS_CODE, 7)] (slots 0 3 State.reset)).setAon
       { State.reset.aon with keeperUp := true, held := true, entry := some 0xFF00000000 }
     s.Up ∧ s.passes keeper Reg.INGOT_CMD .w32 true = true ∧ s.aon.held = true ∧ s.aon.keeperUp = true ∧
     s.sf Reg.BOOT_STATUS_CODE = 7 ∧ s.hasIngot = false ∧ s.slotState (1 : Fin 2) = 3 ∧ s.isM = true) := by
  unfold State.Up; decide +kernel

/-- A copy into slot 1 is in progress. -/
def copyingTo1 : State := { slots 0 1 State.reset with copying := [1] }

theorem witness_IngotCopyAndValidation :
    (copyingTo1.Up ∧ copyingTo1.copying.contains (1 : Fin 2).val = true ∧ copyingTo1.slotState (1 : Fin 2) = 1 ∧
     copyingTo1.copyWaits.contains (1 : Fin 2).val = false ∧
     ({ copyingTo1 with copyWaits := [1] } : State).copyWaits.contains (1 : Fin 2).val = true) ∧
    ((slots 2 0 State.reset).Up ∧ (slots 2 0 State.reset).slotState (0 : Fin 2) = 2 ∧
     (slots 2 0 State.reset).poisoned (slotBase 0) ((slots 2 0 State.reset).slotNum 0 8 4) = false) := by
  unfold State.Up; decide +kernel

/-- A swap to slot 1 is due: it may take place, or slot 1 is empty and the swap is refused. -/
def swapping (state : Nat) : State :=
  withF [(Reg.INGOT_SLOT_STATE_STATE 1, state), (Reg.INGOT_SLOT_STATE_SWAPPABLE 1, 1)] (cued 3 1 (active 0 []))

theorem witness_IngotSwap :
    ((swapping 3).Up ∧ Runs (0 : Fin 8192) 3 0 dueCue (swapping 3) ∧ (swapping 3).hasIngot = true ∧
     (swapping 3).cueByte 0 = 1 ∧ (swapping 3).swapCode 1 = 0) ∧
    ((swapping 0).Up ∧ Runs (0 : Fin 8192) 3 0 dueCue (swapping 0) ∧ (swapping 0).swapCode ((swapping 0).cueByte 0) = 0x1D) := by
  unfold State.Up; decide +kernel

theorem witness_IngotSwap_aftermath :
    (let s := rastered { mode := .hit 0 }
     s.Up ∧ (s.raster (0 : Fin 16)).mode = .hit 0 ∧
     s.startReached (if Tab.find s.swap (0 : Fin 16).val = some (.restart true) then s.entryTiming s.slot (0 : Fin 16)
       else s.liveTiming (0 : Fin 16)) 0 = true) := by
  unfold State.Up; decide +kernel

theorem witness_TimebaseWrites :
    State.reset.Up ∧ State.reset.passes keeper Reg.TB_INCR .w64 true = true ∧
    State.reset.passes keeper Reg.TB_STEP .w64 true = true ∧ State.reset.passes keeper Reg.TB_SET_NS .w32 true = true ∧
    State.reset.passes keeper Reg.TB_CAPTURE .w32 true = true ∧
    State.reset.passes keeper (Reg.TB_SYNCOUT_CFG (3 : Fin 4)) .w32 true = true ∧
    State.reset.time.sync[3]? = some ({} : SyncPair) := by
  unfold State.Up; decide +kernel

theorem witness_ReferenceRateAndInputs :
    State.reset.Up ∧ State.reset.passes keeper Reg.TB_REF_APPLY .w64 true = true ∧
    State.reset.refPos.f < bits (1 : Word).toNat 47 0 ∧ bits (0 : Word).toNat 47 0 ≤ State.reset.refPos.f ∧
    (let s : State := { State.reset with time := { State.reset.time with armed := true } }
     s.time.armed = true ∧ s.f Reg.TB_REF_APPLY_AT_FRAME ≤ s.refPos.f) ∧
    State.reset.time.armed = false := by
  unfold State.Up; decide +kernel

theorem witness_ReferenceRateAndInputs_edges :
    State.reset.Up ∧ State.reset.time.fEdge = none ∧
    ({ State.reset with time := { State.reset.time with fEdge := some 0, fGood := 2 } } : State).time.fEdge = some 0 := by
  unfold State.Up; decide +kernel

/-- The timebase in a state on a source, with TB_SRC_CFG as after reset, and the Keeper's firmware running. -/
def timed (state source : Nat) (qs : List Qualified) : State :=
  withF [(Reg.TB_STATE_STATE, state), (Reg.TB_STATE_SOURCE, source)]
    { State.reset with time := { State.reset.time with sources := qs }, aon := { State.reset.aon with keeperUp := true } }

theorem witness_TimeSourcesAndMeasurement :
    ((timed 0 0 []).Up ∧ (timed 0 0 []).f Reg.TB_STATE_STATE = 0 ∧ ((timed 0 0 []).sourceRank .ptp).isSome = true ∧
     (timed 0 0 []).actsOn .ptp = true) ∧
    ((timed 3 0 []).f Reg.TB_STATE_STATE = 3 ∧ ((timed 3 0 []).sourceRank .ptp).isSome = true ∧ (timed 3 0 []).actsOn .ptp = true) ∧
    (¬ (((timed 1 1 []).f Reg.TB_STATE_STATE = 0 ∨ (timed 1 1 []).f Reg.TB_STATE_STATE = 3) ∧
       ((timed 1 1 []).sourceRank .pps).isSome = true ∧ (timed 1 1 []).actsOn .pps = true) ∧
     (timed 1 1 []).f Reg.TB_STATE_SOURCE = 1 ∧ (timed 1 1 []).aon.keeperUp = true ∧
     ¬ (((timed 1 1 []).f Reg.TB_STATE_STATE = 0 ∨ (timed 1 1 []).f Reg.TB_STATE_STATE = 3) ∧
       ((timed 1 1 []).sourceRank .ptp).isSome = true)) ∧
    ¬ ((timed 0 0 []).f Reg.TB_STATE_SOURCE = sourceNum .ptp ∧
       ((timed 0 0 []).f Reg.TB_STATE_STATE = 1 ∨ (timed 0 0 []).f Reg.TB_STATE_STATE = 2) ∧ (timed 0 0 []).actsOn .ptp = true) ∧
    ((timed 2 1 []).f Reg.TB_STATE_SOURCE = sourceNum .ptp ∧ (timed 2 1 []).f Reg.TB_STATE_STATE = 2 ∧
     (timed 2 1 []).actsOn .ptp = true ∧ (timed 2 1 []).bestSource = none) ∧
    ((timed 1 1 [⟨.refsync, 0, 0, 0⟩]).f Reg.TB_STATE_SOURCE = sourceNum .ptp ∧
     (timed 1 1 [⟨.refsync, 0, 0, 0⟩]).bestSource = some ⟨.refsync, 0, 0, 0⟩) ∧
    ((timed 2 1 []).f Reg.TB_STATE_SOURCE = sourceNum .ptp ∧ (timed 2 1 []).sourceRank .ptp = some 0 ∧
     (timed 2 1 []).sourceRank .refsync = some 1 ∧ (timed 1 1 []).aon.keeperUp = true) ∧
    (State.reset.aon.keeperUp = false ∧ State.reset.f Reg.TB_STATE_SOURCE ≠ 4 ∧ (timed 1 4 []).f Reg.TB_STATE_SOURCE = 4) := by
  unfold State.Up; decide +kernel

/-- Its last clause on sources. -/
theorem witness_TimeSourcesAndMeasurement_revert :
    (timed 2 2 []).Up ∧ (timed 2 2 []).sourceRank .ptp = some 0 ∧ (timed 2 2 []).f Reg.TB_SRC_CFG_REVERT_S ≠ 0 ∧
    (timed 2 2 []).f Reg.TB_STATE_STATE ≠ 0 ∧ (timed 2 2 []).f Reg.TB_STATE_SOURCE ≠ sourceNum .ptp ∧
    (timed 2 2 []).actsOn .ptp = true ∧
    (∀ y j, sourceNum y = (timed 2 2 []).f Reg.TB_STATE_SOURCE → (timed 2 2 []).sourceRank y = some j → 0 < j) := by
  refine ⟨rfl, by decide +kernel, by decide +kernel, by decide +kernel, by decide +kernel, by decide +kernel, fun y j h k => ?_⟩
  have e : (timed 2 2 []).sourceRank .refsync = some 1 := by decide +kernel
  cases y
  · exact absurd h (by decide +kernel)
  · rw [e] at k; cases k; decide
  · exact absurd h (by decide +kernel)
  · exact absurd h (by decide +kernel)

theorem witness_FclkTickAndReferenceStarts :
    State.reset.Up ∧ State.reset.time.ops = [] ∧ State.reset.bus.blocked = [] ∧
    (let s : State := { State.reset with time := { State.reset.time with ops := [(0, .step (-1))], dt := 2 ^ 48 } }
     s.Up ∧ s.time.ops = [(0, .step (-1))] ∧
     (0 : Int) ≤ ((s.time.dt + s.time.incr) % (2 ^ 48 * 10 ^ 9 * 2 ^ 48) : Nat) + -1 * (2 ^ 32 : Nat)) ∧
    (let s := rastered { mode := .run, tim := tiny }
     s.Up ∧ s.timingRuns (0 : Fin 16) = true ∧ isReady (s.raster (0 : Fin 16)) = false ∧ s.startsMove = false ∧
     (∀ x ∈ s.blits, x.2.todo = []) ∧ (∀ p : Fin 128, (s.port p).hostWait = [] ∧ (s.port p).traceWait = []) ∧ s.serv.mmacWait = []) ∧
    (let s : State := { rastered { mode := .ready 3 } with time := { State.reset.time with ops := [(0, .set 0)] } }
     isReady (s.raster (0 : Fin 16)) = true ∧ s.startsMove = true ∧
     s.frameNear (s.startTiming (0 : Fin 16)) 0 = some 0 ∧ s.frameNear (s.startTiming (0 : Fin 16)) (10 ^ 9) = none) ∧
    (let s : State := { rastered { mode := .hit 3 } with time := { State.reset.time with ops := [(0, .set 0)] } }
     (s.raster (0 : Fin 16)).mode = .hit 3 ∧ s.startsMove = true ∧ isReady (s.raster (0 : Fin 16)) = false) := by
  unfold State.Up; decide +kernel

theorem witness_FclkTickAndReferenceStarts_starts :
    (State.reset.Up ∧ State.reset.time.newLine = false ∧ State.reset.time.newFrame = false) ∧
    (let s := { State.reset with time := { State.reset.time with newLine := true }, ports := [(127, { align := 1 })] }.setF (Reg.GATE_CTRL_EN 127) 1
     s.Up ∧ s.time.newLine = true ∧ (s.port (127 : Fin 128)).align = 1 ∧ s.fb (Reg.GATE_CTRL_EN (127 : Fin 128)) = true ∧
     s.cycleDue (127 : Fin 128) = some 0) ∧
    (let s := { State.reset with time := { State.reset.time with newFrame := true }, ports := [(127, { align := 2 })] }.setF (Reg.GATE_CTRL_EN 127) 1
     s.Up ∧ s.time.newFrame = true ∧ (s.port (127 : Fin 128)).align = 2 ∧ s.fb (Reg.GATE_CTRL_EN (127 : Fin 128)) = true ∧
     s.cycleDue (127 : Fin 128) = some 0) ∧
    (let s := withF [(Reg.BTL_ECHO_CFG_AUTO 0, 1), (Reg.BTL_ECHO_CFG_PERIOD 0, 1)] { active 1 (portIn 1) with time := { State.reset.time with newFrame := true } }
     s.Up ∧ s.time.newFrame = true ∧ s.fb (Reg.BTL_ECHO_CFG_AUTO (0 : Fin 128)) = true ∧ s.role (0 : Fin 128) = 1 ∧
     max 1 (s.f (Reg.BTL_ECHO_CFG_PERIOD (0 : Fin 128))) ≤ (s.port (0 : Fin 128)).roundFrames + 1 ∧
     (s.port (0 : Fin 128)).echo = none ∧ (s.port (0 : Fin 128)).round = []) ∧
    (let s := withF [(Reg.BTL_ECHO_CFG_AUTO 0, 1), (Reg.BTL_ECHO_CFG_PERIOD 0, 2)] { active 1 (portIn 1) with time := { State.reset.time with newFrame := true } }
     s.Up ∧ s.time.newFrame = true ∧ s.role (0 : Fin 128) = 1 ∧
     (s.port (0 : Fin 128)).roundFrames + 1 < max 1 (s.f (Reg.BTL_ECHO_CFG_PERIOD (0 : Fin 128)))) := by
  unfold State.Up; decide +kernel

/-- BEACONs, HEARTBEATs and STATUS frames of a line. -/
theorem witness_FclkTickAndReferenceStarts_lines :
    (let s := withF [(Reg.CRU_SHARED_SIZE, 100)] (mapped { both 1 { mode := .run, tim := tiny } with time := { State.reset.time with newLine := true } })
     s.Up ∧ s.time.newLine = true ∧ s.portRasters (0 : Fin 128) = [0] ∧ s.timingRuns (0 : Fin 16) = true ∧
     hitWaits (s.raster 0) = false ∧ s.role (0 : Fin 128) = 1 ∧ s.chain.boot ≠ some (0 : Fin 128).val ∧
     17 ≤ s.f Reg.CRU_FREE_FREE ∧ 17 ≤ s.cruSize - s.f Reg.CRU_SHARED_IN_USE ∧ s.fb (Reg.GATE_CTRL_EN (0 : Fin 128)) = false ∧
     (s.port (0 : Fin 128)).queues.length = 8 ∧
     (∀ p : Fin 128, p ≠ 0 → s.role p ≠ 1)) ∧
    (let s := withF [(Reg.CHAIN_STATE_ROLE, 1), (Reg.CHAIN_LINK_KIND 0, 1)] { worker with time := { State.reset.time with newLine := true } }
     s.Up ∧ s.time.newLine = true ∧ s.joinedPorts 0 = (0 : Fin 128).val :: [] ∧ s.chain.boot = none ∧ s.chainRole = 1 ∧
     0 ∈ s.upLinks 1 ++ s.upLinks 2) ∧
    (let s : State := { worker with time := { State.reset.time with newLine := true } }
     s.Up ∧ s.time.newLine = true ∧ s.joinedPorts 0 = (0 : Fin 128).val :: [] ∧ s.chain.boot = none ∧ s.chainRole = 3 ∧
     0 ∈ s.upLinks 0 ++ s.upLinks 3) ∧
    (let s : State := withF [(Reg.CHAIN_STATE_ROLE, 3), (Reg.CHAIN_LINK_KIND 0, 3)]
       { State.reset with chain := { State.reset.chain with boot := some 0, joined := [0] }, time := { State.reset.time with newLine := true } }
     s.Up ∧ s.time.newLine = true ∧ s.joinedPorts 0 = (0 : Fin 128).val :: [] ∧ s.chain.boot = some (0 : Fin 128).val ∧
     s.hasIngot = false ∧ s.role (0 : Fin 128) ≠ 1 ∧ s.chainRole ≠ 1 ∧ 0 ∈ s.upLinks 0 ++ s.upLinks 3) := by
  unfold State.Up; decide +kernel

/-! ### Rasters, layer engines, cues and commits -/

/-- Live fields. -/
def withLf (l : List (Fld × Nat)) (s : State) : State := l.foldl (fun t x => t.setLf x.1 x.2) s

/-- Device Time in state s. -/
def at_ (dt : Nat) (s : State) : State := { s with time := { s.time with dt := dt } }

/-- Has the ideal start of frame k of raster 0 come (R125)? -/
abbrev Come (s : State) (k : Nat) : Prop :=
  s.idealNum (s.liveTiming (0 : Fin 16)) k ≤ ((s.tq * s.idealDen (s.liveTiming (0 : Fin 16)) : Nat) : Int)

theorem witness_RasterFrames_starts :
    (let s := rastered { mode := .ready 0 }
     s.Up ∧ (s.raster (0 : Fin 16)).mode = .ready 0 ∧ Come s 0) ∧
    (let s := rastered { mode := .unstarted 0 }
     (s.raster (0 : Fin 16)).mode = .unstarted 0 ∧ (s.raster (0 : Fin 16)).notBefore ≤ s.fclk ∧ Come s 0) ∧
    (let s := rastered { mode := .ready 5 }
     (s.raster (0 : Fin 16)).mode = .ready 5 ∧ ¬ Come s 5) ∧
    (∀ k, ((rastered { mode := .wait }).raster (0 : Fin 16)).mode ≠ .ready k ∧
      (((rastered { mode := .wait }).raster (0 : Fin 16)).mode = .unstarted k →
        (rastered { mode := .wait }).fclk < ((rastered { mode := .wait }).raster (0 : Fin 16)).notBefore)) ∧
    (let s := rastered { mode := .unstarted 0, notBefore := 1 }
     (s.raster (0 : Fin 16)).mode = .unstarted 0 ∧ s.fclk < (s.raster (0 : Fin 16)).notBefore) := by
  refine ⟨by unfold State.Up; decide +kernel, by decide +kernel, by decide +kernel, fun k => ⟨nofun, nofun⟩, by decide +kernel⟩

theorem witness_RasterFrames_ends :
    (let s := rastered { mode := .run, tim := tiny, pos := 8 }
     s.Up ∧ (s.raster (0 : Fin 16)).mode = .run ∧ lastPos (s.raster (0 : Fin 16)).tim ≤ (s.raster (0 : Fin 16)).pos ∧
     s.frameNear (s.liveTiming (0 : Fin 16)) s.tq = some 0 ∧ Come s 0) ∧
    (let s := at_ (2 ^ 70) (rastered { mode := .run, tim := tiny, pos := 8 })
     s.frameNear (s.liveTiming (0 : Fin 16)) s.tq = none) ∧
    (let s := rastered { mode := .run, tim := tiny }
     (s.raster (0 : Fin 16)).mode = .run ∧ (s.raster (0 : Fin 16)).pos < lastPos (s.raster (0 : Fin 16)).tim) ∧
    (let s := rastered { mode := .hit 5, tim := tiny, pos := 8 }
     s.Up ∧ (s.raster (0 : Fin 16)).mode = .hit 5 ∧ (s.raster (0 : Fin 16)).settling = false ∧
     lastPos (s.raster (0 : Fin 16)).tim ≤ (s.raster (0 : Fin 16)).pos ∧
     s.frameNear (s.liveTiming (0 : Fin 16)) s.tq = some 0) ∧
    (let s := at_ (2 ^ 70) (rastered { mode := .hit 5, tim := tiny, pos := 8 })
     s.frameNear (s.liveTiming (0 : Fin 16)) s.tq = none) := by
  unfold State.Up; decide +kernel

theorem witness_RasterFrames_waits :
    (let s := at_ (2 ^ 76) (rastered { mode := .hit 5, tim := tiny, pos := 8, settling := true })
     s.Up ∧ (s.raster (0 : Fin 16)).mode = .hit 5 ∧ (s.raster (0 : Fin 16)).settling = true ∧
     lastPos (s.raster (0 : Fin 16)).tim ≤ (s.raster (0 : Fin 16)).pos ∧ (s.waitFrame (0 : Fin 16)).isSome = true) ∧
    (let s := at_ (2 ^ 76) (rastered { mode := .wait })
     s.Up ∧ (s.raster (0 : Fin 16)).mode = .wait ∧ (s.waitFrame (0 : Fin 16)).isSome = true) ∧
    (rastered { mode := .wait, waitFrom := 1 }).waitFrame (0 : Fin 16) = none := by
  unfold State.Up; decide +kernel

/-- Raster 0 at its STP, before a frame with sub-frame index 0. -/
def atStp0 : State := rastered { mode := .run, tim := tiny, pos := 4 }

/-- A commit of unit u, registered one FCLK ago. -/
def committed (u : Nat) (s : State) : State :=
  withF [(Reg.CUE_COMMIT_PENDING_MASK, 2 ^ u), (Reg.CUE_COMMIT_STATUS_SEQ 1, 1)]
    { s with fclk := 1, commits := [{ seq := 1, units := 2 ^ u, fclk := 0 }] }

/-- What Landing asks of a commit that lands alone with the units us. -/
abbrev Lands (us : List Nat) (s : State) : Prop :=
  us ≠ [] ∧ s.commits = [{ seq := 1, units := 2 ^ us.head!, fclk := 0 }] ∧ (∀ u ∈ unitsOf (2 ^ us.head!), u ∈ us) ∧
  s.f (Reg.CUE_COMMIT_STATUS_SEQ (1 % 256)) = 1

theorem witness_ShadowTransferPoint :
    (let s := rastered { mode := .run, tim := tiny, pos := 4, stpDone := true }
     s.Up ∧ (s.raster (0 : Fin 16)).stpDone = true) ∧
    (let s := rastered { mode := .run, tim := tiny }
     s.Up ∧ (s.raster (0 : Fin 16)).mode = .run ∧ (s.raster (0 : Fin 16)).stpDone = false ∧
     (s.raster (0 : Fin 16)).pos < ((s.raster (0 : Fin 16)).tim.vTotal - (s.raster (0 : Fin 16)).tim.fetchLead) *
       (s.raster (0 : Fin 16)).tim.hTotal) ∧
    (atStp0.Up ∧ (atStp0.raster (0 : Fin 16)).mode = .run ∧ (atStp0.raster (0 : Fin 16)).stpDone = false ∧
     ((atStp0.raster (0 : Fin 16)).tim.vTotal - (atStp0.raster (0 : Fin 16)).tim.fetchLead) * (atStp0.raster (0 : Fin 16)).tim.hTotal ≤
       (atStp0.raster (0 : Fin 16)).pos ∧
     atStp0.f Reg.CUE_COMMIT_PENDING_MASK = 0 ∧ atStp0.swap = [] ∧ atStp0.f Reg.INGOT_ACTIVE_SWAP_PENDING = 0 ∧
     (∀ n : Fin 32, atStp0.lf (Reg.LE_SOURCE_SRC n) = 0) ∧ atStp0.lf (Reg.ORS_HOLD_CFG_HOLD_EN (0 : Fin 16)) = 0) ∧
    (let s := withF [(Reg.ORS_IDLE_CLEAN 0, 4)] (withLf [(Reg.ORS_HOLD_CFG_HOLD_EN 0, 1), (Reg.ORS_HOLD_CFG_HOLD_AFTER 0, 5)] atStp0)
     s.lf (Reg.ORS_HOLD_CFG_HOLD_EN (0 : Fin 16)) = 1 ∧ (s.raster (0 : Fin 16)).forceDirty = false ∧
     (∀ n : Fin 32, (s.engine n).dirty = []) ∧
     s.lf (Reg.ORS_HOLD_CFG_HOLD_AFTER (0 : Fin 16)) ≤ min 65535 (s.f (Reg.ORS_IDLE_CLEAN (0 : Fin 16)) + 1)) := by
  unfold State.Up; decide +kernel

/-- A landing that succeeds, and one of an ORS whose shadowed registers are illegal. -/
theorem witness_ShadowTransferPoint_landing :
    ∀ u ∈ [0, 40], (committed u atStp0).canonical = true ∧ (committed u atStp0).swap = [] ∧
      (committed u atStp0).duePending = [u] ∧ (committed u atStp0).governor u = some (0 : Fin 16).val ∧
      (committed u atStp0).groupOf (committed u atStp0).slot (0 : Fin 16) = [0] ∧
      Lands [u] (committed u atStp0) ∧ (State.causeOf (committed u atStp0) [u] true = 0 ↔ u = 0) := by decide +kernel

/-- LE0 shows the ring of flow 0, whose surface 0 is complete since an earlier FCLK. -/
theorem witness_ShadowTransferPoint_ring :
    (let s := withLf [(Reg.LE_SOURCE_SRC 0, 1)]
       { atStp0 with fclk := 1, flows := [(0, { surfs := [(0, { mode := 2, order := 0 })] })] }
     s.duePending = [] ∧ s.swap = [] ∧ s.governor (0 : Fin 32) = some (0 : Fin 16).val ∧
     s.lfb (Reg.LE_SOURCE_SRC (0 : Fin 32)) = true ∧
     ((s.raster (0 : Fin 16)).frame + 1) % max 1 (s.raster (0 : Fin 16)).tim.sub = 0 ∧
     ((Tab.get s.flows (s.lf (Reg.LE_SOURCE_FLOW (0 : Fin 32))) {}).surfs.filter fun x =>
        x.2.mode == 2 && decide (x.2.p ≤ ((s.raster (0 : Fin 16)).frame + 1) / max 1 (s.raster (0 : Fin 16)).tim.sub) &&
          decide (x.2.doneAt < s.fclk)).length = 1) := by decide +kernel

/-- A swap's change for ORS0 waits, with new timing and without, at an STP before sub-frame 0 and before another. -/
theorem witness_ShadowTransferPoint_swap :
    ∀ sub ∈ [1, 4], ∀ reload ∈ [true, false],
      (let s := withF [(Reg.INGOT_ACTIVE_SWAP_PENDING, 1)]
         { (rastered { mode := .run, tim := { tiny with sub := sub }, pos := 4 }) with swap := [(0, .land reload)] }
       s.duePending = [] ∧ s.swap = [((0 : Fin 16).val, .land reload)] ∧ s.groupOf s.slot (0 : Fin 16) = [(0 : Fin 16).val] ∧
       s.f Reg.INGOT_ACTIVE_SWAP_PENDING = 1 ∧
       (((s.raster (0 : Fin 16)).frame + 1) % max 1 (s.raster (0 : Fin 16)).tim.sub = 0 ↔ sub = 1)) := by decide +kernel

/-- Tile Map entry 0 as a frame uses it: two pixels of line 0 for tile 7 on port 0. -/
def entry0 : MapEntry :=
  { idx := 0, w0 := 2 * 2 ^ 32 + 2 ^ 48, w1 := 2 ^ 63 + 7 }

/-- ORS0 runs a sent frame with entry 0, and port 0 is EGRESS. -/
def sending (pos : Nat) : State :=
  mapped (both 1 { mode := .run, tim := tiny, sentCur := true, entCur := [entry0], pos := pos })

theorem witness_ScanOut_line :
    (let s := (sending 0).setF (Reg.CRU_FREE_FREE) 24576
     s.Up ∧ (s.raster (0 : Fin 16)).mode = .run ∧ (s.raster (0 : Fin 16)).sentCur = true ∧
     (s.raster (0 : Fin 16)).thermal = false ∧ (s.raster (0 : Fin 16)).composed < (s.raster (0 : Fin 16)).tim.vActive ∧
     (s.raster (0 : Fin 16)).composed * (s.raster (0 : Fin 16)).tim.hTotal ≤ (s.raster (0 : Fin 16)).pos ∧
     (∀ e ∈ (s.raster (0 : Fin 16)).entCur, s.poisoned (0xE800100000 + 16 * e.idx) 16 = false ∧ e.y ≤ 0 ∧ 0 < e.y + e.h ∧
       e.inside (s.raster (0 : Fin 16)).tim = true) ∧
     ((s.raster (0 : Fin 16)).entCur.map MapEntry.idx).Nodup ∧ s.fb (Reg.GATE_CTRL_EN (0 : Fin 128)) = false ∧
     (s.port (0 : Fin 128)).queues.length = 8 ∧ s.role (0 : Fin 128) = 1) ∧
    (let s := { sending 0 with poison := [0xE800100000] }
     ∀ e ∈ (s.raster (0 : Fin 16)).entCur, 0xE800100000 + 16 * e.idx ∈ s.poison ∧
       s.poisoned (0xE800100000 + 16 * e.idx) 16 = true) := by
  unfold State.Up; decide +kernel

/-- The packets of the line, two pixels on port 0, take fewer Billets than a reservation and the Crucible hold. -/
theorem witness_ScanOut_packets :
    (let s := withF [(Reg.CRU_FREE_FREE, 24576), (Reg.CRU_PORT_RESERVE 0, 100)] (sending 0)
     let px := ((s.planTo 0 0).lineOf 0 0).px
     ((s.runFrames 0 entry0 0 0 ((px.drop 0).take 2)).map fun x => billetsOf x.length).sum ≤
       s.f (Reg.CRU_PORT_RESERVE (0 : Fin 128)) - s.f (Reg.CRU_PORT_HELD (0 : Fin 128)) ∧
     s.f (Reg.CRU_PORT_HELD (0 : Fin 128)) = 0 ∧ (s.runFrames 0 entry0 0 0 ((px.drop 0).take 2)).length = 1) := by
  decide +kernel

/-- The send position of a frame, on one port that the Crucible has room for, and on one that it has not. -/
theorem witness_ScanOut_send :
    (let s := withF [(Reg.CRU_FREE_FREE, 24576), (Reg.CRU_SHARED_SIZE, 1000)] (sending 4)
     s.Up ∧ s.timingRuns (0 : Fin 16) = true ∧ (s.raster (0 : Fin 16)).sendDone = false ∧
     (s.raster (0 : Fin 16)).tim.sendLine * (s.raster (0 : Fin 16)).tim.hTotal ≤ (s.raster (0 : Fin 16)).pos ∧
     s.latchPorts (0 : Fin 16) = [(0 : Fin 128).val] ∧
     (s.flushLate (0 : Fin 16) (s.raster (0 : Fin 16)).frame (0 : Fin 128)).cruAdmits (0 : Fin 128) 1 true = true ∧
     (∀ k ∈ s.latchPorts (0 : Fin 16), ∀ q ∈ (s.port k).queues.take 5, ∀ y ∈ q,
       y.kind ≠ .pixel (0 : Fin 16) (s.raster (0 : Fin 16)).frame) ∧
     (s.latchPorts (0 : Fin 16)).length ≤ s.f Reg.CRU_FREE_FREE ∧
     (s.latchPorts (0 : Fin 16)).length ≤ s.cruSize - s.f Reg.CRU_SHARED_IN_USE) ∧
    (let s := (sending 4).setF Reg.CRU_FREE_FREE 0
     s.latchPorts (0 : Fin 16) = [(0 : Fin 128).val] ∧
     (s.flushLate (0 : Fin 16) (s.raster (0 : Fin 16)).frame (0 : Fin 128)).cruAdmits (0 : Fin 128) 1 true = false) := by
  unfold State.Up; decide +kernel

theorem witness_LayerEngineAndLutCommands :
    (State.reset.Up ∧ State.reset.passes keeper (Reg.LE_TOUCH (31 : Fin 32)) .w32 true = true ∧
     State.reset.passes keeper (Reg.LE_TOL_MIN_RESTART (31 : Fin 32)) .w32 true = true ∧
     State.reset.passes keeper (Reg.ORS_UNDER_RESTART (15 : Fin 16)) .w32 true = true ∧
     State.reset.passes keeper (Reg.LE_DECODE_LOAD (31 : Fin 32)) .w32 true = true ∧
     State.reset.passes keeper (Reg.BC_ENCODE_LOAD (7 : Fin 8)) .w32 true = true) ∧
    (let b : Burst := ⟨{ ras := 0, pass := 0, row := 0, addr := 256, line := 0 }, List.replicate 256 0, false⟩
     let s := { State.reset with engines := [(31, { asked := [b] })] }
     s.Up ∧ (s.engine (31 : Fin 32)).asked.find?
       (fun b => b.span.ras == (0 : Fin 16).val && b.span.addr == (256 : Addr).toNat / 256 * 256) = some b) ∧
    (State.reset.engine (31 : Fin 32)).asked.find?
       (fun b => b.span.ras == (0 : Fin 16).val && b.span.addr == (256 : Addr).toNat / 256 * 256) = none ∧
    (let s := { State.reset with engines := [(0, { fill := some ⟨4, 1000, 0⟩ })], encFill := [(7, ⟨4, 1000, 1⟩)] }
     s.Up ∧ (s.engine (0 : Fin 32)).fill = some ⟨4, 1000, 0⟩ ∧ Tab.find s.encFill (7 : Fin 8) = some ⟨4, 1000, 1⟩ ∧
     (⟨4, 1000, 1⟩ : Fill).set < 2) := by
  unfold State.Up; decide +kernel

/-- ORS0 composes LE0, bound to its cluster, in slot 0: a surface of two pixels in a format, whose bytes are in the line buffer
or not. -/
def layered (fmt : Nat) (held : Bool) : State :=
  withLf [(Reg.LE_CTRL_EN 0, 1), (Reg.MESH_DST_SIZE_DW 0, 2), (Reg.MESH_DST_SIZE_DH 0, 1), (Reg.LE_SURF_SIZE_WIDTH 0, 2),
      (Reg.LE_SURF_SIZE_HEIGHT 0, 1), (Reg.LE_SURF_STRIDE_STRIDE 0, 1), (Reg.LE_SURF_FMT_FORMAT 0, fmt),
      (Reg.MESH_FLAT_STEP_U_STEP 0, 65536), (Reg.MESH_FLAT_STEP_V_STEP 0, 65536), (Reg.BC_LAYER_EN 0 0, 1),
      (Reg.ORS_HTIME_H_ACTIVE 0, 2), (Reg.ORS_VTIME_V_ACTIVE 0, 1)]
    { rastered { mode := .run, tim := tiny } with
      engines := if held then [(0, { buf := [(0, List.replicate 256 0x55)] })] else [] }

/-- A line with a layer that has its sample, and one whose layer misses it. -/
theorem witness_ComposedPixel :
    (let s := layered 1 true
     let r := s.raster (0 : Fin 16)
     1 < r.tim.hActive ∧ (s.lineOf (0 : Fin 16) 0).under = none ∧ (s.layersOf (0 : Fin 16) r.plan).length = 1) ∧
    (let s := layered 1 false
     let r := s.raster (0 : Fin 16)
     0 < r.tim.hActive ∧ ((s.lineOf (0 : Fin 16) 0).under.map Prod.fst) = some 0) := by decide +kernel

/-- A flat mesh that copies a surface of an integer format, and one of format 0x0A. -/
theorem witness_ComposedPixel_copy :
    ∀ fmt ∈ [1, 10],
      (let s := layered fmt true
       let g := s.meshCfg s.slot 0 0
       let f := s.regSurf 0
       g.inside 1 0 = true ∧ g.copyU = true ∧ g.copyV = true ∧ ((1 : Nat) : Int) = g.u0 / 512 + (1 - g.x0 : Nat) ∧
       ((0 : Nat) : Int) = g.v0 / 512 + (0 - g.y0 : Nat) ∧ 1 < f.width ∧ 0 < f.height ∧
       (bufPx (s.engine 0) 0 f (fun _ => true) 1 0).isSome = true ∧ f.fmt = fmt ∧
       s.lf (Reg.LE_COLOUR_CTRL_CSC g.n) = 0 ∧ s.lfb (Reg.LE_COLOUR_CTRL_DECODE g.n) = false) := by decide +kernel

/-- A table mesh of one cell of 4 by 4 pixels. -/
def cell : MeshCfg :=
  { n := 0, ras := 0, x0 := 0, y0 := 0, dw := 4, dh := 4, table := true, g := 4, first := 0, pitch := 2, u0 := 0, v0 := 0,
    stepU := 0, stepV := 0, edgeH := 0, edgeV := 0, t1 := 0, t2 := 0, t3 := 0 }

/-- Its four vertices as LE0 has read them, the last one valid or not. -/
def cornered (last : Nat) : State :=
  { State.reset with engines := [(0, { grid := [(0, 2 ^ 63, false), (1, 2 ^ 63 + 2048, false), (2, 2 ^ 63, false),
      (3, BitVec.ofNat 64 (last * 2 ^ 63), false)] })] }

theorem witness_ComposedPixel_table :
    cell.table = true ∧ cell.inside 3 3 = true ∧ 0 < cell.g ∧
    ∀ last ∈ [0, 1], ((∀ i, i < 2 → ∀ j, j < 2 →
      ((cornered last).vertex cell.n cell.ras (cell.index ((3 - cell.x0) / cell.g + i) ((3 - cell.y0) / cell.g + j))).valid = true ∧
      ((cornered last).vertex cell.n cell.ras (cell.index ((3 - cell.x0) / cell.g + i) ((3 - cell.y0) / cell.g + j))).hole = false)
        ↔ last = 1) := by decide +kernel

/-- Slot 0 in a cue state, without a cue of its own. -/
def cueIn (state : Nat) : State := State.reset.store (cueEntry 0) (leBytes 8 (state * 2 ^ 60))

theorem witness_CueArmingAndDisarming :
    (State.reset.Up ∧ State.reset.passes keeper Reg.CUE_ARM .w32 true = true) ∧
    ((cueIn 1).Up ∧ (cueIn 1).canonical = true ∧ (cueIn 1).passes keeper Reg.CUE_ARM .w32 true = true ∧
     (cueIn 1).cueState (0 : Fin 8192) = 1) ∧
    (State.reset.cueState (8191 : Fin 8192) ≠ 1 ∧ State.reset.poisoned (cueSlot (8191 : Fin 8192)) 32 = false ∧
     State.reset.cueRefusal (8191 : Fin 8192) = 2) ∧
    (let s : State := { cued 1 1 (active 0 []) with cues := [] }
     s.canonical = true ∧ s.passes keeper Reg.CUE_ARM .w32 true = true ∧ s.cueState (0 : Fin 8192) ≠ 1 ∧
     s.cueRefusal (0 : Fin 8192) = 0 ∧ s.cueChainRefusal (0 : Fin 8192) = 0 ∧
     s.cuePos (s.cueRaster 0) = some ⟨0, 0, 0⟩ ∧ RP.le (s.cueTarget 0) ⟨0, 0, 0⟩ = true ∧ s.cueDiscards 0 = false) ∧
    (let s := cued 1 1 (active 0 [])
     Tab.find s.cues (0 : Fin 8192) = some dueCue ∧ s.comesDue dueCue = true) ∧
    (let x : ArmedCue := { raster := 16, first := 7, f := 7, l := 0, t := 0, period := 0 }
     let s := { cueIn 1 with cues := [(0, x)] }
     s.canonical = true ∧ s.passes keeper Reg.CUE_ARM .w32 true = true ∧ Tab.find s.cues (0 : Fin 8192) = some x ∧
     s.comesDue x = false) := by
  unfold State.Up; decide +kernel

/-- A cue of each action runs. -/
theorem witness_CueActions :
    ∀ a ∈ [1, 2, 4, 5, 6], (cued a 1 (active 0 [])).Up ∧ (cued a 1 (active 0 [])).canonical = true ∧
      CueRuns (0 : Fin 8192) a dueCue (cued a 1 (active 0 [])) := by
  have h : ∀ a ∈ [1, 2, 4, 5, 6], (cued a 1 (active 0 [])).Up ∧ (cued a 1 (active 0 [])).canonical = true ∧
      Runs (0 : Fin 8192) a 0 dueCue (cued a 1 (active 0 [])) := by
    unfold State.Up; decide +kernel
  exact fun a ha => ⟨(h a ha).1, (h a ha).2.1, (h a ha).2.2.cueRuns⟩

/-- A WRITE cue to an address. -/
def writing (a : Nat) : State := (cued 2 0 (active 0 [])).store (cueSlot 0 + 16) (leBytes 5 a)

/-- It writes a word of mailbox 0, which identity 9 sends, is denied, or meets an address that no register has. -/
theorem witness_CueActions_write :
    (∀ a ∈ [Reg.MB_MSG 0 15, Reg.CLASS_FLOOR 0, 0xF0000FFFF0], (writing a).Up ∧ (writing a).canonical = true ∧
      Runs (0 : Fin 8192) 2 0 dueCue (writing a) ∧ (writing a).mute ⟨9, .machine⟩ = false ∧ 16 ≤ dueCue.raster) ∧
    (let s := withF [(Reg.MB_BIND_SENDER 0, 9)] (writing (Reg.MB_MSG 0 15))
     (BitVec.ofNat 40 (s.cueWriteAddr (0 : Fin 8192)) : Addr).toNat = Reg.MB_MSG (0 : Fin 64) (15 : Fin 16) ∧
     s.passes ⟨9, .machine⟩ (Reg.MB_MSG (0 : Fin 64) (15 : Fin 16)) .w32 true = true ∧ s.mbSender (0 : Fin 64) = 9 ∧
     s.mbState (0 : Fin 64) ≠ 1) ∧
    (let s := writing (Reg.CLASS_FLOOR 0)
     s.mute ⟨9, .machine⟩ = false ∧
     s.judge ⟨9, .machine⟩ (BitVec.ofNat 40 (s.cueWriteAddr (0 : Fin 8192)) : Addr).toNat .w32 true = .denied 2) ∧
    (let s := writing 0xF0000FFFF0
     s.mute ⟨9, .machine⟩ = false ∧
     s.judge ⟨9, .machine⟩ (BitVec.ofNat 40 (s.cueWriteAddr (0 : Fin 8192)) : Addr).toNat .w32 true = .error 2) := by
  unfold State.Up; decide +kernel

/-- The mailbox 1 as a cue may signal it. -/
theorem witness_CueActions_signal :
    let s := withF [(Reg.MB_BIND_EN 1, 1), (Reg.MB_BIND_SENDER 1, 9), (Reg.MB_BIND_LOCK_LOCKED, 1)] (cued 5 1 (active 0 []))
    s.cueByte (0 : Fin 8192) % 64 = 1 ∧ s.mbState 1 ≠ 1 ∧
    (∀ k, k < 3 → s.passes ⟨9, .machine⟩ (Reg.MB_MSG 1 k) .w32 true = true) ∧
    s.passes ⟨9, .machine⟩ (Reg.MB_SEND 1) .w32 true = true ∧ s.fb (Reg.MB_BIND_EN 1) = true ∧
    s.fb Reg.MB_BIND_LOCK_LOCKED = true ∧ s.mbSender 1 = 9 := by decide +kernel

theorem witness_CommitRegistrationAndUngovernedLanding :
    (State.reset.Up ∧ State.reset.passes keeper Reg.CUE_COMMIT .w64 true = true ∧
     (State.reset.setF Reg.CUE_COMMIT_NEXT_SEQ 65535).f Reg.CUE_COMMIT_NEXT_SEQ = 65535) ∧
    (worker.Up ∧ worker.canonical = true ∧ worker.joinedPorts (0 : Fin 16) = (0 : Fin 128).val :: [] ∧
     worker.chainRole = 3 ∧ worker.kindOf (0 : Fin 16) = 0 ∧ worker.oldEpoch (0 : BitVec 16).toNat = false ∧
     (⟨0, 8191, none⟩ : CueFrame).wf = true ∧ (⟨0, 7680, some (List.replicate 32 0)⟩ : CueFrame).wf = true) ∧
    State.reset.joinedPorts (15 : Fin 16) = [] := by
  unfold State.Up; decide +kernel

/-- A landing of a unit without a governing raster that succeeds, and one that a cause rejects. -/
theorem witness_UngovernedLanding :
    ∀ u ∈ [33, 41], (committed u (active 1 rasters)).Up ∧ (committed u (active 1 rasters)).canonical = true ∧
      ((committed u (active 1 rasters)).duePending.filter fun u => ((committed u (active 1 rasters)).governor u).isNone) = [u] ∧
      Lands [u] (committed u (active 1 rasters)) ∧ (State.causeOf (committed u (active 1 rasters)) [u] false = 0 ↔ u = 33) := by
  unfold State.Up; decide +kernel

/-! ### Blueri Tile Link and ports -/

/-- Port 0 in a role, with port data. -/
def onPort (role : Nat) (x : Port) : State := { active 1 (portIn role) with ports := [(0, x)] }

/-- A BTL reply to port 0 with a good check value: type, flags, tile, and the bytes from 20 on. -/
def reply (s : State) (ty flags tile len seq : Nat) (payload : List Byte) : List Byte :=
  let body := leBytes 1 (16 + ty) ++ leBytes 1 flags ++ leBytes 2 tile ++ leBytes 2 len ++ leBytes 2 0 ++ leBytes 4 seq ++
    leBytes 4 0 ++ payload
  let pre := if ty = 4 then foldPrefix 0 4 tile 0 (flags % 8) else foldPrefix 0xFF ty tile 0 0
  List.replicate 12 0 ++ beBytes 2 (s.f (Reg.BTL_CFG_ETHERTYPE 0)) ++ body ++ leBytes 4 (s.checkValue 0 (pre ++ body)) ++
    List.replicate 16 0

/-- A CTRL transaction to tile 7 with SEQ 5. -/
def ctrl7 : Ctrl := { tile := 7, seq := 5, addr := 0, payload := [], tries := 1 }

theorem witness_ControlTransactions :
    (let s := onPort 1 {}
     s.Up ∧ s.passes keeper (Reg.BTL_CTRL_SEND (0 : Fin 128)) .w32 true = true ∧
     ((s.port (0 : Fin 128)).ctrl.getD 0 none).isSome = false ∧ s.role (0 : Fin 128) = 1 ∧
     bits (0x00100007 : Half).toNat 20 16 = 16 ∧ bits (0x00100007 : Half).toNat 15 0 = 7) ∧
    (let s := onPort 1 { ctrl := [some ctrl7, none] }
     (s.port (0 : Fin 128)).ctrl.getD (0 : Fin 2) none = some ctrl7 ∧
     (s.classify (0 : Fin 128) (reply s 7 0 7 0 5 []) = .cack ∧ leAt (reply s 7 0 7 0 5 []) 16 2 = 7 ∧
      leAt (reply s 7 0 7 0 5 []) 22 4 = 5)) ∧
    (let s := onPort 1 { ctrl := [none, some { ctrl7 with tries := 9 }] }
     (s.port (0 : Fin 128)).ctrl.getD (1 : Fin 2) none = some { ctrl7 with tries := 9 } ∧
     s.f (Reg.BTL_CTRL_CFG_RETRIES (0 : Fin 128)) < 9 ∧ (s.port (0 : Fin 128)).delays = []) := by
  unfold State.Up; decide +kernel

theorem witness_Echoes :
    (let s := onPort 1 { echo := some { tile := 7, seq := 5, t1 := some 0 } }
     s.Up ∧ s.passes keeper (Reg.BTL_ECHO_REQ (0 : Fin 128)) .w32 true = true ∧
     s.classify (0 : Fin 128) (reply s 4 64 7 32 5 (List.replicate 32 0)) = .reply ∧
     leAt (reply s 4 64 7 32 5 (List.replicate 32 0)) 22 4 = 5 ∧ (s.port (0 : Fin 128)).round = [] ∧
     s.fb (Reg.BTL_ECHO_CFG_AUTO (0 : Fin 128)) = false ∧
     0 ≤ echoTwice 0 (s.rxTq (0 : Fin 128) (reply s 4 64 7 32 5 (List.replicate 32 0)))
       (reply s 4 64 7 32 5 (List.replicate 32 0)) / 512) ∧
    (let s := (onPort 1 {}).setF (Reg.BTL_ECHO_CFG_AUTO 0) 1
     s.fb (Reg.BTL_ECHO_CFG_AUTO (0 : Fin 128)) = true ∧ s.role (0 : Fin 128) = 1 ∧ (s.port (0 : Fin 128)).echo = none ∧
     (s.port (0 : Fin 128)).round = []) ∧
    (let s := onPort 1 {}
     s.fb (Reg.BTL_ECHO_CFG_AUTO (0 : Fin 128)) = false ∧ (s.port (0 : Fin 128)).echo.isSome = false ∧ s.role (0 : Fin 128) = 1) := by
  unfold State.Up; decide +kernel

/-- A reply in a round under AUTO 1, with channel 1 free and busy; and a timeout in the same state. -/
theorem witness_Echoes_round :
    ∀ c ∈ [none, some { ctrl7 with seq := 2 ^ 31 }],
      (let s := (onPort 1 { echo := some { tile := 7, seq := 5, t1 := some 0 }, round := [8], ctrl := [none, c] }).setF
         (Reg.BTL_ECHO_CFG_AUTO 0) 1
       s.classify (0 : Fin 128) (reply s 4 64 7 32 5 (List.replicate 32 0)) = .reply ∧
       s.fb (Reg.BTL_ECHO_CFG_AUTO (0 : Fin 128)) = true ∧ (s.port (0 : Fin 128)).round = 8 :: [] ∧
       ((s.port (0 : Fin 128)).ctrl.getD 1 none).isNone = c.isNone ∧
       (s.port (0 : Fin 128)).delays ++ [(7, 0)] = (7, 0) :: []) := by decide +kernel

theorem witness_TileReports :
    (let s := onPort 1 { test := some { tile := 7, count := 1, len := 64, seqs := [1] } }
     s.Up ∧ s.classify (0 : Fin 128) (reply s 8 0 7 32 5 (List.replicate 32 0)) = .stat ∧
     s.sourceStalled 14 = false ∧ (s.port (0 : Fin 128)).hostWait = [] ∧ s.ringFull (0 : Fin 128) = true ∧
     s.classify (0 : Fin 128) (reply s 9 64 7 64 1 (testPayload 1 64)) = .test ∧
     leAt (reply s 9 64 7 64 1 (testPayload 1 64)) 22 4 ∈ [1] ∧ leAt (reply s 9 64 7 64 1 (testPayload 1 64)) 16 2 = 7 ∧
     s.classify (0 : Fin 128) (reply s 9 0 7 64 1 (testPayload 1 64)) = .own ∧
     s.classify (0 : Fin 128) (reply s 10 0 7 64 1 (testPayload 1 64)) = .bad ∧
     s.classify (0 : Fin 128) (List.replicate 64 0) = .other) ∧
    (let s := withF [(Reg.HRX_CFG_EN 0, 1), (Reg.HRX_CFG_SLOTS 0, 2)] (onPort 1 {})
     s.ringFull (0 : Fin 128) = false) ∧
    (let s : State := { onPort 1 {} with chans := [(0, { waiters := [(.core, { src := 14, addr := 0 })] })] }
     s.sourceStalled 14 = true ∧ s.classify (0 : Fin 128) (reply s 8 0 7 32 5 (List.replicate 32 0)) = .stat) ∧
    (let s := onPort 1 {}
     s.passes keeper (Reg.BTL_TEST (0 : Fin 128)) .w32 true = true ∧ s.role (0 : Fin 128) = 1 ∧
     (s.port (0 : Fin 128)).test.isSome = false ∧ bits (0xFF800007 : Half).toNat 23 16 * 64 = 8192) := by
  unfold State.Up; decide +kernel

/-- A host frame of 60 bytes. -/
def host60 : Frame := { kind := .host, body := List.replicate 60 1 }

/-- Port 0 as an up link. -/
def up (x : Port) : State := (onPort 1 x).setF (Reg.PORT_LINK_LINK_UP 0) 1

/-- The same with the transmit injector set to an action on every HOST frame. -/
def faulty (act : Nat) (s : State) : State :=
  withF [(Reg.FI_CFG_EN 0 0, 1), (Reg.FI_CFG_ACTION 0 0, act), (Reg.FI_N_N 0 0, 1), (Reg.FI_SEL_TYPES 0 0, 0xFFFF),
    (Reg.FI_SEL_QUEUES 0 0, 0xFF)] s

theorem witness_PortTransmission_due :
    ((onPort 1 { tx := some ⟨host60, 5, [], 0⟩ }).Up ∧
     ((onPort 1 { tx := some ⟨host60, 5, [], 0⟩ }).port (0 : Fin 128)).tx.isSome = true) ∧
    (∀ act ∈ [0, 1, 4], (let s := faulty act (up { due := [host60] })
      s.Up ∧ (s.port (0 : Fin 128)).tx = none ∧ s.linkUp (0 : Fin 128) = true ∧ (s.port (0 : Fin 128)).due = host60 :: [] ∧
      (s.judgeHeads (0 : Fin 128)).injectedInto (0 : Fin 128) 7 host60 = some act)) ∧
    (let s := onPort 1 { due := [host60] }
     s.Up ∧ (s.port (0 : Fin 128)).tx = none ∧ s.linkUp (0 : Fin 128) = false ∧ (s.port (0 : Fin 128)).due = host60 :: []) := by
  unfold State.Up; decide +kernel

/-- A queue alone with a frame. -/
def alone (q : Nat) (s : State) : State := s.setPort 0 { s.port 0 with queues := (List.replicate 8 []).set q [host60] }

/-- What there is to decide of a port whose only frame stands in Q5. -/
abbrev OnlyQ5 (s : State) : Prop :=
  s.Up ∧ (s.port (0 : Fin 128)).tx = none ∧ (s.port (0 : Fin 128)).due = [] ∧
  (s.judgeHeads (0 : Fin 128)).eligible (0 : Fin 128) 5 = true ∧
  (∀ j : Fin 8, 5 < j.val → (s.judgeHeads (0 : Fin 128)).eligible (0 : Fin 128) j = false) ∧
  (s.judgeHeads (0 : Fin 128)).headOf (0 : Fin 128) 5 = some host60

theorem OnlyQ5.chosen {s : State} (h : OnlyQ5 s) : (s.judgeHeads (0 : Fin 128)).Chosen (0 : Fin 128) 5 0 :=
  .inl ⟨by decide, by decide, rfl, h.2.2.2.1, fun j hj hk => h.2.2.2.2.1 ⟨j, hk⟩ hj⟩

/-- The same of Q0, whose frame fits one quantum. -/
abbrev OnlyQ0 (s : State) : Prop :=
  s.Up ∧ (s.port (0 : Fin 128)).tx = none ∧ (s.port (0 : Fin 128)).due = [] ∧
  (let u := s.judgeHeads (0 : Fin 128)
   u.eligible (0 : Fin 128) 0 = true ∧ (∀ j : Fin 8, 5 ≤ j.val → u.eligible (0 : Fin 128) j = false) ∧
   (u.port (0 : Fin 128)).granted = false ∧ u.turnOf (0 : Fin 128) = 0 ∧ u.headOf (0 : Fin 128) 0 = some host60 ∧
   u.txLength (0 : Fin 128) host60 ≤ min (u.f (Reg.QUEUE_COUNTS_DEFICIT (0 : Fin 128) 0) + 1 * u.quantum (0 : Fin 128) 0) 0xFFFFFFFF)

theorem OnlyQ0.chosen {s : State} (h : OnlyQ0 s) : (s.judgeHeads (0 : Fin 128)).Chosen (0 : Fin 128) 0 1 := by
  obtain ⟨-, -, -, he, hj, hg, ht, hh, hl⟩ := h
  refine .inr ⟨by decide, fun j a b => hj ⟨j, b⟩ a, .inr ⟨fun x => ?_, by decide, ⟨he, host60, hh, hl⟩, fun j _ n hn _ => ?_⟩⟩
  · rw [hg] at x; exact absurd x.1 (by decide)
  · simp only [State.place, ht, hg, Bool.false_eq_true, if_false]; omega

theorem witness_PortTransmission_queues :
    (∀ act ∈ [0, 1, 4], (let s := faulty act (alone 5 (up {}))
      OnlyQ5 s ∧ s.linkUp (0 : Fin 128) = true ∧ (s.judgeHeads (0 : Fin 128)).injectedInto (0 : Fin 128) 5 host60 = some act)) ∧
    (OnlyQ0 (alone 0 (up {})) ∧ (alone 0 (up {})).linkUp (0 : Fin 128) = true) ∧
    (OnlyQ5 (alone 5 (onPort 1 {})) ∧ (alone 5 (onPort 1 {})).linkUp (0 : Fin 128) = false) := by
  unfold OnlyQ5 OnlyQ0 State.Up; decide +kernel

theorem witness_PortTransmission_others :
    (let s := alone 0 (up {})
     (∀ j : Fin 5, (s.headOf (0 : Fin 128) j).all (fun x => decide (s.txLength (0 : Fin 128) x < 2 ^ 32)) = true) ∧
     s.eligible (0 : Fin 128) (0 : Fin 8) = true) ∧
    (let s := up {}
     s.Up ∧ (s.port (0 : Fin 128)).tx = none ∧ (s.port (0 : Fin 128)).due = [] ∧
     (∀ j : Fin 8, (s.judgeHeads (0 : Fin 128)).eligible (0 : Fin 128) j = false)) ∧
    (let s := onPort 1 { tx := some ⟨host60, 5, [], 0⟩ }
     (s.port (0 : Fin 128)).tx = some ⟨host60, 5, [], 0⟩) ∧
    (let s := onPort 1 { retry := [(6, ctrlFrame 0 ctrl7)] }
     (s.port (0 : Fin 128)).retry = [(6, ctrlFrame 0 ctrl7)] ∧ waitsForBillets (ctrlFrame 0 ctrl7).kind = true ∧
     s.htxLeft (0 : Fin 128) = 0 ∧ s.cruAdmits (0 : Fin 128) (billetsOf (ctrlFrame 0 ctrl7).length) (6 == 7) = false) ∧
    (let s := withF [(Reg.CRU_PORT_RESERVE 0, 9), (Reg.CRU_FREE_FREE, 9)] (onPort 1 { retry := [(6, ctrlFrame 0 ctrl7)] })
     s.cruAdmits (0 : Fin 128) (billetsOf (ctrlFrame 0 ctrl7).length) (6 == 7) = true) := by
  unfold State.Up; decide +kernel

/-- Port 0 with one gate entry of a whole cycle in bank 1, and a list that runs in bank 0. -/
def gates (x : Port) : State :=
  withF [(Reg.GATE_CTRL_EN 0, 1), (Reg.GATE_LEN_LEN 0 0, 2), (Reg.GATE_LEN_LEN 0 1, 1),
    (Reg.GATE_ENTRY_DURATION 0 0 0, 0)] (onPort 1 x)

/-- Port 0 in role INGEST with n free Billets of its own, and its receive injector set to an action. -/
def receiving (n act : Nat) : State :=
  withF ([(Reg.CRU_PORT_RESERVE 0, n), (Reg.CRU_FREE_FREE, n), (Reg.FI_CFG_ACTION 0 1, act), (Reg.FI_N_N 0 1, 1),
    (Reg.FI_SEL_TYPES 0 1, 0xFFFF)] ++ if act < 5 then [(Reg.FI_CFG_EN 0 1, 1)] else []) (onPort 2 {})

theorem witness_PortReceptionAndLinks :
    (State.reset.Up ∧ State.reset.role (127 : Fin 128) = 0 ∧
     State.reset.passes keeper (Reg.PQ_LANE_CFG ((127 : Fin 128).val / 4) ((127 : Fin 128).val % 4)) .w32 true = true) ∧
    -- a good frame of several Billets with each action, with both and with one free
    (∀ act ∈ [0, 1, 2, 4], (let s := receiving 4 act
      s.Up ∧ s.role (0 : Fin 128) = 2 ∧ (s.inject (0 : Fin 128) 1 (s.rxType (0 : Fin 128) (List.replicate 3000 0)) 0).1 =
        (if act = 2 then none else some act) ∧
      ((s.inject (0 : Fin 128) 1 (s.rxType (0 : Fin 128) (List.replicate 3000 0)) 0).2.takeOneByOne (0 : Fin 128)
        (billetsOf 3000 - 1)).1 = billetsOf 3000 - 1)) ∧
    (let s := receiving 0 5
     (s.inject (0 : Fin 128) 1 (s.rxType (0 : Fin 128) (List.replicate 3000 0)) 0).1 = none ∧
     (s.takeOneByOne (0 : Fin 128) (billetsOf 3000 - 1)).1 < billetsOf 3000 - 1) ∧
    -- a bad one, with and without room
    (let s := receiving 4 5
     (s.takeOneByOne (0 : Fin 128) (billetsOf 3000)).1 = billetsOf 3000) ∧
    (let s := receiving 0 5
     (s.takeOneByOne (0 : Fin 128) (billetsOf 3000)).1 < billetsOf 3000) ∧
    (let x : RxFrame := { bytes := [] }
     ((onPort 2 { fiRx := { held := [(x, 0)] } }).port (0 : Fin 128)).fiRx.held = (x, 0) :: []) := by
  unfold State.Up; decide +kernel

/-- A REPLICA that the Crucible refuses. -/
theorem witness_PortReceptionAndLinks_replica :
    (let frame : List Byte := List.replicate 12 0 ++ beBytes 2 (worker.f Reg.CHAIN_CFG_ETHERTYPE) ++ [9] ++ List.replicate 49 0
     worker.linkOf (0 : Fin 128) = some 0 ∧ worker.role (0 : Fin 128) = 3 ∧ worker.chain.joined.contains (0 : Fin 128).val = true ∧
     64 ≤ frame.length ∧ (worker.takeOneByOne (0 : Fin 128) (billetsOf frame.length)).1 < billetsOf frame.length ∧
     beAt frame 12 2 = worker.f Reg.CHAIN_CFG_ETHERTYPE ∧ beAt frame 14 1 = 9) := by decide +kernel

theorem witness_ShapersAndGates :
    (State.reset.Up ∧ State.reset.passes keeper (Reg.QUEUE_SHAPE_BURST (127 : Fin 128) (7 : Fin 8)) .w32 true = true ∧
     State.reset.passes keeper (Reg.QUEUE_SHAPE_RATE (0 : Fin 128) (0 : Fin 8)) .w32 true = true ∧
     State.reset.passes keeper (Reg.QUEUE_QUANTUM (127 : Fin 128) (7 : Fin 8)) .w32 true = true ∧
     State.reset.passes keeper (Reg.GATE_SWITCH (127 : Fin 128)) .w32 true = true ∧
     State.reset.passes keeper (Reg.GATE_CTRL (127 : Fin 128)) .w32 true = true ∧
     State.reset.fb (Reg.GATE_CTRL_EN (127 : Fin 128)) = false ∧ State.reset.bankBad (127 : Fin 128) 0 = false) ∧
    (let s := gates { started := true, nextBank := some 1 }
     s.fb (Reg.GATE_CTRL_EN (0 : Fin 128)) = true ∧ (s.port (0 : Fin 128)).nextBank = some 1 ∧
     (s.cycleDue (0 : Fin 128)).isSome = true ∧
     s.gated (0 : Fin 128) = true ∧ (s.port (0 : Fin 128)).entry + 1 < s.f (Reg.GATE_LEN_LEN (0 : Fin 128) 0) ∧
     (s.port (0 : Fin 128)).entryAt +
       65536 * s.f (Reg.GATE_ENTRY_DURATION (0 : Fin 128) (s.port (0 : Fin 128)).bank (s.port (0 : Fin 128)).entry) ≤ s.ranQ) := by
  unfold State.Up; decide +kernel

theorem witness_RingsSamplesInjectors :
    (State.reset.Up ∧ State.reset.passes keeper (Reg.HTX_CFG (127 : Fin 128)) .w32 true = true ∧
     State.reset.passes keeper (Reg.HRX_CFG (127 : Fin 128)) .w32 true = true ∧
     State.reset.passes keeper (Reg.HTX_PROD (127 : Fin 128)) .w32 true = true ∧
     State.reset.passes keeper (Reg.PORT_SAMPLE_RESTART (127 : Fin 128)) .w32 true = true ∧
     State.reset.passes keeper (Reg.FI_CFG (127 : Fin 128) (1 : Fin 2)) .w32 true = true ∧
     State.reset.passes keeper Reg.CRU_RESTART .w32 true = true ∧
     bits (2 : Half).toNat 10 0 = 2 ∧ bits (1024 : Half).toNat 10 0 = 1024) ∧
    (let s := withF [(Reg.HTX_CFG_EN 0, 1), (Reg.HTX_CFG_SLOTS 0, 2), (Reg.HTX_PROD_INDEX 0, 0xFFFFFFFF)] (onPort 1 {})
     s.passes keeper (Reg.HTX_PROD (0 : Fin 128)) .w32 true = true ∧ s.fb (Reg.HTX_CFG_EN (0 : Fin 128)) = true ∧
     s.htxLeft (0 : Fin 128) ≠ 0) ∧
    (let s := withF [(Reg.HTX_CFG_EN 0, 1), (Reg.HTX_CFG_SLOTS 0, 2), (Reg.HTX_PROD_INDEX 0, 0xFFFFFFFF),
       (Reg.HTX_CONS_INDEX 0, 0xFFFFFFFF)] (onPort 1 {})
     s.htxLeft (0 : Fin 128) = 0 ∧ s.sourceStalled 14 = false ∧
     (s.f (Reg.HTX_CONS_INDEX (0 : Fin 128)) + 1) % 2 ^ 32 = (0 : Half).toNat) ∧
    (let s : State := withF [(Reg.HTX_CFG_EN 0, 1), (Reg.HTX_CFG_SLOTS 0, 2)] (trained ((onPort 1 {}).store 0 [14]))
     s.capacity ≠ 0 ∧ s.rd (256 * s.f (Reg.HTX_BASE_BASE (0 : Fin 128))) 2 = 14 ∧ s.htxPort (0 : Fin 128) = some 0) := by
  unfold State.Up; decide +kernel

/-- A trace ring of sixteen entries that wraps with this sample, and one that does not. -/
theorem witness_RingsSamplesInjectors_trace :
    ∀ w ∈ [0, 12],
     (let s := withF [(Reg.PORT_SAMPLE_CFG_TRACE_EN 0, 1), (Reg.PORT_TRACE_CFG_LOG2 0, 4), (Reg.PORT_TRACE_WPTR_WPTR 0, w)]
        (trained (onPort 1 {}))
      s.fb (Reg.PORT_SAMPLE_CFG_TRACE_EN (0 : Fin 128)) = true ∧ 8 ≤ 2 ^ s.f (Reg.PORT_TRACE_CFG_LOG2 (0 : Fin 128)) ∧
      (s.port (0 : Fin 128)).traceWait = [] ∧ (s.port (0 : Fin 128)).traceWrapped = false ∧
      s.queueRoom .core (256 * s.f (Reg.PORT_TRACE_BASE_BASE (0 : Fin 128))) 16 = true ∧
      ((∃ q, q < 8 ∧ 0 < s.f (Reg.PORT_TRACE_WPTR_WPTR (0 : Fin 128)) + q ∧
        (s.f (Reg.PORT_TRACE_WPTR_WPTR (0 : Fin 128)) + q) % 2 ^ s.f (Reg.PORT_TRACE_CFG_LOG2 (0 : Fin 128)) = 0) ↔ w = 12)) := by
  decide +kernel

/-- An HTX slot that no port takes, and one that a port takes where the Crucible refuses it and where it admits it. -/
theorem witness_RingsSamplesInjectors_slot :
    ∀ n ∈ [0, 9],
     (let s : State := withF [(Reg.HTX_CFG_EN 0, 1), (Reg.HTX_CFG_SLOTS 0, 2), (Reg.CRU_PORT_RESERVE 0, n), (Reg.CRU_FREE_FREE, n)]
        (trained ((onPort 1 {}).store 0 [14]))
      s.htxPort (0 : Fin 128) = some 0 ∧
      (s.cruAdmits 0 (billetsOf (Frame.length { kind := .host, body := s.bytes 16 14 })) false = true ↔ n = 9)) := by decide +kernel
/-! ### Ingest and the Photor Chain -/

/-- A UDP frame over IPv4 to port 5004, with an RTP packet of SSRC 0 and six payload bytes behind its sequence extension. -/
def rtpFrame : List Byte :=
  ([0, 0, 0, 0, 0, 0, 0, 0, 0, 0, 0, 0, 8, 0] ++
   [0x45, 0, 0, 48, 0, 0, 0, 0, 0, 17, 0xBA, 0xBE, 0, 0, 0, 0, 0, 0, 0, 0] ++
   [0, 0, 0x13, 0x8C, 0, 28, 0, 0] ++ [0x80, 96, 0, 5, 0, 0, 0, 9, 0, 0, 0, 0] ++ [0, 0, 0, 5, 0, 0, 0, 0] ++
   [0, 0, 0, 0]).map (BitVec.ofNat 8)

/-- Flow 0 is enabled, on port 0 and UDP port 5004, and rtpFrame stands in port 0. -/
def flowing : State :=
  withF [(Reg.ING_FLOW_CTRL_EN 0, 1), (Reg.ING_FLOW_PORT_UDP_PORT 0, 5004), (Reg.ING_FLOW_PORT_PT_ANY 0, 1)]
    (onPort 2 { rx := [{ bytes := rtpFrame, billets := 1, fclk := 1 }] })

theorem witness_FlowControl :
    (State.reset.Up ∧ State.reset.passes keeper (Reg.POL_CBS (511 : Fin 512)) .w32 true = true ∧
     State.reset.passes keeper (Reg.ING_FLOW_CTRL (511 : Fin 512)) .w32 true = true ∧
     State.reset.flowOn (511 : Fin 512) = false) ∧
    (flowing.passes keeper (Reg.ING_FLOW_CTRL (0 : Fin 512)) .w32 true = true ∧ flowing.flowOn (0 : Fin 512) = true) ∧
    (let s := withF [(Reg.ING_FLOW_CTRL_RING 1, 2), (Reg.ING_FLOW_CTRL_PRESENT_LATENCY 1, 1), (Reg.ING_FLOW_SIZE_WIDTH 1, 2),
       (Reg.ING_FLOW_SIZE_HEIGHT 1, 1), (Reg.ING_FLOW_FMT_SAMPLING 1, 0)] (onPort 2 {})
     s.flowOn (1 : Fin 512) = false ∧ s.flowCode (1 : Fin 512) ≠ 0) := by
  unfold State.Up; decide +kernel

/-- An enabling write that R408 accepts, and a member of an enabled flow that is disabled with it. -/
theorem witness_FlowControl_starts :
    (let s := withF [(Reg.ING_FLOW_CTRL_RING 1, 2), (Reg.ING_FLOW_CTRL_PRESENT_LATENCY 1, 1), (Reg.ING_FLOW_SIZE_WIDTH 1, 2),
       (Reg.ING_FLOW_SIZE_HEIGHT 1, 1), (Reg.ING_FLOW_FMT_SAMPLING 1, 0), (Reg.ING_RING_STRIDE_STRIDE 1, 4), (Reg.ING_RING_SPACING_SPACING 1, 1)] (trained (onPort 2 {}))
     s.flowOn (1 : Fin 512) = false ∧ s.flowCode (1 : Fin 512) = 0) ∧
    (let s := withF [(Reg.ING_FLOW_CTRL_EN 1, 1), (Reg.ING_FLOW_CTRL_ROLE 1, 1)] flowing
     s.flowOn (0 : Fin 512) = true ∧ s.flowOn (1 : Fin 512) = true ∧ s.flowRole (1 : Fin 512) ≠ 0 ∧ s.partner (1 : Fin 512) = (0 : Fin 512)) := by
  decide +kernel

/-- rtpFrame stands in port 0 with some of its bytes replaced. -/
def standing (l : List (Nat × Byte)) (x : RxFrame) (s : State) : State :=
  { s with ports := [(0, { rx := [{ x with bytes := l.foldl (fun b y => b.set y.1 y.2) rtpFrame }] })] }

/-- The frame so replaced. -/
def replaced (l : List (Nat × Byte)) : List Byte := l.foldl (fun b y => b.set y.1 y.2) rtpFrame

/-- A frame to a foreign address, one that is no UDP, one with a bad IP header, one to another UDP port, one with a bad RTP header. -/
theorem witness_IngestFrames_classes :
    (State.reset.Up ∧ State.reset.role (127 : Fin 128) ≠ 2 ∧ State.reset.rxFind (127 : Fin 128) rtpFrame = none) ∧
    (∀ l ∈ [[], [(1, 1)], [(12, 0)], [(14, 0x46)], [(37, 0x8D)], [(42, 0)]], (let s := standing l { bytes := [], billets := 1, fclk := 1 } flowing
      s.Up ∧ s.role (0 : Fin 128) = 2 ∧ s.rxFind (0 : Fin 128) (replaced l) = some { bytes := replaced l, billets := 1, fclk := 1 })) ∧
    (leAt ((replaced [(1, 1)]).take 62) 0 6 ≠ flowing.f (Reg.ING_PORT_MAC_MAC (0 : Fin 128)) ∧
     flowing.fb (Reg.ING_PORT_MAC_ACCEPT_ALL (0 : Fin 128)) = false ∧ beAt (replaced [(12, 0)]) 12 2 ≠ 0x0800 ∧
     ipSum ((((replaced [(14, 0x46)]).take 62).drop 14).take 24) ≠ 0xFFFF ∧
     flowing.flowMatch (0 : Fin 128) 1 0 5005 0 = none ∧
     (rtpOf (((replaced [(42, 0)]).take 62).drop 42)).version ≠ 2) := by
  unfold State.Up; decide +kernel

/-- A PTP message on a port of TB_PTP_PORT. -/
theorem witness_IngestFrames_ptp :
    (let l : List (Nat × Byte) := [(36, 0x01), (37, 0x3F)]
     let s := standing l { bytes := [], billets := 1, fclk := 1 } (withF [(Reg.TB_PTP_PORT_PORT 0, 0), (Reg.TB_PTP_CFG_DOMAIN, 0)] flowing)
     s.rxFind (0 : Fin 128) (replaced l) = some { bytes := replaced l, billets := 1, fclk := 1 } ∧
     beAt (replaced l) 36 2 = 319 ∧ s.ptpEntry (0 : Fin 128) = some 0 ∧
     beAt (((replaced l).take 62).drop 42) 4 1 = s.f Reg.TB_PTP_CFG_DOMAIN ∧ ptpTaken (((replaced l).take 62).drop 42) = true) := by
  decide +kernel

/-- The first packet of the flow: accepted, refused by the Crucible, or beyond the peak rate; and a replica. -/
theorem witness_IngestFrames_flow :
    (flowing.Up ∧ flowing.role (0 : Fin 128) = 2 ∧
     flowing.rxFind (0 : Fin 128) rtpFrame = some { bytes := rtpFrame, billets := 1, fclk := 1 } ∧
     beAt (rtpFrame.take 62) 12 2 = 0x0800 ∧ ipSum (((rtpFrame.take 62).drop 14).take 20) = 0xFFFF ∧
     flowing.flowMatch (0 : Fin 128) 1 0 5004 0 = some 0 ∧ (flowing.flow 0).polEn = false ∧
     (flowing.flow (flowing.ownerOf 0)).top = none ∧ (rtpOf ((rtpFrame.take 62).drop 42)).version = 2 ∧
     (rtpOf ((rtpFrame.take 62).drop 42)).payload.length = 6) ∧
    (let s := standing [] { bytes := [], refused := true, fclk := 1 } flowing
     s.role (0 : Fin 128) = 2 ∧ s.rxFind (0 : Fin 128) rtpFrame = some { bytes := rtpFrame, refused := true, fclk := 1 } ∧
     (s.flow 0).polEn = false) ∧
    (let s : State := { flowing with flows := [(0, { polEn := true })] }
     s.flowMatch (0 : Fin 128) 1 0 5004 0 = some 0 ∧ (s.flow 0).polEn = true ∧ (s.flow 0).tp < rtpFrame.length * tokenUnit) ∧
    (let s := withF [(Reg.ING_FLOW_CTRL_SRC_CHAIN 0, 1)] { flowing with chain := { flowing.chain with joined := [0] } }
     (0 : Fin 128).val ∈ s.chain.joined ∧ s.flowOnFor (0 : Fin 512) 1 = true ∧
     (s.port (0 : Fin 128)).rx = [{ bytes := rtpFrame, billets := 1, fclk := 1 }] ∧
     s.fb (Reg.ING_FLOW_CTRL_SRC_CHAIN (0 : Fin 512)) = true ∧
     6 ≤ (rtpOf ((rtpFrame.take 62).drop 42)).payload.length ∧ (s.flow (s.ownerOf (0 : Fin 512))).top = none) ∧
    (let s : State := { flowing with flows := [(0, { onAt := some 1 })] }
     (s.port (0 : Fin 128)).rx = [{ bytes := rtpFrame, billets := 1, fclk := 1 }] ∧ s.flowOnFor (0 : Fin 512) 1 = false) := by
  unfold State.Up; decide +kernel

/-- One 4:2:2 10-bit pixel group of row 0. -/
def srd1 : List Byte := [0, 5, 0, 0, 0, 0, 1, 2, 3, 4, 5]

/-- Flow 0 fills a frame of one row of two pixels, and a packet waits that carries all of it. -/
def filling : State :=
  withF [(Reg.ING_FLOW_SIZE_WIDTH 0, 2), (Reg.ING_FLOW_SIZE_HEIGHT 0, 1), (Reg.ING_FLOW_FMT_DEPTH 0, 1)]
    { flowing with
        flows := [(0, { frame := some { ts := 9, surf := 0, p := 100, pixels := 2, mark := true },
                        waiting := [{ flow := 0, ts := 9, marker := true, srd := srd1, port := 0, billets := 1 }] })] }

theorem witness_FrameFilling :
    (filling.Up ∧ filling.videoOf (0 : Fin 512) = 0 ∧ srdsOf srd1 = [⟨false, 0, 0, [1, 2, 3, 4, 5], true⟩] ∧
     filling.srdBad (0 : Fin 512) ⟨false, 0, 0, [1, 2, 3, 4, 5], true⟩ = false ∧ filling.flowRole (0 : Fin 512) ≠ 2) ∧
    (filling.keyOf 0 = none ∧ (filling.flow 0).frame = some { ts := 9, surf := 0, p := 100, pixels := 2, mark := true } ∧
     filling.frameShort 0 { ts := 9, surf := 0, p := 100, pixels := 2, mark := true } = false ∧
     filling.deadlineMet 0 100 = false ∧ filling.sourceStalled 14 = false) ∧
    (srdsOf [0, 5, 0x80, 0, 0, 0, 1, 2, 3, 4, 5] = [⟨true, 0, 0, [1, 2, 3, 4, 5], true⟩] ∧ filling.sourceStalled 14 = false) ∧
    ((filling.setF (Reg.ING_FLOW_CTRL_INCOMPLETE_POLICY 0) 1).fb (Reg.ING_FLOW_CTRL_INCOMPLETE_POLICY (0 : Fin 512)) = true) ∧
    (flowing.flowOn (0 : Fin 512) = true ∧ State.reset.flowOn (0 : Fin 512) = false) := by
  unfold State.Up; decide +kernel

/-- A TRAIN that fits the worker's uplink, but for the topology's check value. -/
def train : Train :=
  { index := 0, names := 0, topology := BitVec.ofNat 32 (crc32c (worker.section 0 8 64)), width := 1, rank := 0,
    kind := some .downlink, epoch := 0 }

theorem witness_ChainTraining :
    (worker.Up ∧ worker.linkOf (0 : Fin 128) = some 0 ∧ (0 : Fin 128).val ∈ worker.chain.joined ∧
     worker.joinedPorts 0 = [(0 : Fin 128).val] ∧ worker.kindOf 0 = 0) ∧
    (State.reset.linkOf (127 : Fin 128) = none) ∧
    ((worker.setF (Reg.CHAIN_LINK_STATE 0) 2).f (Reg.CHAIN_LINK_STATE 0) ≠ 0 ∧ train.kind ≠ some .boot ∧
     (worker.setF (Reg.CHAIN_LINK_STATE 0) 2).linkOf (0 : Fin 128) = some 0) ∧
    (let s : State := { worker with chain := { worker.chain with joined := [] } }
     (0 : Fin 128).val ∉ s.chain.joined ∧ s.trainCause (0 : Fin 128) 0 train = 0 ∧
     (s.setF (Reg.CHAIN_LINK_STATE 0) 1).f (Reg.CHAIN_LINK_STATE 0) ≠ 0 ∧
     (s.setF (Reg.CHAIN_LINK_STATE 0) 1).linkOf (0 : Fin 128) = some 0 ∧
     (s.setF (Reg.CHAIN_LINK_STATE 0) 1).trainCause (0 : Fin 128) 0 train = 0 ∧
     s.trainCause (0 : Fin 128) 0 { train with rank := 3 } = 5) ∧
    (let s := withF [(Reg.CHAIN_STATE_ROLE, 1), (Reg.CHAIN_STATE_EPOCH, 0xFFFE)] worker
     s.deposes 0xFFFF = true) ∧
    ((worker.setF (Reg.PORT_LINK_LINK_UP 0) 1).linkUp (0 : Fin 128) = true ∧
     (worker.setF (Reg.PORT_LINK_LINK_UP 0) 1).linkOf (0 : Fin 128) ≠ none) := by
  unfold State.Up; decide +kernel

/-- A port that carries chain time leaves its link with a replica in its queue. -/
theorem witness_ChainTraining_leaves :
    (let s : State := { worker with ports := [(0, { queues := [{ kind := .chain 9, body := [] }] :: List.replicate 7 [] })],
                                    time := { worker.time with sources := [⟨.chain, 0, 0, 0⟩] } }
     s.linkOf (0 : Fin 128) = some 0 ∧ (0 : Fin 128).val ∈ s.chain.joined ∧ s.replicasOn (0 : Fin 128) = 1 ∧
     s.joinedPorts 0 = [(0 : Fin 128).val] ∧ s.kindOf 0 = 0 ∧ (s.time.sources.any fun q => q.src == .chain) = true) := by
  decide +kernel

theorem witness_ChainTime :
    (worker.Up ∧ worker.linkIsUp (0 : Fin 16) = true ∧ worker.kindOf (0 : Fin 16) = 0 ∧ worker.chainRole ≠ 4 ∧
     worker.joinedPorts (0 : Fin 16) = (0 : Fin 128).val :: [] ∧ (0 : Fin 128).val ∈ worker.chain.joined ∧
     worker.oldEpoch (0 : BitVec 16).toNat = false) ∧
    (State.reset.joinedPorts (15 : Fin 16) = [] ∧ State.reset.f Reg.TB_STATE_SOURCE ≠ 4 ∧
     (State.reset.time.sources.any fun q => q.src == .chain) = false) ∧
    ((({ worker with time := { worker.time with sources := [⟨.chain, 0, 0, 0⟩] } } : State).time.sources.any fun q => q.src == .chain) = true) := by
  unfold State.Up; decide +kernel

/-- A read of master 9 in the window of part 3. -/
def asked (id : Nat) : ChainAccess :=
  { id := id, part := 3, req := other, addr := 0xC300000000, width := .w32, write := false, data := 0, reach := 0xF000000000 }

/-- An active manager that waits for the response of part 3 to a read of master 9. -/
def manager : State :=
  let s := withF [(Reg.CHAIN_STATE_ROLE, 1), (Reg.CHAIN_PEER_STATE 3, 2), (Reg.CHAIN_PEER_LAG 3, 0xFFFF)] worker
  { s with aon := { s.aon with keeperUp := true }, chain := { s.chain with out := [asked 4] } }

/-- A standby that may take over. -/
def standby : State :=
  let s := withF [(Reg.CHAIN_STATE_ROLE, 2), (Reg.CHAIN_LINK_STATE 0, 2), (Reg.CHAIN_LINK_KIND 0, 2)] worker
  { s with time := { s.time with lineStart := true }, fclk := 1, chain := { s.chain with forced := some 0 } }

theorem witness_ChainSupervision :
    (worker.Up ∧ worker.linkOf (0 : Fin 128) = some 0 ∧ (0 : Fin 128).val ∈ worker.chain.joined ∧
     worker.oldEpoch (0xFFFF : BitVec 16).toNat = false ∧ worker.deposes 0xFFFF = false) ∧
    (manager.chainRole = 1 ∧ manager.f (Reg.CHAIN_PEER_STATE (3 : Fin 16)) = 2 ∧
     min (3 * manager.time.l) 0xFFFF ≤ manager.f (Reg.CHAIN_PEER_LAG (3 : Fin 16)) ∧ manager.aon.keeperUp = true ∧ manager.deposes 1 = true ∧
     manager.mayTakeOver = false) ∧
    (standby.Up ∧ standby.mayTakeOver = true ∧ standby.f (Reg.CHAIN_LINK_STATE (0 : Fin 16)) ≠ 0 ∧
     standby.kindOf (0 : Fin 16) = 2) ∧
    State.reset.passes keeper Reg.CHAIN_TAKEOVER .w32 true = true := by
  unfold State.Up; decide +kernel

/-- A standby whose standby link becomes the uplink, with an uplink before; and one that takes over with a source that qualifies. -/
theorem witness_ChainSupervision_standby :
    (let s := withF [(Reg.CHAIN_LINK_STATE 1, 2), (Reg.CHAIN_LINK_KIND 1, 0)] standby
     s.linkOf (0 : Fin 128) = some 0 ∧ (0 : Fin 128).val ∈ s.chain.joined ∧ s.oldEpoch 2 = false ∧ s.deposes 2 = false ∧
     s.f Reg.CHAIN_STATE_EPOCH < 2 ∧ s.kindOf 0 = 2 ∧ s.kindOf (1 : Fin 16) = 0 ∧ s.f (Reg.CHAIN_LINK_STATE (1 : Fin 16)) ≠ 0) ∧
    (let s : State := (withF [(Reg.TB_SRC_CFG_PRIO0, 1)] { standby with time := { standby.time with sources := [⟨.ptp, 0, 0, 0⟩] } })
     let u := (s.setF Reg.CHAIN_STATE_ROLE 1).setTime { s.time with sources := s.time.sources.filter fun q => q.src != .chain }
     s.mayTakeOver = true ∧ s.following = false ∧ u.bestSource.isSome = true) := by decide +kernel

theorem witness_ChainTraffic_tunnel :
    (manager.Up ∧ manager.mute keeper = false ∧
     manager.judge keeper (0xC300000000 : Addr).toNat .w32 false = .ok (.chain 3) ∧
     manager.tunnelOf 4 = some (asked 4) ∧ (asked 4).answer = none ∧ manager.tunnelBehind (asked 4) = false ∧ manager.NoAnswers 4 ∧ manager.chain.stalled = [] ∧
     (manager.tunnelOf 5).all (fun x => x.answer.isSome) = true ∧ manager.chainRole = 1 ∧ (0 : Fin 128).val ∈ manager.chain.joined ∧
     manager.oldEpoch (0 : BitVec 16).toNat = false) ∧
    (let y : ChainAccess := { asked 5 with answer := some (true, 1) }
     let s : State := { manager with chain := { manager.chain with out := [asked 4, y] } }
     s.Up ∧ s.tunnelOf 4 = some (asked 4) ∧ s.tunnelBehind (asked 4) = false ∧ y.id ≠ (asked 4).id ∧
     y.req.master = (asked 4).req.master ∧
     ({ manager with chain := { manager.chain with out := [asked 4, asked 5] } } : State).tunnelBehind (asked 5) = true) ∧
    (manager.tunnelsTo 3 < 32 ∧ manager.joinedPorts (manager.f (Reg.CHAIN_PEER_VIA 3)) = 0 :: []) ∧
    (let s : State := { manager with chain := { manager.chain with out := (List.range 32).map asked } }
     ¬ s.tunnelsTo 3 < 32) := by
  unfold State.Up State.NoAnswers; decide +kernel

theorem witness_ChainTraffic_frames :
    (worker.linkOf (0 : Fin 128) = some 0 ∧ worker.oldEpoch (0 : BitVec 16).toNat = false ∧
     (0 : Fin 16).val = worker.myIndex ∧ worker.masterWaits 15 = false ∧ (0 : Fin 128).val ∈ worker.chain.joined ∧
     worker.chainRole ≠ 1 ∧ worker.carries 0 8 = true ∧ worker.sourceStalled 14 = false ∧
     (worker.port (0 : Fin 128)).hostWait = [] ∧ worker.ringFull (0 : Fin 128) = true) ∧
    (let s : State := { worker with bus := { worker.bus with stalled := [{ addr := Reg.KWDT_CFG, mask := 0xFFFFFFFF, data := 0, master := 15 }] } }
     s.masterWaits 15 = true) ∧
    (let s := withF [(Reg.HRX_CFG_EN 0, 1), (Reg.HRX_CFG_SLOTS 0, 2)] worker
     s.ringFull (0 : Fin 128) = false) ∧
    (let s : State := { worker with chain := { worker.chain with joined := [] } }
     (0 : Fin 128).val ∉ s.chain.joined) ∧
    (let s : State := { worker with chans := [(0, { waiters := [(.core, { src := 14, addr := 0 })] })] }
     s.sourceStalled 14 = true) ∧
    -- a part with a downlink to part 2
    (let s := withF [(Reg.CHAIN_STATE_ROLE, 3), (Reg.CHAIN_LINK_KIND 0, 1)]
       { active 2 (portIn 3 ++ record 8 ((List.replicate 64 0 ++ [2]) ++ List.replicate 63 0)) with chain := { worker.chain with joined := [0] } }
     (2 : Fin 16).val ≠ s.myIndex ∧ s.linkOf (0 : Fin 128) = some 0 ∧
     (s.upLinks 1).find? (fun l => s.linkPeer l == (2 : Fin 16).val) = some 0 ∧ s.joinedPorts 0 = 0 :: []) ∧
    (worker.upLinks 0 ++ worker.upLinks 3 = [0] ∧ worker.joinedPorts 0 = 0 :: []) := by decide +kernel

/-! ### Blit engines and check units -/

/-- A descriptor: one pixel of format 2 at address 256 of the destination, from address 0 of the source. -/
def descriptor (op : Nat) : List Byte :=
  ([2, 2, 0, 16 * op] ++ List.replicate 12 0 ++ [64, 0, 0, 0, 1, 0, 1, 0, 0, 0, 0, 0, 1, 0, 1, 0] ++
   [0, 1, 0, 0, 0, 0, 0, 0, 64, 0, 0, 0, 1, 0, 1, 0] ++ [0, 0, 0, 0, 0, 0, 0, 0, 5, 0, 0, 0, 0, 0, 0, 0]).map (BitVec.ofNat 8)

/-- Engine 3 about to execute that descriptor, with DDR trained. -/
def blitting (op : Nat) : State :=
  { trained State.reset with blits := [(3, { desc := descriptor op, addr := 1024, index := 0, code := 0 })] }

theorem witness_BlitRegisters :
    (State.reset.Up ∧ State.reset.passes keeper (Reg.BLT_PROD (3 : Fin 4)) .w32 true = true ∧
     State.reset.passes keeper (Reg.BLT_RESUME (0 : Fin 4)) .w32 true = true ∧
     State.reset.passes keeper (Reg.BLT_CTRL (3 : Fin 4)) .w32 true = true ∧
     State.reset.passes keeper (Reg.BLT_RING_BASE (3 : Fin 4)) .w64 true = true ∧
     State.reset.passes keeper (Reg.BLT_RING_CFG (0 : Fin 4)) .w32 true = true) ∧
    (let s := withF [(Reg.BLT_CTRL_EN 3, 1), (Reg.BLT_RING_CFG_LOG2 3, 1)] (trained State.reset)
     s.passes keeper (Reg.BLT_PROD (3 : Fin 4)) .w32 true = true ∧ s.fb (Reg.BLT_CTRL_EN (3 : Fin 4)) = true ∧
     bits (2 : Half).toNat 15 0 ≤ 2 ^ s.f (Reg.BLT_RING_CFG_LOG2 (3 : Fin 4)) ∧
     ¬ s.capacity < 256 * s.f (Reg.BLT_RING_BASE_BASE (3 : Fin 4)) + 64 * 2 ^ s.f (Reg.BLT_RING_CFG_LOG2 (3 : Fin 4))) ∧
    (let s := withF [(Reg.BLT_STATE_STATE 3, 3)] State.reset
     s.bltState (3 : Fin 4) = 3 ∧ s.fb (Reg.BLT_CTRL_EN (3 : Fin 4)) = false) := by
  unfold State.Up; decide +kernel

/-- Its descriptor as the engine runs it. -/
def running (op : Nat) (todo : List BltBurst) : Blit :=
  { desc := descriptor op, addr := 1024, index := 0, code := 0, ran := true, todo := todo,
    buf := [(0, List.replicate 256 7)] }

/-- Engine 3 with bursts to move. -/
def bursting (op : Nat) (todo : List BltBurst) : State :=
  { trained State.reset with blits := [(3, running op todo)] }

/-- No other engine than the one of a state moves bursts. -/
theorem no_other {x y : Blit} {s : State} {k : Nat} (h : s.blits = [(3, x)]) (hk : k ≠ (3 : Fin 4).val)
    (hy : Tab.find s.blits k = some y) : y.todo = [] := by
  rw [h] at hy
  have : (3 : Nat) ≠ k := fun e => hk e.symm
  simp [Tab.find, this] at hy

theorem witness_BlitExecution_read :
    (let s := withF [(Reg.BLT_STATE_STATE 3, 1), (Reg.BLT_PROD_PROD 3, 1)] State.reset
     s.Up ∧ s.bltState (3 : Fin 4) = 1 ∧ s.f (Reg.BLT_CONS_CONS (3 : Fin 4)) ≠ s.f (Reg.BLT_PROD_PROD (3 : Fin 4)) ∧
     s.bltRoom (256 * s.f (Reg.BLT_RING_BASE_BASE (3 : Fin 4)) +
       64 * (s.f (Reg.BLT_CONS_CONS (3 : Fin 4)) % 2 ^ s.f (Reg.BLT_RING_CFG_LOG2 (3 : Fin 4)))) 64 = true) ∧
    (State.reset.Up ∧ State.reset.bltToRun (0 : Fin 4) 1 = none ∧ State.reset.bltToRun (3 : Fin 4) 2 = none ∧
     State.reset.bltToRun (3 : Fin 4) 3 = none) ∧
    (∀ op : Fin 3, (blitting (op.val + 1)).Up ∧ (blitting (op.val + 1)).bltToRun (3 : Fin 4) (op.val + 1) =
       some ({ desc := descriptor (op.val + 1), addr := 1024, index := 0, code := 0 }, bltDesc (descriptor (op.val + 1)))) := by
  unfold State.Up; decide +kernel

/-- A COPY of one pixel: one burst of the source, then one of the destination that needs it. -/
theorem witness_BlitExecution_bursts :
    (bltDesc (descriptor 2)).check (trained State.reset).capacity = 0 ∧ (bltDesc (descriptor 2)).op ≠ 1 ∧
    0 < (bltDesc (descriptor 2)).w ∧ 0 < (bltDesc (descriptor 2)).h ∧
    (bltDesc (descriptor 2)).bursts = [⟨false, 0, 0⟩] ++ ⟨true, 0, 256⟩ :: [] ∧
    0 ∈ (bltDesc (descriptor 2)).needs 0 256 := by decide +kernel

/-- An FCLK without a burst: after one, without work, or for want of room; and with a burst of each kind. -/
theorem witness_BlitExecution_ticks :
    (∀ s ∈ [{ bursting 1 [⟨true, 0, 256⟩] with bltWait := [(3, 1)] }, bursting 1 [],
       (bursting 1 [⟨true, 0, 256⟩]).setChan 1 { blit := List.replicate 64 { src := 0, addr := 256 } }],
      s.Up ∧ s.QuietFclk ∧ s.blits.map Prod.fst = [3] ∧
      (Tab.get s.bltWait (3 : Fin 4) 0 ≠ 0 ∨ (running 1 []) ∈ s.blits.map Prod.snd ∨ s.bltRoom 256 256 = false)) ∧
    (∀ x ∈ [(1, BltBurst.mk true 0 256), (2, ⟨true, 0, 256⟩), (2, ⟨false, 0, 0⟩)],
      (bursting x.1 [x.2]).Up ∧ (bursting x.1 [x.2]).QuietFclk ∧
      Tab.find (bursting x.1 [x.2]).blits (3 : Fin 4) = some (running x.1 [x.2]) ∧ (running x.1 [x.2]).todo = x.2 :: [] ∧
      Tab.get (bursting x.1 [x.2]).bltWait (3 : Fin 4) 0 = 0 ∧ (bursting x.1 [x.2]).bltRoom x.2.addr 256 = true ∧
      (bursting x.1 [x.2]).canonical = true ∧ (bltDesc (running x.1 [x.2]).desc).check (bursting x.1 [x.2]).capacity = 0 ∧
      (bltDesc (running x.1 [x.2]).desc).op = x.1 ∧ (bursting x.1 [x.2]).faulted 256 = false ∧
      (bursting x.1 [x.2]).poisoned 0 256 = false ∧ ({ bursting x.1 [x.2] with poison := [8] } : State).poisoned 0 256 = true) ∧
    (∀ k y, k ≠ (3 : Fin 4).val → Tab.find (bursting 1 []).blits k = some y → y.todo = []) := by
  refine ⟨?_, ?_, fun k y hk hy => no_other rfl hk hy⟩ <;> (unfold State.Up State.QuietFclk; decide +kernel)

theorem witness_BlitExecution_complete :
    (Tab.find State.reset.blits (3 : Fin 4).val = none) ∧
    (let s := withF [(Reg.BLT_CTRL_HALT_ON_ERROR 3, 1)]
       { State.reset with blits := [(3, { desc := descriptor 1, addr := 1024, index := 0, code := 7 })] }
     s.Up ∧ s.fb (Reg.BLT_CTRL_HALT_ON_ERROR (3 : Fin 4)) = true ∧ s.bltRoom (1024 + 0x34) 4 = true ∧
     Tab.find s.blits (3 : Fin 4).val = some { desc := descriptor 1, addr := 1024, index := 0, code := 7 }) ∧
    (let s := withF [(Reg.BLT_STATE_STATE 3, 2)] { bursting 1 [] with blits := [(3, { running 1 [] with wrote := true })] }
     s.Up ∧ s.canonical = true ∧ s.bltState (3 : Fin 4) ≠ 3 ∧ s.bltRoom (1024 + 0x34) 4 = true ∧
     Tab.find s.blits (3 : Fin 4).val = some { running 1 [] with wrote := true } ∧ s.mergedUe (1024 + 0x34) 4 = [] ∧
     (∀ k, k < 4 → s.faulted (1024 + 0x34 + k) = false)) := by
  unfold State.Up; decide +kernel

/-- Unit 15 at the result point of a frame of one line of two pixels on raster 0, with settings cfg. -/
def folded (cfg : Nat) (before : Option (Nat × Nat × Bool)) : State :=
  withF [(Reg.SIG_EXP_STATE_VALID 15, 1)] { State.reset with
    rasters := [(0, { mode := .run, tim := tiny, pos := tiny.hTotal * tiny.vActive })],
    sigs := [(15, { folding := true, cfg := cfg, before := before })] }

theorem witness_ResultPoint :
    (State.reset.Up ∧ State.reset.resultOf (15 : Fin 16) = none) ∧
    ((folded 2 none).Up ∧ (folded 2 none).resultOf (15 : Fin 16) = some ((folded 2 none).sig (15 : Fin 16), none) ∧
     ((folded 2 none).sig (15 : Fin 16)).mode = 2 ∧ (folded 2 none).sigLoaded (15 : Fin 16) = false) ∧
    ((folded 35 none).resultOf (15 : Fin 16) = some ((folded 35 none).sig (15 : Fin 16), none) ∧
     ((folded 35 none).sig (15 : Fin 16)).mode = 3 ∧
     ((folded 35 none).sig (15 : Fin 16)).expSrc = false ∧ ((folded 35 none).sigWant (15 : Fin 16)).2 = true) ∧
    ((folded 35 (some (0, 7, false))).resultOf (15 : Fin 16) = some ((folded 35 (some (0, 7, false))).sig (15 : Fin 16), none) ∧
     (folded 35 (some (0, 7, false))).sigLoaded (15 : Fin 16) = true ∧
     (folded 35 (some (0, 7, false))).sigWant (15 : Fin 16) = (7, false)) := by
  unfold State.Up; decide +kernel

/-- A frame of the unit's old raster ends, while the unit waits for one of its new one. -/
theorem witness_ResultPoint_tail :
    (let y : SigTail := { cfg := 35, org := 0, size := 0, crc := 0, prev := some 0 }
     let s : State := { State.reset with
       rasters := [(0, { mode := .run, tim := tiny, pos := tiny.hTotal * tiny.vActive })],
       sigs := [(15, { cfg := 0x10023, tails := [y] })] }
     s.Up ∧ s.resultOf (15 : Fin 16) = some (tailUnit (s.sig (15 : Fin 16)) y, some y)) := by
  unfold State.Up; decide +kernel

/-- A run over 64 bytes from address 0 on, n of them read. -/
def reading (n : Nat) : McuRun := { start := 0, len := 64, poly := 2, done := n, crc := 0xFFFFFFFF }

/-- Memory check unit 3 in that run. -/
def checking (n : Nat) : State := withF [(Reg.MCU_STATE_STATE 3, 1)] { trained State.reset with mcus := [(3, reading n)] }

theorem witness_ExpectedValuesAndMemoryRuns :
    (State.reset.Up ∧ State.reset.passes keeper (Reg.SIG_EXPECT (15 : Fin 16)) .w64 true = true ∧
     State.reset.passes keeper (Reg.MCU_EXPECT (3 : Fin 4)) .w64 true = true ∧
     State.reset.passes keeper (Reg.MCU_GO (0 : Fin 4)) .w32 true = true ∧
     Tab.find State.reset.mcus (3 : Fin 4).val = none) ∧
    (let s := withF [(Reg.MCU_LEN_LEN 3, 1)] (trained State.reset)
     s.passes keeper (Reg.MCU_GO (3 : Fin 4)) .w32 true = true ∧ s.f (Reg.MCU_STATE_STATE (3 : Fin 4)) = 0 ∧
     64 * s.f (Reg.MCU_LEN_LEN (3 : Fin 4)) ≠ 0 ∧
     ¬ s.capacity < 64 * s.f (Reg.MCU_START_ADDR (3 : Fin 4)) + 64 * s.f (Reg.MCU_LEN_LEN (3 : Fin 4))) ∧
    ((checking 0).Up ∧ Tab.find (checking 0).mcus (3 : Fin 4).val = some (reading 0) ∧ (checking 0).bus.blocked = [] ∧
     (checking 0).blits = [] ∧ (checking 0).mcus.map Prod.fst = [3] ∧ (checking 0).queueRoom .blit 0 1 = true ∧
     Reads (reading 0) 0 64 2 [] ∧ (reading 0).done < (reading 0).len) ∧
    (let s : State := { checking 0 with mcus := [(3, { reading 0 with wait := 1 })] }
     Tab.find s.mcus (3 : Fin 4).val = some { reading 0 with wait := 1 } ∧ Reads { reading 0 with wait := 1 } 0 64 2 []) ∧
    (((checking 0).setChan 0 { blit := List.replicate 64 { src := 0, addr := 0 } }).queueRoom .blit 0 1 = false) ∧
    (Tab.find (checking 64).mcus (3 : Fin 4).val = some (reading 64) ∧ Reads (reading 64) 0 64 2 [] ∧
     (reading 64).len ≤ (reading 64).done ∧ ((checking 0).poisoned 0 64 = false ∧
     ({ checking 0 with poison := [8] } : State).poisoned 0 64 = true)) := by
  unfold State.Up Reads; decide +kernel

/-! ### DDR4, interrupts and cores -/

theorem witness_DdrChannelsAndSlab :
    (let s : State := { withF [(Reg.MC_PWR_CFG_PD_EN 15, 1), (Reg.MC_PWR_CFG_SR_EN 15, 1), (Reg.MC_PWR_CFG_MARGIN_NS 15, 0),
       (Reg.MC_TIMING_PD_EXIT_NS 15, 24), (Reg.MC_TIMING_SR_EXIT_NS 15, 990), (Reg.MC_TOL_NS 15, 990)] (trained State.reset)
       with fclk := 2 ^ 40 }
     s.Up ∧ s.mcState (15 : Fin 16) = 1 ∧ s.fb (Reg.MC_PWR_CFG_PD_EN (15 : Fin 16)) = true ∧
     s.fb (Reg.MC_PWR_CFG_SR_EN (15 : Fin 16)) = true ∧ s.chanBusy (15 : Fin 16) = false ∧
     (s.chan (15 : Fin 16)).busy + 3 * s.f (Reg.MC_PWR_CFG_PD_IDLE_NS (15 : Fin 16)) ≤ s.fclk ∧
     (s.chan (15 : Fin 16)).busy + 3000 * s.f (Reg.MC_PWR_CFG_SR_IDLE_US (15 : Fin 16)) ≤ s.fclk ∧
     s.f (Reg.MC_TIMING_SR_EXIT_NS (15 : Fin 16)) + (s.chan (15 : Fin 16)).count * s.f (Reg.MC_STALL_T_REQ_NS (15 : Fin 16)) +
       s.f (Reg.MC_PWR_CFG_MARGIN_NS (15 : Fin 16)) ≤ s.f (Reg.MC_TOL_NS (15 : Fin 16)) ∧
     s.f (Reg.MC_TIMING_PD_EXIT_NS (15 : Fin 16)) + (s.chan (15 : Fin 16)).count * s.f (Reg.MC_STALL_T_REQ_NS (15 : Fin 16)) +
       s.f (Reg.MC_PWR_CFG_MARGIN_NS (15 : Fin 16)) ≤ s.f (Reg.MC_TOL_NS (15 : Fin 16))) ∧
    (let s : State := (withF [(Reg.MC_STATE_STATE 0, 3)] (trained State.reset)).setChan 0 { core := [{ src := 0, addr := 0 }] }
     s.Up ∧ s.mcState (0 : Fin 16) = 3 ∧ s.chanBusy (0 : Fin 16) = true) ∧
    (let s := withF [(Reg.MC_STATE_STATE 0, 2), (Reg.MC_SCRUB_EN 0, 1), (Reg.SLAB_SCRUB_EN, 1)] (trained State.reset)
     s.Up ∧ s.mcState (0 : Fin 16) = 2 ∧ s.ddrReady = true ∧ s.fb (Reg.MC_SCRUB_EN (0 : Fin 16)) = true ∧
     s.fb Reg.SLAB_SCRUB_EN = true ∧ (s.chan (0 : Fin 16)).caTries < 3 ∧ s.sourceStalled (192 + (0 : Fin 16).val) = false) ∧
    (let s : State := { State.reset with engines := [(2, { buf := [(0, List.replicate 256 5)] })] }
     slabWord (0xE200100008 : Addr).toNat = none ∧ bits (0xE200100008 : Addr).toNat 39 24 = 0xE200 ∧
     (s.engine ((0xE200100008 : Addr).toNat % 2 ^ 24 / 0x80000)).buf[(0xE200100008 : Addr).toNat % 0x80000 / 256]? =
       some (0, List.replicate 256 5) ∧
     (s.engine ((0xE200180000 : Addr).toNat % 2 ^ 24 / 0x80000)).buf[(0xE200180000 : Addr).toNat % 0x80000 / 256]? = none) ∧
    (let s : State := { trained State.reset with chans := [(0, { caTries := 3, crcTries := 3 })] }
     s.Up ∧ s.mcState (0 : Fin 16) ≠ 0 ∧ s.mcState (0 : Fin 16) ≠ 4 ∧ ¬ (s.chan (0 : Fin 16)).caTries < 3 ∧
     ¬ (s.chan (0 : Fin 16)).crcTries < 3) ∧
    (slabWord (0xE000000008 : Addr).toNat = some (0, 8) ∧ slabWord (256 : Addr).toNat = none ∧
     bits (256 : Addr).toNat 39 24 ≠ 0xE200) ∧
    ((trained State.reset).mcState (1 : Fin 16) = 1 ∧ (256 : Addr).toNat / 256 % 16 = (1 : Fin 16).val ∧
     (256 : Addr).toNat < (trained State.reset).capacity ∧ (256 : Addr).toNat / 8 * 8 ∉ (trained State.reset).poison) ∧
    (State.reset.Up ∧ State.reset.passes keeper (Reg.MC_REFRESH (15 : Fin 16)) .w32 true = true ∧
     State.reset.f (Reg.MC_REFRESH_DOUBLE (15 : Fin 16)) = 0) := by
  unfold State.Up; decide +kernel

theorem witness_CoresInterruptsAndDebug :
    (State.reset.Up ∧ State.reset.passes keeper (Reg.PLIC_CLAIM (15 : Fin 17)) .w32 false = true ∧
     State.reset.passes keeper (Reg.PLIC_CLAIM (0 : Fin 17)) .w32 true = true ∧
     State.reset.passes keeper Reg.PLIC_CLAIM_K .w32 false = true ∧
     State.reset.passes keeper Reg.PLIC_CLAIM_K .w32 true = true ∧ plicOwner (16 : Fin 17) keeper = true ∧
     State.reset.passes keeper (Reg.APPCX_MTIMECMP (7 : Fin 8)) .w64 true = true) ∧
    (State.reset.passes keeper Reg.APPCX_CORE_CTRL .w32 true = true ∧ State.reset.isM = true) ∧
    (let s := withF [(Reg.SYS_DEVICE_ID_VARIANT, 2)] State.reset
     s.Up ∧ s.passes keeper Reg.APPCX_CORE_CTRL .w32 true = true ∧ s.isM = false) ∧
    (let s := withF [(Reg.DBG_CTRL_DM_EN, 1), (Reg.DBG_CTRL_HALT_EN, 128), (Reg.DBG_STATE_ATTACHED, 1),
       (Reg.APPCX_CORE_STATE_RUNNING, 129)] State.reset
     s.Up ∧ s.fb Reg.DBG_CTRL_DM_EN = true ∧ s.fb Reg.DBG_STATE_ATTACHED = true ∧
     bit (s.f Reg.DBG_CTRL_HALT_EN) (7 : Fin 8) = true ∧ bit (s.f Reg.APPCX_CORE_STATE_RUNNING) (7 : Fin 8) = true ∧
     bit (s.f Reg.DBG_CTRL_HALT_EN) (0 : Fin 8) = false) := by
  unfold State.Up; decide +kernel

/-! ### Mailboxes, management Ethernet and serial interfaces -/

/-- Channel 63 bound from the Keeper to master 1, in a state. -/
def bound (st : Nat) : State :=
  withF [(Reg.MB_BIND_EN 63, 1), (Reg.MB_BIND_SENDER 63, 0), (Reg.MB_BIND_RECEIVER 63, 1), (Reg.MB_BIND_ACK_TIMEOUT_US 63, 1),
    (Reg.MB_BIND_LOCK_LOCKED, 1), (Reg.MB_STATE_STATE 63, st)] State.reset

/-- An application core. -/
def core0 : Req := ⟨1, .machine⟩

theorem witness_Mailboxes :
    ((bound 0).Up ∧ (bound 0).passes keeper (Reg.MB_MSG (63 : Fin 64) (15 : Fin 16)) .w32 true = true ∧
     (bound 0).passes keeper (Reg.MB_SEND (63 : Fin 64)) .w32 true = true ∧ keeper.master.val = (bound 0).mbSender (63 : Fin 64) ∧
     (bound 0).fb (Reg.MB_BIND_EN (63 : Fin 64)) = true ∧ (bound 0).fb Reg.MB_BIND_LOCK_LOCKED = true ∧
     (bound 0).mbState (63 : Fin 64) ≠ 1 ∧ bits (0x00100000 : Half).toNat 20 16 = 16) ∧
    ((bound 1).Up ∧ (bound 1).passes core0 (Reg.MB_ACK (63 : Fin 64)) .w32 true = true ∧
     core0.master.val = (bound 1).mbReceiver (63 : Fin 64) ∧ (bound 1).mbState (63 : Fin 64) = 1 ∧
     (bound 1).f (Reg.MB_BIND_ACK_TIMEOUT_US (63 : Fin 64)) ≠ 0) ∧
    ((bound 2).Up ∧ (bound 2).passes keeper (Reg.MB_DONE (63 : Fin 64)) .w32 true = true ∧ (bound 2).mbState (63 : Fin 64) = 2) := by
  unfold State.Up; decide +kernel

/-- MMAC1 enabled, with a link and both rings of two slots. -/
def mmac : State :=
  withF [(Reg.MMAC_CFG_EN 1, 1), (Reg.MMAC_LINK_LINK_UP 1, 1), (Reg.MMAC_TX_CFG_EN 1, 1), (Reg.MMAC_TX_CFG_SLOTS 1, 2),
    (Reg.MMAC_RX_CFG_EN 1, 1), (Reg.MMAC_RX_CFG_SLOTS 1, 2)] State.reset

/-- A frame of 64 bytes. -/
def plain : List Byte := List.replicate 64 0

theorem witness_ManagementEthernet :
    (State.reset.Up ∧ State.reset.passes keeper (Reg.MMAC_CFG (0 : Fin 2)) .w32 true = true ∧
     State.reset.passes keeper (Reg.MMAC_TX_PROD (1 : Fin 2)) .w32 true = true ∧
     Tab.find State.reset.serv.mmacTx (1 : Fin 2).val = none) ∧
    (mmac.Up ∧ mmac.passes keeper (Reg.MMAC_CFG (1 : Fin 2)) .w32 true = true ∧
     mmac.fb (Reg.MMAC_CFG_EN (1 : Fin 2)) = true ∧ isPause plain = false ∧ plain.length = 64 ∧ mmac.mmacPtp (1 : Fin 2) plain = none ∧
     mmac.fb (Reg.MMAC_RX_CFG_EN (1 : Fin 2)) = true ∧ mmac.mmacAccepts (1 : Fin 2) plain = true ∧ mmac.sourceStalled 17 = false ∧
     mmac.serv.mmacWait = [] ∧
     mmac.f (Reg.MMAC_RX_PROD_INDEX (1 : Fin 2)) = mmac.f (Reg.MMAC_RX_CONS_INDEX (1 : Fin 2))) ∧
    (mmac.passes keeper (Reg.MMAC_TX_PROD (1 : Fin 2)) .w32 true = true ∧ mmac.fb (Reg.MMAC_LINK_LINK_UP (1 : Fin 2)) = true ∧
     mmac.fb (Reg.MMAC_TX_CFG_EN (1 : Fin 2)) = true ∧ mmac.f (Reg.MMAC_TX_CONS_INDEX (1 : Fin 2)) = 0 ∧
     ¬ 14 ≤ mmac.rd (mmac.mmacSlot (1 : Fin 2)) 2) ∧
    (let s := withF [(Reg.MMAC_TX_PROD_INDEX 1, 1)] (mmac.setServ { mmac.serv with mmacTx := [(1, plain)] })
     s.Up ∧ Tab.find s.serv.mmacTx (1 : Fin 2).val = some plain ∧ s.sourceStalled 17 = false ∧ s.mmacTodo (1 : Fin 2) = 1 ∧ s.canonical = true) := by
  unfold State.Up; decide +kernel

/-- No channel of it is in FAULT. -/
theorem mmac_whole (b : Nat) : mmac.faulted b = false := by
  have h : ∀ c, c < 16 → (mmac.f (Reg.MC_STATE_STATE c) == 4) = false := by decide +kernel
  simp [State.faulted, h (b / 256 % 16) (Nat.mod_lt _ (by decide))]

/-- Identity 17 stalled behind a full queue; a PTP message; and a Delay_Req that waits with the port free. -/
theorem witness_ManagementEthernet_ptp :
    (let s : State := { mmac with chans := [(0, { waiters := [(.core, { src := 17, addr := 0 })] })] }
     s.Up ∧ s.sourceStalled 17 = true ∧ s.mmacAccepts (1 : Fin 2) plain = true) ∧
    (let s := withF [(Reg.TB_PTP_PORT_PORT 0, 0x81), (Reg.TB_PTP_PORT_L2 0, 1)] mmac
     let frame : List Byte := List.replicate 12 0 ++ [0x88, 0xF7] ++ [8, 2, 0, 0, BitVec.ofNat 8 (s.f Reg.TB_PTP_CFG_DOMAIN)] ++ List.replicate 45 0
     frame.length = 64 ∧ isPause frame = false ∧ (s.mmacPtp (1 : Fin 2) frame).isSome = true ∧ s.ptpEntry (0x80 + (1 : Fin 2)) = some 0) ∧
    (let s := mmac.setServ { mmac.serv with mmacReq := [(1, plain)] }
     Tab.find s.serv.mmacReq (1 : Fin 2) = some plain ∧ s.mmacFree (1 : Fin 2) = true) := by
  unfold State.Up; decide +kernel

theorem witness_MdioUartGpio :
    (State.reset.Up ∧ State.reset.passes keeper Reg.MDIO_CMD .w32 true = true ∧ State.reset.serv.mdio = none ∧
     State.reset.passes keeper Reg.UART_TX .w32 true = true ∧ State.reset.passes keeper Reg.UART_RX .w32 false = true ∧
     State.reset.passes keeper Reg.GPIO_INT_ACK .w32 true = true ∧ State.reset.serv.uartTx.length < 64 ∧
     State.reset.serv.uartRx = []) ∧
    (let s := State.reset.setServ { State.reset.serv with mdio := some (2 ^ 31), uartTx := List.replicate 64 0, uartRx := List.replicate 64 1 }
     s.Up ∧ s.passes keeper Reg.UART_TX .w32 true = true ∧ s.passes keeper Reg.UART_RX .w32 false = true ∧
     s.serv.mdio = some (2 ^ 31) ∧ 64 ≤ s.serv.uartTx.length ∧ 64 ≤ s.serv.uartRx.length ∧
     s.serv.uartRx = 1 :: List.replicate 63 1) := by
  unfold State.Up; decide +kernel

theorem witness_I2cAndSpi :
    (State.reset.Up ∧ State.reset.passes keeper (Reg.I2C_XFER (1 : Fin 2)) .w32 true = true ∧
     State.reset.passes keeper Reg.SPI_CMD .w32 true = true ∧ Tab.find State.reset.serv.i2c (0 : Fin 2).val = none ∧
     State.reset.serv.spi = none ∧ State.reset.fb (Reg.I2C_STATUS_BUSY (1 : Fin 2)) = false ∧
     bits (0x01000000 : Half).toNat 24 20 = 16 ∧ bits (0x00010000 : Half).toNat 16 8 = 256) ∧
    (let x : I2cRun := { target := 0x50, out := [1], rd := 16 }
     let y (write : Bool) : SpiRun :=
       { opcode := 3, addr := [0, 0, 0], addrQuad := false, dummy := 0, dataQuad := false, write := write, out := [], len := 256 }
     let s (write : Bool) := State.reset.setServ { State.reset.serv with i2c := [(1, x)], spi := some (y write) }
     (s false).Up ∧ Tab.find (s false).serv.i2c (1 : Fin 2).val = some x ∧ (s false).serv.spi = some (y false) ∧
     (y false).write = false ∧ (s true).serv.spi = some (y true) ∧ (y true).write = true) := by
  unfold State.Up; decide +kernel

/-! ### NVM, resets and boot -/

/-- An NVM whose store has been armed. -/
def armed (s : State) : State := { s with nvm := { s.nvm with key := 2 } }

/-- The reset state with one write of the Keeper waiting. -/
def withWrite (a : Nat) (d : Word) : State :=
  { State.reset with bus := { State.reset.bus with nvmQ := [waiting a d] } }

theorem oneWaits {w : Forwarded} {s : State} (h : s.Up ∧ s.bus.nvmQ = [w] ∧ s.bus.powerQ = [] ∧ s.NoneWaits) :
    OneWaits w (temps 1839) s :=
  ⟨h.1, h.2.1, h.2.2.1, h.2.2.2, temps_cool⟩

theorem withWrite_waits (a : Nat) (d : Word) : OneWaits (waiting a d) (temps 1839) (withWrite a d) :=
  oneWaits ⟨rfl, rfl, rfl, rfl, rfl⟩

theorem witness_NvmStores :
    (State.reset.Up ∧ State.reset.passes keeper Reg.NVM_KEY .w32 true = true ∧
     State.reset.passes keeper Reg.NVM_STORE .w32 true = true ∧ State.reset.passes keeper Reg.NVM_READ_SEL .w32 true = true ∧
     State.reset.hasRoom Reg.NVM_KEY) ∧
    (OneWaits (waiting Reg.NVM_KEY 0xC0DE) (temps 1839) (withWrite Reg.NVM_KEY 0xC0DE) ∧
     (waiting Reg.NVM_KEY 0xC0DE).addr = Reg.NVM_KEY) ∧
    (OneWaits (waiting Reg.NVM_STORE 127) (temps 1839) (armed (withWrite Reg.NVM_STORE 127)) ∧
     (armed (withWrite Reg.NVM_STORE 127)).nvm.storing = none ∧
     (armed (withWrite Reg.NVM_STORE 127)).sf (Reg.NVM_WEAR_COUNT 127) < 100000) ∧
    (let s : State := { State.reset with nvm := { State.reset.nvm with storing := some 127 } }
     s.Up ∧ s.nvm.storing = some 127) := by
  refine ⟨?_, ⟨withWrite_waits _ _, rfl⟩, ⟨oneWaits ⟨rfl, rfl, rfl, rfl, rfl⟩, by decide +kernel⟩, ?_⟩
  · unfold State.Up State.hasRoom; decide +kernel
  · unfold State.Up; decide +kernel

theorem witness_Resets :
    (State.reset.Up ∧ State.reset.passes keeper Reg.RESET_CTRL .w32 true = true ∧
     State.reset.passes keeper Reg.KWDT_KICK .w32 true = true) ∧
    OneWaits (waiting Reg.RESET_CTRL 0x3A5C0002) (temps 1839) (withWrite Reg.RESET_CTRL 0x3A5C0002) ∧
    OneWaits (waiting Reg.RESET_CTRL 0x3A5C0001) (temps 1839) (withWrite Reg.RESET_CTRL 0x3A5C0001) ∧
    OneWaits (waiting Reg.KWDT_KICK 0) (temps 1839) (withWrite Reg.KWDT_KICK 0) ∧
    (bits (0x3A5C0002 : Word).toNat 31 16 = 0x3A5C ∧ bits (0x3A5C0002 : Word).toNat 1 0 = 2 ∧
     bits (0x3A5C0001 : Word).toNat 1 0 = 1) ∧
    ((State.reset.setAon { State.reset.aon with hold := .pins }).aon.hold = .pins ∧ ¬ (State.reset.aon.hold = .pins)) ∧
    (let s := withSf [(Reg.RESET_CAUSE_CAUSE, 2), (Reg.BOOT_STATUS_STEP, 1)] State.reset
     s.aon.hold = .free ∧ s.sf Reg.BOOT_STATUS_STEP = 1 ∧ s.sf Reg.RESET_CAUSE_CAUSE = 2) ∧
    (let s := (withSf [(Reg.KWDT_CFG_EN, 1), (Reg.KWDT_CFG_TIMEOUT_MS, 1)] State.reset).setAon
       { State.reset.aon with watchdog := 1000 }
     s.Up ∧ s.sf Reg.KWDT_CFG_EN = 1 ∧ 1000 * max 1 (s.sf Reg.KWDT_CFG_TIMEOUT_MS) ≤ s.aon.watchdog) := by
  refine ⟨?_, withWrite_waits _ _, withWrite_waits _ _, withWrite_waits _ _, by decide +kernel, ?_⟩ <;>
    unfold State.Up <;> decide +kernel

/-- An unsigned image of R562 with four body bytes. -/
def bootImageOf (magic : Nat) : List Byte :=
  let head := leBytes 4 magic ++ [1, 0, 0, 0] ++ leBytes 4 4 ++ leBytes 4 0 ++ leBytes 4 0 ++ leBytes 4 7
  let body : List Byte := [1, 2, 3, 4]
  head ++ leBytes 4 (crc32c (head ++ [0, 0, 0, 0] ++ [0, 0, 0, 0] ++ body)) ++ [0, 0, 0, 0] ++ body

/-- Boot parameters for DDR4-3200 of one rank. -/
def bootParams : List Byte :=
  let head := leBytes 4 0x4D525042 ++ [1, 0, 0, 0]
  let rest : List Byte := [0, 3, 0, 1, 0xFF, 0, 0, 0, 0, 0, 0, 0] ++ List.replicate 104 0
  head ++ leBytes 4 (crc32c (head ++ [0, 0, 0, 0] ++ rest)) ++ rest

/-- Boot stands at a step, the firmware running. -/
def booting (step code : Nat) : State :=
  (withSf [(Reg.BOOT_STATUS_STEP, step), (Reg.BOOT_STATUS_CODE, code)] State.reset).setAon
    { State.reset.aon with keeperUp := true, params := bootParams }

theorem witness_BootSteps :
    (let s := withSf [(Reg.BOOT_STATUS_STEP, 2)] State.reset
     s.Up ∧ s.aon.keeperUp = false ∧ s.aon.halted = false ∧ s.sf Reg.BOOT_STATUS_STEP = 2 ∧ s.roleForbidden = false ∧
     s.chooseFirmware [] = none ∧
     s.chooseFirmware (bootImageOf firmwareMagic) = some (⟨0, 0, 7, 0, [1, 2, 3, 4]⟩, 2) ∧
     paramsValid (s.nvmBytes 18 128) = false ∧ paramsValid [] = false ∧ paramsValid bootParams = true ∧
     s.aon.saved = none) ∧
    ((booting 5 0).Up ∧ (booting 5 0).aon.keeperUp = true ∧ (booting 5 0).sf Reg.BOOT_STATUS_STEP = 5 ∧
     (booting 5 0).aon.stopped = false ∧ (booting 5 0).isM = true ∧ (booting 5 7).sf Reg.BOOT_STATUS_CODE = 7) ∧
    ((booting 6 0).Up ∧ (booting 6 0).aon.keeperUp = true ∧ (booting 6 0).aon.stopped = false ∧ (booting 6 0).sf Reg.BOOT_STATUS_STEP = 6 ∧
     (booting 6 0).bootImage [] appMagic 4194304 (2 ^ 32) = none ∧
     (booting 6 0).bootImage (bootImageOf appMagic) appMagic 4194304 (2 ^ 32) = some ⟨0, 0, 7, 0, [1, 2, 3, 4]⟩ ∧
     (booting 6 7).sf Reg.BOOT_STATUS_CODE = 7) := by
  unfold State.Up; decide +kernel

end Sys2Proof.Tests
end

section
/-! SUPPORT. The register map as a table: what `findReg` answers is a row of a block of the map, at the address that the row
gives it (R18, R38). -/

namespace Sys2Proof.Machine

/-- What the map answers at an address: a row of the address's block that holds it, and the first byte of the register. -/
theorem findReg_inv {a : Nat} {x : Found} (h : findReg a = some x) :
    ∃ p ∈ blockAt (bits a 27 20), x.row ∈ p.1.rows ∧ ∃ e, rowAt x.row (bits a 17 0) = some e ∧
      x.addr = 0xF000000000 + bits a 27 20 * 0x100000 + bits a 17 0 - e.2 := by
  unfold findReg at h
  split at h
  · cases h
  · next b i hb =>
    obtain ⟨r, hr, hx⟩ := List.exists_of_findSome?_eq_some h
    obtain ⟨e, he, rfl⟩ := Option.map_eq_some_iff.mp hx
    exact ⟨(b, i), hb, hr, e, he, rfl⟩

/-- A block that the map answers is one of its table. -/
theorem blockAt_mem {k : Nat} {p : BlockRow × Nat} (h : p ∈ blockAt k) : p.1 ∈ blockTable := by
  obtain ⟨b, hb, rfl⟩ := Option.map_eq_some_iff.mp h
  exact List.mem_of_find?_eq_some hb

/-- A register without elements stands at the offset of its row. -/
theorem rowAt_single {r : RegRow} {o : Nat} {e : List Nat × Nat} (hd : r.dims = []) (h : rowAt r o = some e) :
    o = r.off + e.2 := by
  simp only [rowAt, hd, elemAt, Option.ite_none_left_eq_some, Option.ite_none_right_eq_some, Option.some.injEq] at h
  obtain ⟨hoff, -, rfl⟩ := h
  simp only
  omega

/-- The registers that R65 clears one by one have no elements, and the map gives each the reset value 0. -/
theorem resetAt_status_or_writeOnce : ∀ k : Fin 256, ∀ p ∈ blockAt k, ∀ r ∈ p.1.rows,
    (r.off = 4 ∨ ∃ y ∈ r.fields, y.type = .wo1) →
      r.dims = [] ∧ resetAt (0xF000000000 + k * 0x100000 + r.off) = 0 := by
  decide +kernel

/-- A status register or a register with a write-once field resets to 0 at the address that the map gives it. -/
theorem resetAt_found {a : Nat} {x : Found} (h : findReg a = some x)
    (hr : x.row.off = 4 ∨ ∃ y ∈ x.row.fields, y.type = .wo1) : resetAt x.addr = 0 := by
  obtain ⟨p, hp, hx, e, he, ha⟩ := findReg_inv h
  obtain ⟨hd, h0⟩ := resetAt_status_or_writeOnce ⟨bits a 27 20, bits_lt a 27 20⟩ p hp x.row hx hr
  have ho := rowAt_single hd he
  rw [ha, show 0xF000000000 + bits a 27 20 * 0x100000 + bits a 17 0 - e.2 =
    0xF000000000 + bits a 27 20 * 0x100000 + x.row.off by omega]
  exact h0

namespace State

/-- After reset every register shows its reset value. -/
@[simp] theorem reset_reg (a : Nat) : State.reset.reg a = resetAt a := rfl

/-- After reset the slow domain holds the reset value of every mirrored register. -/
@[simp] theorem reset_slowReg (a : Nat) : State.reset.slowReg a = resetAt a := rfl

end State
end Sys2Proof.Machine
end

section
/-! SUPPORT. Accesses of any master: what a write or a read anywhere does once its judgement is known, and what a denial
leaves in the logs (R42, R44, R52, R621). -/

namespace Sys2Proof.Machine
namespace State

/-! ### Answers -/

/-- An answer other than a bus error changes the answers alone. -/
theorem respond_eq (s : State) (m : Nat) {k : RespKind} (d : Word) (c : Nat) (h : k ≠ .busError) :
    s.respond m k d c = s.setBus { s.bus with resp := Tab.put s.bus.resp m ⟨k, d, c⟩ } := by
  simp [respond, setBus, h]

/-- The same after another change of the access machinery. -/
theorem setBus_respond (s : State) (b : Bus) (m : Nat) {k : RespKind} (d : Word) (c : Nat) (h : k ≠ .busError) :
    (s.setBus b).respond m k d c = s.setBus { b with resp := Tab.put b.resp m ⟨k, d, c⟩ } := by
  rw [respond_eq _ _ _ _ h]; rfl

/-! ### Set events -/

/-- A second set event of a cycle counts no more (R52). -/
theorem seq_raiseAll_again (s : State) {a : Nat} (l : List Nat) (h : s.cycle.contains a = true) :
    bits ((s.raiseAll a l).reg a).toNat 31 16 = bits (s.reg a).toNat 31 16 := by
  have e : (s.raiseAll a l).reg a = BitVec.ofNat 64 (bits (s.reg a).toNat 31 16 * 65536 +
        l.foldl (fun m b => m ||| 2 ^ b) (bits (s.reg a).toNat 15 0) % 65536) := by
    simp only [raiseAll, h, reg, setReg]
    simp
  rw [e, BitVec.toNat_ofNat]
  unfold bits
  omega

/-- A set event of at least one flag raises those flags, and SEQ counts it once in a cycle. -/
theorem raiseAll_raised (s : State) {a : Nat} {l : List Nat} (h : l ≠ []) : Raised a l s (s.raiseAll a l) := by
  refine ⟨fun b hb => flagSet_raiseAll s l hb, ?_⟩
  cases hc : s.cycle.contains a with
  | true => simp [seq_raiseAll_again s l hc]
  | false => simp [seq_raiseAll s l hc, h]

/-- What a set event raises depends on the status register and the record of the cycle alone. -/
theorem Raised.of_same {a : Nat} {l : List Nat} {s s' t t' : State} (h : Raised a l s t) (hs : s'.reg a = s.reg a)
    (hc : s'.cycle = s.cycle) (ht : t'.reg a = t.reg a) : Raised a l s' t' := by
  unfold Raised flagSet at *
  rw [hs, hc, ht]
  exact h

/-! ### Commands of a part that runs -/

theorem exec_registerWrite {s : State} (h : s.Up) (r : Req) (a : Addr) (w : Width) (d : Word) :
    exec (.registerWrite r a w d) s = .next (s.writeAny r a.toNat w d) :=
  running_up h fun t => t.writeAny r a.toNat w d

theorem exec_registerRead {s : State} (h : s.Up) (r : Req) (a : Addr) (w : Width) :
    exec (.registerRead r a w) s = .next (s.readAny r a.toNat w) :=
  running_up h fun t => t.readAny r a.toNat w

theorem exec_setAliasWrite {s : State} (h : s.Up) (r : Req) (a : Addr) (w : Width) (d : Word) :
    exec (.setAliasWrite r a w d) s = .next (s.writeAny r (a.toNat + 0x40000) w d) :=
  running_up h fun t => t.writeAny r (a.toNat + 0x40000) w d

theorem exec_clearAliasWrite {s : State} (h : s.Up) (r : Req) (a : Addr) (w : Width) (d : Word) :
    exec (.clearAliasWrite r a w d) s = .next (s.writeAny r (a.toNat + 0x80000) w d) :=
  running_up h fun t => t.writeAny r (a.toNat + 0x80000) w d

theorem exec_toggleAliasWrite {s : State} (h : s.Up) (r : Req) (a : Addr) (w : Width) (d : Word) :
    exec (.toggleAliasWrite r a w d) s = .next (s.writeAny r (a.toNat + 0xC0000) w d) :=
  running_up h fun t => t.writeAny r (a.toNat + 0xC0000) w d

/-- The word of SEQ and mask. -/
def clearWord (seq mask : BitVec 16) : Word := BitVec.ofNat 64 (seq.toNat * 65536 + mask.toNat)

theorem exec_sequenceClear {s : State} (h : s.Up) (r : Req) (a : Addr) (seq mask : BitVec 16) :
    exec (.sequenceClear r a seq mask) s = .next (s.writeAny r a.toNat .w32 (clearWord seq mask)) :=
  running_up h fun t => t.writeAny r a.toNat .w32 (clearWord seq mask)

/-! ### Judged accesses -/

/-- A write anywhere without sufficient class is denied. -/
theorem writeAny_denied {s : State} {r : Req} {a : Nat} {w : Width} {d : Word} {need : Nat} (hm : s.mute r = false)
    (h : s.judge r a w true = .denied need) : s.writeAny r a w d = s.deny r a true need := by
  unfold writeAny
  rw [guarded_of hm, h]

/-- A read anywhere without sufficient class is denied. -/
theorem readAny_denied {s : State} {r : Req} {a : Nat} {w : Width} {need : Nat} (hm : s.mute r = false)
    (h : s.judge r a w false = .denied need) : s.readAny r a w = s.deny r a false need := by
  unfold readAny
  rw [guarded_of hm, h]

/-- A write anywhere that reaches a register serves the register's effect. -/
theorem writeAny_reg {s : State} {r : Req} {a : Nat} {w : Width} {d : Word} {x : Found} {v : View} {p : Part}
    (hm : s.mute r = false) (h : s.judge r a w true = .ok (.reg x v p)) :
    s.writeAny r a w d = serveRegWrite (writeEffect x.row.eff) r x v p d.toNat s := by
  unfold writeAny
  rw [guarded_of hm, h]

/-! ### The access log (R621) -/

theorem logEntry_ne_head (n : Nat) : Reg.ACCESS_LOG_ENTRY n ≠ Reg.ACCESS_LOG_HEAD := by
  unfold Reg.ACCESS_LOG_ENTRY Reg.ACCESS_LOG_HEAD; omega

theorem status_ne_logEntry (n : Nat) : Reg.MASTERS_BLOCK_STATUS ≠ Reg.ACCESS_LOG_ENTRY n := by
  unfold Reg.MASTERS_BLOCK_STATUS Reg.ACCESS_LOG_ENTRY; omega

variable (s : State) (r : Req) (a : Nat) (wr : Bool) (need : Nat)

/-- The logged word of an access: VALID, WRITE, NEEDED, MASTER, SEQ and ADDR (R621). -/
def logWord (total : Nat) : Nat :=
  2 ^ 63 + (if wr then 2 ^ 62 else 0) + need * 2 ^ 60 + r.master.val * 2 ^ 52 + total % 4096 * 2 ^ 40 + a % 2 ^ 40

/-- TOTAL after a denial is counted. -/
def counted : State := s.satF Reg.ACCESS_LOG_HEAD_TOTAL 1

/-- The registers of the log after a denial, before the set event. -/
def logged : State :=
  (s.counted.setReg (Reg.ACCESS_LOG_ENTRY (s.f Reg.ACCESS_LOG_HEAD_NEXT))
    (BitVec.ofNat 64 (logWord r a wr need (s.counted.f Reg.ACCESS_LOG_HEAD_TOTAL)))).setF
      Reg.ACCESS_LOG_HEAD_NEXT (s.f Reg.ACCESS_LOG_HEAD_NEXT + 1)

/-- The flags that a denial sets. -/
def deniedFlags : List Nat :=
  Flag.MASTERS_ACCESS_DENIED :: if s.bus.logUnread = 32 then [Flag.MASTERS_LOG_WRAPPED] else []

/-- A denial writes the log's registers, then sets its flags and counts an unread entry. -/
theorem logDenied_eq : s.logDenied r a wr need =
    ((s.logged r a wr need).raiseAll Reg.MASTERS_BLOCK_STATUS s.deniedFlags).setBus
      { s.bus with logUnread := min 32 (s.bus.logUnread + 1) } := rfl

/-- TOTAL counts the denial, and stops at its largest value. -/
theorem counted_total : s.counted.f Reg.ACCESS_LOG_HEAD_TOTAL = min (s.f Reg.ACCESS_LOG_HEAD_TOTAL + 1) (2 ^ 24 - 1) := by
  unfold counted
  rw [satF_eq, f_setF_same _ _ (by decide) (by decide)]
  refine Nat.mod_eq_of_lt ?_
  simp only [satAdd, Reg.ACCESS_LOG_HEAD_TOTAL]
  omega

theorem logged_total : (s.logged r a wr need).f Reg.ACCESS_LOG_HEAD_TOTAL = s.counted.f Reg.ACCESS_LOG_HEAD_TOTAL := by
  unfold logged
  rw [f_setF_disjoint (x := Reg.ACCESS_LOG_HEAD_NEXT) (y := Reg.ACCESS_LOG_HEAD_TOTAL) _ _ rfl (by decide) (by decide)
    (by decide) (.inr (by decide)), f_setReg_other _ _ (logEntry_ne_head _).symm]

theorem logged_next : (s.logged r a wr need).f Reg.ACCESS_LOG_HEAD_NEXT = (s.f Reg.ACCESS_LOG_HEAD_NEXT + 1) % 32 :=
  f_setF_same _ _ (by decide) (by decide)

theorem logged_entry : (s.logged r a wr need).reg (Reg.ACCESS_LOG_ENTRY (s.f Reg.ACCESS_LOG_HEAD_NEXT)) =
    BitVec.ofNat 64 (logWord r a wr need (s.counted.f Reg.ACCESS_LOG_HEAD_TOTAL)) := by
  unfold logged
  rw [reg_setF_other _ _ (logEntry_ne_head _), reg_setReg_same]

theorem logged_reg_other {b : Nat} (hh : b ≠ Reg.ACCESS_LOG_HEAD)
    (he : b ≠ Reg.ACCESS_LOG_ENTRY (s.f Reg.ACCESS_LOG_HEAD_NEXT)) : (s.logged r a wr need).reg b = s.reg b := by
  unfold logged counted
  rw [reg_setF_other _ _ hh, reg_setReg_other _ _ he, satF_eq, reg_setF_other _ _ hh]

/-- A denial logs the access, and answers with zero, or with identity 31 at SYS_SEM_ACQ (R42, R63). -/
theorem deny_eq : s.deny r a wr need =
    ((s.logged r a wr need).raiseAll Reg.MASTERS_BLOCK_STATUS s.deniedFlags).setBus { s.bus with
      resp := Tab.put s.bus.resp r.master.val
        ⟨.denied, if wr = false ∧ 0xF000000400 ≤ a ∧ a < 0xF000000500 then 0x8000001F else 0, 0⟩,
      logUnread := min 32 (s.bus.logUnread + 1) } := by
  unfold deny
  rw [logDenied_eq, setBus_respond _ _ _ _ _ (by decide)]

theorem deny_reg (b : Nat) : (s.deny r a wr need).reg b =
    ((s.logged r a wr need).raiseAll Reg.MASTERS_BLOCK_STATUS s.deniedFlags).reg b := by
  rw [deny_eq, setBus_read_reg]

theorem deny_f_head {y : Fld} (h : y.addr = Reg.ACCESS_LOG_HEAD) :
    (s.deny r a wr need).f y = (s.logged r a wr need).f y := by
  unfold f
  rw [deny_reg, reg_raiseAll_other _ _ (by rw [h]; decide)]

/-- A denial changes nothing but registers, the record of set events, the answers and the count of unread entries. -/
theorem deny_frame : s.deny r a wr need = { s with
    regs := (s.deny r a wr need).regs, cycle := (s.deny r a wr need).cycle,
    bus := { s.bus with resp := (s.deny r a wr need).bus.resp, logUnread := (s.deny r a wr need).bus.logUnread } } := by
  rw [deny_eq]
  simp only [setBus, raiseAll, logged, counted, satF, setF, setReg]

/-- A denial is logged as R42 and R621 say. -/
theorem deny_logged (ha : a < 2 ^ 40) : DenialLogged r a wr need s (s.deny r a wr need) := by
  have hstatus : (s.logged r a wr need).reg Reg.MASTERS_BLOCK_STATUS = s.reg Reg.MASTERS_BLOCK_STATUS :=
    logged_reg_other s r a wr need (by decide) (status_ne_logEntry _)
  refine ⟨?_, ?_, ?_, ?_, by rw [deny_eq, setBus_bus], s.deny_frame r a wr need, ?_, fun _ => by rw [deny_frame]⟩
  · rw [deny_f_head _ _ _ _ _ rfl, logged_total, counted_total]
  · rw [deny_f_head _ _ _ _ _ rfl, logged_next]
  · rw [deny_f_head _ _ _ _ _ rfl, deny_reg, reg_raiseAll_other _ _ (status_ne_logEntry _).symm, logged_entry, logged_total,
      logWord, Nat.mod_eq_of_lt ha]
  · exact (raiseAll_raised _ (List.cons_ne_nil _ _)).of_same hstatus.symm rfl (deny_reg ..)
  · intro b hb
    simp only [List.mem_cons, List.not_mem_nil, or_false, not_or] at hb
    obtain ⟨hh, he, hm⟩ := hb
    rw [deny_reg, reg_raiseAll_other _ _ hm, logged_reg_other s r a wr need hh he]

/-- A denied access answers its master with zero, or with identity 31 at SYS_SEM_ACQ (R42, R63). -/
theorem deny_told : Told r { kind := .denied, data :=
    if wr = false ∧ 0xF000000400 ≤ a ∧ a < 0xF000000500 then 0x8000001F else 0 } s (s.deny r a wr need) := by
  rw [Told, deny_eq, setBus_bus]

end State
end Sys2Proof.Machine
end

section
/-! SUPPORT. Bits of a difference, and the fields of a register after a write (R20, R48–R53). -/

namespace Sys2Proof.Machine

/-! ### Numbers by their bits -/

/-- The bits that m and n share end odd where both do. -/
theorem and_mod_two_eq (m n : Nat) : (m &&& n) % 2 = if m % 2 = 1 ∧ n % 2 = 1 then 1 else 0 := by
  have h : (m &&& n) % 2 = (m % 2) &&& (n % 2) := Nat.and_mod_two_pow (n := 1)
  rw [h]
  rcases Nat.mod_two_eq_zero_or_one m with hm | hm <;> rcases Nat.mod_two_eq_zero_or_one n with hn | hn <;>
    simp [hm, hn]

/-- Taking away the bits shared with n clears those bits. -/
theorem testBit_sub_and (m n i : Nat) : (m - (m &&& n)).testBit i = (m.testBit i && !n.testBit i) := by
  have hpar := and_mod_two_eq m n
  have hle : m &&& n ≤ m := Nat.and_le_left
  induction i generalizing m n with
  | zero =>
    rw [Nat.testBit_zero, Nat.testBit_zero, Nat.testBit_zero, Bool.eq_iff_iff]
    simp only [Bool.and_eq_true, Bool.not_eq_true', decide_eq_true_eq, decide_eq_false_iff_not]
    split at hpar <;> omega
  | succ i ih =>
    have hdiv : (m - (m &&& n)) / 2 = m / 2 - (m / 2 &&& n / 2) := by
      rw [← Nat.and_div_two]
      split at hpar <;> omega
    rw [Nat.testBit_succ, Nat.testBit_succ, Nat.testBit_succ, hdiv]
    exact ih (m / 2) (n / 2) (and_mod_two_eq _ _) Nat.and_le_left

theorem bits_or (v d hi lo : Nat) : bits (v ||| d) hi lo = bits v hi lo ||| bits d hi lo := by
  apply Nat.eq_of_testBit_eq
  intro i
  simp only [Nat.testBit_or, bits_testBit, Bool.and_or_distrib_left]

theorem bits_xor (v d hi lo : Nat) : bits (v ^^^ d) hi lo = bits v hi lo ^^^ bits d hi lo := by
  apply Nat.eq_of_testBit_eq
  intro i
  simp only [Nat.testBit_xor, bits_testBit, Bool.and_xor_distrib_left]

theorem bits_sub_and (v d hi lo : Nat) : bits (v - (v &&& d)) hi lo = bits v hi lo - (bits v hi lo &&& bits d hi lo) := by
  apply Nat.eq_of_testBit_eq
  intro i
  simp only [testBit_sub_and, bits_testBit]
  cases decide (i < hi + 1 - lo) <;> simp

/-- Below bit n, a write of the low n bits of d shows d. -/
theorem bits_write_low {v d hi lo n : Nat} (h : hi < n) (hl : lo ≤ hi) :
    bits (v - (v &&& (2 ^ n - 1)) + (d &&& (2 ^ n - 1))) hi lo = bits d hi lo := by
  rw [Nat.and_two_pow_sub_one_eq_mod, Nat.and_two_pow_sub_one_eq_mod, ← bits_mod h hl]
  have hv : v - v % 2 ^ n = 2 ^ n * (v / 2 ^ n) := by
    have := Nat.div_add_mod v (2 ^ n)
    omega
  rw [hv, Nat.mul_add_mod, Nat.mod_mod, bits_mod h hl]

/-- A flag of a field that starts at bit 0. -/
theorem bit_bits (v hi b : Nat) (h : b ≤ hi) : bit (bits v hi 0) b = bit v b := by
  rw [bit_testBit, bit_testBit, bits_testBit, Nat.zero_add]
  simp; omega

/-! ### The fields of a register -/

/-- The bits of a register (R46). -/
def RegRow.size (r : RegRow) : Nat := if r.wide then 64 else 32

theorem RegRow.size_le (r : RegRow) : r.size ≤ 64 := by unfold size; split <;> omega

/-- Each field of the register lies below bit n, and no two fields share a bit. -/
def FieldsFit (n : Nat) (fs : List Field) : Prop :=
  (∀ y ∈ fs, y.lo ≤ y.hi ∧ y.hi < n) ∧ fs.Pairwise fun y z => y.hi < z.lo ∨ z.hi < y.lo

/-- The fields of every register of the map fit in it and share no bit. -/
theorem map_fields_fit : ∀ b ∈ blockTable, ∀ r ∈ b.rows, FieldsFit r.size r.fields := by
  unfold FieldsFit
  decide +kernel

/-- The fields of a register that the map answers fit in it and share no bit. -/
theorem found_fields_fit {a : Nat} {x : Found} (h : findReg a = some x) :
    FieldsFit x.row.size x.row.fields := by
  obtain ⟨p, hp, hx, -⟩ := findReg_inv h
  exact map_fields_fit p.1 (blockAt_mem hp) x.row hx

namespace State

section
variable {al : Bool} {a mask d old : Nat}

/-- A write leaves a field as it is, or puts a value into it that does not depend on what the other fields hold. -/
theorem writeField_cases (a : Nat) (al : Bool) (mask d old : Nat) (y : Field) :
    (∀ v, writeField a al mask d old v y = v) ∨ ∃ n, ∀ v, writeField a al mask d old v y = putBits v y.hi y.lo n := by
  unfold writeField
  cases y.type with
  | rw => exact .inr ⟨_, fun _ => rfl⟩
  | wo1 => exact .inr ⟨_, fun _ => rfl⟩
  | ro => exact .inl fun _ => rfl
  | wo => exact .inl fun _ => rfl
  | mr => exact .inl fun _ => rfl
  | rsv =>
    dsimp only
    split
    · exact .inl fun _ => rfl
    · exact .inr ⟨_, fun _ => rfl⟩
  | sq =>
    dsimp only
    split
    · exact .inr ⟨_, fun _ => rfl⟩
    · exact .inl fun _ => rfl

/-- A write of a field leaves every field that shares no bit with it. -/
theorem bits_writeField_other {v : Nat} {y z : Field} (hy : y.lo ≤ y.hi) (hz : z.lo ≤ z.hi)
    (h : y.hi < z.lo ∨ z.hi < y.lo) : bits (writeField a al mask d old v y) z.hi z.lo = bits v z.hi z.lo := by
  rcases writeField_cases a al mask d old y with e | ⟨n, e⟩
  · rw [e]
  · rw [e, bits_putBits_other hy hz h.symm]

/-- What a field holds after its write depends on what that field held. -/
theorem bits_writeField_same {v v' : Nat} {y : Field} (hy : y.lo ≤ y.hi) (h : bits v y.hi y.lo = bits v' y.hi y.lo) :
    bits (writeField a al mask d old v y) y.hi y.lo = bits (writeField a al mask d old v' y) y.hi y.lo := by
  rcases writeField_cases a al mask d old y with e | ⟨n, e⟩
  · rw [e, e, h]
  · rw [e, e, bits_putBits_same hy, bits_putBits_same hy]

/-- Writes of fields leave a field that shares no bit with any of them. -/
theorem bits_foldl_other {fs : List Field} {v : Nat} {z : Field} (hz : z.lo ≤ z.hi)
    (h : ∀ y ∈ fs, y.lo ≤ y.hi ∧ (y.hi < z.lo ∨ z.hi < y.lo)) :
    bits (fs.foldl (writeField a al mask d old) v) z.hi z.lo = bits v z.hi z.lo := by
  induction fs generalizing v with
  | nil => rfl
  | cons y fs ih =>
    obtain ⟨hy, hd⟩ := h y (List.mem_cons_self ..)
    rw [List.foldl_cons, ih fun w hw => h w (List.mem_cons_of_mem _ hw), bits_writeField_other hy hz hd]

/-- Where no two fields share a bit, each holds after the write of all what it holds after its own. -/
theorem bits_foldl_mem {n : Nat} {fs : List Field} {v : Nat} {y : Field} (hf : FieldsFit n fs) (hy : y ∈ fs) :
    bits (fs.foldl (writeField a al mask d old) v) y.hi y.lo = bits (writeField a al mask d old v y) y.hi y.lo := by
  obtain ⟨hb, hp⟩ := hf
  induction fs generalizing v with
  | nil => cases hy
  | cons z fs ih =>
    obtain ⟨hz, hp⟩ := List.pairwise_cons.mp hp
    have hb' : ∀ w ∈ fs, w.lo ≤ w.hi ∧ w.hi < n := fun w hw => hb w (List.mem_cons_of_mem _ hw)
    obtain ⟨hzl, -⟩ := hb z (List.mem_cons_self ..)
    rw [List.foldl_cons]
    rcases List.mem_cons.mp hy with rfl | hy
    · exact bits_foldl_other hzl fun w hw => ⟨(hb' w hw).1, (hz w hw).symm⟩
    · rw [ih hy hb' hp]
      exact bits_writeField_same (hb' y hy).1 (bits_writeField_other hzl (hb' y hy).1 (hz y hy))

variable {n : Nat} {fs : List Field} {y : Field}

/-- An RW field of a register of n bits takes its bits of d (R20). -/
theorem bits_writeFields_rw (hf : FieldsFit n fs) (hy : y ∈ fs) (ht : y.type = .rw) :
    bits (writeFields a al fs (2 ^ n - 1) d old) y.hi y.lo = bits d y.hi y.lo := by
  obtain ⟨hl, hn⟩ := hf.1 y hy
  have e : writeField a al (2 ^ n - 1) d old old y =
      putBits old y.hi y.lo (bits (old - (old &&& (2 ^ n - 1)) + (d &&& (2 ^ n - 1))) y.hi y.lo) := by
    unfold writeField; rw [ht]
  rw [writeFields, bits_foldl_mem hf hy, e, bits_putBits_same hl, bits_write_low hn hl, Nat.mod_eq_of_lt (bits_lt ..)]

/-- A read-only or a reserved field keeps its value over a write by a set, clear or toggle view (R20, R51). -/
theorem bits_writeFields_kept (hf : FieldsFit n fs) (hy : y ∈ fs) (ht : y.type = .ro ∨ y.type = .rsv) :
    bits (writeFields a true fs mask d old) y.hi y.lo = bits old y.hi y.lo := by
  have e : writeField a true mask d old old y = old := by
    unfold writeField
    rcases ht with ht | ht <;> simp [ht]
  rw [writeFields, bits_foldl_mem hf hy, e]

end

/-! ### Status registers that are cleared by sequence (R53) -/

/-- The fields of a status register that is cleared by sequence: SEQ and its flags. -/
def statusFields : List Field := [⟨31, 16, .sq⟩, ⟨15, 0, .sq⟩]

theorem statusFields_fit : FieldsFit 32 statusFields := by
  unfold FieldsFit; decide

/-- SEQ stays over every write. -/
theorem seq_writeFields (a mask d old : Nat) (al : Bool) :
    bits (writeFields a al statusFields mask d old) 31 16 = bits old 31 16 :=
  bits_foldl_mem (y := ⟨31, 16, .sq⟩) statusFields_fit (by simp [statusFields])

/-- A flag clears where the mask selects it and the written SEQ is the current one. -/
theorem flag_writeFields (a mask d old b : Nat) (al : Bool) (hb : b < 16) :
    bit (writeFields a al statusFields mask d old) b =
      (bit old b && !(decide (bits d 31 16 = bits old 31 16) && bit (bits d 15 0) b)) := by
  have e := bits_foldl_mem (a := a) (al := al) (mask := mask) (d := d) (old := old) (v := old) (y := ⟨15, 0, .sq⟩)
    statusFields_fit (by simp [statusFields])
  rw [← bit_bits _ 15 b (by omega), writeFields, e, writeField]
  by_cases h : bits d 31 16 = bits old 31 16
  · have hlt : bits old 15 0 - (bits old 15 0 &&& bits d 15 0) < 2 ^ 16 :=
      Nat.lt_of_le_of_lt (Nat.sub_le ..) (bits_lt old 15 0)
    simp only [h, and_self, if_true, decide_true, Bool.true_and]
    rw [bits_putBits_same (by decide), Nat.mod_eq_of_lt hlt, bit_testBit, testBit_sub_and, ← bit_testBit, ← bit_testBit,
      bit_bits old 15 b (by omega)]
  · simp only [h, and_false, if_false, decide_false, Bool.false_and, Bool.not_false, Bool.and_true]
    exact bit_bits old 15 b (by omega)

end State
end Sys2Proof.Machine
end

section
/-! SUPPORT. Serving a write of a whole register that does nothing beside holding its fields (R48, R51, R53). -/

namespace Sys2Proof.Machine
namespace State

/-! ### The set, clear and toggle views are for registers that have them (R50) -/

/-- The checks of a window answer its own target. -/
theorem judgeWindow_ok {r : Req} {a : Nat} {w : Width} {need : Nat} {locked : Bool} {t u : Target}
    (h : judgeWindow r a w need locked t = .ok u) : u = t := by
  unfold judgeWindow at h
  -- width, alignment, class and lock
  iterate 4
    split at h
    · cases h
  exact (Verdict.ok.inj h).symm

/-- An access that reaches a register has passed the checks of the register space. -/
theorem judge_judgeReg {s : State} {r : Req} {a : Nat} {w : Width} {wr : Bool} {x : Found} {v : View} {p : Part}
    (h : s.judge r a w wr = .ok (.reg x v p)) : s.judgeReg r a w wr = .ok (.reg x v p) := by
  unfold judge at h
  dsimp only at h
  split at h
  · -- DDR4
    split at h <;> cases h
  split at h
  · -- the windows of the chain
    split at h
    · split at h <;> cases h
    · cases h
  split at h
  · -- the Slab
    split at h
    · cases judgeWindow_ok h
    · cases h
  split at h
  · -- the cluster store
    split at h
    · split at h <;> cases judgeWindow_ok h
    · cases h
  split at h
  · -- the register space
    split at h
    · exact h
    · cases h
  split at h
  · -- the application cores' memories and the Keeper SRAM
    split at h
    · cases h
    split at h
    · split at h <;> cases h
    split at h
    · cases judgeWindow_ok h
    · cases h
  · cases h

/-- An access to a register by a set, clear or toggle view has passed the check of the register's type. -/
theorem judge_aliasable {s : State} {r : Req} {a : Nat} {w : Width} {wr : Bool} {x : Found} {v : View} {p : Part}
    (h : s.judge r a w wr = .ok (.reg x v p)) (hv : v ≠ .normal) : x.row.aliasable = true := by
  obtain ⟨hx, rfl, -⟩ := judge_reg h
  have hj := judge_judgeReg h
  unfold judgeReg at hj
  rw [hx] at hj
  dsimp only at hj
  refine Decidable.byContradiction fun hn => ?_
  -- width, alignment and 64-bit access come before the check of the view
  iterate 3
    split at hj
    · cases hj
  cases (if_pos ⟨hv, Bool.eq_false_iff.mpr hn⟩).symm.trans hj

/-- A register with set, clear and toggle views has RW, read-only and reserved fields alone. -/
theorem aliasable_fields {x : RegRow} (h : x.aliasable = true) {y : Field} (hy : y ∈ x.fields) :
    y.type = .rw ∨ y.type = .ro ∨ y.type = .rsv := by
  unfold RegRow.aliasable at h
  rw [Bool.and_eq_true, List.all_eq_true] at h
  have ht := h.2 y hy
  cases hc : y.type <;> simp [hc] at ht ⊢

/-! ### Serving the write -/

/-- A write of a whole register carries all of its bits, and at most empties holding and staging registers (R48). -/
theorem assemble_whole (s : State) (r : Req) (x : Found) (d : Nat) :
    ∃ hold stage, s.assemble r x .whole d =
      (some (2 ^ x.row.size - 1, d % 2 ^ x.row.size), s.setBus { s.bus with hold := hold, stage := stage }) := by
  unfold assemble RegRow.size
  cases x.row.wide with
  | true => exact ⟨_, _, rfl⟩
  | false => exact ⟨s.bus.hold, s.bus.stage, rfl⟩

/-- A write of a whole register that does nothing beside holding its fields writes them, answers its master, and changes
nothing else. -/
theorem serve_plain_whole (s : State) (r : Req) {x : Found} (v : View) (d : Nat) (hs : isSlow x = false) :
    let t := serveRegWrite plainWrite r x v .whole d s
    t.reg x.addr = BitVec.ofNat 64 (writeFields x.addr (v != .normal) x.row.fields (2 ^ x.row.size - 1)
      (View.apply v (s.reg x.addr).toNat (d % 2 ^ x.row.size)) (s.reg x.addr).toNat) ∧
    Answered r 0 s t ∧ OnlyWide [x.addr] s t := by
  obtain ⟨hold, stage, e⟩ := s.assemble_whole r x d
  simp only [serveRegWrite, plainWrite, e, hs, Bool.false_eq_true, if_false, setBus_read_reg,
    setBus_respond _ _ _ _ _ (show RespKind.done ≠ .busError by decide)]
  refine ⟨reg_setReg_same .., rfl, rfl, fun b hb => ?_, fun _ => rfl⟩
  rw [reg_setReg_other _ _ (by simpa using hb), setBus_read_reg]

/-- A field of a register that was written with a number. -/
theorem bits_ofNat {x : Found} {y : Field} (hf : FieldsFit x.row.size x.row.fields) (hy : y ∈ x.row.fields) (v : Nat) :
    bits (BitVec.ofNat 64 v).toNat y.hi y.lo = bits v y.hi y.lo := by
  obtain ⟨hl, hn⟩ := hf.1 y hy
  rw [BitVec.toNat_ofNat, bits_mod (Nat.lt_of_lt_of_le hn x.row.size_le) hl]

/-- A view makes each field of the value written from that field alone (R51). -/
theorem bits_apply (v : View) (old d hi lo : Nat) :
    bits (View.apply v old d) hi lo = View.apply v (bits old hi lo) (bits d hi lo) := by
  cases v with
  | normal => rfl
  | set => exact bits_or ..
  | clear => exact bits_sub_and ..
  | toggle => exact bits_xor ..

/-- A write by a set, clear or toggle view gives an RW field what the view makes of its bits, and leaves every other field
(R50, R51). -/
theorem writeAny_alias {s : State} {r : Req} {a : Nat} {w : Width} {x : Found} {v : View} (d : Word)
    (hp : x.row.eff = .plain) (hs : isSlow x = false) (hm : s.mute r = false) (hv : v ≠ .normal)
    (h : s.judge r a w true = .ok (.reg x v .whole)) :
    let t := s.writeAny r a w d
    (∀ y ∈ x.row.fields, bits (t.reg x.addr).toNat y.hi y.lo =
      if y.type = .rw then View.apply v (bits (s.reg x.addr).toNat y.hi y.lo) (bits d.toNat y.hi y.lo)
      else bits (s.reg x.addr).toNat y.hi y.lo) ∧
    Answered r 0 s t ∧ OnlyWide [x.addr] s t := by
  have hf : FieldsFit x.row.size x.row.fields := found_fields_fit (judge_reg h).1
  obtain ⟨hreg, hframe⟩ := s.serve_plain_whole r v d.toNat hs
  have hw : writeEffect x.row.eff = plainWrite := by rw [hp]; rfl
  rw [writeAny_reg hm h, hw]
  refine ⟨fun y hy => ?_, hframe⟩
  obtain ⟨hl, hn⟩ := hf.1 y hy
  rw [hreg, bits_ofNat hf hy, show (v != .normal) = true by simpa using hv]
  split
  next ht => rw [bits_writeFields_rw hf hy ht, bits_apply, bits_mod hn hl]
  next ht => exact bits_writeFields_kept hf hy ((aliasable_fields (judge_aliasable h hv) hy).resolve_left ht)

/-! ### Clearing by sequence -/

/-- A flag of a register that was written with a number. -/
theorem bit_ofNat (v : Nat) {b : Nat} (hb : b < 64) : bit (BitVec.ofNat 64 v).toNat b = bit v b := by
  rw [bit_testBit, bit_testBit, BitVec.toNat_ofNat, Nat.testBit_mod_two_pow]
  simp [hb]

/-- An access that passes names the register's own address. -/
theorem passes_addr {s : State} {r : Req} {a : Nat} {w : Width} {wr : Bool} {x : Found} (h : s.passes r a w wr = true)
    (hx : findReg a = some x) : x.addr = a := by
  have hj := (passes_reg h hx).2
  unfold passes at h
  rw [hj] at h
  simp only [Bool.and_eq_true, beq_iff_eq] at h
  exact h.2

/-- A 32-bit access that passes reaches a register of 32 bits. -/
theorem passes_narrow {s : State} {r : Req} {a : Nat} {wr : Bool} {x : Found} (h : s.passes r a .w32 wr = true)
    (hx : findReg a = some x) : x.row.wide = false := by
  have hp := (judge_reg (passes_reg h hx).2).2.2
  refine Decidable.byContradiction fun hw => ?_
  rw [if_neg fun h => h.elim hw nofun] at hp
  split at hp <;> cases hp

theorem bits_clearWord (seq mask : BitVec 16) :
    bits ((clearWord seq mask).toNat % 2 ^ 32) 31 16 = seq.toNat ∧
      bits ((clearWord seq mask).toNat % 2 ^ 32) 15 0 = mask.toNat := by
  have hs := seq.isLt
  have hm := mask.isLt
  rw [clearWord, BitVec.toNat_ofNat]
  unfold bits
  omega

/-- A write of SEQ and mask to a status register that passes clears the selected flags where SEQ is the current one (R53). -/
theorem sequenceClear_effect {s : State} {r : Req} {a : Nat} {seq mask : BitVec 16} {x : Found} (hx : findReg a = some x)
    (heff : x.row.eff ∈ [Eff.plain, .chainDoorbell]) (hfields : x.row.fields = statusFields) (hslow : isSlow x = false)
    (hp : s.passes r a .w32 true = true) :
    let t := s.writeAny r a .w32 (clearWord seq mask)
    (∀ b, b < 16 → t.flagSet a b =
      (s.flagSet a b && !(decide (seq.toNat = bits (s.reg a).toNat 31 16) && mask.getLsbD b))) ∧
    bits (t.reg a).toNat 31 16 = bits (s.reg a).toNat 31 16 ∧ Answered r 0 s t ∧ OnlyWide [a] s t := by
  obtain ⟨hm, hj⟩ := passes_reg hp hx
  have hw : writeEffect x.row.eff = plainWrite := by
    simp only [List.mem_cons, List.not_mem_nil, or_false] at heff
    rcases heff with e | e <;> rw [e] <;> rfl
  have hb : x.row.size = 32 := by simp [RegRow.size, passes_narrow hp hx]
  obtain ⟨hreg, hans, honly⟩ := s.serve_plain_whole r .normal (clearWord seq mask).toNat hslow
  rw [hfields, hb, passes_addr hp hx] at hreg
  rw [passes_addr hp hx] at honly
  obtain ⟨hseq, hmask⟩ := bits_clearWord seq mask
  rw [writeAny_reg hm hj, hw]
  refine ⟨fun b hb => ?_, ?_, hans, honly⟩
  · rw [flagSet, flagSet, hreg, bit_ofNat _ (by omega), flag_writeFields _ _ _ _ _ _ hb, View.apply, hseq, hmask,
      bit_testBit mask.toNat, BitVec.testBit_toNat]
  · rw [hreg, BitVec.toNat_ofNat, bits_mod (by decide) (by decide), seq_writeFields]

end State
end Sys2Proof.Machine
end

section
/-! The statements on register access, settled. -/

namespace Sys2Proof.Machine

/-- Settles O5: the floors, locks and logs by the map's reset values, the tables because they are empty, and the write-once
fields and the status registers by one look at the rows of the map. -/
theorem resetState : Obligations.ResetState := by
  unfold Obligations.ResetState
  refine ⟨by decide +kernel, by decide +kernel, by decide +kernel, by decide +kernel, by decide +kernel, fun _ => rfl,
    fun _ => ⟨rfl, rfl⟩, ?_, ?_⟩
  · intro a x hx y hy ht
    rw [State.reset_reg, resetAt_found hx (.inr ⟨y, hy, ht⟩)]
    simp [bits]
  · intro a x hx ho
    exact ⟨resetAt_found hx (.inl ho), resetAt_found hx (.inl ho)⟩

/-- Settles O6: a denied access is `deny`, which answers and logs. -/
theorem deniedAccessIsLogged : Obligations.DeniedAccessIsLogged := by
  unfold Obligations.DeniedAccessIsLogged
  constructor
  · intro r a w d need s hup hm hj
    refine ⟨s.deny r a.toNat true need, ?_, by simpa using s.deny_told r a.toNat true need,
      s.deny_logged r a.toNat true need a.isLt⟩
    rw [State.exec_registerWrite hup, State.writeAny_denied hm hj]
  · intro r a w need s hup hm hj
    refine ⟨s.deny r a.toNat false need, ?_, by simpa using s.deny_told r a.toNat false need,
      s.deny_logged r a.toNat false need a.isLt⟩
    rw [State.exec_registerRead hup, State.readAny_denied hm hj]

/-- Settles O11: a sequence clear by the two fields of a status register, and the other views by what each makes of the
bits of a field. -/
theorem aliasWritesAndSequenceClear : Obligations.AliasWritesAndSequenceClear := by
  unfold Obligations.AliasWritesAndSequenceClear
  constructor
  · intro r a seq mask x s hup hx heff hfields hslow hpass
    exact ⟨_, State.exec_sequenceClear hup r a seq mask, State.sequenceClear_effect hx heff hfields hslow hpass⟩
  · intro r a w d x s hup hplain hslow hmute
    exact ⟨
      fun hj => ⟨_, State.exec_setAliasWrite hup r a w d, State.writeAny_alias d hplain hslow hmute (by decide) hj⟩,
      fun hj => ⟨_, State.exec_clearAliasWrite hup r a w d, State.writeAny_alias d hplain hslow hmute (by decide) hj⟩,
      fun hj => ⟨_, State.exec_toggleAliasWrite hup r a w d, State.writeAny_alias d hplain hslow hmute (by decide) hj⟩⟩

end Sys2Proof.Machine
end

section
/-! SUPPORT. The writes of the timebase's registers: the state in which a write's effect acts, what a clamped increment, a step
or set, and a capture leave, and the configuration of a SYNCOUT pair (R105, R106, R108, R132). -/

namespace Sys2Proof.Machine

/-- A SYNCOUT pair after a write over the configuration old: a pulse in progress finishes under the configuration that it
began with, also where the write clears EN (the model's choice, log entry 96), and the pair waits for the new source. -/
def SyncPair.rewritten (p : SyncPair) (old : Word) (v : Bool) : SyncPair :=
  { p with oldH := if p.h then some (p.oldH.getD old) else none, oldV := if p.v then some (p.oldV.getD old) else none,
           waiting := true, vSource := v }

namespace State

/-! ### A write that passes -/

/-- The state in which the effect of a write of r acts: r is answered, with the holding and staging registers that R48
leaves. -/
def writeServed (s : State) (r : Req) (hold stage : Tab Half64) : State :=
  s.setBus { s.bus with resp := Tab.put s.bus.resp r.master.val ⟨.done, 0, 0⟩, hold := hold, stage := stage }

/-- A write command of a 64-bit register that passes runs its effect on the value that the write leaves in the fields. -/
theorem running_write_wide {s : State} {r : Req} {a d : Nat} {w : Width} {eff : WriteEffect} {x : Found} (h : s.Up)
    (hp : s.passes r a w true = true) (hx : findReg a = some x) (hw : x.row.wide = true) :
    ∃ hold stage, (running s fun t => t.writeReg r a w d eff) =
      .next (eff r x (writeFields x.addr false x.row.fields (2 ^ 64 - 1) (d % 2 ^ 64) (s.reg x.addr).toNat) (d % 2 ^ 64)
        (2 ^ 64 - 1) (s.writeServed r hold stage)) := by
  have hsize : x.row.size = 64 := by simp [RegRow.size, hw]
  obtain ⟨hold, stage, e⟩ := s.assemble_whole r x d
  refine ⟨hold, stage, ?_⟩
  rw [running_up h, writeReg_passes hp hx, serveRegWrite, e, hsize]
  dsimp only
  rw [setBus_respond _ _ _ _ _ (by decide)]
  rfl

/-- The same of a 32-bit register, whose write empties no holding and no staging register. -/
theorem running_write_narrow {s : State} {r : Req} {a d : Nat} {w : Width} {eff : WriteEffect} {x : Found} (h : s.Up)
    (hp : s.passes r a w true = true) (hx : findReg a = some x) (hw : x.row.wide = false) :
    (running s fun t => t.writeReg r a w d eff) =
      .next (eff r x (writeFields x.addr false x.row.fields (2 ^ 32 - 1) (d % 2 ^ 32) (s.reg x.addr).toNat) (d % 2 ^ 32)
        (2 ^ 32 - 1) (s.writeServed r s.bus.hold s.bus.stage)) := by
  rw [running_up h, writeReg_passes hp hx, serve_narrow hw, respond_eq _ _ _ _ (by decide)]
  rfl

/-- A write whose effect changes nothing but registers answers its master, and changes nothing else. -/
theorem onlyRegs_of_writeServed {s t : State} {r : Req} {as : List Nat}
    (h : t = { s.writeServed r s.bus.hold s.bus.stage with regs := t.regs })
    (hregs : RegsBut as (s.writeServed r s.bus.hold s.bus.stage) t) :
    Answered r 0 s t ∧ OnlyRegs as s t := by
  have hbus := congrArg State.bus h
  have hcycle := congrArg State.cycle h
  have hmem := congrArg State.mem h
  exact ⟨congrArg Bus.resp hbus, h.trans (by rw [hbus, hcycle]; rfl), hregs, fun a => congrArg (Mem.read · a) hmem⟩

/-! ### Set events that may not happen -/

/-- Where flags are raised unless c, they are raised as R52 says. -/
theorem raised_unless (s : State) {a : Nat} {l : List Nat} (c : Prop) [Decidable c] (h : l ≠ []) :
    Raised a (if c then [] else l) s (if c then s else s.raiseAll a l) := by
  split
  · exact ⟨fun b _ => by simp, by simp⟩
  · exact s.raiseAll_raised h

/-! ### TB_INCR (R105) -/

theorem clampIncr_lt (n : Nat) : clampIncr n < 2 ^ 48 := by unfold clampIncr; omega

/-- TB_INCR after a write of new, with the increment clamped. -/
def incrWord (new : Nat) : Word := BitVec.ofNat 64 (putBits new 47 0 (clampIncr (bits new 47 0)))

theorem incrWord_incr (new : Nat) : bits (incrWord new).toNat 47 0 = clampIncr (bits new 47 0) := by
  rw [incrWord, BitVec.toNat_ofNat, bits_mod (by decide) (by decide), bits_putBits_same (by decide)]
  exact Nat.mod_eq_of_lt (clampIncr_lt _)

/-- Noting an increment changes the history of increments alone. -/
theorem noteIncr_frame (s : State) (n : Nat) :
    s.noteIncr n = s.setTime { s.time with history := (s.noteIncr n).time.history } := by
  unfold noteIncr
  split <;> rfl

theorem noteIncr_reg (s : State) (n a : Nat) : (s.noteIncr n).reg a = s.reg a := by
  rw [noteIncr_frame]; rfl

theorem noteIncr_cycle (s : State) (n : Nat) : (s.noteIncr n).cycle = s.cycle := by
  rw [noteIncr_frame]; rfl

/-- A state that holds the clamped increment in the register at a, and has noted it. -/
def incrHeld (s : State) (a new : Nat) : State := (s.setReg a (incrWord new)).noteIncr (clampIncr (bits new 47 0))

theorem tbIncrWrite_eq (s : State) (r : Req) (x : Found) (new d mask : Nat) :
    tbIncrWrite r x new d mask s =
      if clampIncr (bits new 47 0) = bits new 47 0 then s.incrHeld x.addr new
      else (s.incrHeld x.addr new).raiseAll Reg.TIMEBASE_BLOCK_STATUS [Flag.TIMEBASE_INCR_CLAMPED] := rfl

theorem incrHeld_reg (s : State) (a new b : Nat) :
    (s.incrHeld a new).reg b = (s.setReg a (incrWord new)).reg b := noteIncr_reg ..

theorem incrHeld_cycle (s : State) (a new : Nat) : (s.incrHeld a new).cycle = s.cycle := noteIncr_cycle ..

/-- A write of TB_INCR leaves the clamped increment in the register. -/
theorem tbIncrWrite_reg (s : State) (r : Req) (x : Found) (new d mask : Nat) {a : Nat} (ha : a ≠ Reg.TIMEBASE_BLOCK_STATUS) :
    (tbIncrWrite r x new d mask s).reg a = (s.setReg x.addr (incrWord new)).reg a := by
  rw [tbIncrWrite_eq]
  split
  · exact incrHeld_reg ..
  · rw [reg_raiseAll_other _ _ ha, incrHeld_reg]

/-- INCR reads the clamped increment. -/
theorem tbIncrWrite_incr (s : State) (r : Req) {x : Found} (new d mask : Nat) (hx : x.addr = Reg.TB_INCR) :
    (tbIncrWrite r x new d mask s).f Reg.TB_INCR_INCR = clampIncr (bits new 47 0) := by
  rw [f, tbIncrWrite_reg _ _ _ _ _ _ (by decide), hx, Reg.TB_INCR_INCR, reg_setReg_same, incrWord_incr]

/-- A write of TB_INCR raises INCR_CLAMPED where the clamp changed the increment. -/
theorem tbIncrWrite_raised (s : State) (r : Req) {x : Found} (new d mask : Nat) (hx : x.addr = Reg.TB_INCR) :
    Raised Reg.TIMEBASE_BLOCK_STATUS
      (if clampIncr (bits new 47 0) = bits new 47 0 then [] else [Flag.TIMEBASE_INCR_CLAMPED]) s
      (tbIncrWrite r x new d mask s) := by
  have hstatus : (s.incrHeld x.addr new).reg Reg.TIMEBASE_BLOCK_STATUS = s.reg Reg.TIMEBASE_BLOCK_STATUS := by
    rw [incrHeld_reg, hx, reg_setReg_other _ _ (by decide)]
  rw [tbIncrWrite_eq]
  exact (raised_unless _ _ (List.cons_ne_nil _ _)).of_same hstatus.symm (incrHeld_cycle ..).symm rfl

theorem tbIncrWrite_regsBut (s : State) (r : Req) {x : Found} (new d mask : Nat) (hx : x.addr = Reg.TB_INCR) :
    RegsBut [Reg.TB_INCR, Reg.TIMEBASE_BLOCK_STATUS] s (tbIncrWrite r x new d mask s) := by
  intro a ha
  simp only [List.mem_cons, List.not_mem_nil, or_false, not_or] at ha
  obtain ⟨hi, hs⟩ := ha
  rw [tbIncrWrite_reg _ _ _ _ _ _ hs, hx, reg_setReg_other _ _ hi]

/-- A write of TB_INCR changes registers, the record of set events and the history of increments alone. -/
theorem tbIncrWrite_frame (s : State) (r : Req) (x : Found) (new d mask : Nat) :
    let t := tbIncrWrite r x new d mask s
    t = { s with regs := t.regs, cycle := t.cycle, time := { s.time with history := t.time.history } } := by
  rw [tbIncrWrite_eq, incrHeld, noteIncr_frame]
  dsimp only
  split <;> rfl

/-! ### Steps and sets (R106) -/

/-- A step or set raises STEP_DONE. -/
theorem moveTime_raised (s : State) (m : Nat) (op : TimeOp) :
    Raised Reg.TIMEBASE_BLOCK_STATUS [Flag.TIMEBASE_STEP_DONE] s (s.moveTime m op) :=
  (raiseAll_raised _ (List.cons_ne_nil _ _)).of_same rfl rfl rfl

/-- A step or set changes no register but the status. -/
theorem moveTime_regs (s : State) (m : Nat) (op : TimeOp) : RegsBut [Reg.TIMEBASE_BLOCK_STATUS] s (s.moveTime m op) :=
  fun _ ha => reg_raiseAll_other _ _ (by simpa using ha)

/-- A step or set joins those of its FCLK, and changes nothing else but registers and the record of set events. -/
theorem moveTime_frame (s : State) (m : Nat) (op : TimeOp) :
    s.moveTime m op = { s with regs := (s.moveTime m op).regs, cycle := (s.moveTime m op).cycle,
                               time := { s.time with ops := addTimeOp s.time.ops m op } } := rfl

/-! ### TB_CAPTURE (R108) -/

/-- The tick of a reference position has 16 bits (R121). -/
theorem refPos_t_lt (s : State) : s.refPos.t < 2 ^ 16 := Nat.mod_lt _ (by decide)

/-- A capture copies Device Time and the reference position into the capture registers, and changes no other register. -/
theorem tbCaptureWrite_regs (s : State) (r : Req) (x : Found) (new d mask : Nat) :
    let t := tbCaptureWrite r x new d mask s
    t.f Reg.TB_CAP_TIME_SEC = secOf s.tq ∧ t.f Reg.TB_CAP_TIME_FRAC = s.tq % 65536 ∧ t.f Reg.TB_CAP_NS_NS = nsOf s.tq ∧
    t.f Reg.TB_CAP_RPF_F = s.refPos.f % 2 ^ 48 ∧ t.f Reg.TB_CAP_RPLT_L = s.refPos.l % 2 ^ 16 ∧
    t.f Reg.TB_CAP_RPLT_T = s.refPos.t ∧
    RegsBut [Reg.TB_CAP_TIME, Reg.TB_CAP_NS, Reg.TB_CAP_RPF, Reg.TB_CAP_RPLT] s t := by
  have hsec : secOf s.tq < 2 ^ 48 := Nat.mod_lt _ (by decide)
  have hns : nsOf s.tq < 2 ^ 32 := Nat.lt_trans (Nat.mod_lt _ (by decide)) (by decide)
  unfold tbCaptureWrite
  dsimp only
  refine ⟨?_, ?_, ?_, ?_, ?_, ?_, fun a ha => ?_⟩
  case refine_7 =>
    simp only [List.mem_cons, List.not_mem_nil, or_false, not_or] at ha
    obtain ⟨htime, hnsec, hf, hlt⟩ := ha
    rw [reg_setF_other _ _ hlt, reg_setF_other _ _ hlt, reg_setF_other _ _ hf, reg_setF_other _ _ hnsec,
      reg_setF_other _ _ htime, reg_setF_other _ _ htime]
  all_goals simp (disch := decide) only [f_setF_same, f_setF_disjoint, f_setF_other]
  · exact Nat.mod_eq_of_lt hsec
  · exact Nat.mod_mod _ _
  · exact Nat.mod_eq_of_lt hns
  · rfl
  · rfl
  · exact Nat.mod_eq_of_lt s.refPos_t_lt

/-- A capture changes nothing but registers. -/
theorem tbCaptureWrite_frame (s : State) (r : Req) (x : Found) (new d mask : Nat) :
    tbCaptureWrite r x new d mask s = { s with regs := (tbCaptureWrite r x new d mask s).regs } := by
  simp only [tbCaptureWrite, setF, setReg]

/-! ### TB_SYNCOUT_CFG (R132) -/

theorem syncoutWrite_eq (s : State) (r : Req) (x : Found) (new d mask : Nat) :
    ∃ v, syncoutWrite r x new d mask s =
      (s.setReg x.addr (BitVec.ofNat 64 new)).setTime { s.time with
        sync := s.time.sync.set (x.idx.headD 0)
          (SyncPair.rewritten (s.time.sync.getD (x.idx.headD 0) {}) (s.reg x.addr) v) } :=
  ⟨_, rfl⟩

/-- The fields of TB_SYNCOUT_CFG are RW and make up the whole register, which takes what is written. -/
theorem syncoutCfg_written (n : Fin 4) {x : Found} (hx : findReg (Reg.TB_SYNCOUT_CFG n) = some x) (d : Half) (old : Nat) :
    bits (BitVec.ofNat 64 (writeFields x.addr false x.row.fields (2 ^ 32 - 1) (d.toNat % 2 ^ 32) old)).toNat 31 0 = d.toNat := by
  have hfit : FieldsFit x.row.size x.row.fields := found_fields_fit hx
  obtain rfl := Option.some.inj ((Reg.TB_SYNCOUT_CFG_found n).symm.trans hx)
  dsimp only at hfit ⊢
  have hd := d.isLt
  rw [BitVec.toNat_ofNat, bits_mod (by decide) (by decide), Nat.mod_eq_of_lt hd]
  have hfield := fun y hy => bits_writeFields_rw (a := Reg.TB_SYNCOUT_CFG n) (al := false) (d := d.toNat) (old := old)
    (n := 32) (y := y) hfit hy
  simp only [List.forall_mem_cons, List.not_mem_nil, false_imp_iff, implies_true, and_true, forall_const] at hfield
  generalize writeFields _ _ _ _ _ _ = v at hfield ⊢
  unfold bits at hfield ⊢
  omega

/-! ### The commands -/

variable {s : State} {r : Req}

/-- A write of TB_INCR that passes serves its effect on the increment written. -/
theorem exec_tbIncrWrite {d : Word} (h : s.Up) (hp : s.passes r Reg.TB_INCR .w64 true = true) :
    ∃ x new data mask hold stage, x.addr = Reg.TB_INCR ∧ bits new 47 0 = bits d.toNat 47 0 ∧
      exec (.tbIncrWrite r d) s = .next (tbIncrWrite r x new data mask (s.writeServed r hold stage)) := by
  obtain ⟨hold, stage, e⟩ := running_write_wide (d := d.toNat) (eff := tbIncrWrite) h hp Reg.TB_INCR_found rfl
  refine ⟨_, _, _, _, hold, stage, rfl, Eq.trans ?_ (congrArg (bits · 47 0) (Nat.mod_eq_of_lt d.isLt)), e⟩
  exact bits_writeFields_rw (n := 64) (y := ⟨47, 0, .rw⟩) (found_fields_fit Reg.TB_INCR_found) (by simp) rfl

/-- A write of TB_STEP that passes moves time by the signed offset written. -/
theorem exec_tbStep {d : Word} (h : s.Up) (hp : s.passes r Reg.TB_STEP .w64 true = true) :
    ∃ hold stage, exec (.tbStep r d) s =
      .next ((s.writeServed r hold stage).moveTime r.master.val (.step (sgn 64 d.toNat))) := by
  obtain ⟨hold, stage, e⟩ := running_write_wide (d := d.toNat) (eff := tbStepWrite) h hp Reg.TB_STEP_found rfl
  refine ⟨hold, stage, e.trans ?_⟩
  rw [tbStepWrite, Nat.and_two_pow_sub_one_eq_mod, Nat.mod_mod, Nat.mod_eq_of_lt d.isLt]

/-- A write of TB_SET_NS that passes sets time to the held SEC and FRAC and the nanoseconds written. -/
theorem exec_tbSetNs {d : Half} (h : s.Up) (hp : s.passes r Reg.TB_SET_NS .w32 true = true) :
    exec (.tbSetNs r d) s = .next ((s.writeServed r s.bus.hold s.bus.stage).moveTime r.master.val
      (.set ((s.time.setSec * 1000000000 + min 999999999 (bits d.toNat 29 0)) * 65536 + s.time.setFrac))) := by
  have e := running_write_narrow (d := d.toNat) (eff := tbSetNsWrite) h hp Reg.TB_SET_NS_found rfl
  refine e.trans ?_
  rw [tbSetNsWrite, Nat.mod_eq_of_lt d.isLt]
  rfl

/-- A write of TB_CAPTURE that passes captures. -/
theorem exec_tbCapture {d : Half} (h : s.Up) (hp : s.passes r Reg.TB_CAPTURE .w32 true = true) :
    ∃ x new data mask, exec (.tbCapture r d) s =
      .next (tbCaptureWrite r x new data mask (s.writeServed r s.bus.hold s.bus.stage)) :=
  ⟨_, _, _, _, running_write_narrow h hp Reg.TB_CAPTURE_found rfl⟩

/-- A write of TB_SYNCOUT_CFG that passes holds what is written and rewrites its pair. -/
theorem exec_syncoutCfgWrite {n : Fin 4} {d : Half} (h : s.Up)
    (hp : s.passes r (Reg.TB_SYNCOUT_CFG n) .w32 true = true) :
    ∃ v w, bits (BitVec.ofNat 64 w).toNat 31 0 = d.toNat ∧ exec (.syncoutCfgWrite r n d) s =
      .next (((s.writeServed r s.bus.hold s.bus.stage).setReg (Reg.TB_SYNCOUT_CFG n) (BitVec.ofNat 64 w)).setTime { s.time with
        sync := s.time.sync.set n (SyncPair.rewritten (s.time.sync.getD n {}) (s.reg (Reg.TB_SYNCOUT_CFG n)) v) }) := by
  have e := running_write_narrow (d := d.toNat) (eff := syncoutWrite) h hp (Reg.TB_SYNCOUT_CFG_found n) rfl
  obtain ⟨v, hv⟩ := syncoutWrite_eq (s.writeServed r s.bus.hold s.bus.stage) r _ _ _ _
  exact ⟨v, _, syncoutCfg_written n (Reg.TB_SYNCOUT_CFG_found n) d _, e.trans (congrArg _ hv)⟩

end State
end Sys2Proof.Machine
end

section
/-! The statement on the writes of the timebase, settled. -/

namespace Sys2Proof.Machine
open State

/-- Settles O22: each write acts in the state in which its master has its answer, and each effect says what it leaves. -/
theorem timebaseWrites : Obligations.TimebaseWrites := by
  unfold Obligations.TimebaseWrites
  refine ⟨fun r d s hup hp => ?_, fun r d s hup hp => ?_, fun r d s hup hp => ?_, fun r d s hup hp => ?_,
    fun r n d s hup hp => ?_⟩
  · -- TB_INCR
    obtain ⟨x, new, data, mask, hold, stage, hx, hnew, e⟩ := exec_tbIncrWrite (d := d) hup hp
    have hincr := tbIncrWrite_incr (s.writeServed r hold stage) r new data mask hx
    have hframe := tbIncrWrite_frame (s.writeServed r hold stage) r x new data mask
    have hbus := congrArg State.bus hframe
    refine ⟨_, e, congrArg Bus.resp hbus, hincr.trans (by rw [hnew, clampIncr]), ?_,
      tbIncrWrite_regsBut _ r new data mask hx, hframe.trans (by rw [hbus]; rfl)⟩
    rw [hincr, ← hnew]
    exact tbIncrWrite_raised _ r new data mask hx
  · -- TB_STEP
    obtain ⟨hold, stage, e⟩ := exec_tbStep (d := d) hup hp
    exact ⟨_, e, rfl, moveTime_raised .., moveTime_regs _ _ _, moveTime_frame ..⟩
  · -- TB_SET_NS
    exact ⟨_, exec_tbSetNs hup hp, rfl, moveTime_raised .., moveTime_regs _ _ _, rfl, moveTime_frame ..⟩
  · -- TB_CAPTURE
    obtain ⟨x, new, data, mask, e⟩ := exec_tbCapture (d := d) hup hp
    obtain ⟨hsec, hfrac, hns, hf, hl, ht, hregs⟩ :=
      tbCaptureWrite_regs (s.writeServed r s.bus.hold s.bus.stage) r x new data mask
    obtain ⟨hanswered, honly⟩ := onlyRegs_of_writeServed (s := s) (tbCaptureWrite_frame _ r x new data mask) hregs
    exact ⟨_, e, hanswered, hsec, hfrac, hns, hf, hl, ht, honly⟩
  · -- TB_SYNCOUT_CFG
    obtain ⟨v, w, hw, e⟩ := exec_syncoutCfgWrite (d := d) hup hp
    refine ⟨_, e, rfl, ?_, fun a ha => ?_, fun p hpair => ⟨v, ?_⟩, fun k hk => ?_, rfl⟩
    · rw [setTime_read_reg, reg_setReg_same, hw]
    · exact reg_setReg_other _ _ (by simpa using ha)
    · obtain ⟨hlt, hget⟩ := List.getElem?_eq_some_iff.mp hpair
      rw [setTime_time, List.getElem?_set_self hlt, List.getD_eq_getElem?_getD, hpair]
      rfl
    · exact List.getElem?_set_ne (by omega)

end Sys2Proof.Machine
end
